-- ==== Sys2Proof/Word.lean ====
section
/-! DEFINITION. The word types of the block and their plainest arithmetic: bytes, 64-bit words, bit fields of a natural
number, and little-endian byte lists (spec/00_scope.md R8, R9). -/

namespace Sys2Proof

/-- One byte. -/
abbrev Byte := BitVec 8

/-- A sequencer register or instruction word (spec/05_stream_programs.md R108, R109). -/
abbrev Word := BitVec 64

/-- Bits `[lo + len - 1 : lo]` of a little-endian value (R8). -/
def bits (v lo len : Nat) : Nat := (v >>> lo) % 2 ^ len

/-- Bit `i` of a value. -/
def bit (v i : Nat) : Bool := bits v i 1 == 1

/-- 1 for true, 0 for false. -/
def b2n (b : Bool) : Nat := if b then 1 else 0

/-- `v` with bits `[lo + len - 1 : lo]` replaced by `x`. -/
def setBits (v lo len x : Nat) : Nat :=
  v - (bits v lo len) * 2 ^ lo + (x % 2 ^ len) * 2 ^ lo

/-- A list of `(low bit, width, value)` fields as one little-endian value (R8, R422). -/
def pack : List (Nat × Nat × Nat) → Nat
  | [] => 0
  | (lo, len, x) :: fs => (x % 2 ^ len) * 2 ^ lo + pack fs

/-- The value of a little-endian byte list (R9). -/
def ofBytes : List Byte → Nat
  | [] => 0
  | b :: bs => b.toNat + 256 * ofBytes bs

/-- `n` little-endian bytes of a value (R9). -/
def toBytes : Nat → Nat → List Byte
  | 0, _ => []
  | n + 1, v => BitVec.ofNat 8 v :: toBytes n (v / 256)

/-- A two's-complement reading of the low `w` bits of `v`. -/
def toSigned (w v : Nat) : Int :=
  let x := v % 2 ^ w
  if x < 2 ^ (w - 1) then (x : Int) else (x : Int) - (2 ^ w : Nat)

/-- The low `w` bits of an integer, two's complement. -/
def ofSigned (w : Nat) (v : Int) : Nat := (v % ((2 ^ w : Nat) : Int)).toNat

/-- `a` rounded up to a multiple of `m`. -/
def roundUp (a m : Nat) : Nat := (a + m - 1) / m * m

/-- Smallest `q` with `q * m ≥ a`. -/
def ceilDiv (a m : Nat) : Nat := (a + m - 1) / m

/-- The index of the first element satisfying `p`, counting from `i`. -/
def firstIx {α : Type} (p : α → Bool) : List α → Nat → Option Nat
  | [], _ => none
  | x :: xs, i => if p x then some i else firstIx p xs (i + 1)

/-- The byte list cut into groups of `n` (the last one shorter), reading at most `fuel` groups. -/
def chunksOf {α : Type} (n : Nat) : Nat → List α → List (List α)
  | 0, _ => []
  | _, [] => []
  | fuel + 1, xs => xs.take n :: chunksOf n fuel (xs.drop n)

end Sys2Proof
end

