-- ==== Sys2Proof/Syntax.lean ====
section
/-! DEFINITION. The commands of the block: one constructor of `Instr` for every row of spec/opcode_table.json, in its order,
and the plain data their operands are made of. The table gives no bits and no operands; the operands are what the event
brings from outside the device. -/

namespace Sys2Proof

/-- A dictionary path: one of the eight BAR0 slots (R399) or a field-network peer, its source address and port (R405). -/
inductive Path where
  | slot (n : Fin 8)
  | peer (addr : Nat)
  deriving DecidableEq, Repr

/-- What every request has beside its operation, object and data (R393): the channel it comes by and REQSEQ, MAGIC, VERSION and KIND
of its header, and by how many bytes a datagram's payload differs from what the header announces (R405; of no meaning for a slot). -/
structure Rq where
  path : Path
  seq : Nat
  magic : Nat
  version : Nat
  kind : Nat
  excess : Nat
  deriving DecidableEq, Repr

/-- The header passes: MAGIC and VERSION (R399), and for a datagram KIND and the payload's length (R405). -/
def Rq.good (rq : Rq) : Bool :=
  decide (rq.magic = 0x5644) && decide (rq.version = 1) &&
    match rq.path with
    | .slot _ => true
    | .peer _ => decide (rq.kind = 0) && decide (rq.excess = 0)

/-- A request that carries no data (R394): its operation, its object's index, OFFSET and LENGTH. -/
structure ObjReq where
  op : Nat
  idx : Nat
  off : Nat
  len : Nat
  deriving DecidableEq, Repr

/-- A range of bytes of an object's value. -/
structure Span where
  off : Nat
  len : Nat
  deriving DecidableEq, Repr

/-- A host write in BAR2 or to the function's MSI-X masks (R400): CONSUMED, another BAR2 offset, or a mask bit (0 and 1 the vectors,
2 the function). -/
inductive HostWrite where
  | consumed (v : Nat)
  | window (off : Nat)
  | msixMask (k : Nat) (on : Bool)
  deriving DecidableEq, Repr

/-- An LFP frame: the header fields of R272, bytes 32 to 63 as one little-endian value (R273), and the payload. -/
structure Frame where
  ty : Nat
  vc : Nat
  epoch : Nat
  plane : Nat
  drow : Nat
  dcol : Nat
  dpset : Nat
  srow : Nat
  scol : Nat
  rclass : Nat
  hops : Nat
  sseq : Nat
  stamp : Nat
  spec : Nat
  payload : List Byte
  deriving DecidableEq, Repr

/-- What the FEC of a link reports of the codewords that carried a frame (R269, R298): codewords corrected, codewords not
correctable, symbols corrected. -/
structure Fec where
  corrected : Nat
  uncorr : Nat
  symbols : Nat
  deriving DecidableEq, Repr

/-- What the link layer tells of an arriving frame (R270, R277): LSEQ, CRC and POISON of its flit control word, what the FEC
reported, the LEN field and the granules it took, the links on which copies of it were already leaving when its last flit came
(R279), and which of its cells, if any, returned an uncorrectable error (R241). -/
structure RxInfo where
  lseq : Nat
  crc : Nat
  fec : Fec
  poison : Bool
  len : Nat
  granules : Nat
  under : List Nat
  badCell : Option Nat
  deriving DecidableEq, Repr

/-- How a write of coefficients to flash ends (R289, R453): well, with a failure of the flash, or with a mismatch at its read-back. -/
inductive CoefEnd where
  | ok | failed | mismatch
  deriving DecidableEq, Repr

/-- What qualification found beside the lanes' ratios (R288, R289): an uncorrectable codeword, and how the write of the coefficients
ends. -/
structure QualifyInfo where
  uncorr : Bool
  coef : CoefEnd
  deriving DecidableEq, Repr

/-- A NAK (R275, R277): the LSEQ expected, and a cell that returns an uncorrectable error as it is read for the replay (R241). -/
structure NakInfo where
  lseq : Nat
  bad : Option Nat
  deriving DecidableEq, Repr

/-- A retry timer's end (R277): whether it is the receiver's, and a cell that fails as it is read for the sender's replay
(R241). -/
structure ReplayInfo where
  rx : Bool
  bad : Option Nat
  deriving DecidableEq, Repr

/-- What comes with an Ethernet frame beside its bytes (R241, R279, R298), as in `RxInfo`. -/
structure EthInfo where
  fec : Fec
  under : List Nat
  badCell : Option Nat
  deriving DecidableEq, Repr

/-- A PFC frame of one priority (R294): its source address and its pause time. -/
structure PfcInfo where
  src : Nat
  time : Nat
  deriving DecidableEq, Repr

/-- A link that is free to start a frame (R303), and a cell that fails as it is read (R241). -/
structure EgressInfo where
  link : Nat
  bad : Option Nat
  deriving DecidableEq, Repr

/-- Where a chunk or request reached this device. -/
inductive Via where
  | endpoint (link : Nat)
  | fabric (link : Nat)
  | own
  deriving DecidableEq, Repr

/-- One whole chunk: the collective header of R164, the device that sent it over the fabric (SROW and SCOL) and the epoch its frames
are stamped with (R332; an endpoint's chunk takes the device's own), and the payload of all its frames; `lost` when a frame of it
was lost inside the device (R168), `badCell` the cell of it, if any, that returns an uncorrectable error (R241). -/
structure Chunk where
  via : Via
  row : Nat
  col : Nat
  job : Nat
  coll : Nat
  chunk : Nat
  crc : Nat
  kind : Nat
  stage : Nat
  terms : Nat
  scale : Nat
  flags : Nat
  dst : Nat
  src : Nat
  doff : Nat
  epoch : Nat
  lost : Bool
  badCell : Option Nat
  payload : List Byte
  deriving DecidableEq, Repr

/-- A Canopy request: the header of R337, the fields of R272 that the entry device set (0 from an endpoint), and its payload. -/
structure CanReq where
  via : Via
  caddr : Nat
  job : Nat
  rtag : Nat
  op : Nat
  nlm1 : Nat
  atype : Nat
  sunit : Nat
  mask : Nat
  srow : Nat
  scol : Nat
  epoch : Nat
  hops : Nat
  payload : List Byte
  deriving DecidableEq, Repr

/-- A Canopy response: the header of R339, the device it is for, the device that answers (for a window, the one that hosts it), and
its payload. -/
structure CanRsp where
  caddr : Nat
  job : Nat
  rtag : Nat
  op : Nat
  status : Nat
  sunit : Nat
  drow : Nat
  dcol : Nat
  srow : Nat
  scol : Nat
  payload : List Byte
  deriving DecidableEq, Repr

/-- What the stack interface reports for the reads and writes of one access (R355, R357, R363), at a line counted from the
access's first: nothing; words corrected; a first read that failed (`crcs` of its reads by CRC) and a second that was good,
with the words it corrected; words uncorrectable on the second read, in both copies of a mirrored pair; the same with a good
partner copy; a write retried; a write that failed twice. Of a mirrored pair a write goes to two stacks: bit 0 of `copies` names
the even one, bit 1 the odd one. -/
inductive StackFx where
  | clean
  | corrected (line words : Nat)
  | reread (line crcs words : Nat)
  | uncorrectable (line crcs : Nat) (words : List Nat)
  | partnerRepair (line crcs : Nat)
  | writeRetried (line copies : Nat)
  | writeFailed (line copies : Nat)
  deriving DecidableEq, Repr

/-- A patrol scrub's read: what the interface reports of the line it reads, and the upsets that have struck the arrays or will meet
an interface since: the offset of a line, and what the next access to that line will report (R355, R357). -/
structure ScrubInfo where
  fx : StackFx
  upsets : List (Nat × StackFx)
  deriving DecidableEq, Repr

/-- A Canopy write and what the stacks report of it. -/
structure CanWrite where
  req : CanReq
  fx : StackFx
  deriving DecidableEq, Repr

/-- A fence command (R347). -/
structure FenceCmd where
  fseq : Nat
  op : Nat
  kind : Nat
  propagate : Nat
  plane : Nat
  row : Nat
  col : Nat
  link : Nat
  job : Nat
  rank : Nat
  deriving DecidableEq, Repr

/-- A job record as written to JOB_TABLE (R318): record number, fields, and whether a reserved field is nonzero. -/
structure JobRec where
  idx : Nat
  job : Nat
  acn : Nat
  valid : Bool
  adaptive : Bool
  base : Nat
  nranks : Nat
  reserved : Bool
  deriving DecidableEq, Repr

/-- A lane measurement (R467): eye height, eye width, pre-FEC ratio and uncorrectable ratio as FP32 encodings. -/
structure LaneMeas where
  lane : Nat
  height : Nat
  width : Nat
  ber : Nat
  uncorr : Nat
  deriving DecidableEq, Repr

/-- What SEC-DED reports of a grove's SRAM: where an uncorrectable word lies (R455, R458), an 8-byte word of an accumulator frame's
slot; a context; a word of an engine's scratch or of grove memory, counted in 8 bytes, that a context's command meets; a word of
instruction memory (bank times 32,768 plus its address); elsewhere in the grove. Or how many single-bit errors were corrected
in line (R78, R101). -/
inductive SramWhere where
  | frame (slot word : Nat)
  | context (engine ctx : Nat)
  | data (engine ctx word : Nat) (scratch : Bool)
  | imem (word : Nat)
  | other
  | corrected (n : Nat)
  deriving DecidableEq, Repr

/-- Which wait of a grove exceeded its limit (R141). -/
inductive Waiter where
  | queue (engine : Nat)
  | sequencer
  deriving DecidableEq, Repr

/-- How a pace word lay on PACE_IN (R370): its start bit as sampled, and for how many bit times the line had been low before it. -/
structure PaceLine where
  start : Bool
  low : Nat
  deriving DecidableEq, Repr

/-- A message of an IEEE 1588 clock to a slave (R386): a Sync that bears its origin time, or the answer to a Delay_Req, with its
sequence number and the time at which the request arrived. -/
inductive PtpMsg where
  | sync (origin : Nat)
  | delayResp (seq receipt : Nat)
  deriving DecidableEq, Repr

/-- The commands, one constructor per row of the opcode table. -/
inductive Instr where
  -- start-up and pins
  | powerUp
  | bootRefclkReady
  | selftestEnd (groves : List Nat) (portGroups : List Nat) (cells : List Nat) (broke : Bool)
  | memoryTrained (stack : Nat) (ok : Bool)
  | pcieLinkUp
  | plcaJoin
  | bootWatchdog
  | resetNAssert
  | resetNRelease
  | refclkLoss
  | inputOutOfRange
  | inputShutdown
  | inputRestored
  | inputPowerCycle
  | railFault (rail mv : Nat)
  | junctionTempCross (sensor : Nat) (reading : Int)
  | throttleStep
  | phaseFailed (rail phase : Nat)
  | mgmtFailover (pair : Nat)
  | perstAssert
  | perstRelease
  -- dictionary
  | describe (rq : Rq) (obj : ObjReq) (sub : Nat)
  | evqRead (rq : Rq)
  | logRead (rq : Rq) (first : Nat)
  | dictWrite (rq : Rq) (idx sub off : Nat) (last : Bool) (data : List Byte)
  | octSegment (rq : Rq) (idx sub off : Nat) (data : List Byte)
  | bar0BusySlotWrite (slot : Nat)
  | eventConsumed (w : HostWrite)
  | evqNoticeDelayed
  | malformedDatagram
  | discoveryRead (peer seq idx sub : Nat) (span : Span)
  | unlock (rq : Rq) (v : Nat)
  | unlockTimeout (path : Path)
  | evqFlush (rq : Rq) (v : Nat)
  | evqOwnerChange (rq : Rq) (v : Nat)
  | qhwmRead (rq : Rq) (off len : Nat)
  | bufFreeLwmRead (rq : Rq)
  | ctxInUseHwmRead (rq : Rq) (off len : Nat)
  | marginTimingRead (rq : Rq) (off len : Nat)
  | sampleRead (rq : Rq) (len : Nat)
  | groveCtrlStart (rq : Rq) (g bank : Nat)
  | groveCtrlHalt (rq : Rq) (g : Nat)
  | groveCtrlReset (rq : Rq) (g : Nat)
  | groveResetDone (g : Nat)
  | instrWrite (rq : Rq) (g bank first : Nat) (words : List Word)
  | instrLoadMem (rq : Rq) (mask bank first off len : Nat)
  | instrLoadDone
  | bankSwitch (rq : Rq) (g bank crc : Nat)
  | scaleCtxClear (rq : Rq) (n : Nat)
  -- the grove sequencer
  | seqIllegal (g : Nat)
  | nop (g : Nat)
  | li (g : Nat)
  | lih (g : Nat)
  | add (g : Nat)
  | sub (g : Nat)
  | andR (g : Nat)
  | orR (g : Nat)
  | xorR (g : Nat)
  | shl (g : Nat)
  | shr (g : Nat)
  | mul (g : Nat)
  | addi (g : Nat)
  | beq (g : Nat)
  | bne (g : Nat)
  | blt (g : Nat)
  | bge (g : Nat)
  | bltu (g : Nat)
  | jmp (g : Nat)
  | ldw (g : Nat)
  | stw (g : Nat)
  | fdecl (g : Nat)
  | fset (g : Nat)
  | fclr (g : Nat)
  | fwait (g : Nat)
  | apld (g : Nat)
  | wpace (g : Nat)
  | rdpace (g : Nat)
  | rdcyc (g : Nat)
  | issue (g : Nat)
  | bsync (g : Nat)
  | endProg (g : Nat)
  | trace (g : Nat)
  -- engines
  | commandOpen (g e : Nat)
  | operandArrival (g e c : Nat)
  | commandComplete (g e c : Nat)
  | prefetch (g e c : Nat)
  | copy (g e c : Nat) (fx : StackFx)
  | vopAdd (g e c : Nat)
  | vopSub (g e c : Nat)
  | vopMul (g e c : Nat)
  | vopMin (g e c : Nat)
  | vopMax (g e c : Nat)
  | vopDiv (g e c : Nat)
  | vopSqrt (g e c : Nat)
  | vopFma (g e c : Nat)
  | vopConvert (g e c : Nat)
  | split3 (g e c : Nat)
  | vopAnd (g e c : Nat)
  | vopOr (g e c : Nat)
  | vopXor (g e c : Nat)
  | exp2 (g e c : Nat)
  | log2 (g e c : Nat)
  | rsqrt (g e c : Nat)
  | dotExact (g e c : Nat)
  | split9 (g e c : Nat)
  | split6 (g e c : Nat)
  | dotFp64Chain (g e c : Nat)
  | accElements (g e c : Nat)
  | accExpRecords (g e c : Nat)
  | accStateImages (g e c : Nat)
  | seal (g e c : Nat)
  | zero (g e c : Nat)
  | sort64 (g e c : Nat)
  | merge (g e c : Nat)
  | sortTopk (g e c : Nat)
  | hash (g e c : Nat)
  | probe (g e c : Nat)
  | range (g e c : Nat)
  | compact (g e c : Nat)
  | wopen (g e c : Nat)
  | wclose (g e c : Nat)
  | send (g e c : Nat)
  | signal (g e c : Nat)
  | atomicAdd (g e c : Nat)
  | atomicExadd (g e c : Nat)
  | atomicMin (g e c : Nat)
  | atomicMax (g e c : Nat)
  | atomicCas (g e c : Nat)
  | atomicSwap (g e c : Nat)
  | externalSet (home job g flag : Nat)
  | waitCycleSample (g : Nat)
  | waitLimitExpiry (g : Nat) (w : Waiter)
  -- DEVICE-role opcodes
  | cin (g job coll chunk src : Nat)
  | pout (g job coll chunk : Nat)
  | rout (g job coll chunk : Nat)
  | cmove (g job coll chunk src dst : Nat)
  | cnts (g job coll : Nat)
  | fsave (g job coll : Nat)
  | topk (g job coll member : Nat)
  | keep (g job coll : Nat)
  | route (g job coll member : Nat)
  | wcomb (g job coll member chunk : Nat)
  | rowacc (g job coll member : Nat)
  | page (g job coll member : Nat)
  | pred (g job coll member chunk : Nat)
  -- collectives
  | collSubmit (rq : Rq) (desc : List Byte)
  | collSubmitFrame (via : Via) (row col acn : Nat) (desc : List Byte)
  | dataChunk (c : Chunk)
  | partialChunk (c : Chunk)
  | resultChunk (c : Chunk)
  | counts (c : Chunk)
  | countsOut (c : Chunk)
  | admitChunk (c : Chunk)
  | go (c : Chunk)
  | resend (c : Chunk)
  | ack (c : Chunk)
  | ackBundleTimer (job coll peer stage src dst : Nat)
  | doneUp (c : Chunk)
  | doneChunk (c : Chunk)
  | abort (c : Chunk)
  | collProgressTimeout (job coll : Nat)
  | slotAging (job coll : Nat)
  | sliceIdleExpiry (job coll : Nat)
  | moeRouteRelease (rq : Rq) (job coll : Nat)
  | filterSetCommit (rq : Rq) (n : Nat)
  | filterSetUncommit (rq : Rq) (n : Nat)
  -- fixed-cycle mode, checkpoints, buffer
  | fcmEnter (rq : Rq) (target : Nat)
  | fcmLeave (rq : Rq) (target : Nat)
  | ckptCheckpoint (rq : Rq) (job target : Nat)
  | ckptCheckpointStop (rq : Rq) (job target : Nat)
  | checkpointSaved (job : Nat)
  | ckptRestore (rq : Rq) (job source off resume : Nat)
  | auditWalkEnd
  | bufReclaim (rq : Rq) (ref holder : Nat)
  -- links
  | linkEnable (rq : Rq) (n : Nat)
  | linkDisable (rq : Rq) (n : Nat)
  | linkRetrain (rq : Rq) (n : Nat)
  | linkRestoreLane (rq : Rq) (n : Nat)
  | linkEraseCoefficients (rq : Rq) (n : Nat)
  | linkTrainingEnd (n : Nat) (ok : Bool) (order polarity : Nat)
  | linkQualifyEnd (n : Nat) (bers : List Nat) (i : QualifyInfo)
  | hs (n upper item value : Nat)
  | lfpFrameRx (n : Nat) (f : Frame) (i : RxInfo)
  | linkAck (n lseq : Nat)
  | linkNak (n : Nat) (i : NakInfo)
  | credit (n vc pool total : Nat)
  | degrade (n lane cw : Nat)
  | restore (n lane cw : Nat)
  | mgmt (n word : Nat)
  | replayTimeout (n : Nat) (i : ReplayInfo)
  | controlFlitTimer (n : Nat)
  | laneFailure (n lane cw : Nat)
  | reseqTimeout (n vc : Nat)
  | linkFlightMeasure (n flight : Nat)
  | ethernetFrameRx (n : Nat) (bytes : List Byte) (i : EthInfo)
  | pfcFrameRx (n prio : Nat) (i : PfcInfo)
  | pfcPauseExpiry (n prio : Nat)
  | pfcXoffRepeat (n prio : Nat)
  | ethMacAgeExpiry (vlan mac : Nat)
  | ethMacFlush (rq : Rq) (v : Nat)
  | mirrorNWrite (rq : Rq) (n v : Nat)
  | egressDecision (i : EgressInfo)
  | ageMarkUpdate (n q : Nat)
  -- routing, jobs, the Canopy, fences
  | unicast (n : Nat) (f : Frame)
  | ethFabricFrame (n : Nat) (f : Frame)
  | adaptSample
  | epochSwap (rq : Rq) (target crc pace : Nat)
  | epochDrained (e : Nat)
  | jobCreate (rq : Rq) (r : JobRec)
  | jobDelete (rq : Rq) (r : JobRec)
  | jobAdaptiveUpdate (rq : Rq) (r : JobRec)
  | grantWrite (rq : Rq) (first : Nat) (recs : List Nat)
  | canopyRead (r : CanReq) (fx : StackFx)
  | canopyWrite (w : CanWrite)
  | writeMasked (r : CanReq)
  | canopyAdd (r : CanReq)
  | exadd (r : CanReq)
  | canopyMin (r : CanReq)
  | canopyMax (r : CanReq)
  | cas (r : CanReq)
  | swap (r : CanReq)
  | canopyRsp (r : CanRsp)
  | canopyTimeout (sunit rtag : Nat)
  | fence (rq : Rq) (c : FenceCmd)
  | unfence (rq : Rq) (c : FenceCmd)
  | propagatedFence (n srow : Nat) (c : FenceCmd)
  | paceToken (n srow plane master w elapsed : Nat)
  -- memory stacks
  | perBankRefresh (stack channel : Nat)
  | fcmRefreshWindow
  | scrubRead (i : ScrubInfo)
  | stackFailure (stack channels cause : Nat)
  -- pace and time
  | paceWord (w dly upper : Nat) (line : PaceLine)
  | calWord (w upper : Nat) (line : PaceLine)
  | paceFlightMeasure (roundTrip : Option Nat)
  | paceEdge
  | paceVisible
  | paceInFault
  | paceSourceWrite (rq : Rq) (v : Nat)
  | paceLoad (rq : Rq) (v : Nat)
  | paceStep (rq : Rq) (v : Nat)
  | paceCal (rq : Rq) (v : Nat)
  | schedArm (rq : Rq) (entry : Nat) (rec : Nat)
  | schedCancel (rq : Rq) (n : Nat)
  | wallclockSet (rq : Rq) (v : Nat)
  | ptpMessage (domain : Nat) (msg : PtpMsg)
  -- margins, telemetry, faults
  | marginMeasure (ms : List LaneMeas)
  | samplerTick (input : List Nat) (rails : List (Nat × Nat)) (slacks : List Int)
  | telemSnapNow (rq : Rq) (mask : Nat)
  | snapshotCopied
  | groveFailed (g cause : Nat)
  | groveStallDetect (g : Nat)
  | sramUncorrectable (g : Nat) (w : SramWhere) (again : Bool)
  | groveSubstituted (g duration : Nat)
  -- flash, boot control, SPDM, JTAG
  | flashWrite (rq : Rq) (off : Nat) (data : List Byte)
  | flashErase (rq : Rq) (off len : Nat)
  | flashOpComplete (readBackOk : Bool)
  | bootReset (rq : Rq)
  | verifyBankA (rq : Rq)
  | verifyBankB (rq : Rq)
  | attemptReset (rq : Rq)
  | getVersion (peer : Nat) (msg : List Byte)
  | getCapabilities (peer : Nat) (msg : List Byte)
  | negotiateAlgorithms (peer : Nat) (msg : List Byte)
  | getDigests (peer : Nat) (msg : List Byte)
  | getCertificate (peer offset len : Nat) (msg : List Byte)
  | challenge (peer : Nat) (msg : List Byte)
  | getMeasurements (peer : Nat) (signed : Bool) (op : Nat) (msg : List Byte)
  | chunkSend (peer : Nat) (last : Bool) (part : List Byte)
  | chunkGet (peer chunk : Nat) (msg : List Byte)
  | pqSign (peer : Nat) (msg : List Byte)
  | pqCert (peer : Nat) (msg : List Byte)
  | jtagInstructionLoad (ir : Nat)
  -- later rows
  | refclkRestored
  | inputRangeRecovered
  | stackTemperatureCross (stack : Nat) (above : Bool) (celsius : Int)
  | pcieLinkDown
  | fieldNetworkLinkDown
  | paceWordLaunch
  | paceTriggerRelease
  | auditWalkStart
  | fcmFrameRelease (n : Nat)
  deriving DecidableEq, Repr

end Sys2Proof
end

