-- ==== Sys2Proof/Decode.lean ====
section
/-! DEFINITION. The command a word spells by the bits of the opcode table. -/

namespace Sys2Proof

/-- spec/opcode_table.json gives no row any bits (every `fields` list is empty), so no word spells a command (log entry 3). -/
def decodeTableWord (_nbits _w : Nat) : Option Instr := none

end Sys2Proof
end

