-- ==== Sys2Proof/Machine/Table.lean ====
section
/-! DEFINITION. Tables by number, and byte memories, as sorted lists of pairs in one canonical form: an entry equal to what an
unlisted key reads as is not listed. -/

namespace Sys2Proof.Machine

/-- A sparse table: pairs in ascending key order. -/
abbrev Tbl (α : Type) := List (Nat × α)

variable {α : Type}

/-- The listed value at `k`. -/
def Tbl.find? : Tbl α → Nat → Option α
  | [], _ => none
  | (k, v) :: t, x => if x = k then some v else Tbl.find? t x

/-- The value at `k`, where an unlisted key reads as `d`. -/
def Tbl.get (t : Tbl α) (d : α) (x : Nat) : α := (Tbl.find? t x).getD d

/-- `v` put at `x`, keeping the order. -/
def Tbl.put : Tbl α → Nat → α → Tbl α
  | [], x, v => [(x, v)]
  | (k, w) :: t, x, v =>
    if x = k then (k, v) :: t else if x < k then (x, v) :: (k, w) :: t else (k, w) :: Tbl.put t x v

/-- Entry `x` removed. -/
def Tbl.erase (t : Tbl α) (x : Nat) : Tbl α := t.filter (fun p => p.1 != x)

/-- `v` written at `x`, where an unlisted key reads as `d`: writing `d` removes the entry. -/
def Tbl.set [DecidableEq α] (t : Tbl α) (d : α) (x : Nat) (v : α) : Tbl α :=
  if v = d then Tbl.erase t x else Tbl.put t x v

/-- The keys listed. -/
def Tbl.keys (t : Tbl α) : List Nat := t.map Prod.fst

/-- A byte memory (Host.Cell), addresses strictly rising, no entry equal to `d`. -/
abbrev Mem := List Host.Cell

/-- The byte at `a`; unlisted bytes read as `d`. -/
def Mem.read (m : Mem) (d : Byte) (a : Nat) : Byte := Tbl.get m d a

/-- The byte at `a` written. -/
def Mem.write (m : Mem) (d : Byte) (a : Nat) (b : Byte) : Mem := Tbl.set m d a b

/-- `n` bytes from `a`. -/
def Mem.readN (m : Mem) (d : Byte) : Nat → Nat → List Byte
  | _, 0 => []
  | a, n + 1 => Mem.read m d a :: Mem.readN m d (a + 1) n

/-- The bytes written from `a` on. -/
def Mem.writeN (m : Mem) (d : Byte) : Nat → List Byte → Mem
  | _, [] => m
  | a, b :: bs => Mem.writeN (Mem.write m d a b) d (a + 1) bs

/-- `n` little-endian bytes from `a` as a number (R9). -/
def Mem.readNat (m : Mem) (d : Byte) (a n : Nat) : Nat := ofBytes (Mem.readN m d a n)

/-- A number written as `n` little-endian bytes from `a`. -/
def Mem.writeNat (m : Mem) (d : Byte) (a n v : Nat) : Mem := Mem.writeN m d a (toBytes n v)

/-- Every byte of a range removed, so that it reads as the memory's unlisted value. -/
def Mem.clear (m : Mem) (a n : Nat) : Mem := m.filter (fun c => !(decide (a ≤ c.1) && decide (c.1 < a + n)))

/-- The keys of a table rise strictly and none holds the unlisted value. -/
def Tbl.wf [DecidableEq α] (d : α) : Tbl α → Bool
  | [] => true
  | [(_, v)] => decide (v ≠ d)
  | (k, v) :: (k', v') :: t => decide (v ≠ d) && decide (k < k') && Tbl.wf d ((k', v') :: t)

/-- The canonical form of a byte memory whose unlisted bytes read as `d`. -/
def Mem.wf (d : Byte) (m : Mem) : Bool := Tbl.wf d m

end Sys2Proof.Machine
end

