-- ==== Sys2Proof/Machine/State.lean ====
section
/-! DEFINITION. The state of the device as plain data: `Part` is what the ordered part is for life, `Dev` everything the spec
lets change, `pending` the queue of waiting commands. `State.reset` is the device right after a device reset, before its
start-up sequence (spec/17_startup_and_security.md R430, R431). -/

namespace Sys2Proof.Machine

/-- Why the machine stops. -/
inductive Fault where
  /-- Raised by a meaning whose command names a unit that the spec says does not exist on this part (a grove at or above the
  enabled count, an engine above 15, a context above 4,095, a link at or above the link count, a stack that is absent).
  Safe: the model stops where there is nothing to act on. -/
  | noSuchUnit
  deriving DecidableEq, Repr

/-- Why a command has no meaning here. -/
inductive Refusal where
  /-- Raised by an arm of `exec` whose row has no meaning yet. Safe: the model stops. -/
  | notModelled (mnemonic : String)
  deriving DecidableEq, Repr

/-- The three grades of R1. -/
inductive Grade where
  | a | b | c
  deriving DecidableEq, Repr

/-- The steppings of R4. -/
inductive Stepping where
  | a0 | a1 | b0
  deriving DecidableEq, Repr

/-- What one device is for life: its grade and stepping (R1, R3) and its SLOT_ID straps (R483). -/
structure Part where
  grade : Grade
  stepping : Stepping
  slotId : Nat
  deriving DecidableEq, Repr

/-- A flash operation in progress (R436): write or erase, region offset, data or length, and whether a BOOT_CTRL reset waits
for it (R432). -/
structure FlashOp where
  erase : Bool
  off : Nat
  len : Nat
  data : List Byte
  resetAfter : Bool
  deriving DecidableEq, Repr

/-- A record of the persistent tail (R438); `good` says that its CRC passes. -/
structure TailRec where
  body : Nat
  bootSeq : Nat
  ty : Nat
  good : Bool
  deriving DecidableEq, Repr

/-- SPDM responder state of one peer (R450, R451): version agreed, algorithms agreed, the transcript so far, the last signed
measurements' transcript hash, an assembly of CHUNK_SEND, a long response for CHUNK_GET, and the last response sent. -/
structure Spdm where
  negotiated : Bool
  transcript : List Byte
  l2 : Option Nat
  asm : List Byte
  long : List Byte
  reply : List Byte
  deriving DecidableEq, Repr

/-- Start-up, pins, power and trust. `readyHeld` is the functions that wait for a dictionary path to report them ready, `readySeen`
those that have been ready since the device reset (R403, R404); `tail` is the ring of records in flash, newest first, `tailWait`
those on their way there, oldest first (R438). -/
structure Boot where
  rails : Bool
  tripped : Bool
  step : Nat
  cold : Bool
  clocks : Nat
  resetN : Bool
  perst : Bool
  refclkOk : Bool
  vinOk : Bool
  keys : Bool
  selfDone : Bool
  recovery : Bool
  bank : Nat
  reason : Nat
  ownerSlot : Nat
  ownerStatus : Nat
  bankStatus : Tbl Nat
  bootSeq : Nat
  jtag : Bool
  flash : Mem
  flashOp : Option FlashOp
  flashStatus : Nat
  flashReached : Nat
  tail : List TailRec
  tailWait : List TailRec
  ready : Nat
  readyGroves : Nat
  readyLinks : Nat
  readyHeld : Nat
  readySeen : Nat
  badGroves : List Nat
  badPortGroups : Nat
  selfCells : Nat
  selfExact : Bool
  spdm : Tbl Spdm
  draws : Nat
  pcieUp : Bool
  bootOk : Bool
  identity : Nat
  ownerHdr : Nat
  meas : List Nat
  deriving DecidableEq, Repr

/-- An event record (R408). -/
structure Event where
  seq : Nat
  pace : Nat
  wall : Nat
  code : Nat
  status : Nat
  prio : Nat
  rise : Bool
  objIdx : Nat
  objSub : Nat
  data : Nat
  deriving DecidableEq, Repr

/-- The event log, the event queue and the BAR2 window (R409-R412); the MSI-X mask bits (0 and 1 the vectors, 2 the function) and the
vectors pending behind them (R400). -/
structure Events where
  log : List Event
  last : Nat
  queue : List Event
  window : Tbl Event
  placed : Nat
  consumed : Nat
  full : Bool
  overrun : Bool
  reader : Option Nat
  noticeHeld : Bool
  noticeRecent : Bool
  masks : Nat
  pend : Nat
  deriving DecidableEq, Repr

/-- A response (R393): status, ARG, TOTAL and data. -/
structure Rsp where
  status : Nat
  arg : Nat
  total : Nat
  data : List Byte
  deriving DecidableEq, Repr

/-- What a BAR0 slot holds (R399): the header of R393 as one little-endian value, and the data from 0x40 on. -/
structure Slot where
  hdr : Nat
  data : List Byte
  deriving DecidableEq, Repr

/-- An open assembly of OCT segments (R398). -/
structure Asm where
  idx : Nat
  sub : Nat
  data : List Byte
  deriving DecidableEq, Repr

/-- One channel (R396): the last request executed and its response, the open assembly, the lock (R401). -/
structure Chan where
  lastReq : Option (Nat × List Nat)
  rsp : Rsp
  asm : Option Asm
  unlocked : Bool
  deriving DecidableEq, Repr

/-- What leaves the device on a path the model does not hold as state of its own: a datagram with its source address and port, a notice, an MSI-X message, a
frame or control word on a link, a pace word. `handed` is a frame that a link's ingress hands to the unit of its type at this
device, whose own command then acts on it. -/
inductive Out where
  | response (source : Nat × Nat) (peer seq : Nat) (r : Rsp)
  | discovery (peer seq delay : Nat) (r : Rsp)
  | notice (peer : Nat)
  | msix (vector : Nat)
  | frame (link : Nat) (f : Frame) (lseq : Nat) (poison : Bool)
  | handed (link : Nat) (f : Frame)
  | ethFrame (link : Nat) (bytes : List Byte)
  | control (link kind value : Nat)
  | pfc (link prio time : Nat)
  | endpointGo (link job coll : Nat)
  | canRsp (via : Via) (r : CanRsp)
  | canReq (r : CanReq)
  | remoteSet (home job grove flag : Nat)
  | paceWord (word : Nat) (framed : Bool)
  | probe
  | beacon (nodes : Nat)
  | delayReq (domain seq : Nat)
  | spdm (peer : Nat) (msg : List Byte)
  deriving DecidableEq, Repr

/-- Grove states (R106). -/
inductive GPhase where
  | idle | running | halted | resetting | lost
  deriving DecidableEq, Repr

/-- A flag (R126). -/
structure Flag where
  c : Nat
  pl : Nat
  pe : Nat
  s : Nat
  deriving DecidableEq, Repr

/-- A command in a queue (R112, R113): tag, bank and body word, engine mask size, offsets taken at issue. -/
structure Cmd where
  tag : Nat
  bank : Nat
  body : Nat
  copies : Nat
  offA : Nat
  offB : Nat
  offD : Nat
  deriving DecidableEq, Repr

/-- Context states (R88). -/
inductive CtxSt where
  | free | ready | waitData | waitWrite | faulted
  deriving DecidableEq, Repr

/-- A line of operand data that a Canopy response brought for a context: the request's engine address and the bytes. -/
structure Line where
  addr : Nat
  data : List Byte
  deriving DecidableEq, Repr

/-- A stream context (R88) with what the running command carries: the command, indices of the loop levels, completed steps,
the flag word so far (R67), operand lines that have arrived over the Canopy, the remote flag word read from B (R125), for
delayed scaling the scale byte in use and the largest finite magnitude so far (R44, R45), the ARC cycle in which it became
READY (R91), whether its lines are those of all its steps, gathered to measure its whole output (R44), and the Canopy lines
of its own earlier writes that its next step's reads wait for (R121). -/
structure Ctx where
  st : CtxSt
  cmd : Cmd
  idx : List Nat
  steps : Nat
  flags : Nat
  lines : List Line
  word : Nat
  xscale : Option Nat
  amax : Nat × Nat
  since : Nat
  whole : Bool
  holds : List Nat
  deriving DecidableEq, Repr

/-- Instruction bank states (R135). -/
inductive BankSt where
  | idle | active | draining
  deriving DecidableEq, Repr

/-- What holds the sequencer (R110, R139, R141). -/
inductive Stall where
  | none
  | issue
  | fwait (flag target : Nat)
  | wpace (target : Nat)
  | apld
  | boundary
  deriving DecidableEq, Repr

/-- A wait that stands (R141): who waits (an engine, 16 for the sequencer), what the wait is known by, and the cycle and the visible
pace count at which it began. -/
structure WaitNote where
  waiter : Nat
  key : List Nat
  cycle : Nat
  pace : Nat
  deriving DecidableEq, Repr

/-- A Canopy request a grove waits for (R93, R345): its engine and context, the tag of its command, whether that command still
stands (a write of a completed step goes on after its command has left, R120, R144), the engine address of its line or operand,
and the request. The first 1,024 of a grove's list are outstanding; the rest wait their turn. -/
structure GroveReq where
  e : Nat
  c : Nat
  tag : Nat
  live : Bool
  eaddr : Nat
  req : CanReq
  deriving DecidableEq, Repr

/-- One logical grove: sequencer, flags, queues, contexts, memories, banks, apertures and windows (R94, R106, R108). -/
structure Grove where
  phase : GPhase
  pc : Nat
  bank : Nat
  ended : Bool
  stall : Stall
  regs : Tbl Word
  lastTag : Nat
  flags : Tbl Flag
  queues : Tbl (List Cmd)
  ctxs : Tbl Ctx
  aps : Tbl (Option Nat)
  wins : Tbl (Option (List Nat))
  b0 : BankSt
  b1 : BankSt
  armed : Option (Nat × Nat)
  imem : Tbl Word
  gmem : Mem
  scratch : Mem
  poison : List Nat
  scratchPoison : List Nat
  ctxPoison : List Nat
  imemPoison : List Nat
  statePoison : Bool
  haltRec : List Byte
  sampled : Bool
  traceIx : Nat
  writing : List Nat
  reqs : List GroveReq
  tagNext : Nat
  paused : Bool
  waitsAt : List WaitNote
  deriving DecidableEq, Repr

/-- An accumulator (R57, R63): class 0 A320, 1 A640, 2 A2176. -/
structure Acc where
  cls : Nat
  v : Int
  count : Nat
  inv : Bool
  nan : Bool
  pinf : Bool
  ninf : Bool
  nz : Bool
  pz : Bool
  tlim : Bool
  deriving DecidableEq, Repr

/-- A number decoded from a format: a sign and an exact rational, an infinity, or a NaN. -/
inductive Num where
  | fin (neg : Bool) (num den : Nat)
  | inf (neg : Bool)
  | nan (sig : Bool)
  deriving DecidableEq, Repr

/-- A failed grove that waits for its substitute (R457, R460): logical grove, cause of R462, failed physical grove, and the spare
once its turn has come. -/
structure Subst where
  g : Nat
  cause : Nat
  old : Nat
  spare : Option Nat
  deriving DecidableEq, Repr

/-- Groves as hardware: which physical grove stands behind a logical one, which are retired, failures waiting for a spare. -/
structure Spares where
  phys : Tbl Nat
  retired : List Nat
  failed : List Subst
  log : List Nat
  deriving DecidableEq, Repr

/-- The scaling context record's working state (R44-R49): the history, newest first, an operation in flight, and record
writes or clears held until it has appended. -/
structure ScaleCtx where
  hist : List (Nat × Nat)
  busy : Bool
  heldRec : Option Nat
  heldClear : Bool
  deriving DecidableEq, Repr

/-- A cell of the packet buffer (R238-R242): its owner record, whether it is to be retired, and whether it was drawn from
headroom (R246, R247). -/
structure CellRec where
  owners : Nat
  bad : Bool
  head : Bool
  deriving DecidableEq, Repr

/-- A frame copy in an egress queue (R299): the frame (for an Ethernet link its bytes are the payload and its PCP stands in
`rclass`), its cells, the cells charged to its queue, whether they came from headroom, the clock tick of its admission,
the link it arrived on, whether it ends poisoned (R280), and, while ingress holds it, the floor credits that its cells took and
that are owed to the sender (R281). -/
structure Copy where
  f : Frame
  eth : Bool
  cells : List Nat
  charge : Nat
  headroom : Bool
  t : Nat
  fromLink : Option Nat
  poison : Bool
  owed : Option Nat
  deriving DecidableEq, Repr

/-- A frame kept in a replay buffer (R277). -/
structure Sent where
  lseq : Nat
  q : Nat
  copy : Copy
  deriving DecidableEq, Repr

/-- Underlying link states (R287, R491). -/
inductive LSt where
  | disabled | training | qualifying | handshake | up | degraded | failed
  deriving DecidableEq, Repr

/-- One link: state, training, peer, retry, credits, Ethernet pause, counters (R277-R298). `advert` is the pools that this end
advertised in the handshake (VC0 to VC6, then shared) and `drawn` the floor cells of each VC that the peer has drawn and this end
has not returned (R281). `peerFenced` is the device, as row * 64 + column, whose fence put the link in FENCED (R347, R349). -/
structure Link where
  st : LSt
  fenced : Bool
  peerFenced : Option Nat
  roleFenced : Bool
  rxLanes : Nat
  txLanes : Nat
  order : Nat
  polarity : Nat
  known : Bool
  peer : Nat
  peerMode : Nat
  tries : Nat
  full : Bool
  coefWritten : Bool
  restoring : Bool
  hs : Tbl (Option Nat)
  lseqTx : Nat
  replay : List Sent
  resend : List Copy
  retries : Nat
  lseqRx : Nat
  nakSent : Bool
  credFloor : Tbl Nat
  credShared : Nat
  credSeen : Tbl Nat
  credRet : Tbl Nat
  credKept : Tbl (List Nat)
  advert : Tbl Nat
  drawn : Tbl Nat
  flight : Nat
  mirrorCount : Nat
  paused : Nat
  xoff : Nat
  ctr : Tbl Nat
  deriving DecidableEq, Repr

/-- Egress queue state (R299-R311): the FIFO, cells charged, start tag, what the bucket lacks to be full in 1/21,600 byte with
the clock tick of that figure, eligibility seen last, marks, statistics (the stall in clock ticks, with the tick it was last
brought up to date). -/
structure EQueue where
  fifo : List Copy
  charged : Nat
  s : Nat
  debt : Nat
  elig : Bool
  depthMark : Nat
  ageMark : Nat
  frames : Nat
  bytes : Nat
  promotions : Nat
  stall : Nat
  stallAt : Nat
  debtAt : Nat
  deriving DecidableEq, Repr

/-- A link's scheduler: virtual time, the promoted queue with the bytes it has sent, and which strict-1 queue goes next. -/
structure Sched where
  v : Nat
  promoted : Option (Nat × Nat)
  alt : Bool
  deriving DecidableEq, Repr

/-- A place in a resequencer (R284): its SSEQ, the frame if it carries one that is still to be passed on, and the copies that were
decided when it arrived, each with its queue as link * 16 + queue (R247). -/
structure Place where
  sseq : Nat
  frame : Option Copy
  copies : List (Nat × Copy)
  deriving DecidableEq, Repr

/-- A stream's receiving end (R284): the expected SSEQ and the frames held. -/
structure Stream where
  e : Nat
  held : List Place
  deriving DecidableEq, Repr

/-- A leak record (R251). -/
structure Leak where
  cell : Nat
  audits : Nat
  pace : Nat
  owners : Nat
  deriving DecidableEq, Repr

/-- The packet buffer: cells not free, cells retired, bank pointers, headroom in use, low mark, the auditor, the frame that ingress
is deciding within a command (its cells, and the floor credits owed for them), and the holders whose bit a reclaim took from a
cell (R252). -/
structure Buffer where
  cells : Tbl CellRec
  retired : List Nat
  bankPtr : Tbl Nat
  headroomUsed : Nat
  lwm : Nat
  walking : Bool
  atStart : List Nat
  seen : List Nat
  suspects : List Nat
  leaks : List Leak
  arriving : Option (List Nat × Option Nat)
  reclaimed : List (Nat × Nat)
  deriving DecidableEq, Repr

/-- A sample record (R296) and the cell that the sample queue holds for it, the frame's first (R295). -/
structure Sample where
  cell : Option Nat
  bytes : List Byte
  pace : Nat
  wall : Nat
  link : Nat
  len : Nat
  flags : Nat
  vc : Nat
  deriving DecidableEq, Repr

/-- A MAC table entry (R293): VLAN, address, and a local link or a remote device's row, column and link. -/
structure MacEnt where
  vlan : Nat
  mac : Nat
  remote : Bool
  row : Nat
  col : Nat
  link : Nat
  deriving DecidableEq, Repr

/-- The switch core: links, egress queues, schedulers, streams, samples, MAC table, frames waiting at ingress or for a port
set, the frames that wait for their release in fixed-cycle mode, each decided at its arrival, the link of each port group that had the crossbar last in fixed-cycle mode (R222), congestion samples, routing epochs,
fences. -/
structure Switch where
  links : Tbl Link
  queues : Tbl EQueue
  scheds : Tbl Sched
  txSseq : Tbl Nat
  streams : Tbl Stream
  samples : List Sample
  macs : List MacEnt
  waiting : List Copy
  vc1Held : List Copy
  fcmHeld : List (Nat × Frame × Place)
  fcmTurn : Tbl Nat
  cong : Tbl Nat
  adapt : Tbl Nat
  stamping : Nat
  stA : Nat
  stB : Nat
  swapArmed : Bool
  vc1Out : List CanReq
  fenced : List Nat
  fseqs : List Nat
  lossSince : Tbl Nat
  lossRecent : Tbl Nat
  deriving DecidableEq, Repr

/-- A member in an operation's snapshot (R156). -/
structure Member where
  rank : Nat
  plane : Nat
  row : Nat
  col : Nat
  pset : Nat
  fenced : Bool
  deriving DecidableEq, Repr

/-- A held input chunk (R169): what it is, its cells and the holder number they carry, and whether its terms are in a frame or
its bytes have moved on. -/
structure HeldIn where
  c : Chunk
  cells : List Nat
  holder : Nat
  used : Bool
  deriving DecidableEq, Repr

/-- A held sealed output (R169): the chunk, its cells with their holder number, and the peers that have not acknowledged it (a
port set below 256, a link from 2^16 on, a device from 2^20 on). -/
structure HeldOut where
  c : Chunk
  cells : List Nat
  holder : Nat
  waiting : List Nat
  deriving DecidableEq, Repr

/-- Acknowledgments not yet sent (R169): to whom, the stage, source and destination of the chunks, their indices. -/
structure AckList where
  peer : Nat
  stage : Nat
  src : Nat
  dst : Nat
  ixs : List Nat
  deriving DecidableEq, Repr

/-- An accumulator frame or compare frame (R95): the chunk, the terms, the flags its partials carried,
the contributions combined, the accumulators, or the running values with their signalling bits. -/
structure AFrame where
  chunk : Nat
  terms : Nat
  flags : Nat
  from_ : List (Nat × Nat)
  accs : List Acc
  cmp : List (Nat × Bool)
  deriving DecidableEq, Repr

/-- A MoE choice of a token (R191-R196): member, token, choice number, expert, FP32 weight, whether it is kept, and its row
at the host. -/
structure Choice where
  member : Nat
  token : Nat
  choice : Nat
  expert : Nat
  weight : Nat
  kept : Bool
  row : Nat
  deriving DecidableEq, Repr

/-- A route table (R196): the dispatch, its members' ranks, the tokens each own member sent, NaN tokens as member and token,
the choices of own tokens, the rows each hosted member received as source member and token, and use by a combine. -/
structure RouteTab where
  job : Nat
  coll : Nat
  members : List Nat
  at_ : Nat
  bytes : Nat
  experts : Nat
  tokens : List (Nat × Nat)
  nanTokens : List (Nat × Nat)
  choices : List Choice
  rows : List Choice
  inUse : Bool
  deriving DecidableEq, Repr

/-- A collective entry (R155): the descriptor with its list, writers, membership (R156), start round (R160), chunks combined,
held, acknowledged (R167-R169), frames (R95), counts (R171), completion (R176) and abort reports (R174), slots and tickets
(R253-R261) with when it last entered the queue and whether it has combined nothing for SLICE_IDLE (R260, R264), scaling
context (R46), and what the operations of chapter 7 gather. `phase` is STATE of COLL_ACTIVE; `lists` are
rows of numbers by kind, as each operation's rules name them. -/
structure Op where
  job : Nat
  coll : Nat
  desc : Nat
  list : List Nat
  dictWriters : List Path
  linkWriters : List Nat
  phase : Nat
  members : List Member
  admits : List (Nat × Nat)
  go : Bool
  seen : List (List Nat)
  fails : List (List Nat × Nat)
  inputs : List HeldIn
  outs : List HeldOut
  frames : List AFrame
  acks : List AckList
  sealed_ : List Nat
  got : List (List Nat)
  counts : List (Nat × Nat × Nat)
  lists : List (List Nat)
  choices : List Choice
  lines : List Line
  flags : Nat
  amax : Nat × Nat
  doneUps : List Nat
  upSent : Bool
  doneSent : Bool
  reports : List Nat
  status : Nat
  mask : Nat
  grove : Option Nat
  slots : List Nat
  fromReserve : List Nat
  ticket : Nat
  waiting : Bool
  queuedAt : Nat
  aged : Bool
  yielded : Bool
  idle : Bool
  quantum : Nat
  spill : Option Nat
  spillAt : Nat
  spilled : List AFrame
  scale : Option (Nat × Nat)
  tableCrc : Nat
  recs : List Nat
  paused : Bool
  deriving DecidableEq, Repr

/-- Collectives of the device: entries, tickets, the aging target (grove, ticket), the completion log, route tables, and operations
that ended OK. -/
structure Colls where
  ops : List Op
  ticketNext : Nat
  target : Option (Nat × Nat)
  doneLog : List (List Byte)
  routes : List RouteTab
  ended : List (Nat × Nat)
  deriving DecidableEq, Repr

/-- A word's exact-add shadow (R343): the word's offset and width in bytes, and the accumulator. A word of an exact-add grant
that is not listed has its current value as its only term. -/
structure Shadow where
  addr : Nat
  w : Nat
  acc : Acc
  deriving DecidableEq, Repr

/-- Device memory and its controllers (R353-R366). `poison` lists the words that read as poisoned in every copy, `copyPoison` the
words of one stack of a mirrored pair whose partner's copy is good (R363), and `flaws` what the interface will report of the
next access to a line of the arrays, by the line's offset (R355, R357). -/
structure Stacks where
  mem : Mem
  poison : List Nat
  poisonLog : List (Nat × Nat)
  st : Tbl Nat
  tries : Tbl Nat
  badCh : Tbl Nat
  temp : Tbl Int
  mult : Tbl Nat
  stats : Tbl Nat
  interleave : Nat
  mirror : Bool
  spillGib : Nat
  shadowGib : Nat
  scrubNext : Nat
  scrubPasses : Nat
  refreshNext : Tbl Nat
  shadows : List Shadow
  copyPoison : List (Nat × Nat)
  flaws : List (Nat × StackFx)
  deriving DecidableEq, Repr

/-- A pending pace advance (R368): the value, the ARC cycle at which it applies, and whether it is late. -/
structure Advance where
  w : Nat
  due : Nat
  late : Bool
  deriving DecidableEq, Repr

/-- Port states of a slave-only clock (R386; IEEE 1588-2019, PRESUMED, log entry 131). -/
inductive PtpPort where
  | listening | uncalibrated | slave
  deriving DecidableEq, Repr

/-- The device as a slave-only ordinary clock (R386): its port, the mean path delay in ns, the number of the next Delay_Req, and the
one that waits for its answer, with the time at which it left. -/
structure Ptp where
  port : PtpPort
  delay : Int
  seq : Nat
  sent : Option (Nat × Nat)
  deriving DecidableEq, Repr

/-- Pace and wall clock (R367-R387). `inLast` and `outLast` are one above the cycles of the last start edges on PACE_IN and PACE_OUT, 0
for none (R370); `calWaits` a CAL word that waits for its spacing; `fired` the schedule entries that the last edge fired (R383). -/
structure Pace where
  count : Nat
  visible : Nat
  pending : List Advance
  unlaunched : List Advance
  lastEdge : Nat
  edgeAt : Nat
  trigger : List Nat
  calibrated : Bool
  inFault : Bool
  lastLate : Bool
  flight : Nat
  lastDly : Nat
  badRun : Nat
  termOpen : Bool
  calSent : Bool
  schedLog : List Nat
  wall : Nat
  wallState : Nat
  resumes : List (Nat × Nat)
  inLast : Nat
  outLast : Nat
  calWaits : Bool
  fired : List Nat
  ptp : Ptp
  deriving DecidableEq, Repr

/-- A checkpoint image (R230-R232): its slot's status, header fields (GROVE_MASK, NOPS and DIGEST follow from the rest), the saved
state of the job, and the body's bytes. -/
structure Image where
  valid : Bool
  status : Nat
  seq : Nat
  job : Nat
  pace : Nat
  acn : Nat
  stepping : Nat
  row : Nat
  col : Nat
  plane : Nat
  grovesEnabled : Nat
  groves : List (Nat × Grove)
  ops : List Op
  hists : List (Nat × List (Nat × Nat))
  routes : List RouteTab
  body : List Byte
  deriving DecidableEq, Repr, Inhabited

/-- A checkpoint being saved (R229): the job, whether it stops after it, and what the boundary held. -/
structure Saving where
  job : Nat
  stop : Bool
  image : Image
  deriving DecidableEq, Repr

/-- Fixed-cycle mode, with the settings of 0x8401 as taken at entry, and checkpoints (R222-R236): the image slots, every image
this device has written (a reset keeps them: they say what the bytes of a body stand for), SEQ, saves under way, and the
scaling contexts that jobs have named. -/
structure Modes where
  fcm : Nat
  fcmExact : Bool
  fcmEntry : Nat
  fcmPeriod : Nat
  fcmWindow : Nat
  fcmLead : Nat
  fcmSlots : Tbl Nat
  held : List Instr
  images : Tbl Image
  written : List Image
  seq : Nat
  saving : List Saving
  named : List (Nat × Nat)
  deriving DecidableEq, Repr

/-- A telemetry snapshot slot (R471). -/
structure Snap where
  seq : Nat
  pace : Nat
  wall : Nat
  mask : Nat
  status : Nat
  image : List Byte
  deriving DecidableEq, Repr

/-- Power, thermal, margins, telemetry (R463-R473). -/
structure Health where
  phases : Tbl Nat
  input : List Nat
  railMv : Tbl Nat
  railMa : Tbl Nat
  temps : Tbl Int
  throttle : Nat
  hot : Nat
  short : Nat
  thermal : Bool
  pairsFailed : Nat
  lanes : Tbl LaneMeas
  slack : Tbl Int
  slackLow : Tbl Int
  opt : Tbl Nat
  crossed : List Nat
  snaps : Tbl Snap
  snapSeq : Nat
  snapBusy : Option (Nat × Snap)
  newest : Nat
  util : Tbl Nat
  deriving DecidableEq, Repr

/-- Everything of the device that can change. `cycle` is the ARC cycle counter, which stands in gated cycles (R464); `tick` counts
every period of the ARC clock's source. -/
structure Dev where
  cycle : Nat
  tick : Nat
  boot : Boot
  dict : Tbl Nat
  slots : Tbl Slot
  chans : Tbl Chan
  peers : List (Nat × Nat)
  evt : Events
  groves : Tbl Grove
  spares : Spares
  scale : Tbl ScaleCtx
  buf : Buffer
  sw : Switch
  colls : Colls
  mem : Stacks
  pace : Pace
  modes : Modes
  health : Health
  loads : List (Nat × Nat × Nat × Nat × Nat)
  marks : Tbl Nat
  freeIx : Nat
  out : List Out
  deriving DecidableEq, Repr

/-- The state of the block: the part, the device, and the commands that wait, first in first out. -/
structure State where
  part : Part
  dev : Dev
  pending : List Instr
  deriving DecidableEq, Repr

/-- An empty response (R399: the slot has taken no request). -/
def Rsp.empty : Rsp := ⟨0, 0, 0, []⟩

/-- A slot after device reset: KIND 3, VERSION 1, MAGIC 0x5644, REQSEQ 0 (R393, R399). -/
def Slot.init : Slot := ⟨pack [(96, 16, 0x5644), (200, 4, 1), (204, 4, 3)], []⟩

/-- A channel after device reset: no last request, locked (R396, R401). -/
def Chan.init : Chan := ⟨none, Rsp.empty, none, false⟩

/-- A flag after reset (R126). -/
def Flag.zero : Flag := ⟨0, 0, 0, 0⟩

/-- No command. -/
def Cmd.none : Cmd := ⟨0, 0, 0, 0, 0, 0, 0⟩

/-- A FREE context (R78, R88). -/
def Ctx.free : Ctx := ⟨.free, Cmd.none, [0, 0, 0, 0, 0, 0], 0, 0, [], 0, none, (0, 1), 0, false, []⟩

/-- A grove after device reset (R78, R94, R106, R107, R126, R135). -/
def Grove.init : Grove :=
  { phase := .idle, pc := 0, bank := 0, ended := true, stall := .none, regs := [], lastTag := 0, flags := [], queues := [],
    ctxs := [], aps := [], wins := [], b0 := .idle, b1 := .idle, armed := none, imem := [], gmem := [], scratch := [],
    poison := [], scratchPoison := [], ctxPoison := [], imemPoison := [], statePoison := false, haltRec := List.replicate 200 0, sampled := false, traceIx := 0,
    writing := [], reqs := [], tagNext := 0, paused := false, waitsAt := [] }

/-- An empty accumulator of a class (R63). -/
def Acc.empty (cls : Nat) : Acc := ⟨cls, 0, 0, false, false, false, false, false, false, false⟩

/-- A scaling context after device reset: empty history (R49). -/
def ScaleCtx.init : ScaleCtx := ⟨[], false, none, false⟩

/-- A cell record naming no holder. -/
def CellRec.free : CellRec := ⟨0, false, false⟩

/-- A link after device reset: DISABLED (R287). -/
def Link.init : Link :=
  { st := .disabled, fenced := false, peerFenced := none, roleFenced := false, rxLanes := 0, txLanes := 0, order := 0, polarity := 0, known := false, peer := 0,
    peerMode := 0, tries := 0, full := false, coefWritten := false, restoring := false, hs := [], lseqTx := 0, replay := [], resend := [],
    retries := 0, lseqRx := 0, nakSent := false, credFloor := [], credShared := 0, credSeen := [], credRet := [],
    credKept := [], advert := [], drawn := [], flight := 0, mirrorCount := 0, paused := 0, xoff := 0, ctr := [] }

/-- An egress queue after device reset (R306, R311). -/
def EQueue.init : EQueue := ⟨[], 0, 0, 0, false, 0, 0, 0, 0, 0, 0, 0, 0⟩

/-- A link's scheduler after device reset (R306). -/
def Sched.init : Sched := ⟨0, none, false⟩

/-- A stream before any frame. -/
def Stream.init : Stream := ⟨0, []⟩

/-- The clock port before any message. -/
def Ptp.init : Ptp := ⟨.listening, 0, 0, none⟩

/-- SPDM state before any request. -/
def Spdm.init : Spdm := ⟨false, [], none, [], [], []⟩

/-- An empty snapshot slot (R473). -/
def Snap.empty : Snap := ⟨0, 0, 0, 0, 0, []⟩

/-- A lane without a measurement (R467: valid 0). -/
def LaneMeas.none : LaneMeas := ⟨0, 0, 0, 0, 0⟩

/-- No checkpoint image in a slot (R236: CKPT_STATUS all 0). -/
def Image.none : Image :=
  ⟨false, 0, 0, 0, 0, 0, 0, 0, 0, 0, 0, [], [], [], [], []⟩

/-- The rails, pins and start-up sequence before t = 0 (R430, R477). -/
def Boot.init : Boot :=
  { rails := false, tripped := false, step := 0, cold := true, clocks := 0, resetN := true, perst := false,
    refclkOk := true, vinOk := true, keys := false, selfDone := false, recovery := false, bank := 0, reason := 0,
    ownerSlot := 0xFF, ownerStatus := 0, bankStatus := [], bootSeq := 0, jtag := false, flash := [], flashOp := none,
    flashStatus := 0, flashReached := 0, tail := [], tailWait := [], ready := 0, readyGroves := 0, readyLinks := 0, readyHeld := 0, readySeen := 0, badGroves := [],
    badPortGroups := 0, selfCells := 0, selfExact := false, spdm := [], draws := 0, pcieUp := false, bootOk := false,
    identity := 0, ownerHdr := 0, meas := [] }

/-- Device memory at reset: zeros (R358); every stack reads 0 until training starts (R366). -/
def Stacks.init : Stacks :=
  { mem := [], poison := [], poisonLog := [], st := [], tries := [], badCh := [], temp := [], mult := [], stats := [],
    interleave := 0, mirror := false, spillGib := 16, shadowGib := 8, scrubNext := 0, scrubPasses := 0,
    refreshNext := [], shadows := [], copyPoison := [], flaws := [] }

/-- The device after a device reset, before its start-up sequence runs. -/
def Dev.init : Dev :=
  { cycle := 0, tick := 0, boot := Boot.init, dict := [], slots := [], chans := [], peers := [],
    evt := ⟨[], 0, [], [], 0, 0, false, false, none, false, false, 3, 0⟩,
    groves := [], spares := ⟨[], [], [], []⟩, scale := [],
    buf := ⟨[], [], [], 0, 2097152, false, [], [], [], [], none, []⟩,
    sw := ⟨[], [], [], [], [], [], [], [], [], [], [], [], [], 0, 1, 0, false, [], [], [], [], []⟩,
    colls := ⟨[], 1, none, [], [], []⟩, mem := Stacks.init,
    pace := ⟨0, 0, [], [], 0, 0, [], false, false, false, 0, 0, 0, false, false, [], 0, 0, [], 0, 0, false, [], Ptp.init⟩,
    modes := ⟨0, false, 0, 0, 0, 0, [], [], [], [], 0, [], []⟩,
    health := ⟨[], [], [], [], [], 0, 0, 0, false, 0, [], [], [], [], [], [], 0, none, 0, []⟩,
    loads := [], marks := [], freeIx := 0, out := [] }

/-- The block right after reset: an LX9-A of stepping B0 (log entry 1), every object at its reset value, nothing queued. -/
def State.reset : State := { part := ⟨.a, .b0, 0⟩, dev := Dev.init, pending := [] }

end Sys2Proof.Machine
end

