-- ==== Sys2Proof/Machine/Num.lean ====
section
/-! DEFINITION. Number formats, rounding and conversions (spec/02_number_formats.md R22-R53), the operations of IEEE 754 that the
vector ALU and the FP64 chain use (R54, R69), on exact rationals. -/

namespace Sys2Proof.Machine

/-! ### Formats (R22, R23, R26) -/

/-- A scalar format: exponent bits, stored significand bits, bias, largest unbiased exponent, whether exponent all ones is
infinity and NaN, and whether the top code alone is a NaN (E4M3). -/
structure Fmt where
  eb : Nat
  mb : Nat
  bias : Nat
  emax : Nat
  ieee : Bool
  topNan : Bool
  deriving DecidableEq, Repr

/-- Formats by FMT code (R26). -/
def fmtOf (code : Nat) : Fmt :=
  match code with
  | 0 => ⟨11, 52, 1023, 1023, true, false⟩
  | 1 => ⟨8, 23, 127, 127, true, false⟩
  | 2 => ⟨8, 7, 127, 127, true, false⟩
  | 3 => ⟨5, 10, 15, 15, true, false⟩
  | 4 => ⟨4, 3, 7, 8, false, true⟩
  | 5 => ⟨5, 2, 15, 15, true, false⟩
  | 6 => ⟨3, 2, 3, 4, false, false⟩
  | 7 => ⟨2, 3, 1, 2, false, false⟩
  | _ => ⟨2, 1, 1, 2, false, false⟩

/-- Width in bits. -/
def Fmt.w (f : Fmt) : Nat := 1 + f.eb + f.mb

/-- Exponent of the subnormal step: 1 - bias - stored significand bits. -/
def Fmt.emin (f : Fmt) : Int := 1 - (f.bias : Int) - (f.mb : Int)

/-- The largest finite code without its sign (R23). -/
def Fmt.maxCode (f : Fmt) : Nat :=
  if f.ieee then (2 ^ f.eb - 1) * 2 ^ f.mb - 1 else if f.topNan then 2 ^ (f.eb + f.mb) - 2 else 2 ^ (f.eb + f.mb) - 1

/-- The canonical NaN (R23). -/
def Fmt.nanCode (f : Fmt) : Nat :=
  if f.ieee then (2 ^ f.eb - 1) * 2 ^ f.mb + 2 ^ (f.mb - 1) else 2 ^ (f.eb + f.mb) - 1

/-- The code of an infinity without its sign. -/
def Fmt.infCode (f : Fmt) : Nat := (2 ^ f.eb - 1) * 2 ^ f.mb

/-- The sign bit added. -/
def Fmt.sign (f : Fmt) (neg : Bool) (code : Nat) : Nat := if neg then code + 2 ^ (f.eb + f.mb) else code

/-- `m` times 2 to the `x`, with a sign. -/
def mkNum (neg : Bool) (m : Nat) (x : Int) : Num :=
  if 0 ≤ x then .fin neg (m * 2 ^ x.toNat) 1 else .fin neg m (2 ^ (-x).toNat)

/-- The value of a code (R22-R24). -/
def decodeNum (f : Fmt) (v : Nat) : Num :=
  let neg := v.testBit (f.eb + f.mb)
  let e := bits v f.mb f.eb
  let m := bits v 0 f.mb
  if f.ieee && e = 2 ^ f.eb - 1 then
    if m = 0 then .inf neg else .nan (!m.testBit (f.mb - 1))
  else if f.topNan && bits v 0 (f.eb + f.mb) = 2 ^ (f.eb + f.mb) - 1 then .nan false
  else if e = 0 then mkNum neg m f.emin
  else mkNum neg (m + 2 ^ f.mb) (f.emin + (e - 1 : Nat))

/-! ### Flags and counts -/

/-- What conversions add up: the flag word of R67, and the counters of R56 and R76 (swamped, saturated, non-finite blocks,
escapes, overflows, term limits). -/
structure Tally where
  flags : Nat
  under : Nat
  sat : Nat
  nonfin : Nat
  esc : Nat
  ovf : Nat
  tlim : Nat
  deriving DecidableEq, Repr

/-- Nothing raised. -/
def Tally.zero : Tally := ⟨0, 0, 0, 0, 0, 0, 0⟩

/-- Flags alone. -/
def Tally.flag (f : Nat) : Tally := ⟨f, 0, 0, 0, 0, 0, 0⟩

/-- Both. -/
def Tally.join (a b : Tally) : Tally :=
  ⟨a.flags ||| b.flags, a.under + b.under, a.sat + b.sat, a.nonfin + b.nonfin, a.esc + b.esc, a.ovf + b.ovf,
    a.tlim + b.tlim⟩

/-- All of a list. -/
def joinAll (ts : List Tally) : Tally := ts.foldl Tally.join Tally.zero

/-- Bits of the flag word (R67). -/
def flInexact : Nat := 1
def flUnderflow : Nat := 2
def flOverflow : Nat := 4
def flInvalid : Nat := 8
def flDivZero : Nat := 16
def flNanOut : Nat := 32
def flSwamped : Nat := 64
def flSaturated : Nat := 128
def flNonfinite : Nat := 256
def flEscaped : Nat := 512
def flPromoted : Nat := 1024
def flTermLimit : Nat := 2048

/-! ### Rounding (R28-R32) -/

/-- floor(log2(num / den)) of a positive rational. -/
def ratLog2 (num den : Nat) : Int :=
  let e : Int := (Nat.log2 num : Int) - (Nat.log2 den : Int)
  let below : Bool := if 0 ≤ e then decide (num < den * 2 ^ e.toNat) else decide (num * 2 ^ (-e).toNat < den)
  if below then e - 1 else e

/-- Whether the magnitude rounds up by one step: remainder `r` of divisor `d`, the quotient odd, the sign, RM (R28). -/
def roundsUp (rm : Nat) (neg odd : Bool) (r d : Nat) : Bool :=
  match rm with
  | 0 => decide (d < 2 * r) || (2 * r = d && odd)
  | 1 => false
  | 2 => r != 0 && !neg
  | 3 => r != 0 && neg
  | _ => decide (d ≤ 2 * r)

/-- A positive rational rounded to `mb + 1` significant bits with steps no finer than 2^emin: significand, step exponent,
whether it was inexact. -/
def roundMag (mb : Nat) (emin : Int) (rm : Nat) (neg : Bool) (num den : Nat) : Nat × Int × Bool :=
  let x := max (ratLog2 num den - mb) emin
  let n := if 0 ≤ x then num else num * 2 ^ (-x).toNat
  let d := if 0 ≤ x then den * 2 ^ x.toNat else den
  let q := n / d
  let r := n % d
  (if roundsUp rm neg (q % 2 = 1) r d then q + 1 else q, x, r != 0)

/-- The code of a rounded magnitude; a carry out of the significand moves to the next exponent by itself. -/
def magCode (f : Fmt) (m : Nat) (x : Int) : Nat := (x - f.emin).toNat * 2 ^ f.mb + m

/-- What an overflow delivers (R29). -/
def overflowCode (f : Fmt) (rm : Nat) (sat neg : Bool) : Nat × Bool :=
  let toInf := match rm with | 0 => true | 1 => false | 2 => !neg | 3 => neg | _ => true
  if sat || !toInf then (f.sign neg f.maxCode, false)
  else if f.ieee then (f.sign neg f.infCode, true)
  else if f.topNan then (f.nanCode, true)
  else (f.sign neg f.maxCode, false)

/-- A value converted into a format under RM and SAT (R28-R32). -/
def roundTo (f : Fmt) (rm : Nat) (sat : Bool) (n : Num) : Nat × Tally :=
  match n with
  | .nan sig => (f.nanCode, Tally.flag (flNanOut ||| (if sig then flInvalid else 0)))
  | .inf neg =>
    if f.ieee then (f.sign neg f.infCode, Tally.zero)
    else if f.topNan then (f.nanCode, Tally.flag (flNanOut ||| flInvalid))
    else (f.sign neg f.maxCode, ⟨flSaturated, 0, 1, 0, 0, 0, 0⟩)
  | .fin neg num den =>
    if num = 0 then (f.sign neg 0, Tally.zero)
    else
      let (m, x, inex) := roundMag f.mb f.emin rm neg num den
      let c := magCode f m x
      if f.maxCode < c then
        let (o, special) := overflowCode f rm sat neg
        let fl := flOverflow ||| flInexact ||| (if sat then flSaturated else 0) ||| (if special && f.topNan then flNanOut else 0)
        (o, ⟨fl, 0, b2n sat, 0, 0, b2n (special && !sat), 0⟩)
      else
        let tiny := decide (c < 2 ^ f.mb)
        (f.sign neg c, Tally.flag ((if inex then flInexact else 0) ||| (if inex && tiny then flUnderflow else 0)))

/-! ### Exact operations -/

/-- A positive power-of-two scaling. -/
def Num.scale (n : Num) (x : Int) : Num :=
  match n with
  | .fin neg num den => if 0 ≤ x then .fin neg (num * 2 ^ x.toNat) den else .fin neg num (den * 2 ^ (-x).toNat)
  | n => n

def Num.isNan : Num → Bool | .nan _ => true | _ => false
def Num.isSig : Num → Bool | .nan s => s | _ => false
def Num.isFin : Num → Bool | .fin .. => true | _ => false
def Num.isZero : Num → Bool | .fin _ n _ => n = 0 | _ => false
def Num.neg? : Num → Bool | .fin s _ _ => s | .inf s => s | .nan _ => false

/-- The negation; a NaN stays. -/
def Num.opp : Num → Num | .fin s n d => .fin (!s) n d | .inf s => .inf (!s) | n => n

/-- The signed numerator over a common denominator. -/
def sgn (neg : Bool) (n : Nat) : Int := if neg then -(n : Int) else n

/-- A sum of two values under a rounding mode (which signs an exact zero, IEEE 754), with the invalid flag. -/
def Num.add (rm : Nat) (a b : Num) : Num × Bool :=
  match a, b with
  | .nan s, .nan t => (.nan false, s || t)
  | .nan s, _ => (.nan false, s)
  | _, .nan s => (.nan false, s)
  | .inf s, .inf t => if s = t then (.inf s, false) else (.nan false, true)
  | .inf s, _ => (.inf s, false)
  | _, .inf s => (.inf s, false)
  | .fin s n d, .fin t m e =>
    let v := sgn s n * e + sgn t m * d
    if v = 0 then (.fin (if n = 0 && m = 0 && s = t then s else rm = 3) 0 1, false)
    else (.fin (decide (v < 0)) v.natAbs (d * e), false)

/-- A product, with the invalid flag (R64). -/
def Num.mul (a b : Num) : Num × Bool :=
  match a, b with
  | .nan s, .nan t => (.nan false, s || t)
  | .nan s, _ => (.nan false, s)
  | _, .nan s => (.nan false, s)
  | .inf s, b => if b.isZero then (.nan false, true) else (.inf (s != b.neg?), false)
  | a, .inf t => if a.isZero then (.nan false, true) else (.inf (a.neg? != t), false)
  | .fin s n d, .fin t m e => (.fin (s != t) (n * m) (d * e), false)

/-- A quotient, with its flags: divide by zero (R67), or invalid. -/
def Num.div (a b : Num) : Num × Nat :=
  match a, b with
  | .nan s, .nan t => (.nan false, if s || t then flInvalid else 0)
  | .nan s, _ => (.nan false, if s then flInvalid else 0)
  | _, .nan s => (.nan false, if s then flInvalid else 0)
  | .inf _, .inf _ => (.nan false, flInvalid)
  | .inf s, b => (.inf (s != b.neg?), 0)
  | a, .inf t => (.fin (a.neg? != t) 0 1, 0)
  | .fin s n d, .fin t m e =>
    if m = 0 then (if n = 0 then (.nan false, flInvalid) else (.inf (s != t), flDivZero))
    else (.fin (s != t) (n * e) (d * m), 0)

/-- Integer square root from bit `k` down. -/
def isqrtFrom : Nat → Nat → Nat → Nat
  | 0, _, r => r
  | k + 1, n, r => isqrtFrom k n (if (r + 2 ^ k) * (r + 2 ^ k) ≤ n then r + 2 ^ k else r)

/-- floor(sqrt n). -/
def isqrt (n : Nat) : Nat := isqrtFrom (Nat.log2 n / 2 + 1) n 0

/-- The square root of num / den, exact when it is rational on the grid, else a point strictly between two neighbours of a
grid finer than every rounding boundary the formats have, so that it rounds as the true root does. -/
def sqrtRat (num den : Nat) : Nat × Nat :=
  let k := 1200
  let n := num * den * 4 ^ k
  let r := isqrt n
  if r * r = n then (r, den * 2 ^ k) else (2 * r + 1, 2 * den * 2 ^ k)

/-- A square root, with the invalid flag (IEEE 754). -/
def Num.sqrt (a : Num) : Num × Bool :=
  match a with
  | .nan s => (.nan false, s)
  | .inf s => if s then (.nan false, true) else (.inf false, false)
  | .fin s n d =>
    if n = 0 then (.fin s 0 1, false)
    else if s then (.nan false, true)
    else (.fin false (sqrtRat n d).1 (sqrtRat n d).2, false)

/-- A reciprocal square root: of a zero an infinity with the divide-by-zero flag. -/
def Num.rsqrt (a : Num) : Num × Nat :=
  match a with
  | .nan s => (.nan false, if s then flInvalid else 0)
  | .inf s => if s then (.nan false, flInvalid) else (.fin false 0 1, 0)
  | .fin s n d =>
    if n = 0 then (.inf s, flDivZero)
    else if s then (.nan false, flInvalid)
    else (.fin false (sqrtRat d n).1 (sqrtRat d n).2, 0)

/-- The order of two values that are no NaNs, with -0 below +0 (R54). -/
def Num.lt (a b : Num) : Bool :=
  match a, b with
  | .inf s, .inf t => s && !t
  | .inf s, _ => s
  | _, .inf t => !t
  | .fin s n d, .fin t m e =>
    let x := sgn s n * e
    let y := sgn t m * d
    decide (x < y) || (x = y && n = 0 && s && !t)
  | _, _ => false

/-- Minimum or maximum, propagating NaNs (R54). -/
def Num.minmax (wantMax : Bool) (a b : Num) : Num × Bool :=
  if a.isNan || b.isNan then (.nan false, a.isSig || b.isSig)
  else if wantMax then (if Num.lt a b then b else a, false)
  else (if Num.lt b a then b else a, false)

/-- |a| < |b| for finite values. -/
def Num.magLt (a b : Num) : Bool :=
  match a, b with
  | .fin _ n d, .fin _ m e => decide (n * e < m * d)
  | _, _ => false

/-- |a| as a pair. -/
def Num.mag : Num → Nat × Nat | .fin _ n d => (n, d) | _ => (0, 1)

/-- The larger of two magnitudes. -/
def magMax (a b : Nat × Nat) : Nat × Nat := if a.1 * b.2 < b.1 * a.2 then b else a

/-- The largest finite magnitude of a list, 0 for none. -/
def amaxOf (xs : List Num) : Nat × Nat := xs.foldl (fun a x => magMax a x.mag) (0, 1)

/-! ### MX and MXE blocks (R35-R43, R66) -/

/-- A block encoded: element codes, scale byte, escape (element, BF16 code), and what it raised. -/
structure Block where
  codes : List Nat
  scale : Nat
  esc : Option (Nat × Nat)
  t : Tally
  deriving DecidableEq, Repr

/-- The scale exponent of R35 and R66 for the magnitude `a`. -/
def blockExp (f : Fmt) (a : Nat × Nat) : Int := min 127 (max (-127) (ratLog2 a.1 a.2 - f.emax))

/-- One element of a block under scale exponent `E` (R35, R38). -/
def mxElem (f : Fmt) (rm : Nat) (E : Int) (n : Num) : Nat × Tally :=
  match n.scale (-E) with
  | .fin neg num den =>
    if num = 0 then (f.sign neg 0, Tally.zero)
    else
      let (m, x, inex) := roundMag f.mb f.emin rm neg num den
      let c := magCode f m x
      if f.maxCode < c then (f.sign neg f.maxCode, ⟨flInexact ||| flSaturated, 0, 1, 0, 0, 0, 0⟩)
      else
        let sw := decide (c < 2 ^ f.mb)
        (f.sign neg c, ⟨(if inex then flInexact else 0) ||| (if sw then flSwamped else 0), b2n sw, 0, 0, 0, 0, 0⟩)
  | _ => (0, Tally.zero)

/-- A block of finite elements, `skip` being an escaped one (R35, R36, R41). -/
def finiteBlock (f : Fmt) (rm : Nat) (xs : List Num) (skip : Option Nat) : Block :=
  let used := (xs.zipIdx.filter (fun x => some x.2 != skip)).map Prod.fst
  let a := amaxOf used
  if a.1 = 0 then
    ⟨xs.zipIdx.map (fun x => if some x.2 = skip then 0 else f.sign x.1.neg? 0), 0, none, Tally.zero⟩
  else
    let E := blockExp f a
    let es := xs.zipIdx.map (fun x => if some x.2 = skip then (0, Tally.zero) else mxElem f rm E x.1)
    ⟨es.map Prod.fst, (E + 127).toNat, none, joinAll (es.map Prod.snd)⟩

/-- The element of R41 that escapes, if one does. -/
def escapeOf (gap : Nat) (xs : List Num) : Option Nat :=
  if gap = 0 then none
  else
    let bad := xs.zipIdx.filter (fun x => !x.1.isFin)
    match bad with
    | [x] => some x.2
    | _ :: _ => none
    | [] =>
      let a := amaxOf xs
      match xs.zipIdx.filter (fun x => x.1.mag.1 * a.2 = a.1 * x.1.mag.2) with
      | [x] =>
        let b := amaxOf ((xs.zipIdx.filter (fun y => y.2 != x.2)).map Prod.fst)
        if a.1 != 0 && b.1 != 0 && decide ((gap : Int) ≤ ratLog2 a.1 a.2 - ratLog2 b.1 b.2) then some x.2 else none
      | _ => none

/-- A block of 32 elements encoded as MX, or as MXE with a gap of at least 1 (R35-R43). -/
def encodeBlock (f : Fmt) (rm : Nat) (sat : Bool) (gap : Nat) (xs : List Num) : Block :=
  match escapeOf gap xs with
  | some i =>
    let b := finiteBlock f rm xs (some i)
    let e := roundTo (fmtOf 2) rm sat (xs.getD i (.nan false))
    { b with esc := some (i, e.1),
             t := b.t.join { e.2 with ovf := 0, flags := e.2.flags ||| flEscaped, esc := 1 } }
  | none =>
    if xs.all Num.isFin then finiteBlock f rm xs none
    else
      ⟨List.replicate xs.length 0, 0xFF, none,
        ⟨flNonfinite ||| flNanOut ||| (if xs.any Num.isSig then flInvalid else 0), 0, 0, 1, 0, 0, 0⟩⟩

/-- Codes of `w` bits packed little-endian (R39). -/
def packCodes (w : Nat) : List Nat → Nat
  | [] => 0
  | c :: cs => c % 2 ^ w + 2 ^ w * packCodes w cs

/-- `n` codes of `w` bits taken from a little-endian value. -/
def unpackCodes (w : Nat) : Nat → Nat → List Nat
  | 0, _ => []
  | n + 1, v => v % 2 ^ w :: unpackCodes w n (v / 2 ^ w)

/-- A list padded to `n` elements. -/
def padTo (n : Nat) (x : Num) (xs : List Num) : List Num := xs ++ List.replicate (n - xs.length) x

/-- +0. -/
def Num.zero : Num := .fin false 0 1

/-- The image of one group of up to 1,024 elements, MXE with its mask and escape records (R40, R42). Padding elements do
not count: a block's padding is +0. -/
def encodeGroup (f : Fmt) (rm : Nat) (sat mxe : Bool) (gap : Nat) (xs : List Num) : List Byte × Tally :=
  let blocks := (chunksOf 32 32 (padTo 1024 Num.zero xs)).map (encodeBlock f rm sat (if mxe then gap else 0))
  let body := blocks.flatMap (fun b => toBytes (4 * f.w) (packCodes f.w b.codes))
  let scales := blocks.map (fun b => BitVec.ofNat 8 b.scale)
  let mask := blocks.zipIdx.foldl (fun m x => if x.1.esc.isSome then m + 2 ^ x.2 else m) 0
  let recs := blocks.flatMap (fun b => match b.esc with | some (i, v) => toBytes 4 (v * 65536 + i) | none => [])
  (body ++ scales ++ (if mxe then toBytes 4 mask ++ recs else []), joinAll (blocks.map (·.t)))

/-- A whole tensor in MX or MXE groups (R40). -/
def encodeMx (f : Fmt) (rm : Nat) (sat mxe : Bool) (gap : Nat) (xs : List Num) : List Byte × Tally :=
  let gs := (chunksOf 1024 xs.length xs).map (encodeGroup f rm sat mxe gap)
  (gs.flatMap Prod.fst, joinAll (gs.map Prod.snd))

/-- The elements of a block: the scale 0xFF makes all of them NaN, an escape replaces one (R34, R37, R43). -/
def decodeBlock (f : Fmt) (body : Nat) (scale : Nat) (esc : Option (Nat × Nat)) : List Num :=
  if scale = 0xFF then List.replicate 32 (.nan false)
  else
    (unpackCodes f.w 32 body).zipIdx.map (fun x =>
      match esc with
      | some (i, v) => if x.2 = i then decodeNum (fmtOf 2) v else (decodeNum f x.1).scale ((scale : Int) - 127)
      | none => (decodeNum f x.1).scale ((scale : Int) - 127))

/-- Escapes of a group in ascending block order, taken from the records that follow the mask. -/
def takeEscapes : List Nat → List Byte → List (Nat × Nat × Nat)
  | [], _ => []
  | b :: bs, recs =>
    let r := ofBytes (recs.take 4)
    (b, r % 32, r / 65536) :: takeEscapes bs (recs.drop 4)

/-- One group of an MX or MXE image: its elements and the bytes it took; none when the bytes end too soon (R40, R42). -/
def decodeGroup (f : Fmt) (mxe : Bool) (bs : List Byte) : Option (List Num × Nat) :=
  let body := 128 * f.w
  let fixed := body + 32 + (if mxe then 4 else 0)
  if bs.length < fixed then none
  else
    let mask := if mxe then ofBytes ((bs.drop (body + 32)).take 4) else 0
    let ix := (List.range 32).filter (fun b => mask.testBit b)
    let total := fixed + 4 * ix.length
    if bs.length < total then none
    else
      let escs := takeEscapes ix ((bs.drop fixed).take (4 * ix.length))
      let xs := (List.range 32).flatMap (fun b =>
        decodeBlock f (ofBytes ((bs.drop (b * 4 * f.w)).take (4 * f.w))) (ofBytes ((bs.drop (body + b)).take 1))
          ((escs.find? (fun e => e.1 == b)).map (fun e => (e.2.1, e.2.2))))
      some (xs, total)

/-- A tensor of `n` elements in MX or MXE groups, and the bytes it took. -/
def decodeMx (f : Fmt) (mxe : Bool) : Nat → Nat → List Byte → Option (List Num × Nat)
  | 0, _, _ => some ([], 0)
  | fuel + 1, n, bs =>
    if n = 0 then some ([], 0)
    else
      match decodeGroup f mxe bs with
      | none => none
      | some (xs, k) =>
        match decodeMx f mxe fuel (n - 1024) (bs.drop k) with
        | none => none
        | some (ys, m) => some (xs.take n ++ ys, k + m)

/-! ### Scalar streams -/

/-- Values converted one by one (SCALE_MODE 0), or under one scale exponent (SCALE_MODE 3, R44). -/
def encodeScalars (f : Fmt) (rm : Nat) (sat : Bool) (E : Int) (xs : List Num) : List Byte × Tally :=
  let cs := xs.map (fun x => roundTo f rm sat (x.scale (-E)))
  (toBytes (cs.length * f.w / 8) (packCodes f.w (cs.map Prod.fst)), joinAll (cs.map Prod.snd))

/-- `n` scalars from bytes. -/
def decodeScalars (f : Fmt) (n : Nat) (bs : List Byte) : List Num :=
  (unpackCodes f.w n (ofBytes bs)).map (decodeNum f)

/-- The scale byte of R44 from an amax: INIT_SCALE for 0. -/
def delayedScale (f : Fmt) (margin init : Nat) (a : Nat × Nat) : Nat :=
  if a.1 = 0 then init
  else (min 254 (max 0 (ratLog2 a.1 a.2 - f.emax + margin + 127))).toNat

/-! ### Splitting FP32 (R50, R53) -/

/-- The three pieces of a finite FP32 code, exact. -/
def splitFp32 (v : Nat) : List Num :=
  let neg := v.testBit 31
  let e := bits v 23 8
  let m := if e = 0 then bits v 0 23 else bits v 0 23 + 2 ^ 23
  let q : Int := if e = 0 then -149 else (e : Int) - 150
  [mkNum neg (m / 65536 * 65536) q, mkNum neg (m / 256 % 256 * 256) q, mkNum neg (m % 256) q]

/-- The three BF16 pieces of SPLIT3 with their flags (R53). -/
def split3Of (v : Nat) : List (Nat × Tally) :=
  match decodeNum (fmtOf 1) v with
  | .nan sig => [(0x7FC0, Tally.flag (flNanOut ||| (if sig then flInvalid else 0))), (0, Tally.zero), (0, Tally.zero)]
  | .inf neg => [((fmtOf 2).sign neg 0x7F80, Tally.zero), ((fmtOf 2).sign neg 0, Tally.zero), ((fmtOf 2).sign neg 0, Tally.zero)]
  | .fin .. => (splitFp32 v).map (fun x =>
      let r := roundTo (fmtOf 2) 0 false x
      (r.1, r.2))

end Sys2Proof.Machine
end

