-- ==== Sys2Proof/Machine/Accum.lean ====
section
/-! DEFINITION. Exact accumulators: classes, terms, merges, the one final rounding, state images, EXP records and the FP64 chain
(spec/03_exact_arithmetic.md R57-R75). -/

namespace Sys2Proof.Machine

/-- Weight of the least significant bit of a class (R57). Class 3 is the A640 of a weighted combine or a WSUM of FP64 elements:
R198 and R203 sum exactly there what lies outside the range of R57, and the model's sum has the room (DEDUCED, log entry 71). -/
def clsLsb (c : Nat) : Int := if c = 0 then -151 else if c = 1 then -302 else if c = 3 then -1223 else -1074

/-- The class's sign bit weight exponent (R57). -/
def clsTop (c : Nat) : Int := if c = 0 then 168 else if c = 1 then 337 else if c = 3 then 1208 else 1101

/-- Width of V in bytes (R71). -/
def clsBytes (c : Nat) : Nat := if c = 0 then 40 else if c = 1 then 80 else if c = 3 then 304 else 272

/-- Term limit; for A320 the count past which it is promoted (R57, R60, R61). -/
def clsLimit (c : Nat) : Nat := if c = 0 then 2 ^ 25 else if c = 1 || c = 3 then 2 ^ 51 else 2 ^ 64 - 1

/-- V lies in its class's range. -/
def inRange (c : Nat) (v : Int) : Bool :=
  let h : Int := 2 ^ (clsTop c - clsLsb c).toNat
  decide (-h ≤ v) && decide (v < h)

/-- A320 promoted to A640: V copied exactly (R60). -/
def promote (a : Acc) : Acc := if a.cls = 0 then { a with cls := 1, v := a.v * 2 ^ 151 } else a

/-- The integer of a finite value on a class's grid. -/
def toGrid (c : Nat) (neg : Bool) (num den : Nat) : Int :=
  sgn neg (num * 2 ^ (-clsLsb c).toNat / den)

/-- Room for `k` more terms (R60, R61). -/
def hasRoom (a : Acc) (k : Nat) : Bool := decide (a.count + k ≤ clsLimit a.cls)

/-- INV follows from both infinities (R63). -/
def closeInv (a : Acc) : Acc := if a.pinf && a.ninf then { a with inv := true } else a

/-- An element as a term: a signalling NaN sets INV alone (R63), which the term `none` does. -/
def elemTerm (n : Num) : Option Num := if n.isSig then none else some n

/-- A term's effect on the state with room made (R63, R64). `none` sets INV alone: an infinity times a zero, or a signalling
NaN element; a signalling NaN factor sets INV and NAN. -/
def addTermRaw (a : Acc) (t : Option Num) : Acc :=
  let first := a.count = 0
  let b := { a with count := a.count + 1, nz := false, pz := false }
  match t with
  | none => { b with inv := true }
  | some (.nan sig) => { b with nan := true, inv := b.inv || sig }
  | some (.inf neg) => closeInv (if neg then { b with ninf := true } else { b with pinf := true })
  | some (.fin neg num den) =>
    if num = 0 then
      if neg then { b with nz := first || a.nz } else { b with pz := first || a.pz }
    else { b with v := b.v + toGrid a.cls neg num den }

/-- A term added (R60, R61): the accumulator, and whether it was promoted. An accumulator that cannot grow and would pass
2^25 terms answers none: the command faults under R122. -/
def addTerm (grow : Bool) (a : Acc) (t : Option Num) : Option (Acc × Bool) :=
  if a.tlim then some (a, false)
  else if hasRoom a 1 then some (addTermRaw a t, false)
  else if a.cls = 0 then
    if grow then some (addTermRaw (promote a) t, true) else none
  else some ({ a with tlim := true }, false)

/-- Both widened to the wider class. -/
def widen (c : Nat) (a : Acc) : Acc :=
  if a.cls = c then a else { a with cls := c, v := a.v * 2 ^ (clsLsb a.cls - clsLsb c).toNat }

/-- A merge of two states (R63); none when V would leave the class range (R75) or an accumulator that cannot grow would pass
its count (R60). -/
def mergeAcc (grow : Bool) (a b : Acc) : Option (Acc × Bool) :=
  if b.count = 0 && !b.tlim then some (a, false)
  else if a.tlim then some (a, false)
  else if a.count = 0 && b.cls ≤ a.cls then some (closeInv { widen a.cls b with cls := a.cls }, false)
  else
    let c := max a.cls b.cls
    let need : Bool := c = 0 && !hasRoom { a with cls := 0 } b.count
    if need && !grow then none
    else
      let c := if need then 1 else c
      let a' := widen c a
      let b' := widen c b
      if clsLimit c < a'.count + b'.count then some ({ a' with tlim := true }, need)
      else
        let v := a'.v + b'.v
        if !inRange c v then none
        else
          let first := a'.count = 0
          some (closeInv { cls := c, v := v, count := a'.count + b'.count, inv := a'.inv || b'.inv, nan := a'.nan || b'.nan,
                           pinf := a'.pinf || b'.pinf, ninf := a'.ninf || b'.ninf, nz := (first || a'.nz) && b'.nz,
                           pz := (first || a'.pz) && b'.pz, tlim := b'.tlim }, need)

/-- The exact value as a number, an infinity or a NaN (R65); `sig` marks the NaN that raises INVALID. -/
def accNum (rm : Nat) (a : Acc) : Num :=
  if a.tlim then .nan true
  else if a.inv || a.nan then .nan a.inv
  else if a.pinf then .inf false
  else if a.ninf then .inf true
  else if a.v = 0 then
    if a.count = 0 then .fin false 0 1
    else if a.nz then .fin true 0 1
    else if a.pz then .fin false 0 1
    else .fin (rm = 3) 0 1
  else mkNum (decide (a.v < 0)) a.v.natAbs (clsLsb a.cls)

/-- What the final rounding adds for a term limit (R61, R65). -/
def tlimTally (a : Acc) : Tally := if a.tlim then ⟨flTermLimit, 0, 0, 0, 0, 0, 1⟩ else Tally.zero

/-- The final rounding of R65 to one code. -/
def sealAcc (f : Fmt) (rm : Nat) (sat : Bool) (a : Acc) : Nat × Tally :=
  let r := roundTo f rm sat (accNum rm a)
  (r.1, r.2.join (tlimTally a))

/-! ### Products (R64) -/

/-- A product term, none for an infinity times a zero. -/
def prodTerm (a b : Num) : Option Num :=
  match a, b with
  | .nan s, .nan t => some (.nan (s || t))
  | .nan s, _ => some (.nan s)
  | _, .nan t => some (.nan t)
  | _, _ => if (Num.mul a b).2 then none else some (Num.mul a b).1

/-! ### State images (R71, R72) -/

/-- The bytes of an image. -/
def accImage (a : Acc) : List Byte :=
  let h := pack [(64, 64, a.count), (56, 2, a.cls), (7, 1, b2n a.inv), (6, 1, b2n a.nan), (5, 1, b2n a.pinf),
    (4, 1, b2n a.ninf), (3, 1, b2n a.nz), (2, 1, b2n a.pz), (1, 1, b2n a.tlim)]
  toBytes 16 h ++ toBytes (clsBytes a.cls) (ofSigned (8 * clsBytes a.cls) a.v)

/-- Bytes of an image of a class. -/
def imageBytes (c : Nat) : Nat := 16 + clsBytes c

/-- An image read back; none when it is malformed (R72). One with PINF and NINF has INV too (R63). -/
def imageAcc (bs : List Byte) : Option Acc :=
  let h := ofBytes (bs.take 16)
  let c := bits h 56 2
  if c = 3 || bits h 58 6 != 0 || bits h 8 48 != 0 || h.testBit 0 || (h.testBit 3 && h.testBit 2) then none
  else
    some (closeInv
      { cls := c, v := toSigned (8 * clsBytes c) (ofBytes ((bs.drop 16).take (clsBytes c))), count := bits h 64 64,
        inv := h.testBit 7, nan := h.testBit 6, pinf := h.testBit 5, ninf := h.testBit 4, nz := h.testBit 3,
        pz := h.testBit 2, tlim := h.testBit 1 })

/-! ### EXP records (R73-R75) -/

/-- Trailing zero bits of a positive number, at most `fuel`. -/
def trailing : Nat → Nat → Nat
  | 0, _ => 0
  | fuel + 1, n => if n % 2 = 0 then trailing fuel (n / 2) + 1 else 0

/-- Units of 16 bits that hold an integer in two's complement. -/
def expUnits (w : Int) : Nat :=
  let b := if 0 ≤ w then Nat.log2 w.natAbs + 2 else Nat.log2 (w.natAbs * 2 - 1) + 1
  (b + 15) / 16

/-- The canonical record of a state (R74). -/
def expRecord (a : Acc) : List Byte :=
  let head := fun (base : Int) (len st : Nat) => toBytes 4 (pack [(0, 8, st), (8, 8, len), (16, 16, ofSigned 16 base)])
  if a.inv || a.nan then head 0 0 (b2n a.inv * 128 + b2n a.nan * 64)
  else if a.pinf || a.ninf then head 0 0 (b2n a.pinf * 32 + b2n a.ninf * 16)
  else if a.v = 0 then head 0 0 (b2n a.nz * 8 + b2n a.pz * 4)
  else
    let k := trailing (8 * clsBytes a.cls) a.v.natAbs
    let w := a.v / 2 ^ k
    let n := expUnits w
    head (clsLsb a.cls + k) n 0 ++ toBytes (2 * n) (ofSigned (16 * n) w)

/-- Most units of a class (R75). -/
def expMaxLen (c : Nat) : Nat := if c = 0 then 20 else if c = 1 then 40 else if c = 3 then 152 else 136

/-- The state of one record with `count` terms; none when it is malformed (R75), a BASE below the class's LSB included, whatever
LEN is. Also the bytes it took. A record with PINF and NINF sets INV too (R63). -/
def readExp (c count : Nat) (bs : List Byte) : Option (Acc × Nat) :=
  if bs.length < 4 then none
  else
    let h := ofBytes (bs.take 4)
    let len := bits h 8 8
    let base := toSigned 16 (bits h 16 16)
    if expMaxLen c < len || bits h 0 2 != 0 || (h.testBit 3 && h.testBit 2) || bs.length < 4 + 2 * len
        || decide (base < clsLsb c) then none
    else
      let w := if len = 0 then 0 else toSigned (16 * len) (ofBytes ((bs.drop 4).take (2 * len)))
      let v := w * 2 ^ (base - clsLsb c).toNat
      if !inRange c v then none
      else
        some (closeInv { cls := c, v := v, count := count, inv := h.testBit 7, nan := h.testBit 6, pinf := h.testBit 5,
                         ninf := h.testBit 4, nz := h.testBit 3, pz := h.testBit 2, tlim := false }, 4 + 2 * len)

/-- A chunk of `n` records that fill the bytes exactly (R75). -/
def readExps (c count : Nat) : Nat → List Byte → Option (List Acc)
  | 0, bs => if bs.isEmpty then some [] else none
  | n + 1, bs =>
    match readExp c count bs with
    | none => none
    | some (a, k) => (readExps c count n (bs.drop k)).map (fun as_ => a :: as_)

/-! ### The FP64 chain (R69) -/

/-- One value rounded to FP64 under RM and SAT; NAN_OUT belongs to the final result alone. -/
def round64 (rm : Nat) (sat : Bool) (n : Num) (invalid : Bool) : Nat × Tally :=
  let r := roundTo (fmtOf 0) rm sat n
  (r.1, { r.2 with flags := (r.2.flags &&& (flInexact ||| flUnderflow ||| flOverflow ||| flSaturated))
                            ||| (if invalid then flInvalid else 0) })

/-- A fused multiply-add on exact values: the result before rounding, and invalid. An infinity times a zero raises invalid also
when the addend is a quiet NaN, which IEEE 754 leaves to the implementation (DESIGN CHOICE, log entry 98). -/
def Num.fma (rm : Nat) (a b c : Num) : Num × Bool :=
  match a, b, c with
  | .nan s, b, c => (.nan false, s || b.isSig || c.isSig)
  | a, .nan s, c => (.nan false, a.isSig || s || c.isSig)
  | a, b, .nan s => (.nan false, s || (Num.mul a b).2)
  | a, b, c =>
    let m := Num.mul a b
    if m.2 then (.nan false, true) else Num.add rm m.1 c

/-- The chain over factor pairs from an accumulator code (R69): result code and what the steps raised. -/
def chain64 (rm : Nat) (sat : Bool) : List (Num × Num) → Nat × Tally → Nat × Tally
  | [], acc => acc
  | (a, b) :: xs, (acc, t) =>
    let r := Num.fma rm a b (decodeNum (fmtOf 0) acc)
    let c := round64 rm sat r.1 r.2
    chain64 rm sat xs (c.1, t.join c.2)

/-- An FP64 dot product without a narrowing conversion (R69). -/
def dot64 (rm : Nat) (sat : Bool) (init : Option Nat) (xs : List (Num × Num)) : Nat × Tally :=
  match init with
  | some c => chain64 rm sat xs (c, Tally.zero)
  | none =>
    match xs with
    | [] => (0, Tally.zero)
    | (a, b) :: ys =>
      let m := Num.mul a b
      chain64 rm sat ys (round64 rm sat m.1 m.2)

end Sys2Proof.Machine
end

