-- ==== Sys2Proof/Config.lean ====
section
/-! DEFINITION. What one implementation fixes and the spec leaves open: uninterpreted functions. No value of any of them can
be computed or proved, so a claim about the model holds whatever they are. Each one is named in the assumption log. -/

namespace Sys2Proof.Config

/-- SHA-384, which the spec names and does not spell out (spec/17_startup_and_security.md R439, spec/08 R232). -/
opaque sha384Bits : List Byte → BitVec 384

/-- The digest as a value. -/
def sha384 (bs : List Byte) : Nat := (sha384Bits bs).toNat

/-- RSASSA-PSS verification with SHA-384: modulus, message, signature (R439). -/
opaque rsaVerify : List Byte → List Byte → List Byte → Bool

/-- SLH-DSA-SHA2-192s verification: public key, message, signature (R439). -/
opaque slhVerify : List Byte → List Byte → List Byte → Bool

/-- The SHA-384 digest of Pyrgan key pair `k` in the boot ROM of the stepping (R440). -/
opaque romKeyDigestBits : Nat → Nat → BitVec 384

/-- It as a value. -/
def romKeyDigest (step k : Nat) : Nat := (romKeyDigestBits step k).toNat

/-- Whether PUF correction and key unwrap succeed, from the listed bytes of the identity region: 0 both, 1 correction failed,
2 unwrap failed (R448). -/
opaque pufOutcome : List (Nat × Byte) → Fin 3

/-- Digest of the boot ROM of a stepping (measurement 1, R449). -/
opaque romDigestBits : Nat → BitVec 384

/-- It as a value. -/
def romDigest (step : Nat) : Nat := (romDigestBits step).toNat

/-- An SPDM response body signed with the RSA identity key, from the signed transcript (R450). -/
opaque rsaSignBits : List Byte → BitVec 3072

/-- It as 384 bytes. -/
def rsaSign (bs : List Byte) : List Byte := (List.range 384).map (fun k => BitVec.ofNat 8 ((rsaSignBits bs).toNat / 256 ^ k))

/-- An SLH-DSA signature of 16,224 bytes over a transcript hash (R451). -/
opaque slhSignBits : Nat → BitVec 129792

/-- It as bytes. -/
def slhSign (h : Nat) : List Byte := (List.range 16224).map (fun k => BitVec.ofNat 8 ((slhSignBits h).toNat / 256 ^ k))

/-- Certificate chain of slot 0 (RSA), and of the SLH-DSA identity (R450, R451). -/
opaque certChain : Nat → List Byte

/-- The SPDM transcript hash L2 of a MEASUREMENTS exchange (R451). -/
opaque transcriptHashBits : List Byte → BitVec 384

/-- It as a value. -/
def transcriptHash (bs : List Byte) : Nat := (transcriptHashBits bs).toNat

/-- Fields of SPDM messages that the SPDM standard fixes and the spec does not state (R450). -/
opaque spdmBody : Nat → List Byte → List Byte

/-- Lane coefficients in the device's own format, four blocks of 2,044 bytes (R437). -/
opaque laneCoefficients : Nat → List Byte

/-- The delay in ms, 0 to 50, drawn for a discovery answer (R406); indexed by a counter of draws. -/
opaque discoveryDelay : Nat → Nat

/-- Per-device constants: SERIAL, FNET_MAC, SPDM_VENDOR_ID, the JEDEC ID and size of the flash, and the digests of the identity public
keys, RSA 0, SLH-DSA 1 (R419, R414, R452). -/
opaque serial : Nat
opaque fnetMac : Nat
opaque spdmVendorId : Nat
opaque jedecId : Nat
opaque flashSize : Nat
opaque identityDigestBits : Nat → BitVec 384

/-- The firmware words of a DEVICE-role grove's instruction bank (R103). -/
opaque firmwareBank : Nat → List Word

/-- Whether the OFFSET of a filter set's record, as an engine's PROBE reads it, is an engine address of scratch or grove memory (R84)
or a device memory offset (R208). -/
opaque probeLocal : Nat → Bool

/-- The eight check bits of a 64-bit word under the stacks' SEC-DED (72,64) Hsiao code, whose matrix the spec does not give (R352). -/
opaque hsiaoBits : Nat → BitVec 8

/-- The type code that DESCRIBE gives for the I16 of THERM_WARN, which the type list of R389 does not hold (R473). -/
opaque i16TypeCode : Nat

/-- The scale byte of a command's input elements under SCALE_MODE 3, from the words of the command's body: the spec gives no
place for it (R25, R44). -/
opaque inputScale : List Nat → Nat

/-- The scale byte of a command's output whose measured values depend on the scale they set (R44), from the words of the body
and the operand bytes. -/
opaque outputScale : List Nat → List Byte → Nat

/-- The engine and context of a DEVICE-role grove on which the firmware runs a collective's command, packed as engine + 16 ×
context, for the grove and TAG (R181). -/
opaque firmwareSlot : Nat → Nat → Nat

/-- A result the spec does not state, for the counter of free values and the width in bits asked for. -/
opaque freeNat : Nat → Nat

end Sys2Proof.Config
end

