-- ==== Sys2Proof/Machine/Ops.lean ====
section
/-! DEFINITION. The operations every family shares: how a meaning becomes an outcome, what exists on the part, clocks, the
dictionary store, events and levels, readiness, and writes through the record tables of the device. -/

namespace Sys2Proof.Machine

/-! ### Outcomes -/

/-- The outcome type of every meaning. -/
abbrev Res := Host.Outcome State Fault Refusal

/-- A meaning that changes the device only: the part and the queue of waiting commands stay. -/
def lift (s : State) (f : Part → Dev → Dev) : Res := .next { s with dev := f s.part s.dev }

/-- A meaning at a unit: the unit must exist on this part. -/
def liftAt (s : State) (present : Bool) (f : Part → Dev → Dev) : Res :=
  if present then lift s f else .fault .noSuchUnit

/-! ### What the part has (R1, R4, R10, R14, R18) -/

/-- GROVES_ENABLED (R1, R101). -/
def Part.groves (p : Part) : Nat := match p.grade with | .a => 32 | .b => 24 | .c => 32

/-- Links present (R1, R297). -/
def Part.links (p : Part) : Nat := match p.grade with | .a => 128 | .b => 128 | .c => 64

/-- Memory stacks present (R1, R366). -/
def Part.stacks (p : Part) : Nat := match p.grade with | .a => 8 | .b => 8 | .c => 4

/-- STEPPING as R3 encodes it. -/
def Part.step (p : Part) : Nat := match p.stepping with | .a0 => 0xA0 | .a1 => 0xA1 | .b0 => 0xB0

/-- Clock domains in the order of R18, counting from 0. -/
def domArc : Nat := 0
def domXbar : Nat := 1
def domMem (k : Nat) : Nat := 2 + k
def domPort (pg : Nat) : Nat := 10 + pg
def domMgmt : Nat := 30
def domSec : Nat := 31
def domPcie : Nat := 32
def domFnet : Nat := 33
def domXspi : Nat := 34
def domPace : Nat := 35
def domTelem : Nat := 36
def domPower : Nat := 37
def domJtag : Nat := 38
def domAon : Nat := 39

/-- The domain runs. -/
def Dev.runs (d : Dev) (dom : Nat) : Bool := d.boot.clocks.testBit dom

/-! ### The dictionary store (R388, R414, R422) -/

/-- The store's key of a record. -/
def objKey (idx sub rec : Nat) : Nat := (idx * 256 + sub) * 1048576 + rec

/-- A stored record with its default. -/
def Dev.rdD (d : Dev) (dflt idx sub rec : Nat) : Nat := d.dict.get dflt (objKey idx sub rec)

/-- A record stored, kept out of the store when it equals its default. -/
def Dev.wrD (d : Dev) (dflt idx sub rec v : Nat) : Dev :=
  { d with dict := d.dict.set dflt (objKey idx sub rec) v }

/-- A counter (R414: counts up from 0, wraps modulo 2^64). -/
def Dev.ctr (d : Dev) (idx sub rec : Nat) : Nat := d.rdD 0 idx sub rec

/-- A counter advanced. -/
def Dev.inc (d : Dev) (idx sub rec : Nat) (by_ : Nat := 1) : Dev :=
  d.wrD 0 idx sub rec ((d.ctr idx sub rec + by_) % 2 ^ 64)

/-! ### Free values and output -/

/-- The next free value: an uninterpreted constant applied to a counter that advances. -/
def Dev.draw (d : Dev) : Nat × Dev := (Config.freeNat d.freeIx, { d with freeIx := d.freeIx + 1 })

/-- Something leaves the device. -/
def Dev.send (d : Dev) (o : Out) : Dev := { d with out := o :: d.out }

/-! ### Events (R408-R412, R424-R427) -/

/-- Layout LV: record, new and old first 8 bytes (R424). -/
def dataLV (rec new old : Nat) : Nat := pack [(64, 64, old), (128, 64, new), (224, 32, rec)]

/-- Layout UN (R424). -/
def dataUN (ukind unit unit2 cause a b c : Nat) : Nat :=
  pack [(0, 64, c), (64, 64, b), (128, 64, a), (208, 8, cause), (216, 16, unit2), (232, 16, unit), (248, 8, ukind)]

/-- Records in the queue that count toward EVQ_DEPTH (R410). -/
def Events.depth (e : Events) : Nat := e.queue.length + (e.placed - e.consumed)

/-- EVQ_OLDEST (R409). -/
def Events.oldest (e : Events) : Nat := e.last + 1 - e.log.length

/-- The first record of the smallest priority number, and the queue without it (R410). -/
def pickEvent : List Event → Option (Event × List Event)
  | [] => none
  | x :: xs =>
    match pickEvent xs with
    | none => some (x, [])
    | some (y, ys) => if y.prio < x.prio then some (y, x :: ys) else some (x, xs)

/-- EVQ_OWNER (R410). -/
def Dev.evqOwner (d : Dev) : Nat := d.rdD 0 0x1021 4 0

/-- An MSI-X vector raised (R399, R400): a masked one stands pending instead. -/
def raiseMsix (d : Dev) (v : Nat) : Dev :=
  if d.evt.masks.testBit v || d.evt.masks.testBit 2 then { d with evt := { d.evt with pend := d.evt.pend ||| 2 ^ v } }
  else d.send (.msix v)

/-- Records placed into the BAR2 window while there is room (R400, R410). -/
def placeEvents : Nat → Dev → Dev
  | 0, d => d
  | fuel + 1, d =>
    let e := d.evt
    if d.evqOwner != 0 || 64 ≤ e.placed - e.consumed then d
    else
      match pickEvent e.queue with
      | none => d
      | some (x, q) =>
        let d' := { d with evt := { e with queue := q, window := e.window.put (e.placed % 64) x, placed := e.placed + 1 } }
        placeEvents fuel (if e.placed = e.consumed then raiseMsix d' 1 else d')

/-- The notice of R410 to the peer that last read the queue, at most one per millisecond. -/
def notice (d : Dev) : Dev :=
  match d.evt.reader with
  | none => d
  | some peer =>
    if d.evt.noticeRecent then { d with evt := { d.evt with noticeHeld := true } }
    else { d.send (.notice peer) with evt := { d.evt with noticeRecent := true } }

/-- An event record made (R408). -/
def Dev.mkEvent (d : Dev) (code status prio : Nat) (rise : Bool) (idx sub data : Nat) : Event :=
  { seq := d.evt.last + 1, pace := d.pace.visible, wall := d.pace.wall, code := code, status := status, prio := prio,
    rise := rise, objIdx := idx, objSub := sub, data := data }

/-- The 64 bytes of an event record as one value (R408). -/
def Event.image (e : Event) : Nat :=
  pack [(0, 256, e.data), (264, 8, e.objSub), (272, 16, e.objIdx), (292, 1, b2n e.rise), (293, 3, e.prio),
    (296, 8, e.status), (304, 16, e.code), (320, 64, e.wall), (384, 64, e.pace), (448, 64, e.seq)]

/-- A record put into the persistent tail, newest first. The 4 MiB ring has 64 sectors of 512 records; entering a sector of a full
ring erases that sector first, so the oldest 512 records go (R435, R438). -/
def putTail (d : Dev) (r : TailRec) : Dev :=
  let old := if d.boot.tail.length = 32768 then d.boot.tail.take 32256 else d.boot.tail
  { d with boot := { d.boot with tail := r :: old } }

/-- A record that is in flash before start-up goes on: a boot attempt or an attempt reset (R445, R446). -/
def appendTail (d : Dev) (ty body : Nat) : Dev := putTail d ⟨body, d.boot.bootSeq, ty, true⟩

/-- A record on its way to the persistent tail: it is there when its write has ended (R438). -/
def queueTail (d : Dev) (ty body : Nat) : Dev :=
  { d with boot := { d.boot with tailWait := d.boot.tailWait ++ [⟨body, d.boot.bootSeq, ty, true⟩] } }

/-- An event written without the level changes it can bring about (R409-R411). -/
def emitRaw (d : Dev) (code status prio : Nat) (rise : Bool) (idx sub data : Nat) : Dev :=
  let x := d.mkEvent code status prio rise idx sub data
  if d.boot.recovery then queueTail { d with evt := { d.evt with last := x.seq } } 1 x.image
  else
  let e : Events := { d.evt with last := x.seq, log := (x :: d.evt.log).take 65536 }
  let d := if prio ≤ 1 then queueTail d 1 x.image else d
  if 4096 ≤ e.depth then { d with evt := e }.inc 0x1021 3 0
  else
    let d' := placeEvents 64 { d with evt := { e with queue := e.queue ++ [x] } }
    if d.evqOwner = 1 && e.queue.isEmpty then notice d' else d'

/-- EVQ_FULL brought to what the depth says, the change written as LEVEL (R411, R425). -/
def settleFull (d : Dev) : Dev :=
  if !d.evt.full && 4096 ≤ d.evt.depth then
    emitRaw { d with evt := { d.evt with full := true } } 3 0 3 true 0x1021 1 (dataLV 0xFFFFFFFF 1 0)
  else if d.evt.full && d.evt.depth < 4096 then
    emitRaw { d with evt := { d.evt with full := false } } 3 0 3 false 0x1021 1 (dataLV 0xFFFFFFFF 0 1)
  else d

/-- EVQ_OVERRUN brought to what the queue has lost and holds, the change written as LEVEL (R411, R425). `drops` is EVQ_DROPPED
before. -/
def settleOver (d : Dev) (drops : Nat) : Dev :=
  if !d.evt.overrun && drops < d.ctr 0x1021 3 0 then
    emitRaw { d with evt := { d.evt with overrun := true } } 3 0 3 true 0x1021 2 (dataLV 0xFFFFFFFF 1 0)
  else if d.evt.overrun && d.evt.depth < 2048 then
    emitRaw { d with evt := { d.evt with overrun := false } } 3 0 3 false 0x1021 2 (dataLV 0xFFFFFFFF 0 1)
  else d

/-- Both levels settled. The event that EVQ_FULL clears enters the queue itself and can fill it again. -/
def settleQueue (d : Dev) (drops : Nat) : Dev := settleOver (settleFull (settleFull d)) drops

/-- An event written (R408-R411). -/
def emit (d : Dev) (code status prio : Nat) (rise : Bool) (idx sub data : Nat) : Dev :=
  settleQueue (emitRaw d code status prio rise idx sub data) (d.ctr 0x1021 3 0)

/-- A level event of code 1 LEVEL_FAIL, 2 LEVEL_LOSS, 3 LEVEL or 4 READY when the value changes (R402, R425). RISE is set
when the level sets: for a level of bits (codes 1, 2 and 4) when a bit was gained, for a level of values (code 3) when the
new value is not zero. -/
def emitLevel (d : Dev) (code idx sub rec new old : Nat) : Dev :=
  if new = old then d
  else
    let prio := if code = 1 then 0 else if code = 2 then 1 else if code = 3 then 3 else 4
    emit d code 0 prio (if code = 3 then new != 0 else new != (new &&& old)) idx sub (dataLV rec (new % 2 ^ 64) (old % 2 ^ 64))

/-! ### Readiness (R403) -/

/-- A READY_MAP bit. -/
def Dev.isReady (d : Dev) (k : Nat) : Bool := d.boot.ready.testBit k

/-- A value with bit `k` set or cleared. -/
def putBit (v k : Nat) (b : Bool) : Nat := setBits v k 1 (b2n b)

/-- A READY_MAP bit written, the change as READY (R403, R425). -/
def writeReady (d : Dev) (k : Nat) (b : Bool) : Dev :=
  let old := d.boot.ready
  let new := putBit old k b
  emitLevel { d with boot := { d.boot with ready := new, readySeen := d.boot.readySeen ||| new } } 4 0x1010 0 0xFFFFFFFF new old

/-- A READY_MAP bit brought to `b`. A function other than the two dictionary paths is ready only once a path has been ready to
report it: until then the bit is held (R403; bootOk says that a path has risen, R445). -/
def setReady (d : Dev) (k : Nat) (b : Bool) : Dev :=
  if k < 2 || d.boot.bootOk then writeReady d k b
  else { d with boot := { d.boot with readyHeld := putBit d.boot.readyHeld k b } }

/-- A function does its work, reported or not yet. -/
def Dev.works (d : Dev) (k : Nat) : Bool := d.isReady k || d.boot.readyHeld.testBit k

/-- A path has risen: the functions that waited for one are ready, in the order of their bits (R403). -/
def releaseReady (d : Dev) : Dev :=
  (List.range 32).foldl (fun d k => if d.boot.readyHeld.testBit k then writeReady d k true else d) d
    |> fun d => { d with boot := { d.boot with readyHeld := 0 } }

/-- A READY_GROVES bit brought to `b`, and GROVES with it (R403). -/
def setReadyGrove (d : Dev) (g : Nat) (b : Bool) : Dev :=
  let old := d.boot.readyGroves
  let new := putBit old g b
  let d := emitLevel { d with boot := { d.boot with readyGroves := new } } 4 0x1010 1 0xFFFFFFFF new old
  setReady d 9 (new != 0)

/-- A READY_LINKS bit brought to `b` (R403). -/
def setReadyLink (d : Dev) (n : Nat) (b : Bool) : Dev :=
  let old := d.boot.readyLinks
  let new := putBit old n b
  if new = old then d
  else emit { d with boot := { d.boot with readyLinks := new } } 4 0 4 b 0x1010 2
    (dataLV 0xFFFFFFFF (new % 2 ^ 64) (old % 2 ^ 64))

/-! ### Records of the device -/

/-- A logical grove. -/
def Dev.grove (d : Dev) (g : Nat) : Grove := d.groves.get Grove.init g

/-- A logical grove changed. -/
def Dev.setGrove (d : Dev) (g : Nat) (v : Grove) : Dev := { d with groves := d.groves.set Grove.init g v }

/-- A link. -/
def Dev.link (d : Dev) (n : Nat) : Link := d.sw.links.get Link.init n

/-- A link changed. -/
def Dev.setLink (d : Dev) (n : Nat) (v : Link) : Dev := { d with sw := { d.sw with links := d.sw.links.set Link.init n v } }

/-- An egress queue (link, queue). -/
def Dev.eq (d : Dev) (n q : Nat) : EQueue := d.sw.queues.get EQueue.init (n * 16 + q)

/-- An egress queue changed. -/
def Dev.setEq (d : Dev) (n q : Nat) (v : EQueue) : Dev :=
  { d with sw := { d.sw with queues := d.sw.queues.set EQueue.init (n * 16 + q) v } }

/-- A BAR0 slot. -/
def Dev.slot (d : Dev) (n : Fin 8) : Slot := d.slots.get Slot.init n

/-- A BAR0 slot changed. -/
def Dev.setSlot (d : Dev) (n : Fin 8) (v : Slot) : Dev := { d with slots := d.slots.set Slot.init n v }

/-- A dictionary channel: slot n, or 8 + entry for a peer entry (R396, R405). -/
def Dev.chan (d : Dev) (c : Nat) : Chan := d.chans.get Chan.init c

/-- A channel changed. -/
def Dev.setChan (d : Dev) (c : Nat) (v : Chan) : Dev := { d with chans := d.chans.set Chan.init c v }

/-- GROVE_STATE encoding (R106). -/
def GPhase.code : GPhase → Nat
  | .idle => 0 | .running => 1 | .halted => 2 | .resetting => 3 | .lost => 4

/-- A grove moved to a state, written as LEVEL (R425). A DEVICE-role grove, which runs firmware and takes no START, is moved to none
and reads IDLE (DESIGN CHOICE, log entry 117). -/
def setPhase (d : Dev) (g : Nat) (ph : GPhase) : Dev :=
  let old := (d.grove g).phase
  emitLevel (d.setGrove g { d.grove g with phase := ph }) 3 0x4100 2 g ph.code old.code

/-- GROVE_ROLE (0 DEVICE, 1 PROGRAM, R103). -/
def Dev.role (d : Dev) (g : Nat) : Nat := d.rdD 0 0x4100 0 g

/-- GROVE_JOB (R105). -/
def Dev.groveJob (d : Dev) (g : Nat) : Nat := d.rdD 0 0x4100 1 g

/-- GROVE_UTIL count `k` of a logical grove advanced (R470). -/
def Dev.addUtil (d : Dev) (g k n : Nat) : Dev :=
  { d with health := { d.health with util := d.health.util.set 0 (5 * g + k) ((d.health.util.get 0 (5 * g + k) + n) % 2 ^ 64) } }

/-! ### Status codes (R415) -/

def stOK : Nat := 0
def stNotReady : Nat := 1
def stLocked : Nat := 2
def stBadField : Nat := 3
def stBadPointer : Nat := 4
def stCheckFail : Nat := 5
def stFenced : Nat := 6
def stEpochStale : Nat := 7
def stSlotsExceed : Nat := 8
def stTableFull : Nat := 9
def stWaitCycle : Nat := 10
def stBankActive : Nat := 11
def stAcnUnsupported : Nat := 12

end Sys2Proof.Machine
end

