-- ==== Sys2Proof/Machine/Dict.lean ====
section
/-! DEFINITION. The object reference of the dictionary: every defined object with its type, access class, persistence mark,
function and size (spec/15_dictionary_protocol.md R388-R390, spec/16_dictionary_reference.md R417, and the object table of
each chapter), and the default of every object that software or the owner image can set. -/

namespace Sys2Proof.Machine

/-- One object: index, subindex, type code of R389 (11 stands for the I16 of R473, which R389 does not list), access code
of R390, persistence mark, READY_MAP bit or 0xFF (R418), value or record bytes (0 if variable), record count, and how the
count is meant: 0 as it stands, 1 times the enabled groves, 2 whatever is held now. -/
structure Obj where
  idx : Nat
  sub : Nat
  ty : Nat
  acc : Nat
  pers : Nat
  func : Nat
  bytes : Nat
  recs : Nat
  unit : Nat
  deriving DecidableEq, Repr

/-- Objects of the dictionary, part 0. -/
def objs0 : List Obj :=
  [⟨0x1000, 0, 8, 0, 0, 255, 0, 1, 0⟩, ⟨0x1000, 1, 8, 0, 0, 255, 0, 1, 0⟩, ⟨0x1001, 0, 8, 0, 0, 255, 0, 1, 0⟩,
   ⟨0x1002, 0, 1, 0, 0, 255, 1, 1, 0⟩, ⟨0x1003, 0, 3, 0, 0, 255, 4, 1, 0⟩, ⟨0x1004, 0, 9, 0, 0, 255, 16, 1, 0⟩,
   ⟨0x1005, 0, 3, 0, 0, 255, 4, 1, 0⟩, ⟨0x1006, 0, 2, 0, 0, 255, 2, 1, 0⟩, ⟨0x1010, 0, 3, 0, 0, 255, 4, 1, 0⟩,
   ⟨0x1010, 1, 3, 0, 0, 255, 4, 1, 0⟩, ⟨0x1010, 2, 9, 0, 0, 255, 16, 1, 0⟩, ⟨0x1011, 0, 3, 0, 0, 2, 4, 1, 0⟩,
   ⟨0x1020, 0, 4, 0, 0, 2, 8, 1, 0⟩, ⟨0x1020, 1, 4, 0, 0, 2, 8, 1, 0⟩, ⟨0x1021, 0, 2, 0, 0, 2, 2, 1, 0⟩,
   ⟨0x1021, 1, 0, 0, 0, 2, 1, 1, 0⟩]

/-- Objects of the dictionary, part 1. -/
def objs1 : List Obj :=
  [⟨0x1021, 2, 0, 0, 0, 2, 1, 1, 0⟩, ⟨0x1021, 3, 4, 0, 0, 2, 8, 1, 0⟩, ⟨0x1021, 4, 1, 1, 1, 2, 1, 1, 0⟩,
   ⟨0x1021, 5, 0, 2, 0, 2, 1, 1, 0⟩, ⟨0x1030, 0, 10, 0, 0, 255, 8, 8, 0⟩, ⟨0x1040, 0, 1, 4, 1, 255, 1, 1, 0⟩,
   ⟨0x1040, 1, 1, 0, 0, 255, 1, 1, 0⟩, ⟨0x1040, 2, 1, 1, 1, 255, 1, 1, 0⟩, ⟨0x1040, 3, 9, 0, 0, 255, 6, 1, 0⟩,
   ⟨0x1F00, 0, 2, 2, 0, 255, 2, 1, 0⟩, ⟨0x1F00, 1, 1, 0, 0, 255, 1, 1, 0⟩, ⟨0x2000, 0, 1, 0, 0, 6, 1, 1, 0⟩,
   ⟨0x2001, 0, 10, 1, 1, 6, 1, 128, 0⟩, ⟨0x2001, 1, 9, 2, 0, 6, 8, 1, 0⟩, ⟨0x2001, 2, 10, 0, 0, 6, 8, 128, 0⟩,
   ⟨0x2001, 3, 7, 1, 1, 6, 4, 1, 0⟩]

/-- Objects of the dictionary, part 2. -/
def objs2 : List Obj :=
  [⟨0x2002, 0, 10, 1, 1, 6, 16, 128, 0⟩, ⟨0x2002, 1, 0, 0, 0, 6, 1, 1, 0⟩, ⟨0x2003, 0, 3, 1, 1, 6, 4, 1, 0⟩,
   ⟨0x2003, 1, 1, 1, 1, 6, 1, 1, 0⟩, ⟨0x2004, 0, 3, 1, 1, 6, 4, 1, 0⟩, ⟨0x2004, 1, 4, 0, 0, 6, 8, 1, 0⟩,
   ⟨0x2004, 2, 4, 0, 0, 6, 8, 1, 0⟩, ⟨0x2004, 3, 4, 0, 0, 6, 8, 1, 0⟩, ⟨0x2005, 0, 10, 0, 0, 6, 128, 128, 0⟩,
   ⟨0x2006, 0, 10, 0, 0, 6, 1, 512, 0⟩, ⟨0x2006, 1, 4, 0, 0, 6, 8, 1, 0⟩, ⟨0x2010, 0, 10, 1, 1, 6, 1, 8, 0⟩,
   ⟨0x2010, 1, 10, 1, 1, 6, 1, 128, 0⟩, ⟨0x2010, 2, 2, 1, 1, 6, 2, 1, 0⟩, ⟨0x2010, 3, 2, 1, 1, 6, 2, 1, 0⟩,
   ⟨0x2011, 0, 10, 1, 1, 6, 36, 4096, 0⟩]

/-- Objects of the dictionary, part 3. -/
def objs3 : List Obj :=
  [⟨0x2011, 1, 10, 1, 1, 6, 2, 128, 0⟩, ⟨0x2012, 0, 3, 1, 1, 6, 4, 1, 0⟩, ⟨0x2012, 1, 3, 0, 0, 6, 4, 1, 0⟩,
   ⟨0x2012, 2, 2, 2, 0, 6, 2, 1, 0⟩, ⟨0x2020, 0, 10, 1, 1, 6, 4, 128, 0⟩, ⟨0x2020, 1, 9, 0, 0, 6, 0, 1, 2⟩,
   ⟨0x2020, 2, 2, 0, 0, 6, 2, 1, 0⟩, ⟨0x2020, 3, 4, 0, 0, 6, 8, 1, 0⟩, ⟨0x3000, 0, 3, 0, 0, 6, 4, 1, 0⟩,
   ⟨0x3000, 1, 3, 0, 0, 6, 4, 1, 0⟩, ⟨0x3000, 2, 3, 0, 0, 6, 4, 1, 0⟩, ⟨0x3000, 3, 3, 0, 0, 6, 4, 1, 0⟩,
   ⟨0x3001, 0, 3, 1, 1, 6, 4, 1, 0⟩, ⟨0x3002, 0, 10, 1, 1, 6, 1, 8, 0⟩, ⟨0x3002, 1, 10, 1, 1, 6, 16, 128, 0⟩,
   ⟨0x3003, 0, 4, 0, 0, 6, 8, 1, 0⟩]

/-- Objects of the dictionary, part 4. -/
def objs4 : List Obj :=
  [⟨0x3003, 1, 4, 0, 0, 6, 8, 1, 0⟩, ⟨0x3003, 2, 4, 0, 0, 6, 8, 1, 0⟩, ⟨0x3003, 3, 4, 0, 0, 6, 8, 1, 0⟩,
   ⟨0x3010, 0, 3, 1, 1, 6, 4, 1, 0⟩, ⟨0x3010, 1, 4, 0, 0, 6, 8, 1, 0⟩, ⟨0x3010, 2, 10, 0, 0, 6, 48, 0, 2⟩,
   ⟨0x3010, 3, 4, 0, 0, 6, 8, 1, 0⟩, ⟨0x3010, 4, 4, 0, 0, 6, 8, 1, 0⟩, ⟨0x3010, 5, 9, 3, 0, 6, 8, 1, 0⟩,
   ⟨0x3010, 6, 4, 0, 0, 6, 8, 1, 0⟩, ⟨0x3100, 0, 10, 1, 1, 6, 8, 128, 0⟩, ⟨0x3100, 1, 10, 1, 1, 6, 8, 128, 0⟩,
   ⟨0x3101, 0, 10, 1, 1, 6, 128, 128, 0⟩, ⟨0x3101, 1, 10, 1, 1, 6, 128, 128, 0⟩, ⟨0x3101, 2, 10, 1, 1, 6, 1, 128, 0⟩,
   ⟨0x3102, 0, 10, 0, 0, 6, 64, 128, 0⟩]

/-- Objects of the dictionary, part 5. -/
def objs5 : List Obj :=
  [⟨0x3102, 1, 10, 0, 0, 6, 256, 128, 0⟩, ⟨0x3103, 0, 10, 0, 0, 6, 512, 128, 0⟩, ⟨0x3103, 1, 4, 0, 0, 6, 8, 1, 0⟩,
   ⟨0x4000, 0, 1, 0, 0, 9, 1, 1, 0⟩, ⟨0x4000, 1, 1, 0, 0, 9, 1, 1, 0⟩, ⟨0x4000, 2, 2, 0, 0, 9, 2, 1, 0⟩,
   ⟨0x4001, 0, 1, 0, 0, 9, 1, 1, 0⟩, ⟨0x4001, 1, 3, 0, 0, 9, 4, 1, 0⟩, ⟨0x4001, 2, 3, 0, 0, 9, 4, 1, 0⟩,
   ⟨0x4002, 0, 10, 0, 0, 9, 2, 16, 1⟩, ⟨0x4002, 1, 10, 0, 0, 9, 2, 16, 1⟩, ⟨0x4003, 0, 4, 0, 0, 9, 8, 1, 0⟩,
   ⟨0x4100, 0, 10, 1, 1, 9, 1, 1, 1⟩, ⟨0x4100, 1, 10, 1, 1, 9, 4, 1, 1⟩, ⟨0x4100, 2, 10, 0, 0, 9, 1, 1, 1⟩,
   ⟨0x4101, 0, 9, 2, 0, 9, 8, 1, 0⟩]

/-- Objects of the dictionary, part 6. -/
def objs6 : List Obj :=
  [⟨0x4102, 0, 9, 2, 0, 9, 0, 1, 2⟩, ⟨0x4102, 1, 9, 2, 0, 9, 24, 1, 0⟩, ⟨0x4102, 2, 10, 0, 0, 9, 1, 1, 1⟩,
   ⟨0x4102, 3, 10, 0, 0, 9, 8, 1, 1⟩, ⟨0x4102, 4, 9, 2, 0, 9, 8, 1, 0⟩, ⟨0x4102, 5, 4, 0, 0, 9, 8, 1, 0⟩,
   ⟨0x4103, 0, 10, 1, 1, 9, 8, 1, 1⟩, ⟨0x4103, 1, 4, 0, 0, 9, 8, 1, 0⟩, ⟨0x4103, 2, 4, 0, 0, 9, 8, 1, 0⟩,
   ⟨0x4104, 0, 10, 1, 1, 9, 4, 1, 1⟩, ⟨0x4105, 0, 10, 0, 0, 9, 1536, 1, 1⟩, ⟨0x4106, 0, 10, 0, 0, 9, 200, 1, 1⟩,
   ⟨0x4107, 0, 10, 1, 1, 9, 8, 1, 1⟩, ⟨0x4107, 1, 4, 0, 0, 9, 8, 1, 0⟩, ⟨0x4300, 0, 2, 0, 0, 9, 2, 1, 0⟩,
   ⟨0x4300, 1, 10, 1, 1, 9, 8, 1024, 0⟩]

/-- Objects of the dictionary, part 7. -/
def objs7 : List Obj :=
  [⟨0x4300, 2, 2, 2, 0, 9, 2, 1, 0⟩, ⟨0x4310, 0, 4, 0, 0, 9, 8, 1, 0⟩, ⟨0x4311, 0, 4, 0, 0, 9, 8, 1, 0⟩,
   ⟨0x4312, 0, 4, 0, 0, 9, 8, 1, 0⟩, ⟨0x4313, 0, 4, 0, 0, 9, 8, 1, 0⟩, ⟨0x4314, 0, 4, 0, 0, 9, 8, 1, 0⟩,
   ⟨0x4315, 0, 4, 0, 0, 9, 8, 1, 0⟩, ⟨0x4316, 0, 4, 0, 0, 9, 8, 1, 0⟩, ⟨0x4317, 0, 4, 0, 0, 9, 8, 1, 0⟩,
   ⟨0x5000, 0, 9, 2, 0, 7, 0, 1, 2⟩, ⟨0x5001, 0, 3, 0, 0, 7, 4, 1, 0⟩, ⟨0x5001, 1, 10, 0, 0, 7, 16, 0, 2⟩,
   ⟨0x5002, 0, 3, 1, 1, 7, 4, 1, 0⟩, ⟨0x5003, 0, 10, 0, 0, 7, 8744, 0, 2⟩, ⟨0x5010, 0, 4, 0, 0, 7, 8, 1, 0⟩,
   ⟨0x5010, 1, 4, 0, 0, 7, 8, 1, 0⟩]

/-- Objects of the dictionary, part 8. -/
def objs8 : List Obj :=
  [⟨0x5010, 2, 4, 0, 0, 7, 8, 1, 0⟩, ⟨0x5010, 3, 4, 0, 0, 7, 8, 1, 0⟩, ⟨0x5010, 4, 4, 0, 0, 7, 8, 1, 0⟩,
   ⟨0x5010, 5, 4, 0, 0, 7, 8, 1, 0⟩, ⟨0x5020, 0, 4, 0, 0, 7, 8, 1, 0⟩, ⟨0x5020, 1, 4, 0, 0, 7, 8, 1, 0⟩,
   ⟨0x5020, 2, 4, 0, 0, 7, 8, 1, 0⟩, ⟨0x5020, 3, 4, 0, 0, 7, 8, 1, 0⟩, ⟨0x5020, 4, 4, 0, 0, 7, 8, 1, 0⟩,
   ⟨0x5030, 0, 10, 0, 0, 7, 16, 0, 2⟩, ⟨0x5030, 1, 9, 2, 0, 7, 8, 1, 0⟩, ⟨0x5100, 0, 10, 1, 1, 7, 32, 256, 0⟩,
   ⟨0x5101, 0, 10, 1, 1, 7, 8, 65536, 0⟩, ⟨0x5110, 0, 10, 1, 1, 7, 16, 16, 0⟩, ⟨0x5110, 1, 1, 2, 0, 7, 1, 1, 0⟩,
   ⟨0x5112, 0, 10, 1, 1, 7, 16, 16, 0⟩]

/-- Objects of the dictionary, part 9. -/
def objs9 : List Obj :=
  [⟨0x5200, 0, 10, 0, 0, 7, 8, 1, 1⟩, ⟨0x5201, 0, 10, 0, 0, 7, 24, 0, 2⟩, ⟨0x5202, 0, 3, 1, 1, 7, 4, 1, 0⟩,
   ⟨0x5202, 1, 1, 0, 0, 7, 1, 1, 0⟩, ⟨0x5202, 2, 3, 1, 1, 7, 4, 1, 0⟩, ⟨0x5203, 0, 1, 1, 1, 7, 1, 1, 0⟩,
   ⟨0x5210, 0, 4, 0, 0, 7, 8, 1, 0⟩, ⟨0x5210, 1, 4, 0, 0, 7, 8, 1, 0⟩, ⟨0x5210, 2, 4, 0, 0, 7, 8, 1, 0⟩,
   ⟨0x5210, 3, 4, 0, 0, 7, 8, 1, 0⟩, ⟨0x5210, 4, 4, 0, 0, 7, 8, 1, 0⟩, ⟨0x5210, 5, 4, 0, 0, 7, 8, 1, 0⟩,
   ⟨0x5210, 6, 4, 0, 0, 7, 8, 1, 0⟩, ⟨0x6000, 0, 3, 1, 1, 6, 4, 1, 0⟩, ⟨0x6000, 1, 2, 1, 1, 6, 2, 1, 0⟩,
   ⟨0x6001, 0, 10, 1, 1, 6, 1, 128, 0⟩]

/-- Objects of the dictionary, part 10. -/
def objs10 : List Obj :=
  [⟨0x6001, 1, 10, 1, 0, 6, 4, 128, 0⟩, ⟨0x6002, 0, 10, 1, 0, 6, 32, 4096, 0⟩, ⟨0x6003, 0, 10, 1, 0, 6, 8, 262144, 0⟩,
   ⟨0x6003, 1, 4, 0, 0, 6, 8, 1, 0⟩, ⟨0x6004, 0, 10, 1, 1, 6, 16, 256, 0⟩, ⟨0x6005, 0, 10, 1, 1, 6, 1, 16, 0⟩,
   ⟨0x6010, 0, 10, 1, 1, 6, 20, 66, 0⟩, ⟨0x6010, 1, 10, 1, 1, 6, 20, 66, 0⟩, ⟨0x6011, 0, 9, 0, 0, 6, 16, 1, 0⟩,
   ⟨0x6011, 1, 9, 2, 0, 6, 16, 1, 0⟩, ⟨0x6011, 2, 3, 1, 1, 6, 4, 1, 0⟩, ⟨0x6011, 3, 10, 0, 0, 6, 4, 2, 0⟩,
   ⟨0x6011, 4, 4, 0, 0, 6, 8, 1, 0⟩, ⟨0x6012, 0, 10, 0, 0, 6, 2, 66, 0⟩, ⟨0x6012, 1, 4, 0, 0, 6, 8, 1, 0⟩,
   ⟨0x6020, 0, 10, 1, 0, 8, 32, 1024, 0⟩]

/-- Objects of the dictionary, part 11. -/
def objs11 : List Obj :=
  [⟨0x6020, 1, 1, 1, 1, 8, 1, 1, 0⟩, ⟨0x6021, 0, 10, 1, 1, 8, 32, 4096, 0⟩, ⟨0x6022, 0, 3, 1, 1, 8, 4, 1, 0⟩,
   ⟨0x6023, 0, 10, 0, 0, 8, 8, 6, 0⟩, ⟨0x6030, 0, 9, 2, 0, 6, 24, 1, 0⟩, ⟨0x6030, 1, 9, 0, 0, 6, 137, 1, 0⟩,
   ⟨0x6030, 2, 3, 0, 0, 6, 4, 1, 0⟩, ⟨0x6030, 3, 4, 0, 0, 6, 8, 1, 0⟩, ⟨0x7000, 0, 1, 0, 0, 4, 1, 1, 0⟩,
   ⟨0x7000, 1, 4, 0, 0, 4, 8, 1, 0⟩, ⟨0x7000, 2, 4, 0, 0, 4, 8, 1, 0⟩, ⟨0x7000, 3, 10, 0, 0, 4, 16, 4, 0⟩,
   ⟨0x7001, 0, 1, 1, 1, 4, 1, 1, 0⟩, ⟨0x7001, 1, 0, 1, 1, 4, 1, 1, 0⟩, ⟨0x7002, 0, 10, 0, 0, 4, 8, 8, 0⟩,
   ⟨0x7002, 1, 1, 0, 0, 4, 1, 1, 0⟩]

/-- Objects of the dictionary, part 12. -/
def objs12 : List Obj :=
  [⟨0x7003, 0, 10, 0, 0, 4, 64, 8, 0⟩, ⟨0x7004, 0, 1, 1, 1, 4, 1, 1, 0⟩, ⟨0x7004, 1, 9, 0, 0, 4, 16, 1, 0⟩,
   ⟨0x7005, 0, 10, 0, 0, 4, 16, 0, 2⟩, ⟨0x8000, 0, 4, 0, 0, 5, 8, 1, 0⟩, ⟨0x8000, 1, 1, 1, 1, 5, 1, 1, 0⟩,
   ⟨0x8000, 2, 1, 0, 0, 5, 1, 1, 0⟩, ⟨0x8000, 3, 4, 2, 0, 5, 8, 1, 0⟩, ⟨0x8000, 4, 4, 2, 0, 5, 8, 1, 0⟩,
   ⟨0x8000, 5, 0, 2, 0, 5, 1, 1, 0⟩, ⟨0x8001, 0, 3, 1, 1, 5, 4, 1, 0⟩, ⟨0x8001, 1, 3, 1, 1, 5, 4, 1, 0⟩,
   ⟨0x8001, 2, 2, 1, 1, 5, 2, 1, 0⟩, ⟨0x8001, 3, 3, 1, 0, 5, 4, 1, 0⟩, ⟨0x8001, 4, 9, 0, 0, 5, 8, 1, 0⟩,
   ⟨0x8002, 0, 10, 0, 0, 5, 8, 6, 0⟩]

/-- Objects of the dictionary, part 13. -/
def objs13 : List Obj :=
  [⟨0x8100, 0, 10, 1, 0, 5, 32, 256, 0⟩, ⟨0x8100, 1, 1, 2, 0, 5, 1, 1, 0⟩, ⟨0x8100, 2, 2, 0, 0, 5, 2, 1, 0⟩,
   ⟨0x8100, 3, 10, 0, 0, 5, 24, 0, 2⟩, ⟨0x8100, 4, 4, 0, 0, 5, 8, 1, 0⟩, ⟨0x8200, 0, 4, 0, 0, 5, 8, 1, 0⟩,
   ⟨0x8200, 1, 4, 2, 0, 5, 8, 1, 0⟩, ⟨0x8200, 2, 1, 0, 0, 5, 1, 1, 0⟩, ⟨0x8200, 3, 1, 1, 1, 5, 1, 1, 0⟩,
   ⟨0x8400, 0, 9, 2, 0, 5, 16, 1, 0⟩, ⟨0x8400, 1, 1, 0, 0, 5, 1, 1, 0⟩, ⟨0x8400, 2, 0, 0, 0, 5, 1, 1, 0⟩,
   ⟨0x8400, 3, 4, 0, 0, 5, 8, 1, 0⟩, ⟨0x8400, 4, 4, 0, 0, 5, 8, 1, 0⟩, ⟨0x8400, 5, 4, 0, 0, 5, 8, 1, 0⟩,
   ⟨0x8401, 0, 10, 1, 1, 5, 64, 128, 0⟩]

/-- Objects of the dictionary, part 14. -/
def objs14 : List Obj :=
  [⟨0x8401, 1, 3, 1, 1, 5, 4, 1, 0⟩, ⟨0x8401, 2, 3, 1, 1, 5, 4, 1, 0⟩, ⟨0x8401, 3, 3, 1, 1, 5, 4, 1, 0⟩,
   ⟨0x8500, 0, 4, 1, 1, 4, 8, 1, 0⟩, ⟨0x8500, 1, 1, 1, 1, 4, 1, 1, 0⟩, ⟨0x8500, 2, 9, 2, 0, 4, 16, 1, 0⟩,
   ⟨0x8500, 3, 10, 0, 0, 4, 32, 2, 0⟩, ⟨0x8500, 4, 9, 2, 0, 4, 32, 1, 0⟩, ⟨0x8500, 5, 4, 0, 0, 4, 8, 1, 0⟩,
   ⟨0x9000, 0, 3, 0, 0, 255, 4, 1, 0⟩, ⟨0x9010, 0, 10, 0, 0, 255, 20, 512, 0⟩, ⟨0x9010, 1, 3, 1, 1, 255, 4, 1, 0⟩,
   ⟨0x9011, 0, 9, 1, 1, 255, 16, 1, 0⟩, ⟨0x9012, 0, 10, 0, 0, 255, 8, 64, 0⟩, ⟨0x9013, 0, 10, 0, 0, 255, 8, 512, 0⟩,
   ⟨0x9020, 0, 10, 0, 0, 255, 24, 0, 2⟩]

/-- Objects of the dictionary, part 15. -/
def objs15 : List Obj :=
  [⟨0x9021, 0, 10, 0, 0, 255, 8, 6, 0⟩, ⟨0x9100, 0, 10, 0, 0, 255, 40, 1, 1⟩, ⟨0x9110, 0, 9, 0, 0, 255, 131072, 1, 0⟩,
   ⟨0x9110, 1, 9, 0, 0, 255, 131072, 1, 0⟩, ⟨0x9110, 2, 9, 0, 0, 255, 131072, 1, 0⟩, ⟨0x9110, 3, 9, 0, 0, 255, 131072, 1, 0⟩,
   ⟨0x9110, 4, 9, 0, 0, 255, 131072, 1, 0⟩, ⟨0x9110, 5, 9, 0, 0, 255, 131072, 1, 0⟩, ⟨0x9110, 6, 9, 0, 0, 255, 131072, 1, 0⟩,
   ⟨0x9110, 7, 9, 0, 0, 255, 131072, 1, 0⟩, ⟨0x9111, 0, 1, 2, 0, 255, 1, 1, 0⟩, ⟨0x9111, 1, 9, 0, 0, 255, 24, 1, 0⟩,
   ⟨0xA000, 0, 9, 0, 0, 255, 16, 1, 0⟩, ⟨0xA000, 1, 10, 0, 0, 255, 72, 2, 0⟩, ⟨0xA001, 0, 9, 3, 0, 255, 0, 1, 2⟩,
   ⟨0xA001, 1, 9, 3, 0, 255, 8, 1, 0⟩]

/-- Objects of the dictionary, part 16. -/
def objs16 : List Obj :=
  [⟨0xA001, 2, 9, 0, 0, 255, 8, 1, 0⟩, ⟨0xA001, 3, 9, 0, 0, 255, 16, 1, 0⟩, ⟨0xA002, 0, 9, 3, 0, 255, 8, 1, 0⟩,
   ⟨0xA003, 0, 10, 0, 0, 255, 64, 7, 0⟩, ⟨0xA004, 0, 9, 0, 0, 255, 100, 1, 0⟩, ⟨0xA004, 1, 9, 0, 0, 255, 4, 1, 0⟩,
   ⟨0xA005, 0, 9, 0, 0, 255, 16, 1, 0⟩, ⟨0xA006, 0, 9, 0, 0, 255, 0, 1, 2⟩, ⟨0xA006, 1, 9, 0, 0, 255, 8, 1, 0⟩,
   ⟨0xB000, 0, 9, 0, 0, 255, 12, 1, 0⟩, ⟨0xB001, 0, 10, 0, 0, 255, 16, 9, 0⟩, ⟨0xB002, 0, 10, 0, 0, 255, 2, 42, 0⟩,
   ⟨0xB003, 0, 1, 0, 0, 255, 1, 1, 0⟩, ⟨0xB003, 1, 4, 0, 0, 255, 8, 1, 0⟩, ⟨0xB004, 0, 11, 1, 1, 255, 2, 1, 0⟩,
   ⟨0xB005, 0, 10, 0, 0, 255, 8, 2, 0⟩]

/-- Every defined object of the dictionary (R417). -/
def objs : List Obj :=
  objs0 ++ objs1 ++ objs2 ++ objs3 ++ objs4 ++ objs5 ++ objs6 ++ objs7 ++ objs8 ++ objs9 ++ objs10 ++ objs11 ++ objs12 ++ objs13 ++ objs14 ++ objs15 ++ objs16

/-- The object of an index and subindex, none for a reserved object (R388). -/
def findObj (idx sub : Nat) : Option Obj := objs.find? (fun o => o.idx == idx && o.sub == sub)

/-- Records an object holds now, given what a variable table holds (R394). -/
def Obj.count (o : Obj) (p : Part) (now : Nat) : Nat :=
  if o.unit = 0 then o.recs else if o.unit = 1 then o.recs * p.groves else now

/-- Access codes (R390). -/
def accRo : Nat := 0
def accRw : Nat := 1
def accWo : Nat := 2
def accRk : Nat := 3
def accCfg : Nat := 4

/-- Default QCFG record of queue `q` (R300, R313). -/
def qcfgDefault (q : Nat) : Nat :=
  if q < 2 then 0
  else
    let w := if q = 2 || q = 3 then 16 else if q = 4 then 24 else if q = 5 then 16 else if q = 6 || q = 7 then 8 else 4
    pack [(56, 8, w), (24, 24, 8320), (0, 24, 100)]

/-- Inner values of `w` bits laid end to end (R422). -/
def packList (w : Nat) : List Nat → Nat
  | [] => 0
  | x :: xs => x % 2 ^ w + 2 ^ w * packList w xs

/-- The LINK_ROLE default (R350): links 0-7 of each 32 row, 8-15 column, the rest endpoint. -/
def roleDefault (n : Nat) : Nat := if n % 32 < 8 then 2 else if n % 32 < 16 then 3 else 1

/-- The default of a stored record (the Default column of each object table). Everything not listed is 0. -/
def dflt (idx sub rec : Nat) : Nat :=
  match idx, sub with
  | 0x1006, 0 => 1
  | 0x1040, 0 => 1
  | 0x1040, 2 => 8
  | 0x2001, 0 => 1
  | 0x2001, 3 => 0x3727C5AC
  | 0x2002, 0 => packList 16 [16, 16, 16, 16, 16, 16, 16, 896]
  | 0x2003, 0 => 4000
  | 0x2003, 1 => 16
  | 0x2004, 0 => 4000
  | 0x2010, 0 => 7
  | 0x2010, 2 => 512
  | 0x2010, 3 => 1522
  | 0x2011, 0 => if rec = 1 then (2 ^ 256 - 1) + 2 ^ 256 else 0
  | 0x2011, 1 => 1
  | 0x2012, 0 => 300
  | 0x3000, 0 => 2097152
  | 0x3001, 0 => 131072
  | 0x3002, 0 => 0xFF
  | 0x3002, 1 => packList 8 ((List.range 16).map (· % 8))
  | 0x3010, 0 => 100000
  | 0x3100, 0 => packList 8 [0, 2, 3, 4, 5, 6, 7, 8]
  | 0x3100, 1 => packList 8 [8, 9, 10, 11, 12, 13, 14, 15]
  | 0x3101, 0 => packList 64 ((List.range 16).map qcfgDefault)
  | 0x4000, 1 => 16
  | 0x4000, 2 => 4096
  | 0x4103, 0 => 2700000000
  | 0x4300, 0 => 1024
  | 0x4300, 1 => 0x7F * 2 ^ 40 + 16 * 65536
  | 0x5001, 0 => 16384
  | 0x5002, 0 => 30000000
  | 0x5202, 0 => 1000
  | 0x5202, 1 => 16
  | 0x5202, 2 => 20
  | 0x5203, 0 => 16
  | 0x6000, 1 => 0x0101
  | 0x6001, 0 => roleDefault rec
  | 0x6005, 0 => 2
  | 0x6011, 2 => 100
  | 0x6020, 1 => 8
  | 0x6022, 0 => 4000
  | 0x7004, 0 => 24
  | 0x8001, 0 => 4096
  | 0x8001, 1 => 27000
  | 0x8001, 2 => 0xFFFF
  | 0x8401, 0 => packList 8 ((List.range 64).map (· % 16))
  | 0x8401, 1 => 10530
  | 0x8401, 2 => 1080
  | 0x8401, 3 => 2048
  | 0x8500, 1 => 4
  | 0x9010, 1 => 1000
  | 0x9011, 0 => pack [(0, 16, 80), (16, 16, 150), (32, 32, 0x3727C5AC), (64, 16, 15), (80, 16, 50), (96, 16, 0xFC7C)]
  | 0xB004, 0 => 1000
  | _, _ => 0

/-- A stored record (R391). -/
def Dev.rd (d : Dev) (idx sub rec : Nat) : Nat := d.rdD (dflt idx sub rec) idx sub rec

/-- A record stored. -/
def Dev.wr (d : Dev) (idx sub rec v : Nat) : Dev := d.wrD (dflt idx sub rec) idx sub rec v

/-- The position of this device (R316): plane, row, column. -/
def Dev.plane (d : Dev) : Nat := bits (d.rd 0x6000 0 0) 16 3
def Dev.row (d : Dev) : Nat := bits (d.rd 0x6000 0 0) 8 6
def Dev.col (d : Dev) : Nat := bits (d.rd 0x6000 0 0) 0 6

/-- LINK_ROLE (R317): 0 unused, 1 endpoint, 2 row, 3 column. -/
def Dev.linkRole (d : Dev) (n : Nat) : Nat := d.rd 0x6001 0 n

/-- Link `n` is the odd one of a pair that runs mode 3 as one port (R267). -/
def Dev.pairOdd (d : Dev) (n : Nat) : Bool := n % 2 = 1 && d.rd 0x2001 0 (n - 1) = 3

/-- LINK_MODE as it reads: the odd link of a mode 3 pair reads 3 (R267). -/
def Dev.linkMode (d : Dev) (n : Nat) : Nat := if d.pairOdd n then 3 else d.rd 0x2001 0 n

end Sys2Proof.Machine
end

