-- ==== Sys2Proof/Machine/Serve.lean ====
section
/-! DEFINITION. The dictionary engine's front end: which channel a request is on, repeats and stale requests, segments, access
classes, the lock, readiness, and the response (spec/15_dictionary_protocol.md R390, R393-R407). -/

namespace Sys2Proof.Machine

/-- A request as the engine takes it: operation of R394, object, OFFSET, LAST, LENGTH, ARG, and for a WRITE the whole value
of the object (the stored segments of R398 included). -/
structure Call where
  op : Nat
  idx : Nat
  sub : Nat
  off : Nat
  last : Bool
  len : Nat
  arg : Nat
  bytes : List Byte
  deriving DecidableEq, Repr

/-- What R396 compares between a request and the last one: header and data. -/
def Call.image (k : Call) : List Nat :=
  [k.op, k.idx, k.sub, k.off, b2n k.last, k.len, k.arg] ++ k.bytes.map BitVec.toNat

/-- A WRITE of a whole value. -/
def Call.write (idx sub : Nat) (bytes : List Byte) : Call := ⟨2, idx, sub, 0, true, bytes.length, 0, bytes⟩

/-- A READ. -/
def Call.read (idx sub off len : Nat) : Call := ⟨1, idx, sub, off, true, len, 0, []⟩

/-- A response of a status alone. -/
def Rsp.st (status : Nat) (arg : Nat := 0) : Rsp := ⟨status, arg, 0, []⟩

/-- A READ's response: the bytes from `off`, at most `len` and at most what the path carries (R394, R399, R405). -/
def Rsp.bytes (path : Path) (off len : Nat) (value : List Byte) : Rsp :=
  let most := match path with | .slot _ => 8128 | .peer _ => 1024
  ⟨stOK, 0, value.length, (value.drop off).take (min len most)⟩

/-- The header of a request with `data` bytes behind it (R393, R394). -/
def reqHeader (rq : Rq) (k : Call) (off len : Nat) : Nat :=
  pack [(0, 64, k.arg), (96, 16, rq.magic), (112, 16, len), (128, 32, off), (167, 1, b2n k.last), (168, 8, k.sub), (176, 16, k.idx),
    (200, 4, rq.version), (204, 4, rq.kind), (216, 8, k.op), (224, 32, rq.seq)]

/-- KIND of a header. -/
def hdrKind (h : Nat) : Nat := bits h 204 4

/-- The header of a response: KIND 1, STATUS, LENGTH, TOTAL and ARG are set, everything else stands as in the request (R393). -/
def rspHeader (h : Nat) (r : Rsp) : Nat :=
  setBits (setBits (setBits (setBits (setBits (setBits (setBits h 0 64 r.arg) 64 32 r.total) 96 16 0x5644) 112 16 r.data.length)
    200 4 1) 204 4 1) 208 8 r.status

/-- Bytes of the assembly open on a channel that a request continues: a WRITE of the same OCT object (R398). -/
def storedFor (d : Dev) (c : Nat) (k : Call) : List Byte :=
  match (d.chan c).asm with
  | some a => if k.op = 2 && a.idx = k.idx && a.sub = k.sub && k.last then a.data else []
  | none => []

/-- A slot as software hands it over: the header, and the data of this segment (R398, R399). -/
def handSlot (d : Dev) (rq : Rq) (k : Call) (n : Fin 8) : Dev :=
  let stored := (storedFor d n k).length
  let data := k.bytes.drop stored
  d.setSlot n ⟨reqHeader rq k (if stored = 0 then k.off else stored) (if data.isEmpty then k.len else data.length), data⟩

/-- The slot belongs to the device: KIND reads 0 (R399). -/
def slotBusy (d : Dev) : Path → Bool
  | .slot n => hdrKind (d.slot n).hdr = 0
  | .peer _ => false

/-- UDP port of the dictionary (R405). -/
def vdpPort : Nat := 47700

/-- The modified EUI-64 of a MAC address whose first byte is the lowest: FF FE in its middle, bit 1 of the first byte turned over
(R405). -/
def eui64 (mac : Nat) : Nat :=
  pack [(0, 8, Nat.xor (bits mac 0 8) 2), (8, 16, bits mac 8 16), (24, 8, 0xFF), (32, 8, 0xFE), (40, 24, bits mac 24 24)]

/-- The device's IPv6 link-local address, its first byte the lowest: FE80::/64 and the interface identifier (R405). -/
def linkLocal : Nat := pack [(0, 8, 0xFE), (8, 8, 0x80), (64, 64, eui64 Config.fnetMac)]

/-- The path answers (R403, R404). -/
def Dev.pathReady (d : Dev) : Path → Bool
  | .slot _ => d.isReady 0
  | .peer _ => d.isReady 1

/-- A channel's lock state, written as LEVEL of UNLOCK_STATE (R401, R425). -/
def setUnlocked (d : Dev) (c : Nat) (b : Bool) : Dev :=
  emitLevel (d.setChan c { d.chan c with unlocked := b }) 3 0x1F00 1 c (b2n b) (b2n (d.chan c).unlocked)

/-- The entry of a peer heard now: its own, a fresh one while fewer than 16 are held, else that of the peer least recently
heard, which starts with no last request (R405). Entry e is channel 8 + e (R425). -/
def enterPeer (d : Dev) (a : Nat) : Nat × Dev :=
  match d.peers.find? (fun x => x.1 == a) with
  | some (_, e) => (8 + e, { d with peers := (a, e) :: d.peers.filter (fun x => x.1 != a) })
  | none =>
    if d.peers.length < 16 then (8 + d.peers.length, { d with peers := (a, d.peers.length) :: d.peers })
    else
      match d.peers.getLast? with
      | none => (8, d)
      | some (_, e) =>
        (8 + e, { setUnlocked d (8 + e) false with
          peers := (a, e) :: d.peers.dropLast }.setChan (8 + e) Chan.init)

/-- The channel of a request (R396). -/
def enterChan (d : Dev) : Path → Nat × Dev
  | .slot n => (n.val, d)
  | .peer a => enterPeer d a

/-- How R396 takes a request. -/
inductive Verdict where
  | run | resend | differs | stale
  deriving DecidableEq, Repr

/-- R396's case for a request on a channel. -/
def verdict (ch : Chan) (seq : Nat) (image : List Nat) : Verdict :=
  match ch.lastReq with
  | none => .run
  | some (l, im) =>
    let x := (seq + 2 ^ 32 - l) % 2 ^ 32
    if x = 0 then (if im = image then .resend else .differs) else if x < 2 ^ 31 then .run else .stale

/-- A response: written into its slot, with MSI-X vector 0 (R399), or sent from the device's address and port to the peer's (R405). -/
def respond (d : Dev) (rq : Rq) (r : Rsp) : Dev :=
  match rq.path with
  | .slot n => raiseMsix (d.setSlot n ⟨rspHeader (d.slot n).hdr r, r.data⟩) 0
  | .peer a => d.send (.response (linkLocal, vdpPort) a rq.seq r)

/-- The lock re-armed by a write of an rk object (R401). -/
def rearm (d : Dev) (c idx sub : Nat) : Dev :=
  match findObj idx sub with
  | some o => if o.acc = accRk && (d.chan c).unlocked then setUnlocked d c false else d
  | none => d

/-- An open assembly discarded and counted as abandoned (R398); that of an rk object re-arms the lock (R401). -/
def dropAsm (d : Dev) (c : Nat) : Dev :=
  match (d.chan c).asm with
  | none => d
  | some a => rearm ((d.setChan c { d.chan c with asm := none }).inc 0x1030 0 5) c a.idx a.sub

/-- Objects the ROM serves in recovery mode (R446). -/
def recoveryServes (idx : Nat) : Bool :=
  (0x1000 ≤ idx && idx ≤ 0x1006) || idx = 0x1010 || idx = 0x1011 || idx = 0x1F00 || (0xA000 ≤ idx && idx ≤ 0xA006)

/-- A request that continues or opens an assembly: a WRITE of an OCT object (R398). -/
def isOct (idx sub : Nat) : Bool := match findObj idx sub with | some o => o.ty = 9 | none => false

/-- What stops a WRITE before its object sees it: recovery mode, FNET_ACCESS, the access class, readiness (R390, R401, R404,
R407, R446). `c` is the channel. None: the object acts. A reserved object answers OK with no effect (R388). -/
def writeGate (d : Dev) (c : Nat) (path : Path) (k : Call) : Option Nat :=
  if d.boot.recovery && !recoveryServes k.idx then some stNotReady
  else
    let fnet : Bool := match path with | .peer _ => true | .slot _ => false
    let access := d.rd 0x1040 0 0
    if fnet && access = 0 then some stLocked
    else
      match findObj k.idx k.sub with
      | none => some stOK
      | some o =>
        if fnet && access = 1 && (o.acc = accRk || (k.idx = 0x1F00 && k.sub = 0)) then some stLocked
        else if o.acc = accRo then some stBadField
        else if o.acc = accCfg then some stLocked
        else if o.acc = accRk && !(d.chan c).unlocked then some stLocked
        else if o.acc = accWo && o.func != 255 && !d.isReady o.func && !(k.idx = 0x1021 && k.sub = 5) then some stNotReady
        else none

/-- What stops any other request before its object sees it. -/
def readGate (d : Dev) (k : Call) : Option Nat :=
  if d.boot.recovery && !recoveryServes k.idx then some stNotReady
  else
    match findObj k.idx k.sub with
    | none => none
    | some o => if k.op = 1 && (o.acc = accWo || o.acc = accRk) then some stBadField else none

/-- The object's rule applied to a request that passed the gates: the new device, and the response, or none when the device
has reset and nothing of the channel is left. -/
abbrev Act := Nat → Dev → Dev × Option Rsp

/-- More data in one request than its path carries: 8,128 bytes in a slot (R399), 1,024 in a datagram (R405; BAD_FIELD there too,
DESIGN CHOICE, log entry 132). -/
def tooLong (path : Path) (sent : Nat) : Bool :=
  match path with
  | .slot _ => decide (8128 < sent)
  | .peer _ => decide (1024 < sent)

/-- A WRITE on a channel: segments already stored must begin the value (R398), then the gates, the object, and the lock. -/
def runWrite (d : Dev) (c : Nat) (path : Path) (k : Call) (act : Act) : Dev × Option Rsp :=
  let open_ := (d.chan c).asm
  let mine := match open_ with
    | some a => isOct k.idx k.sub && a.idx = k.idx && a.sub = k.sub
    | none => false
  let stored := match open_ with | some a => if mine then a.data else [] | none => []
  let d0 := if mine then d else dropAsm d c
  let sent := k.bytes.length - stored.length
  if mine && k.bytes.take stored.length != stored then (rearm (dropAsm d0 c) c k.idx k.sub, some (Rsp.st stBadField))
  else if tooLong path sent || decide (294912 < k.bytes.length) then (rearm (dropAsm d0 c) c k.idx k.sub, some (Rsp.st stBadField))
  else
    let d1 := d0.setChan c { d0.chan c with asm := none }
    match writeGate d1 c path k with
    | some st => (rearm d1 c k.idx k.sub, some (Rsp.st st))
    | none =>
      match act c d1 with
      | (d2, none) => (d2, none)
      | (d2, some r) => (rearm d2 c k.idx k.sub, some r)

/-- Another channel holds an open FLASH_WRITE assembly (R436). -/
def flashAsmElsewhere (d : Dev) (c : Nat) : Bool :=
  d.chans.any (fun x => x.1 != c && (match x.2.asm with | some a => a.idx = 0xA001 && a.sub = 0 | none => false))

/-- A segment that is not the last one (R398): stored, or the assembly discarded. -/
def runSegment (d : Dev) (c : Nat) (path : Path) (k : Call) : Dev × Option Rsp :=
  let stored : Option (List Byte) := match (d.chan c).asm with
    | some a => if a.idx = k.idx && a.sub = k.sub then some a.data else none
    | none => some []
  match stored with
  | none => (rearm (dropAsm d c) c k.idx k.sub, some (Rsp.st stBadField))
  | some old =>
    match writeGate d c path k with
    | some st => (rearm (dropAsm d c) c k.idx k.sub, some (Rsp.st st))
    | none =>
      if !isOct k.idx k.sub || k.off != old.length || 294912 < old.length + k.bytes.length || tooLong path k.bytes.length then
        (rearm (dropAsm d c) c k.idx k.sub, some (Rsp.st stBadField))
      else if k.idx = 0xA001 && k.sub = 0 && flashAsmElsewhere d c then
        (rearm (dropAsm d c) c k.idx k.sub, some (Rsp.st stNotReady))
      else (d.setChan c { d.chan c with asm := some ⟨k.idx, k.sub, old ++ k.bytes⟩ }, some (Rsp.st stOK))

/-- Any other request on a channel. -/
def runOther (d : Dev) (c : Nat) (k : Call) (act : Act) : Dev × Option Rsp :=
  let d := dropAsm d c
  match readGate d k with
  | some st => (d, some (Rsp.st st))
  | none => act c d

/-- A request executed: the channel keeps it with its response (R396). -/
def finish (c : Nat) (rq : Rq) (image : List Nat) : Dev × Option Rsp → Dev
  | (d, none) => d
  | (d, some r) => respond (d.setChan c { d.chan c with lastReq := some (rq.seq, image), rsp := r }) rq r

/-- A request with a good header on its channel (R396). -/
def serveOn (d : Dev) (c : Nat) (rq : Rq) (k : Call) (act : Act) : Dev :=
  match verdict (d.chan c) rq.seq k.image with
  | .resend => respond (d.inc 0x1030 0 2) rq (d.chan c).rsp
  | .differs => respond d rq (Rsp.st stBadField)
  | .stale =>
    match rq.path with
    | .peer _ => d.inc 0x1030 0 3
    | .slot _ => respond d rq (Rsp.st stBadField)
  | .run =>
    finish c rq k.image (if k.op != 2 then runOther d c k act
      else if k.last then runWrite d c rq.path k act else runSegment d c rq.path k)

/-- A request taken: it stands in its slot, and is counted on its path (DICT_STATS, R399, R414). -/
def takeReq (d : Dev) (rq : Rq) (k : Call) : Dev :=
  match rq.path with
  | .slot n => (handSlot d rq k n).inc 0x1030 0 0
  | .peer _ => d.inc 0x1030 0 1

/-- A request as it reaches the device (R399, R404, R405): `.ok` with the device that has taken it, or `.error` with what became of it
otherwise. A path that is not ready takes nothing. A write to a slot that the device holds is ignored and counted; a header with a
KIND other than 0 hands nothing over; a wrong MAGIC or VERSION is answered; a malformed datagram is counted. -/
def receive (d : Dev) (rq : Rq) (k : Call) : Except Dev Dev :=
  if !d.pathReady rq.path then .error d
  else if slotBusy d rq.path then .error (d.inc 0x1030 0 6)
  else if rq.good then
    match rq.path with
    | .slot n => if rq.kind = 0 then .ok (takeReq d rq k) else .error (handSlot d rq k n)
    | .peer _ => .ok (takeReq d rq k)
  else
    match rq.path with
    | .slot n => .error (if rq.kind = 0 then respond (takeReq d rq k) rq (Rsp.st stBadField) else handSlot d rq k n)
    | .peer _ => .error (d.inc 0x1030 0 4)

/-- A request that has been taken, on its channel (R396). -/
def serveTaken (d : Dev) (rq : Rq) (k : Call) (act : Act) : Dev :=
  serveOn (enterChan d rq.path).2 (enterChan d rq.path).1 rq k act

/-- A dictionary request (R396, R399, R404, R405). -/
def serve (d : Dev) (rq : Rq) (k : Call) (act : Act) : Dev :=
  match receive d rq k with
  | .error d1 => d1
  | .ok d1 => serveTaken d1 rq k act

/-- An object's rule that gives a device and a status. -/
def ruleAct (rule : Dev → Dev × Nat) : Act := fun _ d => ((rule d).1, some (Rsp.st (rule d).2))

/-- A write whose object's rule gives a device and a status. -/
def serveWrite (d : Dev) (rq : Rq) (idx sub : Nat) (bytes : List Byte) (rule : Dev → Dev × Nat) : Dev :=
  serve d rq (Call.write idx sub bytes) (ruleAct rule)

/-- The same for a request that may have to wait until a mode is entered (R223): once taken, a new one waits in its slot if `wait`
holds, and `held` is what is kept of it. -/
def serveOrHold (d : Dev) (rq : Rq) (k : Call) (act : Act) (wait : Bool) (held : Dev → Dev) : Dev :=
  match receive d rq k with
  | .error d1 => d1
  | .ok d1 =>
    let x := enterChan d1 rq.path
    if wait && verdict (x.2.chan x.1) rq.seq k.image = .run then held x.2 else serveTaken d1 rq k act

/-- A rule that refuses: nothing changes. -/
def refuse (d : Dev) (st : Nat) : Dev × Nat := (d, st)

/-- A rule that accepts. -/
def accept (d : Dev) : Dev × Nat := (d, stOK)

end Sys2Proof.Machine
end

