-- ==== Sys2Proof/Machine/Write.lean ====
section
/-! DEFINITION. Writes of the objects that software sets and that have no command of their own: the check of each record, the
states in which a change is accepted, and what the change brings about (spec/15_dictionary_protocol.md R389, R397, and the
object tables of the chapters). The owner configuration image is applied through the same checks (R443). -/

namespace Sys2Proof.Machine

/-- A link is present (R1, R10). -/
def Part.hasLink (p : Part) (n : Nat) : Bool := decide (n < p.links)

/-- Objects whose records are numbered by link. -/
def linkScope (idx sub : Nat) : Bool :=
  match idx, sub with
  | 0x2001, 0 => true | 0x2002, 0 => true | 0x2010, 1 => true | 0x2011, 1 => true | 0x2020, 0 => true
  | 0x3002, 1 => true | 0x3100, 0 => true | 0x3100, 1 => true | 0x3101, 0 => true | 0x3101, 1 => true
  | 0x3101, 2 => true | 0x6001, 0 => true | 0x6001, 1 => true | 0x8401, 0 => true
  | _, _ => false

/-- Inner value `k` of `w` bits. -/
def inner (v w k : Nat) : Nat := bits v (w * k) w

/-- All inner values satisfy a test. -/
def allInner (v w n : Nat) (p : Nat → Bool) : Bool := (List.range n).all (fun k => p (inner v w k))

/-- The cells one link commits of BUF_HEADROOM (R282). -/
def linkCommit (d : Dev) (n : Nat) : Nat :=
  let m := d.linkMode n
  if m = 1 && (d.link n).st != .disabled then ((List.range 8).map (inner (d.rd 0x2002 0 n) 16)).sum
  else if m = 2 || (m = 3 && n % 2 = 0) then
    ((List.range 8).filter (fun k => (d.rd 0x2010 1 n).testBit k)).length * d.rd 0x2010 2 0
  else 0

/-- The commitment of R282. -/
def commitment (p : Part) (d : Dev) : Nat := ((List.range p.links).map (linkCommit d)).sum

/-- CREDIT_OVERCOMMIT brought to what the commitment says (R282, R425). The level is kept at 0x2002.1. -/
def settleCommit (p : Part) (d : Dev) : Dev :=
  let new := b2n (decide (d.rd 0x3001 0 0 < commitment p d))
  emitLevel (d.wr 0x2002 1 0 new) 3 0x2002 1 0xFFFFFFFF new (d.rd 0x2002 1 0)

/-- Slots of grove `g` that operations hold (R253). -/
def slotsHeld (d : Dev) (g : Nat) : List Nat :=
  (d.colls.ops.filter (fun o => o.grove == some g)).flatMap (fun o => o.slots)

/-- Bytes of a pooling row image (R39, R199). -/
def fmtBits (fmt : Nat) : Nat :=
  if fmt = 0 then 64 else if fmt = 1 then 32 else if fmt = 2 || fmt = 3 then 16 else if fmt = 4 || fmt = 5 then 8
  else if fmt = 6 || fmt = 7 then 6 else if fmt = 8 then 4 else if fmt = 9 || fmt = 0xA then 32
  else if fmt = 0xB then 64 else 64

/-- A POOL_TABLE record's rule (R199). -/
def poolRecOk (v : Nat) : Bool :=
  if !v.testBit 0 then true
  else
    let rows := bits v 224 32
    let dd := bits v 208 16
    let fmt := bits v 204 4
    let scale := bits v 202 2
    let kv := v.testBit 201
    let img := if scale = 1 then dd / 32 * (4 * fmtBits fmt) + dd / 32 else dd * fmtBits fmt / 8
    decide (rows ≤ bits v 144 16 * bits v 160 32) && decide (img ≤ bits v 112 16 * 64)
      && (scale != 1 || dd % 32 = 0) && (!kv || img % 4096 = 0) && decide (bits v 128 16 + bits v 144 16 ≤ 65536)
      && decide (scale < 2) && decide (1 ≤ dd) && (kv || decide (dd ≤ 16384)) && decide (1 ≤ bits v 144 16)
      && (scale != 1 || decide (4 ≤ fmt ∧ fmt ≤ 8))

/-- A row or column inside FABRIC_DIM (R316). -/
def rowInside (d : Dev) (r : Nat) : Bool := decide (r < bits (d.rd 0x6000 1 0) 8 6)
def colInside (d : Dev) (c : Nat) : Bool := decide (c < bits (d.rd 0x6000 1 0) 0 6)

/-- The links of a 128-bit mask. -/
def maskLinks (m : Nat) : List Nat := (List.range 128).filter (fun n => m.testBit n)

/-- A record as it reads: the records of absent links read as zero (R10, R315). -/
def recRead (p : Part) (d : Dev) (idx sub rec : Nat) : Nat :=
  if linkScope idx sub && !p.hasLink rec then 0 else d.rd idx sub rec

/-- A ROUTE_TAB record's rule (R329). -/
def routeRecOk (p : Part) (d : Dev) (rec v : Nat) : Bool :=
  let isRow : Bool := decide (rec < 33)
  let det := bits v 128 8
  (maskLinks (bits v 0 128)).all (fun n => recRead p d 0x6001 0 n == (if isRow then 2 else 3))
    && (det = 0xFF
      || (if isRow then det != d.col && colInside d det else det != d.row && rowInside d det))

/-- This device's home field (R125, R334). -/
def ownHome (d : Dev) : Nat := pack [(0, 6, d.col), (6, 6, d.row), (12, 3, d.plane)]

/-- Whether an object takes a value, leaving aside the states in which it takes it. -/
def fieldRule (p : Part) (d : Dev) (idx sub rec v : Nat) : Bool :=
  let rng := fun lo hi => decide (lo ≤ v) && decide (v ≤ hi)
  match idx, sub with
  | 0x1021, 4 => rng 0 1
  | 0x1040, 0 => rng 0 2
  | 0x1040, 2 => rng 2 32
  | 0x2001, 0 => rng 0 3 && !(v = 3 && rec % 2 = 1) && p.hasLink rec
  | 0x2001, 3 => rng 0x322BCC77 0x397BA882
  | 0x2002, 0 => decide (commitment p (d.wr 0x2002 0 rec v) ≤ d.rd 0x3001 0 0)
  | 0x2003, 0 => rng 1000 100000
  | 0x2003, 1 => rng 1 255
  | 0x2004, 0 => rng 500 1000000
  | 0x2010, 0 => rng 3 7 && !(v = 7 && (List.range p.links).any (fun n => (d.rd 0x2010 1 n).testBit rec))
  | 0x2010, 1 => (List.range 8).all (fun k => !(v.testBit k && d.rd 0x2010 0 k = 7))
  | 0x2010, 2 => rng 64 4096
  | 0x2010, 3 => rng 64 4096
  | 0x2011, 0 => rec != 0 && rec != 4095
  | 0x2012, 0 => rng 10 1000000
  | 0x2020, 0 => v = 0 || rng 16 16777216
  | 0x3001, 0 => rng 0 524288
  | 0x3002, 0 => decide (v ≤ 3) || rng 0xFA 0xFF
  | 0x3002, 1 => allInner v 8 16 (fun x => decide (x ≤ 7))
  | 0x3010, 0 => rng 10000 10000000
  | 0x3100, 0 => inner v 8 0 = 0 && allInner v 8 8 (fun x => decide (x ≤ 15))
  | 0x3100, 1 => allInner v 8 8 (fun x => decide (1 ≤ x ∧ x ≤ 15))
  | 0x3101, 0 => (List.range 16).all (fun q =>
      let r := inner v 64 q
      if q < 2 then bits r 0 48 = 0 && bits r 55 9 = 0
      else bits r 48 7 = 0 && decide (bits r 24 24 ≤ 1048576) && bits r 56 8 != 0)
  | 0x3101, 1 => (List.range 16).all (fun q =>
      let r := inner v 64 q
      bits r 0 20 = 0 && !(bits r 40 24 != 0 && decide (bits r 20 20 < 64)))
  | 0x3101, 2 => rng 0 63
  | 0x4100, 0 => rng 0 1
  | 0x4103, 0 => bits v 0 63 != 0
  | 0x4104, 0 =>
    let n := bits v 0 4
    n = 0 || (decide (4 ≤ n ∧ n ≤ 12) && decide (bits v 17 15 * 256 + 64 + 2 ^ n * 32 ≤ 0x600000))
  | 0x4107, 0 => !v.testBit 63 || (decide (10 ≤ bits v 56 7 ∧ bits v 56 7 ≤ 24) && bits v 0 12 = 0)
  | 0x4300, 1 => decide (1 ≤ bits v 16 11 ∧ bits v 16 11 ≤ 1024) && decide (bits v 32 4 ≤ 8) && bits v 40 8 != 0xFF
  | 0x5002, 0 => rng 1000 600000000
  | 0x5100, 0 => poolRecOk v
  | 0x5101, 0 => v % 64 = 0
  | 0x5110, 0 =>
    bits v 88 12 = 0 && decide (4 ≤ bits v 83 5 ∧ bits v 83 5 ≤ 24) && bits v 71 8 != 0
      && !((d.rd 0x5110 0 rec).testBit 32 && v - bits v 32 1 * 2 ^ 32 != d.rd 0x5110 0 rec - 2 ^ 32)
  | 0x5202, 0 => rng 10 1000000
  | 0x5202, 2 => rng 1 10000
  | 0x5203, 0 => rng 1 64
  | 0x6000, 0 => rowInside d (bits v 8 6) && colInside d (bits v 0 6)
  | 0x6000, 1 =>
    let r := bits v 8 6
    let c := bits v 0 6
    decide (1 ≤ r ∧ r ≤ 33 ∧ 1 ≤ c ∧ c ≤ 33) && decide (d.row < r) && decide (d.col < c)
  | 0x6001, 0 => rng 0 3
  | 0x6003, 0 => rowInside d (bits v 53 6) && colInside d (bits v 47 6) && bits v 0 35 = 0
  | 0x6004, 0 => (maskLinks v).all (fun n => p.hasLink n && d.linkRole n == 1)
  | 0x6010, 0 => routeRecOk p d rec v
  | 0x6010, 1 => routeRecOk p d rec v
  | 0x6011, 2 => rng 10 100000
  | 0x6020, 1 => rng 0 64
  | 0x6021, 0 => bits v 64 64 % 4096 = 0
  | 0x6022, 0 => rng 100 60000
  | 0x7001, 0 => rng 0 1
  | 0x7004, 0 => rng 1 168
  | 0x8000, 1 => rng 0 3 && !(v = 3 && d.rd 0x8001 2 0 != ownHome d)
  | 0x8001, 0 => rng 2048 65535
  | 0x8001, 1 => rng 8192 (2 ^ 31)
  | 0x8401, 0 => allInner v 8 64 (fun x => decide (x ≤ 15) || x = 0xFF)
  | 0x8401, 1 => rng 2700 10530 && decide (2 * d.rd 0x8401 2 0 ≤ v)
  | 0x8401, 2 => rng 1026 10530 && decide (2 * v ≤ d.rd 0x8401 1 0)
  | 0x8401, 3 => rng 1536 65535
  | 0x8500, 0 => v % 2 ^ 30 = 0
  | 0x8500, 1 => rng 1 64
  | 0x9010, 1 => rng 100 60000
  | 0xB004, 0 => rng 850 1020
  | _, _ => true

/-- Every row and column link is DISABLED (R316). -/
def meshDisabled (p : Part) (d : Dev) : Bool :=
  (List.range p.links).all (fun n => !(d.linkRole n = 2 || d.linkRole n = 3) || (d.link n).st == .disabled)

/-- The status of a change in the present state (R104, R267, R302, R316, R317, R329, R414's CMPL_RING row). -/
def stateRule (p : Part) (d : Dev) (idx sub rec v : Nat) : Nat :=
  let need := fun (b : Bool) => if b then stOK else stNotReady
  match idx, sub with
  | 0x4100, 0 => need ((d.grove rec).phase == .idle && (slotsHeld d rec).isEmpty)
  | 0x4100, 1 => need ((d.grove rec).phase == .idle && (slotsHeld d rec).isEmpty)
  | 0x4104, 0 => need ((d.grove rec).phase == .idle)
  | 0x2001, 0 => need ((d.link rec).st == .disabled && (v != 3 || (d.link (rec + 1)).st == .disabled))
  | 0x3100, 0 => need ((d.link rec).st == .disabled || (d.link rec).st == .failed)
  | 0x3100, 1 => need ((d.link rec).st == .disabled || (d.link rec).st == .failed)
  | 0x6000, 0 => need (meshDisabled p d)
  | 0x6000, 1 => need (meshDisabled p d)
  | 0x6001, 0 => need ((d.link rec).st == .disabled)
  | 0x6010, 0 => need (d.sw.stA = 0 && !d.sw.swapArmed)
  | 0x6010, 1 => need (d.sw.stB = 0 && !d.sw.swapArmed)
  | _, _ => stOK

/-- What of a written value an object keeps: reserved fields ignore writes (R10), and fields that only the device writes
keep theirs (R48, R208). -/
def kept (d : Dev) (idx sub rec v : Nat) : Nat :=
  match idx, sub with
  | 0x4104, 0 => pack [(0, 4, bits v 0 4), (17, 15, bits v 17 15)]
  | 0x4107, 0 => pack [(0, 40, bits v 0 40), (56, 7, bits v 56 7), (63, 1, bits v 63 1)]
  | 0x4300, 1 => pack [(16, 11, bits v 16 11), (29, 1, bits v 29 1), (32, 4, bits v 32 4), (40, 8, bits v 40 8)]
  | 0x5100, 0 => pack [(0, 1, bits v 0 1), (112, 80, bits v 112 80), (201, 55, bits v 201 55)]
  | 0x5110, 0 => pack [(0, 32, bits v 0 32), (32, 1, bits (d.rd 0x5110 0 rec) 32 1), (71, 57, bits v 71 57)]
  -- of queues 0 and 1 only the reserved bits can be other than 0 (R10, R313)
  | 0x3101, 0 => bits v 128 896 * 2 ^ 128
  | 0x2011, 0 => bits v 0 258
  | 0x6000, 0 => pack [(0, 6, bits v 0 6), (8, 6, bits v 8 6), (16, 3, bits v 16 3)]
  | 0x6000, 1 => pack [(0, 6, bits v 0 6), (8, 6, bits v 8 6)]
  | 0x6005, 0 => bits v 0 2
  | 0x6010, 0 => bits v 0 136
  | 0x6010, 1 => bits v 0 136
  | 0x6021, 0 => pack [(0, 32, bits v 0 32), (64, 64, bits v 64 64)]
  | 0x9011, 0 => bits v 0 112
  | _, _ => v

/-- The status of one record's write (R397): the value first, then the state unless the value is the one already held. -/
def recordStatus (p : Part) (d : Dev) (idx sub rec v : Nat) : Nat :=
  if linkScope idx sub && !p.hasLink rec && !(idx = 0x2001) then stOK
  else if !fieldRule p d idx sub rec v then stBadField
  else if kept d idx sub rec v = d.rd idx sub rec then stOK
  else stateRule p d idx sub rec v

/-- MEMORY, a DEVICE-role grove that is ready: COLLECTIVES (R403). -/
def settleCollectives (p : Part) (d : Dev) : Dev :=
  setReady d 7 (d.works 4 && (List.range p.groves).any (fun g => d.boot.readyGroves.testBit g && d.role g == 0))

/-- A scaling context (R44, R48). -/
def Dev.ctx (d : Dev) (n : Nat) : ScaleCtx := d.scale.get ScaleCtx.init n

/-- A scaling context changed. -/
def Dev.setCtx (d : Dev) (n : Nat) (c : ScaleCtx) : Dev := { d with scale := d.scale.set ScaleCtx.init n c }

/-- A scaling context named by a job (R230). -/
def noteNamed (d : Dev) (job n : Nat) : Dev :=
  if d.modes.named.contains (job, n) then d else { d with modes := { d.modes with named := d.modes.named ++ [(job, n)] } }

/-- A SCALE_CTX_TAB record taken: the newest entries that fit are kept (R49). -/
def takeScaleRec (d : Dev) (n v : Nat) : Dev :=
  (d.wr 0x4300 1 n v).setCtx n { d.ctx n with hist := (d.ctx n).hist.take (bits v 16 11), heldRec := none }

/-- The firmware's words stand in both banks of a DEVICE-role grove (R103, R457). -/
def loadFirmware (d : Dev) (g : Nat) : Dev :=
  let words := Config.firmwareBank
  d.setGrove g { d.grove g with
    imem := (List.range 2).flatMap (fun b => ((words b).zipIdx.take 32768).filterMap
      (fun x => if x.1 = 0 then none else some (b * 32768 + x.2, x.1))), imemPoison := [] }

/-- V and every tag of a link are 0 (R306). -/
def clearTags (d : Dev) (n : Nat) : Dev :=
  let d1 := { d with sw := { d.sw with scheds := d.sw.scheds.set Sched.init n { d.sw.scheds.get Sched.init n with v := 0 } } }
  (List.range 16).foldl (fun d q => d.setEq n q { d.eq n q with s := 0 }) d1

/-- A link whose mode differs from what it was in `old`, and is 1, 2 or 3 now, has entered it: the odd link of a pair follows the
even one (R267, R306). -/
def enterMode (old d : Dev) (n : Nat) : Dev := if d.linkMode n = 0 || d.linkMode n = old.linkMode n then d else clearTags d n

/-- One record stored and what follows from it. -/
def applyRec (p : Part) (d : Dev) (idx sub rec v : Nat) : Dev :=
  if linkScope idx sub && !p.hasLink rec then d
  else
    let v := kept d idx sub rec v
    let d' := d.wr idx sub rec v
    match idx, sub with
    | 0x4300, 1 => if (d.ctx rec).busy then d.setCtx rec { d.ctx rec with heldRec := some v } else takeScaleRec d rec v
    | 0x4100, 0 =>
      if v = d.role rec then d
      else
        settleCollectives p (if v = 0 then loadFirmware d' rec else d')
    | 0x2001, 0 => settleCommit p ([rec, rec + 1].foldl (enterMode d) d')
    | 0x2002, 0 => settleCommit p d'
    | 0x3101, 1 => (List.range 16).foldl (fun d q => d.setEq rec q { d.eq rec q with debt := 0, debtAt := d.tick }) d'
    | 0x2010, 1 => settleCommit p d'
    | 0x2010, 2 => settleCommit p d'
    | 0x3001, 0 => settleCommit p d'
    | _, _ => d'

/-- Records written one after another: the device, or the first refused record with its status (R397). -/
def writeRecs (p : Part) (idx sub : Nat) : Dev → Nat → List Nat → Except (Nat × Nat) Dev
  | d, _, [] => .ok d
  | d, rec, v :: vs =>
    let st := recordStatus p d idx sub rec v
    if st != stOK then .error (st, rec) else writeRecs p idx sub (applyRec p d idx sub rec v) (rec + 1) vs

/-- A scalar passes the rule of its type (R389): BOOL 0 or 1, F32 not a NaN. -/
def scalarOk (ty v : Nat) : Bool :=
  if ty = 0 then decide (v ≤ 1)
  else if ty = 7 then !(bits v 23 8 = 255 && bits v 0 23 != 0)
  else true

end Sys2Proof.Machine
end

