-- ==== Sys2Proof/Machine/StackOps.lean ====
section
/-! DEFINITION. Device memory behind its controllers: where an offset lies, poison, and what the stack interface reports
(spec/13_memory_stacks.md R351-R357, R363, R364). -/

namespace Sys2Proof.Machine

/-- MEM_CAPACITY and MEM_SIZE (R353). -/
def memCapacity (p : Part) (d : Dev) : Nat := p.stacks * 96 * 2 ^ 30 / (if d.mem.mirror then 2 else 1)
def memSize (p : Part) (d : Dev) : Nat := memCapacity p d - (1 + 8 + d.mem.spillGib + d.mem.shadowGib) * 2 ^ 30

/-- Device memory written; a whole 8-byte word written clears its poison (R356). -/
def memWrite (d : Dev) (off : Nat) (bs : List Byte) : Dev :=
  let whole := fun w => decide (off ≤ w * 8) && decide (w * 8 + 8 ≤ off + bs.length)
  { d with mem := { d.mem with mem := d.mem.mem.writeN 0#8 off bs, poison := d.mem.poison.filter (fun w => !whole w),
                               copyPoison := d.mem.copyPoison.filter (fun x => !whole x.2) } }

/-- Device memory written by anything but an exact-add: each shadowed word it touches has its new value as its only term (R343
rule 3). -/
def storeDev (d : Dev) (off : Nat) (bs : List Byte) : Dev :=
  let d' := memWrite d off bs
  { d' with mem := { d'.mem with shadows := d'.mem.shadows.filter (fun s =>
      !(decide (s.addr < off + bs.length) && decide (off < s.addr + s.w))) } }

/-- Fixed-cycle mode is in force (R222, R226: states 2 and 3). -/
def Dev.inFcm (d : Dev) : Bool := d.modes.fcm = 2 || d.modes.fcm = 3

/-- Requests that arrive while entry into fixed-cycle mode is armed wait for the boundary (R223). -/
def holdForFcm (d : Dev) (i : Instr) : Dev := { d with modes := { d.modes with held := d.modes.held ++ [i] } }

/-- A break in fixed-cycle mode (R225): cause 1 link retry, 2 chunk resend, 3 late frame, 4 refresh outside its window; the
unit kind is 1 for a link and 3 for a stack. -/
def fcmBreak (d : Dev) (cause ukind unit : Nat) : Dev :=
  if !d.inFcm then d
  else
    let d1 := emitLevel { d with modes := { d.modes with fcmExact := false } } 3 0x8400 2 0xFFFFFFFF 0 (b2n d.modes.fcmExact)
    emit (d1.inc 0x8400 4 0) 0x8003 stOK 5 false 0x8400 4 (dataUN ukind unit 0 cause 0 0 0)

/-- Unit, first stack and channel of a device memory offset (R354): the 4 KiB unit over S, the stack or the pair's even
stack, the channel. -/
def stackPlace (p : Part) (d : Dev) (a : Nat) : Nat × Nat × Nat :=
  let s := if d.mem.mirror then p.stacks / 2 else p.stacks
  let u := a / 4096
  let k := if d.mem.interleave = 0 then u % s else a / (96 * 2 ^ 30)
  let v := if d.mem.interleave = 0 then u / s else (a % (96 * 2 ^ 30)) / 4096
  (u / s, if d.mem.mirror then 2 * k else k, v % 12)

/-- The stack that a read of an offset goes to, and its channel: of a mirrored pair the one that R363 names, or the partner that
serves the pair when that one has FAILED (R364). -/
def readStack (p : Part) (d : Dev) (a : Nat) : Nat × Nat :=
  let x := stackPlace p d a
  let k := x.2.1 + x.1 % 2
  (if !d.mem.mirror then x.2.1 else if d.mem.st.get 0 k = 4 then x.2.1 + (x.1 + 1) % 2 else k, x.2.2)

/-- The channel offset of a device memory offset (R354). -/
def channelOffset (p : Part) (d : Dev) (a : Nat) : Nat :=
  let s := if d.mem.mirror then p.stacks / 2 else p.stacks
  (if d.mem.interleave = 0 then a / 4096 / (12 * s) else (a % (96 * 2 ^ 30)) / 4096 / 12) * 4096 + a % 4096

/-- A stack has FAILED (R364, R366). -/
def stackFailed (d : Dev) (k : Nat) : Bool := d.mem.st.get 0 k = 4

/-- The stacks that hold a copy of an offset and work (R363, R364). -/
def copyStacks (p : Part) (d : Dev) (a : Nat) : List Nat :=
  let k := (stackPlace p d a).2.1
  (if d.mem.mirror then [k, k + 1] else [k]).filter (fun k => !stackFailed d k)

/-- No copy of an offset stands on a working stack (R364). -/
def stackDead (p : Part) (d : Dev) (a : Nat) : Bool :=
  let k := (stackPlace p d a).2.1
  if d.mem.mirror then d.mem.st.get 0 k = 4 && d.mem.st.get 0 (k + 1) = 4 else d.mem.st.get 0 k = 4

/-- The 8-byte words of a range. -/
def wordsOf (off n : Nat) : List Nat := if n = 0 then [] else (List.range ((off + n - 1) / 8 - off / 8 + 1)).map (· + off / 8)

/-- A word reads as poisoned (R356, R364): in every copy, on a FAILED stack, or in the one copy that is left of a pair. -/
def wordPoisoned (p : Part) (d : Dev) (w : Nat) : Bool :=
  d.mem.poison.contains w || stackDead p d (w * 8)
    || d.mem.copyPoison.any (fun x => x.2 = w && copyStacks p d (w * 8) == [x.1])

/-- A read of a range meets poison. -/
def readPoison (p : Part) (d : Dev) (off n : Nat) : Bool := (wordsOf off n).any (wordPoisoned p d)

/-- Where a range first meets poison: the offset of the word, of which the line is poisoned (R356, R427). -/
def poisonSpot (p : Part) (d : Dev) (off n : Nat) : Nat :=
  match (wordsOf off n).find? (wordPoisoned p d) with | some w => 8 * w | none => off

/-- A write of a range covers part of a poisoned word (R356). -/
def writePoison (p : Part) (d : Dev) (off n : Nat) : Bool :=
  (wordsOf off n).any (fun w => !(decide (off ≤ w * 8) && decide (w * 8 + 8 ≤ off + n)) && wordPoisoned p d w)

/-- One of the eight counters of MEM_STATS advanced (R366). -/
def memStat (d : Dev) (stack k : Nat) (n : Nat := 1) : Dev :=
  if n = 0 then d
  else { d with mem := { d.mem with stats := d.mem.stats.set 0 (stack * 8 + k) ((d.mem.stats.get 0 (stack * 8 + k) + n) % 2 ^ 64) } }

/-- One of the counters advanced for several stacks. -/
def memStats (d : Dev) (ks : List Nat) (k : Nat) (n : Nat := 1) : Dev := ks.foldl (fun d s => memStat d s k n) d

/-- MEM_POISON (R427): 1 uncorrectable read, 2 failed write, 3 access met a poisoned word; `who` the requester's Canopy
address or 0. -/
def poisonEvent (p : Part) (d : Dev) (off cause who : Nat) : Dev :=
  let x := readStack p d off
  emit d 0x7001 stCheckFail 5 false 0x7005 0 (dataUN 3 x.1 x.2 cause (off / 64 * 64) who 0)

/-- A poisoning in MEM_POISON_LOG (R356, R366). -/
def logPoison (d : Dev) (off : Nat) : Dev :=
  { d with mem := { d.mem with poisonLog := ((off / 64 * 64, d.pace.visible) :: d.mem.poisonLog).take 256 } }

/-- Words of the line at `off` poisoned in every copy on the stacks `ks`: zero data, the log, the count and the event
(R355-R357). -/
def poisonWords (p : Part) (d : Dev) (ks : List Nat) (off : Nat) (ws : List Nat) (cause : Nat) : Dev :=
  let fresh := ws.filter (fun w => !d.mem.poison.contains w)
  let m := ws.foldl (fun m w => m.writeN 0#8 (w * 8) (List.replicate 8 0)) d.mem.mem
  let d1 := logPoison { d with mem := { d.mem with mem := m, poison := fresh ++ d.mem.poison,
                                                   copyPoison := d.mem.copyPoison.filter (fun x => !ws.contains x.2) } } off
  poisonEvent p (memStats d1 ks 4 ws.length) off cause 0

/-- The eight words of the line at `off`. -/
def lineWords (off : Nat) : List Nat := (List.range 8).map (fun w => off / 64 * 8 + w)

/-- The line at `off` whose write failed on the stacks `ks`: poisoned there (R357). Where the partner's copy was written, the pair
keeps it, and the failed copy is uncorrectable as R363 has it (DESIGN CHOICE, log entry 119). -/
def failCopies (p : Part) (d : Dev) (off : Nat) (ks : List Nat) : Dev :=
  if ks.isEmpty then d
  else if (copyStacks p d off).all ks.contains then poisonWords p d ks off (lineWords off) 2
  else
    let new := ks.flatMap (fun k => (lineWords off).map (fun w => (k, w)))
    let d1 := logPoison { d with mem := { d.mem with copyPoison := new ++ d.mem.copyPoison.filter (fun x => !new.contains x) } } off
    ks.foldl (fun d k => emit d 0x7001 stCheckFail 5 false 0x7005 0 (dataUN 3 k (stackPlace p d off).2.2 2 (off / 64 * 64) 0 0))
      (memStats d1 ks 4 8)

/-- The stacks at which a write of `off` was disturbed: of a mirrored pair those that `copies` names. -/
def writeStacks (p : Part) (d : Dev) (off copies : Nat) : List Nat :=
  (copyStacks p d off).filter (fun k => !d.mem.mirror || copies.testBit (k % 2))

/-- What the interface reports for an access that starts at `off` (R355, R357, R363), and whether the requester sees a word
as poisoned though the line is not (fixed-cycle mode's single read). -/
def applyFx (p : Part) (d : Dev) (off : Nat) (fx : StackFx) : Dev × Bool :=
  let at_ := fun line => off / 64 * 64 + line * 64
  let k := fun line => (readStack p d (at_ line)).1
  match fx with
  | .clean => (d, false)
  | .corrected line words => (memStat d (k line) 0 words, false)
  | .reread line crcs words =>
    if d.inFcm then (memStat d (k line) 7 (min crcs 1), true)
    else (memStat (memStat (memStat d (k line) 1) (k line) 7 crcs) (k line) 0 words, false)
  | .uncorrectable line crcs words =>
    if d.inFcm then (memStat d (k line) 7 (min crcs 1), true)
    else
      let ks := copyStacks p d (at_ line)
      let d1 := memStats (memStat (memStats d ks 1) (k line) 7 crcs) ks 2
      (poisonWords p d1 ks (at_ line) (words.map (fun w => at_ line / 8 + w % 8)) 1, false)
  -- only a pair with a working partner can repair
  | .partnerRepair line crcs =>
    if d.inFcm then (memStat d (k line) 7 (min crcs 1), true)
    else if (copyStacks p d (at_ line)).length < 2 then (d, false)
    else
      let d1 := memStat (memStat (memStat d (k line) 1) (k line) 7 crcs) (k line) 5
      ({ d1 with mem := { d1.mem with copyPoison := d1.mem.copyPoison.filter (fun x => !(x.1 == k line && (lineWords (at_ line)).contains x.2)) } },
       false)
  | .writeRetried line copies =>
    let ks := writeStacks p d (at_ line) copies
    if d.inFcm then (failCopies p (memStats d ks 7) (at_ line) ks, false) else (memStats (memStats d ks 3) ks 7, false)
  | .writeFailed line copies =>
    let ks := writeStacks p d (at_ line) copies
    (failCopies p (if d.inFcm then memStats d ks 7 else memStats (memStats d ks 3) ks 7 2) (at_ line) ks, false)

/-- A fault of the interface that concerns a write. -/
def fxIsWrite : StackFx → Bool
  | .writeRetried .. => true
  | .writeFailed .. => true
  | _ => false

/-- A report that concerns the first line of its access. -/
def firstLine : StackFx → StackFx
  | .clean => .clean
  | .corrected _ w => .corrected 0 w
  | .reread _ c w => .reread 0 c w
  | .uncorrectable _ c w => .uncorrectable 0 c w
  | .partnerRepair _ c => .partnerRepair 0 c
  | .writeRetried _ k => .writeRetried 0 k
  | .writeFailed _ k => .writeFailed 0 k

/-- What the interface will report of a read or a write of a range: the upsets of its lines, and for a read the lines of which the
copy that is read stands poisoned while the partner's is good (R363). -/
def hitFlaws (p : Part) (d : Dev) (write : Bool) (off n : Nat) : List (Nat × StackFx) :=
  let mine := fun (l : Nat) => decide (off / 64 * 64 ≤ l) && decide (l < off + n)
  let bad := d.mem.copyPoison.filter (fun x => x.1 = (readStack p d (8 * x.2)).1 && 2 ≤ (copyStacks p d (8 * x.2)).length)
  let lines := (bad.map (fun x => x.2 / 8 * 64)).eraseDups
  d.mem.flaws.filter (fun x => fxIsWrite x.2 == write && mine x.1)
    ++ (if write then [] else (lines.filter mine).map (fun l => (l, .partnerRepair 0 0)))

/-- The interface's reports taken one after the other, each once: the device, and whether one of them is reported to the requester
as poison (R355). -/
def takeFlaws (p : Part) (d : Dev) (xs : List (Nat × StackFx)) : Dev × Bool :=
  xs.foldl (fun acc x =>
    let d := { acc.1 with mem := { acc.1.mem with flaws := acc.1.mem.flaws.filter (· != x) } }
    let r := applyFx p d (x.1 / 64 * 64) (firstLine x.2)
    (r.1, acc.2 || r.2)) (d, false)

/-- A read of a range by the device itself: what the interface reports of it, and whether it must not be used (R355, R356). -/
def checkRead (p : Part) (d : Dev) (off n : Nat) : Dev × Bool :=
  let r := takeFlaws p d (hitFlaws p d false off n)
  (r.1, r.2 || readPoison p r.1 off n)

/-- What the interface reports of a write of a range that has been performed (R357). -/
def afterStore (p : Part) (d : Dev) (off n : Nat) : Dev := (takeFlaws p d (hitFlaws p d true off n)).1

/-- Several ranges read by the device itself: where one of them met what must not be used, if any did. -/
def checkReads (p : Part) (d : Dev) (rs : List (Nat × Nat)) : Dev × Option Nat :=
  rs.foldl (fun acc r =>
    let y := checkRead p acc.1 r.1 r.2
    (y.1, if acc.2.isNone && y.2 then some (poisonSpot p y.1 r.1 r.2) else acc.2)) (d, none)

/-! ### The reserved areas (R353) -/

/-- GiB of the reserved areas from the top of capacity down: 0 system, 1 route, 2 slot spill, 3 shadow. -/
def areaGib (d : Dev) (k : Nat) : Nat := if k = 0 then 1 else if k = 1 then 8 else if k = 2 then d.mem.spillGib else d.mem.shadowGib

/-- Where an area begins. -/
def areaBase (p : Part) (d : Dev) (k : Nat) : Nat := memCapacity p d - ((List.range (k + 1)).map (areaGib d)).sum * 2 ^ 30

/-- The lowest place in an area of `size` bytes where `n` bytes lie clear of those in use (DESIGN CHOICE, log entry 104). -/
def firstGap (size n : Nat) (used : List (Nat × Nat)) : Option Nat :=
  let ok := fun (a : Nat) => decide (a + n ≤ size) && used.all (fun u => decide (a + n ≤ u.1) || decide (u.1 + u.2 ≤ a))
  ((0 :: used.map (fun u => u.1 + u.2)).filter ok).min?

/-- The device's own data written to device memory: what the interface reports of the write follows (R357). -/
def writeArea (p : Part) (d : Dev) (off : Nat) (bs : List Byte) : Dev := afterStore p (storeDev d off bs) off bs.length

/-- A magnitude in bytes: two numbers, each with its length (log entry 68). -/
def amaxBytes (a : Nat × Nat) : List Byte :=
  let one := fun (v : Nat) => let n := Nat.log2 v / 8 + 1; toBytes 4 n ++ toBytes n v
  one a.1 ++ one a.2

/-- Where a scaling context's history lies in the system area, and its bytes (R44; DESIGN CHOICE, log entry 104). -/
def histImage (d : Dev) (n : Nat) : List Byte := (d.ctx n).hist.flatMap amaxBytes
def histRange (p : Part) (d : Dev) (n : Nat) : Nat × Nat := (areaBase p d 0 + n % 1024 * 2 ^ 19, (histImage d n).length)

/-- A history written to its place after it has changed. -/
def storeHist (p : Part) (d : Dev) (n : Nat) : Dev := writeArea p d (histRange p d n).1 (histImage d n)

/-! ### The coded line (R352) -/

/-- The nine bytes of a stored word: its eight data bytes and the check bits of the SEC-DED (72,64) Hsiao code, whose matrix the spec
does not give (log entry 120). -/
def codedWord (bs : List Byte) : List Byte := bs ++ toBytes 1 (Config.hsiaoBits (ofBytes bs)).toNat

/-- The 72 coded bytes of a line, word by word in ascending order (DESIGN CHOICE, log entry 120). -/
def codedLine (bs : List Byte) : List Byte := (chunksOf 8 8 bs).flatMap codedWord

/-- One byte of the CRC-16 of a line transfer, most significant bit first: polynomial 0x1021. -/
def crc16Byte (r : Nat) (b : Byte) : Nat :=
  let bit := fun (r : Nat) (_ : Nat) => if 0x8000 ≤ r then (r * 2 % 65536) ^^^ 0x1021 else r * 2
  (List.range 8).foldl bit (r ^^^ (b.toNat * 256))

/-- The CRC-16 that travels on the EDC pins with a line (R352): initial value 0xFFFF, no final inversion. -/
def lineCrc (bs : List Byte) : Nat := (codedLine bs).foldl crc16Byte 0xFFFF

end Sys2Proof.Machine
end

