-- ==== Sys2Proof/Machine/Flags.lean ====
section
/-! DEFINITION. Completion, fault and halt records, the completion and trace rings, halts, and the flags of a grove
(spec/05_stream_programs.md R126-R134, R139-R144), with the counters that conversions add to (R56, R76). -/

namespace Sys2Proof.Machine

/-! ### CRC-32C -/

/-- One bit of a reflected CRC-32C register (polynomial 0x1EDC6F41, reflected 0x82F63B78; log entry 25). -/
def crcBit (r : Nat) : Nat := if r % 2 = 1 then (r / 2) ^^^ 0x82F63B78 else r / 2

/-- Eight bits. -/
def crcByte (r : Nat) (b : Byte) : Nat :=
  let x := (r ^^^ b.toNat)
  crcBit (crcBit (crcBit (crcBit (crcBit (crcBit (crcBit (crcBit x)))))))

/-- The register after a byte list, from an initial value, with no final inversion (R84). -/
def crcRaw (init : Nat) (bs : List Byte) : Nat := bs.foldl crcByte init

/-- CRC-32C: initial value all ones, final inversion. -/
def crc32c (bs : List Byte) : Nat := 0xFFFFFFFF - crcRaw 0xFFFFFFFF bs

/-- The register after `n` zero bytes. -/
def crcZeros : Nat → Nat → Nat
  | 0, r => r
  | n + 1, r => crcZeros n (crcByte r 0)

/-- The register after the bytes of a sparse memory from `a` to `stop`, its cells given in ascending order. -/
def crcSparse (stop : Nat) : List (Nat × Nat × Nat) → Nat → Nat → Nat
  | [], a, r => crcZeros (stop - a) r
  | (k, n, v) :: cs, a, r => crcSparse stop cs (k + n) (crcRaw (crcZeros (k - a) r) (toBytes n v))

/-! ### Counters of conversions (R56, R76) -/

/-- The counters advanced by what a command or a sealing raised. -/
def addTally (d : Dev) (t : Tally) : Dev :=
  let add := fun (d : Dev) (i n : Nat) => if n = 0 then d else d.inc i 0 0 n
  add (add (add (add (add (add d 0x4310 t.under) 0x4311 t.sat) 0x4312 t.nonfin) 0x4313 t.esc) 0x4314 t.ovf) 0x4316 t.tlim

/-! ### Records (R132) -/

/-- A completion, fault or halt record as one value (R132). -/
def record132 (d : Dev) (flags addr tag ctx engine fault status nwait kind : Nat) : Nat :=
  pack [(0, 2, kind), (2, 5, nwait), (7, 8, status), (15, 8, fault), (23, 5, engine), (28, 12, ctx), (40, 16, tag),
    (56, 40, addr), (96, 32, flags), (128, 64, d.cycle), (192, 64, d.pace.visible)]

/-- Grove memory offset of the completion ring (R133); general memory starts at 10 MiB of grove memory. -/
def ringBase (d : Dev) (g : Nat) : Nat := 0xA00000 + bits (d.rd 0x4104 0 g) 17 15 * 256

/-- A record put into a grove's completion ring (R133). -/
def ringPut (d : Dev) (g rec : Nat) : Dev :=
  let k := bits (d.rd 0x4104 0 g) 0 4
  if k = 0 then d
  else
    let m := (d.grove g).gmem
    let b := ringBase d g
    let head := m.readNat 0#8 b 4
    let tail := m.readNat 0#8 (b + 4) 4
    let m' :=
      if (head + 2 ^ 32 - tail) % 2 ^ 32 = 2 ^ k then m.writeNat 0#8 (b + 8) 4 ((m.readNat 0#8 (b + 8) 4 + 1) % 2 ^ 32)
      else (m.writeNat 0#8 (b + 64 + head % 2 ^ k * 32) 32 rec).writeNat 0#8 b 4 ((head + 1) % 2 ^ 32)
    d.setGrove g { d.grove g with gmem := m' }

/-- Where the next record of a grove's trace ring goes (R134). The ring's index goes on from where it stands whatever is written to
TRACE_CTRL, and past START and RESET (DESIGN CHOICE, log entry 121). -/
def traceAddr (d : Dev) (g : Nat) : Nat :=
  let v := d.rd 0x4107 0 g
  bits v 0 40 + (d.grove g).traceIx % 2 ^ bits v 56 7 * 16

/-- A trace record (R134). -/
def traceRec (d : Dev) (tag engine ctx event data : Nat) : Nat :=
  pack [(0, 32, data), (43, 4, event), (47, 12, ctx), (59, 5, engine), (64, 16, tag), (80, 48, d.cycle)]

/-- A trace record written to a grove's trace ring in device memory (R134). TRACE_CTRL takes a ring that reaches past the end of
device memory; a record that would lie there is not written (DESIGN CHOICE, log entry 121). -/
def tracePut (p : Part) (d : Dev) (g tag engine ctx event data : Nat) : Dev :=
  if !(d.rd 0x4107 0 g).testBit 63 then d
  else
    let a := traceAddr d g
    let d' := d.setGrove g { d.grove g with traceIx := (d.grove g).traceIx + 1 }
    if a + 16 ≤ memSize p d then afterStore p (storeDev d' a (toBytes 16 (traceRec d tag engine ctx event data))) a 16 else d'

/-! ### Flags (R126, R127) -/

/-- A flag of a grove. -/
def Grove.flag (gr : Grove) (f : Nat) : Flag := gr.flags.get Flag.zero f

/-- A flag changed. -/
def Grove.setFlag (gr : Grove) (f : Nat) (v : Flag) : Grove := { gr with flags := gr.flags.set Flag.zero f v }

/-- A local setter's completion (R127). -/
def Grove.localSet (gr : Grove) (f : Nat) : Grove :=
  let x := gr.flag f
  gr.setFlag f { x with c := x.c + 1, pl := x.pl - 1, s := x.s - 1 }

/-- A set from outside applied or discarded (R130). `sender` is the sender's home field, `job` its job. -/
def remoteSetHere (p : Part) (d : Dev) (sender job g f : Nat) : Dev :=
  let gr := d.grove g
  let ok := decide (g < p.groves) && (gr.phase == .running || gr.phase == .halted) && d.role g = 1 && d.groveJob g = job
    && decide (0 < (gr.flag f).pe)
  if ok then
    let x := gr.flag f
    d.setGrove g (gr.setFlag f { x with c := x.c + 1, pe := x.pe - 1 })
  else emit (d.inc 0x4107 1 0) 0x4002 stOK 5 false 0x4107 1 (dataUN 2 g f 0 sender (ownHome d) 0)

/-! ### Contexts and queues -/

/-- A context of an engine. -/
def Grove.ctx (gr : Grove) (e c : Nat) : Ctx := gr.ctxs.get Ctx.free (e * 4096 + c)

/-- A context changed. -/
def Grove.setCtx (gr : Grove) (e c : Nat) (x : Ctx) : Grove := { gr with ctxs := gr.ctxs.set Ctx.free (e * 4096 + c) x }

/-- An engine's command queue. -/
def Grove.queue (gr : Grove) (e : Nat) : List Cmd := gr.queues.get [] e

/-- An engine's command queue changed. -/
def Grove.setQueue (gr : Grove) (e : Nat) (q : List Cmd) : Grove := { gr with queues := gr.queues.set [] e q }

/-- A word of a bank. -/
def Grove.word (gr : Grove) (bank a : Nat) : Nat := (gr.imem.get 0 (bank * 32768 + a)).toNat

/-- Header word of a command's body. -/
def Grove.head (gr : Grove) (c : Cmd) : Nat := gr.word c.bank c.body

/-- The contexts not FREE. -/
def Grove.open_ (gr : Grove) : List Ctx := (gr.ctxs.map Prod.snd).filter (fun x => x.st != .free)

/-- A command with WAIT_EN whose wait is not satisfied (R114). -/
def Grove.waits (gr : Grove) (c : Cmd) : Bool :=
  let h := gr.head c
  h.testBit 44 && decide ((gr.flag (bits h 36 8)).c < bits h 20 16)

/-! ### Waits (R141) -/

/-- The waits that stand in a grove, each with what it is known by: a queue head with its tag and body, a stalled FWAIT or WPACE with
its place in the program and its target. -/
def standingWaits (d : Dev) (gr : Grove) : List (Nat × List Nat) :=
  let heads := (List.range 16).filterMap (fun e =>
    match gr.queue e with
    | c :: _ => if gr.waits c then some (e, [c.tag, c.body]) else none
    | [] => none)
  match gr.stall with
  | .fwait f t => if (gr.flag f).c < t then heads ++ [(16, [gr.pc, t])] else heads
  | .wpace t => if d.pace.visible < t then heads ++ [(16, [gr.pc, t])] else heads
  | _ => heads

/-- The waits of a grove noted as a cycle ends: one that has begun in it with the cycle and the visible pace count. -/
def noteWaits (d : Dev) (g : Nat) : Dev :=
  let gr := d.grove g
  let ws := (standingWaits d gr).map (fun x =>
    (gr.waitsAt.find? (fun n => n.waiter = x.1 && n.key = x.2)).getD ⟨x.1, x.2, d.cycle, d.pace.visible⟩)
  if ws = gr.waitsAt then d else d.setGrove g { gr with waitsAt := ws }

/-! ### Halts (R142-R144) -/

/-- A wait entry (R142). -/
def waitEntry (tag waiter flag target count : Nat) : Nat :=
  pack [(3, 16, count), (19, 16, target), (35, 8, flag), (43, 5, waiter), (48, 16, tag)]

/-- The wait entries of a grove: queue heads in engine order, then the sequencer (R142). -/
def waitEntries (gr : Grove) : List Nat :=
  let heads := (List.range 16).filterMap (fun e =>
    match gr.queue e with
    | c :: _ =>
      if gr.waits c then
        let h := gr.head c
        some (waitEntry c.tag e (bits h 36 8) (bits h 20 16) (gr.flag (bits h 36 8)).c)
      else none
    | [] => none)
  match gr.stall with
  | .fwait f t => heads ++ [waitEntry gr.lastTag 16 f t (gr.flag f).c]
  | .wpace _ => heads ++ [waitEntry gr.lastTag 17 0 0 0]
  | _ => heads

/-- Context state codes (R88). -/
def CtxSt.code : CtxSt → Nat | .free => 0 | .ready => 1 | .waitData => 2 | .waitWrite => 3 | .faulted => 4

/-- A two's-complement sum of index times increment over the levels. -/
def nestOffset : List (Nat × Int) → Int
  | [] => 0
  | (i, inc) :: xs => (i : Int) * inc + nestOffset xs

/-- Increment of operand `x` (0 A, 1 B, 2 D) at level `k` of the body at `a` (R116). -/
def levelInc (gr : Grove) (c : Cmd) (k x : Nat) : Int :=
  if bits (gr.head c) 45 3 ≤ k then 0
  else
    let w0 := gr.word c.bank (c.body + 5 + 2 * k)
    let w1 := gr.word c.bank (c.body + 6 + 2 * k)
    if x = 0 then toSigned 32 w0 else if x = 1 then toSigned 32 (w1 / 2 ^ 32) else toSigned 32 w1

/-- Count of level `k` (R116, R119). -/
def levelCount (gr : Grove) (c : Cmd) (k : Nat) : Nat :=
  if bits (gr.head c) 45 3 ≤ k then 1 else bits (gr.word c.bank (c.body + 5 + 2 * k)) 47 17

/-- The address of operand `x` for engine `e` at given indices, modulo 2^40 (R119). -/
def operandAddr (gr : Grove) (c : Cmd) (e x : Nat) (idx : List Nat) : Nat :=
  let w := gr.word c.bank (c.body + 2 + x)
  let off := if x = 0 then c.offA else if x = 1 then c.offB else c.offD
  let base : Int := (bits w 0 40 + e * bits w 40 24 * 64 + off : Nat)
  ofSigned 40 (base + nestOffset (idx.zipIdx.map (fun i => (i.1, levelInc gr c i.2 x))))

/-- The 32-byte image of a context (R88). -/
def ctxImage (gr : Grove) (e : Nat) (x : Ctx) : Nat :=
  let a := fun k => operandAddr gr x.cmd e k x.idx
  pack [(5, 40, a 0), (45, 40, a 1), (85, 40, a 2), (125, 16, x.idx.getD 0 0), (141, 16, x.idx.getD 1 0),
    (157, 16, x.idx.getD 2 0), (173, 16, x.idx.getD 3 0), (189, 16, x.idx.getD 4 0), (205, 16, x.idx.getD 5 0),
    (221, 15, x.cmd.body), (236, 1, x.cmd.bank), (237, 3, x.st.code), (240, 16, x.cmd.tag)]

/-- What a halt reports: fault code and status (R143), faulting address, tag, context, engine (16 the sequencer), the
command's flags, and the image of the faulting context, 0 for none. -/
structure HaltInfo where
  fault : Nat
  status : Nat
  addr : Nat
  tag : Nat
  ctx : Nat
  engine : Nat
  flags : Nat
  image : Nat
  deriving DecidableEq, Repr

/-- A request of a command that a halt ends (R144, step 2): a read, sent or not, and an atomic that has not been sent. Requests of
collectives, which stand under engine 16, are no command's. -/
def GroveReq.endsAtHalt (r : GroveReq) (i : Nat) : Bool :=
  r.live && r.e != 16 && (r.req.op == 0x01 || (decide (0x10 ≤ r.req.op) && decide (1024 ≤ i)))

/-- Step 2 of R144: the reads in flight are discarded, those sent standing only until they are answered, and so is an atomic that has
not been sent; the step that waited for them is not done, and its context stands before it. An atomic that has been sent, and
every write, goes on. -/
def Grove.haltSteps (gr : Grove) : Grove :=
  let cut := gr.reqs.zipIdx.filter (fun x => x.1.endsAtHalt x.2)
  { gr with
    reqs := gr.reqs.zipIdx.filterMap (fun x =>
      if !x.1.endsAtHalt x.2 then some x.1 else if x.2 < 1024 then some { x.1 with live := false } else none)
    ctxs := gr.ctxs.map (fun y =>
      if y.2.st == .waitData && (!y.2.lines.isEmpty || cut.any (fun x => x.1.e * 4096 + x.1.c == y.1)) then
        (y.1, { y.2 with st := .ready, lines := [], whole := false })
      else y) }

/-- A halt (R144): the steps in flight end, then HALT_RECORD, the fault record in the ring, the trace record, GROVE_HALT, and the state HALTED. Contexts,
queues, flags, registers and banks stay. A fault of a grove that is HALTED already is counted in the event alone. The one
trace record (R134) has EVENT 4 for HALT_REQUESTED and 3 for every other cause, a wait's halt too (DESIGN CHOICE, log
entry 97). -/
def haltGrove (p : Part) (d : Dev) (g : Nat) (h : HaltInfo) : Dev :=
  let gr := d.grove g
  if gr.phase == .halted then
    emit d 0x4001 h.status 2 false 0x4106 0 (record132 d h.flags h.addr h.tag h.ctx h.engine h.fault h.status 0 1)
  else if gr.phase != .running then d
  else
    let ws := waitEntries gr
    let rec1 := record132 d 0 h.addr h.tag h.ctx h.engine h.fault h.status ws.length 2
    let img := (toBytes 32 rec1 ++ toBytes 32 h.image ++ ws.flatMap (toBytes 8))
    let d1 := d.setGrove g { gr.haltSteps with haltRec := (img ++ List.replicate 200 0).take 200 }
    let d2 := ringPut d1 g (record132 d h.flags h.addr h.tag h.ctx h.engine h.fault h.status 0 1)
    let d3 := tracePut p d2 g h.tag h.engine h.ctx (if h.fault = 0x0C then 4 else 3)
      ((gr.ctx h.engine h.ctx).steps % 2 ^ 32)
    setPhase (emit d3 0x4001 h.status 2 false 0x4106 0 rec1) g .halted

/-- A sequencer fault at the present word (R132, R143). Its TAG is that of the last ISSUE that pushed, also when an ISSUE
itself faults; a wait at a queue head halts with the same ENGINE 16, ADDR and TAG (DESIGN CHOICE, log entry 97). -/
def seqFault (p : Part) (d : Dev) (g fault status : Nat) : Dev :=
  let gr := d.grove g
  haltGrove p d g ⟨fault, status, gr.pc % 32768 + gr.bank * 32768, gr.lastTag, 0, 16, 0, 0⟩

/-! ### Banks and the end of a program (R135, R138) -/

/-- A word of a bank stands poisoned in its copy (R459). -/
def Grove.wordPoison (gr : Grove) (bank a : Nat) : Bool := gr.imemPoison.contains (bank * 32768 + a)

/-- A word of a command's body stands poisoned. -/
def Grove.bodyPoison (gr : Grove) (c : Cmd) : Bool :=
  (List.range (5 + 2 * bits (gr.head c) 45 3)).any (fun k => gr.wordPoison c.bank (c.body + k))

/-- Queued or open commands that name a bank. -/
def Grove.refs (gr : Grove) (b : Nat) : Bool :=
  (gr.queues.any (fun q => q.2.any (fun c => c.bank == b))) || (gr.open_.any (fun x => x.cmd.bank == b))

/-- A bank's state. -/
def Grove.bankSt (gr : Grove) (b : Nat) : BankSt := if b = 0 then gr.b0 else gr.b1

/-- A bank's state changed. -/
def Grove.setBank (gr : Grove) (b : Nat) (x : BankSt) : Grove := if b = 0 then { gr with b0 := x } else { gr with b1 := x }

/-- A DRAINING bank that nothing references becomes IDLE (R135). -/
def Grove.drain (gr : Grove) : Grove :=
  let f := fun (gr : Grove) (b : Nat) => if gr.bankSt b == .draining && !gr.refs b then gr.setBank b .idle else gr
  f (f gr 0) 1

/-- Nothing queued and nothing open. -/
def Grove.quiet (gr : Grove) : Bool := gr.queues.all (fun q => q.2.isEmpty) && gr.open_.isEmpty

/-- A grove past END with nothing left becomes IDLE, and its active bank too (R138). -/
def settleEnd (d : Dev) (g : Nat) : Dev :=
  let gr := (d.grove g).drain
  let d := d.setGrove g gr
  if gr.phase == .running && gr.ended && gr.quiet then setPhase (d.setGrove g (gr.setBank gr.bank .idle)) g .idle else d

/-- A bank's check value (R137, R146): CRC-32C of all 256 KiB. -/
def bankCrc (gr : Grove) (b : Nat) : Nat :=
  let ws := gr.imem.filter (fun w => decide (b * 32768 ≤ w.1) && decide (w.1 < (b + 1) * 32768))
  0xFFFFFFFF - crcSparse 262144 (ws.map (fun w => ((w.1 - b * 32768) * 8, 8, w.2.toNat))) 0 0xFFFFFFFF

end Sys2Proof.Machine
end

