-- ==== Sys2Proof/Machine/Keys.lean ====
section
/-! DEFINITION. Keys of sorts, hashes, probes and ranges (spec/04_engines_and_groves.md R83, R84, spec/07_dispatch_sort_gather.md
R183, R184, R206, R208, R209). -/

namespace Sys2Proof.Machine

/-- Bytes of a key (R183). -/
def keyBytes (kt : Nat) : Nat :=
  match kt with
  | 0 => 1 | 1 => 2 | 2 => 4 | 3 => 8 | 4 => 4 | 5 => 8 | 6 => 2 | 7 => 2 | 8 => 4 | 9 => 8 | _ => 1

/-- A key type may be sorted (R183). -/
def keySortable (kt : Nat) : Bool := decide (1 ≤ kt) && decide (kt ≤ 9)

/-- The FMT code of a float key, none for an integer one. -/
def keyFmt (kt : Nat) : Option Fmt :=
  match kt with
  | 6 => some (fmtOf 3) | 7 => some (fmtOf 2) | 8 => some (fmtOf 1) | 9 => some (fmtOf 0) | 10 => some (fmtOf 4)
  | 11 => some (fmtOf 5) | _ => none

/-- The place of a key in ascending order (R83): unsigned numeric, two's complement, or totalOrder with every NaN made the
positive canonical one. -/
def keyRank (kt v : Nat) : Nat :=
  let w := 8 * keyBytes kt
  let v := v % 2 ^ w
  match keyFmt kt with
  | some f =>
    let v := if (decodeNum f v).isNan then f.nanCode else v
    if v.testBit (w - 1) then 2 ^ w - 1 - v else v + 2 ^ (w - 1)
  | none => if kt = 4 || kt = 5 then (v + 2 ^ (w - 1)) % 2 ^ w else v

/-- Bytes of a sort pair (R184). -/
def pairBytes (kt : Nat) : Nat := if keyBytes kt = 8 then 16 else 8

/-- Key and payload of a pair. -/
def pairKey (kt v : Nat) : Nat := bits v 0 (if keyBytes kt = 8 then 64 else 32)
def pairLoad (kt v : Nat) : Nat := if keyBytes kt = 8 then bits v 64 32 else bits v 32 32

/-- A pair written (R184). -/
def mkPair (kt key load : Nat) : Nat :=
  if keyBytes kt = 8 then pack [(0, 64, key), (64, 32, load)] else pack [(0, 32, key), (32, 32, load)]

/-- Order of two ranks: ascending, or descending. -/
def before (desc : Bool) (a b : Nat) : Bool := if desc then decide (b < a) else decide (a < b)

/-- An item inserted behind every item that comes before it or ties with it. -/
def insertRank (desc : Bool) (x : Nat × Nat) : List (Nat × Nat) → List (Nat × Nat)
  | [] => [x]
  | y :: ys => if before desc x.1 y.1 then x :: y :: ys else y :: insertRank desc x ys

/-- A stable sort by rank (R83). -/
def sortRank (desc : Bool) (xs : List (Nat × Nat)) : List (Nat × Nat) := xs.foldl (fun acc x => insertRank desc x acc) []

/-- A stable merge: on ties the first list's items come first (R185). -/
def mergeRank (desc : Bool) : Nat → List (Nat × Nat) → List (Nat × Nat) → List (Nat × Nat)
  | 0, xs, ys => xs ++ ys
  | _, [], ys => ys
  | _, xs, [] => xs
  | fuel + 1, x :: xs, y :: ys =>
    if before desc y.1 x.1 then y :: mergeRank desc fuel (x :: xs) ys else x :: mergeRank desc fuel xs (y :: ys)

/-- The key a hash or probe uses: a float -0 as +0 (R184). -/
def hashKey (kt v : Nat) : Nat :=
  match keyFmt kt with
  | some f => if v = 2 ^ (f.eb + f.mb) then 0 else v
  | none => v

/-- A float NaN key. -/
def keyIsNan (kt v : Nat) : Bool := match keyFmt kt with | some f => (decodeNum f v).isNan | none => false

/-- The hash of R84: CRC-32C of the key's bytes from the seed, with no final inversion. -/
def hashOf (seed kt v : Nat) : Nat := crcRaw seed (toBytes (keyBytes kt) (hashKey kt v))

/-- The 64-bit hash of R84: two such CRCs side by side, seed S1 in the upper half and seed S2 in the lower. -/
def hash64 (s1 s2 kt v : Nat) : Nat := hashOf s1 kt v * 2 ^ 32 + hashOf s2 kt v

/-- a ≤ b for numbers that are no NaNs, with the two zeros equal (R84). -/
def numLe (a b : Num) : Bool :=
  match a, b with
  | .inf s, b => s || (match b with | .inf t => s == t | _ => false)
  | _, .inf t => !t
  | .fin s n d, .fin t m e => decide (sgn s n * e ≤ sgn t m * d)
  | _, _ => false

/-- LO ≤ key ≤ HI in the key's own type (R84, R206). -/
def inKeyRange (kt lo hi v : Nat) : Bool :=
  let w := 8 * keyBytes kt
  match keyFmt kt with
  | some f =>
    let a := decodeNum f (lo % 2 ^ w)
    let b := decodeNum f (hi % 2 ^ w)
    let x := decodeNum f v
    !a.isNan && !b.isNan && !x.isNan && numLe a x && numLe x b
  | none =>
    if kt = 4 || kt = 5 then
      decide (toSigned 64 lo ≤ toSigned w v) && decide (toSigned w v ≤ toSigned 64 hi)
    else decide (lo ≤ v) && decide (v ≤ hi)

/-- Fields of a FILTER_SET record (R208). -/
def setOffset (r : Nat) : Nat := bits r 88 40
def setL (r : Nat) : Nat := bits r 83 5
def setKeyt (r : Nat) : Nat := bits r 79 4
def setMaxProbe (r : Nat) : Nat := bits r 71 8
def setSeed (r : Nat) : Nat := bits r 0 32

/-- A set's table in device memory: `n` bytes from an offset in its region. -/
def memTable (m : Mem) (r off n : Nat) : Nat := m.readNat 0#8 (setOffset r + off) n

/-- Slot `s` of a set is occupied; `tab` reads the set's table. -/
def slotOcc (tab : Nat → Nat → Nat) (r s : Nat) : Bool := (tab (8 * 2 ^ setL r + s / 8) 1).testBit (s % 8)

/-- Key of slot `s`. -/
def slotKey (tab : Nat → Nat → Nat) (s : Nat) : Nat := tab (8 * s) 8

/-- The probe procedure of R209 from probe `p` on, for a key of type `kt`. Keys compare as R84 has it, so that a stored -0, which only
a set that is not committed can hold, equals +0; a stored NaN equals nothing, since a NaN is not probed. -/
def probeFrom (tab : Nat → Nat → Nat) (r kt h k : Nat) : Nat → Nat → Bool
  | 0, _ => false
  | fuel + 1, p =>
    let s := (h + p) % 2 ^ setL r
    if !slotOcc tab r s then false
    else if hashKey kt (slotKey tab s) = k then true
    else probeFrom tab r kt h k fuel (p + 1)

/-- The key is in the set (R184, R209). -/
def probeSet (tab : Nat → Nat → Nat) (r kt v : Nat) : Bool :=
  if keyIsNan kt v then false else probeFrom tab r kt (hashOf (setSeed r) kt v) (hashKey kt v) (setMaxProbe r) 0

/-- The ranges of a set's table that the probe procedure reads, from probe `p` on: an occupancy byte each, and the key of an occupied
slot. -/
def setProbes (tab : Nat → Nat → Nat) (r kt h k : Nat) : Nat → Nat → List (Nat × Nat)
  | 0, _ => []
  | fuel + 1, p =>
    let s := (h + p) % 2 ^ setL r
    (8 * 2 ^ setL r + s / 8, 1) ::
      (if !slotOcc tab r s then []
       else (8 * s, 8) :: (if hashKey kt (slotKey tab s) = k then [] else setProbes tab r kt h k fuel (p + 1)))

/-- The ranges that the test of one key reads. -/
def setReads (tab : Nat → Nat → Nat) (r kt v : Nat) : List (Nat × Nat) :=
  if keyIsNan kt v then [] else setProbes tab r kt (hashOf (setSeed r) kt v) (hashKey kt v) (setMaxProbe r) 0

/-- Bytes of a set's region: 2^L slots of 8 bytes and the occupancy bitmap. -/
def setRegion (r : Nat) : Nat := 8 * 2 ^ setL r + (2 ^ setL r + 7) / 8

/-- A range of device memory touches the region of a committed set (R209). -/
def hitsCommitted (d : Dev) (off n : Nat) : Bool :=
  (List.range 16).any (fun k =>
    let r := d.rd 0x5110 0 k
    r.testBit 32 && decide (off < setOffset r + setRegion r) && decide (setOffset r < off + n))

end Sys2Proof.Machine
end

