-- ==== Sys2Proof/Machine/Engine.lean ====
section
/-! DEFINITION. Engines: command bodies and their checks, contexts, the engine address map, the shared frame of a step, and
completion (spec/04_engines_and_groves.md R85-R93, spec/05_stream_programs.md R114-R131, R143, R144). -/

namespace Sys2Proof.Machine

/-! ### Jobs and homes that engines need (R318, R334, R335) -/

/-- The records of JOB_TABLE that are not at their default, with their numbers. -/
def Dev.jobRecs (d : Dev) : List (Nat × Nat) :=
  (d.dict.filter (fun x => decide (objKey 0x6002 0 0 ≤ x.1) && decide (x.1 < objKey 0x6002 0 4096))).map
    (fun x => (x.1 - objKey 0x6002 0 0, x.2))

/-- The valid record of a job, if the job exists here (R318). -/
def Dev.jobRec (d : Dev) (job : Nat) : Option Nat :=
  (d.jobRecs.find? (fun x => bits x.2 0 32 == job && x.2.testBit 40)).map Prod.snd

/-- The ACN of a job; 0 for none. -/
def Dev.jobAcn (d : Dev) (job : Nat) : Nat := match d.jobRec job with | some r => bits r 32 8 | none => 0

/-- A device of this plane is fenced (R347): FENCED_DEVICES by row * 64 + column. -/
def Dev.isFenced (d : Dev) (row col : Nat) : Bool := d.sw.fenced.contains (row * 64 + col)

/-- A window record of CANOPY_WINDOWS (R335): valid, row, column, link, size. -/
def winValid (r : Nat) : Bool := bits r 0 8 != 0
def winRow (r : Nat) : Nat := bits r 8 8
def winCol (r : Nat) : Nat := bits r 16 8
def winLink (r : Nat) : Nat := bits r 24 8
def winSize (r : Nat) : Nat := bits r 64 64

/-- The device that serves a home field, row and column: the device itself, or the window's host. -/
def homeDevice (d : Dev) (home : Nat) : Nat × Nat :=
  if home.testBit 15 then
    let w := d.rd 0x6021 0 (bits home 0 12)
    (winRow w, winCol w)
  else (bits home 6 6, bits home 0 6)

/-- A home that this device finds unreachable (R335). -/
def homeDead (p : Part) (d : Dev) (caddr : Nat) : Bool :=
  let home := bits caddr 48 16
  let off := bits caddr 0 48
  let x := homeDevice d home
  bits home 12 3 != d.plane || !rowInside d x.1 || !colInside d x.2
    || (home.testBit 15 && (!winValid (d.rd 0x6021 0 (bits home 0 12))
        || decide (winSize (d.rd 0x6021 0 (bits home 0 12)) ≤ off)))
    || d.isFenced x.1 x.2
    || (!home.testBit 15 && home = ownHome d && decide (memSize p d ≤ off))

/-! ### Command bodies (R114-R119) -/

/-- Word `k` of a command's body. -/
def Grove.bw (gr : Grove) (c : Cmd) (k : Nat) : Nat := gr.word c.bank (c.body + k)

/-- OPC and SUB of a body. -/
def Grove.opc (gr : Grove) (c : Cmd) : Nat := bits (gr.head c) 56 8
def Grove.sub (gr : Grove) (c : Cmd) : Nat := bits (gr.head c) 48 8

/-- Conversion word and PARAM (R115). -/
def Grove.cvt (gr : Grove) (c : Cmd) : Nat := bits (gr.bw c 1) 32 32
def Grove.param (gr : Grove) (c : Cmd) : Nat := bits (gr.bw c 1) 0 32

/-- LEVELS. -/
def Grove.levels (gr : Grove) (c : Cmd) : Nat := bits (gr.head c) 45 3

/-- Steps of a command: the product of its counts (R119). -/
def Grove.steps (gr : Grove) (c : Cmd) : Nat := ((List.range 6).map (levelCount gr c)).foldl (· * ·) 1

/-- The indices after the next step, innermost level first (R119). -/
def nextIdx : List (Nat × Nat) → List Nat
  | [] => []
  | (i, n) :: xs => if i + 1 < n then (i + 1) :: xs.map Prod.fst else 0 :: nextIdx xs

/-- Fields of a conversion word (R25). -/
def cvFmt (v : Nat) : Nat := bits v 4 4
def cvRm (v : Nat) : Nat := bits v 0 3
def cvSat (v : Nat) : Bool := v.testBit 3
def cvMode (v : Nat) : Nat := bits v 12 2
def cvGap (v : Nat) : Nat := bits v 14 6
def cvCtx (v : Nat) : Nat := bits v 20 10

/-- The table of R26. -/
def modeOk (fmt mode : Nat) : Bool :=
  match mode with
  | 0 => decide (fmt ≤ 5)
  | 3 => decide (3 ≤ fmt ∧ fmt ≤ 5)
  | _ => decide (4 ≤ fmt ∧ fmt ≤ 8)

/-- A conversion word that R27 takes; `fp64` when the input is FP64. -/
def cvtOk (v : Nat) (fp64 : Bool) : Bool :=
  decide (cvFmt v ≤ 8) && decide (cvRm v ≤ 4) && modeOk (cvFmt v) (cvMode v) && decide (cvGap v ≤ 32)
    && bits v 30 2 = 0 && bits v 8 4 = 0 && !(fp64 && (cvMode v = 1 || cvMode v = 2))

/-- Sub-operations of an opcode (R117, R185, R186, R338); an opcode without any is reserved. -/
def subOk (opc sub : Nat) : Bool :=
  match opc with
  | 0x03 => decide (sub ≤ 15)
  | 0x04 => decide (sub ≤ 3)
  | 0x05 => decide (sub ≤ 2)
  | 0x08 => decide (sub ≤ 2)
  | 0x09 => decide (sub ≤ 3)
  | 0x0E => decide (0x10 ≤ sub ∧ sub ≤ 0x15)
  | _ => sub = 0 && decide (1 ≤ opc ∧ opc ≤ 0x0D)

/-- PARAM bits that an opcode defines (R117, R185, R186, R338). -/
def paramMask (opc : Nat) : Nat :=
  match opc with
  | 0x01 => 0xFFFF | 0x02 => 0xFFFF | 0x03 => 0xF000FFFF | 0x04 => 0xFFC0FFFF | 0x05 => 0xFF80FFFF | 0x06 => 0x01E0FFFF
  | 0x07 => 0x0180FFFF | 0x08 => 0xFFE0FFFF | 0x09 => 0xF000FFFF | 0x0A => 0x3F | 0x0B => 0x3F | 0x0C => 0x8000FFFF
  | 0x0E => 0xF0000000 | _ => 0

/-- An opcode or sub-operation that converts (R118). -/
def converts (opc sub : Nat) : Bool :=
  opc = 0x06 || (opc = 0x03 && !(10 ≤ sub && sub ≤ 12)) || (opc = 0x04 && sub = 3)

/-- The class of R58 for a sum, and for a dot product of two formats. -/
def sumClass (fmt : Nat) : Nat := if fmt = 0 then 2 else 0
def dotClass (fa fb : Nat) (scaled : Bool) : Nat :=
  if scaled then 1
  else
    let narrow := fun f => decide (3 ≤ f ∧ f ≤ 5)
    if narrow fa && narrow fb then 0 else 1

/-- The ATYPE codes an atomic takes (R338). -/
def atypeOk (op ty : Nat) : Bool :=
  if op = 0x10 then decide (ty ≤ 3) else if op = 0x11 then decide (4 ≤ ty ∧ ty ≤ 9) else decide (ty ≤ 9)

/-- The width of an ATYPE (R338). -/
def atypeBytes (ty : Nat) : Nat := match ty with | 0 => 4 | 1 => 8 | 2 => 4 | 3 => 8 | 4 => 8 | 5 => 4 | 6 => 2 | 7 => 2 | _ => 1

/-- The opcode's own conditions of R118 and R187. -/
def opBad (acn copies estrD opc sub cvt prm : Nat) : Bool :=
  let fa := bits prm 28 4
  let fb := bits prm 24 4
  let cls := bits prm 23 2
  match opc with
  | 0x03 =>
    decide (5 < fa) || (10 ≤ sub && sub ≤ 12 && decide (5 < fa)) || (13 ≤ sub && (acn < 2 || !(1 ≤ fa && fa ≤ 3)))
      || (sub = 9 && fa != 1)
  | 0x04 =>
    let mx := prm.testBit 23
    decide (8 < fa) || decide (8 < fb) || (!mx && (decide (5 < fa) || decide (5 < fb)))
      || (mx && !(4 ≤ fa && 4 ≤ fb)) || (prm.testBit 22 && sub != 3)
      || (sub = 0 && (fa = 0 || fb = 0)) || ((sub = 1 || sub = 2) && (fa != 1 || fb != 1 || mx))
      || (sub = 3 && (!(fa = 0 || fb = 0) || mx || cvFmt cvt != 0 || cvMode cvt != 0 || (1 < copies && estrD = 0)))
  | 0x05 => decide (8 < fa) || !modeOk fa (bits prm 26 2) || cls = 3 || (sub = 0 && decide (cls < sumClass fa))
  | 0x06 => cls = 3
  | 0x07 => cls = 3
  | 0x08 =>
    let n := bits prm 0 16 + 1
    !keySortable fa || (sub = 0 && decide (64 < n)) || (sub = 2 && (decide (n < bits prm 21 6 + 1) || prm.testBit 27))
  | 0x09 => decide (11 < fa)
  | 0x0E => !atypeOk sub fa
  | _ => false

/-- FP64 input of a conversion (R27, R124). -/
def fp64Input (opc prm : Nat) : Bool := (opc = 0x03 && bits prm 28 4 = 0) || (opc = 0x06 && bits prm 23 2 = 2)

/-- A body that the engine refuses when its context opens (R89, R118, R187); `acn` is that of the grove's job. -/
def bodyBad (gr : Grove) (role acn : Nat) (c : Cmd) : Bool :=
  let opc := gr.opc c
  let sub := gr.sub c
  let lv := gr.levels c
  let cvt := gr.cvt c
  let prm := gr.param c
  let counts := (List.range lv).map (levelCount gr c)
  !(subOk opc sub) || (0xC0 ≤ opc && role = 1) || lv = 0 || lv = 7 || counts.any (fun n => n = 0 || decide (65536 < n))
    || bits (gr.head c) 0 9 != 0 || (List.range lv).any (fun k => bits (gr.bw c (5 + 2 * k)) 32 15 != 0)
    || decide (32768 < c.body + 5 + 2 * lv) || (prm &&& paramMask opc) != prm
    || (if converts opc sub then !cvtOk cvt (fp64Input opc prm) else cvt != 0)
    || ((opc = 0x0B || opc = 0x0D || opc = 0x0E) && lv != 1) || ((opc = 0x0B || opc = 0x0D) && counts != [1])
    || opBad acn c.copies (bits (gr.bw c 4) 40 24) opc sub cvt prm

/-! ### Faults of a command (R90, R143, R144) -/

/-- A scaling context freed by the command that used it: with an entry (R45) or, when the command did not complete, without;
held writes and clears then take effect (R49). -/
def freeScale (d : Dev) (n : Nat) (entry : Option (Nat × Nat)) : Dev :=
  let x := d.ctx n
  let len := bits (d.rd 0x4300 1 n) 16 11
  let hist := match entry with | some a => (a :: x.hist).take len | none => x.hist
  let d1 := d.setCtx n { x with hist := if x.heldClear then [] else hist, busy := false, heldClear := false, heldRec := none }
  match x.heldRec with
  | some v => takeScaleRec d1 n v
  | none => d1

/-- Requests of commands that have left: those sent, and the writes of completed steps, stand until they are answered, and
their answers are discarded (R120, R144, R145). -/
def Grove.retire (gr : Grove) (who : GroveReq → Bool) : Grove :=
  { gr with reqs := gr.reqs.zipIdx.filterMap (fun x =>
      if !who x.1 then some x.1
      else if x.2 < 1024 || x.1.req.op = 2 || x.1.req.op = 3 then some { x.1 with live := false } else none) }

/-- A request of a context's command. -/
def GroveReq.isOf (r : GroveReq) (e c : Nat) : Bool := r.live && r.e == e && r.c == c

/-- A context that leaves without completing: its scaling context is freed without an entry, and a bank that only it
referenced becomes IDLE (R135). -/
def dropCtx (d : Dev) (g e c : Nat) : Dev :=
  let gr := d.grove g
  let x := gr.ctx e c
  let d1 := d.setGrove g ((gr.retire (fun r => r.isOf e c)).setCtx e c Ctx.free).drain
  match x.xscale with
  | some _ => freeScale d1 (cvCtx (gr.cvt x.cmd)) none
  | none => d1

/-- A fault of a command (R143): the context is FAULTED in the records, the grove halts, and the context is FREE once its
fault record is written (R90). A second fault of a halted grove is counted in the event alone (R144). -/
def ctxFault (p : Part) (d : Dev) (g e c code status addr : Nat) : Dev :=
  let gr := (d.grove g)
  let x := { gr.ctx e c with st := CtxSt.faulted }
  let d1 := d.setGrove g (gr.setCtx e c x)
  dropCtx (haltGrove p d1 g ⟨code, status, addr, x.cmd.tag, c, e, x.flags, ctxImage gr e x⟩) g e c

/-! ### Opening a context (R90, R114, R118) -/

/-- The lowest-numbered FREE context of an engine. -/
def freeCtx (gr : Grove) (e : Nat) : Option Nat :=
  let used := (gr.ctxs.filter (fun x => decide (e * 4096 ≤ x.1) && decide (x.1 < (e + 1) * 4096))).map (fun x => x.1 - e * 4096)
  (List.range (used.length + 1)).find? (fun c => !used.contains c && decide (c < 4096))

/-- Contexts of an engine not FREE (CTX_IN_USE). -/
def ctxInUse (gr : Grove) (e : Nat) : Nat :=
  (gr.ctxs.filter (fun x => decide (e * 4096 ≤ x.1) && decide (x.1 < (e + 1) * 4096))).length

/-- A high-water mark raised. -/
def raiseMark (d : Dev) (k v : Nat) : Dev := if d.marks.get 0 k < v then { d with marks := d.marks.set 0 k v } else d

/-- COMMAND_OPEN (R90): an engine takes the head of its command queue and opens the lowest FREE context. A body with a word
that reads as poisoned faults with ECC (R459), and so does the grove where a word of its queues or registers does. -/
def execCommandOpen (g e : Nat) (s : State) : Res :=
  liftAt s (decide (g < s.part.groves) && decide (e < 16)) fun p d =>
    let gr := d.grove g
    match gr.queue e, freeCtx gr e with
    | cmd :: rest, some c =>
      if !d.runs domArc || gr.phase != .running || gr.paused || (gr.waits cmd && !gr.wordPoison cmd.bank cmd.body) then d
      else if gr.statePoison then seqFault p d g 0x03 stCheckFail
      else
        let x : Ctx := { Ctx.free with st := .ready, cmd := cmd, since := d.cycle }
        let gr1 := ({ gr with ctxPoison := gr.ctxPoison.filter (· != e * 4096 + c) }.setQueue e rest).setCtx e c x
        let d1 := raiseMark (d.setGrove g gr1) (1000 + 16 * g + e) (ctxInUse gr1 e)
        let d2 := if (gr.head cmd).testBit 9 then tracePut p d1 g cmd.tag e c 0 0 else d1
        if gr.bodyPoison cmd then ctxFault p d2 g e c 0x03 stCheckFail 0
        else if bodyBad gr (d.role g) (d.jobAcn (d.groveJob g)) cmd then ctxFault p d2 g e c 0x01 stBadField 0 else d2
    | _, _ => d

/-! ### The engine address map (R85, R87) -/

/-- What an engine address range lies in: scratch, grove memory, an aperture, or the stacks, each with an offset. -/
inductive Region where
  | scratch (off : Nat)
  | grove (off : Nat)
  | aperture (n off : Nat)
  | stack (off : Nat)
  deriving DecidableEq, Repr

/-- The one mapped range that holds `n` bytes from `a` (R85, R120); an aperture that has not been loaded is none (R87). -/
def region (p : Part) (d : Dev) (gr : Grove) (a n : Nat) : Option Region :=
  let n := max n 1
  if a + n ≤ 0x100000 then some (.scratch a)
  else if (0x01000000 ≤ a && a + n ≤ 0x01800000) || (0x01A00000 ≤ a && a + n ≤ 0x02000000) then some (.grove (a - 0x01000000))
  else if 0x2000000000 ≤ a && a < 0x4000000000 then
    let k := (a - 0x2000000000) / 2 ^ 32
    if (a + n - 1 - 0x2000000000) / 2 ^ 32 = k && (gr.aps.get none k).isSome then some (.aperture k (a % 2 ^ 32)) else none
  else if 0x4000000000 ≤ a && a - 0x4000000000 + n ≤ memSize p d then some (.stack (a - 0x4000000000))
  else none

/-- The Canopy address behind an aperture (R87). -/
def apAddr (gr : Grove) (k off : Nat) : Nat := (gr.aps.get none k).getD 0 + off

/-- The 64-byte lines of a range. -/
def linesOf (a n : Nat) : List Nat := if n = 0 then [] else (List.range ((a + n - 1) / 64 - a / 64 + 1)).map (fun k => (a / 64 + k) * 64)

/-- What a step of context `c` reads at `a`, `n` bytes; an operand line that has not arrived reads as zeros. -/
def fetchBytes (p : Part) (d : Dev) (g e c : Nat) (a n : Nat) : List Byte :=
  let gr := d.grove g
  match region p d gr a n with
  | some (.scratch o) => gr.scratch.readN 0#8 (e * 1048576 + o) n
  | some (.grove o) => gr.gmem.readN 0#8 o n
  | some (.stack o) => d.mem.mem.readN 0#8 o n
  | some (.aperture ..) =>
    let bs : List Byte := (linesOf a n).flatMap (fun l =>
      match (gr.ctx e c).lines.find? (fun x => x.addr == l) with
      | some x => (x.data ++ List.replicate 64 0).take 64
      | none => List.replicate 64 0)
    (bs.drop (a % 64)).take n
  | none => List.replicate n 0

/-! ### One step (R119-R122) -/

/-- What a step reads: address, length, alignment, and the range its operand must lie in (0 any, 1 scratch, 2 an aperture,
3 scratch or grove memory). -/
structure Rd where
  addr : Nat
  len : Nat
  align : Nat
  kind : Nat := 0

/-- What a step writes. -/
structure Wr where
  addr : Nat
  data : List Byte
  align : Nat
  kind : Nat := 0

/-- A step as it starts: the machine, the context, the operand addresses of R119. -/
structure Stp where
  p : Part
  d : Dev
  g : Nat
  e : Nat
  c : Nat
  x : Ctx
  cvt : Nat
  prm : Nat
  a : Nat
  b : Nat
  dd : Nat
  last : Bool

/-- Bytes a step reads. -/
def Stp.get (t : Stp) (a n : Nat) : List Byte := fetchBytes t.p t.d t.g t.e t.c a n

/-- N of R117. -/
def Stp.n (t : Stp) : Nat := bits t.prm 0 16 + 1

/-- What a step comes to: its reads and writes, what it raised, a fault it ends in once its operands are in, the remote flag
word it read, the amax of a delayed-scaled output, and whether it refused an image or record as malformed (R76). -/
structure StepRes where
  reads : List Rd := []
  writes : List Wr := []
  tally : Tally := Tally.zero
  err : Option (Nat × Nat × Nat) := none
  word : Option Nat := none
  amax : Nat × Nat := (0, 1)
  malformed : Bool := false

/-- The address of the first operand that R85, R120, R122 or R209 refuses. -/
def badOperand (p : Part) (d : Dev) (gr : Grove) (r : StepRes) : Option Nat :=
  let kindOk := fun (k : Nat) (x : Region) =>
    match k, x with
    | 0, _ => true | 1, .scratch _ => true | 2, .aperture .. => true | 3, .scratch _ => true | 3, .grove _ => true | _, _ => false
  let ok := fun (a n al k : Nat) =>
    a % al = 0 && (match region p d gr a n with | some x => kindOk k x | none => false)
  let locked := fun (w : Wr) => match region p d gr w.addr w.data.length with
    | some (.stack o) => hitsCommitted d o w.data.length
    | _ => false
  match r.reads.find? (fun x => !ok x.addr x.len x.align x.kind) with
  | some x => some x.addr
  | none => (r.writes.find? (fun w => !ok w.addr w.data.length w.align w.kind || locked w)).map Wr.addr

/-- A range meets a poisoned word: read whole, or written in part. -/
def poisonAt (p : Part) (d : Dev) (gr : Grove) (e : Nat) (write : Bool) (a n : Nat) : Bool :=
  let part := fun (o : Nat) (ws : List Nat) =>
    (wordsOf o n).any (fun w => ws.contains w && !(write && decide (o ≤ w * 8) && decide (w * 8 + 8 ≤ o + n)))
  match region p d gr a n with
  | some (.scratch o) => part (e * 1048576 + o) gr.scratchPoison
  | some (.grove o) => part o gr.poison
  | some (.stack o) => if write then writePoison p d o n else readPoison p d o n
  | _ => false

/-- The first operand that meets poison, its address and length (R356, R459). -/
def poisonOperand (p : Part) (d : Dev) (gr : Grove) (e : Nat) (r : StepRes) : Option (Nat × Nat) :=
  match r.reads.find? (fun x => poisonAt p d gr e false x.addr x.len) with
  | some x => some (x.addr, x.len)
  | none => (r.writes.find? (fun w => poisonAt p d gr e true w.addr w.data.length)).map (fun w => (w.addr, w.data.length))

/-- What the stack interface will report of an operand range (R355, R357). -/
def rangeFlaws (p : Part) (d : Dev) (gr : Grove) (write : Bool) (a n : Nat) : List (Nat × StackFx) :=
  match region p d gr a n with
  | some (.stack o) => hitFlaws p d write o n
  | _ => []

/-- The operand read of which the interface reports as poison what it could read only once (R355, fixed-cycle mode), and the device
after every report of the step's reads. -/
def readFlaws (p : Part) (gr : Grove) : Dev → List Rd → Dev × Option (Nat × Nat)
  | d, [] => (d, none)
  | d, x :: xs =>
    let r := takeFlaws p d (rangeFlaws p d gr false x.addr x.len)
    if r.2 then (r.1, some (x.addr, x.len)) else readFlaws p gr r.1 xs

/-- What the interface reports of a step's writes (R357). -/
def writeFlaws (p : Part) (d : Dev) (gr : Grove) (r : StepRes) : List (Nat × StackFx) :=
  r.writes.flatMap (fun w => rangeFlaws p d gr true w.addr w.data.length)

/-- A fault with ECC at an operand of `n` bytes: a stack word also writes MEM_POISON with cause 3, which names its line (R356,
R427). -/
def eccFault (p : Part) (d : Dev) (g e c a n : Nat) : Dev :=
  let d1 := match region p d (d.grove g) a n with | some (.stack o) => poisonEvent p d (poisonSpot p d o n) 3 0 | _ => d
  ctxFault p d1 g e c 0x03 stCheckFail a

/-- Aperture lines that a step reads and that have not arrived. -/
def missingLines (p : Part) (d : Dev) (gr : Grove) (x : Ctx) (r : StepRes) : List Nat :=
  (r.reads.flatMap (fun y =>
    match region p d gr y.addr y.len with
    | some (.aperture ..) => (linesOf y.addr y.len).filter (fun l => !x.lines.any (fun k => k.addr == l))
    | _ => [])).eraseDups

/-- The Canopy lines of what a step reads: behind an aperture, and in this device's own stacks, which a Canopy address names too
(R87, R121). -/
def readLines (p : Part) (d : Dev) (gr : Grove) (r : StepRes) : List Nat :=
  r.reads.flatMap (fun y =>
    match region p d gr y.addr y.len with
    | some (.aperture k o) => (linesOf o y.len).map (fun l => apAddr gr k l)
    | some (.stack o) => (linesOf o y.len).map (fun l => ownHome d * 2 ^ 48 + l)
    | _ => [])

/-- The lines a step reads that an earlier step of the same copy is still to write over the Canopy (R121). -/
def pendingLines (p : Part) (d : Dev) (gr : Grove) (e c : Nat) (r : StepRes) : List Nat :=
  (readLines p d gr r).filter (fun l => gr.reqs.any (fun q => q.isOf e c && (q.req.op == 2 || q.req.op == 3) && q.req.caddr == l))

/-- Requests put at the end of a grove's list; those among the first 1,024 are sent (R93). -/
def sendReqs (d : Dev) (g : Nat) (rs : List GroveReq) : Dev :=
  let gr := d.grove g
  let n := gr.reqs.length
  (rs.zipIdx.filter (fun r => decide (n + r.2 < 1024))).foldl (fun d r => d.send (.canReq r.1.req))
    (d.setGrove g { gr with reqs := gr.reqs ++ rs, tagNext := (gr.tagNext + rs.length) % 65536 })

/-- A request of a grove's context (R337): the unit is 128 + grove. -/
def groveReq (d : Dev) (g e c k op : Nat) (eaddr caddr : Nat) (atype mask : Nat) (payload : List Byte) : GroveReq :=
  { e := e, c := c, tag := ((d.grove g).ctx e c).cmd.tag, live := true, eaddr := eaddr,
    req := { via := .own, caddr := caddr, job := d.groveJob g, rtag := ((d.grove g).tagNext + k) % 65536, op := op,
             nlm1 := 0, atype := atype, sunit := 128 + g, mask := mask, srow := d.row, scol := d.col,
             epoch := d.sw.stamping, hops := 0, payload := payload } }

/-- The Canopy address of an engine address in an aperture. -/
def canopyAt (p : Part) (d : Dev) (gr : Grove) (a : Nat) : Option Nat :=
  match region p d gr a 1 with
  | some (.aperture k o) => some (apAddr gr k o)
  | _ => none

/-- The pieces of a write into an aperture, line by line: the line, the byte mask, the 64 bytes. -/
def writeLines (w : Wr) : List (Nat × Nat × List Byte) :=
  (linesOf w.addr w.data.length).map (fun l =>
    let bs := (List.range 64).map (fun i =>
      if w.addr ≤ l + i && l + i < w.addr + w.data.length then some (w.data.getD (l + i - w.addr) 0) else none)
    (l, (bs.zipIdx.foldl (fun m x => if x.1.isSome then m + 2 ^ x.2 else m) 0), bs.map (fun x => x.getD 0)))

/-- A write performed at once, into scratch, grove memory or the stacks. -/
def storeLocal (p : Part) (g e : Nat) (d : Dev) (w : Wr) : Dev :=
  let gr := d.grove g
  let clean := fun (o : Nat) (ws : List Nat) =>
    ws.filter (fun k => !(decide (o ≤ k * 8) && decide (k * 8 + 8 ≤ o + w.data.length)))
  match region p d gr w.addr w.data.length with
  | some (.scratch o) =>
    let o := e * 1048576 + o
    d.setGrove g { gr with scratch := gr.scratch.writeN 0#8 o w.data, scratchPoison := clean o gr.scratchPoison }
  | some (.grove o) => d.setGrove g { gr with gmem := gr.gmem.writeN 0#8 o w.data, poison := clean o gr.poison }
  | some (.stack o) => storeDev d o w.data
  | _ => d

/-- The Canopy requests of a step's writes. -/
def writeReqs (p : Part) (d : Dev) (g : Nat) (ws : List Wr) : List (Nat × Nat × Nat × List Byte) :=
  let gr := d.grove g
  ws.flatMap (fun w =>
    match canopyAt p d gr w.addr with
    | some _ => (writeLines w).map (fun l => (l.1, (canopyAt p d gr l.1).getD 0, l.2.1, l.2.2))
    | none => [])

/-- Lines a context holds for later steps, as a step's own Canopy writes leave them (R121). -/
def throughLines (p : Part) (d : Dev) (g : Nat) (ws : List Wr) (ls : List Line) : List Line :=
  (writeReqs p d g ws).foldl (fun ls y => ls.map (fun l =>
    if canopyAt p d (d.grove g) l.addr == some y.2.1 then
      { l with data := (List.range 64).map (fun i => if y.2.2.1.testBit i then y.2.2.2.getD i 0 else l.data.getD i 0) }
    else l)) ls

/-- A request of a context's command has not been sent: 1,024 are outstanding before it (R93). -/
def Grove.unsent (gr : Grove) (e c : Nat) : Bool := (gr.reqs.drop 1024).any (fun r => r.isOf e c)

/-- A step done: the writes, what it raised, the next indices. The last one leaves the context waiting for its writes; one
whose writes cannot all be sent yet waits in WAIT_DATA (R93). -/
def stepDone (p : Part) (d : Dev) (g e c : Nat) (r : StepRes) : Dev :=
  let reqs := (writeReqs p d g r.writes).zipIdx.map (fun y =>
    let full := y.1.2.2.1 = 2 ^ 64 - 1
    groveReq d g e c y.2 (if full then 0x02 else 0x03) y.1.1 y.1.2.1 0 (if full then 0 else y.1.2.2.1) y.1.2.2.2)
  let d1 := addTally (sendReqs (r.writes.foldl (storeLocal p g e) d) g reqs) r.tally
  let gr := d1.grove g
  let x := gr.ctx e c
  let n := x.steps + 1
  let done := decide (gr.steps x.cmd ≤ n)
  (d1.addUtil g 0 1).setGrove g (gr.setCtx e c { x with
    st := if gr.unsent e c then .waitData else if done then .waitWrite else .ready, steps := n,
    since := if x.st == .ready then x.since else d1.cycle,
    flags := x.flags ||| r.tally.flags, lines := if x.whole then throughLines p d g r.writes x.lines else [],
    idx := if done then x.idx else nextIdx (x.idx.zip ((List.range 6).map (levelCount gr x.cmd))),
    word := r.word.getD x.word, amax := magMax x.amax r.amax, holds := [] })

/-- A step done, with what the stack interface reports of its writes (R357). -/
def stepEnd (p : Part) (d : Dev) (g e c : Nat) (r : StepRes) : Dev :=
  (takeFlaws p (stepDone p d g e c r) (writeFlaws p d (d.grove g) r)).1

/-- The step that a context is about to take. -/
def stepOf (p : Part) (d : Dev) (g e c : Nat) : Stp :=
  let gr := d.grove g
  let x := gr.ctx e c
  let ad := fun k => operandAddr gr x.cmd e k x.idx
  ⟨p, d, g, e, c, x, gr.cvt x.cmd, gr.param x.cmd, ad 0, ad 1, ad 2, decide (gr.steps x.cmd ≤ x.steps + 1)⟩

/-- The first aperture line a step needs whose home cannot be reached (R335). -/
def deadLine (p : Part) (d : Dev) (g : Nat) (miss : List Nat) : Option Nat :=
  miss.find? (fun l => homeDead p d ((canopyAt p d (d.grove g) l).getD 0))

/-- A context waits in WAIT_DATA for aperture lines, whose reads are sent. -/
def askLines (p : Part) (d : Dev) (g e c : Nat) (miss : List Nat) : Dev :=
  let gr := d.grove g
  let d1 := d.setGrove g (gr.setCtx e c { gr.ctx e c with st := .waitData })
  sendReqs d1 g (miss.zipIdx.map (fun l => groveReq d g e c l.2 0x01 l.1 ((canopyAt p d gr l.1).getD 0) 0 0 []))

/-- A step whose reads meet its own command's earlier writes, still pending: the context waits in WAIT_DATA for them (R121). -/
def holdStep (d : Dev) (g e c : Nat) (ls : List Nat) : Dev :=
  let gr := d.grove g
  d.setGrove g (gr.setCtx e c { gr.ctx e c with st := .waitData, holds := ls })

/-- A step carried out, or its fault, or the Canopy reads it needs first (R91, R120, R121). A context whose own word, or a word
of whose body, was found uncorrectable faults with ECC (R78, R459). -/
def runStep (p : Part) (d : Dev) (g e c : Nat) (r : StepRes) : Dev :=
  let gr := d.grove g
  let x := gr.ctx e c
  if gr.ctxPoison.contains (e * 4096 + c) then
    ctxFault p (d.setGrove g { gr with ctxPoison := gr.ctxPoison.filter (· != e * 4096 + c) }) g e c 0x03 stCheckFail 0
  else if gr.bodyPoison x.cmd then ctxFault p d g e c 0x03 stCheckFail 0
  else
  match badOperand p d gr r with
  | some a => ctxFault p d g e c 0x02 stBadPointer a
  | none =>
    let miss := missingLines p d gr x r
    match deadLine p d g miss with
    | some l => ctxFault p d g e c 0x0B stFenced l
    | none =>
      if !(pendingLines p d gr e c r).isEmpty then holdStep d g e c (pendingLines p d gr e c r)
      else if !miss.isEmpty then askLines p d g e c miss
      else
        let y := readFlaws p gr d r.reads
        match y.2 <|> poisonOperand p y.1 gr e r with
        | some a => eccFault p y.1 g e c a.1 a.2
        | none =>
          match r.err with
          | some (code, st, a) => ctxFault p (if r.malformed then y.1.inc 0x4317 0 0 else y.1) g e c code st a
          | none =>
            match (writeReqs p d g r.writes).find? (fun y => homeDead p d y.2.1) with
            | some z => ctxFault p y.1 g e c 0x0B stFenced z.1
            | none => stepEnd p y.1 g e c r

/-- The READY context that an engine issues from: the one READY longest, and of those that became READY in one cycle the one of
the lowest number (R91). -/
def Grove.isNext (gr : Grove) (e c : Nat) : Bool :=
  let x := gr.ctx e c
  gr.ctxs.all (fun y => y.1 / 4096 != e || y.2.st != .ready || decide (x.since < y.2.since)
    || (x.since == y.2.since && decide (c ≤ y.1 % 4096)))

/-- The engine's next step is one of a context that runs opcode `opc`, sub-operation `sub` (any if none). -/
def canStep (d : Dev) (g e c opc : Nat) (sub : Option Nat) : Bool :=
  let gr := d.grove g
  let x := gr.ctx e c
  d.runs domArc && gr.phase == .running && !gr.paused && x.st == .ready && gr.isNext e c && gr.opc x.cmd = opc
    && (match sub with | some k => gr.sub x.cmd = k | none => true)

/-- A step of an engine command: `f` says what the step comes to. -/
def engineStep (g e c opc : Nat) (sub : Option Nat) (s : State) (f : Stp → StepRes) : Res :=
  liftAt s (decide (g < s.part.groves) && decide (e < 16) && decide (c < 4096)) fun p d =>
    if !canStep d g e c opc sub then d
    else runStep p d g e c (f (stepOf p d g e c))

/-- A context waits in WAIT_DATA for something other than Canopy answers: its window is open, or another operation holds
its scaling context (R46). R93 speaks only of all 64 windows open: a WOPEN that names a window which is open waits for that very
window, whether or not others are free (DESIGN CHOICE, log entry 122). -/
def heldUp (d : Dev) (g e c : Nat) : Bool :=
  let gr := d.grove g
  let x := gr.ctx e c
  if gr.opc x.cmd = 0x0A then (gr.wins.get none (bits (gr.param x.cmd) 0 6)).isSome
  else converts (gr.opc x.cmd) (gr.sub x.cmd) && (gr.opc x.cmd != 0x03 || decide (gr.sub x.cmd < 13)) && cvMode (gr.cvt x.cmd) = 3
    && x.xscale.isNone && (d.ctx (cvCtx (gr.cvt x.cmd))).busy

/-- A pending write of its own command that a context's next step waits for (R121). -/
def Grove.writesPending (gr : Grove) (e c : Nat) : Bool :=
  gr.reqs.any (fun q => q.isOf e c && (q.req.op == 2 || q.req.op == 3) && (gr.ctx e c).holds.contains q.req.caddr)

/-- OPERAND_ARRIVAL (R91): what a context waits for in WAIT_DATA is there; it becomes READY, or waits for its writes alone when
its steps are done. -/
def execOperandArrival (g e c : Nat) (s : State) : Res :=
  liftAt s (decide (g < s.part.groves) && decide (e < 16) && decide (c < 4096)) fun _ d =>
    let gr := d.grove g
    let x := gr.ctx e c
    let done := decide (gr.steps x.cmd ≤ x.steps)
    if d.runs domArc && gr.phase == .running && x.st == .waitData && !gr.unsent e c && (done || !heldUp d g e c)
        && !gr.reqs.any (fun r => r.isOf e c && (r.req.op == 0x01 || 0x10 ≤ r.req.op)) && !gr.writesPending e c then
      d.setGrove g (gr.setCtx e c { x with st := if done then .waitWrite else .ready, since := d.cycle, holds := [] })
    else d

/-! ### Completion (R125, R129, R130, R133) -/

/-- A remote flag increment sent (R125, R130): applied here, sent to its device, or discarded and reported here when no device
can be reached. -/
def signalFlag (p : Part) (d : Dev) (job word : Nat) : Dev :=
  let home := bits word 48 16
  let g := bits word 32 8
  let f := bits word 24 8
  if home = ownHome d then remoteSetHere p d (ownHome d) job g f
  else if home.testBit 15 || homeDead p d (home * 2 ^ 48) then
    emit (d.inc 0x4107 1 0) 0x4002 stOK 5 false 0x4107 1 (dataUN 2 g f 0 (ownHome d) home 0)
  else d.send (.remoteSet home job g f)

/-- The command signals a remote flag when it completes (R117, R125). -/
def signals (gr : Grove) (c : Cmd) : Bool := gr.opc c = 0x0D || (gr.opc c = 0x0C && (gr.param c).testBit 31)

/-- A command's completion. -/
def completeCtx (p : Part) (d : Dev) (g e c : Nat) : Dev :=
  let gr := d.grove g
  let x := gr.ctx e c
  let h := gr.head x.cmd
  let d1 := if h.testBit 10 then ringPut d g (record132 d x.flags 0 x.cmd.tag c e 0 stOK 0 0) else d
  let d2 := if h.testBit 9 then tracePut p d1 g x.cmd.tag e c 1 (x.steps % 2 ^ 32) else d1
  let gr2 := d2.grove g
  let gr3 := (if h.testBit 19 then gr2.localSet (bits h 11 8) else gr2).setCtx e c Ctx.free
  let d3 := d2.setGrove g gr3
  let d4 := match x.xscale with
    | some _ => storeHist p (freeScale d3 (cvCtx (gr.cvt x.cmd)) (some x.amax)) (cvCtx (gr.cvt x.cmd))
    | none => d3
  let d5 := if signals gr x.cmd then signalFlag p d4 (d4.groveJob g) x.word else d4
  settleEnd d5 g

/-- COMMAND_COMPLETE (R129): the last step is done and every write is acknowledged. A grove held for a checkpoint, a restore or a
substitution completes nothing until it goes on (R229, R234, R457). -/
def execCommandComplete (g e c : Nat) (s : State) : Res :=
  liftAt s (decide (g < s.part.groves) && decide (e < 16) && decide (c < 4096)) fun p d =>
    let gr := d.grove g
    let x := gr.ctx e c
    if d.runs domArc && !gr.paused && (gr.phase == .running || gr.phase == .halted)
        && (x.st == .waitWrite || (x.st == .waitData && decide (gr.steps x.cmd ≤ x.steps)))
        && !gr.reqs.any (fun r => r.isOf e c) then completeCtx p d g e c
    else d

/-! ### Delayed scaling of a command's output (R44-R49) -/

/-- The steps of a command from its first: the indices of each. -/
def allIdx : Nat → List Nat → List Nat → List (List Nat)
  | 0, _, _ => []
  | n + 1, counts, ix => ix :: allIdx n counts (nextIdx (ix.zip counts))

/-- The step of a command that starts at given indices. -/
def Stp.at_ (t : Stp) (ix : List Nat) : Stp :=
  let gr := t.d.grove t.g
  let ad := fun k => operandAddr gr t.x.cmd t.e k ix
  { t with x := { t.x with idx := ix }, a := ad 0, b := ad 1, dd := ad 2 }

/-- The indices of every step of the command a step belongs to. -/
def Stp.all (t : Stp) : List (List Nat) :=
  let gr := t.d.grove t.g
  allIdx (gr.steps t.x.cmd) ((List.range 6).map (levelCount gr t.x.cmd)) [0, 0, 0, 0, 0, 0]

/-- The aperture lines that the steps of a command need and that are not here, up to the first step that faults before it
reads. -/
def wholeMiss (f : Stp → StepRes) (t : Stp) : List (List Nat) → List Nat
  | [] => []
  | ix :: rest =>
    let gr := t.d.grove t.g
    let r := f (t.at_ ix)
    let miss := missingLines t.p t.d gr t.x r
    if (badOperand t.p t.d gr r).isSome || (deadLine t.p t.d t.g miss).isSome then [] else miss ++ wholeMiss f t rest

/-- A step that faults once its operands are in. -/
def faultsIn (p : Part) (d : Dev) (g e : Nat) (r : StepRes) : Bool :=
  (badOperand p d (d.grove g) r).isSome || (poisonOperand p d (d.grove g) e r).isSome || r.err.isSome

/-- The bytes that a step reads. -/
def Stp.inBytes (t : Stp) (r : StepRes) : List Byte := r.reads.flatMap (fun y => t.get y.addr y.len)

/-- What a command's output is measured to (R44): the exact values of its steps, each step seeing the writes of the steps before
it (R121), up to the first that faults; the bytes its steps read; and whether a step reads what an earlier step delivered, so
that the values depend on the scale themselves. `out` are the ranges delivered so far. -/
def wholeRun (vals : Stp → List Num) (f : Stp → StepRes) : Stp → List (Nat × Nat) → List (List Nat) → List Num × List Byte × Bool
  | _, _, [] => ([], [], false)
  | t, out, ix :: rest =>
    let u := t.at_ ix
    let r := f u
    if faultsIn t.p t.d t.g t.e r then ([], [], false)
    else
      let back := r.reads.any (fun y => out.any (fun o => decide (y.addr < o.1 + o.2) && decide (o.1 < y.addr + y.len)))
      let x := { t.x with lines := throughLines t.p t.d t.g r.writes t.x.lines }
      let d := r.writes.foldl (storeLocal t.p t.g t.e) t.d
      let d := d.setGrove t.g ((d.grove t.g).setCtx t.e t.c x)
      let out := (r.writes.filter (fun w => w.kind != 3)).map (fun w => (w.addr, w.data.length)) ++ out
      let m := wholeRun vals f { t with d := d, x := x } out rest
      (vals u ++ m.1, u.inBytes r ++ m.2.1, back || m.2.2)

/-- The words of a command's body. -/
def Stp.body (t : Stp) : List Nat :=
  let gr := t.d.grove t.g
  (List.range (5 + 2 * gr.levels t.x.cmd)).map (gr.bw t.x.cmd)

/-- The scale byte of a command's output on first use, measured (R44). Where a step reads what an earlier step of the command
delivered, the measured values depend on the scale they set, and the spec states no scale: a free value of the body and the
operands (log entry 29). -/
def measuredScale (vals : Stp → List Num) (f : Stp → StepRes) (t : Stp) (init m : Nat) : Nat :=
  let r := wholeRun vals f t [] t.all
  if r.2.2 then Config.outputScale t.body r.2.1 % 255
  else delayedScale (fmtOf (cvFmt t.cvt)) m init (amaxOf (r.1.filter Num.isFin))

/-- The command's output is to be measured: the first use of its scaling context, with INIT_MODE 0 (R44). -/
def measures (t : Stp) : Bool := (t.d.ctx (cvCtx t.cvt)).hist.isEmpty && !(t.d.rd 0x4300 1 (cvCtx t.cvt)).testBit 29

/-- The scaling context of a command with SCALE_MODE 3 taken at its first step, once what that step needs is there (R44, R46, R49;
when a stream command is admitted to its context is the model's choice, log entry 123): `vals` gives one step's exact
values, `f` what a step comes to. -/
def takeScale (t : Stp) (vals : Stp → List Num) (f : Stp → StepRes) : Dev :=
  let gr := t.d.grove t.g
  let n := cvCtx t.cvt
  let k := t.d.ctx n
  let r := t.d.rd 0x4300 1 n
  let init := bits r 40 8
  let m := bits r 32 4
  let sc :=
    if measures t then measuredScale vals f t init m
    else match k.hist with
      | [] => init
      | hs => delayedScale (fmtOf (cvFmt t.cvt)) m init (hs.foldl magMax (0, 1))
  ((noteNamed t.d (t.d.groveJob t.g) n).setCtx n { k with busy := true }).setGrove t.g
    (gr.setCtx t.e t.c { t.x with xscale := some sc })

/-- A step of a command that may deliver under delayed scaling. Its first step takes the scaling context: the command waits
while another operation holds it (R46), and, when its output is measured, for the operands of all its steps (R44). R46 does not
say when a stream command is admitted to its context: here it is at its first step, once the operands are at hand, and until
then another operation may take the context (DESIGN CHOICE, log entry 123). -/
def scaledStep (g e c opc : Nat) (sub : Option Nat) (s : State) (vals : Stp → List Num) (f : Stp → StepRes) : Res :=
  liftAt s (decide (g < s.part.groves) && decide (e < 16) && decide (c < 4096)) fun p d =>
    if !canStep d g e c opc sub then d
    else
      let t := stepOf p d g e c
      let r := f t
      let gr := d.grove g
      if cvMode t.cvt != 3 || t.x.xscale.isSome || gr.ctxPoison.contains (e * 4096 + c) || gr.bodyPoison t.x.cmd
          || (badOperand p d gr r).isSome || (deadLine p d g (missingLines p d gr t.x r)).isSome
          || !(pendingLines p d gr e c r).isEmpty then
        runStep p d g e c r
      else if (d.ctx (cvCtx t.cvt)).busy then d.setGrove g (gr.setCtx e c { t.x with st := .waitData })
      else
        let miss := if measures t then (wholeMiss f t t.all).eraseDups else missingLines p d gr t.x r
        if !miss.isEmpty then
          askLines p (d.setGrove g (gr.setCtx e c { t.x with whole := measures t })) g e c miss
        else
          let y := checkReads p d [histRange p d (cvCtx t.cvt)]
          match y.2 with
          | some a => ctxFault p (poisonEvent p y.1 a 3 0) g e c 0x03 stCheckFail (0x4000000000 + a)
          | none =>
            let d1 := takeScale (stepOf p y.1 g e c) vals f
            runStep p d1 g e c (f (stepOf p d1 g e c))

end Sys2Proof.Machine
end

