-- ==== Sys2Proof/Machine/Buffer.lean ====
section
/-! DEFINITION. The packet buffer: cells, owner records, admission of frame copies to egress queues, credit and PAUSE withheld
on the arrival link (spec/09_buffers_and_slots.md R238-R248, spec/10_ports_and_links.md R281, R294). -/

namespace Sys2Proof.Machine

/-! ### Links as the buffer sees them -/

/-- A link's counter of R298 advanced. -/
def linkCtr (d : Dev) (n k : Nat) (by_ : Nat := 1) : Dev :=
  let l := d.link n
  d.setLink n { l with ctr := l.ctr.set 0 k ((l.ctr.get 0 k + by_) % 2 ^ 64) }

/-- A link runs Ethernet (R267). -/
def isEthernet (d : Dev) (n : Nat) : Bool := d.linkMode n = 2 || d.linkMode n = 3

/-- The egress queue of a copy on a link: by VC on an LFP link (R300), by PCP on an Ethernet link (R301). -/
def queueOf (d : Dev) (n : Nat) (f : Frame) : Nat :=
  if isEthernet d n then bits (d.rd 0x3100 1 n) (8 * (f.rclass % 8)) 8 else bits (d.rd 0x3100 0 n) (8 * (f.vc % 8)) 8

/-- The cells of so many bytes (R240). -/
def cellsFor (bytes : Nat) : Nat := ceilDiv bytes 256

/-- Bytes of a frame (R271): header and payload, or the Ethernet frame alone. -/
def copyBytes (c : Copy) : Nat := if c.eth then c.f.payload.length else 64 + c.f.payload.length

/-! ### Cells (R238-R245) -/

/-- Free cells (R241, R248, R263). -/
def bufFree (d : Dev) : Nat := 2097152 - d.buf.cells.length - d.buf.retired.length

/-- The lowest-numbered free cell of a bank (R240). -/
def lowestFree (d : Dev) (bank : Nat) : Option Nat :=
  let inBank := fun (x : Nat) => decide (bank * 65536 ≤ x) && decide (x < (bank + 1) * 65536)
  let used := (d.buf.cells.keys ++ d.buf.retired).filter inBank
  ((List.range (used.length + 1)).map (bank * 65536 + ·)).find? (fun x => inBank x && !used.contains x)

/-- A cell from the first of `fuel` banks from `bank` on that has one, and the bank it came from. -/
def allocFrom (d : Dev) : Nat → Nat → Option (Nat × Nat)
  | 0, _ => none
  | fuel + 1, bank =>
    match lowestFree d (bank % 32) with
    | some c => some (c, bank % 32)
    | none => allocFrom d fuel (bank + 1)

/-- `n` cells taken one by one from `bank` on, each with ingress as its holder (R240, R243); the bank pointer after them. -/
def allocCells : Nat → Dev → Nat → Option (List Nat × Nat × Dev)
  | 0, d, bank => some ([], bank, d)
  | n + 1, d, bank =>
    match allocFrom d 32 bank with
    | none => none
    | some (c, b) =>
      let d1 := { d with buf := { d.buf with cells := d.buf.cells.put c ⟨2 ^ 163, false, false⟩ } }
      match allocCells n { d1 with buf := { d1.buf with lwm := min d1.buf.lwm (bufFree d1) } } ((b + 1) % 32) with
      | none => none
      | some (cs, bank', d2) => some (c :: cs, bank', d2)

/-- The cells of a frame that arrives on a link, by its port group's bank pointer (R240); a frame the device builds itself
starts at a bank the spec leaves open (a free value). -/
def allocFrame (d : Dev) (arr : Option Nat) (n : Nat) : Option (List Nat × Dev) :=
  match arr with
  | some l =>
    let pg := l / 8
    match allocCells n d (d.buf.bankPtr.get (2 * pg) pg) with
    | none => none
    | some (cs, b, d1) => some (cs, { d1 with buf := { d1.buf with bankPtr := d1.buf.bankPtr.set (2 * pg) pg b } })
  | none =>
    match allocCells n d.draw.2 (d.draw.1 % 32) with
    | none => none
    | some (cs, _, d1) => some (cs, d1)

/-- A use of a reference that fails its check (R239): counted, and an event that names the reference and the unit. -/
def badUse (d : Dev) (h c : Nat) : Dev :=
  emit (d.inc 0x3003 2 0) 0x3001 stBadPointer 5 false 0x3003 2 (dataUN 5 h 0 0 (c * 256) 0 0)

/-- The first of some cells that a read may not use: it is free or retired (R239). -/
def badRef (d : Dev) (cells : List Nat) : Option Nat := cells.find? (fun c => (d.buf.cells.find? c).isNone)

/-- One cell's owner record changed by a holder that takes it (R239, R243). -/
def holdCell (h : Nat) (d : Dev) (c : Nat) : Dev :=
  match d.buf.cells.find? c with
  | some r => { d with buf := { d.buf with cells := d.buf.cells.put c { r with owners := putBit r.owners h true } } }
  | none => badUse d h c

/-- The holder bits of cells set (R243, R244). -/
def holdCells (d : Dev) (cells : List Nat) (h : Nat) : Dev := cells.foldl (holdCell h) d

/-- A cell freed: back to its bank's bitmap, or retired when it had failed (R241); a leak record of it goes (R250). -/
def freeCell (d : Dev) (c : Nat) (r : CellRec) : Dev :=
  { d with buf := { d.buf with cells := d.buf.cells.erase c, leaks := d.buf.leaks.filter (fun x => x.cell != c),
                               suspects := d.buf.suspects.filter (· != c), atStart := d.buf.atStart.filter (· != c),
                               headroomUsed := d.buf.headroomUsed - b2n r.head,
                               retired := if r.bad then c :: d.buf.retired else d.buf.retired } }

/-- A cell that returned an uncorrectable error is marked: it is retired when its last holder releases it (R241). -/
def failCell (d : Dev) (c : Nat) : Dev :=
  match d.buf.cells.find? c with
  | none => d
  | some r => { d with buf := { d.buf with cells := d.buf.cells.put c { r with bad := true } } }

/-- A cell has returned an uncorrectable error. -/
def cellBad (d : Dev) (c : Nat) : Bool := match d.buf.cells.find? c with | some r => r.bad | none => false

/-- A release by holder `h` (R239, R244). One of a cell whose bit a reclaim has taken from `h` is a mismatch (R252). -/
def releaseCell (h : Nat) (d : Dev) (c : Nat) : Dev :=
  let mismatch := { d with buf := { d.buf with reclaimed := d.buf.reclaimed.filter (· != (c, h)) } }.inc 0x3003 3 0
  match d.buf.cells.find? c with
  | none => if d.buf.reclaimed.contains (c, h) then mismatch else badUse d h c
  | some r =>
    if !r.owners.testBit h then mismatch
    else
      let o := putBit r.owners h false
      if o = 0 then freeCell d c r else { d with buf := { d.buf with cells := d.buf.cells.put c { r with owners := o } } }

/-! ### The free share (R246, R247) -/

/-- The cells of the frame that ingress is deciding. -/
def arrivingCells (d : Dev) : List Nat := match d.buf.arriving with | some x => x.1 | none => []

/-- Headroom cells in use, those of the frame being decided apart. -/
def headroomHeld (d : Dev) : Nat :=
  d.buf.headroomUsed - ((arrivingCells d).filter (fun c => match d.buf.cells.find? c with | some r => r.head | none => false)).length

/-- The free share F, taken before the cells of the frame being decided are allocated (R246, R247): free cells less the headroom
cells not in use. -/
def freeShare (d : Dev) : Nat := bufFree d + (arrivingCells d).length - (d.rd 0x3001 0 0 - headroomHeld d)

/-- `q` cells are at most α times F for the class of an egress queue (R246, R247). -/
def withinShare (d : Dev) (n q cells : Nat) : Bool :=
  let cls := bits (d.rd 0x3002 1 n) (8 * q) 8
  let a := toSigned 8 (d.rd 0x3002 0 cls)
  if 0 ≤ a then decide (cells ≤ freeShare d * 2 ^ a.toNat) else decide (cells * 2 ^ (-a).toNat ≤ freeShare d)

/-- What admission decides for one copy. -/
inductive Admit where
  | share | headroom | lossyDrop | losslessDrop
  deriving DecidableEq, Repr

/-- The decision for a copy that is charged `c` cells in queue `q` of link `n` (R247): a frame that found no cell is dropped. -/
def admitAs (d : Dev) (n q c : Nat) (lossless : Bool) : Admit :=
  if (arrivingCells d).isEmpty then (if lossless then .losslessDrop else .lossyDrop)
  else if withinShare d n q ((d.eq n q).charged + c) then .share
  else if lossless then .headroom else .lossyDrop

/-- A lossless copy or a chunk that found no cell (R247). -/
def headroomDrop (d : Dev) (arr : Option Nat) (vc : Nat) : Dev :=
  emit (d.inc 0x3003 1 0) 0x3002 stOK 5 false 0x3003 1 (dataUN 1 (arr.getD 0xFFFF) vc 0 0 0 0)

/-! ### Credit and PAUSE withheld (R247, R281, R294) -/

/-- The key of what a link withholds: its VC on an LFP link, 8 plus the priority on an Ethernet link. -/
def heldKey (d : Dev) (arr pcp : Nat) (f : Frame) : Nat := if isEthernet d arr then 8 + pcp % 8 else f.vc

/-- Credits returned on an LFP link (R276, R281): the running totals advance and the new totals are sent. -/
def returnCredits (d : Dev) (arr vc floor shared : Nat) : Dev :=
  let l := d.link arr
  let add := fun (t : Tbl Nat) (pool n : Nat) => t.set 0 (vc * 2 + pool) ((t.get 0 (vc * 2 + pool) + n) % 2 ^ 24)
  let t := add (add l.credRet 0 floor) 1 shared
  let word := fun (pool : Nat) => pack [(0, 24, t.get 0 (vc * 2 + pool)), (47, 1, pool), (48, 3, vc)]
  let d1 := d.setLink arr { l with credRet := t, drawn := l.drawn.set 0 vc (l.drawn.get 0 vc - floor) }
  let d2 := if floor = 0 then d1 else d1.send (.control arr 3 (word 0))
  if shared = 0 then d2 else d2.send (.control arr 3 (word 1))

/-- A PFC frame sent for a priority (R294): pause time 0xFFFF while withholding, 0 on release. -/
def sendPfc (d : Dev) (arr prio time : Nat) : Dev := linkCtr (d.send (.pfc arr prio time)) arr 13

/-- The arrival link withholds credit or sends XOFF because of queue `q` of link `n` (R247, R281, R294). -/
def withhold (d : Dev) (arr key n q : Nat) : Dev :=
  let l := d.link arr
  let k := l.credKept.get [] key
  let k' := if k.isEmpty then [0, 0] else k
  let entry := if (k'.drop 2).contains (n * 16 + q) then k' else k' ++ [n * 16 + q]
  let d1 := d.setLink arr { l with credKept := l.credKept.set [] key entry }
  if 8 ≤ key && !l.xoff.testBit (key - 8) then
    sendPfc (d1.setLink arr { d1.link arr with xoff := putBit l.xoff (key - 8) true }) arr (key - 8) 0xFFFF
  else d1

/-- What one link keeps for one VC or priority released, once no queue holds it back. -/
def releaseKept (d : Dev) (arr key : Nat) (k : List Nat) : Dev :=
  let l := d.link arr
  let d1 := d.setLink arr { l with credKept := l.credKept.set [] key [] }
  if key < 8 then returnCredits d1 arr key (k.getD 0 0) (k.getD 1 0)
  else sendPfc (d1.setLink arr { d1.link arr with xoff := putBit l.xoff (key - 8) false }) arr (key - 8) 0

/-- What one cause held back moves again on every link (R247, R281): a cause is a queue, link * 16 + queue, or 100,000 for VC1
requests held across a swap (R331). -/
def unhold (d : Dev) (cause : Nat) : Dev :=
  d.sw.links.keys.foldl (fun d arr =>
    ((d.link arr).credKept.filter (fun x => (x.2.drop 2).contains cause)).foldl (fun d x =>
      let k := x.2.take 2 ++ (x.2.drop 2).filter (· != cause)
      if (k.drop 2).isEmpty then releaseKept d arr x.1 k
      else d.setLink arr { d.link arr with credKept := (d.link arr).credKept.set [] x.1 k }) d) d

/-- The queues because of which some link withholds. -/
def holdingQueues (d : Dev) : List Nat :=
  ((d.sw.links.flatMap (fun l => l.2.credKept.flatMap (fun k => k.2.drop 2))).eraseDups).filter (fun c => decide (c < 2048))

/-- Withholding ends for every queue that is again below its threshold (R247, R281). -/
def settleWithheld (d : Dev) : Dev :=
  (holdingQueues d).foldl (fun d c =>
    if withinShare d (c / 16) (c % 16) ((d.eq (c / 16) (c % 16)).charged + 1) then unhold d c else d) d

/-- Cells released by a holder; thresholds are looked at again, as F has grown. -/
def releaseCells (d : Dev) (h : Nat) (cells : List Nat) : Dev := settleWithheld (cells.foldl (releaseCell h) d)

/-- Floor credits among the `c` that an arriving frame of a VC has drawn: the peer draws first from the floor that this end
advertised and has not been drawn yet (R281). -/
def floorDrawn (d : Dev) (arr vc c : Nat) : Nat :=
  min c ((d.link arr).advert.get 0 vc - (d.link arr).drawn.get 0 vc)

/-- Those floor credits noted as drawn. -/
def noteDrawn (d : Dev) (arr vc c : Nat) : Dev :=
  let l := d.link arr
  d.setLink arr { l with drawn := l.drawn.set 0 vc (l.drawn.get 0 vc + floorDrawn d arr vc c) }

/-- The credits of a frame of `c` cells, `floor` of them drawn from the floor, given back to their pools when its first holder has
its cells, or kept while the VC's credit is withheld (R281). The receiver takes every return as arrived (log entry 43). -/
def giveCredit (d : Dev) (arr vc floor c : Nat) : Dev :=
  let l := d.link arr
  let k := l.credKept.get [] vc
  if k.isEmpty then returnCredits d arr vc floor (c - floor)
  else
    d.setLink arr { l with credKept := l.credKept.set [] vc ((k.getD 0 0 + floor) :: (k.getD 1 0 + (c - floor)) :: k.drop 2) }

/-! ### A frame at ingress (R243, R247) -/

/-- Ingress decides a frame whose cells it holds, `f` placing its copies; then its bit is cleared and the credits due are given,
unless `f` has left the frame with ingress. -/
def withFrame (d : Dev) (arr : Option Nat) (vc c : Nat) (cells : List Nat) (owed : Option Nat) (f : Dev → Dev) : Dev :=
  let d1 := f { d with buf := { d.buf with arriving := some (cells, owed) } }
  let d2 := match d1.buf.arriving with
    | none => d1
    | some x =>
      let d2 := releaseCells { d1 with buf := { d1.buf with arriving := none } } 163 x.1
      match arr, x.2 with
      | some a, some fl => giveCredit d2 a vc fl c
      | _, _ => d2
  { d2 with buf := { d2.buf with arriving := d.buf.arriving } }

/-- A frame of so many bytes at ingress: its cells are allocated, and `f` decides it (R240, R243). -/
def ingress (d : Dev) (arr : Option Nat) (vc bytes : Nat) (owed : Option Nat) (f : Dev → Dev) : Dev :=
  match allocFrame d arr (cellsFor bytes) with
  | some (cells, d1) => withFrame d1 arr vc (cellsFor bytes) cells owed f
  | none => withFrame d arr vc (cellsFor bytes) [] owed f

/-- The cells of the frame being decided, taken over from ingress's present decision: those it has, or new ones when it passes the
frame to a unit that keeps no cells. None: there is no free cell. -/
def takeArriving (d : Dev) (arr : Option Nat) (bytes : Nat) : Option (List Nat × Option Nat × Dev) :=
  match d.buf.arriving with
  | some (c :: cs, owed) => some (c :: cs, owed, { d with buf := { d.buf with arriving := none } })
  | some ([], owed) =>
    (allocFrame d arr (cellsFor bytes)).map (fun x => (x.1, owed, { x.2 with buf := { x.2.buf with arriving := none } }))
  | none => (allocFrame d arr (cellsFor bytes)).map (fun x => (x.1, none, x.2))

/-- The frame being decided stays with ingress: the copy that stands for it, and the device; none when it has no cells. -/
def keepFrame (d : Dev) (arr : Option Nat) (f : Frame) : Option (Copy × Dev) :=
  (takeArriving d arr (64 + f.payload.length)).map (fun x => (⟨f, false, x.1, 0, false, d.tick, arr, false, x.2.1⟩, x.2.2))

/-- The cells of a list that are held at all. -/
def heldOf (d : Dev) (cells : List Nat) : List Nat := cells.filter (fun c => (d.buf.cells.find? c).isSome)

/-- A frame that ingress has kept is decided now; one of which a reference fails its check is discarded (R239). -/
def resumeFrame (d : Dev) (x : Copy) (f : Dev → Dev) : Dev :=
  let c := cellsFor (64 + x.f.payload.length)
  match badRef d x.cells with
  | some k => withFrame (badUse d 163 k) x.fromLink x.f.vc c (heldOf d x.cells) x.owed id
  | none => withFrame d x.fromLink x.f.vc c x.cells x.owed f

/-! ### Eligibility (R304, R307, R308) -/

/-- Bytes of a copy with LEN_OVERHEAD of its link (R305). -/
def effLen (d : Dev) (n : Nat) (x : Copy) : Nat := copyBytes x + d.rd 0x3101 2 n

/-- RATE and BURST of a queue's shaper (R314). -/
def shapeRate (d : Dev) (n q : Nat) : Nat := bits (d.rd 0x3101 1 n) (64 * q + 40) 24
def shapeBurst (d : Dev) (n q : Nat) : Nat := bits (d.rd 0x3101 1 n) (64 * q + 20) 20

/-- What a bucket lacks to be full now, in 1/21,600 byte: RATE Mb/s is RATE of them in each period of the ARC clock's source
(R308). In fixed-cycle mode no bucket changes (R312). -/
def bucketDebt (d : Dev) (n q : Nat) : Nat :=
  let e := d.eq n q
  if d.inFcm then e.debt else e.debt - shapeRate d n q * (d.tick - e.debtAt)

/-- The shaper is in deficit (R308). -/
def inDeficit (d : Dev) (n q : Nat) : Bool :=
  shapeRate d n q != 0 && decide (shapeBurst d n q * 21600 < bucketDebt d n q)

/-- An LFP link holds the credits of a frame (R281). -/
def hasCredit (l : Link) (f : Frame) : Bool :=
  f.vc = 7 || decide (cellsFor (64 + f.payload.length) ≤ l.credFloor.get 0 f.vc + l.credShared)

/-- A queue is eligible (R304); in fixed-cycle mode no shaper counts (R312). -/
def queueElig (d : Dev) (n q : Nat) : Bool :=
  let l := d.link n
  match (d.eq n q).fifo with
  | [] => false
  | x :: _ =>
    (if isEthernet d n then !l.paused.testBit (x.f.rclass % 8) else hasCredit l x.f) && (d.inFcm || !inDeficit d n q)

/-- A link's scheduler, and one changed. -/
def Dev.sched (d : Dev) (n : Nat) : Sched := d.sw.scheds.get Sched.init n
def Dev.setSched (d : Dev) (n : Nat) (x : Sched) : Dev := { d with sw := { d.sw with scheds := d.sw.scheds.set Sched.init n x } }

/-- The queue with the smallest start tag, the lowest number on a tie. -/
def minTag (d : Dev) (n : Nat) : List Nat → Option Nat
  | [] => none
  | q :: qs =>
    match minTag d n qs with
    | none => some q
    | some r => if (d.eq n r).s < (d.eq n q).s then some r else some q

/-- QCFG fields of a queue (R313). -/
def qcfg (d : Dev) (n q : Nat) : Nat := bits (d.rd 0x3101 0 n) (64 * q) 64
def qWeight (d : Dev) (n q : Nat) : Nat := bits (qcfg d n q) 56 8
def qBurst (d : Dev) (n q : Nat) : Nat := bits (qcfg d n q) 24 24
def qAge (d : Dev) (n q : Nat) : Nat := bits (qcfg d n q) 0 24

/-- The tag at a wake when the virtual time is `v` (R307). -/
def wakeTag (d : Dev) (n q v : Nat) : Nat :=
  let s := (d.eq n q).s
  if (qcfg d n q).testBit 55 then max s v else max s (v - ceilDiv (qBurst d n q * 65536) (qWeight d n q))

/-- One queue brought up to date: the time it stood ineligible counted, its eligibility noted, its tag set when it wakes. -/
def noteElig (n : Nat) (wake : Option Nat) (d : Dev) (q : Nat) : Dev :=
  let e := d.eq n q
  let now := queueElig d n q
  if e.fifo.isEmpty && !e.elig then d
  else
    let e1 := { e with elig := now, stall := if e.fifo.isEmpty || e.elig then e.stall else e.stall + (d.tick - e.stallAt), stallAt := d.tick }
    d.setEq n q (match wake with
      | some v => if now && !e.elig && 2 ≤ q then { e1 with s := wakeTag d n q v } else e1
      | none => e1)

/-- The queues of a link brought up to date (R304, R307, R310): all that wake now use the same virtual time, and a promotion
lapses when its queue is ineligible. In fixed-cycle mode no tag changes (R312). -/
def settleElig (d : Dev) (n : Nat) : Dev :=
  let sc := d.sched n
  let standing := ((List.range 16).drop 2).filter (fun q => (d.eq n q).elig && queueElig d n q)
  let v := match minTag d n standing with | some q => (d.eq n q).s | none => sc.v
  let d1 := (List.range 16).foldl (noteElig n (if d.inFcm then none else some v)) d
  match sc.promoted with
  | some x => if queueElig d1 n x.1 then d1 else d1.setSched n { sc with promoted := none }
  | none => d1

/-- The cells of a copy drawn from headroom are marked, each once (R247). -/
def markHead (d : Dev) (c : Nat) : Dev :=
  match d.buf.cells.find? c with
  | none => d
  | some r =>
    if r.head then d
    else { d with buf := { d.buf with cells := d.buf.cells.put c { r with head := true }, headroomUsed := d.buf.headroomUsed + 1 } }

/-- A copy at the end of an egress queue (R311). -/
def queueCopy (d : Dev) (n q : Nat) (x : Copy) : Dev :=
  let e := d.eq n q
  settleElig (d.setEq n q { e with fifo := e.fifo ++ [x], stallAt := if e.fifo.isEmpty then d.tick else e.stallAt }) n

/-- A copy placed in an egress queue, its cells held by the link (R243, R247, R311); one of which a reference fails its check is
discarded (R239). -/
def placeCopy (d : Dev) (n q : Nat) (x : Copy) : Dev :=
  match badRef d x.cells with
  | some k => badUse d n k
  | none =>
    let d1 := holdCells d x.cells n
    let d2 := if x.headroom then x.cells.foldl markHead d1 else d1
    let e := d2.eq n q
    queueCopy (d2.setEq n q { e with charged := e.charged + x.charge, depthMark := max e.depthMark (e.charged + x.charge) }) n q x

/-- The frames that stand apart until their turn: in the resequencers, and before their release in fixed-cycle mode (R222, R284). -/
def heldPlaces (d : Dev) : List Place := d.sw.streams.flatMap (fun s => s.2.held) ++ d.sw.fcmHeld.map (fun x => x.2.2)

/-- The copies that a place holds, each with its holder: the frame, by its arrival link, and what was decided (R242). -/
def placeCopies (y : Place) : List (Nat × Copy) :=
  (match y.frame with | some x => [(x.fromLink.getD 163, x)] | none => []) ++ y.copies.map (fun x => (x.1 / 16, x.2))

/-- The cells that a link holds: of the copies in its queues, kept for replay, or decided for it, and of the frames that it keeps
until their turn (R242). -/
def linkCells (d : Dev) (n : Nat) : List Nat :=
  ((List.range 16).flatMap (fun q => (d.eq n q).fifo.flatMap (fun x => x.cells)))
    ++ (d.link n).replay.flatMap (fun s => s.copy.cells) ++ (d.link n).resend.flatMap (fun x => x.cells)
    ++ (heldPlaces d).flatMap (fun y => ((placeCopies y).filter (fun x => x.1 = n)).flatMap (fun x => x.2.cells))

/-- Cells released by a link: a holder holds a cell at most once, so those that another of its copies names stay (R242). -/
def releaseLink (d : Dev) (n : Nat) (cells : List Nat) : Dev :=
  releaseCells d n (cells.filter (fun c => !(linkCells d n).contains c))

/-- A copy that the link names no longer: its queue is charged no longer, and its cells are released (R244, R247). -/
def releaseCopy (d : Dev) (n q : Nat) (x : Copy) : Dev :=
  let e := d.eq n q
  releaseLink (d.setEq n q { e with charged := e.charged - x.charge }) n x.cells

/-- A copy, taken off its list, of which a reference fails its check: discarded, and the rest of its cells released (R239). -/
def discardCopy (d : Dev) (n q c : Nat) (x : Copy) : Dev := releaseCopy (badUse d n c) n q { x with cells := heldOf d x.cells }

/-- What a place holds, taken off its list, released: the frame is discarded. -/
def dropPlace (d : Dev) (y : Place) : Dev :=
  let d1 := y.copies.foldl (fun d x => releaseCopy d (x.1 / 16) (x.1 % 16) x.2) d
  match y.frame with
  | some x => releaseLink d1 (x.fromLink.getD 163) x.cells
  | none => d1

/-- The head age of an egress queue in ns (R310): 0 when empty. -/
def headAge (d : Dev) (q : EQueue) : Nat := match q.fifo with | x :: _ => (d.tick - x.t) * 10 / 27 | [] => 0

/-- Every copy of the frame that ingress is deciding, decided and placed (R243, R247). `arr` is the arrival link, none for a frame
that the device builds; `lossless` says how a copy that is not admitted is treated; each destination is a link with the frame
as that link sends it; `pcp` is the priority of a frame that came on an Ethernet link. -/
def admitCopies (d : Dev) (arr : Option Nat) (lossless : Bool) (charge : Nat) (dests : List (Nat × Bool × Frame))
    (pcp : Nat := 0) : Dev :=
  let how := dests.map (fun x => (x, queueOf d x.1 x.2.2, admitAs d x.1 (queueOf d x.1 x.2.2) charge lossless))
  let cells := arrivingCells d
  how.foldl (fun d x =>
    let (n, eth, f) := x.1
    match x.2.2 with
    | .lossyDrop => d.inc 0x3003 0 0
    | .losslessDrop => headroomDrop d arr f.vc
    | a =>
      let y := placeCopy d n x.2.1 ⟨f, eth, cells, charge, a == .headroom, d.tick, arr, false, none⟩
      match arr with
      | some l => if a == .headroom then withhold y l (heldKey d l pcp f) n x.2.1 else y
      | none => y) d

/-- A frame that a unit of this device serves within the command: while it is served the unit holds its cells as well, 161 for the
management processor and 162 for the Canopy engine (R242, log entry 108). A frame of the device's own has no cells of this kind. -/
def serveAt (h : Nat) (d : Dev) (arr : Option Nat) (vc bytes : Nat) (f : Dev → Dev) : Dev :=
  match arr with
  | none => f d
  | some _ =>
    ingress d arr vc bytes none (fun d => releaseCells (f (holdCells d (arrivingCells d) h)) h (arrivingCells d))

/-! ### Fixed-cycle mode (R222) -/

/-- The crossbar cycle, counted from the entry to fixed-cycle mode: crossbar cycles run at two thirds of the ARC clock (log entry
63). -/
def fcmXbar (d : Dev) : Nat := (d.cycle - d.modes.fcmEntry) * 2 / 3

/-- ARC cycles since the entry, modulo 2^32, as STAMP counts them (R272). -/
def fcmNow (d : Dev) : Nat := (d.cycle + 2 ^ 64 - d.modes.fcmEntry) % 2 ^ 32

/-- ARC cycles by which a frame's release cycle lies back, FCM_LINK_LEAD after its STAMP, modulo 2^32 (R222). -/
def fcmPast (d : Dev) (f : Frame) : Nat := (fcmNow d + 2 ^ 33 - f.stamp - d.modes.fcmLead) % 2 ^ 32

/-- The release cycle has come. -/
def fcmDue (d : Dev) (f : Frame) : Bool := decide (fcmPast d f < 2 ^ 31)

/-- The release cycle has passed. -/
def fcmLate (d : Dev) (f : Frame) : Bool := fcmDue d f && fcmPast d f != 0

end Sys2Proof.Machine
end

