-- ==== Sys2Proof/Machine/LinkOps.lean ====
section
/-! DEFINITION. Links as levels and as members of bundles: LINK_STATE and its events, the frames kept when a link leaves UP, stored
coefficients (spec/10_ports_and_links.md R286-R292, R491, spec/16_dictionary_reference.md R425, R426,
spec/17_startup_and_security.md R437). -/

namespace Sys2Proof.Machine

/-- State codes (R287). -/
def LSt.code : LSt → Nat
  | .disabled => 0 | .training => 1 | .qualifying => 2 | .handshake => 3 | .up => 4 | .degraded => 5 | .failed => 7

/-- A fence or a role mismatch stands over a link (R491). -/
def Link.isFenced (l : Link) : Bool := l.fenced || l.peerFenced.isSome || l.roleFenced

/-- The state that LINK_STATE reports (R491). -/
def Link.shown (l : Link) : Nat := if l.isFenced then 6 else l.st.code

/-- The underlying link is UP or DEGRADED. -/
def Link.live (l : Link) : Bool := l.st == .up || l.st == .degraded

/-- The link carries frames. -/
def Link.carries (l : Link) : Bool := l.live && !l.isFenced

/-- FAILED, DISABLED or FENCED (R322, R328). -/
def Link.dead (l : Link) : Bool := l.isFenced || l.st == .failed || l.st == .disabled

/-- The lanes-active byte. -/
def Link.lanes (l : Link) : Nat := l.rxLanes + 16 * l.txLanes

/-- The LINK_STATE record (R297). -/
def Link.record (l : Link) : Nat :=
  pack [(0, 8, l.shown), (8, 8, l.lanes), (16, 8, l.order), (24, 8, l.polarity), (32, 32, l.peer)]

/-- The peer's row, column and plane as received. -/
def Link.peerRow (l : Link) : Nat := bits l.peer 0 8
def Link.peerCol (l : Link) : Nat := bits l.peer 8 8
def Link.peerPlane (l : Link) : Nat := bits l.peer 16 8

/-- A row or column link, in LFP mode (R317). -/
def isMesh (d : Dev) (n : Nat) : Bool := d.linkMode n = 1 && (d.linkRole n = 2 || d.linkRole n = 3)

/-! ### Bundles (R324, R327, R329) -/

/-- A ROUTE_TAB record in force for an epoch (R324, R329). -/
def routeRec (d : Dev) (epoch rec : Nat) : Nat := d.rd 0x6010 (epoch % 2) rec

/-- A link's peer is the one of routing record `rec`: a row record by peer column, a column record by peer row (R324). -/
def recPeer (d : Dev) (rec n : Nat) : Bool :=
  let l := d.link n
  l.peerPlane = d.plane
    && (if rec < 33 then d.linkRole n = 2 && l.peerRow = d.row && l.peerCol = rec
        else d.linkRole n = 3 && l.peerCol = d.col && l.peerRow = rec - 33)

/-- A link belongs to the bundle of routing record `rec` (R324). -/
def inBundle (d : Dev) (epoch rec n : Nat) : Bool :=
  (routeRec d epoch rec).testBit n && isMesh d n && (d.link n).known && recPeer d rec n

/-- A bundle has a link that carries frames. -/
def bundleUsable (d : Dev) (rec : Nat) : Bool :=
  d.sw.links.keys.any (fun n => (d.link n).carries && inBundle d d.sw.stamping rec n)

/-- Bundles that have no usable link count their samples from zero again (R327). -/
def settleAdapt (d : Dev) : Dev :=
  { d with sw := { d.sw with adapt := d.sw.adapt.filter (fun x => bundleUsable d x.1) } }

/-! ### Links that change -/

/-- READY_LINKS and the sample counts follow a link that has changed (R327, R403). -/
def linkMoved (d : Dev) (n : Nat) : Dev := settleAdapt (setReadyLink d n (d.link n).carries)

/-- A link changed without an event of its own. -/
def moveLinkQuiet (d : Dev) (n : Nat) (l : Link) : Dev := linkMoved (d.setLink n l) n

/-- A link changed: LEVEL when its state byte or lanes byte changed (R425). -/
def moveLink (d : Dev) (n : Nat) (l : Link) : Dev :=
  let old := d.link n
  let d1 := d.setLink n l
  let d2 := if old.shown = l.shown && old.lanes = l.lanes then d1 else emitLevel d1 3 0x2001 2 n l.record old.record
  linkMoved d2 n

/-- LINK_FAILED (R427): cause 1 training, 2 plane, 3 mode. -/
def linkFailed (d : Dev) (n cause : Nat) (l : Link) : Dev :=
  linkMoved (emit (d.setLink n l) 0x2001 stOK 1 true 0x2001 2 (dataUN 1 n 0 cause l.peer l.peerMode 0)) n

/-- LINK_LANE (R427): cause 1 degrade, 2 restore, 3 lane retrain failed. RISE is set as the level moved: with a failed lane
retrain none does (R426). -/
def linkLane (d : Dev) (n lane cause cw : Nat) (l : Link) : Dev :=
  linkMoved (emit (d.setLink n l) 0x2002 stOK 3 (cause != 3) 0x2001 2 (dataUN 1 n lane cause cw 0 0)) n

/-! ### Neighbors and streams (R283, R286) -/

/-- Two links lead to the same neighbor device. -/
def sameNeighbor (d : Dev) (a b : Nat) : Bool :=
  isMesh d a && isMesh d b && (d.link a).known && (d.link b).known
    && (d.link a).peer % 2 ^ 24 = (d.link b).peer % 2 ^ 24

/-- The other links to a link's neighbor that carry frames. -/
def otherLinks (p : Part) (d : Dev) (n : Nat) : List Nat :=
  (List.range p.links).filter (fun m => m != n && sameNeighbor d n m && (d.link m).carries)

/-- The stream of a VC on a link whose peer is at a position (R283): one per neighbor device, or per endpoint link. -/
def peerStream (d : Dev) (n row col vc : Nat) : Nat := if isMesh d n then 1024 + (row * 64 + col) * 8 + vc else n * 8 + vc

/-- The stream of a VC on a link. -/
def streamKey (d : Dev) (n vc : Nat) : Nat :=
  if (d.link n).known then peerStream d n (d.link n).peerRow (d.link n).peerCol vc else n * 8 + vc

/-! ### Leaving UP (R286) -/

/-- One kept copy moved to another link: its cells and its charge go with it. One of which a reference fails its check is discarded
(R239). -/
def moveCopy (d : Dev) (a b : Nat) (x : Copy) : Dev :=
  let q := queueOf d a x.f
  let q' := queueOf d b x.f
  match badRef d x.cells with
  | some k => discardCopy d a q k x
  | none =>
  let d1 := holdCells (d.setLink b { d.link b with resend := (d.link b).resend ++ [x] }) x.cells b
  let e' := d1.eq b q'
  releaseCopy (d1.setEq b q' { e' with charged := e'.charged + x.charge, depthMark := max e'.depthMark (e'.charged + x.charge) }) a q x

/-- Everything kept for a link stands in its resend list: the replay buffer in LSEQ order, then what already waited (R286). -/
def keepAll (d : Dev) (n : Nat) : Dev :=
  let l := d.link n
  d.setLink n { l with replay := [], resend := l.replay.map (fun s => s.copy) ++ l.resend, retries := 0 }

/-- The first `fuel` kept copies of a link taken off its resend list one by one, `f` saying what becomes of each. -/
def eachKept (n : Nat) (f : Dev → Copy → Dev) : Nat → Dev → Dev
  | 0, d => d
  | fuel + 1, d =>
    match (d.link n).resend with
    | [] => d
    | x :: xs => eachKept n f fuel (f (d.setLink n { d.link n with resend := xs }) x)

/-- The frames in a link's replay buffer when it leaves UP: moved to the other links to that neighbor, which one takes which copy
being left open (a free value), or kept (R286). -/
def leaveUp (p : Part) (d : Dev) (n : Nat) : Dev :=
  let others := otherLinks p d n
  let d1 := keepAll d n
  if others.isEmpty then d1
  else eachKept n (fun d x => moveCopy d.draw.2 n (others.getD (d.draw.1 % others.length) n) x) (d1.link n).resend.length d1

/-- The frames kept for a link released, `f` saying what becomes of each (R286, R347). -/
def dropKeptWith (f : Dev → Copy → Dev) (d : Dev) (n : Nat) : Dev :=
  let d1 := keepAll d n
  eachKept n (fun d x => f (releaseCopy d n (queueOf d n x.f) x) x) (d1.link n).resend.length d1

/-- The frames kept for a link released (R286). -/
def dropKept (d : Dev) (n : Nat) : Dev := dropKeptWith (fun d _ => d) d n

/-- The links to the same neighbor that keep frames of a bundle that is down (R286). -/
def keepers (p : Part) (d : Dev) (n : Nat) : List Nat :=
  (List.range p.links).filter (fun m => m != n && sameNeighbor d n m && !(d.link m).carries && !(d.link m).resend.isEmpty)

/-- The frames kept for a neighbor taken over by the link to it that comes up first (R286, R288). -/
def adoptKept (p : Part) (d : Dev) (n : Nat) : Dev :=
  (keepers p d n).foldl (fun d m => eachKept m (fun d x => moveCopy d m n x) (d.link m).resend.length d) d

/-- A link with its lanes off. -/
def Link.down (l : Link) (st : LSt) : Link := { l with st := st, rxLanes := 0, txLanes := 0, hs := [], restoring := false, nakSent := false }

/-- A link that was live leaves UP first. -/
def leaveIfLive (p : Part) (d : Dev) (n : Nat) : Dev := if (d.link n).live then leaveUp p d n else d

/-- A link put in DISABLED (R492). -/
def disableLink (p : Part) (d : Dev) (n : Nat) : Dev :=
  let d1 := dropKept (leaveIfLive p d n) n
  moveLink d1 n { ((d1.link n).down .disabled) with order := 0, polarity := 0 }

/-! ### Stored coefficients (R288, R289, R437) -/

/-- Offset of a link's coefficient record in flash (R437). -/
def coefBase (n : Nat) : Nat := 0x02300000 + n * 0x2000

/-- Status of a link's coefficient record: 0 none, 1 valid, 2 stale; a record whose CRC fails reads as none (R297, R437). -/
def coefStatus (d : Dev) (n : Nat) : Nat :=
  let bs := d.boot.flash.readN 0xFF#8 (coefBase n) 8192
  let st := (bs.getD 4 0).toNat
  if ofBytes (bs.take 4) = crc32c (bs.drop 4) && (st = 1 || st = 2) then st else 0

/-- A coefficient record as written: CRC-32C, status, peer position and link, the lane blocks. -/
def coefRecord (status peer : Nat) (lanes : List Byte) : List Byte :=
  let body := toBytes 1 status ++ toBytes 4 peer ++ List.replicate 7 0 ++ (lanes ++ List.replicate 8176 0).take 8176
  toBytes 4 (crc32c body) ++ body

/-- Bytes stored in flash. -/
def flashPut (d : Dev) (off : Nat) (bs : List Byte) : Dev :=
  { d with boot := { d.boot with flash := d.boot.flash.writeN 0xFF#8 off bs } }

/-- The coefficients of a link, and the peer identity as the link knows it, written when full training has ended in qualification
(R289, log entry 109); a failed write leaves the link as it is, and what it leaves of the sector it rewrites is open (a free value). Only
a mismatch at the read-back is written as FLASH_OP_FAIL too (R453). -/
def writeCoef (d : Dev) (n : Nat) (r : CoefEnd) : Dev :=
  let l := d.link n
  if l.coefWritten then d
  else
    let d1 := (d.setLink n { l with coefWritten := true }).inc 0x2006 1 0
    if r = .ok then flashPut d1 (coefBase n) (coefRecord 1 l.peer (Config.laneCoefficients n))
    else
      let d2 := flashPut d1.draw.2 (coefBase n / 65536 * 65536) (toBytes 65536 d1.draw.1)
      let d3 := emit d2 0x2005 stCheckFail 5 false 0x2006 0 (dataUN 1 n 0 0 0 0 0)
      if r = .mismatch then emit d3 0xA005 stCheckFail 5 false 0xA001 2 (dataUN 0 0 0 2 (coefBase n) 0 0) else d3

/-- A stored record marked stale (R289). -/
def staleCoef (d : Dev) (n : Nat) : Dev :=
  let lanes := d.boot.flash.readN 0xFF#8 (coefBase n + 16) 8176
  let peer := d.boot.flash.readNat 0xFF#8 (coefBase n + 5) 4
  flashPut d (coefBase n) (coefRecord 2 peer lanes)

/-- A link's record erased (R289 op 5). -/
def eraseCoef (d : Dev) (n : Nat) : Dev :=
  { d with boot := { d.boot with flash := d.boot.flash.clear (coefBase n) 0x2000 } }

/-- Bring-up starts (R288): from stored coefficients when there is a valid record, else with full training. -/
def startTraining (p : Part) (d : Dev) (n : Nat) : Dev :=
  let d1 := leaveIfLive p d n
  let l := d1.link n
  moveLink d1 n { (l.down .training) with tries := 0, full := isEthernet d n || coefStatus d n != 1 }

/-- The link's port group failed the start-up self-test (R434): its links read FAILED until the next reset. -/
def badPort (d : Dev) (n : Nat) : Bool := d.boot.badPortGroups.testBit (n / 8)

/-- A link that its port group's clock serves. -/
def portRuns (d : Dev) (n : Nat) : Bool := d.runs (domPort (n / 8))

end Sys2Proof.Machine
end

