-- ==== Sys2Proof/Machine/Route.lean ====
section
/-! DEFINITION. Where a frame goes: bundles, routes and spare routes, the static and the adaptive choice of a link, delivery by
port set, discards (spec/12_routing_and_canopy.md R322-R328, R332, R333, R347). -/

namespace Sys2Proof.Machine

/-- State of an epoch's table: 0 IDLE, 1 IN_FORCE, 2 DRAINING (R329). -/
def epochState (d : Dev) (epoch : Nat) : Nat := if epoch % 2 = 0 then d.sw.stA else d.sw.stB

/-- The links of the bundle of routing record `rec` (R324). -/
def bundle (p : Part) (d : Dev) (epoch rec : Nat) : List Nat := (List.range p.links).filter (inBundle d epoch rec)

/-- A bundle is unusable (R328). -/
def unusable (p : Part) (d : Dev) (epoch rec : Nat) : Bool := (bundle p d epoch rec).all (fun n => (d.link n).dead)

/-- The static hash of a frame (R326). -/
def staticHash (f : Frame) : Nat :=
  crcRaw 0 ([f.srow, f.scol, f.drow, f.dcol, f.dpset, f.vc, f.plane, 0].map (BitVec.ofNat 8))

/-- The job a frame belongs to, where its type names one (R164, R273, R337): for a COLL_SUBMIT frame the JOB of its
descriptor (R152, R325). -/
def frameJob (f : Frame) : Nat :=
  if f.ty = 0x20 then bits f.spec 224 32 else if f.ty = 0x01 then bits f.spec 0 32
  else if f.ty = 0x02 then bits (ofBytes (f.payload.take 64)) 448 32 else if f.ty = 0x03 then bits f.spec 192 32
  else if f.ty = 0x10 || f.ty = 0x11 then bits f.spec 160 32 else 0

/-- Adaptive choice is permitted for a frame (R325): by its class and by its job. -/
def adaptiveOk (d : Dev) (f : Frame) : Bool :=
  (d.rd 0x6005 0 (f.rclass % 16)).testBit 1
    && (match d.jobRec (frameJob f) with | some r => r.testBit 41 | none => false) && !d.inFcm

/-- The latest congestion sample of a link for a VC (R327). -/
def congestion (d : Dev) (n vc : Nat) : Nat := d.sw.cong.get 0 (n * 8 + vc)

/-- The first link with the lowest sample, in cyclic order from the statically hashed one (R327). -/
def leastLoaded (d : Dev) (vc : Nat) : List Nat → Option Nat
  | [] => none
  | n :: ns =>
    match leastLoaded d vc ns with
    | none => some n
    | some m => if congestion d m vc < congestion d n vc then some m else some n

/-- The link a frame takes in a bundle (R326, R327): among the links that carry frames; while there is none but the bundle is not
unusable, the frame waits in the queue of a link that is not dead. -/
def pickLink (p : Part) (d : Dev) (epoch rec : Nat) (f : Frame) : Option Nat :=
  let all := bundle p d epoch rec
  let ls := all.filter (fun n => (d.link n).carries)
  let use := if ls.isEmpty then all.filter (fun n => !(d.link n).dead) else ls
  let h := staticHash f % (max use.length 1)
  if adaptiveOk d f && d.sw.adapt.get 0 rec = 4096 && !ls.isEmpty then leastLoaded d f.vc (use.drop h ++ use.take h) else use[h]?

/-- The next step of a frame. -/
inductive Hop where
  | here
  | link (rec n : Nat) (spare : Bool)
  | lost (rec : Nat)
  | stale
  deriving DecidableEq, Repr

/-- The record of a spare route (R328), none where DETOUR is 0xFF. -/
def spareRec (d : Dev) (epoch rec : Nat) (f : Frame) : Option Nat :=
  let det := bits (routeRec d epoch rec) 128 8
  if f.drow != d.row && f.dcol != d.col then some (if rec < 33 then 33 + f.drow else f.dcol)
  else if det = 0xFF then none
  else some (if rec < 33 then det else 33 + det)

/-- R323 with R328 and R332; `entry` when this device set SROW and SCOL. -/
def nextHop (p : Part) (d : Dev) (entry : Bool) (f : Frame) : Hop :=
  if f.drow = d.row && f.dcol = d.col then .here
  else if epochState d f.epoch = 0 then .stale
  else
    let rec0 :=
      if f.drow = d.row then f.dcol
      else if f.dcol = d.col then 33 + f.drow
      else if entry && (d.rd 0x6005 0 (f.rclass % 16)).testBit 0 then 33 + f.drow
      else f.dcol
    if !unusable p d f.epoch rec0 then
      match pickLink p d f.epoch rec0 f with | some n => .link rec0 n false | none => .lost rec0
    else if !entry then .lost rec0
    else
      match spareRec d f.epoch rec0 f with
      | none => .lost rec0
      | some r =>
        if unusable p d f.epoch r then .lost rec0
        else match pickLink p d f.epoch r f with | some n => .link r n true | none => .lost rec0

/-- A frame discarded for want of a route (R328): counted, and one event per bundle per second. -/
def routeLoss (d : Dev) (rec : Nat) : Dev :=
  let d1 := d.inc 0x6030 3 0
  let n := d1.sw.lossSince.get 0 rec + 1
  let last := d1.sw.lossRecent.get 0 rec
  if last = 0 || last + 2700000000 ≤ d1.tick + 1 then
    emit { d1 with sw := { d1.sw with lossSince := d1.sw.lossSince.set 0 rec 0, lossRecent := d1.sw.lossRecent.set 0 rec (d1.tick + 1) } }
      0x6002 stOK 5 false 0x6030 3 (dataUN 0 rec 0 0 n 0 0)
  else { d1 with sw := { d1.sw with lossSince := d1.sw.lossSince.set 0 rec n } }

/-- A frame the device builds (R272, R325): route class 0, its own position as entry, one device passed. -/
def Dev.frame (d : Dev) (ty vc drow dcol dpset spec : Nat) (payload : List Byte) : Frame :=
  { ty := ty, vc := vc, epoch := d.sw.stamping, plane := d.plane, drow := drow, dcol := dcol, dpset := dpset, srow := d.row,
    scol := d.col, rclass := 0, hops := 1, sseq := 0, stamp := 0, spec := spec, payload := payload }

/-- A frame meets a fence: counted, the frames of a collective chunk as one chunk with the last of them (R173, R347). -/
def fenceDiscard (d : Dev) (f : Frame) : Dev :=
  if f.ty != 0x01 then d.inc 0x6030 3 0
  else if bits f.spec 133 7 = bits f.spec 126 7 then d.inc 0x5010 3 0 else d

/-- The header of R339 answering a request frame with a status. -/
def rspSpecOf (spec status : Nat) : Nat :=
  pack [(192, 64, bits spec 192 64), (160, 32, bits spec 160 32), (144, 16, bits spec 144 16), (136, 8, bits spec 136 8),
    (128, 8, status), (120, 8, bits spec 118 8)]

/-- The cells of a frame (R247). -/
def frameCells (f : Frame) : Nat := cellsFor (64 + f.payload.length)

/-- A frame that the device builds itself takes its cells, and `f` decides its copies (R243). -/
def buildFrame (d : Dev) (x : Frame) (f : Dev → Dev) : Dev := ingress d none x.vc (64 + x.payload.length) none f

/-- The frame at ingress put on its way along a hop; `charge` is the cells that R247 takes it for. -/
def takeHop (d : Dev) (arr : Option Nat) (pcp charge : Nat) (f : Frame) : Hop → Dev
  | .here => d
  | .link _ n spare => admitCopies (if spare then d.inc 0x6012 1 0 else d) arr (f.vc != 7) charge [(n, false, f)] pcp
  | .lost rec => routeLoss d rec
  | .stale => d.inc 0x6011 4 0

/-- A request frame answered with a status that carries no data: toward its entry device, or, where that is this device, to the
requester here (R339, R347). -/
def answerFrame (p : Part) (d : Dev) (f : Frame) (status : Nat) : Dev :=
  if f.srow = d.row && f.scol = d.col then
    d.send (.canRsp .own
      { caddr := bits f.spec 192 64, job := bits f.spec 160 32, rtag := bits f.spec 144 16, op := bits f.spec 136 8,
        status := status, sunit := bits f.spec 118 8, drow := d.row, dcol := d.col, srow := d.row, scol := d.col, payload := [] })
  else
    let g := d.frame 0x11 2 f.srow f.scol 0 (rspSpecOf f.spec status) []
    buildFrame d g (fun d => takeHop d none 0 1 g (nextHop p d true g))

/-- The frame at ingress, of this device or passing through, sent toward another device. Fenced ends discard it; a request whose
home is fenced is answered FENCED, and one stamped with an IDLE epoch EPOCH_STALE (R328, R332, R347). -/
def routeFrame (p : Part) (d : Dev) (arr : Option Nat) (entry : Bool) (f : Frame) (pcp : Nat := 0) : Dev :=
  let answer := fun (d : Dev) (status : Nat) => answerFrame p d f status
  if d.isFenced f.srow f.scol then fenceDiscard d f
  else if d.isFenced f.drow f.dcol then
    if f.ty = 0x10 && !entry then answer (d.inc 0x6023 0 1) stFenced else fenceDiscard d f
  else
    match nextHop p d entry f with
    | .stale => if f.ty = 0x10 then answer ((d.inc 0x6011 4 0).inc 0x6023 0 2) stEpochStale else d.inc 0x6011 4 0
    | h =>
      let charge := match arr with | some a => if isEthernet d a then cellsFor (d.rd 0x2010 3 0) else frameCells f | none => frameCells f
      takeHop d arr pcp charge f h

/-- A frame to another device that the device itself builds. -/
def sendFrame (p : Part) (d : Dev) (ty vc row col dpset spec : Nat) (payload : List Byte) : Dev :=
  let f := d.frame ty vc row col dpset spec payload
  buildFrame d f (fun d => routeFrame p d none true f)

/-- The frame at ingress put on one endpoint link. -/
def toEndpoint (d : Dev) (arr : Option Nat) (n : Nat) (f : Frame) : Dev :=
  admitCopies d arr (f.vc != 7) (frameCells f) [(n, false, f)]

/-! ### Delivery by port set (R322) -/

/-- The endpoint links of a port set. -/
def portLinks (p : Part) (d : Dev) (pset : Nat) : List Nat :=
  (List.range p.links).filter (fun n => (d.rd 0x6004 0 (pset % 256)).testBit n)

/-- The link of a port set that a frame takes, if one of the set is UP or DEGRADED and not fenced. -/
def portPick (p : Part) (d : Dev) (pset hash : Nat) : Option Nat :=
  let ls := (portLinks p d pset).filter (fun n => (d.link n).carries)
  ls[hash % (max ls.length 1)]?

/-- The rank that a UNICAST frame is for is fenced in RTT (R320, R347). -/
def rankFenced (d : Dev) (f : Frame) : Bool :=
  f.ty = 0x20 && (match d.jobRec (bits f.spec 224 32) with
    | none => false
    | some r => decide (bits f.spec 160 32 < bits r 96 32) && (d.rd 0x6003 0 (bits r 64 32 + bits f.spec 160 32)).testBit 62)

/-- No link of the frame's port set will take it: each is FAILED, DISABLED or FENCED, or its rank is fenced. -/
def neverLeaves (p : Part) (d : Dev) (f : Frame) : Bool := rankFenced d f || (portLinks p d f.dpset).all (fun n => (d.link n).dead)

/-- The frame at ingress, at its destination device, delivered by its DPSET: sent, held at ingress until a link of the set comes
up, or discarded and counted in RTT_MISSES; one to a fenced rank that a link could take is discarded under the fence (R347). -/
def deliver (p : Part) (d : Dev) (arr : Option Nat) (f : Frame) : Dev :=
  match portPick p d f.dpset (staticHash f) with
  | some n => if rankFenced d f then fenceDiscard d f else toEndpoint d arr n f
  | none =>
    if neverLeaves p d f then d.inc 0x6003 1 0
    else
      match keepFrame d arr f with
      | none => headroomDrop d arr f.vc
      | some (x, d1) => { d1 with sw := { d1.sw with waiting := d1.sw.waiting ++ [x] } }

/-- Frames held for a port set looked at again when links or port sets move (R322): those that can leave, or never will, are taken up. -/
def settleWaiting (p : Part) (d : Dev) : Dev :=
  let moves := fun (x : Copy) => (portPick p d x.f.dpset (staticHash x.f)).isSome || neverLeaves p d x.f
  (d.sw.waiting.filter moves).foldl (fun d x => resumeFrame d x (fun d => deliver p d x.fromLink x.f))
    { d with sw := { d.sw with waiting := d.sw.waiting.filter (fun x => !moves x) } }

/-- Copies of frames that stand anywhere in the device, with the holder of their cells: egress queues, replay and kept frames,
resequencers, ingress (R242, R249). VC1 requests held across a swap stand apart: they bear no stamp yet (R331). -/
def heldCopies (d : Dev) : List (Nat × Copy) :=
  d.sw.queues.flatMap (fun q => q.2.fifo.map (fun x => (q.1 / 16, x)))
    ++ d.sw.links.flatMap (fun l => (l.2.replay.map (fun s => s.copy) ++ l.2.resend).map (fun x => (l.1, x)))
    ++ (heldPlaces d).flatMap placeCopies ++ d.sw.waiting.map (fun x => (163, x))

/-- The payloads of a chunk's frames (R163): 4,096 bytes each, the last one shorter. -/
def framePieces (bs : List Byte) : List (List Byte) := if bs.isEmpty then [[]] else chunksOf 4096 bs.length bs

/-- The cells of a chunk shared out among its frames, in order (R240). -/
def frameShares : List (List Byte) → List Nat → List (List Nat)
  | [], _ => []
  | b :: bs, cells => cells.take (cellsFor (64 + b.length)) :: frameShares bs (cells.drop (cellsFor (64 + b.length)))

/-- The frames of the chunks that collectives hold, as the cells of each with the epoch it is stamped with (R169, R332). -/
def chunkFrames (d : Dev) : List (Nat × List Nat) :=
  d.colls.ops.flatMap (fun o => (o.inputs.map (fun h => (h.c, h.cells)) ++ o.outs.map (fun h => (h.c, h.cells))).flatMap (fun x =>
    (frameShares (framePieces x.1.payload) x.2).map (fun cells => (x.1.epoch, cells))))

/-- Frames stamped with an epoch that the device holds, each counted once until its last copy is released (R332): copies of one
frame name the same cells. A local Ethernet copy counts when its frame is stamped. -/
def epochHeld (d : Dev) (epoch : Nat) : Nat :=
  let copies := (heldCopies d).filter (fun x => !x.2.eth || x.2.f.hops != 0)
  let stamped := copies.map (fun x => (x.2.f.epoch, x.2.cells)) ++ (chunkFrames d).filter (fun x => !x.2.isEmpty)
  (((stamped.filter (fun x => x.1 = epoch)).map Prod.snd).eraseDups).length

/-! ### Row and column multicast (R333) -/

/-- The devices of a row that are not fenced. -/
def rowDevices (d : Dev) (r : Nat) : List Nat :=
  (List.range (bits (d.rd 0x6000 1 0) 0 6)).filter (fun c => !d.isFenced r c)

/-- Distance of two columns or rows. -/
def dist (a b : Nat) : Nat := if a < b then b - a else a - b

/-- The element with the smallest distance to `c`, the lower on a tie. -/
def nearest (c : Nat) : List Nat → Option Nat
  | [] => none
  | x :: xs =>
    match nearest c xs with
    | none => some x
    | some y => if dist y c < dist x c then some y else some x

/-- The devices that receive the column stage from a device of column `col`: in every other row the device of that column, or
the nearest one of the row that is not fenced. -/
def columnStage (d : Dev) (col : Nat) : List (Nat × Nat) :=
  ((List.range (bits (d.rd 0x6000 1 0) 8 6)).filter (· != d.row)).filterMap (fun r =>
    (nearest col (rowDevices d r)).map (fun c => (r, c)))

/-- The devices that receive the row stage from this device. -/
def rowStage (d : Dev) : List (Nat × Nat) := ((rowDevices d d.row).filter (· != d.col)).map (fun c => (d.row, c))

/-- The frame at ingress copied toward each of a list of devices (R333). -/
def spreadFrame (p : Part) (d : Dev) (arr : Option Nat) (entry : Bool) (f : Frame) (dests : List (Nat × Nat)) (pcp : Nat := 0) : Dev :=
  dests.foldl (fun d x => routeFrame p d arr entry { f with drow := x.1, dcol := x.2 } pcp) d

/-- A frame that the device builds, one copy to each of a list of devices, all naming the same cells (R243, R333). A peer of this
row or column that is fenced receives none, and that copy counts under R347. -/
def multicast (p : Part) (d : Dev) (dests : List (Nat × Nat)) (ty vc dpset spec : Nat) (payload : List Byte) : Dev :=
  let f := d.frame ty vc 0 0 dpset spec payload
  if dests.isEmpty then d else buildFrame d f (fun d => spreadFrame p d none true f dests)

/-- Fenced devices of this device's row: their row-stage copies count as discarded (R333, R347). -/
def fencedRowPeers (d : Dev) : Nat :=
  ((List.range (bits (d.rd 0x6000 1 0) 0 6)).filter (fun c => c != d.col && d.isFenced d.row c)).length

/-- Fenced devices of this device's column and row, whose copies of a plane-wide distribution count as discarded. -/
def fencedPeers (d : Dev) : Nat :=
  ((List.range (bits (d.rd 0x6000 1 0) 8 6)).filter (fun r => r != d.row && d.isFenced r d.col)).length + fencedRowPeers d

/-- Column stage and own row stage of a plane-wide distribution that this device starts; fenced peers' copies are counted. -/
def broadcast (p : Part) (d : Dev) (ty vc dpset spec : Nat) (payload : List Byte) : Dev :=
  multicast p (d.inc 0x6030 3 0 (fencedPeers d)) (columnStage d d.col ++ rowStage d) ty vc dpset spec payload

end Sys2Proof.Machine
end

