-- ==== Sys2Proof/Machine/Trans.lean ====
section
/-! DEFINITION. 2^x, log2 x (spec/08_determinism_contract.md R217) by integer evaluation to far more bits than any rounding
boundary of the formats needs; an irrational value is returned as a point strictly between two neighbours of that grid. -/

namespace Sys2Proof.Machine

/-- Fraction bits of the evaluation. -/
def transBits : Nat := 320

/-- 2^f for the fraction whose bits, most significant first, are given: the product of the roots 2^(2^-i), in units of
2^-transBits; `c` is the present root and `acc` the product so far. -/
def exp2Bits : List Bool → Nat → Nat → Nat
  | [], _, acc => acc
  | b :: bs, c, acc =>
    let c' := isqrt (c * 2 ^ transBits)
    exp2Bits bs c' (if b then acc * c' / 2 ^ transBits else acc)

/-- The `n` bits of a fraction num / 2^n, most significant first. -/
def fracBits (num : Nat) : Nat → List Bool
  | 0 => []
  | n + 1 => num.testBit n :: fracBits num n

/-- 2^x (R217). Beyond 4,096 in magnitude every format overflows or rounds as at 4,096. -/
def Num.exp2 (a : Num) : Num × Nat :=
  match a with
  | .nan s => (.nan false, if s then flInvalid else 0)
  | .inf s => if s then (.fin false 0 1, 0) else (.inf false, 0)
  | .fin s num den =>
    let v := sgn s num
    let n : Int := max (-4096) (min 4096 (v / den))
    let r := (v % den).toNat
    if v / den != n || r = 0 then (mkNum false 1 n, 0)
    else
      let k := Nat.log2 den
      let q := exp2Bits (fracBits r k) (2 ^ (transBits + 1)) (2 ^ transBits)
      (mkNum false (2 * q + 1) (n - transBits - 1), 0)

/-- Bits of log2 of a number in [1, 2) given in units of 2^-prec, by repeated squaring. -/
def log2Bits (prec : Nat) : Nat → Nat → Nat → Nat
  | 0, _, acc => acc
  | k + 1, m, acc =>
    let m2 := m * m / 2 ^ prec
    if m2 < 2 ^ (prec + 1) then log2Bits prec k m2 (2 * acc) else log2Bits prec k (m2 / 2) (2 * acc + 1)

/-- log2 x (R217). -/
def Num.log2 (a : Num) : Num × Nat :=
  match a with
  | .nan s => (.nan false, if s then flInvalid else 0)
  | .inf s => if s then (.nan false, flInvalid) else (.inf false, 0)
  | .fin s num den =>
    if num = 0 then (.inf true, flDivZero)
    else if s then (.nan false, flInvalid)
    else
      let e := ratLog2 num den
      let prec : Nat := 512
      let x : Int := e - (prec : Int)
      let m := if 0 ≤ x then num / (den * 2 ^ x.toNat) else num * 2 ^ (-x).toNat / den
      if m * den * 2 ^ (max x 0).toNat = num * 2 ^ (max (-x) 0).toNat && m = 2 ^ prec then
        (.fin (decide (e < 0)) e.natAbs 1, 0)
      else
        let k : Nat := 160
        let q := log2Bits prec k m 0
        let v : Int := e * ((2 ^ (k + 1) : Nat) : Int) + ((2 * q + 1 : Nat) : Int)
        (.fin (decide (v < 0)) v.natAbs (2 ^ (k + 1)), 0)

end Sys2Proof.Machine
end

