-- ==== Sys2Proof/Machine/Vector.lean ====
section
/-! DEFINITION. VOP: the vector ALU's rows, SPLIT3 and the bitwise operations (spec/04_engines_and_groves.md R79,
spec/05_stream_programs.md R117, spec/02_number_formats.md R53, spec/08_determinism_contract.md R217). -/

namespace Sys2Proof.Machine

/-- Bytes of one element of a scalar format; sub-byte formats count as one for alignment. -/
def elemBytes (fmt : Nat) : Nat := max 1 ((fmtOf fmt).w / 8)

/-- Bytes of an MX or MXE image of `n` elements at `a` (R40, R42): an MXE group's length depends on its mask. -/
def imageLen (get : Nat → Nat → List Byte) (fmt : Nat) (mxe : Bool) : Nat → Nat → Nat
  | 0, _ => 0
  | groups + 1, a =>
    let fixed := 128 * (fmtOf fmt).w + 32
    let k := if mxe then
        let m := ofBytes (get (a + fixed) 4)
        fixed + 4 + 4 * ((List.range 32).filter (fun b => m.testBit b)).length
      else fixed
    k + imageLen get fmt mxe groups (a + k)

/-- Bytes that `n` elements take at `a` under a scaling mode. -/
def Stp.elemsLen (t : Stp) (fmt mode n a : Nat) : Nat :=
  if mode = 1 || mode = 2 then imageLen t.get fmt (mode = 2) (ceilDiv n 1024) a else n * (fmtOf fmt).w / 8

/-- `n` elements read at `a`. Under mode 3 the spec gives no place for the scale byte of an input: it is a free value, `x`. -/
def Stp.elems (t : Stp) (fmt mode n a x : Nat) : List Num :=
  let bs := t.get a (t.elemsLen fmt mode n a)
  if mode = 1 || mode = 2 then
    match decodeMx (fmtOf fmt) (mode = 2) (ceilDiv n 1024) n bs with
    | some (xs, _) => xs
    | none => List.replicate n (.nan false)
  else if mode = 3 then (decodeScalars (fmtOf fmt) n bs).map (fun v => v.scale ((x : Int) - 127))
  else decodeScalars (fmtOf fmt) n bs

/-- The free scale byte of a mode 3 input: one for the command (log entry 29). -/
def Stp.freeScale (t : Stp) : Nat := Config.inputScale t.body % 255

/-- Exact values delivered under a conversion word: the bytes, what it raised, and the amax of R45. -/
def encodeOut (cvt : Nat) (xscale : Option Nat) (vals : List Num) : List Byte × Tally × (Nat × Nat) :=
  let f := fmtOf (cvFmt cvt)
  let rm := cvRm cvt
  let sat := cvSat cvt
  match cvMode cvt with
  | 0 => ((encodeScalars f rm sat 0 vals).1, (encodeScalars f rm sat 0 vals).2, (0, 1))
  | 3 =>
    let r := encodeScalars f rm sat ((xscale.getD 127 : Nat) - 127 : Int) vals
    (r.1, r.2, amaxOf (vals.filter Num.isFin))
  | m =>
    let r := encodeMx f rm sat (m = 2) (cvGap cvt) vals
    (r.1, r.2, (0, 1))

/-- One element's exact result and flags (R54, R117, R217). -/
def aluOp (sub rm : Nat) (a b c : Num) : Num × Nat :=
  let inv := fun (r : Num × Bool) => (r.1, if r.2 then flInvalid else 0)
  match sub with
  | 0 => inv (Num.add rm a b)
  | 1 => inv (Num.add rm a b.opp)
  | 2 => inv (Num.mul a b)
  | 3 => inv (Num.minmax false a b)
  | 4 => inv (Num.minmax true a b)
  | 5 => Num.div a b
  | 6 => inv (Num.sqrt a)
  | 7 => inv (Num.fma rm a b c)
  | 13 => Num.exp2 a
  | 14 => Num.log2 a
  | 15 => Num.rsqrt a
  | _ => (a, 0)

/-- Sub-operations that read A only. -/
def unaryVop (sub : Nat) : Bool := sub = 6 || sub = 8 || sub = 9 || 13 ≤ sub

/-- The conversion word a sub-operation delivers under: EXP2, LOG2 and RSQRT round in the input's own format, unscaled, under the
word's RM and SAT (R217; log entry 100). -/
def Stp.vopCvt (t : Stp) (sub : Nat) : Nat :=
  if sub < 13 then t.cvt else pack [(0, 3, cvRm t.cvt), (3, 1, b2n (cvSat t.cvt)), (4, 4, bits t.prm 28 4)]

/-- The exact results of a step, element by element, with their flags. -/
def vopElems (sub : Nat) (t : Stp) : List (Num × Nat) :=
  let fi := bits t.prm 28 4
  let n := t.n
  let fo := cvFmt t.cvt
  let as_ := t.elems fi 0 n t.a 0
  let bs := if unaryVop sub then as_ else t.elems fi 0 n t.b 0
  let cs := if sub = 7 then t.elems fo (cvMode t.cvt) n t.dd t.freeScale else as_
  (as_.zip (bs.zip cs)).map (fun x => aluOp sub (cvRm t.cvt) x.1 x.2.1 x.2.2)

/-- The exact results alone. -/
def vopVals (sub : Nat) (t : Stp) : List Num := (vopElems sub t).map Prod.fst

/-- A step of a converting VOP. -/
def vopStep (sub : Nat) (t : Stp) : StepRes :=
  let fi := bits t.prm 28 4
  let fo := cvFmt (t.vopCvt sub)
  let w := elemBytes fi
  let xs := vopElems sub t
  let r := encodeOut (t.vopCvt sub) t.x.xscale (xs.map Prod.fst)
  let ra : List Rd := [{ addr := t.a, len := t.n * w, align := w }]
  let rb : List Rd := if unaryVop sub then [] else [{ addr := t.b, len := t.n * w, align := w }]
  let rd : List Rd := if sub = 7 then [{ addr := t.dd, len := t.elemsLen fo (cvMode t.cvt) t.n t.dd, align := elemBytes fo }] else []
  { reads := ra ++ rb ++ rd, writes := [{ addr := t.dd, data := r.1, align := elemBytes fo }],
    tally := { r.2.1 with flags := xs.foldl (fun f x => f ||| x.2) r.2.1.flags }, amax := r.2.2 }

/-- A step of AND, OR or XOR on raw bits (R117). -/
def bitStep (op : Nat → Nat → Nat) (t : Stp) : StepRes :=
  let w := elemBytes (bits t.prm 28 4)
  let n := t.n * w
  { reads := [{ addr := t.a, len := n, align := w }, { addr := t.b, len := n, align := w }],
    writes := [{ addr := t.dd, data := toBytes n (op (ofBytes (t.get t.a n)) (ofBytes (t.get t.b n))), align := w }] }

/-- A step of SPLIT3 (R53): three planes of BF16 pieces. -/
def split3Step (t : Stp) : StepRes :=
  let n := t.n
  let ps := (unpackCodes 32 n (ofBytes (t.get t.a (4 * n)))).map split3Of
  let plane := fun k => ps.map (fun p => (p.getD k (0, Tally.zero)).1)
  { reads := [{ addr := t.a, len := 4 * n, align := 4 }],
    writes := [{ addr := t.dd, data := toBytes (6 * n) (packCodes 16 (plane 0 ++ plane 1 ++ plane 2)), align := 2 }],
    tally := Tally.flag (joinAll (ps.flatMap (fun p => p.map Prod.snd))).flags }

/-- A converting VOP. -/
def vopRun (sub g e c : Nat) (s : State) : Res := scaledStep g e c 0x03 (some sub) s (vopVals sub) (vopStep sub)

/-- VOP add (R117). -/
def execVopAdd (g e c : Nat) (s : State) : Res := vopRun 0 g e c s
/-- VOP sub. -/
def execVopSub (g e c : Nat) (s : State) : Res := vopRun 1 g e c s
/-- VOP mul. -/
def execVopMul (g e c : Nat) (s : State) : Res := vopRun 2 g e c s
/-- VOP min. -/
def execVopMin (g e c : Nat) (s : State) : Res := vopRun 3 g e c s
/-- VOP max. -/
def execVopMax (g e c : Nat) (s : State) : Res := vopRun 4 g e c s
/-- VOP div. -/
def execVopDiv (g e c : Nat) (s : State) : Res := vopRun 5 g e c s
/-- VOP sqrt. -/
def execVopSqrt (g e c : Nat) (s : State) : Res := vopRun 6 g e c s
/-- VOP FMA. -/
def execVopFma (g e c : Nat) (s : State) : Res := vopRun 7 g e c s
/-- VOP convert. -/
def execVopConvert (g e c : Nat) (s : State) : Res := vopRun 8 g e c s
/-- EXP2 (R217). -/
def execExp2 (g e c : Nat) (s : State) : Res := engineStep g e c 0x03 (some 13) s (vopStep 13)
/-- LOG2 (R217). -/
def execLog2 (g e c : Nat) (s : State) : Res := engineStep g e c 0x03 (some 14) s (vopStep 14)
/-- RSQRT (R217). -/
def execRsqrt (g e c : Nat) (s : State) : Res := engineStep g e c 0x03 (some 15) s (vopStep 15)
/-- SPLIT3 (R53). R118 checks its conversion word, but its three planes are BF16 whatever the word says: it names no scaling context,
takes none and appends no entry (DESIGN CHOICE, log entry 100). -/
def execSplit3 (g e c : Nat) (s : State) : Res := engineStep g e c 0x03 (some 9) s split3Step
/-- VOP and. -/
def execVopAnd (g e c : Nat) (s : State) : Res := engineStep g e c 0x03 (some 10) s (bitStep (fun x y => x &&& y))
/-- VOP or. -/
def execVopOr (g e c : Nat) (s : State) : Res := engineStep g e c 0x03 (some 11) s (bitStep (fun x y => x ||| y))
/-- VOP xor. -/
def execVopXor (g e c : Nat) (s : State) : Res := engineStep g e c 0x03 (some 12) s (bitStep (fun x y => x ^^^ y))

end Sys2Proof.Machine
end

