-- ==== Sys2Proof/Machine/Coll.lean ====
section
/-! DEFINITION. What every collective rule uses: descriptor fields, the members and their devices, stage trees, chunk geometry,
chunk frames, held cells and acknowledgments (spec/06_collectives.md R147-R170, spec/04_engines_and_groves.md R95). -/

namespace Sys2Proof.Machine

/-! ### Descriptor fields (R153) -/

def dscOp (v : Nat) : Nat := bits v 440 8
def dscRedop (v : Nat) : Nat := bits v 436 4
def dscPart (v : Nat) : Nat := bits v 434 2
def dscVc (v : Nat) : Nat := bits v 431 3
def dscIfmt (v : Nat) : Nat := bits v 427 4
def dscIscale (v : Nat) : Nat := bits v 425 2
def dscMmode (v : Nat) : Nat := bits v 423 2
def dscDepth (v : Nat) : Nat := bits v 419 4
def dscCvt (v : Nat) : Nat := bits v 384 32
def dscCount (v : Nat) : Nat := bits v 336 48
def dscRoot (v : Nat) : Nat := bits v 304 32
def dscFirst (v : Nat) : Nat := bits v 272 32
def dscNranks (v : Nat) : Nat := bits v 240 32
def dscStride (v : Nat) : Nat := bits v 224 16
def dscPace (v : Nat) : Nat := bits v 160 64
def dscPaceEn (v : Nat) : Bool := v.testBit 159
def dscFlag (v : Nat) : Nat := bits v 64 64
def dscOpx (v : Nat) : Nat := bits v 0 64

/-- Member ranks that a descriptor names (R148). -/
def dscRanks (v : Nat) (list : List Nat) : List Nat :=
  if dscMmode v = 0 then (List.range (dscNranks v)).map (fun k => dscFirst v + k * dscStride v) else list

/-- Operations that reduce, and those that claim slots and convert (R147, R198, R203). -/
def reduces (op : Nat) : Bool := decide (1 ≤ op ∧ op ≤ 3)
def claims (op : Nat) : Bool := reduces op || op = 0x11 || op = 0x12

/-- Operations whose RESULT chunks carry DOFF (R164, R207). -/
def carriesDoff (op : Nat) : Bool := op = 6 || op = 7 || op = 0x10 || op = 0x13 || op = 0x14

/-- Fields of OPX that chapter 7 gives: experts, choices, TMAX, CAP (R188). -/
def opxExperts (x : Nat) : Nat := bits x 44 14 + 1
def opxChoices (x : Nat) : Nat := bits x 41 3 + 1
def opxTmax (x : Nat) : Nat := bits x 0 20
def opxCap (x : Nat) : Nat := bits x 20 19

def Op.opc (o : Op) : Nat := dscOp o.desc
def Op.opx (o : Op) : Nat := dscOpx o.desc
def Op.count (o : Op) : Nat := dscCount o.desc
def Op.m (o : Op) : Nat := o.members.length
def Op.is (o : Op) (job coll : Nat) : Bool := o.job = job && o.coll = coll

/-! ### Entries (R155) -/

def findOp (d : Dev) (job coll : Nat) : Option Op := d.colls.ops.find? (fun o => o.is job coll)

def putOp (d : Dev) (o : Op) : Dev :=
  { d with colls := { d.colls with ops := d.colls.ops.map (fun x => if x.is o.job o.coll then o else x) } }

def dropOp (d : Dev) (job coll : Nat) : Dev :=
  { d with colls := { d.colls with ops := d.colls.ops.filter (fun x => !x.is job coll) } }

/-- A device with one of its entries in hand. -/
abbrev Run := Dev × Op

/-- A collective is admitted here: its ADMIT has gone out (R160), or it is aborting. -/
def Op.admitted (o : Op) : Bool := o.phase != 0

/-- Its record in COLL_ACTIVE (R182). -/
def Op.activeRec (o : Op) : Nat := pack [(0, 32, o.coll), (32, 32, o.job), (64, 8, o.phase)]

/-! ### Members and their devices (R156-R158, R173) -/

/-- A device as row * 64 + column. -/
def Dev.code (d : Dev) : Nat := d.row * 64 + d.col
def Member.dev (m : Member) : Nat := m.row * 64 + m.col

/-- The entry of a job's rank, if it is valid (R320). -/
def rttOf (d : Dev) (job rank : Nat) : Option Nat :=
  match d.jobRec job with
  | none => none
  | some r =>
    if bits r 96 32 ≤ rank then none
    else
      let e := d.rd 0x6003 0 (bits r 64 32 + rank)
      if e.testBit 63 then some e else none

/-- A member hosted at a device is covered by a fence this device knows: its rank, its device, or here a link of its port set
(R156, R347). -/
def fenceCovers (d : Dev) (rankFenced : Bool) (row col pset : Nat) : Bool :=
  rankFenced || d.isFenced row col
    || (row = d.row && col = d.col && d.sw.links.any (fun x => x.2.isFenced && (d.rd 0x6004 0 (pset % 256)).testBit x.1))

/-- Member `i` is fenced: it was at the snapshot, or a fence point has covered it since (R156, R173). Later writes of the tables
change nothing here. -/
def Op.fencedAt (o : Op) (i : Nat) : Bool := match o.members[i]? with | some m => m.fenced | none => false

/-- The mask of the members this device knows as fenced (R177). -/
def Op.fencedMask (o : Op) : Nat := (o.members.zipIdx.filter (fun x => x.1.fenced)).foldl (fun v x => v + 2 ^ x.2) 0

/-- D: the member devices, in ascending order of the lowest member rank each hosts (R157). -/
def Op.devs (o : Op) : List Nat := (o.members.map Member.dev).eraseDups

/-- Member indices at a device, and the lowest of them. -/
def Op.at_ (o : Op) (dev : Nat) : List Nat := ((o.members.zipIdx.filter (fun x => x.1.dev = dev)).map Prod.snd)
def Op.lowest (o : Op) (dev : Nat) : Nat := (o.at_ dev).headD 0
def Op.here (o : Op) (d : Dev) : List Nat := o.at_ d.code

/-- The device and the port set of a member index. -/
def Op.devOf (o : Op) (i : Nat) : Nat := match o.members[i]? with | some m => m.dev | none => 0
def Op.psetOf (o : Op) (i : Nat) : Nat := match o.members[i]? with | some m => m.pset | none => 0
def Op.memberOf (o : Op) (rank : Nat) : Nat := (firstIx (fun m => m.rank = rank) o.members 0).getD 0

/-- A device of D hosts an unfenced member. -/
def Op.devLive (o : Op) (dev : Nat) : Bool := o.members.any (fun m => m.dev = dev && !m.fenced)

/-- A device, as its code, is fenced itself (R347): one whose members are all fenced by their ranks or links is not. -/
def devFenced (d : Dev) (dev : Nat) : Bool := d.isFenced (dev / 64) (dev % 64)

/-- The root device of a chunk (R157). -/
def Op.rootDev (o : Op) (k : Nat) : Nat := o.devs.getD ((k + o.coll) % max o.devs.length 1) 0

/-- The control root (R157, R174): where it is fenced, the first device from position COLL mod n on that hosts an unfenced
member. -/
def ctlRoot (d : Dev) (o : Op) : Nat :=
  let i := o.coll % max o.devs.length 1
  if !devFenced d (o.rootDev 0) then o.rootDev 0
  else ((o.devs.drop i ++ o.devs.take i).find? (fun q => !devFenced d q && o.devLive q)).getD (o.rootDev 0)

/-- The row-stage device of a row for a root (R158). -/
def Op.stageDev (o : Op) (root row : Nat) : Option Nat :=
  (nearest (root % 64) ((List.range 64).filter (fun c => o.devs.contains (row * 64 + c)))).map (row * 64 + ·)

/-- Where a device's partial for a root goes: none at the root. -/
def Op.parent (o : Op) (root me : Nat) : Option Nat :=
  if me = root then none
  else if o.stageDev root (me / 64) = some me then some root else o.stageDev root (me / 64)

/-- The devices whose partials this one combines. -/
def Op.children (o : Op) (root me : Nat) : List Nat := o.devs.filter (fun q => o.parent root q = some me)

/-- A device that a copy reaches along this device's column and then along the row of (r, C), which hosts no member and passes
it on without holding it (R158). -/
def viaColumn (dev : Nat) : Nat := 2 ^ 20 + dev

/-- The devices that a distribution from `me` sends to first (R158): in each other row the device of its own column, and the
member devices of its own row. Where the device of its column hosts no member, that device only forwards: R152 gives it no
descriptor and so no member list, and it holds nothing that could be acknowledged. The root then addresses one copy to each
member device of that row, down its column and along the row through (r, C) (DEDUCED, log entry 103). -/
def Op.spreadFrom (o : Op) (me : Nat) : List Nat :=
  let rows := ((o.devs.map (· / 64)).eraseDups).filter (· != me / 64)
  rows.flatMap (fun r =>
    if o.devs.contains (r * 64 + me % 64) then [r * 64 + me % 64] else (o.devs.filter (fun q => q / 64 = r)).map viaColumn)
    ++ o.devs.filter (fun q => q / 64 = me / 64 && q != me)

/-- The member devices of this device's row. -/
def Op.rowOf (o : Op) (me : Nat) : List Nat := o.devs.filter (fun q => q / 64 = me / 64 && q != me)

/-- The member devices that a distribution copy from the device at (`row`, `col`) is passed to here: those of this row, when the
copy came down this device's own column (R158). -/
def Op.passOn (o : Op) (d : Dev) (row col : Nat) : List Nat := if row != d.row && col = d.col then o.rowOf d.code else []

/-- The devices of other rows that `me` passes a descriptor to, down the columns it stands for in its row (R152): its own, and
those without a member device in this row to which it is the nearest, the lower column on a tie. -/
def Op.columnsOf (o : Op) (me : Nat) : List Nat :=
  o.devs.filter (fun q => q / 64 != me / 64
    && nearest (q % 64) ((List.range 64).filter (fun c => o.devs.contains (me / 64 * 64 + c))) = some (me % 64))

/-! ### Geometry (R95, R96, R163, R180) -/

/-- Format and scaling mode of the elements that are added (R149, R198, R201). -/
def Op.inFmt (o : Op) : Nat × Nat :=
  if o.opc = 0x12 then (bits (o.recs.headD 0) 204 4, bits (o.recs.headD 0) 202 2) else (dscIfmt o.desc, dscIscale o.desc)

/-- Elements of a full chunk (R163). -/
def chunkElems (fmt mode : Nat) : Nat :=
  let w := (fmtOf fmt).w
  if mode = 1 || mode = 2 then (if w = 8 then 3072 else if w = 6 then 4096 else 6144) else 32768 / w

def Op.epc (o : Op) : Nat := chunkElems o.inFmt.1 o.inFmt.2

/-- Accumulator class (R58, R149, R198, R203): a weighted combine and a WSUM are A640 whatever the format. -/
def accClass (desc fmt : Nat) : Nat :=
  let op := dscOp desc
  if op = 0x11 || (op = 0x12 && bits (dscOpx desc) 54 2 = 2) then 1
  else if fmt = 0 then 2
  else if op = 0x12 && (dscOpx desc).testBit 52 then 1
  else 0

/-- The class of an operation's accumulators. Products of FP64 elements are summed exactly in it too (R198, R203; log entry 71). -/
def Op.cls (o : Op) : Nat :=
  if (o.opc = 0x11 || (o.opc = 0x12 && bits o.opx 54 2 = 2)) && o.inFmt.1 = 0 then 3 else accClass o.desc o.inFmt.1

/-- A reduction by comparison (R149). -/
def compares (desc : Nat) : Bool := reduces (dscOp desc) && decide (2 ≤ dscRedop desc)

/-- The size of a frame in bytes (R95). -/
def frameBytes (desc fmt mode : Nat) : Nat :=
  let w := if compares desc then (fmtOf fmt).w / 8 else clsBytes (accClass desc fmt)
  roundUp (64 + chunkElems fmt mode * (w + 1)) 256

/-- Frames per slot and slots per frame (R95, R180). -/
def frameGeom (desc fmt mode : Nat) : Nat × Nat :=
  let size := frameBytes desc fmt mode
  if size ≤ 262144 then (262144 / size, 1) else (1, ceilDiv size 262144)

/-- Reducing stages held at once, from the member devices (R180, R198, R203). -/
def stageCount (op : Nat) (devs : List Nat) : Nat :=
  if op = 0x11 then 1 else if op = 0x12 then 2
  else 1 + b2n (decide (1 < ((devs.map (· % 64)).eraseDups).length)) + b2n (decide (1 < ((devs.map (· / 64)).eraseDups).length))

/-- The slot need of R180. -/
def slotNeed (desc fmt mode : Nat) (devs : List Nat) : Nat :=
  if !claims (dscOp desc) then 0
  else
    let g := frameGeom desc fmt mode
    stageCount (dscOp desc) devs * ceilDiv (dscDepth desc + 1) g.1 * g.2

def Op.geom (o : Op) : Nat × Nat := frameGeom o.desc o.inFmt.1 o.inFmt.2
def Op.need (o : Op) : Nat := slotNeed o.desc o.inFmt.1 o.inFmt.2 o.devs

/-- Elements that the operation's chunks number (R147), and those of one chunk. -/
def Op.total (o : Op) : Nat := o.count * (if o.opc = 3 then o.m else 1)
def Op.chunks (o : Op) : Nat := ceilDiv o.total o.epc
def Op.elems (o : Op) (k : Nat) : Nat := min o.epc (o.total - k * o.epc)

/-- Members whose range of a REDUCE_SCATTER a chunk touches. -/
def Op.owners (o : Op) (k : Nat) : List Nat :=
  (List.range o.m).filter (fun i => decide (i * o.count < k * o.epc + o.elems k) && decide (k * o.epc < (i + 1) * o.count))

/-- Elements that a payload of moved bytes holds (R163, R172). -/
def elemsIn (fmt mode : Nat) (bs : List Byte) : Nat :=
  if mode = 1 || mode = 2 then
    let size := fun (n : Nat) => match decodeMx (fmtOf fmt) (mode = 2) n (1024 * n) bs with | some (_, k) => k | none => bs.length + 1
    1024 * (((List.range 8).find? (fun n => decide (bs.length ≤ size n))).getD 8)
  else bs.length * 8 / (fmtOf fmt).w

/-! ### Chunks (R164-R166) -/

/-- The collective header of frame `i` of `n`. -/
def collSpec (wide : Bool) (c : Chunk) (i n : Nat) : Nat :=
  let base := pack [(224, 32, c.coll), (192, 32, c.chunk), (160, 32, c.crc), (140, 20, c.payload.length), (133, 7, i),
    (126, 7, n - 1), (122, 4, c.kind), (120, 2, c.stage), (56, 20, c.dst), (32, 24, c.src), (0, 32, c.job)]
  base + (if wide && c.kind = 2 then pack [(76, 44, c.doff)] else pack [(96, 24, c.terms), (88, 8, c.scale), (76, 12, c.flags)])

/-- A chunk the device builds: sealed with the CRC of its own payload (R166). -/
def mkChunk (o : Op) (kind chunk stage src dst : Nat) (payload : List Byte) : Chunk :=
  { via := .own, row := 0, col := 0, job := o.job, coll := o.coll, chunk := chunk, crc := crc32c payload, kind := kind, stage := stage,
    terms := 0, scale := 0, flags := 0, dst := dst, src := src, doff := 0, epoch := 0, lost := false,
    badCell := none, payload := payload }

/-- What identifies a chunk for R167: its kind, index, stage, source and destination. -/
def keyOf (c : Chunk) : List Nat := [c.kind, c.chunk, c.stage, c.src, c.dst]

/-- Peers of a chunk: a port set of this device, a link of it, another device. -/
def peerLink (n : Nat) : Nat := 2 ^ 16 + n
def peerDev (dev : Nat) : Nat := 2 ^ 20 + dev

/-- The peer that sent a chunk. -/
def peerOf (c : Chunk) : Nat :=
  match c.via with
  | .endpoint n => peerLink n
  | .fabric _ => peerDev (c.row * 64 + c.col)
  | .own => peerDev (c.row * 64 + c.col)

/-- The first hop of a distribution copy to a device of another row and column: the column stage comes first (R158); where the
column's bundle is unusable, the spare route of R328. -/
def columnHop (p : Part) (d : Dev) (g : Frame) : Hop :=
  let rec0 := 33 + g.drow
  if epochState d g.epoch = 0 || g.drow = d.row || g.dcol = d.col then nextHop p d true g
  else if !unusable p d g.epoch rec0 then
    match pickLink p d g.epoch rec0 g with | some n => .link rec0 n false | none => .lost rec0
  else if unusable p d g.epoch g.dcol then .lost rec0
  else match pickLink p d g.epoch g.dcol g with | some n => .link g.dcol n true | none => .lost rec0

/-- One peer of a frame resolved: the copy it takes, or what happens to it without one (R322, R328, R347). -/
def resolvePeer (p : Part) (f : Frame) (x : Dev × List (Nat × Bool × Frame)) (peer : Nat) : Dev × List (Nat × Bool × Frame) :=
  let d := x.1
  let here := { f with drow := d.row, dcol := d.col }
  if peer < 256 then
    let g := { here with dpset := peer }
    match portPick p d peer (staticHash g) with
    | some n => (d, x.2 ++ [(n, false, g)])
    | none => (buildFrame d g (fun d => deliver p d none g), x.2)
  else if peer < 2 ^ 20 then (d, x.2 ++ [(peer - 2 ^ 16, false, here)])
  else
    let g := { f with drow := peer % 2 ^ 20 / 64, dcol := peer % 64 }
    if d.isFenced g.drow g.dcol || d.isFenced d.row d.col then (d.inc 0x5010 3 0, x.2)
    else
      match (if peer < 2 ^ 21 then nextHop p d true g else columnHop p d g) with
      | .link _ n spare => (if spare then d.inc 0x6012 1 0 else d, x.2 ++ [(n, false, g)])
      | .lost rec => (routeLoss d rec, x.2)
      | .stale => (d.inc 0x6011 4 0, x.2)
      | .here => (d, x.2)

/-- A chunk sent to its peers, on VC0 for control and on the operation's VC otherwise (R165, R170); its cells, held by `holder`
as well when one is given. -/
def sendChunk (p : Part) (d : Dev) (o : Op) (c : Chunk) (peers : List Nat) (holder : Option Nat) : Dev × List Nat :=
  if peers.isEmpty then (d, [])
  else
    let ps := framePieces c.payload
    let vc := if 5 ≤ c.kind then 0 else dscVc o.desc
    ps.zipIdx.foldl (fun x y =>
      let f := x.1.frame 0x01 vc 0 0 0 (collSpec (carriesDoff o.opc) c y.2 ps.length) y.1
      let r := peers.foldl (resolvePeer p f) (x.1, [])
      let cells := match allocFrame r.1 none (frameCells f) with | some z => z.1 | none => []
      (buildFrame r.1 f (fun d =>
        let e := admitCopies d none true (frameCells f) r.2
        match holder with | some h => holdCells e cells h | none => e), x.2 ++ cells)) (d, [])

/-- A control chunk (R165 kinds 5 to 10). -/
def sendCtl (p : Part) (d : Dev) (o : Op) (kind chunk stage src dst : Nat) (payload : List Byte) (peers : List Nat) : Dev :=
  (sendChunk p d o (mkChunk o kind chunk stage src dst payload) peers none).1

/-- The DEVICE-role groves (R103, R256): those not LOST. -/
def deviceGroves (p : Part) (d : Dev) : List Nat :=
  (List.range p.groves).filter (fun g => d.role g = 0 && (d.grove g).phase != .lost)

/-- The holder number of an operation's held chunks: its grove's, or the lowest DEVICE grove's (R242, R261). -/
def opHolder (p : Part) (d : Dev) (o : Op) : Nat := 128 + (match o.grove with | some g => g | none => (deviceGroves p d).headD 0)

/-- The members of a list that are not fenced; each fenced one is a chunk discarded (R173). -/
def unfenced (x : Run) (members : List Nat) : Dev × List Nat :=
  let live := members.filter (fun i => !x.2.fencedAt i)
  (x.1.inc 0x5010 3 0 (members.length - live.length), live)

/-- An output sent and held until every peer has acknowledged it (R169); nothing is sent once the operation has stopped. Fenced
members of this device receive nothing, and that counts (R173). -/
def sendHeld (p : Part) (c : Chunk) (devs members : List Nat) (x : Run) : Run :=
  if x.2.phase = 4 then x
  else
    let cut := members.filter (fun i => match x.2.members[i]? with | some m => m.fenced | none => true)
    let d0 := x.1.inc 0x5010 3 0 cut.length
    let peers := (devs.filter (· != x.1.code)).map peerDev ++ ((members.filter (fun i => !cut.contains i)).map x.2.psetOf).eraseDups
    if peers.isEmpty then (d0, x.2)
    else
      let h := opHolder p x.1 x.2
      let r := sendChunk p d0 x.2 c peers (some h)
      (r.1, { x.2 with outs := x.2.outs ++ [⟨{ c with epoch := d0.sw.stamping }, r.2, h, peers⟩] })

/-- Cells of an arriving chunk taken and held (R169); none when the buffer has none. -/
def holdChunk (p : Part) (d : Dev) (o : Op) (c : Chunk) : Option (List Nat × Dev) :=
  let arr := match c.via with | .endpoint n => some n | .fabric n => some n | .own => none
  let n := ((framePieces c.payload).map (fun b => cellsFor (64 + b.length))).sum
  match allocFrame d arr n with
  | none => none
  | some (cells, d1) => some (cells, releaseCells (holdCells d1 cells (opHolder p d o)) 163 cells)

/-- An input whose outputs are not yet built stays held, in use (R169). -/
def keepInput (h : HeldIn) (x : Run) : Run :=
  (x.1, { x.2 with inputs := x.2.inputs.map (fun i => if keyOf i.c = keyOf h.c then { i with used := true } else i) })

/-- An input of which a reference fails its check as it is used: discarded, and the rest of its cells released (R239). -/
def dropInput (h : HeldIn) (c : Nat) (x : Run) : Run :=
  (releaseCells (badUse x.1 h.holder c) h.holder (heldOf x.1 h.cells),
    { x.2 with inputs := x.2.inputs.filter (fun i => keyOf i.c != keyOf h.c) })

/-- The same for a held output. -/
def dropOut (h : HeldOut) (c : Nat) (x : Run) : Run :=
  (releaseCells (badUse x.1 h.holder c) h.holder (heldOf x.1 h.cells), { x.2 with outs := x.2.outs.filter (· != h) })

/-- Held inputs that satisfy a test released. -/
def releaseInputs (f : HeldIn → Bool) (x : Run) : Run :=
  let go := x.2.inputs.filter f
  (go.foldl (fun d h => releaseCells d h.holder h.cells) x.1, { x.2 with inputs := x.2.inputs.filter (fun h => !f h) })

/-- Held outputs released. -/
def releaseOuts (f : HeldOut → Bool) (x : Run) : Run :=
  let go := x.2.outs.filter f
  (go.foldl (fun d h => releaseCells d h.holder h.cells) x.1, { x.2 with outs := x.2.outs.filter (fun h => !f h) })

/-! ### Acknowledgments and resends (R167-R169) -/

/-- The pending list of one peer, stage, source and destination sent as an ACK chunk. -/
def flushAck (p : Part) (peer stage src dst : Nat) (x : Run) : Run :=
  let mine := fun (a : AckList) => a.peer = peer && a.stage = stage && a.src = src && a.dst = dst
  match x.2.acks.find? mine with
  | none => x
  | some a =>
    (sendCtl p x.1 x.2 7 0 stage src dst ((a.ixs.take 256).flatMap (toBytes 4)) [peer],
      { x.2 with acks := x.2.acks.filter (fun b => !mine b) })

/-- An index added to the acknowledgments of a chunk's sender; a bundle of 16 leaves. -/
def addAck (p : Part) (c : Chunk) (x : Run) : Run :=
  let mine := fun (a : AckList) => a.peer = peerOf c && a.stage = c.stage && a.src = c.src && a.dst = c.dst
  let old := match x.2.acks.find? mine with | some a => a.ixs | none => []
  let a : AckList := ⟨peerOf c, c.stage, c.src, c.dst, old ++ [c.chunk]⟩
  let y : Run := (x.1, { x.2 with acks := x.2.acks.filter (fun b => !mine b) ++ [a] })
  if 16 ≤ a.ixs.length then flushAck p (peerOf c) c.stage c.src c.dst y else y

/-- The number of member COUNTS or moved chunks and the like: an entry of `lists` that is there. -/
def Op.marked (o : Op) (l : List Nat) : Bool := o.lists.contains l
def Op.mark (o : Op) (l : List Nat) : Op := { o with lists := o.lists ++ [l] }

/-- The value kept under a key of `lists`: the entries that begin with it, without it. -/
def Op.listed (o : Op) (key : List Nat) : List (List Nat) :=
  (o.lists.filter (fun l => l.take key.length = key)).map (fun l => l.drop key.length)

end Sys2Proof.Machine
end

