-- ==== Sys2Proof/Machine/PaceOps.lean ====
section
/-! DEFINITION. Pace advances as they are decided and the schedule table's entries (spec/14_pace_and_time.md R368-R384). -/

namespace Sys2Proof.Machine

/-! ### Schedule entries (R379) -/

def schedRec (d : Dev) (i : Nat) : Nat := d.rd 0x8100 0 i
def schedAction (v : Nat) : Nat := bits v 184 8
def schedTarget (v : Nat) : Nat := bits v 192 64
def schedJob (v : Nat) : Nat := bits v 128 32
def schedArg (v : Nat) : Nat := bits v 0 128
def schedDev (v : Nat) : Bool := v.testBit 183

/-- The record of an entry. -/
def mkSched (action target job arg : Nat) (dev : Bool) : Nat :=
  pack [(0, 128, arg), (128, 32, job), (183, 1, b2n dev), (184, 8, action), (192, 64, target)]

/-- The lowest free entry, and how many are free. -/
def schedFree (d : Dev) : Option Nat := (List.range 256).find? (fun i => schedAction (schedRec d i) = 0)
def schedFreeCount (d : Dev) : Nat := ((List.range 256).filter (fun i => schedAction (schedRec d i) = 0)).length

/-- An entry written or freed. -/
def putSched (d : Dev) (i v : Nat) : Dev := d.wr 0x8100 0 i v

/-- The armed entries that satisfy a test. -/
def schedWhere (d : Dev) (f : Nat → Bool) : List Nat :=
  (List.range 256).filter (fun i => schedAction (schedRec d i) != 0 && f (schedRec d i))

/-- The COLL_GO entry of an operation freed (R384). -/
def freeCollGo (d : Dev) (job coll : Nat) : Dev :=
  (schedWhere d (fun v => schedAction v = 5 && schedJob v = job && schedArg v = coll)).foldl (fun d i => putSched d i 0) d

/-! ### Advances (R367, R368) -/

def paceLead (d : Dev) : Nat := d.rd 0x8001 0 0
def tokenLead (d : Dev) : Nat := d.rd 0x8001 1 0
def paceSource (d : Dev) : Nat := d.rd 0x8000 1 0

/-- PACE_STATS (R387): 0 edges applied, 1 stale, 2 framing, 3 CRC, 4 late, 5 foreign. -/
def paceStat (d : Dev) (k : Nat) : Dev := d.inc 0x8002 0 k

/-- The count and the value of every pending advance: a new one must lie above. -/
def paceTop (d : Dev) : Nat := (d.pace.pending.map (fun a => a.w)).foldl max d.pace.count

/-- The measured PACE_OUT flight in whole ARC cycles (R371, R374). -/
def paceFlight (d : Dev) : Nat := d.pace.flight / 4

/-! ### Pace words (R370) -/

/-- One bit taken into the CRC-8 register: polynomial 0x07, no reflection. -/
def crc8Bit (r : Nat) (b : Bool) : Nat :=
  let s := 2 * r % 256
  if b != r.testBit 7 then s ^^^ 0x07 else s

/-- CRC-8 of the 84 bits below the CRC field, in transmission order. -/
def crc8 (v : Nat) : Nat := (List.range 84).foldl (fun r i => crc8Bit r (v.testBit i)) 0

/-- A word as it arrives: W, DLY, and the twelve bits from CAL up to the CRC. -/
def wordAs (w dly upper : Nat) : Nat := pack [(0, 64, w), (64, 16, dly), (80, 12, upper)]

/-- A calibration word as it arrives: W, and the 28 bits above it. -/
def calAs (w upper : Nat) : Nat := pack [(0, 64, w), (64, 28, upper)]

/-- The fields W, DLY, CAL of a word. -/
def wordW (v : Nat) : Nat := bits v 0 64
def wordDly (v : Nat) : Nat := bits v 64 16
def wordCal (v : Nat) : Bool := v.testBit 80

/-- A word's CRC is the right one, and its reserved bits are zero. -/
def wordCrcOk (v : Nat) : Bool := bits v 84 8 = crc8 v
def wordReservedOk (v : Nat) : Bool := bits v 81 3 = 0

/-- The 84 bits of `v` under their CRC, or under its complement (R372). -/
def sealWord (v : Nat) (good : Bool) : Nat := v % 2 ^ 84 + (if good then crc8 v else 255 - crc8 v) * 2 ^ 84

/-- A word of this device. -/
def paceWordOf (w dly : Nat) (cal : Bool) : Nat := sealWord (pack [(0, 64, w), (64, 16, dly), (80, 1, b2n cal)]) true

/-- A word with its start edge on PACE_OUT `back` cycles ago (R370). -/
def putWord (d : Dev) (word back : Nat) (framed : Bool) : Dev :=
  { d with pace := { d.pace with outLast := d.cycle - back + 1 } }.send (.paceWord word framed)

/-- A start edge may leave on PACE_OUT: 1,024 ns have passed since the last one (R370). -/
def outFree (d : Dev) : Bool := d.pace.outLast = 0 || decide (d.pace.outLast + 2764 ≤ d.cycle)

/-- A word that heads the chain launched now (R371, R373): DLY puts the chain's apply time at `due`. -/
def launchWord (d : Dev) (a : Advance) : Dev :=
  putWord d (paceWordOf a.w (min 65535 (paceFlight d + (d.cycle + paceLead d - a.due))) false) 0 true

/-- An advance that heads the chain as well (R373): its word leaves at `due` less PACE_LEAD, or, when that has passed, as soon as the
spacing on the line and the words before it allow. -/
def headChain (d : Dev) (a : Advance) : Dev :=
  if d.cycle + paceLead d < a.due || !outFree d || !d.pace.unlaunched.isEmpty then
    { d with pace := { d.pace with unlaunched := d.pace.unlaunched ++ [a] } }
  else launchWord d a

/-- A chain head cannot meet an apply time when the word would not be whole at the first pin before it (R378). -/
def launchLate (d : Dev) (due : Nat) : Bool := decide (due < d.cycle + paceFlight d + 1608)

/-- An advance taken in (R368): stale, or pending with its apply time. -/
def takeAdvance (d : Dev) (w due : Nat) (late : Bool) : Dev :=
  if w ≤ paceTop d then paceStat d 1 else { d with pace := { d.pace with pending := d.pace.pending ++ [⟨w, due, late⟩] } }

/-- Bytes 32 to 63 of a pace token (R377). -/
def tokenSpec (d : Dev) (w elapsed : Nat) : Nat := pack [(128, 16, ownHome d), (144, 32, elapsed), (176, 64, w), (248, 8, 0x20)]

/-- The master decides an advance (R376, R377): a token to every device of the plane, the chain's word, and its own edge. -/
def decideAdvance (p : Part) (d : Dev) (w : Nat) : Dev :=
  let due := d.cycle + tokenLead d
  let d1 := broadcast p d 0x40 0 0 (tokenSpec d w 0) []
  let late := launchLate d due
  let d2 := takeAdvance (headChain d1 ⟨w, due, late⟩) w due late
  { d2 with pace := { d2.pace with lastEdge := d.cycle + 1 } }

/-- The master may decide now: 1,024 ns have passed since its last decision (R376). -/
def spacingOk (d : Dev) : Bool := d.pace.lastEdge = 0 || decide (d.pace.lastEdge + 2764 ≤ d.cycle)

/-- A trigger of the master: decided now, or held behind the advances that it already holds. At the largest count there is nothing to
advance to: the count never wraps (R367). -/
def masterTrigger (p : Part) (d : Dev) : Dev :=
  let w := d.pace.trigger.foldl max (paceTop d) + 1
  if paceSource d != 3 || 2 ^ 64 ≤ w then d
  else if d.pace.trigger.isEmpty && spacingOk d then decideAdvance p d w
  else { d with pace := { d.pace with trigger := d.pace.trigger ++ [w] } }

end Sys2Proof.Machine
end

