-- ==== Sys2Proof/Machine/CollEnd.lean ====
section
/-! DEFINITION. How a collective is admitted, starts, completes and aborts: slots, tickets and slicing, the start round, the
completion round, reports of aborts (spec/06_collectives.md R160, R173-R179, spec/09_buffers_and_slots.md R253-R262). -/

namespace Sys2Proof.Machine

/-! ### Slots (R253-R255) -/

/-- Operations that hold slots of a grove. -/
def slotOps (d : Dev) (g : Nat) : List Op := d.colls.ops.filter (fun o => o.grove = some g && !o.slots.isEmpty)

/-- Free slots of a class's reserve (class 0 is VC3), and free shared slots. -/
def reserveFree (d : Dev) (g c : Nat) : Nat := 2 - ((slotOps d g).map (fun o => o.fromReserve.getD c 0)).sum
def sharedFree (d : Dev) (g : Nat) : Nat := 24 - ((slotOps d g).map (fun o => o.slots.length - o.fromReserve.sum)).sum

/-- The lowest-numbered free aligned groups of `m` slots (R254). -/
def freeGroups (d : Dev) (g m : Nat) : List Nat :=
  let used := slotsHeld d g
  (List.range (32 / max m 1)).filter (fun j => (List.range m).all (fun k => !used.contains (m * j + k)))

/-- The class of an operation: 0 for VC3 to 3 for VC6. -/
def Op.vclass (o : Op) : Nat := dscVc o.desc - 3

/-- The operation can claim its groups in a grove when `n` slots count as free (R253, R254). -/
def fitsWith (d : Dev) (o : Op) (g n : Nat) : Bool :=
  let m := o.geom.2
  decide (o.need ≤ n) && decide (o.need ≤ m * (freeGroups d g m).length)

/-- The operation fits in a grove (R253). -/
def fits (d : Dev) (o : Op) (g : Nat) : Bool := fitsWith d o g (reserveFree d g o.vclass + sharedFree d g)

/-- Groves in which a waiting operation may claim: after a spill to grove memory only that grove (R261), and none that stands still
for its substitute (R457). -/
def mayClaim (p : Part) (d : Dev) (o : Op) : List Nat :=
  (deviceGroves p d).filter (fun g => !(d.grove g).paused && match o.spill with | some h => h = 255 || h = g | none => true)

/-- Slots taken from each class's reserve: the own class first, then the shared slots, then what the aging owner is lent. -/
def takeReserves (d : Dev) (o : Op) (g : Nat) : List Nat :=
  let own := min o.need (reserveFree d g o.vclass)
  let rest := o.need - own - min (o.need - own) (sharedFree d g)
  let lend := fun (acc : List Nat × Nat) (c : Nat) =>
    let k := if c = o.vclass then own else min acc.2 (reserveFree d g c)
    (acc.1 ++ [k], if c = o.vclass then acc.2 else acc.2 - k)
  ((List.range 4).foldl lend ([], rest)).1

/-- A claim (R254): the lowest-numbered free groups, all in one step. -/
def claimSlots (d : Dev) (o : Op) (g : Nat) : Dev :=
  let m := o.geom.2
  let gs := (freeGroups d g m).take (o.need / max m 1)
  let o1 := { o with grove := some g, slots := gs.flatMap (fun j => (List.range m).map (m * j + ·)), fromReserve := takeReserves d o g,
                     waiting := false, aged := false, idle := false, quantum := 0 }
  let d1 := putOp (d.inc 0x5210 0 0) o1
  if d1.colls.target.map Prod.snd = some o.ticket then { d1 with colls := { d1.colls with target := none } } else d1

/-- The grove with the most slots free to an operation, the lowest number on a tie. -/
def mostFree (d : Dev) (o : Op) : List Nat → Option Nat
  | [] => none
  | g :: gs =>
    match mostFree d o gs with
    | none => some g
    | some h =>
      if reserveFree d g o.vclass + sharedFree d g < reserveFree d h o.vclass + sharedFree d h then some h else some g

/-- One waiting operation in the scan of R257. In fixed-cycle mode nothing ages and no grove is a target: the order is that of
R222. -/
def scanOne (p : Part) (d : Dev) (key : Nat × Nat) : Dev :=
  match findOp d key.1 key.2 with
  | none => d
  | some o =>
    if !o.waiting then d
    else
      let gs := mayClaim p d o
      let d1 := if o.aged && !d.inFcm && d.colls.target.isNone then
          match mostFree d o gs with
          | some g => { d with colls := { d.colls with target := some (g, o.ticket) } }
          | none => d
        else d
      match (if d.inFcm then none else d1.colls.target) with
      | some (g, t) =>
        if t = o.ticket then
          let lent := if (deviceGroves p d1).length = 1 then reserveFree d1 g o.vclass else ((List.range 4).map (reserveFree d1 g)).sum
          if fitsWith d1 o g (lent + sharedFree d1 g) then claimSlots d1 o g else d1
        else
          match gs.find? (fun x => x != g && fits d1 o x) with | some x => claimSlots d1 o x | none => d1
      | none => match gs.find? (fits d1 o) with | some x => claimSlots d1 o x | none => d1

/-- A list kept in ascending order of a measure. -/
def insertBy {α : Type} (f : α → Nat) (x : α) : List α → List α
  | [] => [x]
  | y :: ys => if f x < f y then x :: y :: ys else y :: insertBy f x ys
def sortBy {α : Type} (f : α → Nat) (xs : List α) : List α := xs.foldl (fun acc x => insertBy f x acc) []

/-- Waiting operations in ticket order, in fixed-cycle mode in ascending (JOB, COLL) order (R222, R257). -/
def waitingOps (d : Dev) : List Op :=
  sortBy (fun o => if d.inFcm then o.job * 2 ^ 32 + o.coll else o.ticket) (d.colls.ops.filter (fun o => o.waiting))

/-- The scan of R257. -/
def scanSlots (p : Part) (d : Dev) : Dev := (waitingOps d).foldl (fun d o => scanOne p d (o.job, o.coll)) d

/-! ### Yields (R260, R261) -/

/-- A waiting operation's record in SLOT_QUEUE (R264). -/
def slotQueueRec (d : Dev) (o : Op) : Nat :=
  pack [(0, 64, o.ticket), (64, 32, o.coll), (96, 32, o.job), (128, 8, o.need), (136, 8, dscVc o.desc), (144, 8, b2n o.aged),
    (152, 8, b2n o.yielded), (160, 32, min 0xFFFFFFFF ((d.tick - o.queuedAt) / 2700))]

/-- Another operation waits and fits, or would fit, in an operation's grove, or the grove is an aging target. -/
def yieldWanted (p : Part) (d : Dev) (o : Op) : Bool :=
  match o.grove with
  | none => false
  | some g =>
    let d1 := putOp d { o with slots := [], fromReserve := [] }
    d.colls.target.map Prod.fst = some g
      || d.colls.ops.any (fun w => w.waiting && !w.is o.job o.coll && (mayClaim p d w).contains g && fits d1 w g)

/-- A frame as a spill writes it (R71, R95, R261): its 64-byte header with the term count, the chunk and the class, then a state
image for each accumulator; of a compare frame each running value with its state byte (DESIGN CHOICE of the order in the header,
log entry 104). -/
def frameImage (f : AFrame) : List Byte :=
  let cls := match f.accs with | a :: _ => a.cls | [] => 0
  toBytes 64 (pack [(0, 64, f.terms), (64, 32, f.chunk), (96, 8, cls), (104, 16, f.flags)]) ++ f.accs.flatMap accImage
    ++ f.cmp.flatMap (fun c => toBytes 8 c.1 ++ toBytes 1 (b2n c.2))
def spillImage (fs : List AFrame) : List Byte := fs.flatMap frameImage

/-- Bytes of the frames written as state images with their headers. -/
def spillBytes (fs : List AFrame) : Nat :=
  (fs.map (fun f => 64 + (f.accs.map (fun a => imageBytes a.cls)).sum + 9 * f.cmp.length)).sum

/-- Spill room in use in one grove's memory, or with 255 in the stacks. -/
def spillUsed (d : Dev) (g : Nat) : List (Nat × Nat) :=
  (d.colls.ops.filter (fun o => o.spill = some g)).map (fun o => (o.spillAt, spillBytes o.spilled))

/-- The first 4 MiB of a grove's general memory, banks 40 to 63, are the spill area of a DEVICE-role grove (R94, R261; DESIGN CHOICE,
log entry 104). -/
def groveSpillBase : Nat := 40 * 2 ^ 18

/-- The state images of spilled frames written to their place: a grove's memory, or with 255 the stack spill area. -/
def writeSpill (p : Part) (d : Dev) (g at_ : Nat) (fs : List AFrame) : Dev :=
  if g = 255 then writeArea p d (areaBase p d 2 + at_) (spillImage fs)
  else d.setGrove g { d.grove g with gmem := (d.grove g).gmem.writeN 0#8 (groveSpillBase + at_) (spillImage fs) }

/-- The place that a yield's frames go to: the grove's own memory when they fit there, else the stacks. -/
def spillPlace (d : Dev) (g n : Nat) : Option (Nat × Nat) :=
  match firstGap (4 * 2 ^ 20) n (spillUsed d g) with
  | some a => some (g, a)
  | none => (firstGap (d.mem.spillGib * 2 ^ 30) n (spillUsed d 255)).map (fun a => (255, a))

/-- An operation that entered the queue and did not fit at once is counted (R264). -/
def noteWait (d : Dev) (job coll : Nat) : Dev :=
  match findOp d job coll with
  | some o => if o.waiting then d.inc 0x5210 1 0 else d
  | none => d

/-- A yield: frames saved as state images, slots released, the operation waits again with its ticket; without room it keeps its
slots. Frames of an earlier yield that have not been restored stay saved where they are (R261). What the images say stands in
`spilled` as well; the layout and the place of their bytes are the model's (log entry 104). -/
def yieldOp (p : Part) (d : Dev) (o : Op) : Dev :=
  let restored := o.spilled.isEmpty
  let place := if !restored then o.spill.map (fun g => (g, o.spillAt))
    else if o.frames.isEmpty then none
    else spillPlace d (o.grove.getD 0) (spillBytes o.frames)
  if place.isNone && !o.frames.isEmpty then (putOp d { o with quantum := 0, idle := false }).inc 0x5210 6 0
  else
    let d1 := (putOp d { o with frames := [], spilled := if restored then o.frames else o.spilled, spill := place.map Prod.fst,
                                spillAt := (place.map Prod.snd).getD 0, grove := none,
                                slots := [], fromReserve := [], waiting := true, queuedAt := d.tick, aged := false, yielded := true,
                                quantum := 0, idle := false }).inc 0x5210 3 0
    let d2 := match place with
      | none => d1
      | some (h, a) =>
        if restored then writeSpill p (if h = 255 then d1.inc 0x5210 5 0 else d1.inc 0x5210 4 0) h a o.frames else d1
    if d2.inFcm then d2 else noteWait (scanSlots p d2) o.job o.coll

/-- An operation looked at for a yield (R260): at the end of a quantum of 16 sealed chunks, or when it has been idle for
SLICE_IDLE, one is made if it is wanted; a quantum that ends without one begins again. An operation that is held makes none. -/
def yieldDue (p : Part) (d : Dev) (o : Op) : Dev :=
  if o.slots.isEmpty || o.phase = 4 || o.paused then d
  else if (16 ≤ o.quantum || o.idle) && yieldWanted p d o then yieldOp p d o
  else if 16 ≤ o.quantum then putOp d { o with quantum := 0 } else d

/-- The yields that are due outside fixed-cycle mode; in it they wait for the next clean boundary (R262). -/
def yieldsDue (p : Part) (d : Dev) : Dev :=
  if d.inFcm then d
  else d.colls.ops.foldl (fun d o => match findOp d o.job o.coll with | some x => yieldDue p d x | none => d) d

/-! ### Aborts (R173, R174) -/

/-- Bytes of a member mask (R177). -/
def maskBytes (o : Op) (mask : Nat) : List Byte := toBytes (ceilDiv o.m 8) mask

/-- Precedence of final statuses (R174): FENCED, CHECK_FAIL, BAD_FIELD, WAIT_CYCLE; 0 for a status that no abort has. -/
def abortRank (st : Nat) : Nat :=
  if st = stFenced then 4 else if st = stCheckFail then 3 else if st = stBadField then 2 else if st = stWaitCycle then 1 else 0

/-- Two reports joined: the status of higher precedence, the OR of the masks. -/
def joinAbort (o : Op) (st mask : Nat) : Op :=
  { o with status := if abortRank o.status < abortRank st then st else o.status, mask := o.mask ||| mask }

/-- The operation stops: no further seal, nothing more sent or delivered; held chunks are released. -/
def stopOp (x : Run) : Run :=
  let y := releaseOuts (fun _ => true) (releaseInputs (fun _ => true) x)
  (freeCollGo y.1 y.2.job y.2.coll, { y.2 with phase := 4, frames := [], spilled := [], spill := none, acks := [] })

/-- The devices of D, but this one, that are not fenced (R174). -/
def otherDevs (x : Run) : List Nat := x.2.devs.filter (fun q => q != x.1.code && !devFenced x.1 q)

/-- An ABORT chunk to devices. -/
def sendAbort (p : Part) (x : Run) (devs : List Nat) : Dev :=
  sendCtl p x.1 x.2 10 0 0 (x.2.lowest x.1.code) 0 (BitVec.ofNat 8 x.2.status :: maskBytes x.2 x.2.mask) (devs.map peerDev)

/-- This device's own report noted where the reports are gathered. -/
def noteOwn (x : Run) : Run := (x.1, { x.2 with reports := (x.2.reports ++ [x.1.code]).eraseDups })

/-- An abort that this device reports. One that comes while the operation already aborts, a fence point, is reported too: every
member device learns of it, the control root that takes the place of a fenced one among them (R173, R174). -/
def reportAbort (p : Part) (st : Nat) (x : Run) : Run :=
  let y : Run := (x.1, joinAbort x.2 st x.2.fencedMask)
  let z := if x.2.phase = 4 then y else stopOp y
  noteOwn (sendAbort p z (otherDevs z), z.2)

/-- Device memory that DEVICE-role work reads: what the interface reports of it, and the work, or the end of the operation with
CHECK_FAIL when a word must not be used (R355, R356). -/
def readArea (p : Part) (rs : List (Nat × Nat)) (x : Run) (f : Run → Run) : Run :=
  match checkReads p x.1 rs with
  | (d, none) => f (d, x.2)
  | (d, some a) => reportAbort p stCheckFail (poisonEvent p d a 3 0, x.2)

/-- An ABORT received: this device stops in the same way and reports to the control root. One whose status is none of R174's is
no report and counts as a chunk of a reserved kind does (DESIGN CHOICE, log entry 70). -/
def takeAbort (p : Part) (c : Chunk) (x : Run) : Run :=
  let st := ofBytes (c.payload.take 1)
  if abortRank st = 0 then (x.1.inc 0x5010 4 0, x.2)
  else
    let y : Run := (x.1, { joinAbort x.2 st (ofBytes (c.payload.drop 1) ||| x.2.fencedMask) with
      reports := (x.2.reports ++ [x.2.devOf c.src]).eraseDups })
    let ctl := ctlRoot y.1 y.2
    let z := if y.2.phase = 4 then y else stopOp y
    let d1 := if x.2.phase = 4 then z.1 else if ctl = z.1.code then sendAbort p z (otherDevs z) else sendAbort p z [ctl]
    noteOwn (d1, z.2)

/-! ### Start round (R160, R384) -/

/-- GO leaves a device for those behind it in the distribution, and reaches its endpoints. -/
def passGo (p : Part) (devs : List Nat) (x : Run) : Run :=
  let o := { x.2 with go := true, phase := 2 }
  let live := unfenced x (o.here x.1)
  let peers := (devs.filter (· != x.1.code)).map peerDev ++ (live.2.map o.psetOf).eraseDups
  (sendCtl p (freeCollGo live.1 o.job o.coll) o 5 1 0 (o.lowest x.1.code) 0 [] peers, o)

/-- The control root sends GO. -/
def sendGo (p : Part) (x : Run) : Run := passGo p (x.2.spreadFrom x.1.code) x

/-- Every ADMIT is held at the control root. -/
def allAdmitted (o : Op) : Bool := o.devs.all (fun q => o.admits.any (fun a => a.1 = q))

/-- ADMITs complete: GO, or an abort when the tables differ (R200); with PACE_EN GO waits for its edge. -/
def goCheck (p : Part) (x : Run) : Run :=
  if x.2.phase != 1 || ctlRoot x.1 x.2 != x.1.code || !allAdmitted x.2 then x
  else if x.2.admits.any (fun a => a.2 != x.2.tableCrc) then reportAbort p stBadField x
  else if dscPaceEn x.2.desc then x
  else sendGo p x

/-- An ADMIT at this device: kept at the control root, passed up the stage tree elsewhere. -/
def takeAdmit (p : Part) (src crc : Nat) (x : Run) : Run :=
  let ctl := ctlRoot x.1 x.2
  if ctl = x.1.code then goCheck p (x.1, { x.2 with admits := x.2.admits.filter (fun a => a.1 != x.2.devOf src) ++ [(x.2.devOf src, crc)] })
  else
    match x.2.parent ctl x.1.code with
    | some q => (sendCtl p x.1 x.2 5 0 0 src 0 (toBytes 4 crc) [peerDev q], x.2)
    | none => x

/-- The scaling context an operation needs (R46). -/
def scaleNeed (o : Op) : Option Nat :=
  if claims o.opc && cvMode (dscCvt o.desc) = 3 then some (cvCtx (dscCvt o.desc)) else none

/-- The records of tables that an operation reads once, when it is admitted (R200): a pooling table's record and its shard
entries, a filter's set or range. -/
def tableRecs (d : Dev) (desc : Nat) : List Nat :=
  let op := dscOp desc
  let x := dscOpx desc
  if op = 0x12 || op = 0x13 then
    let r := d.rd 0x5100 0 (bits x 56 8)
    r :: (List.range (bits r 144 16)).map (fun k => d.rd 0x5101 0 (bits r 128 16 + k))
  else if op = 0x14 then [if bits x 60 4 < 2 then d.rd 0x5112 0 (bits x 54 4) else d.rd 0x5110 0 (bits x 54 4)]
  else []

/-- CRC-32C of those records (R200): 0 for an operation without any. -/
def tableCrcOf (desc : Nat) (recs : List Nat) : Nat :=
  match recs with
  | [] => 0
  | r :: rs => crc32c (toBytes (if dscOp desc = 0x14 then 16 else 32) r ++ rs.flatMap (toBytes 8))

/-- The route table of a dispatch. -/
def findRoute (d : Dev) (job coll : Nat) : Option RouteTab := d.colls.routes.find? (fun r => r.job = job && r.coll = coll)

def putRoute (d : Dev) (r : RouteTab) : Dev :=
  { d with colls := { d.colls with routes := d.colls.routes.map (fun x => if x.job = r.job && x.coll = r.coll then r else x) } }

def dropRoute (d : Dev) (job coll : Nat) : Dev :=
  { d with colls := { d.colls with routes := d.colls.routes.filter (fun x => !(x.job = job && x.coll = coll)) } }

/-- The membership as the tables stand now (R156); none when a rank has no entry. -/
def snapshotOf (d : Dev) (job : Nat) (ranks : List Nat) : Option (List Member) :=
  ranks.mapM (fun r => (rttOf d job r).map (fun e =>
    let row := bits e 53 6
    let col := bits e 47 6
    { rank := r, plane := bits e 59 3, row := row, col := col, pset := bits e 39 8, fenced := fenceCovers d (e.testBit 62) row col (bits e 39 8) }))

/-- Where a table of `n` bytes fits in the 8 GiB route area (R196). -/
def routeRoom (d : Dev) (n : Nat) : Option Nat := firstGap (8 * 2 ^ 30) n (d.colls.routes.map (fun r => (r.at_, r.bytes)))

/-- Bytes of the table that a dispatch reserves here (R196). -/
def routeSize (d : Dev) (o : Op) : Nat := (o.here d).length * opxTmax o.opx * opxChoices o.opx * 16

/-- A route table's 16-byte entries, one for each choice in the order in which they were made: expert, weight, kept state, row at
the host (DESIGN CHOICE of the layout, log entry 104). -/
def routeImage (r : RouteTab) : List Byte :=
  r.choices.flatMap (fun c => toBytes 16 (pack [(0, 16, c.expert), (16, 32, c.weight), (48, 1, b2n c.kept), (64, 32, c.row)]))

/-- Where a route table's entries lie in device memory. -/
def routeRange (p : Part) (d : Dev) (r : RouteTab) : Nat × Nat := (areaBase p d 1 + r.at_, 16 * r.choices.length)

/-- The route table that an admitted dispatch reserves, and its use by an admitted combine (R196). -/
def reserveRoute (d : Dev) (o : Op) : Dev :=
  let x := o.opx
  if o.opc = 0x10 then
    { d with colls := { d.colls with routes := d.colls.routes ++
        [⟨o.job, o.coll, o.members.map (fun m => m.rank), (routeRoom d (routeSize d o)).getD 0, routeSize d o, opxExperts x, [], [], [], [], false⟩] } }
  else if o.opc = 0x11 then
    match findRoute d o.job (bits x 32 32) with | some r => putRoute d { r with inUse := true } | none => d
  else d

/-- An operation admitted (R160): the membership is taken (R156), its scaling context and route table are, its tables are read, and
its ADMIT goes up. A member that was fenced between the descriptor and now ends it FENCED, as a fence point does (R173; log
entry 67). -/
def admitOp (p : Part) (x : Run) : Run :=
  let o0 := match snapshotOf x.1 x.2.job (x.2.members.map (fun m => m.rank)) with
    | some ms => { x.2 with members := ms }
    | none => x.2
  let recs := tableRecs x.1 o0.desc
  let crc := tableCrcOf o0.desc recs
  let d := reserveRoute x.1 o0
  let y : Run := match scaleNeed o0 with
    | none => (d, o0)
    | some n => ((noteNamed d o0.job n).setCtx n { d.ctx n with busy := true }, { o0 with scale := some (n, d.rd 0x4300 1 n) })
  let z := takeAdmit p (y.2.lowest y.1.code) crc (y.1, { y.2 with phase := 1, recs := recs, tableCrc := crc })
  if z.2.members.any (fun m => m.fenced) then reportAbort p stFenced z
  else match scaleNeed o0 with
    | some n => readArea p [histRange p z.1 n] z id
    | none => z

/-- A combine's route table is in use by another (R197). -/
def routeBusy (d : Dev) (o : Op) : Bool :=
  o.opc = 0x11 && (match findRoute d o.job (bits o.opx 32 32) with | some r => r.inUse | none => false)

/-- An operation can be admitted now: it holds its slots, and its scaling context and route table are free, or there is room for its
own table (R46, R196, R197). -/
def canAdmit (d : Dev) (o : Op) : Bool :=
  o.phase = 0 && !o.waiting && !routeBusy d o && (o.opc != 0x10 || (routeRoom d (routeSize d o)).isSome) && (match scaleNeed o with | some n => !(d.ctx n).busy | none => true)

/-! ### Completion (R175-R178) -/

/-- The completion record (R177). -/
def mkRecord (o : Op) (pace flags status mask : Nat) : Nat :=
  let nf := ((List.range o.m).filter (fun i => mask.testBit i)).length
  pack [(0, 32, if status = stFenced then ceilDiv o.m 8 else 0), (32, 32, nf), (80, 8, o.opc), (88, 8, status), (96, 32, flags),
    (128, 32, o.job), (160, 32, o.coll), (192, 64, pace)]

/-- A magnitude as DONE_UP and DONE carry it between devices read back. -/
def readAmax (bs : List Byte) : Nat × Nat :=
  let n := ofBytes (bs.take 4)
  let rest := bs.drop (4 + n)
  let k := ofBytes (rest.take 4)
  if bs.isEmpty then (0, 1) else (ofBytes ((bs.drop 4).take n), max 1 (ofBytes ((rest.drop 4).take k)))

/-- What the end of an operation does to route tables (R196): a dispatch's table is written to its place. -/
def settleRoutes (p : Part) (d : Dev) (o : Op) (ok : Bool) : Dev :=
  if o.opc = 0x10 then
    match findRoute d o.job o.coll with
    | none => d
    | some r =>
      if !ok then dropRoute d o.job o.coll
      else
        let pick := fun (k : Nat) => (o.listed [k]).map (fun l => (l.getD 0 0, l.getD 1 0))
        let row := fun (l : List Nat) => (⟨l.getD 0 0, l.getD 1 0, l.getD 2 0, l.getD 3 0, l.getD 4 0, true, l.getD 5 0⟩ : Choice)
        let r1 := { r with tokens := pick 10, nanTokens := pick 11, choices := o.choices, rows := (o.listed [32]).map row }
        writeArea p (putRoute d r1) (routeRange p d r1).1 (routeImage r1)
  else if o.opc = 0x11 && o.admitted then
    let dc := bits o.opx 32 32
    match findRoute d o.job dc with
    | none => d
    | some r => if o.opx.testBit 31 then putRoute d { r with inUse := false } else dropRoute d o.job dc
  else d

/-- The completion record written at a member device, and the entry freed (R155, R177, R428). -/
def finalize (p : Part) (d : Dev) (o : Op) (rec : Nat) (mask : List Byte) (amax : Nat × Nat) : Dev :=
  let ok := bits rec 88 8 = stOK
  let live := unfenced (d, o) (o.here d)
  let d1 := sendCtl p live.1 o 9 0 0 (o.lowest d.code) 0 (toBytes 32 rec) ((live.2.map o.psetOf).eraseDups)
  let d2 := sendCtl p d1 o 9 0 0 (o.lowest d.code) 0 (toBytes 32 rec ++ mask) (o.linkWriters.map peerLink)
  let entry := (toBytes 32 rec ++ mask ++ List.replicate 8712 0).take 8744
  let d3 := if o.dictWriters.isEmpty then d2 else { d2 with colls := { d2.colls with doneLog := (entry :: d2.colls.doneLog).take 64 } }
  let d4 := if !ok then emit d3 0x5002 (bits rec 88 8) 2 false 0x5003 0 rec
    else if o.dictWriters.isEmpty then d3 else emit d3 0x5001 stOK 7 false 0x5003 0 rec
  let d5 := if ok && o.opc = 8 && o.job = d.rd 0x8001 3 0 && o.job != 0 then masterTrigger p d4 else d4
  let x := stopOp (d5, o)
  let d6 := match o.scale with | some (n, _) => storeHist p (freeScale x.1 n (if ok then some amax else none)) n | none => x.1
  let d7 := dropOp (settleRoutes p d6 o ok) o.job o.coll
  let cs := { d7.colls with target := if d7.colls.target.map Prod.snd = some o.ticket then none else d7.colls.target,
                            ended := if ok then (o.job, o.coll) :: d7.colls.ended else d7.colls.ended }
  { d7 with colls := cs }

/-- The control root ends an operation: DONE to the members, its own record, the set of CMPL_FLAG (R174, R176, R178). -/
def finishAt (p : Part) (d : Dev) (o : Op) : Dev :=
  let ok := o.status = stOK
  let done := mkRecord o d.pace.visible o.flags o.status o.mask
  let mask := if o.status = stFenced then maskBytes o o.mask else []
  let extra := if ok && o.scale.isSome then amaxBytes o.amax else mask
  let devs := if ok then o.spreadFrom d.code else o.devs.filter (· != d.code)
  let d1 := sendCtl p d o 9 0 0 (o.lowest d.code) 0 (toBytes 32 done ++ extra) (devs.map peerDev)
  let d2 := finalize p d1 o done mask o.amax
  if dscFlag o.desc = 0 then d2 else signalFlag p d2 o.job (dscFlag o.desc)

/-- What the operations of chapter 7 owe at this device (R194, R198, R203, R205, R211). -/
def chapter7Done (d : Dev) (o : Op) : Bool :=
  let own := o.here d
  if o.opc = 0x10 then
    own.all (fun i => o.marked [18, i] && (match o.listed [17, i] with
      | [n] :: _ => decide ((o.got.filter (fun k => k.drop 2 = [i])).length = n)
      | _ => false))
  else if o.opc = 0x11 then
    match findRoute d o.job (bits o.opx 32 32) with
    | none => false
    | some r =>
      own.all (fun i =>
        let t := ((r.tokens.find? (fun x => x.1 = i)).map Prod.snd).getD 0
        (List.range (ceilDiv (t * o.count) o.epc)).all (fun k => o.got.contains [k, i]))
      && (r.rows.filter (fun c => own.contains (c.expert / (max 1 (r.experts / max 1 r.members.length))))).all (fun c =>
        o.marked [19, c.expert / (max 1 (r.experts / max 1 r.members.length)), c.row])
  else if o.opc = 0x12 then own.all (fun i => o.marked [22, i])
  else if o.opc = 0x13 then
    own.all (fun i => (List.range o.count).all (fun pos => o.marked [28, i, pos]))
  else
    let epc := 4096 / max 1 (keyBytes (bits o.opx 50 4))
    let dest := if o.opx.testBit 58 then true else own.contains (o.memberOf (dscRoot o.desc))
    own.all (fun i => (List.range (ceilDiv o.count epc)).all (fun k => !(o.listed [29, i, k]).isEmpty))
      && (!dest || o.marked [31])

/-- Every RESULT this device owes is delivered and acknowledged, and everything it had to send on is sent (R176). -/
def dueDone (d : Dev) (o : Op) : Bool :=
  let own := o.here d
  let me := d.code
  let sealedAll := (List.range o.chunks).all (fun k => o.sealed_.contains k)
  let work :=
    match o.opc with
    | 1 => sealedAll && (List.range o.chunks).all (fun k => o.got.contains [k])
    | 2 => sealedAll && (o.devOf (o.memberOf (dscRoot o.desc)) != me || (List.range o.chunks).all (fun k => o.got.contains [k]))
    | 3 => sealedAll && (List.range o.chunks).all (fun k => !(o.owners k).any (fun i => own.contains i) || o.got.contains [k])
    | 4 => (List.range o.m).all (fun i => (List.range o.chunks).all (fun k => o.got.contains [k, i]))
    | 5 => (List.range o.chunks).all (fun k => o.got.contains [k, o.memberOf (dscRoot o.desc)])
    | 6 => (List.range o.m).all (fun i => (List.range o.m).all (fun j =>
        !(own.contains i || own.contains j) || (List.range o.chunks).all (fun k => o.got.contains [k, i, j])))
    | 7 => o.marked [7] && own.all (fun j => o.marked [34, j]) && o.counts.all (fun c => (List.range (ceilDiv c.2.2 o.epc)).all (fun k => o.got.contains [k, c.1, c.2.1]))
    | 8 => own.all (fun i => o.got.contains [0, i])
    | _ => chapter7Done d o
  work && o.outs.isEmpty && o.inputs.all (fun h => h.used)

/-- A completion report at this device: kept at the control root, passed up elsewhere. -/
def takeDoneUp (p : Part) (src flags : Nat) (amax : Nat × Nat) (x : Run) : Run :=
  let ctl := ctlRoot x.1 x.2
  if ctl = x.1.code then
    (x.1, { x.2 with flags := x.2.flags ||| flags, amax := magMax x.2.amax amax,
                     doneUps := (x.2.doneUps ++ [x.2.devOf src]).eraseDups })
  else
    match x.2.parent ctl x.1.code with
    | some q => (sendCtl p x.1 x.2 8 0 0 src 0 (toBytes 4 flags ++ amaxBytes amax) [peerDev q], x.2)
    | none => x

/-- An operation looked at after something happened to it: its DONE_UP leaves when nothing is owed, and the control root ends it
when every report is in. -/
def advanceOp (p : Part) (d : Dev) (job coll : Nat) : Dev :=
  match findOp d job coll with
  | none => d
  | some o =>
    let y : Run :=
      if o.phase = 2 && !o.upSent && dueDone d o then
        takeDoneUp p (o.lowest d.code) o.flags o.amax (d, { o with upSent := true, phase := 3 })
      else (d, o)
    let d1 := putOp y.1 y.2
    let o1 := y.2
    if ctlRoot d1 o1 != d1.code then d1
    else if o1.phase = 4 then
      if (o1.devs.filter (fun q => !devFenced d1 q)).all (fun q => o1.reports.contains q) then finishAt p d1 o1 else d1
    else if (o1.phase = 2 || o1.phase = 3) && o1.devs.all (fun q => o1.doneUps.contains q) then finishAt p d1 o1
    else d1

/-- Every operation looked at, slots scanned, and what can now be admitted admitted; `fuel` rounds, since an admission can end
another wait. -/
def settleColl (p : Part) : Nat → Dev → Dev
  | 0, d => d
  | fuel + 1, d =>
    let d1 := d.colls.ops.foldl (fun d o => advanceOp p d o.job o.coll) d
    let d2 := if d1.inFcm then d1 else yieldsDue p (scanSlots p d1)
    let ready := d2.colls.ops.filter (canAdmit d2)
    if ready.isEmpty then d2
    else
      settleColl p fuel (ready.foldl (fun d o =>
        match findOp d o.job o.coll with
        | none => d
        | some o => if canAdmit d o then let y := admitOp p (d, o); putOp y.1 y.2 else d) d2)

/-- A run put back, its quantum looked at, and what follows settled. -/
def commitRun (p : Part) (x : Run) : Dev :=
  settleColl p (x.1.colls.ops.length + 1) (yieldsDue p (putOp x.1 x.2))

/-- Work on one admitted operation; an operation that is not here leaves the device as it is. -/
def onOp (p : Part) (d : Dev) (job coll : Nat) (f : Run → Run) : Dev :=
  match findOp d job coll with
  | none => d
  | some o => commitRun p (f (d, o))

end Sys2Proof.Machine
end

