-- ==== Sys2Proof/Machine/Egress.lean ====
section
/-! DEFINITION. The egress scheduler: one decision of a link, and the age mark (spec/11_scheduling.md R299-R312, spec/10_ports_and_links.md
R277, R278, R281, R283, R286, spec/08_determinism_contract.md R222). -/

namespace Sys2Proof.Machine

/-- Credits of a frame drawn, from the floor first (R281). -/
def drawCredit (l : Link) (f : Frame) : Link :=
  if f.vc = 7 then l
  else
    let c := cellsFor (64 + f.payload.length)
    let fl := min c (l.credFloor.get 0 f.vc)
    { l with credFloor := l.credFloor.set 0 f.vc (l.credFloor.get 0 f.vc - fl), credShared := l.credShared - (c - fl) }

/-- STAMP of a frame sent now (R272). -/
def stampNow (d : Dev) : Nat := if d.inFcm then fcmNow d else 0

/-- Bytes 32 to 63 as the frame leaves: a pace token's ELAPSED grows by its residence and the outgoing link's flight (R377). -/
def leavingSpec (d : Dev) (l : Link) (x : Copy) : Nat :=
  if x.f.ty = 0x40 && bits x.f.spec 248 8 = 0x20 then
    setBits x.f.spec 144 32 (bits x.f.spec 144 32 + (d.tick - x.t) + l.flight / 4)
  else x.f.spec

/-- The frame of a copy as it leaves on a link now. The copy kept for a replay bears the ELAPSED that it came with, so that each
sending adds its whole residence once (R377). -/
def leavingFrame (d : Dev) (n : Nat) (x : Copy) : Frame := { x.f with spec := leavingSpec d (d.link n) x }

/-- A copy sent on an LFP link (R277, R281): its LSEQ, its credits, its place in the replay buffer. -/
def sendCopy (d : Dev) (n q : Nat) (x : Copy) : Dev :=
  let l := d.link n
  let y := { x with f := { x.f with stamp := stampNow d } }
  let l1 := { drawCredit l x.f with lseqTx := (l.lseqTx + 1) % 256, replay := l.replay ++ [⟨l.lseqTx, q, y⟩] }
  linkCtr (linkCtr ((d.setLink n l1).send (.frame n (leavingFrame d n y) l.lseqTx x.poison)) n 0) n 2 (copyBytes x)

/-- The SSEQ of a copy that leaves for the first time (R283). -/
def numberCopy (d : Dev) (n : Nat) (x : Copy) : Copy × Dev :=
  let key := streamKey d n x.f.vc
  let k := d.sw.txSseq.get 0 key
  ({ x with f := { x.f with sseq := k } }, { d with sw := { d.sw with txSseq := d.sw.txSseq.set 0 key ((k + 1) % 65536) } })

/-- The bytes of an Ethernet copy as they leave: one that ends poisoned carries the complement of its FCS (R280). -/
def ethBytes (x : Copy) : List Byte :=
  let k := x.f.payload.length - 4
  if x.poison then x.f.payload.take k ++ (x.f.payload.drop k).map (fun b => ~~~b) else x.f.payload

/-- A frame in which a cell returns an uncorrectable error as it is read is a failed frame check: counted on its arrival link, and
its copy ends poisoned (R241, R280). -/
def readCells (d : Dev) (x : Copy) : Copy × Dev :=
  if x.poison || !x.cells.any (cellBad d) then (x, d)
  else ({ x with poison := true }, match x.fromLink with | some a => linkCtr d a 7 | none => d)

/-- The head of a queue starts: statistics, the age mark, then the frame itself (R280, R308, R311). An Ethernet copy is released
once it is sent. -/
def startFrame (d0 : Dev) (n q : Nat) (x0 : Copy) (rest : List Copy) : Dev :=
  let x := (readCells d0 x0).1
  let d := (readCells d0 x0).2
  let e := d.eq n q
  let e1 := { e with fifo := rest, ageMark := max e.ageMark (headAge d e), frames := (e.frames + 1) % 2 ^ 64,
                     bytes := (e.bytes + effLen d n x) % 2 ^ 64 }
  let d1 := if x.poison then linkCtr (d.setEq n q e1) n 11 else d.setEq n q e1
  if x.eth then releaseCopy (linkCtr (linkCtr (d1.send (.ethFrame n (ethBytes x))) n 0) n 2 (copyBytes x)) n q x
  else sendCopy (numberCopy d1 n x).2 n q (numberCopy d1 n x).1

/-- L_eff taken from a queue's bucket, and its tag advanced when it is a weighted queue (R306, R308). -/
def chargeFrame (d : Dev) (n q : Nat) (x : Copy) : Dev :=
  let e := d.eq n q
  let len := effLen d n x
  let e1 := if shapeRate d n q = 0 then e else { e with debt := bucketDebt d n q + len * 21600, debtAt := d.tick }
  d.setEq n q (if 2 ≤ q then { e1 with s := (e.s + ceilDiv (len * 65536) (qWeight d n q)) % 2 ^ 96 } else e1)

/-- A queue served outside fixed-cycle mode. -/
def serveQueue (d : Dev) (n q : Nat) : Dev :=
  match (d.eq n q).fifo with
  | [] => d
  | x :: rest =>
    match badRef d x.cells with
    | some c => discardCopy (d.setEq n q { d.eq n q with fifo := rest }) n q c x
    | none => startFrame (chargeFrame d n q x) n q x rest

/-- A weighted queue that is pending for promotion (R310). -/
def pendingQueue (d : Dev) (n q : Nat) : Bool :=
  qAge d n q != 0 && queueElig d n q
    && (match (d.eq n q).fifo with | x :: _ => decide (qAge d n q * 27000 < (d.tick - x.t) * 10) | [] => false)

/-- The queue whose head was admitted first, the lowest number on a tie. -/
def oldestHead (d : Dev) (n : Nat) : List Nat → Option Nat
  | [] => none
  | q :: qs =>
    let t := fun k => match (d.eq n k).fifo with | x :: _ => x.t | [] => 0
    match oldestHead d n qs with
    | none => some q
    | some r => if t r < t q then some r else some q

/-- At most one queue promoted; one newly promoted goes first at its level (R299, R310). -/
def promoteQueue (d : Dev) (n : Nat) : Dev :=
  let sc := d.sched n
  match sc.promoted with
  | some _ => d
  | none =>
    match oldestHead d n (((List.range 16).drop 2).filter (pendingQueue d n)) with
    | some q => d.setSched n { sc with promoted := some (q, 0), alt := true }
    | none => d

/-- The promoted queue sends a frame (R310): counted at its first, over when the mark is reached. -/
def servePromoted (d : Dev) (n q sent : Nat) : Dev :=
  match (d.eq n q).fifo with
  | [] => d
  | x :: _ =>
    let d1 := if sent = 0 then (d.setEq n q { d.eq n q with promotions := ((d.eq n q).promotions + 1) % 2 ^ 64 }).inc 0x3103 1 0 else d
    let more := sent + effLen d n x
    serveQueue (d1.setSched n { d1.sched n with promoted := if 4223 ≤ more then none else some (q, more), alt := false }) n q

/-- The weighted level (R306). -/
def serveWeighted (d : Dev) (n : Nat) : Dev :=
  match minTag d n (((List.range 16).drop 2).filter (queueElig d n)) with
  | none => d
  | some q => serveQueue (d.setSched n { d.sched n with v := (d.eq n q).s }) n q

/-- The levels of R299. -/
def serveLevels (d : Dev) (n : Nat) : Dev :=
  let d1 := promoteQueue d n
  if queueElig d1 n 0 then serveQueue d1 n 0
  else
    match (d1.sched n).promoted with
    | some x =>
      if queueElig d1 n 1 && !(d1.sched n).alt then serveQueue (d1.setSched n { d1.sched n with alt := true }) n 1
      else servePromoted d1 n x.1 x.2
    | none => if queueElig d1 n 1 then serveQueue d1 n 1 else serveWeighted d1 n

/-- The queue of the slot of the present crossbar cycle (R222). -/
def slotQueue (d : Dev) (n : Nat) : Nat := bits (d.modes.fcmSlots.get (dflt 0x8401 0 n) n) (8 * (fcmXbar d % 64)) 8

/-- The slot table in place of the levels; no tag, virtual time or bucket changes (R222, R312). -/
def serveSlot (d : Dev) (n : Nat) : Dev :=
  let q := slotQueue d n
  if 16 ≤ q || !queueElig d n q then d
  else
    match (d.eq n q).fifo with
    | [] => d
    | x :: rest =>
      match badRef d x.cells with
      | some c => discardCopy (d.setEq n q { d.eq n q with fifo := rest }) n q c x
      | none => startFrame d n q x rest

/-- Frames moved to or kept for the link go first, in order, with their SSEQ (R286). -/
def serveKept (d : Dev) (n : Nat) (x : Copy) (rest : List Copy) : Dev :=
  let d1 := d.setLink n { d.link n with resend := rest }
  match badRef d x.cells with
  | some c => discardCopy d1 n (queueOf d n x.f) c x
  | none =>
    let y := readCells d1 x
    sendCopy (if y.1.poison then linkCtr y.2 n 11 else y.2) n (queueOf d n x.f) y.1

/-- A kept frame may go before the queues: in fixed-cycle mode only in a slot of its queue (R222, R286). -/
def keptTurn (d : Dev) (n : Nat) (x : Copy) : Bool :=
  hasCredit (d.link n) x.f && (!d.inFcm || slotQueue d n = queueOf d n x.f)

/-- One decision of a link that is free to start a frame. -/
def decide_ (d0 : Dev) (n : Nat) : Dev :=
  let d := settleElig d0 n
  let l := d.link n
  let levels := fun (d : Dev) => if d.inFcm then serveSlot d n else serveLevels d n
  settleElig (
    if isEthernet d n then levels d
    else if 64 ≤ l.replay.length then d
    else match l.resend with
      | x :: rest => if keptTurn d n x then serveKept d n x rest else levels d
      | [] => levels d) n

/-- A cell that one of a link's copies names returned an uncorrectable error when it was read (R241). -/
def readFails (d : Dev) (n : Nat) (bad : Option Nat) : Dev :=
  match bad with
  | some c => if (linkCells d n).contains c then failCell d c else d
  | none => d

/-- EGRESS_DECISION (R299, R303, R306): the link is free to start a frame. -/
def execEgressDecision (i : EgressInfo) (s : State) : Res :=
  liftAt s (s.part.hasLink i.link) fun _ d =>
    if portRuns d i.link && (d.link i.link).carries then decide_ (readFails d i.link i.bad) i.link else d

/-- AGE_MARK_UPDATE (R311). -/
def execAgeMarkUpdate (n q : Nat) (s : State) : Res :=
  liftAt s (s.part.hasLink n && decide (q < 16)) fun _ d =>
    let e := d.eq n q
    if e.fifo.isEmpty || !d.runs domXbar then d else d.setEq n q { e with ageMark := max e.ageMark (headAge d e) }

/-! ### Cut-through and poison (R279, R280, R241) -/

/-- The frame rate of a link over the given lanes, in Gb/s (R268). -/
def frameRate (d : Dev) (n lanes : Nat) : Nat :=
  match d.linkMode n with | 1 => if lanes = 15 then 1600 else 1200 | 2 => 800 | 3 => 1600 | _ => 0

/-- A copy on link `m` can have begun: the link runs, is no faster than the arrival link, is not an LFP link that an Ethernet link
feeds (R279), and could start the frame. -/
def couldBegin (d : Dev) (n m : Nat) (x : Copy) : Bool :=
  x.fromLink = some n && portRuns d m && (d.link m).carries && (isEthernet d m || !isEthernet d n)
    && decide (frameRate d m (d.link m).txLanes ≤ frameRate d n (d.link n).rxLanes)
    && (isEthernet d m || (decide ((d.link m).replay.length < 64) && hasCredit (d.link m) x.f))

/-- The copies that `r` has placed beyond those of `d`, each with its queue. -/
def newCopies (d r : Dev) : List (Nat × Copy) :=
  r.sw.queues.flatMap (fun q => (q.2.fifo.drop (d.sw.queues.get EQueue.init q.1).fifo.length).map (fun x => (q.1, x)))

/-- A copy under way ends poisoned: it has left its queue, is counted and kept like any other, and carries the mark (R280). -/
def endPoisoned (arr : Nat) (d : Dev) (y : Nat × Copy) : Dev :=
  let m := y.1 / 16
  let q := y.1 % 16
  let x := { y.2 with poison := true }
  let d1 := placeCopy d m q x
  let d2 := if x.headroom then withhold d1 arr (heldKey d1 arr x.f.rclass x.f) m q else d1
  let d3 := if d.inFcm then d2 else chargeFrame d2 m q x
  settleElig (startFrame d3 m q x (d3.eq m q).fifo.dropLast) m

/-- What stays of a frame of link `n` that is discarded as it arrives (R241, R280): a cell of it that failed is marked, and the copies
under way on the named links end poisoned: those that `routed`, the device that has passed the frame on, gives it there. -/
def cutShort (d : Dev) (n : Nat) (routed : Option Dev) (under : List Nat) (bad : Option Nat) : Dev :=
  let d1 := match bad.bind ((arrivingCells d)[·]?) with | some c => failCell d c | none => d
  match routed with
  | none => d1
  | some r =>
    ((newCopies d r).filter (fun y => under.contains (y.1 / 16) && couldBegin d n (y.1 / 16) y.2)).foldl (endPoisoned n) d1

end Sys2Proof.Machine
end

