-- ==== Sys2Proof/Machine/Ethernet.lean ====
section
/-! DEFINITION. Ethernet mode and mirroring: VLANs, the MAC table, flooding, PFC, samples (spec/10_ports_and_links.md R292-R297). -/

namespace Sys2Proof.Machine

/-! ### Mirroring (R295, R296) -/

/-- The 64 bytes of an LFP frame header (R272), with a LEN field. -/
def headerBytes (f : Frame) (len : Nat) : List Byte :=
  toBytes 32 (pack [(140, 32, f.stamp), (172, 16, f.sseq), (188, 4, f.hops), (192, 4, f.rclass), (196, 6, f.scol), (202, 6, f.srow),
    (208, 8, f.dpset), (216, 6, f.dcol), (222, 6, f.drow), (228, 13, len), (241, 3, f.plane), (244, 1, f.epoch), (245, 3, f.vc),
    (248, 8, f.ty)]) ++ toBytes 32 f.spec

/-- The cell that the sample queue holds: the first of the frame at ingress, or a cell of the sample's own when the frame goes to a
unit that has not taken its cells yet (log entry 58). -/
def sampleCell (d : Dev) (n : Nat) : Option Nat × Dev :=
  match arrivingCells d with
  | c :: _ => (some c, holdCells d [c] 160)
  | [] =>
    match allocFrame d (some n) 1 with
    | some (cs, d1) => (cs.head?, releaseCells (holdCells d1 cs 160) 163 cs)
    | none => (none, d)

/-- A frame counted for mirroring on its arrival link; every Nth one is sampled, unless the queue is full (R295). `flags` are
those of R296 from bit 1 on. -/
def mirror (d : Dev) (n : Nat) (bytes : List Byte) (len flags vc : Nat) : Dev :=
  let period := d.rd 0x2020 0 n
  if period = 0 then d
  else
    let l := d.link n
    if l.mirrorCount + 1 < period then d.setLink n { l with mirrorCount := l.mirrorCount + 1 }
    else
      let d1 := d.setLink n { l with mirrorCount := 0 }
      if 4096 ≤ d.sw.samples.length then d1.inc 0x2020 3 0
      else
        let x := sampleCell d1 n
        { x.2 with sw := { x.2.sw with samples := x.2.sw.samples ++
          [⟨x.1, bytes.take 128, d.pace.visible, d.pace.wall, n, len, flags + b2n (decide (128 < bytes.length)), vc⟩] } }

/-- MIRROR_N of a link written: the count of its frames starts again (R295). -/
def setMirror (p : Part) (d : Dev) (n v : Nat) : Dev :=
  if !p.hasLink n then d else (d.wr 0x2020 0 n v).setLink n { (d.link n) with mirrorCount := 0 }

/-- MIRROR_N's rule. -/
def mirrorRule (p : Part) (n v : Nat) (d : Dev) : Dev × Nat :=
  if 128 ≤ n || (1 ≤ v && v < 16) || 16777216 < v then refuse d stBadField else accept (setMirror p d n v)

/-- MIRROR_N_WRITE (R295, R297). -/
def execMirrorNWrite (rq : Rq) (n v : Nat) (s : State) : Res :=
  lift s fun p d => serve d rq ⟨2, 0x2020, 0, 4 * n, true, 4, 0, toBytes 4 v⟩
    (fun _ d => ((mirrorRule p n (v % 2 ^ 32) d).1, some (Rsp.st (mirrorRule p n (v % 2 ^ 32) d).2 (if (mirrorRule p n (v % 2 ^ 32) d).2 = stOK then 0 else n))))

/-! ### Frames (R292, R293) -/

/-- One bit of a reflected CRC-32 register (IEEE 802.3). -/
def crc32Bit (r : Nat) : Nat := if r % 2 = 1 then (r / 2) ^^^ 0xEDB88320 else r / 2

/-- CRC-32 of IEEE 802.3 (R271). -/
def crc32 (bs : List Byte) : Nat :=
  0xFFFFFFFF - bs.foldl (fun r b =>
    crc32Bit (crc32Bit (crc32Bit (crc32Bit (crc32Bit (crc32Bit (crc32Bit (crc32Bit (r ^^^ b.toNat))))))))) 0xFFFFFFFF

/-- The FCS of a whole Ethernet frame is the right one (R292, R298). -/
def fcsGood (bytes : List Byte) : Bool := ofBytes (bytes.drop (bytes.length - 4)) = crc32 (bytes.take (bytes.length - 4))

/-- What the FEC of a link corrected and failed to correct counted (R298). -/
def countFec (d : Dev) (n : Nat) (x : Fec) : Dev := linkCtr (linkCtr (linkCtr d n 4 x.corrected) n 5 x.uncorr) n 6 x.symbols

/-- Bytes in network order as a number. -/
def netNat (bs : List Byte) : Nat := bs.foldl (fun a b => a * 256 + b.toNat) 0

/-- An Ethernet frame taken apart: destination, source, tag (PCP and VLAN), and the rest without FCS. -/
structure EthFrame where
  dst : Nat
  src : Nat
  tag : Option (Nat × Nat)
  rest : List Byte
  deriving DecidableEq, Repr

/-- A frame from destination address to FCS read. -/
def parseEth (bs : List Byte) : EthFrame :=
  let body := bs.take (bs.length - 4)
  let tci := netNat ((body.drop 14).take 2)
  let tagged : Bool := netNat ((body.drop 12).take 2) = 0x8100
  ⟨netNat (body.take 6), netNat ((body.drop 6).take 6), if tagged then some (tci / 8192, tci % 4096) else none,
    body.drop (if tagged then 16 else 12)⟩

/-- A number as bytes in network order. -/
def netBytes (n v : Nat) : List Byte := (toBytes n v).reverse

/-- A frame put together, tagged or not, with its FCS; an untagged frame is filled up to 64 bytes (log entry 60). -/
def buildEth (x : EthFrame) (tagged : Bool) (pcp vlan : Nat) : List Byte :=
  let tag := if tagged then netBytes 2 0x8100 ++ netBytes 2 (pcp * 8192 + vlan) else []
  let body := netBytes 6 x.dst ++ netBytes 6 x.src ++ tag ++ x.rest
  let body := body ++ List.replicate (60 - body.length) 0
  body ++ toBytes 4 (crc32 body)

/-- An ETH_VLAN record (R297): member mask, untagged mask, valid, FABRIC. -/
def vlanRec (d : Dev) (v : Nat) : Nat := d.rd 0x2011 0 v
def vlanMember (d : Dev) (v n : Nat) : Bool := (vlanRec d v).testBit n
def vlanUntagged (d : Dev) (v n : Nat) : Bool := (vlanRec d v).testBit (128 + n)
def vlanValid (d : Dev) (v : Nat) : Bool := (vlanRec d v).testBit 256
def vlanFabric (d : Dev) (v : Nat) : Bool := (vlanRec d v).testBit 257

/-- The MAC entry of an address (R293). -/
def findMac (d : Dev) (vlan mac : Nat) : Option MacEnt := d.sw.macs.find? (fun m => m.vlan = vlan && m.mac = mac)

/-- A source address learned: an entry on a new port replaces the old one; with 65,536 entries nothing new is learned, and the
frame is counted in RX_DISCARDS of its arrival link (R293). Group addresses are not sources. -/
def learn (d : Dev) (n : Nat) (m : MacEnt) : Dev :=
  if (m.mac / 2 ^ 40) % 2 = 1 then d
  else
    match findMac d m.vlan m.mac with
    | some _ => { d with sw := { d.sw with macs := d.sw.macs.map (fun x => if x.vlan = m.vlan && x.mac = m.mac then m else x) } }
    | none =>
      if 65536 ≤ d.sw.macs.length then linkCtr d n 12 else { d with sw := { d.sw with macs := m :: d.sw.macs } }

/-- A group address, 01-80-C2-00-00-00 to -0F, that is never forwarded (R292). -/
def reservedMac (mac : Nat) : Bool := decide (0x0180C2000000 ≤ mac ∧ mac ≤ 0x0180C200000F)

/-- The VC of a priority (R294). -/
def pcpVc (d : Dev) (pcp : Nat) : Nat := d.rd 0x2010 0 pcp

/-- The copy of a frame for a local Ethernet link. The bytes that leave hold no LFP header; EPOCH and HOPS of the frame keep here
the epoch that it is stamped with, if any, and HOPS 1 says that it is (R332). -/
def ethCopy (d : Dev) (x : EthFrame) (vlan pcp : Nat) (stamped : Option Nat) (m : Nat) : Nat × Bool × Frame :=
  (m, true, { ty := 0x30, vc := pcpVc d pcp, epoch := stamped.getD 0, plane := 0, drow := 0, dcol := 0, dpset := 0, srow := 0, scol := 0,
              rclass := pcp, hops := b2n stamped.isSome, sseq := 0, stamp := 0, spec := 0,
              payload := buildEth x (!vlanUntagged d vlan m) pcp vlan })

/-- Local links that a VLAN's frames may leave on. -/
def vlanLinks (p : Part) (d : Dev) (vlan : Nat) : List Nat :=
  (List.range p.links).filter (fun m => vlanMember d vlan m && isEthernet d m && !d.pairOdd m && (d.link m).carries)

/-- The ETH frame of a frame for the fabric (R273, R293): tagged, so that the VLAN travels with it (log entry 60). -/
def ethFrame (d : Dev) (x : EthFrame) (vlan pcp row col dpset : Nat) : Frame :=
  d.frame 0x30 (pcpVc d pcp) row col dpset 0 (buildEth x true pcp vlan)

/-- A good frame of an Ethernet link, at ingress, learned and forwarded (R293). -/
def forwardEth (p : Part) (d : Dev) (n : Nat) (bytes : List Byte) : Dev :=
  let x := parseEth bytes
  let pvid := d.rd 0x2011 1 n
  let pcp := match x.tag with | some t => t.1 | none => 0
  let vlan := match x.tag with | some t => if t.2 = 0 then pvid else t.2 | none => pvid
  if reservedMac x.dst then
    (if netNat (x.rest.take 4) = 0x88080101 then d else linkCtr d n 12)
  else if !vlanValid d vlan || !vlanMember d vlan n then linkCtr d n 12
  else
    let d1 := learn d n ⟨vlan, x.src, false, 0, 0, n⟩
    let lossless := (d.rd 0x2010 1 n).testBit pcp
    let charge := cellsFor (d.rd 0x2010 3 0)
    let local_ := fun (d : Dev) (ls : List Nat) (stamped : Option Nat) =>
      admitCopies d (some n) lossless charge (ls.map (ethCopy d x vlan pcp stamped)) pcp
    match (if (x.dst / 2 ^ 40) % 2 = 1 then none else findMac d1 vlan x.dst) with
    | some m =>
      if !m.remote then local_ d1 (if m.link = n then [] else [m.link]) none
      else routeFrame p d1 (some n) true (ethFrame d1 x vlan pcp m.row m.col m.link) pcp
    | none =>
      let d2 := local_ d1 ((vlanLinks p d1 vlan).filter (· != n)) (if vlanFabric d vlan then some d.sw.stamping else none)
      if !vlanFabric d vlan then d2
      else
        spreadFrame p (d2.inc 0x6030 3 0 (fencedPeers d2)) (some n) true (ethFrame d2 x vlan pcp 0 0 0xFF)
          (columnStage d2 d2.col ++ rowStage d2) pcp

/-- PCP of an Ethernet frame, 0 when it is untagged (R301). -/
def ethPcp (bytes : List Byte) : Nat := match (parseEth bytes).tag with | some t => t.1 | none => 0

/-- A frame of an Ethernet link taken up at ingress: sampled, checked, forwarded; copies under way of a frame that is discarded end
with the complement of their FCS (R274, R280, R292, R295). -/
def takeEth (p : Part) (n : Nat) (bytes : List Byte) (fec : Fec) (under : List Nat) (bad : Option Nat) (d : Dev) : Dev :=
  let fenced := (d.link n).isFenced
  let size := decide (64 ≤ bytes.length) && decide (bytes.length ≤ d.rd 0x2010 3 0)
  let good := fcsGood bytes && fec.uncorr = 0
  let d1 := mirror d n bytes bytes.length (4 * b2n (!good) + 8 * b2n (fenced && good) + 16) (pcpVc d (ethPcp bytes))
  let cut := fun (d : Dev) => cutShort d n (if under.isEmpty || fenced || d.inFcm then none else some (forwardEth p d n bytes)) under bad
  if !good then linkCtr (cut d1) n 7
  else if fenced || !size then linkCtr (cut d1) n 12
  else if bad.isSome then linkCtr (cut d1) n 7
  else
    let d2 := linkCtr (linkCtr d1 n 1) n 3 bytes.length
    if d2.inFcm then d2.inc 0x8400 5 0 else forwardEth p d2 n bytes

/-- ETHERNET_FRAME_RX (R241, R274, R279, R280, R292, R293). -/
def execEthernetFrameRx (n : Nat) (bytes : List Byte) (i : EthInfo) (s : State) : Res :=
  liftAt s (s.part.hasLink n) fun p d =>
    if !portRuns d n || !isEthernet d n || d.pairOdd n || !(d.link n).live then d
    else ingress (countFec d n i.fec) (some n) (pcpVc d (ethPcp bytes)) bytes.length none (takeEth p n bytes i.fec i.under i.badCell)

/-- An ETH frame at its destination device, at ingress (R293): one whose entry is fenced is discarded (R347); the source is learned as a
remote device, whose link the frame does not name (a free value); then delivery to a local link, or flooding to local members and
the row stage of a broadcast, whose copies are one-hop frames (R158, R333). -/
def ethFabric (p : Part) (d : Dev) (n : Nat) (f : Frame) : Dev :=
  let x := parseEth f.payload
  let pcp := match x.tag with | some t => t.1 | none => 0
  let vlan := match x.tag with | some t => t.2 | none => 0
  let d1 := learn d.draw.2 n ⟨vlan, x.src, true, f.srow, f.scol, d.draw.1 % 128⟩
  let send := fun (d : Dev) (ls : List Nat) => admitCopies d (some n) (f.vc != 7) (frameCells f) (ls.map (ethCopy d x vlan pcp (some f.epoch))) pcp
  if d.isFenced f.srow f.scol then fenceDiscard d f
  else if !vlanValid d vlan then linkCtr d n 12
  else if f.dpset = 0xFF then
    let d2 := send d1 (vlanLinks p d1 vlan)
    if f.srow != d.row && nearest f.scol (rowDevices d d.row) = some d.col then
      spreadFrame p (d2.inc 0x6030 3 0 (fencedRowPeers d2)) (some n) true { f with hops := 1 } (rowStage d2) pcp
    else d2
  else send d1 ((vlanLinks p d1 vlan).filter (· = f.dpset))

/-- ETH_FABRIC_FRAME (R293). -/
def execEthFabricFrame (n : Nat) (f : Frame) (s : State) : Res :=
  liftAt s (s.part.hasLink n) fun p d =>
    if !d.runs domXbar || !d.works 6 then d
    else
      ingress d (some n) f.vc (64 + f.payload.length) none (fun d =>
        if f.drow = d.row && f.dcol = d.col then ethFabric p d n f else routeFrame p d (some n) false f)

/-! ### PFC (R294) -/

/-- A PFC frame of one priority as its bytes lie on the line (IEEE 802.1Qbb, R294): for the sample queue. -/
def pfcBytes (src prio time : Nat) : List Byte :=
  let body := netBytes 6 0x0180C2000001 ++ netBytes 6 src ++ netBytes 4 0x88080101 ++ netBytes 2 (2 ^ prio)
    ++ (List.range 8).flatMap (fun k => netBytes 2 (if k = prio then time else 0)) ++ List.replicate 26 0
  body ++ toBytes 4 (crc32 body)

/-- PFC_FRAME_RX (R222, R294, R295): a time of 0 resumes; in fixed-cycle mode it is discarded with all Ethernet-mode traffic. A frame of
any type counts for mirroring, discarded ones included. -/
def execPfcFrameRx (n prio : Nat) (i : PfcInfo) (s : State) : Res :=
  liftAt s (s.part.hasLink n && decide (prio < 8)) fun _ d0 =>
    if !portRuns d0 n || !isEthernet d0 n || d0.pairOdd n || !(d0.link n).live then d0
    else
    let d := mirror d0 n (pfcBytes i.src prio i.time) 64 (8 * b2n (d0.link n).isFenced + 16) (pcpVc d0 0)
    if (d.link n).isFenced then linkCtr d n 12
    else if d.inFcm then d.inc 0x8400 5 0
    else
      let d1 := linkCtr d n 14
      settleElig (d1.setLink n { d1.link n with paused := putBit (d1.link n).paused prio (decide (0 < i.time)) }) n

/-- PFC_PAUSE_EXPIRY (R294). -/
def execPfcPauseExpiry (n prio : Nat) (s : State) : Res :=
  liftAt s (s.part.hasLink n && decide (prio < 8)) fun _ d =>
    settleElig (d.setLink n { d.link n with paused := putBit (d.link n).paused prio false }) n

/-- PFC_XOFF_REPEAT (R294): every 50 µs while withholding. -/
def execPfcXoffRepeat (n prio : Nat) (s : State) : Res :=
  liftAt s (s.part.hasLink n && decide (prio < 8)) fun _ d =>
    if portRuns d n && isEthernet d n && (d.link n).carries && (d.link n).xoff.testBit prio then sendPfc d n prio 0xFFFF else d

/-! ### The MAC table (R293, R297) -/

/-- ETH_MAC_AGE_EXPIRY (R293). -/
def execEthMacAgeExpiry (vlan mac : Nat) (s : State) : Res :=
  lift s fun _ d => { d with sw := { d.sw with macs := d.sw.macs.filter (fun m => !(m.vlan = vlan && m.mac = mac)) } }

/-- ETH_MAC_FLUSH's rule. -/
def flushMacRule (v : Nat) (d : Dev) : Dev × Nat :=
  if v = 0xFFFF then accept { d with sw := { d.sw with macs := [] } }
  else if 4096 ≤ v then refuse d stBadField
  else accept { d with sw := { d.sw with macs := d.sw.macs.filter (fun m => m.vlan != v) } }

/-- ETH_MAC_FLUSH (R297). -/
def execEthMacFlush (rq : Rq) (v : Nat) (s : State) : Res :=
  lift s fun _ d => serveWrite d rq 0x2012 2 (toBytes 2 v) (flushMacRule (v % 65536))

end Sys2Proof.Machine
end

