-- ==== Sys2Proof/Machine/Links.lean ====
section
/-! DEFINITION. Links: control, training, handshake, retry, credits, lanes, received frames, resequencing (spec/10_ports_and_links.md
R272-R291, R491, R492, spec/12_routing_and_canopy.md R317, R321, R324, R377). -/

namespace Sys2Proof.Machine

/-! ### LINK_CTRL (R492) -/

/-- The 8 bytes of a LINK_CTRL write. -/
def linkCtrlBytes (n op : Nat) : List Byte := toBytes 8 (n % 256 + 256 * op)

/-- An op on a link that is there. -/
def linkOp (n : Nat) (rule : Part → Dev → Dev × Nat) (p : Part) (d : Dev) : Dev × Nat :=
  if !p.hasLink n then refuse d stBadField else rule p d

/-- Bring-up, unless the link's port group failed its self-test: such a link stays FAILED (R434). -/
def beginLink (p : Part) (d : Dev) (n : Nat) : Dev :=
  if badPort d n then d else settleCommit p (settleWaiting p (startTraining p d n))

/-- Enable's rule. -/
def enableRule (n : Nat) (p : Part) (d : Dev) : Dev × Nat :=
  let st := (d.link n).st
  if (st == .disabled || st == .failed) && d.linkMode n != 0 then accept (beginLink p d n) else refuse d stNotReady

/-- LINK_ENABLE (R492). -/
def execLinkEnable (rq : Rq) (n : Nat) (s : State) : Res :=
  lift s fun p d => serveWrite d rq 0x2001 1 (linkCtrlBytes n 1) (linkOp (n % 256) (enableRule (n % 256)) p)

/-- Disable's rule. -/
def disableRule (n : Nat) (p : Part) (d : Dev) : Dev × Nat :=
  accept (settleCommit p (settleWaiting p (if badPort d n then d else disableLink p d n)))

/-- LINK_DISABLE (R492). -/
def execLinkDisable (rq : Rq) (n : Nat) (s : State) : Res :=
  lift s fun p d => serveWrite d rq 0x2001 1 (linkCtrlBytes n 2) (linkOp (n % 256) (disableRule (n % 256)) p)

/-- A retrain counted in LANE_EVENTS and started (R288, R298). -/
def retrain (p : Part) (d : Dev) (n : Nat) : Dev := beginLink p (linkCtr d n 15) n

/-- Retrain's rule. -/
def retrainRule (n : Nat) (p : Part) (d : Dev) : Dev × Nat :=
  if (d.link n).st == .disabled then refuse d stNotReady else accept (retrain p d n)

/-- LINK_RETRAIN (R492). -/
def execLinkRetrain (rq : Rq) (n : Nat) (s : State) : Res :=
  lift s fun p d => serveWrite d rq 0x2001 1 (linkCtrlBytes n 3) (linkOp (n % 256) (retrainRule (n % 256)) p)

/-- Restore lane's rule: the failed lane trains alone while the link carries traffic. -/
def restoreRule (n : Nat) (_p : Part) (d : Dev) : Dev × Nat :=
  if (d.link n).st == .degraded && d.linkMode n = 1 then
    accept (if (d.link n).rxLanes = 15 then d else d.setLink n { d.link n with restoring := true })
  else refuse d stNotReady

/-- LINK_RESTORE_LANE (R291, R492). -/
def execLinkRestoreLane (rq : Rq) (n : Nat) (s : State) : Res :=
  lift s fun p d => serveWrite d rq 0x2001 1 (linkCtrlBytes n 4) (linkOp (n % 256) (restoreRule (n % 256)) p)

/-- LINK_ERASE_COEFFICIENTS (R289, R492). -/
def execLinkEraseCoefficients (rq : Rq) (n : Nat) (s : State) : Res :=
  lift s fun p d => serveWrite d rq 0x2001 1 (linkCtrlBytes n 5) (linkOp (n % 256) (fun _ d => accept (eraseCoef d (n % 256))) p)

/-! ### Training, qualification, handshake (R288, R289) -/

/-- An Ethernet link that has trained, and is now `l`, is UP (R292). -/
def ethernetUp (p : Part) (d : Dev) (n : Nat) (l : Link) : Dev :=
  settleWaiting p (moveLink d n { l with st := .up, rxLanes := 15, txLanes := 15 })

/-- A failed training: the third makes the link FAILED (R287). -/
def trainingFailed (p : Part) (d : Dev) (n : Nat) : Dev :=
  let l := d.link n
  if l.tries + 1 < 3 then d.setLink n { l with tries := l.tries + 1, full := true }
  else
    let d1 := dropKept d n
    settleWaiting p (linkFailed d1 n 1 { ((d1.link n).down .failed) with tries := 0 })

/-- LINK_TRAINING_END (R287, R288): equalization ended, in the lane order and polarity it found. -/
def execLinkTrainingEnd (n : Nat) (ok : Bool) (order polarity : Nat) (s : State) : Res :=
  liftAt s (s.part.hasLink n) fun p d =>
    let l := d.link n
    if !portRuns d n || l.st != .training then d
    else if !ok then trainingFailed p d n
    else
      let l' := { l with order := order % 256, polarity := polarity % 16 }
      if isEthernet d n then ethernetUp p d n l' else moveLink d n { l' with st := .qualifying }

/-- Every lane's ratio is at most LINK_QUAL_BER, as FP32 encodings, and no codeword was uncorrectable (R288). -/
def qualifies (d : Dev) (bers : List Nat) (uncorr : Bool) : Bool :=
  !uncorr && bers.all (fun b => decide (b ≤ d.rd 0x2001 3 0))

/-- The pools that CREDIT_CFG gives a link: the floors of VC0 to VC6, then the shared cells (R281, R297). -/
def creditPools (d : Dev) (n : Nat) : List Nat := (List.range 8).map (fun k => bits (d.rd 0x2002 0 n) (16 * k) 16)

/-- Handshake items 0 to 10 of this end (R288, log entry 59). -/
def hsItems (p : Part) (d : Dev) (n : Nat) : List Nat :=
  [d.row + d.col * 256 + d.plane * 65536, n + (d.link n).order * 256, p.step + d.linkMode n * 256] ++ creditPools d n

/-- The frames kept for the neighbor at a position, which the first link to it that comes up sends (R286). -/
def keptFor (p : Part) (d : Dev) (n row col : Nat) : List Copy :=
  ((List.range p.links).filter (fun m => m = n || (isMesh d n && isMesh d m && (d.link m).known && (d.link m).peerRow = row
      && (d.link m).peerCol = col && !(d.link m).carries))).flatMap
    (fun m => (d.link m).replay.map (fun s => s.copy) ++ (d.link m).resend)

/-- Handshake items 11 to 18 for a peer at a position: the SSEQ of the oldest frame this end will resend to it on each VC, else of
its next new frame (R288). -/
def hsSseq (p : Part) (d : Dev) (n row col : Nat) : List Nat :=
  (List.range 8).map (fun vc =>
    let next := d.sw.txSseq.get 0 (peerStream d n row col vc)
    let back := fun (x : Copy) => (next + 65536 - x.f.sseq) % 65536
    (next + 65536 - (((keptFor p d n row col).filter (fun x => x.f.vc = vc)).map back).foldl max 0) % 65536)

/-- Items of this end sent, from number `k` on. -/
def sendItems (d : Dev) (n k : Nat) (xs : List Nat) : Dev :=
  xs.zipIdx.foldl (fun d x => d.send (.control n 4 ((x.2 + k) * 2 ^ 40 + x.1))) d

/-- Entering HANDSHAKE: this end's items 0 to 10 are sent, and the pools they advertise are those in force (R281). -/
def enterHandshake (p : Part) (d : Dev) (n : Nat) : Dev :=
  let pools := (creditPools d n).zipIdx.foldl (fun (t : Tbl Nat) x => t.set 0 x.2 x.1) []
  sendItems (moveLink d n { d.link n with st := .handshake, hs := [], drawn := [], advert := pools }) n 0 (hsItems p d n)

/-- Receive lanes that are not active. -/
def missingLane (l : Link) : Nat := ((List.range 4).find? (fun k => !l.rxLanes.testBit k)).getD 0

/-- State of a live link by its lanes. -/
def liveState (rx tx : Nat) : LSt := if rx = 15 && tx = 15 then .up else .degraded

/-- The lane that trained alone qualifies or not (R291): RESTORE is sent with a codeword count the spec leaves open. -/
def laneQualified (p : Part) (d : Dev) (n : Nat) (ok : Bool) : Dev :=
  let l := d.link n
  let lane := missingLane l
  if !ok then linkLane d n lane 3 0 { l with restoring := false }
  else
    let cw := d.draw.1 % 2 ^ 32
    let d1 := (linkCtr d.draw.2 n 15).send (.control n 6 (bits l.order (2 * lane) 2 * 2 ^ 48 + cw))
    let l1 := d1.link n
    settleWaiting p (linkLane d1 n lane 2 cw { l1 with rxLanes := 15, restoring := false, st := liveState 15 l1.txLanes })

/-- LINK_QUALIFY_END (R288, R289, R291): the 1 ms measurement ended. After full training the coefficients are written. -/
def execLinkQualifyEnd (n : Nat) (bers : List Nat) (i : QualifyInfo) (s : State) : Res :=
  liftAt s (s.part.hasLink n) fun p d =>
    let l := d.link n
    if !portRuns d n then d
    else if l.st == .degraded && l.restoring then laneQualified p d n (qualifies d bers i.uncorr)
    else if l.st != .qualifying then d
    else if qualifies d bers i.uncorr then enterHandshake p (if l.full then writeCoef d n i.coef else d) n
    else
      let d1 := if l.full then d else staleCoef d n
      moveLink d1 n { d1.link n with st := .training, full := true }

/-- A routing record in which a link is set, though its peer is not the one the record is for (R324). -/
def wrongPeer (d : Dev) (n rec : Nat) : Bool :=
  let l := d.link n
  !(l.peerPlane = d.plane && (if rec < 33 then l.peerRow = d.row && l.peerCol = rec else l.peerCol = d.col && l.peerRow = rec - 33))

/-- BUNDLE_PEER for each of some records of a table that names a link with another peer (R324, R427). -/
def bundlePeerRecs (d : Dev) (e : Nat) (recs : List Nat) (n : Nat) : Dev :=
  (recs.filter (fun r => (routeRec d e r).testBit n && wrongPeer d n r)).foldl (fun d r =>
    emit d 0x2004 stOK 5 false 0x6010 e (dataUN 1 n r 0 (d.link n).peer 0 0)) d

/-- BUNDLE_PEER for a link that comes up, over both tables. -/
def bundlePeer (d : Dev) (n : Nat) : Dev := [0, 1].foldl (fun d e => bundlePeerRecs d e (List.range 66) n) d

/-- BUNDLE_PEER for records that a write or a swap brings: over the links that are up (R324, log entry 110). -/
def bundleRecs (p : Part) (d : Dev) (e : Nat) (recs : List Nat) : Dev :=
  ((List.range p.links).filter (fun n => (d.link n).live && (d.link n).known)).foldl (fun d n => bundlePeerRecs d e recs n) d

/-- Credits of the time before a handshake are owed no longer: the totals count from it (R275). -/
def forgiveOwed (d : Dev) (n : Nat) : Dev :=
  let f := fun (x : Copy) => if x.fromLink = some n then { x with owed := none } else x
  { d with sw := { d.sw with waiting := d.sw.waiting.map f, vc1Held := d.sw.vc1Held.map f } }

/-- A link comes up (R288): LSEQ 0, the credits advertised, E from the peer when no other link to it is UP, kept frames first; `move`
reports the change, as it was `l0` before (R425, R426). -/
def comeUp (p : Part) (d : Dev) (n : Nat) (l0 : Link) (move : Dev → Nat → Link → Dev) : Dev :=
  let l := d.link n
  let item := fun (k : Nat) => (l.hs.get none k).getD 0
  let others := otherLinks p d n
  let l1 := { l with
    st := .up, rxLanes := 15, txLanes := 15, lseqTx := 0, lseqRx := 0, nakSent := false, retries := 0, tries := 0, restoring := false,
    credFloor := (List.range 7).foldl (fun t k => t.set 0 k (item (3 + k) % 65536)) [], credShared := item 10 % 65536, credSeen := [],
    credRet := [], credKept := l.credKept.map (fun x => (x.1, 0 :: 0 :: x.2.drop 2)) }
  let d1 := forgiveOwed (d.setLink n l1) n
  let d2 := if isMesh d n && others.isEmpty then
      (List.range 8).foldl (fun d k =>
        let key := streamKey d n k
        let x := { (d.sw.streams.get Stream.init key) with e := item (11 + k) % 65536 }
        { d with sw := { d.sw with streams := d.sw.streams.set Stream.init key x } }) d1
    else d1
  let d3 := adoptKept p d2 n
  let up := d3.link n
  settleElig (settleWaiting p (bundlePeer (move (d3.setLink n l0) n up) n)) n

/-- The peer's position contradicts the link's role (R317). -/
def roleClash (d : Dev) (n : Nat) : Bool :=
  let l := d.link n
  (d.linkRole n = 2 && (l.peerRow != d.row || l.peerCol = d.col)) || (d.linkRole n = 3 && (l.peerCol != d.col || l.peerRow = d.row))

/-- The handshake is complete: agreement, a mismatch of plane or mode, or a role mismatch that fences the link (R288, R317). -/
def endHandshake (p : Part) (d : Dev) (n : Nat) : Dev :=
  let l := d.link n
  let item := fun (k : Nat) => (l.hs.get none k).getD 0
  let peer := item 0 % 2 ^ 24 + bits (item 1) 0 8 * 2 ^ 24
  let mode := bits (item 2) 8 8
  let l1 := { l with peer := peer, peerMode := mode, known := true }
  let d1 := d.setLink n l1
  if bits peer 16 8 != d.plane || mode != d.linkMode n then
    let d2 := dropKept d1 n
    settleWaiting p (linkFailed d2 n (if bits peer 16 8 != d.plane then 2 else 3) ((d2.link n).down .failed))
  else if roleClash d1 n then
    emit (comeUp p (d1.setLink n { l1 with roleFenced := true }) n l moveLinkQuiet) 0x2003 stFenced 1 true 0x6001 0
      (dataUN 1 n 0 0 peer 0 0)
  else comeUp p d1 n l moveLink

/-- HS (R275, R288): one item of the handshake. Item 0 says who the peer is, and items 11 to 18 of this end answer it; the last one
missing completes the handshake. The word's content ends at bit 47: what its bits [55:48] hold, `_upper`, says nothing. -/
def execHs (n _upper item value : Nat) (s : State) : Res :=
  liftAt s (s.part.hasLink n) fun p d =>
    let l := d.link n
    if !portRuns d n || l.st != .handshake || 18 < item then d
    else
      let l1 := { l with hs := l.hs.put item (some (value % 2 ^ 40)) }
      let d0 := d.setLink n l1
      let d1 := if item = 0 then sendItems d0 n 11 (hsSseq p d n (bits value 0 8) (bits value 8 8)) else d0
      if (List.range 19).all (fun k => (l1.hs.get none k).isSome) then endHandshake p d1 n else d1

/-! ### Retry (R277, R278) -/

/-- An LFP link on which control flits travel. -/
def lfpLive (d : Dev) (n : Nat) : Bool := portRuns d n && d.linkMode n = 1 && (d.link n).live

/-- One frame replayed: with a cell that fails now it ends poisoned, which POISONED_TX counts (R241, R298), and one whose reference fails its check is discarded (R239). -/
def replayOne (n : Nat) (d : Dev) (x : Sent) : Dev :=
  match badRef d x.copy.cells with
  | some c => discardCopy (d.setLink n { d.link n with replay := (d.link n).replay.erase x }) n x.q c x.copy
  | none =>
    let y := readCells d x.copy
    let d1 := if y.1.poison && !x.copy.poison then linkCtr y.2 n 11 else y.2
    let keep := fun (z : Sent) => if z = x then { z with copy := y.1 } else z
    (d1.setLink n { d1.link n with replay := (d1.link n).replay.map keep }).send (.frame n (leavingFrame d1 n y.1) x.lseq y.1.poison)

/-- Replay from a frame on (R277, R278): counted, a break in fixed-cycle mode; when RETRY_LIMIT replays have passed with no new
ACK, the link retrains. -/
def replayFrom (p : Part) (d : Dev) (n : Nat) (frames : List Sent) : Dev :=
  let l := d.link n
  if d.rd 0x2003 1 0 ≤ l.retries then retrain p d n
  else
    let d1 := fcmBreak (linkCtr (d.setLink n { l with retries := l.retries + 1 }) n 8) 1 1 n
    if (d.link n).isFenced then d1 else frames.foldl (replayOne n) d1

/-- The first `k` frames of a link's replay buffer released, one by one (R244, R277). -/
def ackFrames (n : Nat) : Nat → Dev → Dev
  | 0, d => d
  | k + 1, d =>
    match (d.link n).replay with
    | [] => d
    | x :: xs => ackFrames n k (releaseCopy (d.setLink n { d.link n with replay := xs }) n x.q x.copy)

/-- LINK_ACK (R277): the frames up to the named one are released. -/
def execLinkAck (n lseq : Nat) (s : State) : Res :=
  liftAt s (s.part.hasLink n) fun _ d =>
    let l := d.link n
    if !lfpLive d n then d
    else
      match firstIx (fun x => x.lseq = lseq % 256) l.replay 0 with
      | none => d
      | some k => ackFrames n (k + 1) (d.setLink n { l with retries := 0 })

/-- LINK_NAK (R241, R277). -/
def execLinkNak (n : Nat) (i : NakInfo) (s : State) : Res :=
  liftAt s (s.part.hasLink n) fun p d0 =>
    let d := readFails d0 n i.bad
    let l := d.link n
    if !lfpLive d n then d0
    else
      match firstIx (fun x => x.lseq = i.lseq % 256) l.replay 0 with
      | none => d
      | some k => replayFrom p d n (l.replay.drop k)

/-- A NAK with the LSEQ expected (R275, R277). -/
def sendNak (d : Dev) (n : Nat) : Dev :=
  let l := d.link n
  linkCtr ((d.setLink n { l with nakSent := true }).send (.control n 2 (l.lseqRx * 2 ^ 40))) n 9

/-- REPLAY_TIMEOUT (R277): at the receiver, no good frame since the NAK; at the sender, the oldest frame has waited. -/
def execReplayTimeout (n : Nat) (i : ReplayInfo) (s : State) : Res :=
  liftAt s (s.part.hasLink n) fun p d =>
    if !lfpLive d n then d
    else if i.rx then (if (d.link n).nakSent then sendNak d n else d)
    else if (d.link n).replay.isEmpty then d else replayFrom p (readFails d n i.bad) n (d.link n).replay

/-- The CREDIT word of a pool (R275): its running total. -/
def creditWord (d : Dev) (n key : Nat) : Nat :=
  pack [(0, 24, (d.link n).credRet.get 0 key), (47, 1, key % 2), (48, 3, key / 2)]

/-- CONTROL_FLIT_TIMER (R276): every current ACK and CREDIT total. -/
def execControlFlitTimer (n : Nat) (s : State) : Res :=
  liftAt s (s.part.hasLink n) fun _ d =>
    if !lfpLive d n then d
    else
      (List.range 14).foldl (fun d k => d.send (.control n 3 (creditWord d n k)))
        (d.send (.control n 1 (((d.link n).lseqRx + 255) % 256 * 2 ^ 40)))

/-- CREDIT (R275, R276): the difference from the last total received. -/
def execCredit (n vc pool total : Nat) (s : State) : Res :=
  liftAt s (s.part.hasLink n && decide (vc < 8) && decide (pool < 2)) fun _ d =>
    let l := d.link n
    if !lfpLive d n || vc = 7 then d
    else
      let key := vc * 2 + pool
      let more := (total + 2 ^ 24 - l.credSeen.get 0 key) % 2 ^ 24
      let l1 := { l with credSeen := l.credSeen.set 0 key (total % 2 ^ 24) }
      settleElig (d.setLink n (if pool = 0 then { l1 with credFloor := l1.credFloor.set 0 vc (l1.credFloor.get 0 vc + more) }
        else { l1 with credShared := l1.credShared + more })) n

/-! ### Lanes (R290, R291) -/

/-- LANE_FAILURE (R290): NAK and DEGRADE are sent and the link goes on with three lanes; a second lane retrains it, and so does
any lane of an Ethernet link. `cw` is the codeword count named. -/
def execLaneFailure (n lane cw : Nat) (s : State) : Res :=
  liftAt s (s.part.hasLink n && decide (lane < 4)) fun p d =>
    let l := d.link n
    if !portRuns d n || !l.live || !l.rxLanes.testBit lane then d
    else if d.linkMode n != 1 || l.rxLanes != 15 then retrain p d n
    else
      let d1 := (sendNak (linkCtr d n 15) n).send (.control n 5 (bits l.order (2 * lane) 2 * 2 ^ 48 + cw % 2 ^ 32))
      linkLane d1 n lane 1 cw { d1.link n with rxLanes := 15 - 2 ^ lane, st := .degraded, restoring := false }

/-- DEGRADE (R275, R290): the peer sends on three lanes; a second lane of the direction retrains the link. -/
def execDegrade (n lane cw : Nat) (s : State) : Res :=
  liftAt s (s.part.hasLink n && decide (lane < 4)) fun p d =>
    let l := d.link n
    if !lfpLive d n || !l.txLanes.testBit lane then d
    else if l.txLanes != 15 then retrain p d n
    else linkLane (linkCtr d n 15) n lane 1 cw { (linkCtr d n 15).link n with txLanes := 15 - 2 ^ lane, st := .degraded }

/-- RESTORE (R275, R291): the lane to add; four lanes from the named codeword on. -/
def execRestore (n lane cw : Nat) (s : State) : Res :=
  liftAt s (s.part.hasLink n && decide (lane < 4)) fun p d =>
    let l := d.link n
    if !lfpLive d n || l.txLanes.testBit lane then d
    else
      let d1 := linkCtr d n 15
      settleWaiting p (linkLane d1 n lane 2 cw { d1.link n with txLanes := 15, st := liveState l.rxLanes 15 })

/-- LINK_FLIGHT_MEASURE (R377): the flight in quarter ARC cycles, measured at a handshake and every 100 ms while the link is UP. -/
def execLinkFlightMeasure (n flight : Nat) (s : State) : Res :=
  liftAt s (s.part.hasLink n) fun _ d =>
    if lfpLive d n || (portRuns d n && d.linkMode n = 1 && (d.link n).st == .handshake) then d.setLink n { d.link n with flight := flight }
    else d

/-! ### UNICAST (R321-R323) -/

/-- RTT_MISS with its cause (R321, R427). -/
def rttMiss (d : Dev) (n cause job rank : Nat) : Dev :=
  emit (d.inc 0x6003 1 0) 0x6001 stOK 5 false 0x6003 1 (dataUN 1 n 0 cause job rank 0)

/-- A UNICAST frame from an endpoint translated: its destination in the header, the entry's fields set (R272, R321). -/
def unicastEntry (p : Part) (d : Dev) (n : Nat) (f : Frame) : Dev :=
  let job := bits f.spec 224 32
  let rank := bits f.spec 160 32
  match d.jobRec job with
  | none => rttMiss d n 1 job rank
  | some r =>
    if bits r 96 32 ≤ rank then rttMiss d n 2 job rank
    else
      let e := d.rd 0x6003 0 (bits r 64 32 + rank)
      if !e.testBit 63 then rttMiss d n 3 job rank
      else if bits e 59 3 != d.plane then rttMiss d n 4 job rank
      else if e.testBit 62 then d.inc 0x6030 3 0
      else
        let f' := { f with plane := d.plane, epoch := d.sw.stamping, drow := bits e 53 6, dcol := bits e 47 6, dpset := bits e 39 8,
                           rclass := bits e 35 4, srow := d.row, scol := d.col, hops := 1 }
        if f'.drow = d.row && f'.dcol = d.col then deliver p d (some n) f' else routeFrame p d (some n) true f'

/-- A UNICAST frame at this device: translated when an endpoint sent it, delivered at its destination, routed on otherwise. -/
def unicastFrame (p : Part) (d : Dev) (n : Nat) (f : Frame) : Dev :=
  if d.linkRole n = 1 then unicastEntry p d n f
  else if f.drow = d.row && f.dcol = d.col then
    (if d.isFenced f.srow f.scol then fenceDiscard d f else deliver p d (some n) f)
  else routeFrame p d (some n) false f

/-- UNICAST (R321). -/
def execUnicast (n : Nat) (f : Frame) (s : State) : Res :=
  liftAt s (s.part.hasLink n) fun p d =>
    if !d.runs domXbar || !d.works 6 then d
    else ingress d (some n) f.vc (64 + f.payload.length) none (fun d => unicastFrame p d n f)

/-! ### Received frames (R272-R285) -/

/-- A VC that R273 allows for a type; collective data on VC3 to VC6, collective control on VC0 (R165). -/
def vcAllowed (f : Frame) : Bool :=
  match f.ty with
  | 0x01 => if bits f.spec 122 4 ≤ 4 then decide (3 ≤ f.vc ∧ f.vc ≤ 6) else bits f.spec 122 4 ≥ 11 || f.vc = 0
  | 0x02 => f.vc = 0
  | 0x03 => f.vc = 0
  | 0x10 => f.vc = 1
  | 0x11 => f.vc = 2
  | 0x20 => decide (3 ≤ f.vc)
  | 0x30 => decide (3 ≤ f.vc)
  | 0x40 => f.vc = 0
  | _ => false

/-- What only devices may set, set by an endpoint (R272-R274). -/
def endpointOversteps (f : Frame) : Bool :=
  f.ty = 0x40 || f.epoch != 0 || f.plane != 0 || f.drow != 0 || f.dcol != 0 || f.dpset != 0 || f.srow != 0 || f.scol != 0
    || f.rclass != 0 || f.hops != 0 || f.stamp != 0 || (f.ty = 0x02 && bits f.spec 248 8 != 0)
    || (f.ty = 0x30 && f.spec != 0)

/-- What R274 discards by a frame's header alone. -/
def headDiscard (d : Dev) (n : Nat) (f : Frame) (i : RxInfo) : Bool :=
  !vcAllowed f || decide (4096 < i.len) || decide (32 < f.drow) || decide (32 < f.dcol) || (d.linkRole n != 1 && f.plane != d.plane)
    || decide (3 < f.hops + 1) || (d.link n).isFenced || (d.linkRole n = 1 && endpointOversteps f)

/-- R274: a frame to discard. -/
def rxDiscard (d : Dev) (n : Nat) (f : Frame) (i : RxInfo) : Bool :=
  headDiscard d n f i || i.granules != ceilDiv (64 + i.len) 64 || f.payload.length != i.len

/-- A frame that the link layer hands to a unit of this device: the unit's own command takes its cells (R243). -/
def handsOver (d : Dev) (n : Nat) (f : Frame) : Bool :=
  f.ty != 0x20 && (d.linkRole n = 1 || (f.drow = d.row && f.dcol = d.col && f.ty != 0x30))

/-- A frame at ingress passed on by the link layer: routed when it only passes this device, or handed to the unit of its type. -/
def passOn (p : Part) (d : Dev) (n : Nat) (f : Frame) : Dev :=
  let g := { f with hops := f.hops + 1 }
  if f.ty = 0x20 then unicastFrame p d n g
  else if d.linkRole n = 1 then d.send (.handed n f)
  else if f.drow = d.row && f.dcol = d.col then (if f.ty = 0x30 then ethFabric p d n g else d.send (.handed n g))
  else routeFrame p d (some n) false g

/-- A copy decided earlier joins its queue; one of which a reference fails its check is discarded (R239). -/
def joinQueue (d : Dev) (x : Nat × Copy) : Dev :=
  match badRef d x.2.cells with
  | some k => discardCopy d (x.1 / 16) (x.1 % 16) k x.2
  | none => queueCopy d (x.1 / 16) (x.1 % 16) x.2

/-- The frame of a place passed on when its turn comes: the copies decided at its arrival join their queues, and a frame not yet
decided goes back to ingress (R239, R247, R284). -/
def passHeld (p : Part) (d : Dev) (y : Place) : Dev :=
  let d1 := y.copies.foldl joinQueue d
  match y.frame with
  | none => d1
  | some x =>
    let a := x.fromLink.getD 0
    match badRef d1 x.cells with
    | some k => releaseLink (badUse d1 a k) a (heldOf d1 x.cells)
    | none => resumeFrame (releaseLink (holdCells d1 x.cells 163) a x.cells) x (fun d => passOn p d a x.f)

/-- Held frames that now follow in order passed on (R284). -/
def drainStream (p : Part) (key : Nat) : Nat → Dev → Dev
  | 0, d => d
  | fuel + 1, d =>
    let st := d.sw.streams.get Stream.init key
    match st.held.find? (fun x => x.sseq = st.e) with
    | none => d
    | some x =>
      let st' : Stream := ⟨(st.e + 1) % 65536, st.held.filter (fun y => y.sseq != st.e)⟩
      drainStream p key fuel (passHeld p { d with sw := { d.sw with streams := d.sw.streams.set Stream.init key st' } } x)

/-- Frames held across all streams. -/
def heldFrames (d : Dev) : Nat := (d.sw.streams.map (fun x => x.2.held.length)).sum

/-- The device with the queues of `old` in place of its own, but for what is charged to them. -/
def restoreQueue (old d : Dev) (k : Nat) : Dev :=
  let e := d.sw.queues.get EQueue.init k
  let o := old.sw.queues.get EQueue.init k
  { d with sw := { d.sw with queues := d.sw.queues.set EQueue.init k { o with charged := e.charged, depthMark := e.depthMark } } }

/-- A frame waits undecided for its turn: one that a unit of this device takes, and one that ingress would hold for a port set. Its
admission is not decided before. -/
def undecided (d r : Dev) (n : Nat) (f : Frame) : Bool :=
  handsOver d n f || decide (d.sw.waiting.length < r.sw.waiting.length)

/-- A frame that must await its turn: when it goes on to egress, each copy of it is admitted, drawn from headroom or dropped now, and
joins its queue when the turn comes (R247); any other frame is held by its arrival link until then (R242). None: it has no cell. -/
def holdPlace (p : Part) (d : Dev) (n : Nat) (f : Frame) : Dev × Option Place :=
  let r := passOn p d n f
  let cs := newCopies d r
  if !undecided d r n f then
    let r1 := (cs.map Prod.fst).eraseDups.foldl (restoreQueue d) r
    ({ r1 with sw := { r1.sw with scheds := d.sw.scheds } }, some ⟨f.sseq, none, cs⟩)
  else
    match takeArriving d (some n) (64 + f.payload.length) with
    | none => (headroomDrop d (some n) f.vc, none)
    | some (cells, owed, d1) =>
      let d2 := releaseCells (holdCells { d1 with buf := { d1.buf with arriving := some ([], owed) } } cells n) 163 cells
      (d2, some ⟨f.sseq, some ⟨f, false, cells, 0, false, d.tick, some n, false, none⟩, []⟩)

/-- A frame put in its stream (R284): `pass` passes it on when it is the one expected, `hold` makes its place when it is early, and
`drop` discards what there is of it. -/
def resequence (p : Part) (d : Dev) (n : Nat) (f : Frame) (pass : Dev → Dev) (hold : Dev → Dev × Option Place) (drop : Dev → Dev) :
    Dev :=
  let key := streamKey d n f.vc
  let st := d.sw.streams.get Stream.init key
  let put := fun (d : Dev) (st : Stream) => { d with sw := { d.sw with streams := d.sw.streams.set Stream.init key st } }
  let x := (f.sseq + 65536 - st.e) % 65536
  if x = 0 then drainStream p key 2048 (pass (put d { st with e := (st.e + 1) % 65536 }))
  else if x ≤ 2047 then
    if st.held.any (fun y => y.sseq = f.sseq) then drop (d.inc 0x2004 2 0)
    else if 32768 ≤ heldFrames d then drop (d.inc 0x2004 1 0)
    else
      match hold d with
      | (d1, some y) => put d1 { st with held := st.held ++ [y] }
      | (d1, none) => d1
  else if x ≤ 63487 then drop (d.inc 0x2004 1 0)
  else drop (d.inc 0x2004 2 0)

/-- A frame past the link check and past R274, outside the stream order: an endpoint's frames pass at once; a neighbor's are
resequenced. One that only fills its position carries no frame. -/
def streamIn (p : Part) (d : Dev) (n : Nat) (f : Frame) (fills : Bool) : Dev :=
  let pass := fun (d : Dev) => if fills then d else passOn p d n f
  if d.linkRole n = 1 then pass d
  else resequence p d n f pass (fun d => if fills then (d, some ⟨f.sseq, none, []⟩) else holdPlace p d n f) id

/-- A frame decided at its arrival in fixed-cycle mode takes its place in the stream, at its release (R222, R284). -/
def placeIn (p : Part) (d : Dev) (n : Nat) (f : Frame) (y : Place) : Dev :=
  if d.linkRole n = 1 then passHeld p d y
  else resequence p d n f (fun d => passHeld p d y) (fun d => (d, some y)) (fun d => dropPlace d y)

/-- A frame in fixed-cycle mode (R222, R225): VC7 is discarded; any other waits for the crossbar's grant of its port group, a neighbor's
for its release cycle first, and one that comes after that cycle is a break. What becomes of its copies is decided now (R247). -/
def fcmIn (p : Part) (d : Dev) (n : Nat) (f : Frame) : Dev :=
  if !d.inFcm then streamIn p d n f false
  else if f.vc = 7 then streamIn p (d.inc 0x8400 5 0) n f true
  else
    match holdPlace p (if d.linkRole n != 1 && fcmLate d f then fcmBreak d 3 1 n else d) n f with
    | (d1, some y) => { d1 with sw := { d1.sw with fcmHeld := d1.sw.fcmHeld ++ [(n, f, y)] } }
    | (d1, none) => d1

/-- A frame of link `n` may leave before its last flit has come (R279): it is the frame expected, its header gives no ground for a
discard, and nothing makes it wait whole. -/
def forwardsEarly (d : Dev) (n : Nat) (f : Frame) (i : RxInfo) : Bool :=
  i.lseq = (d.link n).lseqRx && !headDiscard d n f i
    && !d.inFcm && (d.linkRole n = 1 || decide (f.sseq = (d.sw.streams.get Stream.init (streamKey d n f.vc)).e))

/-- What stays of an LFP frame that is discarded as it arrives. -/
def cutLfp (p : Part) (d : Dev) (n : Nat) (f : Frame) (i : RxInfo) : Dev :=
  cutShort d n (if i.under.isEmpty || !forwardsEarly d n f i then none else some (passOn p d n f)) i.under i.badCell

/-- CRC-32 of a frame as its flit control word carries it: over the header and the payload (R271). -/
def frameCrc (f : Frame) (len : Nat) : Nat := crc32 (headerBytes f len ++ f.payload)

/-- A frame's CRC matches and no flit of it lay in an uncorrectable codeword (R277). -/
def rxIntact (f : Frame) (i : RxInfo) : Bool := frameCrc f i.len = i.crc && i.fec.uncorr = 0

/-- A frame that fails its link check (R277): discarded; the first one sends NAK, one already accepted sends none. -/
def rxFailed (d : Dev) (n : Nat) (f : Frame) (i : RxInfo) : Dev :=
  let d1 := if frameCrc f i.len = i.crc then d else linkCtr d n 7
  let behind := rxIntact f i && decide (128 ≤ (i.lseq + 256 - (d.link n).lseqRx) % 256)
  if behind || (d.link n).nakSent then d1 else sendNak d1 n

/-- A frame at ingress: the link check, the ACK, poison, R274, a failed cell, stream order (R241, R272-R285). -/
def takeLfp (p : Part) (n : Nat) (f : Frame) (i : RxInfo) (d : Dev) : Dev :=
  let good := i.lseq = (d.link n).lseqRx && rxIntact f i
  let drop := rxDiscard d n f i
  let d1 := mirror d n (headerBytes f i.len ++ f.payload) (64 + i.len)
    (2 * b2n i.poison + 4 * b2n (!good) + 8 * b2n (drop && good && !i.poison)) f.vc
  if !good then rxFailed (cutLfp p d1 n f i) n f i
  else
    let d2 := (linkCtr (linkCtr d1 n 1) n 3 (64 + i.len)).send (.control n 1 (i.lseq * 2 ^ 40))
    let d3 := d2.setLink n { d2.link n with lseqRx := ((d2.link n).lseqRx + 1) % 256, nakSent := false }
    if i.poison then streamIn p (cutLfp p (linkCtr d3 n 10) n f i) n f true
    else if drop then streamIn p (cutLfp p (linkCtr d3 n 12) n f i) n f true
    else if i.badCell.isSome then streamIn p (cutLfp p (linkCtr d3 n 7) n f i) n f true
    else fcmIn p d3 n f

/-- The floor credits of an accepted frame, noted as drawn, which are given back when its first holder has its cells (R281); none on
VC7. -/
def rxCredit (d : Dev) (n : Nat) (f : Frame) (i : RxInfo) : Dev × Option Nat :=
  if i.lseq = (d.link n).lseqRx && rxIntact f i && f.vc < 7 then
    (noteDrawn d n f.vc (cellsFor (64 + i.len)), some (floorDrawn d n f.vc (cellsFor (64 + i.len))))
  else (d, none)

/-- LFP_FRAME_RX (R277): a frame arrives, takes its cells, and is taken up. A frame for a unit of this device takes them with that unit's
command; one of which a cell fails goes no further, so it takes them here (R241). -/
def execLfpFrameRx (n : Nat) (f : Frame) (i : RxInfo) (s : State) : Res :=
  liftAt s (s.part.hasLink n) fun p d =>
    if !lfpLive d n then d
    else
      let c := rxCredit (countFec d n i.fec) n f i
      if handsOver d n f && i.badCell.isNone then withFrame c.1 (some n) f.vc (cellsFor (64 + i.len)) [] c.2 (takeLfp p n f i)
      else ingress c.1 (some n) f.vc (64 + i.len) c.2 (takeLfp p n f i)

/-- A frame that waits in fixed-cycle mode may go: an endpoint's, or one whose release cycle has come (R222). -/
def fcmFree (d : Dev) (x : Nat × Frame × Place) : Bool := d.linkRole x.1 = 1 || fcmDue d x.2.1

/-- The links of a port group that hold a frame which may go, in the order of their turns (R222). -/
def fcmReady (d : Dev) (pg : Nat) : List Nat :=
  let ready := ((List.range 8).map (8 * pg + ·)).filter (fun n => d.sw.fcmHeld.any (fun x => x.1 = n && fcmFree d x))
  let last := d.sw.fcmTurn.get (8 * pg + 7) pg
  ready.filter (fun n => decide (last < n)) ++ ready.filter (fun n => decide (n ≤ last))

/-- A frame released from its wait in fixed-cycle mode. -/
def fcmRelease (p : Part) (d : Dev) (x : Nat × Frame × Place) : Dev :=
  placeIn p { d with sw := { d.sw with fcmHeld := d.sw.fcmHeld.erase x } } x.1 x.2.1 x.2.2

/-- FCM_FRAME_RELEASE (R222): in a crossbar cycle that grants the link's port group, the link whose turn it is releases its oldest
frame that may go; once the mode has ended, any frame it still holds. -/
def execFcmFrameRelease (n : Nat) (s : State) : Res :=
  liftAt s (s.part.hasLink n) fun p d =>
    match d.sw.fcmHeld.find? (fun x => x.1 = n && (!d.inFcm || fcmFree d x)) with
    | none => d
    | some x =>
      if !d.inFcm then fcmRelease p d x
      else if fcmXbar d % 16 != n / 8 || (fcmReady d (n / 8)).head? != some n then d
      else fcmRelease p { d with sw := { d.sw with fcmTurn := d.sw.fcmTurn.set (8 * (n / 8) + 7) (n / 8) n } } x

/-- RESEQ_TIMEOUT (R285): the gap before the first held frame of the stream of a VC on a link is skipped. -/
def execReseqTimeout (n vc : Nat) (s : State) : Res :=
  liftAt s (s.part.hasLink n && decide (vc < 8)) fun p d =>
    let key := streamKey d n vc
    let st := d.sw.streams.get Stream.init key
    match (st.held.map (fun x => (x.sseq + 65536 - st.e) % 65536)).min? with
    | none => d
    | some gap =>
      let d1 := { d with sw := { d.sw with streams := d.sw.streams.set Stream.init key { st with e := (st.e + gap) % 65536 } } }
      let l := d.link n
      let d2 := emit (d1.inc 0x2004 3 0) 0x2006 stOK 5 false 0x2004 3 (dataUN 4 (l.peerRow * 256 + l.peerCol) vc 0 st.e gap 0)
      drainStream p key 2048 d2

end Sys2Proof.Machine
end

