-- ==== Sys2Proof/Machine/Canopy.lean ====
section
/-! DEFINITION. The Canopy: requests at their entry device, on their way and at their home, grants, exact-add shadows, responses,
timeouts (spec/12_routing_and_canopy.md R331, R334-R346, spec/13_memory_stacks.md R355-R357). -/

namespace Sys2Proof.Machine

/-! ### Headers (R337, R339) -/

/-- The request header. -/
def reqSpec (r : CanReq) : Nat :=
  pack [(192, 64, r.caddr), (160, 32, r.job), (144, 16, r.rtag), (136, 8, r.op), (130, 6, r.nlm1), (126, 4, r.atype),
    (118, 8, r.sunit), (0, 64, r.mask)]

/-- The response header that answers a request. -/
def rspSpec (r : CanRsp) : Nat :=
  pack [(192, 64, r.caddr), (160, 32, r.job), (144, 16, r.rtag), (136, 8, r.op), (128, 8, r.status), (120, 8, r.sunit)]

/-- The frame of a request, toward a device. -/
def reqFrame (d : Dev) (r : CanReq) (row col : Nat) : Frame :=
  { d.frame 0x10 1 row col 0 (reqSpec r) r.payload with epoch := r.epoch % 2, srow := r.srow, scol := r.scol, hops := r.hops }

/-- A request as its frame carries it. -/
def frameReq (via : Via) (f : Frame) : CanReq :=
  { via := via, caddr := bits f.spec 192 64, job := bits f.spec 160 32, rtag := bits f.spec 144 16, op := bits f.spec 136 8,
    nlm1 := bits f.spec 130 6, atype := bits f.spec 126 4, sunit := bits f.spec 118 8, mask := bits f.spec 0 64, srow := f.srow,
    scol := f.scol, epoch := f.epoch, hops := f.hops, payload := f.payload }

/-- The link a request arrived on. -/
def viaLink : Via → Option Nat
  | .endpoint n => some n
  | .fabric n => some n
  | .own => none

/-! ### Checks (R336, R338, R339) -/

/-- Operations of R338. -/
def canOp (op : Nat) : Bool := decide (1 ≤ op ∧ op ≤ 3) || decide (0x10 ≤ op ∧ op ≤ 0x15)

/-- Lines of a request, and the bytes it spans. -/
def canLines (r : CanReq) : Nat := if r.op = 1 || r.op = 2 then r.nlm1 + 1 else 1
def canBytes (r : CanReq) : Nat := if r.op < 0x10 then canLines r * 64 else atypeBytes r.atype

/-- ATYPE lies in the range of the operation. -/
def canType (op ty : Nat) : Bool :=
  if op < 0x10 then ty = 0 else if op = 0x10 then decide (ty ≤ 3) else if op = 0x11 then decide (4 ≤ ty ∧ ty ≤ 9) else decide (ty ≤ 9)

/-- The payload that an operation takes. -/
def canPayload (r : CanReq) : Nat :=
  if r.op = 1 then 0 else if r.op = 2 then canLines r * 64 else if r.op = 3 then 64 else if r.op = 0x14 then 16 else 8

/-- An endpoint's request that R339 refuses with BAD_FIELD. -/
def canMalformed (r : CanReq) : Bool :=
  let off := bits r.caddr 0 48
  !canOp r.op || !canType r.op r.atype || (r.nlm1 != 0 && r.op != 1 && r.op != 2) || (r.mask != 0 && r.op != 3)
    || off % (if r.op < 0x10 then 64 else atypeBytes r.atype) != 0 || decide (2 ^ 48 < off + canBytes r)
    || r.payload.length != canPayload r

/-- The valid grants, as record number and record (R336). -/
def grants (d : Dev) : List (Nat × Nat) :=
  ((d.dict.filter (fun x => decide (objKey 0x6020 0 0 ≤ x.1) && decide (x.1 < objKey 0x6020 0 1024))).map
    (fun x => (x.1 - objKey 0x6020 0 0, x.2))).filter (fun x => bits x.2 176 8 = 1)

def grantOff (v : Nat) : Nat := bits v 0 64
def grantLen (v : Nat) : Nat := bits v 64 64
def grantExact (v : Nat) : Bool := v.testBit 163

/-- The grant that covers an offset for a job with a right (0 read, 1 write, 2 atomic, 3 exact-add of a type). -/
def grantFor (d : Dev) (job off right ty : Nat) : Bool :=
  (grants d).any (fun x => bits x.2 128 32 = job && x.2.testBit (160 + right) && decide (grantOff x.2 ≤ off)
    && decide (off < grantOff x.2 + grantLen x.2) && (right != 3 || bits x.2 168 8 = ty))

/-- The right that an operation needs. -/
def canRight (op : Nat) : Nat := if op = 1 then 0 else if op < 0x10 then 1 else if op = 0x11 then 3 else 2

/-- Every line of a request lies in a grant of its job (R336). -/
def granted (d : Dev) (r : CanReq) : Bool :=
  (linesOf (bits r.caddr 0 48) (canBytes r)).all (fun l => grantFor d r.job l (canRight r.op) r.atype)

/-! ### Responses (R339) -/

/-- A response to a request leaves: to this device's own requester, or to the entry device. -/
def canSend (p : Part) (d : Dev) (r : CanRsp) : Dev :=
  if r.drow = d.row && r.dcol = d.col then
    (if r.sunit < 128 then
      let f := { d.frame 0x11 2 d.row d.col 0 (rspSpec r) r.payload with epoch := d.sw.stamping }
      buildFrame d f (fun d => toEndpoint d none r.sunit f)
     else d.send (.canRsp .own r))
  else sendFrame p d 0x11 2 r.drow r.dcol 0 (rspSpec r) r.payload

/-- A request answered, and counted in CANOPY_STATS: 0 served, 1 FENCED, 3 BAD_FIELD (R350). A BAD_POINTER of R209 has no
counter there. -/
def canAnswer (p : Part) (d : Dev) (r : CanReq) (status : Nat) (payload : List Byte) : Dev :=
  let k := if status = stOK then 0 else if status = stFenced then 1 else 3
  canSend p (if status = stBadPointer then d else d.inc 0x6023 0 k)
    { caddr := r.caddr, job := r.job, rtag := r.rtag, op := r.op, status := status, sunit := r.sunit, drow := r.srow, dcol := r.scol,
      srow := d.row, scol := d.col, payload := payload }

/-! ### Service at the home (R336, R338, R340, R342, R343) -/

/-- The number format of a float ATYPE (R338). -/
def atypeFmt (ty : Nat) : Fmt := fmtOf (if ty = 4 then 0 else if ty = 5 then 1 else if ty = 6 then 2 else if ty = 7 then 3 else if ty = 8 then 4 else 5)

/-- An integer ATYPE is signed. -/
def atypeSigned (ty : Nat) : Bool := ty = 2 || ty = 3

/-- The minimum or maximum of a stored value and an operand (R338, R150). -/
def canMinMax (wantMax : Bool) (ty old x : Nat) : Nat :=
  let w := 8 * atypeBytes ty
  let pick := fun (xLess : Bool) (oldLess : Bool) => if wantMax then (if oldLess then x else old) else (if xLess then x else old)
  if ty < 4 then
    (if atypeSigned ty then pick (decide (toSigned w x < toSigned w old)) (decide (toSigned w old < toSigned w x))
     else pick (decide (x < old)) (decide (old < x)))
  else
    let f := atypeFmt ty
    let a := decodeNum f old
    let b := decodeNum f x
    if a.isNan || b.isNan then f.nanCode else pick (Num.lt b a) (Num.lt a b)

/-- What an atomic other than EXADD stores, none for a CAS that does not match. -/
def atomicNew (op ty old x y : Nat) : Option Nat :=
  match op with
  | 0x10 => some ((old + x) % 2 ^ (8 * atypeBytes ty))
  | 0x12 => some (canMinMax false ty old x)
  | 0x13 => some (canMinMax true ty old x)
  | 0x14 => if old = x then some y else none
  | _ => some x

/-- The shadow of a word: the one kept, or one whose only term is the word's value (R343). -/
def shadowOf (d : Dev) (off ty : Nat) : Acc :=
  match d.mem.shadows.find? (fun s => s.addr = off && s.w = atypeBytes ty) with
  | some s => s.acc
  | none =>
    let a := Acc.empty (if ty = 4 then 2 else 0)
    match addTerm true a (elemTerm (decodeNum (atypeFmt ty) (d.mem.mem.readNat 0#8 off (atypeBytes ty)))) with
    | some x => x.1
    | none => a

/-- EXADD (R343): the operand is one term of the shadow, and the word is the shadow rounded once, RNE without saturation. -/
def exAdd (d : Dev) (off ty x : Nat) : Dev :=
  let a := shadowOf d off ty
  match addTerm true a (elemTerm (decodeNum (atypeFmt ty) x)) with
  | none => d
  | some (b, grown) =>
    let d1 := if grown then d.inc 0x4315 0 0 else d
    let d2 := if b.tlim && !a.tlim then d1.inc 0x4316 0 0 else d1
    let d3 := memWrite d2 off (toBytes (atypeBytes ty) (sealAcc (atypeFmt ty) 0 false b).1)
    let rest := d3.mem.shadows.filter (fun s => !(decide (s.addr < off + atypeBytes ty) && decide (off < s.addr + s.w)))
    { d3 with mem := { d3.mem with shadows := ⟨off, atypeBytes ty, b⟩ :: rest } }

/-- A request meets poison (R356): a read or an atomic in any word, a masked write in a word it writes in part. -/
def canPoison (p : Part) (d : Dev) (r : CanReq) : Option Nat :=
  let off := bits r.caddr 0 48
  let bad := fun (w : Nat) =>
    wordPoisoned p d w && (r.op = 1 || 0x10 ≤ r.op
      || (r.op = 3 && bits r.mask (8 * (w % 8)) 8 != 0xFF && bits r.mask (8 * (w % 8)) 8 != 0))
  (wordsOf off (canBytes r)).find? bad

/-- The bytes of a masked write: words written whole, and of the others each enabled byte, so that only what is written loses its
shadow or its poison (R343, R356). -/
def writeMask (d : Dev) (off mask : Nat) (bs : List Byte) : Dev :=
  (List.range 8).foldl (fun d w =>
    if bits mask (8 * w) 8 = 0xFF then storeDev d (off + 8 * w) ((bs.drop (8 * w)).take 8)
    else (List.range 8).foldl (fun d i =>
      if mask.testBit (8 * w + i) then storeDev d (off + 8 * w + i) [bs.getD (8 * w + i) 0] else d) d) d

/-- A request performed at its home: the device, and the response's payload. -/
def canPerform (d : Dev) (r : CanReq) : Dev × List Byte :=
  let off := bits r.caddr 0 48
  if r.op = 1 then (d, d.mem.mem.readN 0#8 off (canBytes r))
  else if r.op = 2 then (storeDev d off r.payload, [])
  else if r.op = 3 then (writeMask d off r.mask r.payload, [])
  else
    let w := atypeBytes r.atype
    let old := d.mem.mem.readNat 0#8 off w
    let x := ofBytes (r.payload.take w)
    let y := ofBytes ((r.payload.drop 8).take w)
    let d1 := if r.op = 0x11 then exAdd d off r.atype x
      else match atomicNew r.op r.atype old x y with
        | some v => storeDev d off (toBytes w v)
        | none => d
    (d1, toBytes 8 old)

/-- A request would write to the region of a committed set (R209): a WRITE in any of its lines, a WRITE_MASKED in an enabled
byte, an atomic in its word. -/
def canLocked (d : Dev) (r : CanReq) : Bool :=
  let off := bits r.caddr 0 48
  if r.op = 1 then false
  else if r.op = 3 then (List.range 64).any (fun i => r.mask.testBit i && hitsCommitted d (off + i) 1)
  else hitsCommitted d off (canBytes r)

/-- What the stack interface reports of the reads of a request at its home: the operand `fx` of a READ, and what the arrays have in
store for the lines of any request that reads them. -/
def canReads (p : Part) (d : Dev) (r : CanReq) (fx : StackFx) : Dev × Bool :=
  let off := bits r.caddr 0 48
  let y := if r.op = 1 && !fxIsWrite fx then applyFx p d off fx else (d, false)
  let z := takeFlaws p y.1 (if r.op = 2 || r.op = 3 then [] else hitFlaws p y.1 false off (canBytes r))
  (z.1, y.2 || z.2)

/-- What it reports of the writes, once they are performed on `d`. -/
def canWrites (p : Part) (d : Dev) (r : CanReq) (fx : StackFx) : Dev :=
  let off := bits r.caddr 0 48
  if r.op = 1 then d else afterStore p (if r.op = 2 && fxIsWrite fx then (applyFx p d off fx).1 else d) off (canBytes r)

/-- A home serves a request (R209, R336, R340, R355-R357); `fx` is what the stack interface reports for the lines of a READ or of a
WRITE. -/
def canServe (p : Part) (d : Dev) (r : CanReq) (fx : StackFx) : Dev :=
  if !granted d r then canAnswer p d r stFenced []
  else if canLocked d r then canAnswer p d r stBadPointer []
  else
    let y := canReads p d r fx
    match (if y.2 then some (bits r.caddr 0 48 / 8) else canPoison p y.1 r) with
    | some w => canAnswer p (poisonEvent p y.1 (8 * w) 3 r.caddr) r stFenced []
    | none => canAnswer p (canWrites p (canPerform y.1 r).1 r fx) r stOK (canPerform y.1 r).2

/-! ### The entry device, and VC1 across a swap (R331, R335, R337) -/

/-- VC1 frames stamped with the other epoch are still out. -/
def vc1Busy (d : Dev) : Bool := d.sw.vc1Out.any (fun q => q.epoch != d.sw.stamping)

/-- The frame of a request that goes on from this device. -/
def reqCopy (d : Dev) (r : CanReq) (row col : Nat) : Frame := reqFrame d { r with hops := r.hops + 1 } row col

/-- A new VC1 request while VC1 requests of the old epoch are out: it waits at ingress, unstamped, and its link withholds VC1's
credit (R331). -/
def canHold (d : Dev) (r : CanReq) (row col : Nat) : Dev :=
  let arr := viaLink r.via
  match keepFrame d arr (reqCopy d r row col) with
  | none => headroomDrop d arr 1
  | some (x, d1) =>
    let d2 := { d1 with sw := { d1.sw with vc1Held := d1.sw.vc1Held ++ [x] } }
    match arr with
    | some a => withhold d2 a 1 6250 0
    | none => d2

/-- A request's frame on its way: one of the device's own takes its cells now (R243). -/
def reqOut (d : Dev) (r : CanReq) (f : Frame) (go : Dev → Dev) : Dev :=
  match r.via with
  | .own => buildFrame d f go
  | _ => go d

/-- A new request stamped and noted as out until it is answered or ends (R331). -/
def noteOut (d : Dev) (r : CanReq) : Dev :=
  { d with sw := { d.sw with vc1Out := { r with epoch := d.sw.stamping, hops := 1 } :: d.sw.vc1Out } }

/-- A new request that leaves for another device. -/
def canStamp (p : Part) (d : Dev) (r : CanReq) (row col : Nat) : Dev :=
  let f := reqFrame d { r with epoch := d.sw.stamping, hops := 1 } row col
  reqOut (noteOut d r) r f (fun d => routeFrame p d (viaLink r.via) true f)

/-- A request for a window that this device hosts, toward the window's endpoint; a new one is noted as out. -/
def canWindow (d : Dev) (r : CanReq) (entry : Bool) (win : Nat) : Dev :=
  let f := reqCopy d r d.row d.col
  reqOut (if entry then noteOut d r else d) r f (fun d => toEndpoint d (viaLink r.via) (winLink (d.rd 0x6021 0 win)) f)

/-- A request that this device must take further: an unreachable home answers FENCED, a new one waits while VC1 requests of the old
epoch are out (R331), this device's own memory is served, a window it hosts goes to the window's endpoint, and any other home
is another device's. -/
def canForward (p : Part) (d : Dev) (r : CanReq) (fx : StackFx) (entry : Bool) : Dev :=
  let home := bits r.caddr 48 16
  let x := homeDevice d home
  if homeDead p d r.caddr then canAnswer p d r stFenced []
  else if entry && vc1Busy d then canHold d r x.1 x.2
  else if x.1 = d.row && x.2 = d.col then
    (if home.testBit 15 then canWindow d r entry (bits home 0 12) else canServe p d r fx)
  else if entry then canStamp p d r x.1 x.2
  else routeFrame p d (viaLink r.via) false (reqCopy d r x.1 x.2)

/-- The job bound to an endpoint link (LINK_JOB), 0 for none. -/
def linkJob (d : Dev) (n : Nat) : Nat := d.rd 0x6001 1 n

/-- A request taken up. At the entry device, an endpoint's request must name the job bound to its link and be well formed; the
entry fields are set (R337, R339). -/
def canTake (p : Part) (d : Dev) (r : CanReq) (fx : StackFx) : Dev :=
  match r.via with
  | .endpoint n =>
    let r1 := { r with sunit := n, srow := d.row, scol := d.col, epoch := d.sw.stamping, hops := 0 }
    if linkJob d n = 0 || linkJob d n != r.job then canAnswer p d r1 stFenced []
    else if canMalformed r then canAnswer p d r1 stBadField []
    else canForward p d r1 fx true
  | .own => canForward p d { r with srow := d.row, scol := d.col, epoch := d.sw.stamping, hops := 0 } fx true
  | .fabric _ =>
    if d.isFenced r.srow r.scol then d.inc 0x6030 3 0 else canForward p d r fx false

/-- A Canopy request command: the link it came on is there, and it is of the row's operation. -/
def canCommand (ops : Nat → Bool) (r : CanReq) (fx : StackFx) (s : State) : Res :=
  liftAt s ((viaLink r.via).all s.part.hasLink) fun p d =>
    if !d.runs domXbar || !d.works 8 || !ops r.op then d
    else serveAt 162 d (viaLink r.via) 1 (64 + r.payload.length) (fun d => canTake p d r fx)

/-- READ (R338). A reserved operation is answered here too: no row of the table is its own (R339). -/
def execCanopyRead (r : CanReq) (fx : StackFx) (s : State) : Res := canCommand (fun op => op = 1 || !canOp op) r fx s
/-- WRITE. -/
def execCanopyWrite (w : CanWrite) (s : State) : Res := canCommand (· = 2) w.req w.fx s
/-- WRITE_MASKED. -/
def execWriteMasked (r : CanReq) (s : State) : Res := canCommand (· = 3) r .clean s
/-- ADD. -/
def execCanopyAdd (r : CanReq) (s : State) : Res := canCommand (· = 0x10) r .clean s
/-- EXADD (R343). -/
def execExadd (r : CanReq) (s : State) : Res := canCommand (· = 0x11) r .clean s
/-- MIN. -/
def execCanopyMin (r : CanReq) (s : State) : Res := canCommand (· = 0x12) r .clean s
/-- MAX. -/
def execCanopyMax (r : CanReq) (s : State) : Res := canCommand (· = 0x13) r .clean s
/-- CAS. -/
def execCas (r : CanReq) (s : State) : Res := canCommand (· = 0x14) r .clean s
/-- SWAP. -/
def execSwap (r : CanReq) (s : State) : Res := canCommand (· = 0x15) r .clean s

/-! ### Requests that end (R331, R339, R345) -/

/-- Held VC1 requests taken up once none of the old epoch is out. -/
def releaseVc1 (p : Part) (d : Dev) : Dev :=
  if vc1Busy d || d.sw.vc1Held.isEmpty then d
  else
    d.sw.vc1Held.foldl (fun d x =>
      let via := match x.fromLink with | some n => Via.endpoint n | none => Via.own
      resumeFrame d x (fun d => canForward p d { frameReq via x.f with hops := 0 } .clean true))
      (unhold { d with sw := { d.sw with vc1Held := [] } } 100000)

/-- The first element that satisfies a test removed. -/
def removeFirst {α : Type} (f : α → Bool) : List α → List α
  | [] => []
  | x :: xs => if f x then xs else x :: removeFirst f xs

/-- A VC1 request of a requester has been answered or has ended. -/
def vc1Done (p : Part) (d : Dev) (sunit rtag : Nat) : Dev :=
  releaseVc1 p { d with sw := { d.sw with vc1Out := removeFirst (fun q => q.sunit = sunit && q.rtag = rtag) d.sw.vc1Out } }

/-- A grove's outstanding request removed; the one that waited longest is sent in its place (R93). -/
def dropReq (d : Dev) (g i : Nat) : Dev :=
  let gr := d.grove g
  let d1 := d.setGrove g { gr with reqs := gr.reqs.eraseIdx i }
  match gr.reqs[1024]? with
  | some q => d1.send (.canReq q.req)
  | none => d1

/-- The index of a grove's outstanding request by its tag. -/
def findReq (gr : Grove) (rtag : Nat) : Option Nat := firstIx (fun q => q.req.rtag = rtag) (gr.reqs.take 1024) 0

/-- A response for a line that a collective reads (R203, R205): kept with the operation; another status ends the operation. -/
def collLine (p : Part) (d : Dev) (q : GroveReq) (status : Nat) (data : List Byte) : Dev :=
  onOp p d q.req.job q.c (fun x =>
    if status != stOK then reportAbort p status x
    else if x.2.phase = 4 then x
    else (x.1, { x.2 with lines := x.2.lines ++ [⟨q.eaddr, data⟩] }))

/-- A response for a context: data lines for a read, an acknowledgement for a write, the old value of an atomic, or a fault with
the status it brings, which R143 gives as FENCED or EPOCH_STALE: a home's BAD_FIELD or BAD_POINTER stands in the record as it
came (DESIGN CHOICE, log entry 124). A grove that is being reset only loses the request (R145), and the answer to a command that has left
is discarded; the fault of its write or atomic counts in the event alone, a read that a halt ended reports nothing (R144). -/
def groveRsp (p : Part) (d : Dev) (g : Nat) (q : GroveReq) (r : CanRsp) : Dev :=
  let gr := d.grove g
  if q.e = 16 then collLine p d q r.status r.payload
  else if gr.phase == .resetting || gr.phase == .idle || gr.phase == .lost then d
  else if !q.live then
    (if r.status = stOK || q.req.op = 1 then d else haltGrove p d g ⟨0x0B, r.status, q.eaddr, q.tag, q.c, q.e, 0, 0⟩)
  else if r.status != stOK then ctxFault p d g q.e q.c 0x0B r.status q.eaddr
  else if r.op = 1 then
    let x := gr.ctx q.e q.c
    d.setGrove g (gr.setCtx q.e q.c { x with lines := x.lines ++ [⟨q.eaddr, r.payload⟩] })
  else if r.op < 0x10 then d
  else
    let t := stepOf p d g q.e q.c
    stepEnd p d g q.e q.c { writes := [{ addr := t.b, data := toBytes 8 (ofBytes (r.payload.take 8)), align := 8 }] }

/-- A response that no request waits for: discarded and counted (R345). -/
def lateRsp (d : Dev) : Dev := d.inc 0x6023 0 5

/-- A response at its entry device. -/
def canDeliver (p : Part) (d : Dev) (r : CanRsp) : Dev :=
  if r.sunit < 128 then canSend p (vc1Done p d r.sunit r.rtag) r
  else if r.sunit < 160 then
    let g := r.sunit - 128
    match findReq (d.grove g) r.rtag with
    | none => lateRsp d
    | some i =>
      match (d.grove g).reqs[i]? with
      | none => lateRsp d
      | some q => vc1Done p (groveRsp p (dropReq d g i) g q r) r.sunit r.rtag
  else if d.sw.vc1Out.any (fun q => q.sunit = r.sunit && q.rtag = r.rtag) then vc1Done p d r.sunit r.rtag
  else lateRsp d

/-- CANOPY_RSP (R339): delivered to its requester here, or, as a window endpoint's response, sent to the entry device; one that a fenced
device sent is discarded (R347). -/
def execCanopyRsp (r : CanRsp) (s : State) : Res :=
  liftAt s (decide (r.sunit < 128 → r.sunit < s.part.links) && decide (128 ≤ r.sunit ∧ r.sunit < 160 → r.sunit - 128 < s.part.groves))
    fun p d =>
    if !d.runs domXbar || !d.works 6 then d
    else if d.isFenced r.srow r.scol then fenceDiscard d (d.frame 0x11 2 r.drow r.dcol 0 0 [])
    else if r.drow = d.row && r.dcol = d.col then canDeliver p d r
    else canSend p d r

/-- CANOPY_TIMEOUT's report (R345, R427). -/
def timeoutEvent (d : Dev) (ukind unit unit2 : Nat) (r : CanReq) : Dev :=
  emit (d.inc 0x6023 0 4) 0x6003 stFenced 2 false 0x6023 0 (dataUN ukind unit unit2 0 r.caddr r.job (r.rtag + r.op * 65536))

/-- CANOPY_TIMEOUT (R345): a grove or management request ends without a response. The engine and context of a collective's request
are those on which the firmware runs its command (log entry 107). -/
def execCanopyTimeout (sunit rtag : Nat) (s : State) : Res :=
  liftAt s (decide (128 ≤ sunit ∧ sunit < 160 → sunit - 128 < s.part.groves)) fun p d =>
    if sunit < 128 then d
    else if sunit < 160 then
      let g := sunit - 128
      match findReq (d.grove g) rtag with
      | none => d
      | some i =>
        match (d.grove g).reqs[i]? with
        | none => d
        | some q =>
          let w := Config.firmwareSlot g (q.c % 65536)
          let unit2 := if q.e = 16 then w % 16 * 4096 + w / 16 % 4096 else q.e * 4096 + q.c
          let d1 := timeoutEvent (dropReq d g i) 2 g unit2 q.req
          let ph := (d.grove g).phase
          let d2 := if q.e = 16 then collLine p d1 q stFenced [] 
            else if !q.live then if q.req.op = 1 then d1 else haltGrove p d1 g ⟨0x0B, stFenced, q.eaddr, q.tag, q.c, q.e, 0, 0⟩
            else if ph == .running || ph == .halted then ctxFault p d1 g q.e q.c 0x0B stFenced q.eaddr else d1
          vc1Done p d2 sunit rtag
    else
      match d.sw.vc1Out.find? (fun q => q.sunit = sunit && q.rtag = rtag) with
      | none => d
      | some q => vc1Done p (timeoutEvent d 6 0 0 q) sunit rtag

/-! ### Grants (R336, R343, R350) -/

/-- Bytes of shadow area that an exact-add grant needs (R343). -/
def shadowBytes (v : Nat) : Nat :=
  let ty := bits v 168 8
  if !grantExact v then 0 else grantLen v / atypeBytes ty * (if ty = 4 then 288 else 96)

/-- Two regions overlap. -/
def overlaps (a n b m : Nat) : Bool := decide (a < b + m) && decide (b < a + n)

/-- The status of a grant record's write. -/
def grantStatus (p : Part) (d : Dev) (rec v : Nat) : Nat :=
  let off := grantOff v
  let len := grantLen v
  let ty := bits v 168 8
  let others := (grants d).filter (fun x => x.1 != rec && grantExact x.2)
  if 1 < bits v 176 8 || bits v 184 72 != 0 then stBadField
  else if bits v 176 8 = 0 then stOK
  else if off % 4096 != 0 || len % 4096 != 0 || len = 0 || memSize p d < off + len || 15 < bits v 160 8 then stBadField
  else if !grantExact v then stOK
  else if !(4 ≤ ty && ty ≤ 9) then stBadField
  else if others.any (fun x => overlaps off len (grantOff x.2) (grantLen x.2)) then stBadField
  else if d.mem.shadowGib * 2 ^ 30 < shadowBytes v + (others.map (fun x => shadowBytes x.2)).sum then stTableFull
  else stOK

/-- A grant record stored: shadows in the regions of the old and of the new exact-add grant go back to one term each. -/
def putGrant (d : Dev) (rec v : Nat) : Dev :=
  let old := d.rd 0x6020 0 rec
  let inside := fun (g : Nat) (s : Shadow) => bits g 176 8 = 1 && grantExact g && overlaps s.addr s.w (grantOff g) (grantLen g)
  let d1 := d.wr 0x6020 0 rec v
  { d1 with mem := { d1.mem with shadows := d1.mem.shadows.filter (fun s => !(inside old s || inside v s)) } }

/-- Grant records written one after another. -/
def putGrants (p : Part) : Dev → Nat → List Nat → Except (Nat × Nat) Dev
  | d, _, [] => .ok d
  | d, rec, v :: vs =>
    let st := grantStatus p d rec v
    if st != stOK then .error (st, rec) else putGrants p (putGrant d rec v) (rec + 1) vs

/-- GRANT_WRITE's rule. -/
def grantRule (p : Part) (first : Nat) (recs : List Nat) (d : Dev) : Dev × Rsp :=
  if 1024 < first + recs.length then (d, Rsp.st stBadField)
  else match putGrants p d first recs with
    | .ok d' => (d', Rsp.st stOK)
    | .error (st, rec) => (d, Rsp.st st rec)

/-- GRANT_WRITE (R336). -/
def execGrantWrite (rq : Rq) (first : Nat) (recs : List Nat) (s : State) : Res :=
  lift s fun p d =>
    let bs := recs.flatMap (fun v => toBytes 32 v)
    serve d rq ⟨2, 0x6020, 0, 32 * first, true, bs.length, 0, bs⟩
      (fun _ d => ((grantRule p first (recs.map (· % 2 ^ 256)) d).1, some (grantRule p first (recs.map (· % 2 ^ 256)) d).2))

end Sys2Proof.Machine
end

