-- ==== Sys2Proof/Machine/CollData.lean ====
section
/-! DEFINITION. What a DEVICE-role grove does with a chunk of a reduction or a move: terms into frames, sealed partials and results,
distribution, moved bytes, counts (spec/06_collectives.md R149-R151, R158, R161, R171, R172). -/

namespace Sys2Proof.Machine

/-! ### Frames (R95, R149, R150) -/

/-- The elements of a chunk of input (R163); none when the payload does not hold them. -/
def inputNums (fmt mode scale n : Nat) (bs : List Byte) : Option (List Num) :=
  if mode = 1 || mode = 2 then
    match decodeMx (fmtOf fmt) (mode = 2) (ceilDiv n 1024) n bs with
    | some (xs, k) => if k = bs.length then some xs else none
    | none => none
  else if bs.length != n * (fmtOf fmt).w / 8 then none
  else
    let xs := decodeScalars (fmtOf fmt) n bs
    if mode = 3 then some (if scale = 0xFF then List.replicate n (.nan false) else xs.map (fun v => v.scale ((scale : Int) - 127)))
    else some xs

/-- One code compared into a running value with its signalling bit (R54, R150). -/
def compareInto (wantMax : Bool) (fmt : Nat) (run : Nat × Bool) (code : Nat) : Nat × Bool :=
  let f := fmtOf fmt
  let a := decodeNum f run.1
  let b := decodeNum f code
  if a.isNan || b.isNan then (f.nanCode, run.2 || a.isSig || b.isSig)
  else if wantMax then (if Num.lt a b then code else run.1, run.2) else (if Num.lt b a then code else run.1, run.2)

/-- Terms added to the frame's accumulators one each (R60): the accumulators and how many were promoted. -/
def addEach : List Acc → List Num → List Acc × Nat
  | a :: as_, v :: vs =>
    let r := addEach as_ vs
    match addTerm true a (elemTerm v) with
    | some (b, grown) => (b :: r.1, r.2 + b2n grown)
    | none => (a :: r.1, r.2)
  | as_, _ => (as_, 0)

/-- States merged one into each accumulator (R63). -/
def mergeEach : List Acc → List Acc → Option (List Acc × Nat)
  | a :: as_, b :: bs =>
    match mergeAcc true a b, mergeEach as_ bs with
    | some (x, grown), some r => some (x :: r.1, r.2 + b2n grown)
    | _, _ => none
  | as_, _ => some (as_, 0)

/-- An empty frame for a chunk. -/
def emptyFrame (o : Op) (k : Nat) : AFrame :=
  { chunk := k, terms := 0, flags := 0, from_ := [], accs := if compares o.desc then [] else List.replicate (o.elems k) (Acc.empty o.cls), cmp := [] }

/-- A frame with new accumulators, some of them promoted: PROMOTED is raised in its flags (R60). -/
def AFrame.grew (f : AFrame) (accs : List Acc) (grown : Nat) : AFrame :=
  { f with accs := accs, flags := if grown = 0 then f.flags else f.flags ||| flPromoted }

/-- A chunk's terms in a frame: the frame and its promotions; none when the payload is malformed, with whether it was an EXP
record that was (R75). An EXP PARTIAL of a reduction whose header says TERMS 0 is merged as states of one term each, so that a
value it brings is not lost: the spec is silent on it (DESIGN CHOICE, log entry 130). -/
def frameAdd (o : Op) (fr : AFrame) (c : Chunk) : Except Bool (AFrame × Nat) :=
  let n := o.elems c.chunk
  let fmt := o.inFmt.1
  let w := (fmtOf fmt).w
  let terms := fr.terms + (if c.kind = 0 then 1 else c.terms)
  let flags := fr.flags ||| (if c.kind = 1 then c.flags else 0)
  let base := { fr with terms := terms, flags := flags, from_ := fr.from_ ++ [(c.stage, c.src)] }
  if compares o.desc then
    if c.payload.length != n * w / 8 then .error false
    else
      let codes := unpackCodes w n (ofBytes c.payload)
      let start : List (Nat × Bool) := codes.map (fun v =>
        let x := decodeNum (fmtOf fmt) v
        (if x.isNan then (fmtOf fmt).nanCode else v, x.isSig))
      .ok ({ base with cmp := if fr.cmp.isEmpty then start
                              else (fr.cmp.zip codes).map (fun y => compareInto (dscRedop o.desc = 3) fmt y.1 y.2) }, 0)
  else if c.kind = 0 then
    match inputNums fmt o.inFmt.2 c.scale n c.payload with
    | none => .error false
    | some vs => let r := addEach fr.accs vs; .ok (base.grew r.1 r.2, r.2)
  else if dscPart o.desc = 1 then
    if c.payload.length != 4 * n then .error false
    else let r := addEach fr.accs (decodeScalars (fmtOf 1) n c.payload); .ok (base.grew r.1 r.2, r.2)
  else
    match readExps o.cls (max 1 c.terms) n c.payload with
    | none => .error true
    | some bs =>
      match mergeEach fr.accs bs with
      | none => .error true
      | some r => .ok (base.grew r.1 r.2, r.2)

/-- Frames that the claimed slots hold. -/
def frameRoom (o : Op) : Nat := o.slots.length / max 1 o.geom.2 * o.geom.1

/-- A chunk that a frame cannot take ends the operation (R75, R174). -/
def badPayload (p : Part) (exp : Bool) (x : Run) : Run :=
  reportAbort p stBadField (if exp then x.1.inc 0x4317 0 0 else x.1, x.2)

/-- One held input combined, when the operation holds slots with its frames restored and there is a frame for the chunk (R261). -/
def combineOne (p : Part) (h : HeldIn) (x : Run) : Run :=
  let o := x.2
  let k := h.c.chunk
  if h.used || o.slots.isEmpty || !o.spilled.isEmpty || o.paused || o.phase = 4 || !reduces o.opc then x
  else if o.chunks ≤ k then reportAbort p stBadField x
  else
    let old := o.frames.find? (fun f => f.chunk = k)
    if old.isNone && frameRoom o ≤ o.frames.length then x
    else
      match frameAdd o (old.getD (emptyFrame o k)) h.c with
      | .error e => badPayload p e x
      | .ok (f, grown) =>
        (x.1.inc 0x4315 0 0 grown,
          { o with frames := o.frames.filter (fun g => g.chunk != k) ++ [f], idle := false,
                   inputs := o.inputs.map (fun i => if keyOf i.c = keyOf h.c then { i with used := true } else i) })

/-! ### Seals (R65, R66, R151, R161) -/

/-- Contributions that a device combines for a chunk: its own members' and its children's. -/
def dueInputs (d : Dev) (o : Op) (k : Nat) : Nat := (o.here d).length + (o.children (o.rootDev k) d.code).length

/-- The frame of a chunk, complete. -/
def readyFrame (d : Dev) (o : Op) (k : Nat) : Option AFrame :=
  if o.paused || o.slots.isEmpty then none
  else o.frames.find? (fun f => f.chunk = k && f.from_.length = dueInputs d o k)

/-- Flags that a sealed minimum or maximum adds: INVALID for a signalling NaN (R150). -/
def compareFlags (f : AFrame) : Nat := if f.cmp.any Prod.snd then flInvalid else 0

/-- A frame as a PARTIAL (R161): bytes, what rounding it raised. -/
def sealPartial (o : Op) (f : AFrame) : List Byte × Tally :=
  let w := (fmtOf o.inFmt.1).w
  if compares o.desc then (toBytes (f.cmp.length * w / 8) (packCodes w (f.cmp.map Prod.fst)), Tally.flag (compareFlags f))
  else if dscPart o.desc = 1 then
    let cs := f.accs.map (sealAcc (fmtOf 1) (cvRm (dscCvt o.desc)) (cvSat (dscCvt o.desc)))
    (toBytes (4 * cs.length) (packCodes 32 (cs.map Prod.fst)), joinAll (cs.map Prod.snd))
  else (f.accs.flatMap expRecord, Tally.zero)

/-- A value divided by a count, exactly (R151, R204). -/
def Num.divBy (n : Num) (m : Nat) : Num := match n with | .fin neg num den => .fin neg num (den * max m 1) | v => v

/-- The exact values that a RESULT rounds. -/
def frameVals (o : Op) (f : AFrame) : List Num :=
  if compares o.desc then f.cmp.map (fun c => match decodeNum (fmtOf o.inFmt.1) c.1 with | .nan _ => .nan c.2 | v => v)
  else
    let vs := f.accs.map (accNum (cvRm (dscCvt o.desc)))
    if dscRedop o.desc = 1 then vs.map (fun v => v.divBy o.m) else vs

/-- The delayed-scaling byte of a unit of output (R44). -/
def unitScale (d : Dev) (o : Op) (vals : List Num) : Option Nat :=
  match o.scale with
  | none => none
  | some (n, r) =>
    let f := fmtOf (cvFmt (dscCvt o.desc))
    match (d.ctx n).hist with
    | [] => some (if r.testBit 29 then bits r 40 8 else delayedScale f (bits r 32 4) (bits r 40 8) (amaxOf (vals.filter Num.isFin)))
    | hs => some (delayedScale f (bits r 32 4) (bits r 40 8) (hs.foldl magMax (0, 1)))

/-- A RESULT chunk of exact values: the chunk, what it raised, the amax of R45. -/
def sealResult (d : Dev) (o : Op) (k src dst terms carried : Nat) (vals : List Num) (extra : Tally) : Chunk × Tally × (Nat × Nat) :=
  let x := unitScale d o vals
  let r := encodeOut (dscCvt o.desc) x vals
  let t := r.2.1.join extra
  ({ mkChunk o 2 k 3 src dst r.1 with terms := terms, scale := x.getD 0, flags := (t.flags ||| carried) % 4096 }, t, r.2.2)

/-- A sealed frame is done with: its inputs are released, the quantum advances (R169, R260). -/
def frameDone (k : Nat) (x : Run) : Run :=
  releaseInputs (fun h => h.used && h.c.chunk = k)
    (x.1, { x.2 with frames := x.2.frames.filter (fun f => f.chunk != k), sealed_ := x.2.sealed_ ++ [k], quantum := x.2.quantum + 1 })

/-- POUT's work: the frame as a PARTIAL to the next stage. An EXP partial carries no flags (R164). -/
def poutWork (p : Part) (k : Nat) (x : Run) : Run :=
  match readyFrame x.1 x.2 k, x.2.parent (x.2.rootDev k) x.1.code with
  | some f, some q =>
    let r := sealPartial x.2 f
    let stage := if x.2.stageDev (x.2.rootDev k) (x.1.code / 64) = some x.1.code then 2 else 1
    let exp := !compares x.2.desc && dscPart x.2.desc = 0
    let c := { mkChunk x.2 1 k stage (x.2.lowest x.1.code) 0 r.1 with terms := f.terms, flags := if exp then 0 else (r.2.flags ||| f.flags) % 4096 }
    frameDone k (sendHeld p c [q] [] (addTally x.1 r.2, x.2))
  | _, _ => x

/-- Devices and own members that a reduced RESULT goes to (R158). -/
def resultDests (d : Dev) (o : Op) (k : Nat) : List Nat × List Nat :=
  let root := o.memberOf (dscRoot o.desc)
  if o.opc = 2 then ([o.devOf root], if o.devOf root = d.code then [root] else [])
  else if o.opc = 3 then (((o.owners k).map o.devOf).eraseDups, (o.owners k).filter (fun i => (o.here d).contains i))
  else (o.spreadFrom d.code, o.here d)

/-- What has reached this device's endpoints. -/
def noteGot (key : List Nat) (x : Run) : Run := (x.1, { x.2 with got := x.2.got ++ [key] })

/-- ROUT's work: the frame as a RESULT, and the start of its distribution. -/
def routWork (p : Part) (k : Nat) (x : Run) : Run :=
  match readyFrame x.1 x.2 k with
  | none => x
  | some f =>
    if (x.2.parent (x.2.rootDev k) x.1.code).isSome then x
    else
      let t0 := (joinAll (f.accs.map tlimTally)).join (Tally.flag (compareFlags f))
      let r := sealResult x.1 x.2 k (x.2.lowest x.1.code) 0 f.terms f.flags (frameVals x.2 f) t0
      let dest := resultDests x.1 x.2 k
      let o := { x.2 with flags := x.2.flags ||| r.2.1.flags ||| f.flags, amax := magMax x.2.amax r.2.2 }
      let y := frameDone k (sendHeld p r.1 dest.1 dest.2 (addTally x.1 r.2.1, o))
      if dest.2.isEmpty then y else noteGot [k] y

/-! ### Moved bytes (R147, R158, R172) -/

/-- count[i][j], where it is known (R171, R172). -/
def countOf (o : Op) (i j : Nat) : Option Nat :=
  if o.opc = 6 then some o.count
  else if !o.marked [7] then none
  else (o.counts.find? (fun c => c.1 = i && c.2.1 = j)).map (fun c => c.2.2)

/-- off[i][j] (R172). -/
def offsetOf (o : Op) (i j : Nat) : Nat := ((List.range i).map (fun k => (countOf o k j).getD 0)).sum

/-- An input that has moved on. -/
def moved (h : HeldIn) (x : Run) : Run := releaseInputs (fun i => keyOf i.c = keyOf h.c) x

/-- The delayed-scaling byte that a moved chunk goes on with (R164): that of its input. -/
def Op.movedScale (o : Op) (c : Chunk) : Nat := if dscIscale o.desc = 3 then c.scale else 0

/-- One held chunk passed to egress with DST and DOFF set (R181). DATA that goes on to another device is numbered STAGE 1, a
local partial: R164 gives the codes and none for it (DESIGN CHOICE, log entry 106). -/
def moveOne (p : Part) (h : HeldIn) (x : Run) : Run :=
  let o := x.2
  let c := h.c
  if h.used || o.paused || o.phase = 4 then x
  else if o.opc = 4 || o.opc = 5 then
    if o.opc = 5 && c.src != o.memberOf (dscRoot o.desc) then moved h x
    else if o.chunks ≤ c.chunk then reportAbort p stBadField x
    else
      noteGot [c.chunk, c.src] (moved h
        (sendHeld p { mkChunk o 2 c.chunk 3 c.src 0 c.payload with scale := o.movedScale c } (o.spreadFrom x.1.code) (o.here x.1) x))
  else if o.opc = 6 || o.opc = 7 then
    match countOf o c.src c.dst with
    | none => if o.opc = 7 && o.marked [7] || o.m ≤ c.dst then reportAbort p stBadField x else x
    | some n =>
      if o.m ≤ c.dst || n < c.chunk * o.epc + elemsIn (dscIfmt o.desc) (dscIscale o.desc) c.payload then reportAbort p stBadField x
      else if o.devOf c.dst = x.1.code then
        let r := { mkChunk o 2 c.chunk 3 c.src c.dst c.payload with doff := offsetOf o c.src c.dst + c.chunk * o.epc }
        noteGot [c.chunk, c.src, c.dst] (moved h (sendHeld p r [] [c.dst] x))
      else
        noteGot [c.chunk, c.src, c.dst] (moved h (sendHeld p { mkChunk o 0 c.chunk 1 c.src c.dst c.payload with scale := o.movedScale c } [o.devOf c.dst] [] x))
  else x

/-- A RESULT from another device delivered here, and passed along this row when it came down a column (R158, R159). -/
def spreadResult (p : Part) (c : Chunk) (x : Run) : Run :=
  let o := x.2
  let own := { c with via := .own }
  let down := if o.opc = 1 || o.opc = 4 || o.opc = 5 then o.passOn x.1 c.row c.col else []
  let here := if o.opc = 2 then (o.here x.1).filter (· = o.memberOf (dscRoot o.desc))
    else if o.opc = 3 then (o.owners c.chunk).filter (fun i => (o.here x.1).contains i) else o.here x.1
  noteGot (if reduces o.opc then [c.chunk] else [c.chunk, c.src]) (sendHeld p own down here x)

/-! ### The counts phase of ALL_TO_ALLV (R171, R172) -/

/-- Destinations that a COUNTS chunk covers. -/
def countDests (o : Op) (c : Nat) : List Nat := (List.range 1024).map (1024 * c + ·) |>.filter (· < o.m)

/-- A COUNTS chunk of ALL_TO_ALLV: kept for the members hosted here, and passed to the other members' devices. -/
def countsIn (p : Part) (c : Chunk) (x : Run) : Run :=
  let o := x.2
  let js := countDests o c.chunk
  if js.isEmpty || c.payload.length != 4 * js.length then reportAbort p stBadField x
  else
    let vals := unpackCodes 32 js.length (ofBytes c.payload)
    let keep := (js.zip vals).filter (fun y => (o.here x.1).contains y.1 || (o.here x.1).contains c.src)
    let y : Run := (x.1, ({ o with counts := o.counts ++ keep.map (fun (y : Nat × Nat) => (c.src, y.1, y.2)) }).mark [14, c.src, c.chunk])
    if c.stage != 0 then y
    else
      let devs := ((js.map o.devOf).eraseDups).filter (· != x.1.code)
      sendHeld p (mkChunk o 3 c.chunk 2 c.src 0 c.payload) devs [] y

/-- COUNTS chunks that this device waits for: from its own members all, from others those that cover its members. -/
def countsDue (d : Dev) (o : Op) : Bool :=
  let nc := ceilDiv o.m 1024
  (List.range o.m).all (fun i => (List.range nc).all (fun c =>
    o.marked [14, i, c] || !((o.here d).contains i || (countDests o c).any (fun j => (o.here d).contains j))))

/-- total[j] (R172). -/
def countTotal (o : Op) (j : Nat) : Nat := ((List.range o.m).map (fun i => (countOf o i j).getD 0)).sum

/-- CNTS's work (R172): the totals and the MX counts checked before any data moves. -/
def cntsWork (p : Part) (x : Run) : Run :=
  let o := x.2
  if o.opc != 7 || o.marked [7] || o.paused || o.phase = 4 || !countsDue x.1 o then x
  else
    let o1 := o.mark [7]
    let mx := dscIscale o.desc = 1 || dscIscale o.desc = 2
    if (o.here x.1).any (fun j => bits o.opx 0 44 < countTotal o1 j) || (mx && o.counts.any (fun c => c.2.2 % 1024 != 0)) then
      reportAbort p stBadField x
    else (x.1, o1)

/-- A COUNTS_OUT chunk for an own member, held until it is acknowledged (R165, R169). -/
def sendCountsOut (p : Part) (j : Nat) (body : List Byte) (x : Run) : Run :=
  sendHeld p (mkChunk x.2 4 0 3 (x.2.lowest x.1.code) 0 body) [] [j] x

/-- The COUNTS_OUT chunk of a receiver hosted here (R172), once its totals have passed: U32 counts and, since RECV_CAP lets a total
take 44 bits, a U64 total (DESIGN CHOICE, log entry 105). The counts that came in are held until the last of these chunks is
built (R169). -/
def countsOutWork (p : Part) (j : Nat) (x : Run) : Run :=
  let o := x.2
  if o.opc != 7 || !o.marked [7] || o.marked [34, j] || o.paused || o.phase = 4 || !(o.here x.1).contains j then x
  else
    let body := (List.range o.m).flatMap (fun i => toBytes 4 ((countOf o i j).getD 0)) ++ toBytes 8 (countTotal o j)
    let y := sendCountsOut p j body (x.1, o.mark [34, j])
    if (o.here x.1).all (fun i => y.2.marked [34, i]) then releaseInputs (fun h => h.c.kind = 3) y else y

/-- Held chunks that can move now moved. -/
def moveAll (p : Part) (x : Run) : Run := x.2.inputs.foldl (fun x h => moveOne p h x) x

end Sys2Proof.Machine
end

