-- ==== Sys2Proof/Machine/Dictionary.lean ====
section
/-! DEFINITION. The commands of the dictionary's own objects: the event queue and log, segments, discovery, the lock
(spec/15_dictionary_protocol.md). -/

namespace Sys2Proof.Machine

/-- Records a table of variable length holds now. -/
def tabNow (d : Dev) (idx sub : Nat) : Nat :=
  match idx, sub with
  | 0x3010, 2 => d.buf.leaks.length
  | 0x5001, 1 => d.colls.ops.length
  | 0x5003, 0 => d.colls.doneLog.length
  | 0x5030, 0 => d.colls.routes.length
  | 0x5201, 0 => (d.colls.ops.filter (fun o => o.waiting)).length
  | 0x7005, 0 => d.mem.poisonLog.length
  | 0x8100, 3 => d.pace.schedLog.length
  | 0x9020, 0 => d.spares.log.length
  | _, _ => 1

/-- The 16 bytes of DESCRIBE (R394, R418): type 0xFF for a reserved object. R389 lists no I16: its code is the device's. -/
def describeImage (p : Part) (d : Dev) (idx sub : Nat) : Nat :=
  match findObj idx sub with
  | none => 0xFF
  | some o =>
    pack [(0, 8, if o.ty = 11 then Config.i16TypeCode else o.ty), (8, 8, o.acc), (16, 8, o.pers), (24, 8, o.func),
      (32, 32, o.bytes), (64, 32, o.count p (tabNow d idx sub))]

/-- Up to `n` records taken from the queue in delivery order (R410). -/
def takeEvents : Nat → List Event → List Event × List Event
  | 0, q => ([], q)
  | n + 1, q =>
    match pickEvent q with
    | none => ([], q)
    | some (x, q') => (x :: (takeEvents n q').1, (takeEvents n q').2)

/-- The bytes of event records. -/
def eventBytes (xs : List Event) : List Byte := xs.flatMap (fun x => toBytes 64 x.image)

/-- EVQ_READ's rule: with owner 1 and on the field network only (R410). -/
def evqReadRule (path : Path) (d : Dev) : Dev × Option Rsp :=
  match path with
  | .slot _ => (d, some (Rsp.st stBadField))
  | .peer a =>
    if d.evqOwner != 1 then (d, some (Rsp.st stBadField))
    else
      let r := takeEvents 15 d.evt.queue
      let d' := { d with evt := { d.evt with queue := r.2, reader := some a } }
      (settleQueue d' (d'.ctr 0x1021 3 0), some ⟨stOK, 0, 0, eventBytes r.1⟩)

/-- EVQ_READ (R410). -/
def execEvqRead (rq : Rq) (s : State) : Res :=
  lift s fun _ d => serve d rq ⟨0x10, 0x1021, 0, 0, true, 0, 0, []⟩ (fun _ d => evqReadRule rq.path d)

/-- The log's records from SEQ `first` on, oldest first (R409). -/
def logFrom (e : Events) (first : Nat) : List Event := (e.log.reverse).filter (fun x => first ≤ x.seq)

/-- Records of 64 bytes that one response carries (R399, R405). -/
def logFits : Path → Nat
  | .slot _ => 127
  | .peer _ => 16

/-- LOG_READ's rule (R409). -/
def logReadRule (path : Path) (first : Nat) (d : Dev) : Rsp :=
  let xs := (logFrom d.evt (max first d.evt.oldest)).take (logFits path)
  ⟨stOK, match xs with | [] => 0 | x :: _ => x.seq, 0, eventBytes xs⟩

/-- LOG_READ (R409). -/
def execLogRead (rq : Rq) (first : Nat) (s : State) : Res :=
  lift s fun _ d => serve d rq ⟨0x11, 0x1020, 0, 0, true, 0, first, []⟩
    (fun _ d => (d, some (logReadRule rq.path first d)))

/-- OCT_SEGMENT (R398): a segment that is not the last one. -/
def execOctSegment (rq : Rq) (idx sub off : Nat) (data : List Byte) (s : State) : Res :=
  lift s fun _ d => serve d rq ⟨2, idx, sub, off, false, data.length, 0, data⟩ (fun _ d => (d, none))

/-- BAR0_BUSY_SLOT_WRITE (R399): ignored and counted. -/
def execBar0BusySlotWrite (slot : Nat) (s : State) : Res :=
  liftAt s (decide (slot < 8)) fun _ d => if d.isReady 0 then d.inc 0x1030 0 6 else d

/-- CONSUMED's rule (R400). -/
def consumeRule (d : Dev) (v : Nat) : Dev :=
  if d.evt.consumed ≤ v && v ≤ d.evt.placed then
    let d' := placeEvents 64 { d with evt := { d.evt with consumed := v } }
    settleQueue d' (d'.ctr 0x1021 3 0)
  else d.inc 0x1030 0 6

/-- An MSI-X mask bit written: vectors pending and no longer masked are raised (R400; the bits' working is the PCIe standard's,
PRESUMED, log entry 133). -/
def maskRule (d : Dev) (k : Nat) (on : Bool) : Dev :=
  if 2 < k then d
  else
    let d1 := { d with evt := { d.evt with masks := putBit d.evt.masks k on, pend := 0 } }
    [0, 1].foldl (fun x v => if d.evt.pend.testBit v then raiseMsix x v else x) d1

/-- An 8-byte word of BAR2 as it reads (R400). -/
def bar2Word (d : Dev) (off : Nat) : Nat :=
  if off = 0 then d.evt.placed
  else if off = 8 then d.evt.consumed
  else if off = 16 then pack [(0, 16, d.evt.depth), (16, 1, b2n d.evt.full), (17, 1, b2n d.evt.overrun)]
  else if off < 0x1000 then 0
  else match d.evt.window.find? ((off - 0x1000) / 64) with
    | some x => bits x.image (off % 64 * 8) 64
    | none => 0

/-- EVENT_CONSUMED (R400): a write of CONSUMED; the rest of BAR2 ignores writes; the function's MSI-X mask bits stand beside it. -/
def execEventConsumed (w : HostWrite) (s : State) : Res :=
  lift s fun _ d =>
    if !d.isReady 0 then d
    else match w with
      | .consumed v => consumeRule d v
      | .window _ => d
      | .msixMask k on => maskRule d k on

/-- EVQ_NOTICE_DELAYED (R410): 1 ms has passed since the last notice; a held one is sent if the queue still holds records. -/
def execEvqNoticeDelayed (s : State) : Res :=
  lift s fun _ d =>
    let held := d.evt.noticeHeld && !d.evt.queue.isEmpty
    let d' := { d with evt := { d.evt with noticeHeld := false, noticeRecent := false } }
    if held then notice d' else d'

/-- MALFORMED_DATAGRAM (R405). -/
def execMalformedDatagram (s : State) : Res :=
  lift s fun _ d => if d.isReady 1 then d.inc 0x1030 0 4 else d

/-- The base of a firmware bank in flash (R435). -/
def bankBase (b : Nat) : Nat := b * 0x01000000

/-- Flash reads as erased where nothing is listed. -/
def flashNat (d : Dev) (a n : Nat) : Nat := d.boot.flash.readNat 0xFF#8 a n

/-- FW_VERSION: VERSION of the running bank's header, 0 in recovery mode (R419, R441, R446). -/
def fwVersion (d : Dev) : Nat := if d.boot.recovery then 0 else flashNat d (bankBase d.boot.bank + 196) 4

/-- The bytes of a text of ASCII letters (R389 STR). -/
def strBytes (t : List Nat) : List Byte := t.map (BitVec.ofNat 8)

/-- PART (R3). -/
def partName (p : Part) : List Byte :=
  strBytes [0x4C, 0x58, 0x39, 0x2D, match p.grade with | .a => 0x41 | .b => 0x42 | .c => 0x43]

/-- ACN_SET (R4). -/
def Part.acnSet (p : Part) : Nat := match p.stepping with | .a0 => 2 | .a1 => 2 | .b0 => 6

/-- FNET_NODE_ID (R407, R442): the owner image's PLCA_NODE, or the SLOT_ID pins. -/
def nodeId (p : Part) (d : Dev) : Nat :=
  if d.boot.ownerSlot = 0xFF then p.slotId
  else
    let v := bits d.boot.ownerHdr 1492 8
    if v = 0xFF then p.slotId else v

/-- The value of an object in 0x1000 to 0x10FF, as R406 lets a multicast READ ask for: R3, R414, R419. A reserved object
reads as eight zero bytes (R388). None: the access class forbids the read. -/
def readLow (p : Part) (d : Dev) (idx sub : Nat) : Option (List Byte) :=
  match idx, sub with
  | 0x1000, 0 => some (strBytes [0x50, 0x79, 0x72, 0x67, 0x61, 0x6E])
  | 0x1000, 1 => some (strBytes [0x4C, 0x6F, 0x72, 0x73, 0x75, 0x6F, 0x78])
  | 0x1001, 0 => some (partName p)
  | 0x1002, 0 => some (toBytes 1 p.step)
  | 0x1003, 0 => some (toBytes 4 p.acnSet)
  | 0x1004, 0 => some (toBytes 16 Config.serial)
  | 0x1005, 0 => some (toBytes 4 (fwVersion d))
  | 0x1006, 0 => some (toBytes 2 1)
  | 0x1010, 0 => some (toBytes 4 d.boot.ready)
  | 0x1010, 1 => some (toBytes 4 d.boot.readyGroves)
  | 0x1010, 2 => some (toBytes 16 d.boot.readyLinks)
  | 0x1011, 0 => some (toBytes 4 d.boot.bootSeq)
  | 0x1020, 0 => some (toBytes 8 d.evt.last)
  | 0x1020, 1 => some (toBytes 8 d.evt.oldest)
  | 0x1021, 0 => some (toBytes 2 d.evt.depth)
  | 0x1021, 1 => some (toBytes 1 (b2n d.evt.full))
  | 0x1021, 2 => some (toBytes 1 (b2n d.evt.overrun))
  | 0x1021, 3 => some (toBytes 8 (d.ctr 0x1021 3 0))
  | 0x1021, 4 => some (toBytes 1 d.evqOwner)
  | 0x1021, 5 => none
  | 0x1030, 0 => some ((List.range 8).flatMap (fun k => toBytes 8 (d.ctr 0x1030 0 k)))
  | 0x1040, 0 => some (toBytes 1 (d.rd 0x1040 0 0))
  | 0x1040, 1 => some (toBytes 1 (nodeId p d))
  | 0x1040, 2 => some (toBytes 1 (d.rd 0x1040 2 0))
  | 0x1040, 3 => some (toBytes 6 Config.fnetMac)
  | _, _ => some (List.replicate 8 0)

/-- OFFSET and LENGTH as the type of an object takes them: whole records of a table (R397), whole records of PERSIST_READ, any OFFSET
of TELEM_SNAP (R471), OFFSET 0 of another OCT object (R398). -/
def readRangeOk (o : Obj) (off len : Nat) : Bool :=
  if o.ty = 10 then off % o.bytes = 0 && len % o.bytes = 0
  else if o.ty != 9 || o.idx = 0x9110 then true
  else if o.idx = 0xA006 && o.sub = 0 then off % 128 = 0
  else off = 0

/-- The response of a discovery READ. -/
def discoveryRsp (p : Part) (d : Dev) (idx sub : Nat) (x : Span) : Rsp :=
  if d.boot.recovery && !recoveryServes idx then Rsp.st stNotReady
  else if !((findObj idx sub).all (fun o => readRangeOk o x.off x.len)) then Rsp.st stBadField
  else match readLow p d idx sub with
    | none => Rsp.st stBadField
    | some b => Rsp.bytes (.peer 0) x.off x.len b

/-- A discovery answer: by unicast after a delay of 0 to 50 ms that the spec leaves to chance (R406). -/
def answerDiscovery (d : Dev) (peer seq : Nat) (r : Rsp) : Dev :=
  { d.send (.discovery peer seq (Config.discoveryDelay d.boot.draws % 51) r) with
    boot := { d.boot with draws := d.boot.draws + 1 } }

/-- DISCOVERY_READ (R406): a multicast READ of an object in 0x1000 to 0x10FF. Any other is counted as malformed. -/
def execDiscoveryRead (peer seq idx sub : Nat) (span : Span) (s : State) : Res :=
  lift s fun p d =>
    if !d.isReady 1 then d
    else if idx < 0x1000 || 0x10FF < idx then d.inc 0x1030 0 4
    else
      let k := Call.read idx sub span.off span.len
      let x := enterPeer (d.inc 0x1030 0 1) peer
      let c := x.1
      let d := x.2
      match verdict (d.chan c) seq k.image with
      | .resend => answerDiscovery (d.inc 0x1030 0 2) peer seq (d.chan c).rsp
      | .differs => answerDiscovery d peer seq (Rsp.st stBadField)
      | .stale => d.inc 0x1030 0 3
      | .run =>
        let d := dropAsm d c
        let r := discoveryRsp p d idx sub span
        answerDiscovery (d.setChan c { d.chan c with lastReq := some (seq, k.image), rsp := r }) peer seq r

/-- UNLOCK's rule on channel `c` (R401). -/
def unlockRule (v c : Nat) (d : Dev) : Dev × Option Rsp :=
  if v = 0xC3A5 then (setUnlocked d c true, some (Rsp.st stOK))
  else ((setUnlocked d c false).inc 0x1030 0 7, some (Rsp.st stLocked))

/-- UNLOCK (R401). -/
def execUnlock (rq : Rq) (v : Nat) (s : State) : Res :=
  lift s fun _ d => serve d rq (Call.write 0x1F00 0 (toBytes 2 v)) (unlockRule (v % 65536))

/-- The channel a path holds now, if it holds one. -/
def chanOf (d : Dev) : Path → Option Nat
  | .slot n => some n.val
  | .peer a => (d.peers.find? (fun x => x.1 == a)).map (fun x => 8 + x.2)

/-- UNLOCK_TIMEOUT (R401): 10 s without an rk write or segment re-arm the lock; an open rk assembly is discarded. -/
def execUnlockTimeout (path : Path) (s : State) : Res :=
  lift s fun _ d =>
    match chanOf d path with
    | none => d
    | some c =>
      if !(d.chan c).unlocked then d
      else
        let rk : Bool := match (d.chan c).asm with
          | some a => (match findObj a.idx a.sub with | some o => o.acc = accRk | none => false)
          | none => false
        setUnlocked (if rk then dropAsm d c else d) c false

/-- EVQ_FLUSH's rule (R412). -/
def flushRule (v : Nat) (d : Dev) : Dev × Nat :=
  if 1 < v then refuse d stBadField
  else if v = 0 then accept d
  else
    let d' := { d with evt := { d.evt with queue := [] } }
    accept (settleQueue d' (d'.ctr 0x1021 3 0))

/-- EVQ_FLUSH (R412). -/
def execEvqFlush (rq : Rq) (v : Nat) (s : State) : Res :=
  lift s fun _ d => serveWrite d rq 0x1021 5 (toBytes 1 v) (flushRule (v % 256))

/-- EVQ_OWNER's rule (R410, R414). -/
def ownerRule (v : Nat) (d : Dev) : Dev × Nat :=
  if 1 < v then refuse d stBadField
  else if v = d.evqOwner then accept d
  else accept (placeEvents 64 (d.wr 0x1021 4 0 v))

/-- EVQ_OWNER_CHANGE (R410). -/
def execEvqOwnerChange (rq : Rq) (v : Nat) (s : State) : Res :=
  lift s fun _ d => serveWrite d rq 0x1021 4 (toBytes 1 v) (ownerRule (v % 256))

end Sys2Proof.Machine
end

