-- ==== Sys2Proof/Machine/CollSubmit.lean ====
section
/-! DEFINITION. Descriptors at a member device: the checks of R154 with those of chapter 7, the entry, forwarding, and the waits of
the admission queue (spec/06_collectives.md R152-R156, spec/07_dispatch_sort_gather.md R188, R189, R197, R201, R205, R210,
spec/09_buffers_and_slots.md R255-R260). -/

namespace Sys2Proof.Machine

/-! ### Checks (R154) -/

/-- An operation needs a ROOT (R147, R153, R210). -/
def rooted (desc : Nat) : Bool := dscOp desc = 2 || dscOp desc = 5 || (dscOp desc = 0x14 && !(dscOpx desc).testBit 58)

/-- Conditions on OPX, COUNT and the formats that an operation of chapter 7 adds. -/
def fieldsBad7 (d : Dev) (desc : Nat) : Bool :=
  let x := dscOpx desc
  let n := dscCount desc
  let fm := dscIfmt desc
  let sc := dscIscale desc
  let pool := d.rd 0x5100 0 (bits x 56 8)
  match dscOp desc with
  | 0x10 =>
    n = 0 || decide (65536 < n) || bits x 58 6 != 0 || dscPart desc != 0 || !(sc = 0 || sc = 3) || !modeOk fm sc
      || decide (opxExperts x < opxChoices x) || opxTmax x = 0
  | 0x11 =>
    n = 0 || dscPart desc != 0 || sc != 0 || decide (5 < fm) || bits x 0 31 != 0 || !cvtOk (dscCvt desc) (fm = 0)
  | 0x12 =>
    n = 0 || decide (16777216 < n) || fm != 0 || sc != 0 || bits x 0 52 != 0 || bits x 54 2 = 3 || !pool.testBit 0 || pool.testBit 201
      || !cvtOk (dscCvt desc) (bits pool 204 4 = 0) || (dscPart desc = 1 && bits pool 204 4 = 0)
  | 0x13 =>
    n = 0 || decide (1048576 < n) || fm != 0 || sc != 0 || dscPart desc != 0 || bits x 0 56 != 0 || !pool.testBit 0 || !pool.testBit 201
  | 0x14 =>
    let set := d.rd 0x5110 0 (bits x 54 4)
    fm != 0 || sc != 0 || dscPart desc != 0 || bits x 0 50 != 0 || decide (3 < bits x 60 4) || decide (11 < bits x 50 4)
      || (decide (2 ≤ bits x 60 4) && (!set.testBit 32 || setKeyt set != bits x 50 4))
  | _ => true

/-- A reserved code or field, or a field that the operation is to have written 0; PART = 1 with an FP64 input, whatever the
operation does with PART (R149, R153, R154). -/
def fieldsBad (d : Dev) (desc : Nat) : Bool :=
  let op := dscOp desc
  let f := dscFlag desc
  let fm := dscIfmt desc
  let sc := dscIscale desc
  bits desc 416 3 != 0 || bits desc 128 31 != 0 || decide (1 < dscPart desc) || decide (1 < dscMmode desc)
    || !(decide (3 ≤ dscVc desc) && decide (dscVc desc ≤ 6)) || bits f 0 24 != 0 || bits f 40 8 != 0
    || (dscPart desc = 1 && fm = 0 && decide (1 ≤ op ∧ op ≤ 7)) || (!rooted desc && dscRoot desc != 0) || (dscMmode desc = 1 && (dscNranks desc != 0 || dscStride desc != 0))
    || (if reduces op then
          decide (3 < dscRedop desc) || (if 2 ≤ dscRedop desc then sc != 0 || decide (5 < fm) else !modeOk fm sc)
            || !cvtOk (dscCvt desc) (fm = 0) || dscOpx desc != 0
        else
          dscRedop desc != 0
            || (if 4 ≤ op ∧ op ≤ 8 then
                  !modeOk fm sc || (decide (7 ≤ op) && dscCount desc != 0)
                    || (if op = 7 then bits (dscOpx desc) 44 20 != 0 else dscOpx desc != 0)
                else fieldsBad7 d desc))

/-- Strictly ascending. -/
def ascending : List Nat → Bool
  | a :: b :: rest => decide (a < b) && ascending (b :: rest)
  | _ => true

/-- What R189 and R197 ask of the membership. -/
def members7Bad (d : Dev) (desc job : Nat) (ms : List Member) : Bool :=
  let x := dscOpx desc
  if dscOp desc = 0x10 then opxExperts x % ms.length != 0
  else if dscOp desc = 0x11 then
    match findRoute d job (bits x 32 32) with
    | none => true
    | some r => r.inUse || r.members != ms.map (fun m => m.rank)
  else false

/-- Tables are full (R154, R155, R189). -/
def tablesFull (d : Dev) (desc : Nat) (hosted : Nat) : Bool :=
  let x := dscOpx desc
  decide (16384 ≤ d.colls.ops.length) || (dscPaceEn desc && (schedFree d).isNone)
    || (dscOp desc = 0x10 && (decide (64 ≤ d.colls.routes.length)
        || (routeRoom d (hosted * opxTmax x * opxChoices x * 16)).isNone))

/-- The formats of the elements that a descriptor's slots hold. -/
def dscInFmt (d : Dev) (desc : Nat) : Nat × Nat :=
  let pool := d.rd 0x5100 0 (bits (dscOpx desc) 56 8)
  if dscOp desc = 0x12 then (bits pool 204 4, bits pool 202 2) else (dscIfmt desc, dscIscale desc)

/-- The status of a descriptor (R154), in table order; `acn` is that of a forwarded copy, 0 otherwise. With OK, the members. -/
def checkDesc (p : Part) (d : Dev) (desc : Nat) (len : Nat) (list : List Nat) (acn : Nat) : Nat × List Member :=
  let job := bits desc 448 32
  let no := fun (st : Nat) => (st, ([] : List Member))
  if !d.works 7 || (deviceGroves p d).isEmpty then no stNotReady
  else if (d.jobRec job).isSome && !(p.acnSet).testBit (d.jobAcn job) then no stAcnUnsupported
  else if acn != 0 && !(p.acnSet).testBit acn then no stAcnUnsupported
  else if job = 0 || (d.jobRec job).isNone then no stBadField
  else if len != (if dscMmode desc = 1 then 64 + 4 * dscFirst desc else 64) then no stBadField
  else if fieldsBad d desc then no stBadField
  else
    let ranks := dscRanks desc list
    if dscMmode desc = 0 && (dscNranks desc = 0 || 69696 < dscNranks desc || dscStride desc = 0) then no stBadField
    else if ranks.isEmpty || 69696 < ranks.length || !ascending ranks then no stBadField
    else
      match snapshotOf d job ranks with
      | none => no stBadField
      | some ms =>
        let devs := (ms.map Member.dev).eraseDups
        let fmt := dscInFmt d desc
        let n := slotNeed desc fmt.1 fmt.2 devs
        let mx := dscIscale desc = 1 || dscIscale desc = 2
        if 1 < ((ms.map (fun m => m.plane)).eraseDups).length then no stBadField
        else if !devs.contains d.code || members7Bad d desc job ms then no stBadField
        else if rooted desc && !ranks.contains (dscRoot desc) then no stBadField
        else if mx && (if dscOp desc = 7 then bits (dscOpx desc) 0 44 else dscCount desc) % 1024 != 0 then no stBadField
        else if ms.any (fun m => m.fenced) then no stFenced
        else if 32 < n || ((deviceGroves p d).length = 1 && 26 < n) then no stSlotsExceed
        else if tablesFull d desc ((ms.filter (fun m => m.dev = d.code)).length) then no stTableFull
        else (stOK, ms)

/-! ### The entry (R152, R155, R156, R257) -/

/-- The bytes of a descriptor as the entry keeps them. -/
def descNat (bs : List Byte) : Nat := ofBytes (bs.take 64)
def descList (bs : List Byte) : List Nat := (chunksOf 4 bs.length (bs.drop 64)).map ofBytes

/-- A new entry. -/
def newOp (desc : Nat) (list : List Nat) (ms : List Member) : Op :=
  { job := bits desc 448 32, coll := bits desc 480 32, desc := desc, list := list, dictWriters := [], linkWriters := [], phase := 0,
    members := ms, admits := [], go := false, seen := [], fails := [], inputs := [], outs := [], frames := [], acks := [], sealed_ := [],
    got := [], counts := [], lists := [], choices := [], lines := [], flags := 0, amax := (0, 1), doneUps := [], upSent := false,
    doneSent := false, reports := [], status := stOK, mask := 0, grove := none, slots := [], fromReserve := [], ticket := 0,
    waiting := false, queuedAt := 0, aged := false, yielded := false, idle := false, quantum := 0, spill := none, spillAt := 0, spilled := [], scale := none, tableCrc := 0,
    recs := [], paused := false }

/-- An entry taken: its ticket and its wait for slots, its COLL_GO entry. -/
def takeEntry (p : Part) (d : Dev) (new : Op) : Dev :=
  let desc := new.desc
  let fmt := dscInFmt d desc
  let o0 := { new with recs := tableRecs d desc }
  let need := slotNeed desc fmt.1 fmt.2 o0.devs
  let o := if need = 0 then o0 else { o0 with ticket := d.colls.ticketNext, waiting := true, queuedAt := d.tick }
  let cs := { d.colls with ops := d.colls.ops ++ [o], ticketNext := if need = 0 then d.colls.ticketNext else d.colls.ticketNext + 1,
                           ended := d.colls.ended.filter (fun e => e != (o.job, o.coll)) }
  let d1 := { d with colls := cs }
  let d2 := if dscPaceEn desc then
      match schedFree d1 with | some i => putSched d1 i (mkSched 5 (dscPace desc) o.job o.coll true) | none => d1
    else d1
  noteWait (settleColl p (d2.colls.ops.length + 1) d2) o.job o.coll

/-- A writer noted with an entry it may be told of. -/
def addWriter (o : Op) : Option (Sum Path Nat) → Op
  | some (.inl w) => { o with dictWriters := (o.dictWriters ++ [w]).eraseDups }
  | some (.inr n) => { o with linkWriters := (o.linkWriters ++ [n]).eraseDups }
  | none => o

/-- A copy of the descriptor sent to member devices, with the job's ACN: along the entry device's row, then down the columns
(R152). -/
def forwardDesc (p : Part) (d : Dev) (desc : List Byte) (devs : List Nat) : Dev :=
  let acn := d.jobAcn (bits (descNat desc) 448 32)
  devs.foldl (fun d q => sendFrame p d 0x02 0 (q / 64) (q % 64) 0 (pack [(248, 8, acn)]) desc) d

/-- A descriptor at this device: accepted, recognised as one already held, or refused; `from_` is the device that forwarded it,
none for a writer's own copy (R152, R154). -/
def submit (p : Part) (d : Dev) (desc : List Byte) (acn : Nat) (writer : Option (Sum Path Nat)) (from_ : Option Nat) : Dev × Nat :=
  let v := descNat desc
  let list := descList desc
  match (if d.works 7 then findOp d (bits v 448 32) (bits v 480 32) else none) with
  | some o =>
    if o.desc = v && o.list = list && 64 ≤ desc.length then (putOp d (addWriter o writer), stOK) else (d, stBadField)
  | none =>
    let r := checkDesc p d v desc.length list acn
    if r.1 != stOK then (d, r.1)
    else
      let o := addWriter (newOp v list r.2) writer
      let devs := match from_ with
        | none => o.rowOf d.code ++ o.columnsOf d.code
        | some q => if q / 64 = d.code / 64 then o.columnsOf d.code else []
      (takeEntry p (forwardDesc p d desc (devs.filter (· != d.code))) o, stOK)

/-- COLL_SUBMIT's rule (R152). -/
def submitAct (p : Part) (rq : Rq) (desc : List Byte) : Act := ruleAct (fun d => submit p d desc 0 (some (.inl rq.path)) none)

/-- COLL_SUBMIT (R152, R223). -/
def execCollSubmit (rq : Rq) (desc : List Byte) (s : State) : Res :=
  lift s fun p d => serveOrHold d rq (Call.write 0x5000 0 desc) (submitAct p rq desc) (d.modes.fcm = 1)
    (fun d => holdForFcm d (.collSubmit rq desc))

/-- COLL_STATUS toward the endpoint link that a COLL_SUBMIT frame came in on (R152, R273). -/
def answerSubmit (d : Dev) (n : Nat) (f : Frame) : Dev := buildFrame d f (fun d => toEndpoint d none n f)

/-- A COLL_SUBMIT frame at this device: an endpoint's is answered with COLL_STATUS (R273); a forwarded copy that is refused has
no effect on any device (R154). The operation then gets no ADMIT from this device, so that GO never leaves, no member delivers a
result (R7), and the limit of R179 ends it where it was admitted (DEDUCED, log entry 70). -/
def submitFrame (p : Part) (d : Dev) (via : Via) (row col acn : Nat) (desc : List Byte) : Dev :=
  let v := descNat desc
  match via with
  | .endpoint n =>
    let r := submit p d desc 0 (some (.inr n)) none
    answerSubmit r.1 n (r.1.frame 0x03 0 d.row d.col 0
      (pack [(224, 32, bits v 480 32), (192, 32, bits v 448 32), (184, 8, r.2)]) [])
  | _ =>
    if d.isFenced row col then fenceDiscard d { d.frame 0x02 0 0 0 0 0 [] with srow := row, scol := col }
    else (submit p d desc acn none (some (row * 64 + col))).1

/-- COLL_SUBMIT_FRAME (R152). -/
def execCollSubmitFrame (via : Via) (row col acn : Nat) (desc : List Byte) (s : State) : Res :=
  liftAt s (match via with | .endpoint n => s.part.hasLink n | .fabric n => s.part.hasLink n | .own => true) fun p d =>
    if !d.runs domXbar || !d.works 6 then d
    else if d.modes.fcm = 1 then holdForFcm d (.collSubmitFrame via row col acn desc)
    else submitFrame p d via row col acn desc

/-! ### Waits of the admission queue (R258, R260) -/

/-- SLOT_AGING (R258): a waiting operation has waited SLOT_AGE_LIMIT. In fixed-cycle mode, where slots are granted in (JOB, COLL)
order at clean boundaries, no ticket ages (R222). -/
def execSlotAging (job coll : Nat) (s : State) : Res :=
  lift s fun p d =>
    match findOp d job coll with
    | none => d
    | some o =>
      if !o.waiting || o.aged || d.inFcm then d
      else settleColl p (d.colls.ops.length + 1) ((putOp d { o with aged := true }).inc 0x5210 2 0)

/-- SLICE_IDLE_EXPIRY (R260): an operation that holds slots has combined nothing for SLICE_IDLE. It yields once a wait for its
grove stands, now or later; in fixed-cycle mode at the next clean boundary (R262). -/
def execSliceIdleExpiry (job coll : Nat) (s : State) : Res :=
  lift s fun p d =>
    match findOp d job coll with
    | none => d
    | some o =>
      if o.slots.isEmpty || o.phase = 4 then d
      else settleColl p (d.colls.ops.length + 1) (yieldsDue p (putOp d { o with idle := true }))

end Sys2Proof.Machine
end

