-- ==== Sys2Proof/Machine/Moe.lean ====
section
/-! DEFINITION. Mixture-of-experts dispatch and combine on a DEVICE-role grove: choices and weights, capacity, rows and reports, the
weighted exact sum (spec/07_dispatch_sort_gather.md R188-R198). Kinds of `Op.lists` used here: 10 member and token count; 11
member and NaN token; 12 member chosen; 13 expert, choice, member and count; 14 member whose counts are here; 15 member, expert,
choice, kept count and first row; 16 capacity done; 17 member and row total; 18 member routed; 19 member and row passed on; 32 a
row received; 33 member and host device whose kept counts are here. -/

namespace Sys2Proof.Machine

/-- Experts per member, the member that hosts an expert, the experts of a member, and of a device (R189). -/
def expertsEach (o : Op) : Nat := max 1 (opxExperts o.opx / max 1 o.m)
def hostOf (o : Op) (x : Nat) : Nat := x / expertsEach o
def expertsOf (o : Op) (h : Nat) : List Nat := (List.range (expertsEach o)).map (h * expertsEach o + ·)
def expertsAt (o : Op) (dev : Nat) : List Nat := (o.at_ dev).flatMap (expertsOf o)

/-- Bytes of a hidden row, of a score, and of a member's scores with their padding (R190). -/
def rowBytes (o : Op) : Nat := o.count * (fmtOf (dscIfmt o.desc)).w / 8
def scoreFmt (o : Op) : Nat := if o.opx.testBit 40 then 2 else 1
def scoreBytes (o : Op) (t : Nat) : Nat := roundUp (t * opxExperts o.opx * ((fmtOf (scoreFmt o)).w / 8)) 4096

/-- The token count of a member, once its COUNTS chunk is here. -/
def tokensOf (o : Op) (i : Nat) : Option Nat := match o.listed [10, i] with | [t] :: _ => some t | _ => none

/-- The first `n` chunks of a member's stream, when all are held. -/
def heldStream (o : Op) (i n : Nat) : Option (List Byte) :=
  ((List.range n).mapM (fun k => (o.inputs.find? (fun h => h.c.kind = 0 && h.c.stage = 0 && h.c.src = i && h.c.chunk = k)).map
    (fun h => h.c.payload))).map List.flatten

/-! ### Choices and weights (R191, R192) -/

/-- The choices of a token from its score codes, none for a NaN: expert indices with their scores. -/
def chooseExperts (fmt k : Nat) (codes : List Nat) : Option (List (Nat × Num)) :=
  let kt := if fmt = 2 then 7 else 8
  let nums := codes.map (decodeNum (fmtOf fmt))
  if nums.any Num.isNan then none
  else
    let order := (sortRank true (codes.zipIdx.map (fun x => (keyRank kt x.1, x.2)))).map Prod.snd
    let ok := order.filter (fun i => match nums[i]? with | some (.inf true) => false | _ => true)
    some ((ok.take k).map (fun i => (i, nums.getD i (.nan false))))

/-- A value rounded to FP32 with RNE. -/
def toFp32 (n : Num) : Nat := (roundTo (fmtOf 1) 0 false n).1

/-- The weights of a token's chosen scores, and whether the fallback applied. A token without a choice has no weight and counts as
no fallback: R192 does not say whether its empty sum is one (DESIGN CHOICE, log entry 129). -/
def chooseWeights (divide : Bool) (ss : List Num) : List Nat × Bool :=
  if !divide then (ss.map toFp32, false)
  else
    let sum := ss.foldl (fun a b => (Num.add 0 a b).1) Num.zero
    let bad := ss.any (fun s => !s.isFin || (s.neg? && !s.isZero)) || sum.isZero
    if bad then (ss.map (fun _ => toFp32 (Num.fin false 1 (max 1 ss.length))), !ss.isEmpty)
    else (ss.map (fun s => toFp32 (Num.div s sum).1), false)

/-- One token's choices added to the operation. -/
def chooseToken (i t : Nat) (codes : List Nat) (x : Run) : Run :=
  let o := x.2
  match chooseExperts (scoreFmt o) (opxChoices o.opx) codes with
  | none => (x.1.inc 0x5020 1 0, o.mark [11, i, t])
  | some cs =>
    let w := chooseWeights (o.opx.testBit 39) (cs.map Prod.snd)
    let made := ((cs.map Prod.fst).zip w.1).zipIdx.map (fun y => (⟨i, t, y.2, y.1.1, y.1.2, false, 0⟩ : Choice))
    (if w.2 then x.1.inc 0x5020 2 0 else x.1, { o with choices := o.choices ++ made })

/-- Counts of a member's choices at the experts of one device, expert by expert, choice by choice (R193). -/
def choiceCounts (o : Op) (i dev : Nat) : List Nat :=
  (expertsAt o dev).flatMap (fun x => (List.range (opxChoices o.opx)).map (fun j =>
    (o.choices.filter (fun c => c.member = i && c.expert = x && c.choice = j)).length))

/-- A member's counts kept at its experts' host. -/
def takeChoiceCounts (dev i : Nat) (vals : List Nat) (o : Op) : Op :=
  let slots := (expertsAt o dev).flatMap (fun x => (List.range (opxChoices o.opx)).map (fun j => (x, j)))
  let new : List (List Nat) := (slots.zip vals).map (fun (y : (Nat × Nat) × Nat) => [13, y.1.1, y.1.2, i, y.2])
  { o with lists := o.lists ++ new ++ [[14, i]] }

/-- TOPK's work for an own member whose scores are all held. -/
def topkWork (p : Part) (i : Nat) (x : Run) : Run :=
  let o := x.2
  match tokensOf o i with
  | none => x
  | some t =>
    let n := scoreBytes o t
    if o.opc != 0x10 || o.phase = 4 || o.paused || o.marked [12, i] || !(o.here x.1).contains i then x
    else
      match heldStream o i (n / 4096) with
      | none => x
      | some bs =>
        let e := opxExperts o.opx
        let w := (fmtOf (scoreFmt o)).w
        if bs.length < n then reportAbort p stBadField x
        else
          let y := (List.range t).foldl (fun x k =>
            chooseToken i k (unpackCodes w e (ofBytes ((bs.drop (k * e * (w / 8))).take (e * (w / 8))))) x) (x.1, o.mark [12, i])
          y.2.devs.foldl (fun x dev =>
            let vals := choiceCounts x.2 i dev
            if dev = x.1.code then (x.1, takeChoiceCounts dev i vals x.2)
            else sendHeld p (mkChunk x.2 3 0 2 i 0 (vals.flatMap (toBytes 4))) [dev] [] x) y

/-! ### Capacity (R193, R194) -/

/-- count[i][x][j] at the host. -/
def hostCount (o : Op) (x j i : Nat) : Nat := match o.listed [13, x, j, i] with | [n] :: _ => n | _ => 0

/-- Kept counts of one expert in the order of R193: choice, member, kept count. -/
def keepExpert (o : Op) (x : Nat) : List (Nat × Nat × Nat) :=
  let order := (List.range (opxChoices o.opx)).flatMap (fun j => (List.range o.m).map (fun i => (j, i)))
  let cap := opxCap o.opx
  (order.foldl (fun (acc : List (Nat × Nat × Nat) × Nat) (y : Nat × Nat) =>
    let n := hostCount o x y.1 y.2
    let k := if cap = 0 then n else min n acc.2
    (acc.1 ++ [(y.1, y.2, k)], acc.2 - k)) ([], cap)).1

/-- The kept counts of a member's experts with the first row of each: expert, choice, member, kept count, first row (R194). -/
def placeRows (o : Op) (h : Nat) : List (Nat × Nat × Nat × Nat × Nat) :=
  let all := (expertsOf o h).flatMap (fun x => (keepExpert o x).map (fun y => (x, y.1, y.2.1, y.2.2)))
  (all.foldl (fun (acc : List (Nat × Nat × Nat × Nat × Nat) × Nat) y =>
    (acc.1 ++ [(y.1, y.2.1, y.2.2.1, y.2.2.2, acc.2)], acc.2 + y.2.2.2)) ([], 0)).1

/-- A member's kept counts and first rows at its own device. -/
def takeKept (dev i : Nat) (vals : List Nat) (o : Op) : Op :=
  let slots := (expertsAt o dev).flatMap (fun x => (List.range (opxChoices o.opx)).map (fun j => (x, j)))
  let new : List (List Nat) := slots.zipIdx.map (fun (y : (Nat × Nat) × Nat) =>
    [15, i, y.1.1, y.1.2, vals.getD (2 * y.2) 0, vals.getD (2 * y.2 + 1) 0])
  { o with lists := o.lists ++ new ++ [[33, i, dev]] }

/-- KEEP's work: the capacity rule, the answers to each source, COUNTS_OUT to each hosted member. An answer holds the kept count and
the first row number of each expert and choice: R193 names the kept count and gives no layout (DESIGN CHOICE, log entry 129). -/
def keepWork (p : Part) (x : Run) : Run :=
  let o := x.2
  if o.opc != 0x10 || o.phase = 4 || o.paused || o.marked [16] || !(List.range o.m).all (fun i => o.marked [14, i]) then x
  else
    let me := x.1.code
    let own := o.here x.1
    let placed := own.flatMap (placeRows o)
    let seen := (placed.map (fun y => hostCount o y.1 y.2.1 y.2.2.1)).sum
    let kept := (placed.map (fun y => y.2.2.2.1)).sum
    let valsOf := fun (i : Nat) => (expertsAt o me).flatMap (fun e => (List.range (opxChoices o.opx)).flatMap (fun j =>
      match placed.find? (fun y => y.1 = e && y.2.1 = j && y.2.2.1 = i) with | some y => [y.2.2.2.1, y.2.2.2.2] | none => [0, 0]))
    let d1 := x.1.inc 0x5020 0 0 (seen - kept)
    let y := (List.range o.m).foldl (fun (x : Run) i =>
      if o.devOf i = me then (x.1, takeKept me i (valsOf i) x.2)
      else sendHeld p (mkChunk x.2 3 0 3 (o.lowest me) i ((valsOf i).flatMap (toBytes 4))) [o.devOf i] [] x) (d1, o.mark [16])
    own.foldl (fun (x : Run) h =>
      let mine := placed.filter (fun y => hostOf o y.1 = h)
      let total := (mine.map (fun y => y.2.2.2.1)).sum
      let per := (expertsOf o h).map (fun e => ((mine.filter (fun y => y.1 = e)).map (fun y => y.2.2.2.1)).sum)
      sendCountsOut p h ((total :: per).flatMap (toBytes 4)) (x.1, x.2.mark [17, h, total]))
      (releaseInputs (fun h => h.c.kind = 3 && h.c.stage = 2) y)

/-! ### Rows and reports (R194, R195) -/

/-- A route record. -/
def routeRecord (c : Choice) : Nat :=
  pack [(8, 8, c.choice), (16, 16, c.expert), (32, 32, c.weight), (64, 32, c.member), (96, 32, c.token)]

/-- A kept row at its host: its record and the row itself, at their offsets in the buffer. -/
def deliverRow (p : Part) (src dst row : Nat) (bs : List Byte) (x : Run) : Run :=
  let o := x.2
  let r := ofBytes (bs.take 16)
  let size := roundUp (2 * (tokensOf o dst).getD 0) 4096
  let total := match o.listed [17, dst] with | [n] :: _ => n | _ => 0
  let rec1 := { mkChunk o 2 (2 * row) 3 src dst (bs.take 16) with doff := size + 16 * row }
  let rec2 := { mkChunk o 2 (2 * row + 1) 3 src dst (bs.drop 16) with doff := size + roundUp (16 * total) 4096 + row * rowBytes o }
  let y := sendHeld p rec2 [] [dst] (sendHeld p rec1 [] [dst] x)
  noteGot [row, src, dst] (y.1, y.2.mark [32, src, bits r 96 32, bits r 8 8, bits r 16 16, bits r 32 32, row])

/-- A token's drop report (R194). -/
def dropReport (o : Op) (i t : Nat) : Nat :=
  let cs := o.choices.filter (fun c => c.member = i && c.token = t)
  let dropped := (cs.filter (fun c => !c.kept)).foldl (fun v c => v + 2 ^ c.choice) 0
  pack [(0, 8, dropped), (8, 4, cs.length), (15, 1, b2n (o.marked [11, i, t]))]

/-- A member's choices with what their hosts kept: the lowest tokens of each expert and choice (R193). -/
def settleChoices (o : Op) (i : Nat) : Op :=
  let fix := fun (c : Choice) =>
    if c.member != i then c
    else
      let rank := (o.choices.filter (fun b => b.member = i && b.expert = c.expert && b.choice = c.choice && b.token < c.token)).length
      match o.listed [15, i, c.expert, c.choice] with
      | [n, start] :: _ => { c with kept := decide (rank < n), row := start + rank }
      | _ => c
  { o with choices := o.choices.map fix }

/-- ROUTE's work for an own member. -/
def routeWork (p : Part) (i : Nat) (x : Run) : Run :=
  match tokensOf x.2 i with
  | none => x
  | some t =>
    let o0 := x.2
    let bytes := scoreBytes o0 t + t * rowBytes o0
    if o0.opc != 0x10 || o0.phase = 4 || o0.paused || o0.marked [18, i] || !o0.marked [12, i]
        || !o0.devs.all (fun q => o0.marked [33, i, q]) then x
    else
      match heldStream o0 i (ceilDiv bytes 4096) with
      | none => x
      | some bs =>
        if bs.length < bytes then reportAbort p stBadField x
        else
          let o := settleChoices o0 i
          let rows := bs.drop (scoreBytes o t)
          let y := (o.choices.filter (fun c => c.member = i && c.kept)).foldl (fun (x : Run) c =>
            let body := toBytes 16 (routeRecord c) ++ (rows.drop (c.token * rowBytes o)).take (rowBytes o)
            let h := hostOf o c.expert
            if o.devOf h = x.1.code then deliverRow p i h c.row body x
            else sendHeld p (mkChunk x.2 0 c.row 1 i h body) [o.devOf h] [] x) (x.1, o.mark [18, i])
          let rep := (List.range t).flatMap (fun k => toBytes 2 (dropReport o i k))
          let padded := rep ++ List.replicate (roundUp rep.length 4096 - rep.length) 0
          let z := ((chunksOf 4096 padded.length padded).zipIdx).foldl (fun (x : Run) b =>
            sendHeld p { mkChunk x.2 2 (2 ^ 31 + b.2) 3 i i b.1 with doff := 4096 * b.2 } [] [i] x) y
          releaseInputs (fun h => (h.c.stage = 0 && h.c.src = i) || (h.c.kind = 3 && h.c.stage = 3 && h.c.dst = i)) z

/-! ### Combine (R198) -/

/-- The dispatch's route table. -/
def combineTable (d : Dev) (o : Op) : Option RouteTab := findRoute d o.job (bits o.opx 32 32)

/-- The member that hosts an expert of a route table. -/
def tableHost (r : RouteTab) (x : Nat) : Nat := x / max 1 (r.experts / max 1 r.members.length)

/-- Rows of a hosted member that have not been passed on. -/
def rowsLeft (o : Op) (r : RouteTab) (h : Nat) : List Choice :=
  r.rows.filter (fun c => tableHost r c.expert = h && !o.marked [19, h, c.row])

/-- A row's bytes in its member's stream, when every chunk it lies in is held. -/
def streamRow (o : Op) (h row : Nat) : Option (List Byte) :=
  let rb := rowBytes o
  let first := row * rb / 4096
  let last := ((row + 1) * rb - 1) / 4096
  let parts := (List.range (last - first + 1)).mapM (fun k =>
    (o.inputs.find? (fun i => i.c.kind = 0 && i.c.stage = 0 && i.c.src = h && i.c.chunk = first + k)).map (fun i => i.c.payload))
  match parts with
  | some ps => if ps.flatten.length < (row + 1) * rb - 4096 * first then none else some ((ps.flatten.drop (row * rb - 4096 * first)).take rb)
  | none => none

/-- Rows of expert outputs that are whole, passed to their source's device; a chunk whose rows have all gone is released. -/
def passRows (p : Part) (h : Nat) (x : Run) : Run :=
  match combineTable x.1 x.2 with
  | none => x
  | some r =>
    let y := (rowsLeft x.2 r h).foldl (fun (x : Run) c =>
      match streamRow x.2 h c.row with
      | none => x
      | some bs =>
        let ch := mkChunk x.2 0 c.row 1 h c.member bs
        let o := x.2.mark [19, h, c.row]
        if o.devOf c.member = x.1.code then (x.1, { o with inputs := o.inputs ++ [⟨ch, [], opHolder p x.1 o, false⟩] })
        else sendHeld p ch [o.devOf c.member] [] (x.1, o)) x
    let rb := max 1 (rowBytes y.2)
    let left := rowsLeft y.2 r h
    releaseInputs (fun i => i.c.stage = 0 && i.c.src = h
      && !left.any (fun c => decide (c.row * rb < 4096 * (i.c.chunk + 1)) && decide (4096 * i.c.chunk < (c.row + 1) * rb))) y

/-- The row that a kept choice's expert returned, if it is held. -/
def expertRow (o : Op) (r : RouteTab) (c : Choice) : Option (List Num) :=
  (o.inputs.find? (fun i => i.c.stage = 1 && i.c.src = tableHost r c.expert && i.c.chunk = c.row && i.c.dst = c.member)).map
    (fun i => decodeScalars (fmtOf (dscIfmt o.desc)) o.count i.c.payload)

/-- The exact weighted sum of one element: choices with their rows. -/
def weightedSum (cls rm : Nat) (rows : List (Nat × List Num)) (h : Nat) : Num :=
  let terms := rows.map (fun y => prodTerm (decodeNum (fmtOf 1) y.1) (y.2.getD h (.nan false)))
  accNum rm (terms.foldl (fun a t => match addTerm true a t with | some (b, _) => b | none => a) (Acc.empty cls))

/-- The elements of one output chunk of a member; none while an expert's row is missing. -/
def combineVals (o : Op) (r : RouteTab) (i k n : Nat) : Option (List Num) :=
  let first := k * o.epc
  let toks := (List.range ((first + n - 1) / max 1 o.count - first / max 1 o.count + 1)).map (first / max 1 o.count + ·)
  let rowsOf := fun (t : Nat) => (r.choices.filter (fun c => c.member = i && c.token = t && c.kept)).mapM (fun c =>
    (expertRow o r c).map (fun y => (c.weight, y)))
  match toks.mapM (fun t => (rowsOf t).map (fun rs => (t, rs))) with
  | none => none
  | some tab =>
    some ((List.range n).map (fun e =>
      let t := (first + e) / max 1 o.count
      let h := (first + e) % max 1 o.count
      if r.nanTokens.contains (i, t) then .nan false
      else match tab.find? (fun y => y.1 = t) with
        | some y => weightedSum o.cls (cvRm (dscCvt o.desc)) y.2 h
        | none => .nan false))

/-- A chapter 7 RESULT sealed for an own member: sent, noted, counted (R198, R204). -/
def sealOwn (p : Part) (i k terms carried : Nat) (vals : List Num) (x : Run) : Run :=
  let r := sealResult x.1 x.2 k i 0 terms carried vals Tally.zero
  let o := { x.2 with flags := x.2.flags ||| r.2.1.flags ||| carried, amax := magMax x.2.amax r.2.2, quantum := x.2.quantum + 1,
                      idle := false }
  noteGot [k, i] (sendHeld p r.1 [] [i] (addTally x.1 r.2.1, o))

/-- WCOMB's work for one output chunk of an own member; it reads the route table in its place (R196, R356). -/
def wcombWork (p : Part) (i k : Nat) (x : Run) : Run :=
  match combineTable x.1 x.2 with
  | none => x
  | some r =>
    let o := x.2
    let t := ((r.tokens.find? (fun y => y.1 = i)).map Prod.snd).getD 0
    let n := min o.epc (t * o.count - k * o.epc)
    if o.opc != 0x11 || o.phase = 4 || o.paused || o.slots.isEmpty || !(o.here x.1).contains i || n = 0 || o.got.contains [k, i] then x
    else
      match combineVals o r i k n with
      | none => x
      | some vals =>
        readArea p [routeRange p x.1 r] x fun x =>
        let y := sealOwn p i k 0 0 vals x
        if (List.range (ceilDiv (t * o.count) o.epc)).all (fun k => y.2.got.contains [k, i]) then
          releaseInputs (fun h => h.c.stage = 1 && h.c.dst = i) y
        else y

end Sys2Proof.Machine
end

