-- ==== Sys2Proof/Machine/Pool.lean ====
section
/-! DEFINITION. Pooling, KV page gathers and filters on a DEVICE-role grove (spec/07_dispatch_sort_gather.md R199-R211). Kinds of
`Op.lists` used here: 10 member and index record count; 21 member whose records are checked and sent; 22 member whose bags are all
sealed; 23 member, owner's record count; 24 member whose records this owner has answered; 26 member whose pages are asked for; 27
member, position, page read over the Canopy; 28 member and position that is done; 29 source, chunk and survivors; 30 source, chunk,
bits and elements of a bitmap; 31 filter output complete. -/

namespace Sys2Proof.Machine

/-! ### Pool records (R199, R203) -/

def poolRec (o : Op) : Nat := o.recs.headD 0
def poolD (o : Op) : Nat := max 1 (bits (poolRec o) 208 16)
def poolRows (o : Op) : Nat := bits (poolRec o) 224 32

/-- Bytes of a row image, or of a page. -/
def poolBytes (o : Op) : Nat :=
  let d := bits (poolRec o) 208 16
  let w := (fmtOf (bits (poolRec o) 204 4)).w
  d * w / 8 + (if bits (poolRec o) 202 2 = 1 then d / 32 else 0)

/-- The Canopy address of a row or page. -/
def poolAddr (o : Op) (row : Nat) : Nat :=
  let n := max 1 (bits (poolRec o) 160 32)
  (o.recs.getD (1 + row / n) 0 + row % n * bits (poolRec o) 112 16 * 64) % 2 ^ 64

/-- The member device that owns a row; none when its home is no member device (R203). -/
def poolOwner (d : Dev) (o : Op) (row : Nat) : Option Nat :=
  let home := bits (poolAddr o row) 48 16
  let dev := bits home 0 12
  if home.testBit 15 || bits home 12 3 != d.plane || !o.devs.contains dev then none else some dev

/-- The elements of a row image (R39, R199). -/
def rowVals (o : Op) (bs : List Byte) : List Num :=
  let d := bits (poolRec o) 208 16
  let f := fmtOf (bits (poolRec o) 204 4)
  if bits (poolRec o) 202 2 = 1 then
    (List.range (d / 32)).flatMap (fun b =>
      decodeBlock f (ofBytes ((bs.drop (b * 4 * f.w)).take (4 * f.w))) (ofBytes ((bs.drop (d * f.w / 8 + b)).take 1)) none)
  else decodeScalars f d bs

/-- A row in this device's own stacks. -/
def ownRow (d : Dev) (o : Op) (row : Nat) : List Byte := d.mem.mem.readN 0#8 (bits (poolAddr o row) 0 48) (poolBytes o)

/-- Rows of this device's own stacks read, and the work that takes them; rows beyond the memory, or a word that must not be used,
end the operation instead (R355, R356). -/
def readRows (p : Part) (rows : List Nat) (x : Run) (f : Run → Run) : Run :=
  let off := fun (r : Nat) => bits (poolAddr x.2 r) 0 48
  if rows.any (fun r => decide (memSize p x.1 < off r + poolBytes x.2)) then reportAbort p stFenced x
  else readArea p (rows.map (fun r => (off r, poolBytes x.2))) x f

/-- A row read over the Canopy, once all its lines have come. -/
def canopyRow (o : Op) (row : Nat) : Option (List Byte) :=
  ((linesOf (poolAddr o row) (poolBytes o)).mapM (fun l => (o.lines.find? (fun y => y.addr = l)).map (fun y => y.data))).map
    (fun ls => (ls.flatten).take (poolBytes o))

/-- Canopy reads of rows, sent by the operation's grove; the request carries the operation's job (R203, R337). -/
def askRows (p : Part) (rows : List Nat) (x : Run) : Run :=
  let g := opHolder p x.1 x.2 - 128
  let ls := (rows.eraseDups.flatMap (fun r => linesOf (poolAddr x.2 r) (poolBytes x.2))).eraseDups
  (sendReqs x.1 g (ls.zipIdx.map (fun l =>
    let q := groveReq x.1 g 16 x.2.coll l.2 1 l.1 l.1 0 0 []
    { q with req := { q.req with job := x.2.job } })), x.2)

/-- The first `n` chunks of a stream at a stage, when all are held. -/
def streamAt (o : Op) (stage src n : Nat) : Option (List Byte) :=
  ((List.range n).mapM (fun k =>
    (o.inputs.find? (fun h => h.c.kind = 0 && h.c.stage = stage && h.c.src = src && h.c.chunk = k)).map (fun h => h.c.payload))).map
    List.flatten

/-- Chunks of DATA between member devices, 4,096 bytes each. -/
def sendStream (p : Part) (src dev : Nat) (bs : List Byte) (x : Run) : Run :=
  ((chunksOf 4096 bs.length bs).zipIdx).foldl (fun (x : Run) b =>
    sendHeld p (mkChunk x.2 0 b.2 1 src 0 b.1) [dev] [] x) x

/-- The chunks of a stream released. -/
def dropStream (stage src : Nat) (x : Run) : Run := releaseInputs (fun h => h.c.kind = 0 && h.c.stage = stage && h.c.src = src) x

/-- The COUNTS chunks of a member released, once nothing more is built from them (R169). -/
def dropCounts (stage src : Nat) (x : Run) : Run := releaseInputs (fun h => h.c.kind = 3 && h.c.stage = stage && h.c.src = src) x

/-! ### Pooling (R202-R204) -/

/-- An index record: its bytes, then bag, row and weight. -/
structure PoolIx where
  raw : List Byte
  bag : Nat
  row : Nat
  weight : Nat
  deriving DecidableEq, Repr

def poolMode (o : Op) : Nat := bits o.opx 54 2
def ixBytes (o : Op) : Nat := if poolMode o = 2 then 16 else 8

def readIx (o : Op) (n : Nat) (bs : List Byte) : List PoolIx :=
  ((chunksOf (ixBytes o) n bs).take n).map (fun r =>
    let v := ofBytes r
    ⟨r, bits v 40 24, bits v 0 32, bits v 96 32⟩)

/-- Records that count: their row exists (R204). -/
def liveIx (o : Op) (rs : List PoolIx) : List PoolIx := rs.filter (fun r => decide (r.row < poolRows o))

/-- Bags that chunk `k` of the result holds elements of. -/
def chunkBags (o : Op) (k : Nat) (bag : Nat) : Bool :=
  decide (bag * poolD o < k * o.epc + o.epc) && decide (k * o.epc < (bag + 1) * poolD o)

/-- Elements of chunk `k` of the result of COUNT * D elements. -/
def poolElems (o : Op) (k : Nat) : Nat := min o.epc (o.count * poolD o - k * o.epc)
def poolChunks (o : Op) : Nat := ceilDiv (o.count * poolD o) o.epc

/-- The exact sums of chunk `k` over records with their rows (R203). -/
def poolAccs (o : Op) (k : Nat) (rs : List (PoolIx × List Num)) : List Acc :=
  (List.range (poolElems o k)).map (fun e =>
    let gi := k * o.epc + e
    (rs.filter (fun r => r.1.bag = gi / poolD o)).foldl (fun a r =>
      let v := r.2.getD (gi % poolD o) (.nan false)
      let t := if poolMode o = 2 then prodTerm (decodeNum (fmtOf 1) r.1.weight) v else elemTerm v
      match addTerm true a t with | some (b, _) => b | none => a) (Acc.empty o.cls))

/-- The records of an own member, when all have come. -/
def ownIx (o : Op) (i : Nat) : Option (List PoolIx) :=
  match o.listed [10, i] with
  | [n] :: _ => (streamAt o 0 i (ceilDiv (n * ixBytes o) 4096)).bind (fun bs =>
      if bs.length < n * ixBytes o then none else some (readIx o n bs))
  | _ => none

/-- A record that ends the operation, or a bag with too many (R204). -/
def poolBad (o : Op) (rs : List PoolIx) : Bool :=
  rs.any (fun r => decide (o.count ≤ r.bag) || (!o.opx.testBit 53 && decide (poolRows o ≤ r.row)))
    || (poolMode o != 2 && !o.opx.testBit 52 && decide (2 ^ 25 < rs.length)
        && rs.any (fun r => decide (2 ^ 25 < (rs.filter (fun q => q.bag = r.bag)).length)))

/-- The requester's check and its records on their way: COUNTS to each owner, then the records (R203, R204). -/
def askPool (p : Part) (i : Nat) (x : Run) : Run :=
  match ownIx x.2 i with
  | none => x
  | some all =>
    if poolBad x.2 all then reportAbort p stBadField x
    else
      let rs := liveIx x.2 all
      let y : Run := (x.1.inc 0x5020 3 0 (all.length - rs.length), x.2.mark [21, i])
      let z := (y.2.devs.filter (· != x.1.code)).foldl (fun (x : Run) dev =>
        let mine := rs.filter (fun r => poolOwner x.1 x.2 r.row = some dev)
        sendStream p i dev (mine.flatMap (fun r => r.raw))
          (sendHeld p (mkChunk x.2 3 0 2 i 0 (toBytes 4 mine.length)) [dev] [] x)) y
      askRows p ((rs.filter (fun r => (poolOwner x.1 x.2 r.row).isNone)).map (fun r => r.row)) z

/-- An owner's answer to a member that another device hosts: one PARTIAL for each chunk of the result that it has a term for. -/
def answerPool (p : Part) (i : Nat) (x : Run) : Run :=
  match x.2.listed [23, i] with
  | [n] :: _ =>
    if x.2.marked [24, i] then x
    else
      match streamAt x.2 1 i (ceilDiv (n * ixBytes x.2) 4096) with
      | none => x
      | some bs =>
        let o := x.2
        let rs := readIx o n bs
        readRows p (rs.map (fun r => r.row)) x fun x =>
          let withRows := rs.map (fun r => (r, rowVals o (ownRow x.1 o r.row)))
          dropCounts 2 i (dropStream 1 i (((List.range (poolChunks o)).filter (fun k => rs.any (fun r => chunkBags o k r.bag))).foldl (fun (x : Run) k =>
            let accs := poolAccs o k withRows
            let r : List Byte × Tally :=
              if dscPart o.desc = 1 then
                let cs := accs.map (sealAcc (fmtOf 1) (cvRm (dscCvt o.desc)) (cvSat (dscCvt o.desc)))
                (toBytes (4 * cs.length) (packCodes 32 (cs.map Prod.fst)), joinAll (cs.map Prod.snd))
              else (accs.flatMap expRecord, Tally.zero)
            let c := { mkChunk o 1 k 1 (o.lowest x.1.code) i r.1 with flags := r.2.flags % 4096 }
            sendHeld p c [o.devOf i] [] (addTally x.1 r.2, { x.2 with quantum := x.2.quantum + 1, idle := false })) (x.1, o.mark [24, i])))
  | _ => x

/-- A PARTIAL of an owner for a chunk of an own member. -/
def poolPartial (o : Op) (dev i k : Nat) : Option Chunk :=
  (o.inputs.find? (fun h => h.c.kind = 1 && h.c.chunk = k && h.c.dst = i && o.devOf h.c.src = dev)).map (fun h => h.c)

/-- The accumulators of a partial; none when it is malformed. `ns` are the terms its owner added to each element, which the
requester knows (R204): a bag of which the owner holds no row comes back empty, and merging it changes nothing (R63). -/
def partialAccs (o : Op) (ns : List Nat) (c : Chunk) : Option (List Acc) :=
  let n := ns.length
  let tree := dscPart o.desc = 1
  let all :=
    if tree then
      if c.payload.length != 4 * n then none
      else some (addEach (List.replicate n (Acc.empty o.cls)) (decodeScalars (fmtOf 1) n c.payload)).1
    else readExps o.cls 1 n c.payload
  all.map (fun as_ => (as_.zip ns).map (fun y =>
    if y.2 = 0 then Acc.empty o.cls else if tree then y.1 else { y.1 with count := y.2 }))

/-- Records of a list that each element of chunk `k` takes a term from. -/
def poolTerms (o : Op) (k : Nat) (rs : List PoolIx) : List Nat :=
  (List.range (poolElems o k)).map (fun e => (rs.filter (fun r => r.bag = (k * o.epc + e) / poolD o)).length)

/-- The values of one chunk of an own member's result (R204): a bag's exact sum, divided for MEAN; an empty bag is +0. -/
def poolVals (o : Op) (k : Nat) (accs : List Acc) (rs : List PoolIx) : List Num :=
  accs.zipIdx.map (fun a =>
    let n := (rs.filter (fun r => r.bag = (k * o.epc + a.2) / poolD o)).length
    if n = 0 then Num.zero
    else
      let v := accNum (cvRm (dscCvt o.desc)) a.1
      if poolMode o = 1 then v.divBy n else v)

/-- What one chunk of an own member's result comes to, once everything it waits for is here: its values and the flags that
partials carried; `error` when a partial is malformed. -/
def poolChunk (d : Dev) (o : Op) (i k : Nat) (rs : List PoolIx) : Option (Except Unit (List Num × Nat)) :=
  let mine := rs.filter (fun r => chunkBags o k r.bag)
  let owners := (mine.filterMap (fun r => poolOwner d o r.row)).eraseDups.filter (· != d.code)
  let rowOf := fun (r : PoolIx) => match poolOwner d o r.row with
    | some dev => if dev = d.code then some (some (rowVals o (ownRow d o r.row))) else some none
    | none => (canopyRow o r.row).map (fun bs => some (rowVals o bs))
  match mine.mapM (fun r => (rowOf r).map (fun v => (r, v))), owners.mapM (fun dev => poolPartial o dev i k) with
  | some rows, some parts =>
    let here := rows.filterMap (fun r => r.2.map (fun v => (r.1, v)))
    let join := parts.foldl (fun (a : Option (List Acc)) c =>
      match a, partialAccs o (poolTerms o k (mine.filter (fun r => poolOwner d o r.row = some (o.devOf c.src)))) c with
      | some as_, some bs => (mergeEach as_ bs).map Prod.fst
      | _, _ => none) (some (poolAccs o k here))
    some (match join with
      | some accs => .ok (poolVals o k accs mine, parts.foldl (fun f c => f ||| c.flags) 0)
      | none => .error ())
  | _, _ => none

/-- Chunks of an own member's result sealed as what they wait for comes. -/
def sealPool (p : Part) (i : Nat) (x : Run) : Run :=
  match ownIx x.2 i with
  | none => x
  | some all =>
    let rs := liveIx x.2 all
    readRows p ((rs.filter (fun r => poolOwner x.1 x.2 r.row = some x.1.code)).map (fun r => r.row)) x fun x =>
      let y := (List.range (poolChunks x.2)).foldl (fun (x : Run) k =>
        if x.2.phase = 4 || x.2.got.contains [k, i] then x
        else
          match poolChunk x.1 x.2 i k rs with
          | none => x
          | some (.error _) => badPayload p (dscPart x.2.desc = 0) x
          | some (.ok r) => sealOwn p i k 0 r.2 r.1 x) x
      if y.2.phase != 4 && (List.range (poolChunks y.2)).all (fun k => y.2.got.contains [k, i]) then
        dropCounts 0 i (releaseInputs (fun h => h.c.kind = 1 && h.c.dst = i) (dropStream 0 i (y.1, y.2.mark [22, i])))
      else y

/-- ROWACC's work for a member: its requester's when this device hosts it, an owner's otherwise. -/
def rowaccWork (p : Part) (i : Nat) (x : Run) : Run :=
  let o := x.2
  if o.opc != 0x12 || o.phase = 4 || o.paused || o.m ≤ i then x
  else if (o.here x.1).contains i then
    let y := if o.marked [21, i] then x else askPool p i x
    if y.2.phase = 4 || !y.2.marked [21, i] || y.2.marked [22, i] || y.2.slots.isEmpty then y else sealPool p i y
  else if o.slots.isEmpty then x
  else answerPool p i x

/-! ### KV page gathers (R205) -/

/-- Pieces of 4,096 bytes in a page. -/
def pagePieces (o : Op) : Nat := max 1 (poolBytes o / 4096)

/-- A page delivered, at a position: to the member's endpoint here, or on its way to its device. -/
def sendPage (p : Part) (i pos : Nat) (bs : List Byte) (x : Run) : Run :=
  let local_ := x.2.devOf i = x.1.code
  let y := ((chunksOf 4096 bs.length bs).zipIdx).foldl (fun (x : Run) b =>
    let c := { mkChunk x.2 2 (pos * pagePieces x.2 + b.2) 3 (x.2.lowest x.1.code) i b.1 with doff := pos * poolBytes x.2 + 4096 * b.2 }
    if local_ then sendHeld p c [] [i] x else sendHeld p c [x.2.devOf i] [] x) x
  if local_ then (y.1, y.2.mark [28, i, pos]) else y

/-- A RESULT of a page at its requester's device. -/
def takePage (p : Part) (c : Chunk) (x : Run) : Run :=
  let n := pagePieces x.2
  let pos := c.chunk / n
  let y := noteGot [c.chunk, c.dst] (sendHeld p { c with via := .own } [] [c.dst] x)
  if (List.range n).all (fun k => y.2.got.contains [pos * n + k, c.dst]) then (y.1, y.2.mark [28, c.dst, pos]) else y

/-- An own member's list: checked, its pages asked of their owners, its own device's pages delivered. -/
def askPages (p : Part) (i : Nat) (x : Run) : Run :=
  match streamAt x.2 0 i (ceilDiv (4 * x.2.count) 4096) with
  | none => x
  | some bs =>
    let o := x.2
    let pages := (unpackCodes 32 o.count (ofBytes bs)).zipIdx
    let live := pages.filter (fun y => y.1 != 0xFFFFFFFF)
    let at_ := fun (dev : Option Nat) => live.filter (fun y => poolOwner x.1 o y.1 = dev)
    if bs.length != 4 * o.count || live.any (fun y => decide (poolRows o ≤ y.1)) then reportAbort p stBadField x
    else
      readRows p ((at_ (some x.1.code)).map Prod.fst) x fun x =>
        let o1 := (pages.filter (fun y => y.1 = 0xFFFFFFFF)).foldl (fun (o : Op) y => o.mark [28, i, y.2]) (o.mark [26, i])
        let y := (o.devs.filter (· != x.1.code)).foldl (fun (x : Run) dev =>
          sendStream p i dev ((at_ (some dev)).flatMap (fun y => toBytes 8 (pack [(0, 32, y.2), (32, 32, y.1)]))) x) (x.1, o1)
        let z := (at_ (some x.1.code)).foldl (fun (x : Run) y => sendPage p i y.2 (ownRow x.1 x.2 y.1) x) y
        let far := at_ none
        dropStream 0 i (askRows p (far.map Prod.fst)
          (z.1, far.foldl (fun (o : Op) y => o.mark [27, i, y.2, y.1]) z.2))

/-- Pages read over the Canopy that are whole. -/
def canopyPages (p : Part) (i : Nat) (x : Run) : Run :=
  (x.2.listed [27, i]).foldl (fun (x : Run) l =>
    match canopyRow x.2 (l.getD 1 0) with
    | some bs => sendPage p i (l.getD 0 0) bs (x.1, { x.2 with lists := x.2.lists.filter (· != [27, i] ++ l) })
    | none => x) x

/-- Pages that other members' devices ask of this one. -/
def answerPages (p : Part) (i : Nat) (x : Run) : Run :=
  let asks := x.2.inputs.filter (fun h => h.c.kind = 0 && h.c.stage = 1 && h.c.src = i)
  asks.foldl (fun (x : Run) h =>
    if x.2.phase = 4 then x
    else
      let rs := (chunksOf 8 h.c.payload.length h.c.payload).map ofBytes
      readRows p (rs.map (fun v => bits v 32 32)) x fun x =>
        moved h (rs.foldl (fun (x : Run) v => sendPage p i (bits v 0 32) (ownRow x.1 x.2 (bits v 32 32)) x) x)) x

/-- PAGE's work for a member. -/
def pageWork (p : Part) (i : Nat) (x : Run) : Run :=
  let o := x.2
  if o.opc != 0x13 || o.phase = 4 || o.paused || o.m ≤ i then x
  else if (o.here x.1).contains i then
    let y := if o.marked [26, i] then x else askPages p i x
    if y.2.phase = 4 then y else canopyPages p i y
  else answerPages p i x

/-! ### Filters (R210, R211) -/

def filtKt (o : Op) : Nat := bits o.opx 50 4
def filtTag (o : Op) : Bool := o.opx.testBit 59

/-- Elements of a chunk, and chunks of a member. -/
def filtEpc (o : Op) : Nat := 4096 / max 1 (keyBytes (filtKt o))
def filtChunks (o : Op) : Nat := ceilDiv o.count (filtEpc o)

/-- The predicate on one key (R84, R206, R209). -/
def filtHolds (d : Dev) (o : Op) (v : Nat) : Bool :=
  let r := o.recs.headD 0
  let pred := bits o.opx 60 4
  let inside := if pred < 2 then inKeyRange (filtKt o) (bits r 0 64) (bits r 64 64) v else probeSet (memTable d.mem.mem r) r (filtKt o) v
  if pred % 2 = 1 then !inside else inside

/-- The ranges of a hash set that the predicate reads for some keys (R209). -/
def filtReads (d : Dev) (o : Op) (keys : List Nat) : List (Nat × Nat) :=
  let r := o.recs.headD 0
  if bits o.opx 60 4 < 2 then []
  else ((keys.flatMap (setReads (memTable d.mem.mem r) r (filtKt o))).eraseDups).map (fun x => (setOffset r + x.1, x.2))

/-- Members that receive the output, and the devices that a source device's chunks go to first. -/
def filtDests (o : Op) : List Nat := if o.opx.testBit 58 then List.range o.m else [o.memberOf (dscRoot o.desc)]
def filtPeers (d : Dev) (o : Op) : List Nat :=
  if o.opx.testBit 58 then o.spreadFrom d.code else ((filtDests o).map o.devOf).filter (· != d.code)

/-- Survivors of a source's chunk, when known. -/
def survivors (o : Op) (i k : Nat) : Option Nat := match o.listed [29, i, k] with | [n] :: _ => some n | _ => none

/-- Everything from every source is in: the counts, or the bitmap, to each member hosted here that receives (R211). -/
def finishFilter (p : Part) (x : Run) : Run :=
  let o := x.2
  let ks := List.range (filtChunks o)
  let dests := (filtDests o).filter (fun i => (o.here x.1).contains i)
  let have_ := fun (i : Nat) => ks.all (fun k => if filtTag o then !(o.listed [30, i, k]).isEmpty && (survivors o i k).isSome
                                                 else (survivors o i k).isSome)
  if o.marked [31] || o.phase = 4 || dests.isEmpty || !(List.range o.m).all have_ then x
  else
    let y : Run := (x.1, o.mark [31])
    if filtTag o then
      let bitmap := (List.range o.m).foldl (fun v i => ks.foldl (fun v k =>
        v + (match o.listed [30, i, k] with | [b] :: _ => b | _ => 0) * 2 ^ (i * o.count + k * filtEpc o)) v) 0
      let n := ceilDiv (o.m * o.count) 8
      let base := roundUp (o.m * o.count * keyBytes (filtKt o)) 4096
      ((chunksOf 4096 n (toBytes n bitmap)).zipIdx).foldl (fun (x : Run) b =>
        sendHeld p { mkChunk x.2 2 (2 ^ 31 + b.2) 3 (x.2.lowest x.1.code) 0 b.1 with doff := base + 4096 * b.2 } [] dests x) y
    else
      let per := (List.range o.m).map (fun i => (ks.map (fun k => (survivors o i k).getD 0)).sum)
      dests.foldl (fun (x : Run) j => sendCountsOut p j ((per ++ [per.sum]).flatMap (toBytes 4)) x) y

/-- A filter's RESULT at a device: kept, delivered to the members here that receive, passed along this row when it came down a
column. Indices from the number of a member's chunks on carry bits of the bitmap, which goes to endpoints whole. -/
def takeFilter (p : Part) (c : Chunk) (x : Run) : Run :=
  let o := x.2
  let down := if o.opx.testBit 58 then o.passOn x.1 c.row c.col else []
  let dests := (filtDests o).filter (fun i => (o.here x.1).contains i)
  let own := { c with via := .own }
  let n := filtChunks o
  if n ≤ c.chunk then
    finishFilter p (sendHeld p own down [] (x.1, o.mark [30, c.src, c.chunk - n, ofBytes c.payload]))
  else
    let kept := o.mark [29, c.src, c.chunk, c.payload.length / max 1 (keyBytes (filtKt o))]
    let y := sendHeld p own down (if c.payload.isEmpty then [] else dests) (x.1, kept)
    finishFilter p y

/-- PRED's work: one chunk of an own member, in order (R211); without elements only the counts or the bitmap are left. -/
def predWork (p : Part) (i k : Nat) (x : Run) : Run :=
  let o := x.2
  let kb := keyBytes (filtKt o)
  if o.opc = 0x14 && filtChunks o = 0 && o.phase != 4 && !o.paused && (o.here x.1).contains i then finishFilter p x
  else if o.opc != 0x14 || o.phase = 4 || o.paused || !(o.here x.1).contains i || filtChunks o ≤ k || (survivors o i k).isSome
      || !(List.range k).all (fun j => (survivors o i j).isSome) then x
  else
    match o.inputs.find? (fun h => h.c.kind = 0 && h.c.stage = 0 && h.c.src = i && h.c.chunk = k) with
    | none => x
    | some h =>
      let n := min (filtEpc o) (o.count - k * filtEpc o)
      if h.c.payload.length != n * kb then reportAbort p stBadField x
      else
        let codes := unpackCodes (8 * kb) n (ofBytes h.c.payload)
        readArea p (filtReads x.1 o codes) x fun x =>
        let tests := codes.map (filtHolds x.1 o)
        let kept := (codes.zip tests).filter (fun y => y.2)
        let before_ := ((List.range k).map (fun j => (survivors o i j).getD 0)).sum
        let here := (filtDests o).filter (fun j => (o.here x.1).contains j)
        if filtTag o then
          let mask := tests.zipIdx.foldl (fun v y => if y.1 then v + 2 ^ y.2 else v) 0
          let c := { mkChunk o 2 k 3 i 0 h.c.payload with doff := (i * o.count + k * filtEpc o) * kb }
          let b := mkChunk o 2 (filtChunks o + k) 3 i 0 (toBytes (ceilDiv n 8) mask)
          let y := moved h (sendHeld p c (filtPeers x.1 o) here (x.1, (o.mark [29, i, k, n]).mark [30, i, k, mask]))
          finishFilter p (sendHeld p b (filtPeers x.1 o) [] y)
        else
          let bs := toBytes (kept.length * kb) (packCodes (8 * kb) (kept.map Prod.fst))
          let c := { mkChunk o 2 k 3 i 0 bs with doff := (i * o.count + before_) * kb }
          let d1 := x.1.inc 0x5020 4 0 (n - kept.length)
          finishFilter p (moved h (sendHeld p c (filtPeers x.1 o) (if bs.isEmpty then [] else here) (d1, o.mark [29, i, k, kept.length])))

end Sys2Proof.Machine
end

