-- ==== Sys2Proof/Machine/CollFlow.lean ====
section
/-! DEFINITION. The commands of a collective: chunks and control that arrive, timers, the opcodes that DEVICE-role groves run, route
tables and hash sets (spec/06_collectives.md R160-R181, spec/07_dispatch_sort_gather.md R188-R213). -/

namespace Sys2Proof.Machine

/-! ### Arriving chunks (R160, R166-R169, R173) -/

/-- A chunk of an operation that is not admitted here, or of a reserved kind (R160, R165). -/
def discardEarly (d : Dev) : Dev := d.inc 0x5010 4 0

/-- The link that a chunk came on. -/
def chunkArr (c : Chunk) : Option Nat := match c.via with | .endpoint n => some n | .fabric n => some n | .own => none

/-- Its number; 0xFFFF for none. -/
def chunkLink (c : Chunk) : Nat := (chunkArr c).getD 0xFFFF

/-- What an arriving chunk does to its operation once it is good and held: nothing while a checkpoint, a restore or a
substitution holds the operation (R229, R234, R457). -/
def useGood (p : Part) (h : HeldIn) (x : Run) : Run :=
  let c := h.c
  let o := x.2
  let first := c.stage = 0
  let n := ofBytes (c.payload.take 4)
  let codes := unpackCodes 32 (c.payload.length / 4) (ofBytes c.payload)
  let drop := fun (y : Run) => moved h y
  let keep := fun (y : Run) => keepInput h y
  match o.opc, c.kind with
  | 1, 0 => combineOne p h x
  | 1, 1 => combineOne p h x
  | 1, 2 => drop (spreadResult p c x)
  | 2, 0 => combineOne p h x
  | 2, 1 => combineOne p h x
  | 2, 2 => drop (spreadResult p c x)
  | 3, 0 => combineOne p h x
  | 3, 1 => combineOne p h x
  | 3, 2 => drop (spreadResult p c x)
  | 4, 0 => moveOne p h x
  | 4, 2 => drop (spreadResult p c x)
  | 5, 0 => moveOne p h x
  | 5, 2 => drop (spreadResult p c x)
  | 6, 0 => moveOne p h x
  | 7, 0 => moveOne p h x
  | 7, 3 => keep (countsIn p c x)
  | 8, 0 => drop (noteGot [0, c.src] x)
  | 0x10, 0 => if first then x else drop (deliverRow p c.src c.dst c.chunk c.payload x)
  | 0x10, 3 =>
    if first then
      (if c.payload.length != 4 || opxTmax o.opx < n then reportAbort p stBadField x else keep (x.1, o.mark [10, c.src, n]))
    else if c.stage = 2 then keep (x.1, takeChoiceCounts x.1.code c.src codes o)
    else keep (x.1, takeKept (o.devOf c.src) c.dst codes o)
  | 0x11, 0 => if first then passRows p c.src x else x
  | 0x12, 0 => x
  | 0x12, 1 => x
  | 0x12, 3 =>
    if c.payload.length != 4 then reportAbort p stBadField x
    else keep (x.1, o.mark [if first then 10 else 23, c.src, n])
  | 0x13, 0 => x
  | 0x13, 2 => drop (takePage p c x)
  | 0x14, 0 => x
  | 0x14, 2 => drop (takeFilter p c x)
  | _, _ => drop x

/-- A held chunk used; one of which a reference fails its check is discarded (R239). -/
def useChunk (p : Part) (h : HeldIn) (x : Run) : Run :=
  if x.2.paused || h.used then x
  else match badRef x.1 h.cells with
    | some k => dropInput h k x
    | none => useGood p h x

/-- The inputs that still wait taken up again. -/
def catchUp (p : Part) (x : Run) : Run := x.2.inputs.foldl (fun x h => useChunk p h x) x

/-- The stage and sender that a chunk may have: an endpoint's own member's input, or another device's. The spec gives no effect
to one that names another; the model takes it as malformed and ends the operation with BAD_FIELD (DESIGN CHOICE, log entry 127). -/
def senderOk (d : Dev) (o : Op) (c : Chunk) : Bool :=
  match c.via with
  | .endpoint _ => c.stage = 0 && (o.here d).contains c.src
  | _ => c.stage != 0

/-- The chunk is addressed to a fenced member (R173). -/
def toFenced (o : Op) (c : Chunk) : Bool :=
  (o.opc = 6 || o.opc = 7 || ((o.opc = 0x10 || o.opc = 0x13) && c.stage != 0))
    && c.kind != 3 && o.fencedAt c.dst

/-- A chunk that failed its check or lost a frame (R168). -/
def failChunk (p : Part) (c : Chunk) (x : Run) : Run :=
  let d := x.1.inc 0x5010 0 0
  let o := x.2
  if o.seen.contains (keyOf c) then (d, o)
  else
    let n := (match o.fails.find? (fun f => f.1 = keyOf c) with | some f => f.2 | none => 0) + 1
    let o1 := { o with fails := (keyOf c, n) :: o.fails.filter (fun f => f.1 != keyOf c) }
    if 4 ≤ n then reportAbort p stCheckFail (d, o1)
    else
      let d1 := sendCtl p d o1 6 0 c.stage c.src c.dst (toBytes 4 c.chunk) [peerOf c]
      (fcmBreak (d1.inc 0x5010 1 0) 2 1 (chunkLink c), o1)

/-- A chunk of which a cell returns an uncorrectable error: the cell is marked, and retired as the chunk's holder lets it go (R241). -/
def spoilCell (p : Part) (c : Chunk) (k : Nat) (x : Run) : Run :=
  match holdChunk p x.1 x.2 c with
  | none => x
  | some (cells, d) =>
    (releaseCells (match cells[k]? with | some b => failCell d b | none => d) (opHolder p d x.2) cells, x.2)

/-- A chunk as a device holds it: one off the fabric keeps its epoch bit, any other has the epoch that the device stamps (R331). -/
def chunkKept (d : Dev) (c : Chunk) : Chunk :=
  match c.via with | .fabric _ => { c with epoch := c.epoch % 2 } | _ => { c with epoch := d.sw.stamping }

/-- A chunk of kinds 0 to 3 of an admitted operation. -/
def acceptChunk (p : Part) (c0 : Chunk) (x0 : Run) : Run :=
  let c := chunkKept x0.1 c0
  let x := match c.badCell with | some k => spoilCell p c k x0 | none => x0
  let good := !c.lost && c.badCell.isNone && crc32c c.payload = c.crc
  if !good then failChunk p c x
  else if x.2.seen.contains (keyOf c) then addAck p c (x.1.inc 0x5010 2 0, x.2)
  else
    match holdChunk p x.1 x.2 c with
    | none => failChunk p { c with lost := true } (headroomDrop x.1 (chunkArr c) (dscVc x.2.desc), x.2)
    | some (cells, d) =>
      let h : HeldIn := ⟨c, cells, opHolder p d x.2, false⟩
      let o := { x.2 with seen := x.2.seen ++ [keyOf c], fails := x.2.fails.filter (fun f => f.1 != keyOf c), inputs := x.2.inputs ++ [h] }
      useChunk p h (addAck p c (d, o))

/-- An arriving chunk of kinds 0 to 4, or of a reserved kind. -/
def arriveChunk (p : Part) (d : Dev) (c : Chunk) : Dev :=
  if 11 ≤ c.kind then discardEarly d
  else
    match findOp d c.job c.coll with
    | none => discardEarly d
    | some o =>
      if o.phase = 0 then discardEarly d
      else if toFenced o c then d.inc 0x5010 3 0
      else if o.phase = 4 || c.kind = 4 then d
      else if !senderOk d o c then onOp p d c.job c.coll (reportAbort p stBadField)
      else onOp p d c.job c.coll (acceptChunk p c)

/-- A chunk command: its link is there, it is of the row's kind, and its sender is not fenced (R347). Control on VC0 is served by the
management processor (R165, R242). -/
def chunkCommand (kinds : Nat → Bool) (c : Chunk) (s : State) (f : Part → Dev → Dev) : Res :=
  liftAt s ((chunkArr c).all s.part.hasLink) fun p d =>
    if !d.runs domXbar || !d.works 7 || !kinds c.kind then d
    else if (match c.via with | .fabric _ => d.isFenced c.row c.col | _ => false) then d.inc 0x5010 3 0
    else if 5 ≤ c.kind && c.kind ≤ 10 then serveAt 161 d (chunkArr c) 0 (64 + c.payload.length) (f p)
    else f p d

/-- DATA (R160, R166). A chunk of a reserved kind is taken up here too: no row of the table is its own (R165). -/
def execDataChunk (c : Chunk) (s : State) : Res := chunkCommand (fun k => k = 0 || 11 ≤ k) c s fun p d => arriveChunk p d c
/-- PARTIAL (R161). -/
def execPartialChunk (c : Chunk) (s : State) : Res := chunkCommand (· = 1) c s fun p d => arriveChunk p d c
/-- RESULT (R159). -/
def execResultChunk (c : Chunk) (s : State) : Res := chunkCommand (· = 2) c s fun p d => arriveChunk p d c
/-- COUNTS (R171). -/
def execCounts (c : Chunk) (s : State) : Res := chunkCommand (· = 3) c s fun p d => arriveChunk p d c

/-- COUNTS_OUT (R172): the counts of a receiver, whose member index DST gives, leave for its endpoint. One that arrives from
outside is for no device. -/
def execCountsOut (c : Chunk) (s : State) : Res :=
  chunkCommand (· = 4) c s fun p d =>
    match c.via with
    | .own => onOp p d c.job c.coll (countsOutWork p c.dst)
    | _ => arriveChunk p d c

/-! ### Control that arrives (R160, R168, R169, R174, R176, R177) -/

/-- Control of an admitted operation; any other is discarded and counted (R160). -/
def onAdmitted (p : Part) (d : Dev) (c : Chunk) (f : Run → Run) : Dev :=
  match findOp d c.job c.coll with
  | none => discardEarly d
  | some o => if o.phase = 0 then discardEarly d else onOp p d c.job c.coll f

/-- ADMIT (R160). One for an operation that this device has not admitted is discarded like any other chunk (log entry 67). -/
def execAdmit (c : Chunk) (s : State) : Res :=
  chunkCommand (· = 5) c s fun p d =>
    if c.chunk != 0 then d else onAdmitted p d c (takeAdmit p c.src (ofBytes (c.payload.take 4)))

/-- GO (R160). -/
def execGo (c : Chunk) (s : State) : Res :=
  chunkCommand (· = 5) c s fun p d =>
    if c.chunk != 1 then d
    else onAdmitted p d c (fun x =>
      if x.2.phase != 1 then x else passGo p (x.2.passOn x.1 c.row c.col) x)

/-- Two names of one peer: a port set and a link of it, a device and the same reached down the column, or the same. -/
def samePeer (p : Part) (d : Dev) (a b : Nat) : Bool :=
  a = b || (decide (2 ^ 21 ≤ a) && a = b + 2 ^ 20) || (decide (a < 256) && decide (2 ^ 16 ≤ b) && decide (b < 2 ^ 20) && (portLinks p d a).contains (b - 2 ^ 16))

/-- The held output that an index names to a peer. -/
def outFor (p : Part) (d : Dev) (o : Op) (c : Chunk) (k : Nat) : Option (HeldOut × Nat) :=
  (o.outs.find? (fun h => h.c.chunk = k && h.c.stage = c.stage && h.c.src = c.src && h.c.dst = c.dst
    && h.waiting.any (fun w => samePeer p d w (peerOf c)))).bind (fun h =>
      (h.waiting.find? (fun w => samePeer p d w (peerOf c))).map (fun w => (h, w)))

/-- Indices of a RESEND or ACK payload. -/
def indicesOf (c : Chunk) : List Nat := unpackCodes 32 (c.payload.length / 4) (ofBytes c.payload)

/-- RESEND (R168): chunks still held are sent again to the peer that asks. -/
def execResend (c : Chunk) (s : State) : Res :=
  chunkCommand (· = 6) c s fun p d =>
    onAdmitted p d c (fun x => (indicesOf c).foldl (fun (x : Run) k =>
      match outFor p x.1 x.2 c k with
      | none => (x.1.inc 0x5010 2 0, x.2)
      | some (h, w) =>
        match badRef x.1 h.cells with
        | some b => dropOut h b x
        | none => (fcmBreak (sendChunk p x.1 x.2 h.c [w] none).1 2 1 (chunkLink c), x.2)) x)

/-- ACK (R169): held outputs that every peer has acknowledged are released. -/
def execAck (c : Chunk) (s : State) : Res :=
  chunkCommand (· = 7) c s fun p d =>
    onAdmitted p d c (fun x => releaseOuts (fun h => h.waiting.isEmpty) ((indicesOf c).foldl (fun (x : Run) k =>
      match outFor p x.1 x.2 c k with
      | none => x
      | some (h, w) =>
        let next := fun (y : HeldOut) => if y = h then { y with waiting := y.waiting.filter (· != w) } else y
        (x.1, { x.2 with outs := x.2.outs.map next })) x))

/-- ACK_BUNDLE_TIMER (R169). -/
def execAckBundleTimer (job coll peer stage src dst : Nat) (s : State) : Res :=
  lift s fun p d => if !d.runs domXbar then d else onOp p d job coll (flushAck p peer stage src dst)

/-- DONE_UP (R176). -/
def execDoneUp (c : Chunk) (s : State) : Res :=
  chunkCommand (· = 8) c s fun p d =>
    onAdmitted p d c (fun x =>
      if x.2.phase = 4 then x else takeDoneUp p c.src (ofBytes (c.payload.take 4)) (readAmax (c.payload.drop 4)) x)

/-- A completion record that reached this device (R177): passed along the row when it is OK and came down a column. -/
def takeDone (p : Part) (d : Dev) (o : Op) (c : Chunk) : Dev :=
  let rec_ := ofBytes (c.payload.take 32)
  let st := bits rec_ 88 8
  let extra := c.payload.drop 32
  let down := if st = stOK then o.passOn d c.row c.col else []
  let d1 := sendCtl p d o 9 0 0 (o.lowest d.code) 0 c.payload (down.map peerDev)
  let amax := if st = stOK && o.scale.isSome then readAmax extra else (0, 1)
  let d2 := finalize p d1 o rec_ (if st = stFenced then extra.take (ceilDiv o.m 8) else []) amax
  settleColl p (d2.colls.ops.length + 1) d2

/-- DONE (R174, R176, R177). One for an operation that this device has not admitted is discarded (R160); an endpoint sends none. -/
def execDoneChunk (c : Chunk) (s : State) : Res :=
  chunkCommand (· = 9) c s fun p d =>
    match findOp d c.job c.coll with
    | none => discardEarly d
    | some o =>
      match c.via with
      | .endpoint _ => discardEarly d
      | _ => if o.phase = 0 then discardEarly d else takeDone p d o c

/-- ABORT (R174): one for an operation that has ended OK is late; one for an operation that this device has not admitted is
discarded (R160). -/
def execAbort (c : Chunk) (s : State) : Res :=
  chunkCommand (· = 10) c s fun p d =>
    if (findOp d c.job c.coll).isNone && d.colls.ended.contains (c.job, c.coll) then d.inc 0x5010 5 0
    else onAdmitted p d c (takeAbort p c)

/-- COLL_PROGRESS_TIMEOUT (R179): an admitted operation has made no progress for COLL_PROGRESS_LIMIT. One that already aborts
waits for reports or for DONE, and the limit ends that wait too: the control root ends the operation with the reports it holds,
and another device its entry with what it knows (DESIGN CHOICE, log entry 128). -/
def execCollProgressTimeout (job coll : Nat) (s : State) : Res :=
  lift s fun p d =>
    if !d.runs domXbar then d
    else
      match findOp d job coll with
      | none => d
      | some o =>
        if o.phase = 0 then d
        else if o.phase != 4 then commitRun p (reportAbort p stWaitCycle (d, o))
        else
          let o1 := joinAbort o stWaitCycle o.fencedMask
          let d1 := if ctlRoot d o1 = d.code then finishAt p d o1
            else finalize p d o1 (mkRecord o1 d.pace.visible o1.flags o1.status o1.mask) (if o1.status = stFenced then maskBytes o1 o1.mask else []) (0, 1)
          settleColl p (d1.colls.ops.length + 1) d1

/-! ### DEVICE-role opcodes (R181, R212) -/

/-- A trace record of the firmware's command that works on an operation: TAG is COLL[15:0], and the engine and context are the
firmware's choice (R181, log entry 107). -/
def workTrace (p : Part) (d : Dev) (g coll event data : Nat) : Dev :=
  let w := Config.firmwareSlot g (coll % 65536)
  tracePut p d g (coll % 65536) (w % 16) (w / 16 % 4096) event data

/-- Fault codes of R143 for the status that a grove's own work ends an operation with. -/
def workFault (st : Nat) : Nat := if st = stCheckFail then 0x03 else if st = stFenced then 0x0B else 0x01

/-- The records of a command that did something: a trace record at its open and at its completion, or at the fault that ended
the operation, which the completion ring takes as well (R133, R134, R181). The firmware's bodies are not given: its commands
count one completed step and none at a fault, and TRACE_EN is taken as set in them (DESIGN CHOICE, log entry 107). A command's one
step counts as issued (R470). -/
def workRecords (p : Part) (g : Nat) (x y : Run) : Dev :=
  let d := workTrace p y.1 g x.2.coll 0 0
  if y.2.phase = 4 && x.2.phase != 4 then
    let w := Config.firmwareSlot g (x.2.coll % 65536)
    let r := record132 d 0 0 (x.2.coll % 65536) (w / 16 % 4096) (w % 16) (workFault y.2.status) y.2.status 0 1
    workTrace p (ringPut d g r) g x.2.coll 3 0
  else workTrace p (d.addUtil g 0 1) g x.2.coll 1 1

/-- A DEVICE-role grove works on an operation: the one whose slots it holds, or any grove on one without slots. -/
def groveWork (g job coll : Nat) (s : State) (f : Part → Run → Run) : Res :=
  liftAt s (decide (g < s.part.groves)) fun p d =>
    if !d.runs domArc || d.role g != 0 || (d.grove g).phase == .lost || (d.grove g).paused then d
    else onOp p d job coll (fun x =>
      if x.2.phase = 0 || (match x.2.grove with | some h => h != g | none => false) then x
      else let y := f p x; if y.2 = x.2 then y else (workRecords p g x y, y.2))

/-- The input of a chunk that an opcode names. -/
def inputOf (o : Op) (f : Chunk → Bool) : Option HeldIn := o.inputs.find? (fun h => f h.c)

/-- CIN: a held chunk whose check passed adds its terms into a frame (R149, R181). -/
def execCin (g job coll chunk src : Nat) (s : State) : Res :=
  groveWork g job coll s fun p x =>
    match x.2.inputs.find? (fun h => !h.used && h.c.kind ≤ 1 && h.c.chunk = chunk && h.c.src = src) with
    | some h => combineOne p h x
    | none => x
/-- POUT (R161). -/
def execPout (g job coll chunk : Nat) (s : State) : Res :=
  groveWork g job coll s fun p x => if x.2.phase = 4 || !reduces x.2.opc then x else poutWork p chunk x
/-- ROUT (R158, R159). -/
def execRout (g job coll chunk : Nat) (s : State) : Res :=
  groveWork g job coll s fun p x => if x.2.phase = 4 || !reduces x.2.opc then x else routWork p chunk x
/-- CMOVE (R172, R181). -/
def execCmove (g job coll chunk src dst : Nat) (s : State) : Res :=
  groveWork g job coll s fun p x =>
    match inputOf x.2 (fun c => c.kind = 0 && c.chunk = chunk && c.src = src && c.dst = dst) with
    | some h => moveOne p h x
    | none => x
/-- CNTS (R172): counts checked; data that waits for them moves. -/
def execCnts (g job coll : Nat) (s : State) : Res :=
  groveWork g job coll s fun p x => if x.2.opc = 7 then moveAll p (cntsWork p x) else x
/-- FSAVE (R261): frames that a yield saved come back into the slots that were claimed again, from where they were written (R356). -/
def execFsave (g job coll : Nat) (s : State) : Res :=
  groveWork g job coll s fun p x =>
    if x.2.spilled.isEmpty || x.2.slots.isEmpty || x.2.paused || x.2.phase = 4 then x
    else
      readArea p (if x.2.spill = some 255 then [(areaBase p x.1 2 + x.2.spillAt, spillBytes x.2.spilled)] else []) x fun x =>
        (x.1, { x.2 with frames := x.2.spilled, spilled := [], spill := none })
/-- TOPK (R191, R192). -/
def execTopk (g job coll member : Nat) (s : State) : Res := groveWork g job coll s fun p x => topkWork p member x
/-- KEEP (R193, R194). -/
def execKeep (g job coll : Nat) (s : State) : Res := groveWork g job coll s fun p x => keepWork p x
/-- ROUTE (R194, R195). -/
def execRoute (g job coll member : Nat) (s : State) : Res := groveWork g job coll s fun p x => routeWork p member x
/-- WCOMB (R198). -/
def execWcomb (g job coll member chunk : Nat) (s : State) : Res := groveWork g job coll s fun p x => wcombWork p member chunk x
/-- ROWACC (R203, R204). -/
def execRowacc (g job coll member : Nat) (s : State) : Res := groveWork g job coll s fun p x => rowaccWork p member x
/-- PAGE (R205). -/
def execPage (g job coll member : Nat) (s : State) : Res := groveWork g job coll s fun p x => pageWork p member x
/-- PRED (R211). -/
def execPred (g job coll member chunk : Nat) (s : State) : Res := groveWork g job coll s fun p x => predWork p member chunk x

/-! ### Route tables and hash sets (R196, R209) -/

/-- MOE_ROUTE_RELEASE (R196). -/
def execMoeRouteRelease (rq : Rq) (job coll : Nat) (s : State) : Res :=
  lift s fun _ d => serveWrite d rq 0x5030 1 (toBytes 4 job ++ toBytes 4 coll) (fun d =>
    let j := job % 2 ^ 32
    let c := coll % 2 ^ 32
    match findRoute d j c with
    | none => refuse d stBadField
    | some r => if r.inUse then refuse d stNotReady else accept (dropRoute d j c))

/-- A key that a set may not hold: bits beyond its width, a float -0 or NaN (R209). -/
def setKeyBad (kt v : Nat) : Bool :=
  decide (2 ^ (8 * keyBytes kt) ≤ v) || keyIsNan kt v || hashKey kt v != v

/-- The keys of the occupied slots. -/
def setKeys (m : Mem) (r : Nat) : List Nat := ((List.range (2 ^ setL r)).filter (slotOcc (memTable m r) r)).map (slotKey (memTable m r))

/-- A list holds a value twice. -/
def hasTwice : List Nat → Bool
  | [] => false
  | x :: xs => xs.contains x || hasTwice xs

/-- The rule of FILTER_SET_COMMIT (R209). -/
def filterSetRule (p : Part) (v : Nat) (d : Dev) : Dev × Nat :=
  let n := v % 128
  let r := d.rd 0x5110 0 n
  let kt := setKeyt r
  if 16 ≤ n then refuse d stBadField
  else if 128 ≤ v then
    if d.colls.ops.any (fun o => o.opc = 0x14 && decide (2 ≤ bits o.opx 60 4) && bits o.opx 54 4 = n) then refuse d stNotReady
    else accept (d.wr 0x5110 0 n (putBit r 32 false))
  else if setL r < 4 || 24 < setL r || setMaxProbe r = 0 || 11 < kt then refuse d stBadField
  else if memSize p d < setOffset r + setRegion r then refuse d stBadPointer
  else
    let y := checkRead p d (setOffset r) (setRegion r)
    let ks := setKeys y.1.mem.mem r
    if y.2 then (poisonEvent p y.1 (poisonSpot p y.1 (setOffset r) (setRegion r)) 3 0, stCheckFail)
    else if ks.any (setKeyBad kt) || hasTwice ks || ks.any (fun k => !probeSet (memTable y.1.mem.mem r) r kt k) then refuse y.1 stBadField
    else accept (y.1.wr 0x5110 0 n (putBit r 32 true))

/-- FILTER_SET_COMMIT: a write of n. -/
def execFilterSetCommit (rq : Rq) (n : Nat) (s : State) : Res :=
  lift s fun p d => serveWrite d rq 0x5110 1 (toBytes 1 (n % 128)) (filterSetRule p (n % 128))

/-- FILTER_SET_UNCOMMIT: a write of n + 0x80. -/
def execFilterSetUncommit (rq : Rq) (n : Nat) (s : State) : Res :=
  lift s fun p d => serveWrite d rq 0x5110 1 (toBytes 1 (n % 128 + 128)) (filterSetRule p (n % 128 + 128))

end Sys2Proof.Machine
end

