-- ==== Sys2Proof/Machine/Fabric.lean ====
section
/-! DEFINITION. Routing epochs, congestion samples, jobs and fences (spec/12_routing_and_canopy.md R318, R319, R327-R332,
R347-R349). -/

namespace Sys2Proof.Machine

/-! ### Congestion samples (R327) -/

/-- The sample of a link for a VC, in thirds of a cell so that the 4/3 of a DEGRADED link stays exact: the cells charged to the VC's
queue and the cells in the replay buffer. -/
def sampleOf (d : Dev) (n vc : Nat) : Nat :=
  let l := d.link n
  let cells := (d.eq n (queueOf d n (d.frame 0 vc 0 0 0 0 []))).charged + ((l.replay.flatMap (fun s => s.copy.cells)).eraseDups).length
  if l.st == .degraded then 4 * cells else 3 * cells

/-- One sample of each link of a bundle; a bundle without a usable link counts from zero again. -/
def sampleBundle (p : Part) (d : Dev) (rec : Nat) : Dev :=
  let ls := bundle p d d.sw.stamping rec
  let n := if ls.any (fun n => (d.link n).carries) then min 4096 (d.sw.adapt.get 0 rec + 1) else 0
  let cong := ls.foldl (fun c n => (List.range 8).foldl (fun c vc => c.set 0 (n * 8 + vc) (sampleOf d n vc)) c) d.sw.cong
  { d with sw := { d.sw with adapt := d.sw.adapt.set 0 rec n, cong := cong } }

/-- ADAPT_SAMPLE (R327). -/
def execAdaptSample (s : State) : Res :=
  lift s fun p d => if !d.runs domXbar then d else (List.range 66).foldl (sampleBundle p) d

/-! ### Routing epochs (R329-R332) -/

/-- EPOCH_CRC (R350): CRC-32C of a table's 66 records of 20 bytes. -/
def epochCrc (d : Dev) (epoch : Nat) : Nat := crc32c ((List.range 66).flatMap (fun k => toBytes 20 (d.rd 0x6010 epoch k)))

/-- The first 8 bytes of EPOCH_STATE. -/
def epochBytes (d : Dev) : Nat :=
  pack [(0, 8, d.sw.stamping), (8, 8, d.sw.stA), (16, 8, d.sw.stB), (24, 8, b2n d.sw.swapArmed), (32, 32, epochHeld d 0),
    (64, 32, epochHeld d 1)]

/-- A change of the epochs, written as LEVEL when bytes 0 to 3 change (R425). -/
def moveEpoch (d : Dev) (f : Switch → Switch) : Dev :=
  let d1 := { d with sw := f d.sw }
  if epochBytes d1 % 2 ^ 32 = epochBytes d % 2 ^ 32 then d1
  else emitLevel d1 3 0x6011 0 0xFFFFFFFF (epochBytes d1) (epochBytes d)

/-- The status of arming a swap (R330). -/
def swapStatus (d : Dev) (target : Nat) : Nat :=
  if 1 < target then stBadField
  else if epochState d target = 1 then stBadField
  else if epochState d target = 2 || d.sw.swapArmed then stNotReady
  else if (schedFree d).isNone then stTableFull
  else stOK

/-- A swap's schedule entry made (R330, R381). -/
def armSwap (d : Dev) (i target crc pace : Nat) : Dev :=
  moveEpoch (putSched d i (mkSched 1 pace 0 (target + crc * 2 ^ 32) false)) (fun w => { w with swapArmed := true })

/-- EPOCH_SWAP (R330). -/
def execEpochSwap (rq : Rq) (target crc pace : Nat) (s : State) : Res :=
  lift s fun _ d => serveWrite d rq 0x6011 1 (toBytes 4 (target % 256) ++ toBytes 4 crc ++ toBytes 8 pace) (fun d =>
    let st := swapStatus d (target % 256)
    match schedFree d with
    | some i => if st = stOK then accept (armSwap d i (target % 256) (crc % 2 ^ 32) (pace % 2 ^ 64)) else refuse d st
    | none => refuse d st)

/-- An armed swap at its boundary (R324, R327, R330, R331): taken when the table's CRC is the expected one. -/
def takeSwap (p : Part) (d : Dev) (target crc : Nat) : Dev × Nat :=
  if epochCrc d target != crc then (moveEpoch d (fun w => { w with swapArmed := false }), stCheckFail)
  else
    let d1 := moveEpoch d (fun w => { w with swapArmed := false, stamping := target, stA := if target = 0 then 1 else 2,
                                             stB := if target = 0 then 2 else 1 })
    (settleAdapt (bundleRecs p d1 target (List.range 66)), stOK)

/-- EPOCH_DRAINED (R332): EPOCH_GUARD has passed, and the device holds no frame of the epoch. -/
def execEpochDrained (e : Nat) (s : State) : Res :=
  liftAt s (decide (e < 2)) fun _ d =>
    if !d.runs domXbar || epochState d e != 2 || epochHeld d e != 0 then d
    else moveEpoch d (fun w => if e = 0 then { w with stA := 0 } else { w with stB := 0 })

/-! ### Jobs (R318, R319) -/

/-- A job record's value; a nonzero reserved field is written as its lowest bit. -/
def jobImage (r : JobRec) : Nat :=
  pack [(0, 32, r.job), (32, 8, r.acn), (40, 1, b2n r.valid), (41, 1, b2n r.adaptive), (64, 32, r.base), (96, 32, r.nranks),
    (128, 1, b2n r.reserved)]

def jobOf (v : Nat) : Nat := bits v 0 32
def jobValid (v : Nat) : Bool := v.testBit 40
def jobBase (v : Nat) : Nat := bits v 64 32
def jobRanks (v : Nat) : Nat := bits v 96 32

/-- The status of a record write with VALID = 1 (R318). -/
def jobStatus (p : Part) (d : Dev) (idx v : Nat) : Nat :=
  let old := d.rd 0x6002 0 idx
  let others := (d.jobRecs.filter (fun x => jobValid x.2 && x.1 != idx)).map Prod.snd
  if bits v 32 8 = 0 || !(p.acnSet).testBit (bits v 32 8) then stAcnUnsupported
  else if jobOf v = 0 || others.any (fun x => jobOf x = jobOf v) then stBadField
  else if jobValid old && jobOf old = jobOf v
      && (bits old 32 8 != bits v 32 8 || jobBase old != jobBase v || jobRanks old != jobRanks v) then stBadField
  else if jobValid old && jobOf old != jobOf v then stBadField
  else if jobRanks v = 0 || 262144 < jobBase v + jobRanks v
      || others.any (fun x => overlaps (jobBase v) (jobRanks v) (jobBase x) (jobRanks x)) then stBadField
  else if bits v 42 6 != 0 || bits v 48 16 != 0 || bits v 128 128 != 0 then stBadField
  else stOK

/-- What keeps a job from being deleted (R319). -/
def jobHeld (p : Part) (d : Dev) (job : Nat) : Bool :=
  d.colls.ops.any (fun o => o.job = job && o.admitted) || (List.range p.groves).any (fun g => d.role g = 1 && d.groveJob g = job)
    || d.colls.routes.any (fun r => r.job = job)

/-- The rule of a JOB_TABLE write. -/
def jobRule (p : Part) (idx v : Nat) (d : Dev) : Dev × Nat :=
  let old := d.rd 0x6002 0 idx
  if 4096 ≤ idx then refuse d stBadField
  else if jobValid v then
    let st := jobStatus p d idx v
    if st != stOK then refuse d st
    else
      let fresh := !jobValid old
      let d1 := if fresh then { d with modes := { d.modes with named := d.modes.named.filter (fun x => x.1 != jobOf v) } } else d
      accept (d1.wr 0x6002 0 idx v)
  else if jobValid old && jobHeld p d (jobOf old) then refuse d stNotReady
  else accept (d.wr 0x6002 0 idx (pack [(0, 42, bits v 0 42), (64, 64, bits v 64 64)]))

/-- A record written to JOB_TABLE. -/
def jobWrite (rq : Rq) (r : JobRec) (s : State) : Res :=
  lift s fun p d =>
    serve d rq ⟨2, 0x6002, 0, 32 * r.idx, true, 32, 0, toBytes 32 (jobImage r)⟩
      (fun _ d => let x := jobRule p r.idx (jobImage r) d; (x.1, some (Rsp.st x.2 (if x.2 = stOK then 0 else r.idx))))

/-- JOB_CREATE (R318): VALID = 1 to a record that holds no valid job, or a job's own. -/
def execJobCreate (rq : Rq) (r : JobRec) (s : State) : Res := jobWrite rq { r with valid := true } s
/-- JOB_DELETE (R319): VALID = 0. -/
def execJobDelete (rq : Rq) (r : JobRec) (s : State) : Res := jobWrite rq { r with valid := false } s
/-- JOB_ADAPTIVE_UPDATE (R318): a valid record's ADAPTIVE bit. -/
def execJobAdaptiveUpdate (rq : Rq) (r : JobRec) (s : State) : Res := jobWrite rq { r with valid := true } s

/-! ### Fences (R347-R349) -/

/-- The 24-byte record. -/
def fenceRec (c : FenceCmd) : Nat :=
  pack [(0, 32, c.fseq), (32, 8, c.op), (40, 8, c.kind), (48, 8, c.propagate), (64, 8, c.plane), (72, 8, c.row), (80, 8, c.col),
    (88, 8, c.link), (96, 32, c.job), (128, 32, c.rank)]

/-- The command as its record reads. -/
def fenceOf (v : Nat) : FenceCmd :=
  { fseq := bits v 0 32, op := bits v 32 8, kind := bits v 40 8, propagate := bits v 48 8, plane := bits v 64 8, row := bits v 72 8,
    col := bits v 80 8, link := bits v 88 8, job := bits v 96 32, rank := bits v 128 32 }

/-- A FENCE_CTRL write that is refused (R347). -/
def fenceBad (p : Part) (d : Dev) (c : FenceCmd) : Bool :=
  !(c.op = 1 || c.op = 2) || !(1 ≤ c.kind && c.kind ≤ 3) || 1 < c.propagate
    || (c.kind = 1 && (c.plane != d.plane || !rowInside d c.row || !colInside d c.col || c.link != 0 || c.job != 0 || c.rank != 0
        || (c.row = d.row && c.col = d.col)))
    || (c.kind = 2 && (!p.hasLink c.link || c.propagate = 1 || c.plane != 0 || c.row != 0 || c.col != 0 || c.job != 0 || c.rank != 0))
    || (c.kind = 3 && (c.plane != 0 || c.row != 0 || c.col != 0 || c.link != 0))

/-- The links whose peer is a device. -/
def linksTo (p : Part) (d : Dev) (row col : Nat) : List Nat :=
  (List.range p.links).filter (fun n => isMesh d n && (d.link n).known && (d.link n).peerRow = row && (d.link n).peerCol = col)

/-- A link changed by a fence, what is kept for it released, `f` saying what becomes of each frame (R286, R347). -/
def fenceLink (d : Dev) (n : Nat) (l : Link) (f : Dev → Copy → Dev) : Dev := dropKeptWith f (moveLinkQuiet d n l) n

/-- The copies in egress queues that a fence discards, each released by its queue (R245), and what `f` does with each. The time that
a queue stood blocked until now counts, and a queue that is emptied is no longer eligible (R304, R307). -/
def discardQueued (d : Dev) (bad : Nat → Copy → Bool) (f : Dev → Copy → Dev) : Dev :=
  let hits := d.sw.queues.flatMap (fun q => (q.2.fifo.filter (fun x => !x.eth && bad (q.1 / 16) x)).map (fun x => (q.1, x)))
  let links := (hits.map (fun y => y.1 / 16)).eraseDups
  let d1 := hits.foldl (fun d (y : Nat × Copy) =>
      let n := y.1 / 16
      let q := y.1 % 16
      let e := d.eq n q
      f (releaseCopy (d.setEq n q { e with fifo := e.fifo.erase y.2 }) n q y.2) y.2) (links.foldl settleElig d)
  links.foldl settleElig d1

/-- The copies decided for frames that await their turn that a fence discards (R222, R284, R347). -/
def discardHeld (d : Dev) (bad : Copy → Bool) (f : Dev → Copy → Dev) : Dev :=
  let isBad := fun (x : Nat × Copy) => !x.2.eth && bad x.2
  let keep := fun (y : Place) => { y with copies := y.copies.filter (fun x => !isBad x) }
  let hits := (heldPlaces d).flatMap (fun y => y.copies.filter isBad)
  let d1 := { d with sw := { d.sw with streams := d.sw.streams.map (fun s => (s.1, { s.2 with held := s.2.held.map keep })),
                                       fcmHeld := d.sw.fcmHeld.map (fun x => (x.1, x.2.1, keep x.2.2)) } }
  hits.foldl (fun d x => f (releaseCopy d (x.1 / 16) (x.1 % 16) x.2) x.2) d1

/-- Frames held for a port set that a fence discards. -/
def discardWaiting (d : Dev) (bad : Copy → Bool) (f : Dev → Copy → Dev) : Dev :=
  (d.sw.waiting.filter bad).foldl (fun d x => f (resumeFrame d x id) x)
    { d with sw := { d.sw with waiting := d.sw.waiting.filter (fun x => !bad x) } }

/-- A collective chunk's frame is addressed to one rank of a job (R173): it is moved data whose DST names the rank's member, or it
goes to that member's port set here, as GO, COUNTS_OUT, ACK and RESEND do, and no other unfenced member has it. -/
def chunkFor (d : Dev) (job rank : Nat) (f : Frame) : Bool :=
  f.ty = 0x01 && bits f.spec 0 32 = job && (match findOp d job (bits f.spec 224 32) with
    | none => false
    | some o =>
      match firstIx (fun m => m.rank = rank) o.members 0 with
      | none => false
      | some i =>
        let moves := (o.opc = 6 || o.opc = 7) && decide (bits f.spec 122 4 ≤ 2)
        if moves then bits f.spec 56 20 = i
        else f.drow = d.row && f.dcol = d.col && o.devOf i = d.code && f.dpset = o.psetOf i
          && !(o.here d).any (fun j => j != i && o.psetOf j = f.dpset && !o.fencedAt j))

/-- The effects of a fence (R347). -/
def fenceOn (p : Part) (d : Dev) (c : FenceCmd) : Dev :=
  if c.kind = 1 then
    let d1 := { d with sw := { d.sw with fenced := d.sw.fenced.filter (· != c.row * 64 + c.col) ++ [c.row * 64 + c.col] } }
    let hit := fun (x : Copy) => (x.f.srow = c.row && x.f.scol = c.col) || (x.f.drow = c.row && x.f.dcol = c.col)
    let cut := fun (d : Dev) (x : Copy) => if hit x then routeFrame p d none false x.f else fenceDiscard d x.f
    let d2 := (linksTo p d1 c.row c.col).foldl (fun d n =>
      fenceLink d n { d.link n with peerFenced := some (c.row * 64 + c.col) } cut) d1
    discardWaiting (discardHeld (discardQueued d2 (fun _ x => hit x) cut) hit cut) hit (fun d x => fenceDiscard d x.f)
  else if c.kind = 2 then
    let d0 := leaveIfLive p d c.link
    let d1 := fenceLink d0 c.link { d0.link c.link with fenced := true } (fun d x => fenceDiscard d x.f)
    if d1.linkRole c.link != 1 then d1
    else discardQueued d1 (fun n x => n = c.link && x.f.ty = 0x01) (fun d x => fenceDiscard d x.f)
  else
    match d.jobRec c.job with
    | none => d
    | some r =>
      if jobRanks r ≤ c.rank then d
      else
        let k := jobBase r + c.rank
        let hit := fun (x : Copy) => (x.f.ty = 0x20 && bits x.f.spec 224 32 = c.job && bits x.f.spec 160 32 = c.rank)
          || chunkFor d c.job c.rank x.f
        let cut := fun (d : Dev) (x : Copy) => fenceDiscard d x.f
        discardWaiting (discardHeld (discardQueued (d.wr 0x6003 0 k (putBit (d.rd 0x6003 0 k) 62 true)) (fun _ x => hit x) cut) hit cut)
          hit (fun d x => if x.f.ty = 0x01 then fenceDiscard d x.f else d.inc 0x6003 1 0)

/-- The effects of an unfence (R349). One of a device lifts the fence of every link that its fence put in FENCED, whatever peer the
link has found beneath it since. -/
def fenceOff (p : Part) (d : Dev) (c : FenceCmd) : Dev :=
  if c.kind = 1 then
    ((List.range p.links).filter (fun n => (d.link n).peerFenced = some (c.row * 64 + c.col))).foldl
      (fun d n => moveLinkQuiet d n { d.link n with peerFenced := none })
      { d with sw := { d.sw with fenced := d.sw.fenced.filter (· != c.row * 64 + c.col) } }
  else if c.kind = 2 then
    let d1 := moveLinkQuiet d c.link { d.link c.link with fenced := false }
    if roleClash d1 c.link then d1
    else moveLinkQuiet d1 c.link { d1.link c.link with roleFenced := false }
  else
    match d.jobRec c.job with
    | none => d
    | some r =>
      let k := jobBase r + c.rank
      if jobRanks r ≤ c.rank then d else d.wr 0x6003 0 k (putBit (d.rd 0x6003 0 k) 62 false)

/-- A fence command covers a member of an operation: its rank, its device, or here a link of its port set (R347). -/
def fenceHits (d : Dev) (c : FenceCmd) (job : Nat) (m : Member) : Bool :=
  if c.kind = 1 then m.row = c.row && m.col = c.col
  else if c.kind = 2 then m.row = d.row && m.col = d.col && (d.rd 0x6004 0 (m.pset % 256)).testBit c.link
  else job = c.job && m.rank = c.rank && (rttOf d job m.rank).isSome

/-- The fence point of the members that a command covers: they are fenced in every operation from now on, and each admitted one
is reported aborted with FENCED (R156, R173). -/
def abortFenced (p : Part) (d : Dev) (c : FenceCmd) : Dev :=
  let mark := fun (o : Op) => { o with members := o.members.map (fun m => if fenceHits d c o.job m then { m with fenced := true } else m) }
  let d1 := { d with colls := { d.colls with ops := d.colls.ops.map mark } }
  (d.colls.ops.filter (fun o => o.admitted && (mark o).fencedMask != o.fencedMask)).foldl (fun d o =>
    onOp p d o.job o.coll (reportAbort p stFenced)) d1

/-- A fence command applied (R347-R349): its effects, the event, and the copies that a PROPAGATE sends on. -/
def applyFence (p : Part) (d : Dev) (c : FenceCmd) : Dev :=
  let d1 := settleWaiting p (if c.op = 1 then fenceOn p d c else fenceOff p d c)
  let d2 := emit d1 0x6004 stOK 6 (c.op = 1) 0x6030 0 (fenceRec c * 2 ^ 64)
  let d3 := { d2 with sw := { d2.sw with fseqs := (c.fseq :: d2.sw.fseqs).take 256 } }
  if c.op = 1 then abortFenced p d3 c else d3

/-- A command whose FSEQ is among the last 256 applied is ignored (R348). -/
def fenceSeen (d : Dev) (c : FenceCmd) : Bool := d.sw.fseqs.contains c.fseq

/-- The rule of FENCE_CTRL. -/
def fenceRule (p : Part) (c : FenceCmd) (d : Dev) : Dev × Nat :=
  if fenceBad p d c then refuse d stBadField
  else if fenceSeen d c then accept d
  else
    let d1 := applyFence p d c
    accept (if c.propagate = 1 then broadcast p d1 0x40 0 0 0 (toBytes 24 (fenceRec c)) else d1)

/-- A write to FENCE_CTRL. -/
def fenceWrite (rq : Rq) (c : FenceCmd) (s : State) : Res :=
  lift s fun p d => serveWrite d rq 0x6030 0 (toBytes 24 (fenceRec c)) (fenceRule p (fenceOf (fenceRec c)))

/-- FENCE (R347): a write whose OP is not 2; an OP that is not listed is refused. -/
def execFence (rq : Rq) (c : FenceCmd) (s : State) : Res :=
  if c.op % 256 = 2 then lift s (fun _ d => d) else fenceWrite rq c s
/-- UNFENCE (R349): a write with OP 2. -/
def execUnfence (rq : Rq) (c : FenceCmd) (s : State) : Res := fenceWrite rq { c with op := 2 } s

/-- PROPAGATED_FENCE (R348): a command that came in a FABRIC_CTL frame from a device of row `srow`. It is applied once; one that
came down a column goes on along this row. -/
def execPropagatedFence (n srow : Nat) (c : FenceCmd) (s : State) : Res :=
  liftAt s (s.part.hasLink n) fun p d =>
    if !d.runs domXbar || !d.works 6 || fenceBad p d c || fenceSeen d c then d
    else
      serveAt 161 d (some n) 0 88 (fun d =>
        let d1 := applyFence p d c
        if srow = d.row then d1
        else multicast p (d1.inc 0x6030 3 0 (fencedRowPeers d1)) (rowStage d1) 0x40 0 0 0 (toBytes 24 (fenceRec c)))

end Sys2Proof.Machine
end

