-- ==== Sys2Proof/Machine/Sequencer.lean ====
section
/-! DEFINITION. The grove sequencer: one command per instruction of R110, carried out when the word at the program counter is
that instruction (spec/05_stream_programs.md R108-R113, R126-R128, R134, R137-R138). -/

namespace Sys2Proof.Machine

/-- The opcode of a sequencer word (R109). -/
def opOf (w : Nat) : Nat := bits w 56 8

def fSD (w : Nat) : Nat := bits w 51 5
def fSA (w : Nat) : Nat := bits w 46 5
def fSB (w : Nat) : Nat := bits w 41 5

/-- IMM of the I format, sign-extended to 64 bits (R109). -/
def fImm (w : Nat) : Word := (BitVec.ofNat 32 w).signExtend 64

/-- TARGET of the B format. -/
def fTarget (w : Nat) : Nat := bits w 0 15

/-- Fields of the F format. -/
def fFlag (w : Nat) : Nat := bits w 48 8
def fN1 (w : Nat) : Nat := bits w 32 16
def fN2 (w : Nat) : Nat := bits w 16 16
def fTreg (w : Nat) : Nat := bits w 11 5

/-- The reserved bits of a word's format, by opcode; none for an opcode R110 does not define. -/
def reservedBits (op : Nat) (w : Nat) : Option Nat :=
  if op = 0x00 || op = 0x38 || op = 0x39 || op = 0x3A then some (bits w 32 24)
  else if op = 0x01 || op = 0x02 || op = 0x0B || op = 0x18 || op = 0x19 || (0x28 ≤ op && op ≤ 0x2B) then some (bits w 32 14)
  else if 0x03 ≤ op && op ≤ 0x0A then some (bits w 0 41)
  else if 0x10 ≤ op && op ≤ 0x15 then some (bits w 51 5 + bits w 15 26)
  else if 0x20 ≤ op && op ≤ 0x23 then some (bits w 0 11)
  else if op = 0x30 then some (bits w 0 3)
  else none

/-- A word that R110 lets the sequencer run. -/
def legalWord (w : Nat) : Bool := reservedBits (opOf w) w == some 0

/-- A register; s0 reads zero (R108). -/
def Grove.reg (gr : Grove) (i : Nat) : Word := if i = 0 then 0 else gr.regs.get 0 i

/-- A register written; s0 ignores writes (R108). -/
def Grove.setReg (gr : Grove) (i : Nat) (v : Word) : Grove := if i = 0 then gr else { gr with regs := gr.regs.set 0 i v }

/-- The sequencer can take an instruction: the ARC domain runs, the grove is RUNNING, not past END, and not paused. -/
def canFetch (d : Dev) (g : Nat) : Bool :=
  d.runs domArc && (d.grove g).phase == .running && !(d.grove g).ended && !(d.grove g).paused

/-- The word the sequencer fetches; none past word 32,767 (R111). -/
def fetchWord (d : Dev) (g : Nat) : Option Nat :=
  let gr := d.grove g
  if gr.pc < 32768 then some (gr.word gr.bank gr.pc) else none

/-- The word the sequencer is to fetch stands poisoned, or a word of the grove's registers, flags or queues does (R459). -/
def fetchPoison (d : Dev) (g : Nat) : Bool :=
  (d.grove g).statePoison || (d.grove g).wordPoison (d.grove g).bank (d.grove g).pc

/-- The word to execute when the instruction of opcode `op` is next, none otherwise. -/
def seqWord (d : Dev) (g op : Nat) : Option Nat :=
  if canFetch d g && !fetchPoison d g then
    match fetchWord d g with
    | some w => if legalWord w && opOf w = op then some w else none
    | none => none
  else none

/-- One instruction: its effect from the fetched word; an instruction that is not next changes nothing. -/
def seqRun (g op : Nat) (s : State) (f : Part → Dev → Nat → Dev) : Res :=
  liftAt s (decide (g < s.part.groves)) fun p d =>
    match seqWord d g op with
    | some w => f p d w
    | none => d

/-- The sequencer goes on to a word, and stalls no longer. -/
def Grove.goto (gr : Grove) (pc : Nat) : Grove := { gr with pc := pc, stall := .none }

/-- The next word. -/
def Grove.advance (gr : Grove) : Grove := gr.goto (gr.pc + 1)

/-- An instruction that changes only its grove's registers and goes on. -/
def regInstr (g : Nat) (f : Grove → Dev → Word) (dst : Nat) (d : Dev) : Dev :=
  let gr := d.grove g
  d.setGrove g ((gr.setReg dst (f gr d)).advance)

/-- SEQ_ILLEGAL (R110, R111): an undefined opcode, a reserved bit set, or a fetch outside the bank. A word that reads as
poisoned, whose opcode nobody knows, faults with ECC here (R459). -/
def execSeqIllegal (g : Nat) (s : State) : Res :=
  liftAt s (decide (g < s.part.groves)) fun p d =>
    if canFetch d g && fetchPoison d g then seqFault p d g 0x03 stCheckFail
    else if canFetch d g && !((fetchWord d g).any legalWord) then seqFault p d g 0x05 stBadField else d

/-- NOP (R110). -/
def execNop (g : Nat) (s : State) : Res :=
  seqRun g 0x00 s fun _ d _ => d.setGrove g (d.grove g).advance

/-- LI (R110). -/
def execLi (g : Nat) (s : State) : Res :=
  seqRun g 0x01 s fun _ d w => regInstr g (fun _ _ => fImm w) (fSD w) d

/-- LIH (R110): the low half is kept. -/
def execLih (g : Nat) (s : State) : Res :=
  seqRun g 0x02 s fun _ d w =>
    regInstr g (fun gr _ => BitVec.ofNat 64 (bits (gr.reg (fSD w)).toNat 0 32 + bits w 0 32 * 2 ^ 32)) (fSD w) d

/-- A three-register instruction's result from its two sources (R110). -/
def aluInstr (g w : Nat) (op : Word → Word → Word) (d : Dev) : Dev :=
  regInstr g (fun gr _ => op (gr.reg (fSA w)) (gr.reg (fSB w))) (fSD w) d

/-- ADD (R110). -/
def execAdd (g : Nat) (s : State) : Res :=
  seqRun g 0x03 s fun _ d w => aluInstr g w (fun x y => x + y) d

/-- SUB (R110). -/
def execSub (g : Nat) (s : State) : Res :=
  seqRun g 0x04 s fun _ d w => aluInstr g w (fun x y => x - y) d

/-- AND (R110). -/
def execAndR (g : Nat) (s : State) : Res :=
  seqRun g 0x05 s fun _ d w => aluInstr g w (fun x y => x &&& y) d

/-- OR (R110). -/
def execOrR (g : Nat) (s : State) : Res :=
  seqRun g 0x06 s fun _ d w => aluInstr g w (fun x y => x ||| y) d

/-- XOR (R110). -/
def execXorR (g : Nat) (s : State) : Res :=
  seqRun g 0x07 s fun _ d w => aluInstr g w (fun x y => x ^^^ y) d

/-- SHL (R110). -/
def execShl (g : Nat) (s : State) : Res :=
  seqRun g 0x08 s fun _ d w => aluInstr g w (fun x y => x <<< (y.toNat % 64)) d

/-- SHR, logical (R110). -/
def execShr (g : Nat) (s : State) : Res :=
  seqRun g 0x09 s fun _ d w => aluInstr g w (fun x y => x >>> (y.toNat % 64)) d

/-- MUL: the low 64 bits (R110). -/
def execMul (g : Nat) (s : State) : Res :=
  seqRun g 0x0A s fun _ d w => aluInstr g w (fun x y => x * y) d

/-- ADDI (R110). -/
def execAddi (g : Nat) (s : State) : Res :=
  seqRun g 0x0B s fun _ d w => regInstr g (fun gr _ => gr.reg (fSA w) + fImm w) (fSD w) d

/-- A branch on two registers (R110). -/
def branchInstr (g w : Nat) (taken : Word → Word → Bool) (d : Dev) : Dev :=
  let gr := d.grove g
  d.setGrove g (if taken (gr.reg (fSA w)) (gr.reg (fSB w)) then gr.goto (fTarget w) else gr.advance)

/-- BEQ (R110). -/
def execBeq (g : Nat) (s : State) : Res :=
  seqRun g 0x10 s fun _ d w => branchInstr g w (fun x y => x == y) d

/-- BNE (R110). -/
def execBne (g : Nat) (s : State) : Res :=
  seqRun g 0x11 s fun _ d w => branchInstr g w (fun x y => x != y) d

/-- BLT, signed (R110). -/
def execBlt (g : Nat) (s : State) : Res :=
  seqRun g 0x12 s fun _ d w => branchInstr g w (fun x y => x.slt y) d

/-- BGE, signed (R110). -/
def execBge (g : Nat) (s : State) : Res :=
  seqRun g 0x13 s fun _ d w => branchInstr g w (fun x y => !x.slt y) d

/-- BLTU, unsigned (R110). -/
def execBltu (g : Nat) (s : State) : Res :=
  seqRun g 0x14 s fun _ d w => branchInstr g w (fun x y => x.ult y) d

/-- JMP (R110). -/
def execJmp (g : Nat) (s : State) : Res :=
  seqRun g 0x15 s fun _ d w => branchInstr g w (fun _ _ => true) d

/-- The grove memory offset of a word that LDW and STW may address: the reduction-slot or general range, 8-byte aligned
(R111). -/
def groveWordAt (a : Word) : Option Nat :=
  let n := a.toNat
  if n % 8 != 0 then none
  else if (0x01000000 ≤ n && n + 8 ≤ 0x01800000) || (0x01A00000 ≤ n && n + 8 ≤ 0x02000000) then some (n - 0x01000000)
  else none

/-- LDW (R110, R111). A word carried across a substitution with the poison syndrome faults with ECC (R459). -/
def execLdw (g : Nat) (s : State) : Res :=
  seqRun g 0x18 s fun p d w =>
    let gr := d.grove g
    match groveWordAt (gr.reg (fSA w) + fImm w) with
    | none => seqFault p d g 0x02 stBadPointer
    | some o =>
      if gr.poison.contains (o / 8) then seqFault p d g 0x03 stCheckFail
      else regInstr g (fun gr _ => BitVec.ofNat 64 (gr.gmem.readNat 0#8 o 8)) (fSD w) d

/-- A whole word of grove memory written; it clears the word's poison. -/
def Grove.store8 (gr : Grove) (o v : Nat) : Grove :=
  { gr with gmem := gr.gmem.writeNat 0#8 o 8 v, poison := gr.poison.filter (fun x => x != o / 8) }

/-- STW (R110, R111). -/
def execStw (g : Nat) (s : State) : Res :=
  seqRun g 0x19 s fun p d w =>
    let gr := d.grove g
    match groveWordAt (gr.reg (fSA w) + fImm w) with
    | none => seqFault p d g 0x02 stBadPointer
    | some o => d.setGrove g (gr.store8 o (gr.reg (fSD w)).toNat).advance

/-- A flag's new state if C + PL + PE stays within 65,535 (R127), else FLAG_RANGE. -/
def flagGrow (p : Part) (d : Dev) (g f : Nat) (x : Flag) : Dev :=
  if 65535 < x.c + x.pl + x.pe then seqFault p d g 0x07 stBadField
  else d.setGrove g ((d.grove g).setFlag f x).advance

/-- FDECL (R110, R127). -/
def execFdecl (g : Nat) (s : State) : Res :=
  seqRun g 0x20 s fun p d w =>
    let x := (d.grove g).flag (fFlag w)
    flagGrow p d g (fFlag w) { x with pl := x.pl + fN1 w, pe := x.pe + fN2 w }

/-- FSET (R110, R127); N1 = 0 faults with BAD_FIELD. -/
def execFset (g : Nat) (s : State) : Res :=
  seqRun g 0x21 s fun p d w =>
    if fN1 w = 0 then seqFault p d g 0x05 stBadField
    else
      let x := (d.grove g).flag (fFlag w)
      flagGrow p d g (fFlag w) { x with c := x.c + fN1 w }

/-- FCLR (R110, R127). -/
def execFclr (g : Nat) (s : State) : Res :=
  seqRun g 0x22 s fun p d w =>
    let x := (d.grove g).flag (fFlag w)
    if x.pl != 0 || x.pe != 0 then seqFault p d g 0x08 stBadField
    else d.setGrove g ((d.grove g).setFlag (fFlag w) { x with c := 0 }).advance

/-- FWAIT's target (R110). -/
def fwaitTarget (gr : Grove) (w : Nat) : Nat := if fTreg w = 0 then fN1 w else (gr.reg (fTreg w)).toNat % 65536

/-- FWAIT (R110): goes on when the count has reached the target, else stalls. -/
def execFwait (g : Nat) (s : State) : Res :=
  seqRun g 0x23 s fun _ d w =>
    let gr := d.grove g
    d.setGrove g (if fwaitTarget gr w ≤ (gr.flag (fFlag w)).c then gr.advance
      else { gr with stall := .fwait (fFlag w) (fwaitTarget gr w) })

/-- APLD (R110, R111): waits until every command issued before has completed; a value not aligned to 4 GiB faults. -/
def execApld (g : Nat) (s : State) : Res :=
  seqRun g 0x28 s fun p d w =>
    let gr := d.grove g
    if !gr.quiet then d.setGrove g { gr with stall := .apld }
    else
      let v := (gr.reg (fSA w)).toNat
      if v % 2 ^ 32 != 0 then seqFault p d g 0x02 stBadPointer
      else d.setGrove g ({ gr with aps := gr.aps.set none (fSD w) (some v) }).advance

/-- WAIT_LIMIT of a grove: whether in pace units, and the limit (R141). -/
def waitLimit (d : Dev) (g : Nat) : Bool × Nat := ((d.rd 0x4103 0 g).testBit 63, bits (d.rd 0x4103 0 g) 0 63)

/-- A wait that ended by its limit (R141). -/
def limitHalt (p : Part) (d : Dev) (g : Nat) : Dev := seqFault p (d.inc 0x4103 2 0) g 0x0A stWaitCycle

/-- WPACE (R110, R141): a target beyond the limit, in pace units, halts the grove as soon as it executes. -/
def execWpace (g : Nat) (s : State) : Res :=
  seqRun g 0x29 s fun p d w =>
    let gr := d.grove g
    let t := (gr.reg (fSA w)).toNat
    let now := d.pace.visible
    if t ≤ now then d.setGrove g gr.advance
    else
      let d' := d.setGrove g { gr with stall := .wpace t }
      if (waitLimit d g).1 && decide (now + (waitLimit d g).2 < t) then limitHalt p d' g else d'

/-- RDPACE (R110). -/
def execRdpace (g : Nat) (s : State) : Res :=
  seqRun g 0x2A s fun _ d w => regInstr g (fun _ d => BitVec.ofNat 64 d.pace.visible) (fSD w) d

/-- RDCYC (R110). -/
def execRdcyc (g : Nat) (s : State) : Res :=
  seqRun g 0x2B s fun _ d w => regInstr g (fun _ d => BitVec.ofNat 64 d.cycle) (fSD w) d

/-- The engines of EMASK (R112). -/
def emask (w : Nat) : List Nat := (List.range 16).filter (fun e => w.testBit (40 + e))

/-- The command an ISSUE word makes (R112): tag, body, and offsets taken from registers at issue. -/
def issueCmd (gr : Grove) (w : Nat) : Cmd :=
  let o := bits w 4 5
  let off := fun k => if o = 0 then 0 else (gr.reg (o + k)).toNat
  { tag := if w.testBit 3 then (gr.reg (bits w 24 5)).toNat % 65536 else bits w 24 16, bank := gr.bank, body := bits w 9 15,
    copies := (emask w).length, offA := off 0, offB := off 1, offD := off 2 }

/-- All copies pushed in one cycle (R113), the local setters counted in S (R127). -/
def pushAll (gr : Grove) (w : Nat) : Grove :=
  let c := issueCmd gr w
  let h := gr.head c
  let f := bits h 11 8
  let gr1 := if h.testBit 19 then gr.setFlag f { gr.flag f with s := (gr.flag f).s + c.copies } else gr
  let gr2 := (emask w).foldl (fun gr e => gr.setQueue e (gr.queue e ++ [c])) gr1
  { gr2 with lastTag := c.tag }

/-- ISSUE (R110, R112, R113, R128). -/
def execIssue (g : Nat) (s : State) : Res :=
  seqRun g 0x30 s fun p d w =>
    let gr := d.grove g
    let c := issueCmd gr w
    let h := gr.head c
    if (emask w).isEmpty || 30 ≤ bits w 4 5 then seqFault p d g 0x05 stBadField
    else if gr.wordPoison gr.bank c.body then seqFault p d g 0x03 stCheckFail
    else if h.testBit 19 && decide ((gr.flag (bits h 11 8)).pl < (gr.flag (bits h 11 8)).s + c.copies) then
      seqFault p d g 0x06 stBadField
    else if (emask w).any (fun e => decide (64 ≤ (gr.queue e).length)) then d.setGrove g { gr with stall := .issue }
    else d.setGrove g (pushAll gr w).advance

/-- A program boundary (R137, R138): an armed switch is taken when the target bank's check value is the expected one; a write
to the target in progress stalls. `next` is what happens without a switch. A switch armed before a START of its own target
finds that bank ACTIVE and begins it again at word 0. -/
def boundary (d : Dev) (g : Nat) (next : Grove → Grove) : Dev :=
  let gr := d.grove g
  match gr.armed with
  | none => d.setGrove g (next gr)
  | some (b, crc) =>
    if gr.writing.contains b then d.setGrove g { gr with stall := .boundary }
    else
      let gr1 := { gr with armed := none }
      let found := bankCrc gr b
      if found = crc then
        let gr2 := ((gr1.setBank gr.bank .draining).setBank b .active).drain
        d.setGrove g ({ gr2 with bank := b }.goto 0)
      else
        emit (d.setGrove g (next gr1)) 0x4003 stCheckFail 5 false 0x4102 4 (dataUN 2 g b 0 crc found 0)

/-- BSYNC (R110, R137). -/
def execBsync (g : Nat) (s : State) : Res :=
  seqRun g 0x38 s fun _ d _ => boundary d g (fun gr => gr.advance)

/-- END (R110, R137, R138). -/
def execEndProg (g : Nat) (s : State) : Res :=
  seqRun g 0x39 s fun _ d _ => settleEnd (boundary d g (fun gr => { gr.advance with ended := true })) g

/-- TRACE (R110, R134). -/
def execTrace (g : Nat) (s : State) : Res :=
  seqRun g 0x3A s fun p d w =>
    let d' := tracePut p d g (d.grove g).lastTag 16 0 2 (bits w 0 32)
    d'.setGrove g (d'.grove g).advance

/-! ### Waits that cannot end (R139-R141), and sets from outside (R130) -/

/-- The flags that queue heads and the sequencer wait on (R139). -/
def waitedFlags (gr : Grove) : List Nat :=
  let heads := (List.range 16).filterMap (fun e =>
    match gr.queue e with
    | c :: _ => if gr.waits c then some (bits (gr.head c) 36 8) else none
    | [] => none)
  match gr.stall with
  | .fwait f t => if (gr.flag f).c < t then f :: heads else heads
  | _ => heads

/-- An open context that sets a flag. -/
def openSets (gr : Grove) (f : Nat) : Bool :=
  gr.open_.any (fun x => (gr.head x.cmd).testBit 19 && bits (gr.head x.cmd) 11 8 = f)

/-- The condition of R139; with no wait standing there is no wait cycle (log entry 27). -/
def waitCycle (gr : Grove) : Bool :=
  let headsWait := gr.queues.all (fun q => match q.2 with | [] => true | c :: _ => gr.waits c)
  let seq := match gr.stall with
    | .issue => (emask (gr.word gr.bank gr.pc)).any (fun e => decide (64 ≤ (gr.queue e).length))
    | .fwait f t => decide ((gr.flag f).c < t)
    | _ => gr.ended && gr.armed.isNone
  let fs := waitedFlags gr
  headsWait && seq && !fs.isEmpty && fs.all (fun f => (gr.flag f).pe = 0 && !openSets gr f)

/-- WAIT_CYCLE_SAMPLE (R140): the detector samples a PROGRAM grove; two consecutive samples that find the condition halt it. -/
def execWaitCycleSample (g : Nat) (s : State) : Res :=
  liftAt s (decide (g < s.part.groves)) fun p d =>
    let gr := d.grove g
    if !d.runs domArc || d.role g != 1 || gr.phase != .running then d
    else if !waitCycle gr then d.setGrove g { gr with sampled := false }
    else if gr.sampled then seqFault p ((d.setGrove g { gr with sampled := false }).inc 0x4103 1 0) g 0x09 stWaitCycle
    else d.setGrove g { gr with sampled := true }

/-- A wait stands beyond the limit of its grove (R141): in ARC cycles, or in pace units of the visible count (R368) with the backstop of
2^40 cycles. One that has begun in this cycle does not. -/
def waitExceeds (d : Dev) (g : Nat) (w : Waiter) : Bool :=
  let k := match w with | .queue e => e | .sequencer => 16
  match (standingWaits d (d.grove g)).find? (fun x => x.1 = k) with
  | none => false
  | some x =>
    match (d.grove g).waitsAt.find? (fun n => n.waiter = k && n.key = x.2) with
    | none => false
    | some n =>
      let cycles := (d.cycle + 2 ^ 64 - n.cycle) % 2 ^ 64
      if (waitLimit d g).1 then decide ((waitLimit d g).2 < d.pace.visible - n.pace) || decide (2 ^ 40 < cycles)
      else decide ((waitLimit d g).2 < cycles)

/-- WAIT_LIMIT_EXPIRY (R131, R141): a wait that still stands exceeds its limit. -/
def execWaitLimitExpiry (g : Nat) (w : Waiter) (s : State) : Res :=
  liftAt s (decide (g < s.part.groves)) fun p d =>
    if d.runs domArc && (d.grove g).phase == .running && waitExceeds d g w then limitHalt p d g else d

/-- EXTERNAL_SET (R130): a remote increment reaches this device from `home` on behalf of `job`. -/
def execExternalSet (home job g flag : Nat) (s : State) : Res :=
  lift s fun p d => if d.runs domArc then remoteSetHere p d home job g flag else d

end Sys2Proof.Machine
end

