-- ==== Sys2Proof/Machine/Groves.lean ====
section
/-! DEFINITION. Control of groves: START, HALT, RESET, instruction memory, bank switches, scaling context clears
(spec/05_stream_programs.md R104-R107, R135-R138, R145, R146, spec/02_number_formats.md R47, R49). -/

namespace Sys2Proof.Machine

/-- The 8 bytes of a GROVE_CTRL write (R146). -/
def groveCtrlBytes (op g low : Nat) : List Byte := toBytes 8 (op * 2 ^ 56 + g % 256 * 2 ^ 48 + low % 2 ^ 48)

/-- START's rule (R105, R107). -/
def startRule (p : Part) (g bank : Nat) (d : Dev) : Dev × Nat :=
  let gr := d.grove g
  if p.groves ≤ g || 1 < bank then refuse d stBadField
  else if !d.boot.readyGroves.testBit g || gr.phase == .lost then refuse d stNotReady
  else if d.role g != 1 || d.groveJob g = 0 || (d.jobRec (d.groveJob g)).isNone then refuse d stBadField
  else if gr.phase != .idle || gr.bankSt bank != .idle || gr.writing.contains bank then refuse d stNotReady
  else
    let gr' := { gr with pc := 0, bank := bank, ended := false, stall := .none, regs := [], flags := [], lastTag := 0,
                         haltRec := List.replicate 200 0, sampled := false, statePoison := false, waitsAt := [] }
    accept (setPhase (d.setGrove g (gr'.setBank bank .active)) g .running)

/-- A START write. -/
def startCall (g bank : Nat) : Call := Call.write 0x4101 0 (groveCtrlBytes 1 g bank)

/-- Its object's rule. -/
def startAct (p : Part) (g bank : Nat) : Act := ruleAct (startRule p (g % 256) (bank % 2 ^ 48))

/-- GROVE_CTRL START (R107, R223). -/
def execGroveCtrlStart (rq : Rq) (g bank : Nat) (s : State) : Res :=
  lift s fun p d => serveOrHold d rq (startCall g bank) (startAct p g bank) (d.modes.fcm = 1)
    (fun d => holdForFcm d (.groveCtrlStart rq g bank))

/-- HALT's rule (R143, R144): only a RUNNING grove can be halted. -/
def haltRule (p : Part) (g : Nat) (d : Dev) : Dev × Nat :=
  if p.groves ≤ g then refuse d stBadField
  else if (d.grove g).phase != .running then refuse d stNotReady
  else accept (seqFault p d g 0x0C stOK)

/-- GROVE_CTRL HALT. -/
def execGroveCtrlHalt (rq : Rq) (g : Nat) (s : State) : Res :=
  lift s fun p d => serveWrite d rq 0x4101 0 (groveCtrlBytes 2 g 0) (haltRule p (g % 256))

/-- Scaling contexts that open contexts of a grove hold are freed without an entry. -/
def freeScales (d : Dev) (g : Nat) : Dev :=
  let gr := d.grove g
  gr.open_.foldl (fun d x => match x.xscale with | some _ => freeScale d (cvCtx (gr.cvt x.cmd)) none | none => d) d

/-- Steps 1 and 2 of R145: queues and contexts discarded, windows closed. Canopy requests that have been sent, and writes of
completed steps, stand until they are answered or end. -/
def clearWork (gr : Grove) : Grove :=
  { gr.retire (fun _ => true) with queues := [], ctxs := [], wins := [], ended := true, stall := .none, waitsAt := [] }

/-- Step 4 of R145. An armed switch goes with the bank states it names (DESIGN CHOICE, log entry 41). -/
def clearState (gr : Grove) : Grove := { gr with flags := [], regs := [], aps := [], b0 := .idle, b1 := .idle, armed := none, sampled := false, statePoison := false }

/-- RESET's rule (R145). A grove that is RESETTING or LOST answers NOT_READY (DESIGN CHOICE, log entry 41). -/
def groveResetRule (p : Part) (g : Nat) (d : Dev) : Dev × Nat :=
  if p.groves ≤ g then refuse d stBadField
  else
    match (d.grove g).phase with
    | .idle => accept (d.setGrove g (clearState (clearWork (d.grove g))))
    | .running =>
      let d1 := freeScales d g
      accept (setPhase (d1.setGrove g (clearWork (d1.grove g))) g .resetting)
    | .halted =>
      let d1 := freeScales d g
      accept (setPhase (d1.setGrove g (clearWork (d1.grove g))) g .resetting)
    | .resetting => refuse d stNotReady
    | .lost => refuse d stNotReady

/-- GROVE_CTRL RESET (R145). -/
def execGroveCtrlReset (rq : Rq) (g : Nat) (s : State) : Res :=
  lift s fun p d => serveWrite d rq 0x4101 0 (groveCtrlBytes 3 g 0) (groveResetRule p (g % 256))

/-- GROVE_RESET_DONE (R145): no Canopy request is outstanding; the grove is cleared and IDLE. -/
def execGroveResetDone (g : Nat) (s : State) : Res :=
  liftAt s (decide (g < s.part.groves)) fun _ d =>
    let gr := d.grove g
    if d.runs domArc && gr.phase == .resetting && gr.reqs.isEmpty then setPhase (d.setGrove g (clearState gr)) g .idle else d

/-- Words stored from `first` on in a bank; a zero word is not listed. -/
def Grove.putWords (gr : Grove) (bank first : Nat) (ws : List Word) : Grove :=
  { gr with imem := ws.zipIdx.foldl (fun m x => m.set 0 (bank * 32768 + first + x.2) x.1) gr.imem,
            imemPoison := gr.imemPoison.filter (fun w =>
              !(decide (bank * 32768 + first ≤ w) && decide (w < bank * 32768 + first + ws.length))) }

/-- The status of a software write to bank `b` of grove `g` (R104, R136): an ACTIVE or DRAINING bank in any state, then a grove
that is RESETTING. A bank that a load is writing is IDLE, and takes the write. -/
def bankWriteStatus (d : Dev) (g b : Nat) : Nat :=
  let gr := d.grove g
  if d.role g = 0 then stLocked
  else if gr.bankSt b != .idle then stBankActive
  else if gr.phase == .resetting then stNotReady
  else stOK

/-- A refusal with BANK_ACTIVE is counted (R136). -/
def countActive (d : Dev) (st : Nat) : Dev × Nat := if st = stBankActive then (d.inc 0x4102 5 0, st) else (d, st)

/-- INSTR_WRITE's rule (R136, R146). -/
def instrWriteRule (p : Part) (g bank first : Nat) (ws : List Word) (d : Dev) : Dev × Nat :=
  if p.groves ≤ g || 1 < bank || ws.isEmpty || 512 < ws.length || 32768 < first + ws.length then refuse d stBadField
  else
    let st := bankWriteStatus d g bank
    if st != stOK then countActive d st else accept (d.setGrove g ((d.grove g).putWords bank first ws))

/-- The bytes of an INSTR_WRITE (R146). -/
def instrWriteBytes (g bank first : Nat) (ws : List Word) : List Byte :=
  toBytes 8 (pack [(0, 32, first), (48, 8, bank), (56, 8, g)]) ++ ws.flatMap (fun w => toBytes 8 w.toNat)

/-- INSTR_WRITE (R136). -/
def execInstrWrite (rq : Rq) (g bank first : Nat) (words : List Word) (s : State) : Res :=
  lift s fun p d => serveWrite d rq 0x4102 0 (instrWriteBytes g bank first words) (instrWriteRule p g bank first words)

/-- The groves of a load's mask. -/
def maskGroves (p : Part) (mask : Nat) : List Nat := (List.range p.groves).filter (fun g => mask.testBit g)

/-- INSTR_LOAD_MEM's rule (R104, R136, R146): a load begins; the banks it names are being written until it completes. The banks are
looked at first, so that a DEVICE grove answers LOCKED and an ACTIVE or DRAINING bank BANK_ACTIVE, counted. R146 gives no status for
an offset that is not aligned to 8 bytes, nor for a region that passes the end of device memory: the first is a value the object
does not take, BAD_FIELD, the second BAD_POINTER (DESIGN CHOICE, log entry 118). -/
def instrLoadRule (p : Part) (mask bank first off len : Nat) (d : Dev) : Dev × Nat :=
  if 2 ^ p.groves ≤ mask || 1 < bank || 32767 < first || off % 8 != 0 || len = 0 || 32768 < len || 32768 < first + len then
    refuse d stBadField
  else
    let gs := maskGroves p mask
    match (gs.map (fun g => bankWriteStatus d g bank)).find? (· != stOK) with
    | some st => countActive d st
    | none =>
      if !d.works 4 then refuse d stNotReady
      else if memSize p d < off + 8 * len then refuse d stBadPointer
      else if readPoison p d off (8 * len) then (poisonEvent p d (poisonSpot p d off (8 * len)) 3 0, stCheckFail)
      else
        accept (gs.foldl (fun d g => d.setGrove g { d.grove g with writing := bank :: (d.grove g).writing })
          { d with loads := d.loads ++ [(mask, bank, first, off, len)] })

/-- INSTR_LOAD_MEM. -/
def execInstrLoadMem (rq : Rq) (mask bank first off len : Nat) (s : State) : Res :=
  lift s fun p d => serveWrite d rq 0x4102 1
    (toBytes 24 (pack [(0, 32, mask), (32, 15, first), (48, 16, bank), (64, 64, off), (128, 64, len)]))
    (instrLoadRule p mask bank first off len)

/-- INSTR_LOAD_DONE (R136): the load that began first ends (DESIGN CHOICE, log entry 41). Its words stand in every masked grove; a
stalled program boundary goes on at its next step. A grove that is RESETTING by then takes no word (DESIGN CHOICE, log entry
41). -/
def execInstrLoadDone (s : State) : Res :=
  lift s fun p d =>
    match d.loads with
    | [] => d
    | (mask, bank, first, off, len) :: rest =>
      let y := checkRead p d off (8 * len)
      let ok := !y.2
      let ws := (unpackCodes 64 len (ofBytes (d.mem.mem.readN 0#8 off (8 * len)))).map (BitVec.ofNat 64)
      let d0 := { y.1 with loads := rest }
      let d1 := if ok then d0 else poisonEvent p d0 (poisonSpot p d0 off (8 * len)) 3 0
      (maskGroves p mask).foldl (fun d g =>
        let gr := d.grove g
        let gr1 := { gr with writing := gr.writing.erase bank }
        d.setGrove g (if ok && gr.phase != .resetting then gr1.putWords bank first ws else gr1)) d1

/-- The rule of arming a switch (R137). -/
def armRule (p : Part) (g bank crc : Nat) (d : Dev) : Dev × Nat :=
  if p.groves ≤ g || 1 < bank then refuse d stBadField
  else
    match (d.grove g).bankSt bank with
    | .active => refuse d stBadField
    | .draining => refuse d stBankActive
    | .idle => accept (d.setGrove g { d.grove g with armed := some (bank, crc) })

/-- BANK_SWITCH (R137). -/
def execBankSwitch (rq : Rq) (g bank crc : Nat) (s : State) : Res :=
  lift s fun p d => serveWrite d rq 0x4102 4 (toBytes 8 (pack [(0, 32, crc), (32, 24, bank), (56, 8, g)]))
    (armRule p (g % 256) bank (crc % 2 ^ 32))

/-- One scaling context emptied, after the operation in flight has appended (R49). -/
def clearScale (d : Dev) (n : Nat) : Dev :=
  let x := d.ctx n
  d.setCtx n (if x.busy then { x with heldClear := true } else { x with hist := [] })

/-- SCALE_CTX_CLEAR's rule (R47). -/
def scaleClearRule (n : Nat) (d : Dev) : Dev × Nat :=
  if n = 0xFFFF then accept (d.scale.keys.foldl clearScale d)
  else if 1024 ≤ n then refuse d stBadField
  else accept (clearScale d n)

/-- SCALE_CTX_CLEAR (R47, R49). -/
def execScaleCtxClear (rq : Rq) (n : Nat) (s : State) : Res :=
  lift s fun _ d => serveWrite d rq 0x4300 2 (toBytes 2 n) (scaleClearRule (n % 65536))

end Sys2Proof.Machine
end

