-- ==== Sys2Proof/Machine/Boot.lean ====
section
/-! DEFINITION. Start-up: signed images, the choice of a firmware bank, the owner configuration, device reset
(spec/17_startup_and_security.md R430-R448, spec/15_dictionary_protocol.md R391). -/

namespace Sys2Proof.Machine

/-! ### Image headers (R439-R442) -/

/-- A header of 256 bytes at a flash offset. -/
def header (d : Dev) (base : Nat) : Nat := flashNat d base 256

def hdrDigest (h : Nat) : Nat := bits h 1664 384
def hdrMagic (h : Nat) : Nat := bits h 1632 32
def hdrFormat (h : Nat) : Nat := bits h 1616 16
/-- STEP_MASK of a firmware bank, RECORDS of an owner slot. -/
def hdrMask (h : Nat) : Nat := bits h 1600 16
/-- VERSION of a firmware bank, MIN_FW of an owner slot. -/
def hdrVersion (h : Nat) : Nat := bits h 1568 32
/-- GENERATION of a firmware bank, OSEQ of an owner slot. -/
def hdrSeq (h : Nat) : Nat := bits h 1536 32
def hdrLen (h : Nat) : Nat := bits h 1504 32
def hdrKey (h : Nat) : Nat := bits h 1496 8
def hdrRevoke (h : Nat) : Nat := bits h 1500 4

/-- Base of an owner slot in flash (R435). -/
def slotBase (k : Nat) : Nat := 0x02000000 + k * 0x00100000

/-- Bytes of flash. -/
def flashBytes (d : Dev) (a n : Nat) : List Byte := d.boot.flash.readN 0xFF#8 a n

/-- Both signatures of an image verify, and its body has the digest (R439). -/
def imageSigned (d : Dev) (base : Nat) : Bool :=
  let msg := flashBytes d base 256
  Config.rsaVerify (flashBytes d (base + 256) 384) msg (flashBytes d (base + 688) 384)
    && Config.slhVerify (flashBytes d (base + 640) 48) msg (flashBytes d (base + 1072) 16224)
    && decide (Config.sha384 (flashBytes d (base + 17296) (hdrLen (header d base))) = hdrDigest (header d base))

/-- Verification status of a firmware bank (R439-R441): BAD_FIELD for what the header map refuses, CHECK_FAIL for signatures,
digest and key pair. -/
def bankVerify (p : Part) (d : Dev) (b : Nat) : Nat :=
  let base := bankBase b
  let h := header d base
  if hdrMagic h != 0x4C584657 || hdrFormat h != 1 || bits h 0 1496 != 0 || 7 < hdrMask h || 3 < hdrKey h || hdrLen h = 0
      || 0x01000000 < 17296 + hdrLen h then stBadField
  else if !imageSigned d base
      || Config.sha384 (flashBytes d (base + 256) 432) != Config.romKeyDigest p.step (hdrKey h) then stCheckFail
  else stOK

/-- Verification status of an owner slot (R439, R442). -/
def slotVerify (d : Dev) (k : Nat) : Nat :=
  let h := header d (slotBase k)
  if hdrMagic h != 0x4C584F43 || hdrFormat h != 1 || bits h 0 1492 != 0 || 0x00100000 < 17296 + hdrLen h then stBadField
  else if !imageSigned d (slotBase k) then stCheckFail
  else stOK

/-- The owner slot in use, 0xFF for none (R442). -/
def pickSlot (d : Dev) : Nat :=
  let ok := fun k => decide (slotVerify d k = stOK)
  let seq := fun k => hdrSeq (header d (slotBase k))
  if ok 0 && ok 1 then (if seq 0 < seq 1 then 1 else 0) else if ok 0 then 0 else if ok 1 then 1 else 0xFF

/-! ### The persistent tail (R438, R445) -/

/-- BODY of an attempt or boot OK record (R438). -/
def bootBody (d : Dev) (b : Nat) : Nat :=
  let h := header d (bankBase b)
  pack [(0, 8, b), (32, 32, hdrSeq h), (64, 32, hdrVersion h), (128, 384, hdrDigest h)]

/-- The records whose CRC passes, newest first: every other one is skipped on every read (R438). -/
def validTail (d : Dev) : List TailRec := d.boot.tail.filter (fun r => r.good)

/-- failed(b): attempts of the bank's digest since the newest boot OK or attempt reset record (R445). -/
def failedCount (d : Dev) (b : Nat) : Nat :=
  (((validTail d).takeWhile (fun r => r.ty != 3 && r.ty != 4)).filter
    (fun r => r.ty = 2 && bits r.body 128 384 = hdrDigest (header d (bankBase b)))).length

/-- BOOT_SEQ of this start: the newest record's plus 1, or 1 (R438). -/
def nextBootSeq (d : Dev) : Nat := match validTail d with | r :: _ => r.bootSeq + 1 | [] => 1

/-! ### The choice of a bank (R444) -/

/-- The bits of STEP_MASK. -/
def Part.stepBit (p : Part) : Nat := match p.stepping with | .a0 => 0 | .a1 => 1 | .b0 => 2

/-- ok[b] of R444, under an owner header (0 for none). -/
def bankOk (p : Part) (d : Dev) (owner b : Nat) : Bool :=
  let h := header d (bankBase b)
  decide (bankVerify p d b = stOK) && !(hdrRevoke owner).testBit (hdrKey h) && (hdrMask h).testBit p.stepBit
    && decide (hdrVersion owner ≤ hdrVersion h)

/-- The banks by GENERATION, A first on a tie. -/
def bankOrder (d : Dev) : List Nat :=
  if hdrSeq (header d (bankBase 0)) < hdrSeq (header d (bankBase 1)) then [1, 0] else [0, 1]

/-- Why a bank is passed over: 1 invalid, 2 out of attempts; 0 when it boots. -/
def passOver (p : Part) (d : Dev) (owner b : Nat) : Nat :=
  if !bankOk p d owner b then 1 else if 3 ≤ failedCount d b then 2 else 0

/-- BOOT_FALLBACK for a bank passed over (R453). -/
def bootFallback (p : Part) (d : Dev) (owner b : Nat) : Dev :=
  emit d 0xA001 (bankVerify p d b) 1 false 0xA000 0
    (dataUN 0 b 0 (passOver p d owner b) (hdrSeq (header d (bankBase b))) 0 0)

/-! ### The owner configuration (R443) -/

/-- Where the record of an owner body at `a` ends. -/
def cfgEnd (d : Dev) (a : Nat) : Nat := a + 8 + roundUp (flashNat d (a + 4) 4) 8

/-- The records of an owner body from `a` to `stop`: index, subindex, value. -/
def cfgRecords (d : Dev) (stop : Nat) : Nat → Nat → List (Nat × Nat × List Byte)
  | 0, _ => []
  | n + 1, a =>
    if stop < a + 8 || stop < cfgEnd d a then []
    else (flashNat d a 2, flashNat d (a + 2) 1, flashBytes d (a + 8) (flashNat d (a + 4) 4)) :: cfgRecords d stop n (cfgEnd d a)

/-- One record checked as a dictionary write of the whole value and applied, or its status (R391, R443). -/
def cfgApply (p : Part) (d : Dev) (idx sub : Nat) (value : List Byte) : Except Nat Dev :=
  match findObj idx sub with
  | none => .error stBadField
  | some o =>
    if o.pers = 0 && o.acc != accCfg then .error stBadField
    else if value.length != o.bytes * o.count p 0 || (o.ty != 10 && !scalarOk o.ty (ofBytes value)) then .error stBadField
    else
      match writeRecs p idx sub d 0 ((chunksOf o.bytes value.length value).map ofBytes) with
      | .ok d' => .ok d'
      | .error (st, _) => .error st

/-- The records applied in body order; a refused one is ignored and written as CFG_IGNORED. -/
def cfgRun (p : Part) : List (Nat × Nat × List Byte) → Dev → Dev
  | [], d => d
  | (idx, sub, value) :: rs, d =>
    cfgRun p rs (match cfgApply p d idx sub value with
      | .ok d' => d'
      | .error st => emit d 0x1001 st 5 false idx sub (dataUN 0 0 0 0 (ofBytes (value.take 8)) 0 0))

/-- The owner configuration in use applied (R443). -/
def applyOwner (p : Part) (d : Dev) : Dev :=
  if d.boot.ownerSlot = 0xFF then d
  else
    let base := slotBase d.boot.ownerSlot
    let h := header d base
    cfgRun p (cfgRecords d (base + 17296 + hdrLen h) (hdrMask h) (base + 17296)) d

/-! ### Clocks (R18, R430) -/

/-- The domains that step 1 starts: power controller and always-on reference. JTAG runs on TCK whenever TCK is present, which is
taken to be from here on (log entry 113). -/
def clocks1 : Nat := 2 ^ domPower + 2 ^ domAon + 2 ^ domJtag

/-- Step 3: security processor, xSPI, PCIe. -/
def clocks3 : Nat := clocks1 + 2 ^ domSec + 2 ^ domXspi + 2 ^ domPcie

/-- Step 7: management processor, telemetry sampler, pace and timebase. -/
def clocks7 : Nat := clocks3 + 2 ^ domMgmt + 2 ^ domTelem + 2 ^ domPace

/-- Step 8: ARC, crossbar and buffer, die-to-die 0 to 3, the memory controllers present. -/
def clocks8 (p : Part) : Nat := clocks7 + 2 ^ domArc + 2 ^ domXbar + 15 * 2 ^ 26 + (2 ^ p.stacks - 1) * 2 ^ domMem 0

/-- Step 9: the port groups present, the field network. -/
def clocks9 (p : Part) : Nat := clocks8 p + (2 ^ (p.links / 8) - 1) * 2 ^ domPort 0 + 2 ^ domFnet

/-- Clocks set. -/
def Dev.withClocks (d : Dev) (c : Nat) : Dev := { d with boot := { d.boot with clocks := c } }

/-! ### Memory stacks as levels (R366) -/

/-- The MEM_STACK_STATE record. -/
def stackRec (d : Dev) (k : Nat) : Nat :=
  pack [(0, 8, d.mem.st.get 0 k), (8, 16, d.mem.badCh.get 0 k), (24, 8, ofSigned 8 (d.mem.temp.get 0 k)), (32, 8, d.mem.mult.get 0 k)]

/-- A stack's state changed, written as LEVEL. -/
def setStack (d : Dev) (k st : Nat) : Dev :=
  let d1 := { d with mem := { d.mem with st := d.mem.st.set 0 k st } }
  emitLevel d1 3 0x7002 0 k (stackRec d1 k) (stackRec d k)

/-- Training of a stack starts (R358, R430): state 1, refresh multiplier 1. -/
def trainStack (d : Dev) (k : Nat) : Dev :=
  let d1 := { d with mem := { d.mem with st := d.mem.st.set 0 k 1, mult := d.mem.mult.set 0 k 1 } }
  emitLevel d1 3 0x7002 0 k (stackRec d1 k) (stackRec d k)

/-! ### Start-up (R430-R434) -/

/-- What a device reset keeps (R431, R438, R448): pins and rails, the unwrapped keys, flash and tail, THERM_N's cause, and the
model's own records. Everything else takes its reset value. -/
def resetDev (d : Dev) : Dev :=
  { Dev.init with
    boot := { Boot.init with
      rails := d.boot.rails, tripped := d.boot.tripped, cold := d.boot.cold, resetN := d.boot.resetN, perst := d.boot.perst,
      refclkOk := d.boot.refclkOk, vinOk := d.boot.vinOk, keys := d.boot.keys, identity := d.boot.identity, jtag := d.boot.jtag,
      flash := d.boot.flash, tail := d.boot.tail, draws := d.boot.draws },
    modes := { Dev.init.modes with written := d.modes.written },
    health := { Dev.init.health with thermal := d.health.thermal, temps := d.health.temps },
    freeIx := d.freeIx, out := d.out }

/-- What programming leaves of bytes programmed over others: it only clears bits (R436). -/
def programmed (old new : List Byte) : List Byte := (old.zip new).map (fun x => x.1 &&& x.2)

/-- A flash operation of software cut off by a reset or a loss of power. How many bytes of it were done, and what stands in the page
or sector that was in progress, is left open (free values). -/
def cutFlash (d : Dev) : Dev :=
  match d.boot.flashOp with
  | none => d
  | some o =>
    let k := if o.erase then d.draw.1 % (o.len + 1) / 65536 * 65536 else d.draw.1 % (o.len + 1)
    let n := if o.erase then min 65536 (o.len - k) else d.draw.2.draw.1 % (o.len - k + 1)
    let torn := d.draw.2.draw.2.draw
    let fl := if o.erase then d.boot.flash.clear o.off k
      else d.boot.flash.writeN 0xFF#8 o.off ((programmed (flashBytes d o.off o.len) o.data).take k)
    { torn.2 with boot := { d.boot with flash := fl.writeN 0xFF#8 (o.off + k) (toBytes n torn.1), flashOp := none } }

/-- Records on their way to the tail when a reset or a loss of power comes: how many of them are written, and whether the next one is
torn, is left open (free values). -/
def cutTail (d : Dev) : Dev :=
  if d.boot.tailWait.isEmpty then d
  else
    let n := d.draw.1 % (d.boot.tailWait.length + 1)
    let d1 := (d.boot.tailWait.take n).foldl putTail d.draw.2
    let d2 := match (d.boot.tailWait.drop n).head? with
      | some r => if d1.draw.1 % 2 = 1 then putTail d1.draw.2 { r with good := false } else d1.draw.2
      | none => d1
    { d2 with boot := { d2.boot with tailWait := [] } }

/-- Both. -/
def cutWrites (d : Dev) : Dev := cutTail (cutFlash d)

/-- IDENTITY_FAIL with its cause (R448, R453). -/
def identityEvent (d : Dev) (cause : Nat) : Dev :=
  if cause = 0 then d else emit d 0xA003 stCheckFail 0 false 0xA004 0 (dataUN 0 0 0 cause 0 0 0)

/-- OWNER_CFG_REJECTED for each invalid slot (R442, R453). -/
def ownerEvents (d : Dev) : Dev :=
  [0, 1].foldl (fun d k =>
    if slotVerify d k = stOK then d
    else emit d 0xA002 (slotVerify d k) 0 false 0xA000 0 (dataUN 0 k 0 0 (hdrSeq (header d (slotBase k))) 0 0)) d

/-- Steps 7 and 8 (R430): the attempt record, the owner configuration, the start of the self-test and of memory training. -/
def steps78 (p : Part) (d : Dev) (b : Nat) : Dev :=
  let d1 := applyOwner p ((appendTail d 2 (bootBody d b)).withClocks clocks7)
  let d2 := { d1.withClocks (clocks8 p) with
    boot := { (d1.withClocks (clocks8 p)).boot with step := 8 },
    mem := { d1.mem with interleave := d1.rd 0x7001 0 0, mirror := d1.rd 0x7001 1 0 != 0, spillGib := d1.rd 0x5203 0 0,
                         shadowGib := d1.rd 0x6020 1 0 } }
  (List.range p.stacks).foldl trainStack d2

/-- Steps 3 to 8, REFCLK being good: the keys at a power-up, the owner slots, the choice of a bank or recovery mode. The
owner status with no valid slot is left open (a free value among the codes of R415). -/
def steps38 (p : Part) (d : Dev) : Dev :=
  let puf := if d.boot.cold then (Config.pufOutcome (d.boot.flash.filter (fun c => decide (0x02200000 ≤ c.1) && decide (c.1 < 0x02300000)))).val
    else 0
  let slot := pickSlot d
  let owner := if slot = 0xFF then 0 else header d (slotBase slot)
  let passed := (bankOrder d).takeWhile (fun b => passOver p d owner b != 0)
  let bank := (bankOrder d).find? (fun b => passOver p d owner b = 0)
  let d0 := if slot = 0xFF then d.draw.2 else d
  let d1 := { d0.withClocks clocks3 with boot := { (d0.withClocks clocks3).boot with
    cold := false, keys := if d.boot.cold then decide (puf = 0) else d.boot.keys,
    identity := if d.boot.cold then (if puf = 0 then stOK else stCheckFail) else d.boot.identity,
    ownerSlot := slot, ownerHdr := owner, ownerStatus := if slot = 0xFF then d.draw.1 % 13 else stOK,
    bankStatus := (Tbl.set [] 0 0 (bankVerify p d 0)).set 0 1 (bankVerify p d 1),
    bank := bank.getD 0xFF, recovery := bank.isNone,
    reason := match passed with | [] => 0 | b :: _ => passOver p d owner b } }
  let d2 := passed.foldl (fun d b => bootFallback p d owner b) (ownerEvents (identityEvent d1 puf))
  match bank with
  | some b => steps78 p d2 b
  | none => { d2.withClocks (clocks3 + 2 ^ domMgmt + 2 ^ domFnet) with
      boot := { (d2.withClocks (clocks3 + 2 ^ domMgmt + 2 ^ domFnet)).boot with step := 9 } }

/-- A start held at step 1: only its domains run. -/
def startHeld (d : Dev) : Dev :=
  { d.withClocks clocks1 with boot := { (d.withClocks clocks1).boot with bootSeq := nextBootSeq d, step := 1 } }

/-- A start from step 1 or 2 (R430, R431, R482): held at step 1 while RESET_N is low, at step 2 while REFCLK is not good. -/
def startUp (p : Part) (d : Dev) : Dev :=
  let d0 := startHeld d
  if !d.boot.resetN then d0
  else
    let d1 := { d0 with boot := { d0.boot with step := 2 } }
    if !d.boot.refclkOk then d1 else steps38 p d1

/-- A device reset that is not a power-up (R431). -/
def deviceReset (p : Part) (d : Dev) : Dev := startUp p (resetDev (cutWrites d))

/-- REFCLK has been lost since the clocks started: the derived domains have stopped and only RESET_N or a power cycle starts them
again (R19). xSPI is a derived domain that runs from step 3 on. -/
def clockLost (d : Dev) : Bool := decide (8 ≤ d.boot.step) && !d.runs domXspi

/-- A device reset that the device brings on itself, by a command, the watchdog or its management processor: after a loss of REFCLK
the start that follows is held at step 1 until RESET_N or a power cycle (R19, log entry 114). -/
def ownReset (p : Part) (d : Dev) : Dev := if clockLost d then startHeld (resetDev (cutWrites d)) else deviceReset p d

/-- Every rail off (R464, R477): nothing but flash survives. -/
def powerOff (d : Dev) (tripped : Bool) : Dev :=
  let d := cutWrites d
  { Dev.init with
    boot := { Boot.init with tripped := tripped, resetN := d.boot.resetN, perst := d.boot.perst, refclkOk := d.boot.refclkOk,
                             vinOk := false, flash := d.boot.flash, tail := d.boot.tail, draws := d.boot.draws },
    modes := { Dev.init.modes with written := d.modes.written }, freeIx := d.freeIx, out := d.out }

/-! ### Dictionary paths (R403, R445) -/

/-- A dictionary path rises; the first one to rise appends the boot OK record (R445), and the functions that waited for a path are
ready (R403). -/
def raisePath (d : Dev) (k : Nat) : Dev :=
  let d1 := setReady d k true
  if d1.boot.recovery || d1.boot.bootOk then d1
  else
    let d2 := queueTail d1 3 (bootBody d1 d1.boot.bank)
    releaseReady { d2 with boot := { d2.boot with bootOk := true } }

/-! ### Physical groves (R98-R100) -/

/-- The physical grove R98 assigns. -/
def homeGrove (g : Nat) : Nat := 9 * (g % 4) + g / 4

/-- The physical grove behind a logical one. -/
def physOf (d : Dev) (g : Nat) : Nat := d.spares.phys.get (homeGrove g) g

/-- The clock gate of a physical grove is open: it is in service behind a logical grove. The gates of spares, of groves beyond the
enabled count and of retired groves are closed; a substitution opens the spare's (R18, R99). -/
def gateOpen (p : Part) (d : Dev) (phys : Nat) : Bool :=
  (List.range p.groves).any (fun g => (d.grove g).phase != .lost && physOf d g = phys)

/-- Spares that can take a logical number: in order, not retired and not in use. -/
def freeSpares (p : Part) (d : Dev) : List Nat :=
  (List.range 36).filter (fun x => !d.spares.retired.contains x && !d.boot.badGroves.contains x
    && !gateOpen p d x)

/-- The substitute of R99: the lowest spare of the same die, else the lowest of any. -/
def pickSpare (p : Part) (d : Dev) (phys : Nat) : Option Nat :=
  match (freeSpares p d).find? (fun x => x / 9 = phys / 9) with
  | some x => some x
  | none => (freeSpares p d).head?

/-- GROVES_LOST: a bit for each logical grove that is LOST (R101). -/
def grovesLost (p : Part) (d : Dev) : Nat :=
  ((List.range p.groves).map (fun g => if (d.grove g).phase == .lost then 2 ^ g else 0)).sum

/-- A logical grove becomes LOST (R461). -/
def loseGrove (p : Part) (d : Dev) (g : Nat) : Dev :=
  let d1 := setPhase d g .lost
  setReadyGrove (emitLevel d1 2 0x4001 2 0xFFFFFFFF (grovesLost p d1) (grovesLost p d)) g false

/-- R100: logical groves whose R98 grove failed the self-test take spares in ascending order, or are LOST. -/
def assignGroves (p : Part) (d : Dev) : Dev :=
  (List.range p.groves).foldl (fun d g =>
    if !d.boot.badGroves.contains (homeGrove g) then d
    else match pickSpare p d (homeGrove g) with
      | some x => { d with spares := { d.spares with phys := d.spares.phys.put g x } }
      | none => loseGrove p d g) d

/-- SELFTEST_FAIL (R453). -/
def selftestFail (d : Dev) (cause unit a : Nat) : Dev :=
  emit d 0xA004 stCheckFail 1 false 0xA005 0 (dataUN 0 unit 0 cause a 0 0)

/-- What the self-test found taken out of use (R434): groves, port groups, cells. -/
def takeOut (p : Part) (d : Dev) (groves pgs cells : List Nat) (broke : Bool) : Dev :=
  let groves := (List.range 36).filter (fun x => groves.contains x)
  let pgs := (List.range (p.links / 8)).filter (fun x => pgs.contains x)
  let cells := (cells.filter (fun c => decide (c < 2097152))).eraseDups
  let d1 := { d with
    boot := { d.boot with selfDone := true, selfExact := !broke, badGroves := groves, selfCells := cells.length,
                          badPortGroups := (pgs.map (fun x => 2 ^ x)).sum },
    buf := { d.buf with retired := cells, lwm := min d.buf.lwm (2097152 - cells.length) } }
  let d2 := groves.foldl (fun d x => selftestFail d 1 x 0) d1
  let d3 := pgs.foldl (fun d x => selftestFail d 2 x 0) d2
  let d4 := if cells.isEmpty then d3 else selftestFail d3 3 0 cells.length
  assignGroves p d4

/-- Links at step 9: those of a failed port group read FAILED, every other one with a mode begins bring-up (R430, R434); what they
commit is held against BUF_HEADROOM (R282). -/
def startLinks (p : Part) (d : Dev) : Dev :=
  settleCommit p ((List.range p.links).foldl (fun d n =>
    if badPort d n then moveLink d n ((d.link n).down .failed)
    else if d.linkMode n != 0 && !(n % 2 = 1 && d.linkMode (n - 1) = 3) then startTraining p d n
    else d) d)

/-- The first 16 bytes of BOOT_STATE (R452). -/
def bootState (d : Dev) : Nat :=
  let h := if d.boot.recovery then 0 else header d (bankBase d.boot.bank)
  pack [(0, 8, d.boot.bank), (8, 8, d.boot.reason), (16, 8, d.boot.ownerSlot), (24, 8, d.boot.ownerStatus), (32, 32, hdrSeq h),
    (64, 32, hdrVersion h), (96, 32, hdrSeq d.boot.ownerHdr)]

/-- SELFTEST (R452). -/
def selftestImage (d : Dev) : Nat :=
  pack [(0, 8, d.boot.badGroves.length), (8, 8, b2n d.boot.selfExact), (16, 16, d.boot.badPortGroups), (32, 32, d.boot.selfCells)]

/-- Measurements 1 to 6 (R449), taken when SECURITY becomes ready. -/
def measure (p : Part) (d : Dev) : List Nat :=
  let none_ := List.replicate 48 (0 : Byte)
  let owner := d.boot.ownerSlot != 0xFF
  [Config.romDigest p.step, Config.sha384 (flashBytes d (bankBase d.boot.bank) 256),
   Config.sha384 (if owner then flashBytes d (slotBase d.boot.ownerSlot) 256 else none_),
   Config.sha384 (if owner then flashBytes d (slotBase d.boot.ownerSlot + 256) 432 else none_),
   Config.sha384 (toBytes 16 (bootState d)), Config.sha384 (toBytes 16 (selftestImage d))]

/-- Functions that work at step 9 (R403, R433): EVENTS, PACE, SWITCH, the groves, SECURITY when the keys are held. -/
def readyStep9 (p : Part) (d : Dev) : Dev :=
  let d1 := setReady (setReady (setReady d 2 true) 5 true) 6 true
  let d2 := (List.range p.groves).foldl (fun d g =>
    if (d.grove g).phase == .lost then d
    else setReadyGrove (if d.role g = 0 then loadFirmware d g else d) g true) d1
  if d2.boot.keys then setReady { d2 with boot := { d2.boot with meas := measure p d2 } } 3 true else d2

/-- MEMORY, CANOPY and COLLECTIVES brought to what the stacks say (R358, R403, R433). -/
def settleMemory (p : Part) (d : Dev) : Dev :=
  let up := fun k => decide (d.mem.st.get 0 k = 3)
  let ok := if d.mem.mirror then (List.range (p.stacks / 2)).all (fun q => up (2 * q) || up (2 * q + 1))
    else (List.range p.stacks).all up
  let d1 := setReady d 4 (d.works 4 || ok)
  settleCollectives p (setReady d1 8 (d1.works 4 && d1.works 6))

/-- Step 9 (R430). -/
def step9 (p : Part) (d : Dev) : Dev :=
  let d1 := { d.withClocks (clocks9 p) with boot := { (d.withClocks (clocks9 p)).boot with step := 9 } }
  let d2 := startLinks p (settleMemory p (readyStep9 p d1))
  if d2.boot.pcieUp then raisePath d2 0 else d2

end Sys2Proof.Machine
end

