-- ==== Sys2Proof/Machine/Pins.lean ====
section
/-! DEFINITION. Power, pins, clocks and heat: what the input, the rails, REFCLK, RESET_N, PERST#, the dictionary paths and the
temperature sensors do to the device (spec/17_startup_and_security.md R430-R434, spec/18_faults_and_telemetry.md R463-R465,
spec/19_electrical_and_package.md R477-R486, spec/01_device_overview.md R19). -/

namespace Sys2Proof.Machine

/-! ### Levels of the whole device -/

/-- DEVICE_FAULTS (R421). -/
def deviceFaults (d : Dev) : Nat := b2n (!d.boot.refclkOk) + 2 * b2n d.health.thermal + 4 * b2n (!d.boot.vinOk)

/-- A change of DEVICE_FAULTS written as LEVEL_FAIL (R425). -/
def faultLevel (d d' : Dev) : Dev := emitLevel d' 1 0x9000 0 0xFFFFFFFF (deviceFaults d') (deviceFaults d)

/-- Phases fitted and needed of a rail (R463). -/
def phasesFitted (rail : Nat) : Nat := [14, 4, 6, 4, 4, 4, 3, 3, 3].getD rail 0
def phasesNeeded (rail : Nat) : Nat := [12, 2, 4, 2, 2, 2, 1, 1, 1].getD rail 0

/-- Good phases of a rail: the table holds the failed ones as a mask. -/
def phasesGood (d : Dev) (rail : Nat) : Nat :=
  ((List.range (phasesFitted rail)).filter (fun k => !(d.health.phases.get 0 rail).testBit k)).length

/-- MEM_UNPROTECTED (R364): a bit for each mirrored pair of which one stack has failed. -/
def memUnprotected (p : Part) (d : Dev) : Nat :=
  if !d.mem.mirror then 0
  else ((List.range (p.stacks / 2)).map (fun q =>
    if (d.mem.st.get 0 (2 * q) = 4) != (d.mem.st.get 0 (2 * q + 1) = 4) then 2 ^ q else 0)).sum

/-- ALERT_N is asserted (R465); with VAO off it is high impedance (R483). -/
def alertN (p : Part) (d : Dev) : Bool :=
  d.boot.rails && (deviceFaults d != 0 || grovesLost p d != 0 || memUnprotected p d != 0
    || (decide (9 ≤ d.boot.step) && (freeSpares p d).isEmpty)
    || (List.range 9).any (fun r => decide (phasesGood d r < phasesNeeded r)) || d.health.throttle != 0 || d.boot.recovery)

/-- THERM_N is asserted (R483). -/
def thermN (d : Dev) : Bool := d.boot.rails && d.health.thermal

/-! ### Power -/

/-- Rails on, and the start-up sequence from t = 0 (R430). -/
def powerUpDev (p : Part) (d : Dev) : Dev :=
  startUp p { d with boot := { d.boot with rails := true, vinOk := true, cold := true } }

/-- POWER_UP (R430, R477): the input has been within its range for 2 ms while the rails are off. -/
def execPowerUp (s : State) : Res :=
  lift s fun p d => if d.boot.rails || d.boot.tripped then d else powerUpDev p d

/-- BOOT_REFCLK_READY (R482): REFCLK becomes good while start-up waits at step 2. -/
def execBootRefclkReady (s : State) : Res :=
  lift s fun p d =>
    if d.boot.rails && d.boot.step = 2 then steps38 p { d with boot := { d.boot with refclkOk := true } } else d

/-- SELFTEST_END (R434): failed units are taken out of use, and step 9 follows (R430), unless REFCLK was lost meanwhile (R19). -/
def execSelftestEnd (groves portGroups cells : List Nat) (broke : Bool) (s : State) : Res :=
  lift s fun p d => if d.boot.step = 8 && !clockLost d then step9 p (takeOut p d groves portGroups cells broke) else d

/-- STACK_FAILED with cause 1 (R358, R427): A says whether the partner now serves the pair. -/
def trainFailed (p : Part) (d : Dev) (k : Nat) : Dev :=
  let d1 := { d with mem := { d.mem with st := d.mem.st.set 0 k 4 } }
  let partner := d.mem.mirror && d.mem.st.get 0 (if k % 2 = 0 then k + 1 else k - 1) != 4
  emitLevel (emit d1 0x7002 stOK 1 true 0x7002 0 (dataUN 3 k (d1.mem.badCh.get 0 k) 1 (b2n partner) 0 0))
    2 0x7002 1 0xFFFFFFFF (memUnprotected p d1) (memUnprotected p d)

/-- MEMORY_TRAINED (R358): training and zeroing end well, or one training fails; the third failure marks the stack FAILED. -/
def execMemoryTrained (stack : Nat) (ok : Bool) (s : State) : Res :=
  liftAt s (decide (stack < s.part.stacks)) fun p d =>
    if !d.runs (domMem stack) || d.mem.st.get 0 stack != 1 then d
    else if ok then settleMemory p (setStack (setStack d stack 2) stack 3)
    else
      let n := d.mem.tries.get 0 stack + 1
      let d1 := { d with mem := { d.mem with tries := d.mem.tries.set 0 stack n } }
      if n < 3 then d1 else settleMemory p (trainFailed p d1 stack)

/-- PCIE_LINK_UP (R403, R430): the link trains; BAR0 answers from step 9 on. -/
def execPcieLinkUp (s : State) : Res :=
  lift s fun _ d =>
    if d.runs domPcie && d.boot.perst then
      let d1 := { d with boot := { d.boot with pcieUp := true } }
      if d.boot.step = 9 then raisePath d1 0 else d1
    else d

/-- PLCA_JOIN (R403, R407, R430): the field network is joined and the link-local address held; with node ID 0 the device is the
coordinator and sends beacons for FNET_PLCA_COUNT nodes. -/
def execPlcaJoin (s : State) : Res :=
  lift s fun p d =>
    if d.runs domFnet && d.boot.step = 9 then
      raisePath (if nodeId p d = 0 then d.send (.beacon (d.rd 0x1040 2 0)) else d) 1
    else d

/-- BOOT_WATCHDOG (R445): neither dictionary path rose within 5 s of step 7. -/
def execBootWatchdog (s : State) : Res :=
  lift s fun p d =>
    if 8 ≤ d.boot.step && !d.boot.recovery && !d.boot.bootOk && !d.isReady 0 && !d.isReady 1 then ownReset p d else d

/-- RESET_N_ASSERT (R431, R483): only step 1's domains run. -/
def execResetNAssert (s : State) : Res :=
  lift s fun p d =>
    if !d.boot.resetN then d
    else
      let d1 := { d with boot := { d.boot with resetN := false } }
      if d.boot.rails then deviceReset p d1 else d1

/-- RESET_N_RELEASE (R431): a device reset that starts at step 2. -/
def execResetNRelease (s : State) : Res :=
  lift s fun p d =>
    if d.boot.resetN then d
    else
      let d1 := { d with boot := { d.boot with resetN := true } }
      if d.boot.rails then deviceReset p d1 else d1

/-- The domains that keep running without REFCLK (R19). -/
def clocksLost : Nat := 2 ^ domMgmt + 2 ^ domSec + 2 ^ domPcie + 2 ^ domFnet + 2 ^ domPower + 2 ^ domAon + 2 ^ domJtag

/-- Every link that is not FAILED by its port group is taken down (R19, R282). -/
def linksDown (p : Part) (d : Dev) : Dev :=
  settleCommit p
    ((List.range p.links).foldl (fun d n => if (d.link n).st == .disabled || badPort d n then d else disableLink p d n) d)

/-- What the loss of REFCLK does to a running device (R19, R403): derived domains stop, links go down, the functions that need
the stopped domains are no longer ready, the level is written. -/
def loseRefclk (p : Part) (d : Dev) : Dev :=
  let d1 := { d with boot := { d.boot with refclkOk := false, clocks := d.boot.clocks &&& clocksLost } }
  let d2 := [4, 5, 6, 7, 8].foldl (fun d k => setReady d k false) (linksDown p d1)
  faultLevel d d2

/-- REFCLK_LOSS (R19). Before the clocks have started it only keeps start-up waiting (R482). -/
def execRefclkLoss (s : State) : Res :=
  lift s fun p d =>
    if !d.boot.refclkOk then d
    else if d.boot.rails && 8 ≤ d.boot.step then loseRefclk p d
    else { d with boot := { d.boot with refclkOk := false } }

/-- REFCLK_RESTORED (R421): REFCLK_LOST clears; the derived domains stay stopped. -/
def execRefclkRestored (s : State) : Res :=
  lift s fun _ d =>
    if d.boot.refclkOk || d.boot.step = 2 then d
    else
      let d1 := { d with boot := { d.boot with refclkOk := true } }
      if d.boot.rails && 8 ≤ d.boot.step then faultLevel d d1 else d1

/-- INPUT_OUT_OF_RANGE (R432, R477): INPUT_RANGE sets; before step 7 the start is abandoned. -/
def execInputOutOfRange (s : State) : Res :=
  lift s fun _ d =>
    if !d.boot.rails || !d.boot.vinOk then d
    else if d.boot.step < 8 then powerOff d false
    else faultLevel d { d with boot := { d.boot with vinOk := false } }

/-- INPUT_RANGE_RECOVERED (R477). -/
def execInputRangeRecovered (s : State) : Res :=
  lift s fun _ d =>
    if !d.boot.rails || d.boot.vinOk then d else faultLevel d { d with boot := { d.boot with vinOk := true } }

/-- INPUT_SHUTDOWN (R477): every rail off in order. The event of INPUT_RANGE comes before any shutdown threshold. -/
def execInputShutdown (s : State) : Res :=
  lift s fun _ d =>
    if !d.boot.rails then d
    else
      let d1 := if d.boot.vinOk && 8 ≤ d.boot.step then faultLevel d { d with boot := { d.boot with vinOk := false } } else d
      powerOff d1 false

/-- INPUT_RESTORED (R477): a new start after a shutdown by an input threshold. -/
def execInputRestored (s : State) : Res :=
  lift s fun p d => if d.boot.rails || d.boot.tripped || d.boot.vinOk then d else powerUpDev p d

/-- INPUT_POWER_CYCLE (R477): the input below 20 V for 100 ms; the next start follows R430. -/
def execInputPowerCycle (s : State) : Res := lift s fun _ d => powerOff d false

/-- The window of a rail in mV (R479). -/
def railWindow (rail : Nat) : Nat × Nat :=
  [(690, 830), (740, 880), (855, 945), (690, 830), (1140, 1260), (1045, 1155), (740, 880), (740, 880), (3000, 3600)].getD rail (0, 0)

/-- Every record on its way to the persistent tail is written: a shutdown that the power controller orders comes after its own record
(R464, R474). -/
def flushTail (d : Dev) : Dev :=
  let d1 := d.boot.tailWait.foldl putTail d
  { d1 with boot := { d1.boot with tailWait := [] } }

/-- RAIL_FAULT (R464, R474, R479): a rail has been outside its window for 10 µs; logged, then every rail off until a power cycle. -/
def execRailFault (rail mv : Nat) (s : State) : Res :=
  liftAt s (decide (rail < 9)) fun _ d =>
    if !d.boot.rails || (decide ((railWindow rail).1 ≤ mv) && decide (mv ≤ (railWindow rail).2)) then d
    else powerOff (flushTail (emit d 0xB003 stOK 0 false 0xB001 0 (dataUN 0 rail 0 0 mv 0 0))) true

/-! ### Heat (R464, R483) -/

/-- The hottest sensor, in 0.1 °C. -/
def hottest (d : Dev) : Int := (d.health.temps.map Prod.snd).foldl max 0

/-- THERMAL_TRIP (R474). -/
def thermalTrip (d : Dev) (sensor : Nat) (reading : Int) : Dev :=
  powerOff (flushTail (emit d 0xB004 stOK 0 false 0xB002 0 (dataUN 0 sensor 0 0 (ofSigned 64 reading) 0 0))) true

/-- A sensor's reading, in 0.1 °C (R464, R483): THERM_N asserts at 105 °C and is released below 102 °C; at 115 °C the device shuts
down. -/
def noteHeat (d : Dev) (sensor : Nat) (reading : Int) : Dev :=
  let d1 := { d with health := { d.health with temps := d.health.temps.set 0 sensor reading } }
  let h := hottest d1
  let hot := if 1050 ≤ h then true else if h < 1020 then false else d.health.thermal
  let d2 := faultLevel d { d1 with health := { d1.health with thermal := hot } }
  if 1150 ≤ h then thermalTrip d2 sensor reading else d2

/-- JUNCTION_TEMP_CROSS (R464, R483): a sensor's reading, of the 34 of the dies or of a stack that the part has (R10,
R473). What THERM_WARN changes shows at the throttle steps. -/
def execJunctionTempCross (sensor : Nat) (reading : Int) (s : State) : Res :=
  liftAt s (decide (sensor < 34 + s.part.stacks)) fun _ d => if !d.boot.rails then d else noteHeat d sensor reading

/-- Throttle level brought to the higher of what heat and phases call for (R464), each change written as THROTTLE. -/
def setThrottle (d : Dev) (cause hot short : Nat) : Dev :=
  let l := max hot short
  let d1 := { d with health := { d.health with hot := hot, short := short, throttle := l } }
  if l = d.health.throttle then d1
  else emit (d1.inc 0xB005 0 1) 0xB002 stOK 3 false 0xB003 0 (dataUN 0 0 0 cause l d.health.throttle 0)

/-- THERM_WARN (R473), an I16. -/
def thermWarn (d : Dev) : Int := toSigned 16 (d.rd 0xB004 0 0)

/-- THROTTLE_STEP (R464): every 1 ms. -/
def execThrottleStep (s : State) : Res :=
  lift s fun _ d =>
    if !d.runs domPower || d.boot.step < 8 then d
    else if thermWarn d ≤ hottest d then setThrottle d 1 (min 8 (d.health.hot + 1)) d.health.short
    else if hottest d < thermWarn d - 30 then setThrottle d 1 (d.health.hot - 1) d.health.short
    else d

/-- PHASE_FAILED (R463): the phase is disabled; a shortfall on VCORE or VSRAM throttles ARC by a level that the spec leaves
open (a free value). -/
def execPhaseFailed (rail phase : Nat) (s : State) : Res :=
  liftAt s (decide (rail < 9) && decide (phase < phasesFitted rail)) fun _ d =>
    if !d.runs domPower || (d.health.phases.get 0 rail).testBit phase then d
    else
      let d1 := ({ d with health := { d.health with phases := d.health.phases.set 0 rail (d.health.phases.get 0 rail + 2 ^ phase) } }).inc 0xB005 0 0
      let d2 := emit d1 0xB001 stOK 1 false 0xB001 0 (dataUN 0 rail phase 0 (phasesGood d1 rail) 0 0)
      if rail < 2 && phasesGood d2 rail < phasesNeeded rail then setThrottle d2.draw.2 2 d2.health.hot (d2.draw.1 % 9) else d2

/-- MGMT_FAILOVER (R464): the other core pair takes over; when that one mismatches too, a device reset. -/
def execMgmtFailover (pair : Nat) (s : State) : Res :=
  liftAt s (decide (pair < 2)) fun p d =>
    if !d.runs domMgmt || d.health.pairsFailed.testBit pair then d
    else if d.health.pairsFailed != 0 then ownReset p d
    else
      emit ({ d with health := { d.health with pairsFailed := 2 ^ pair } }.inc 0x9021 0 4) 0x9005 stOK 1 false 0x9021 0
        (dataUN 6 pair 0 0 0 0 0)

/-! ### PCIe and the field network (R454, R486) -/

/-- The PCIe link is down: DICT_PCIE falls. Slots, channels and BAR2 keep their contents; the function's MSI-X masks, which are the
controller's, are as after its reset (PRESUMED, log entry 133). -/
def pcieDown (d : Dev) : Dev :=
  setReady { d with boot := { d.boot with pcieUp := false }, evt := { d.evt with masks := 3, pend := 0 } } 0 false

/-- PERST_ASSERT (R486), or a function level reset. -/
def execPerstAssert (s : State) : Res :=
  lift s fun _ d => pcieDown { d with boot := { d.boot with perst := false } }

/-- PERST_RELEASE (R486): link training starts. -/
def execPerstRelease (s : State) : Res :=
  lift s fun _ d => { d with boot := { d.boot with perst := true } }

/-- PCIE_LINK_DOWN (R454). -/
def execPcieLinkDown (s : State) : Res := lift s fun _ d => pcieDown d

/-- FIELD_NETWORK_LINK_DOWN (R454). -/
def execFieldNetworkLinkDown (s : State) : Res :=
  lift s fun _ d => setReady { d with pace := { d.pace with ptp := { d.pace.ptp with port := .listening, sent := none } } } 1 false

end Sys2Proof.Machine
end

