-- ==== Sys2Proof/Machine/GroveFail.lean ====
section
/-! DEFINITION. Failure of a grove and its substitution (spec/18_faults_and_telemetry.md R455-R462,
spec/04_engines_and_groves.md R78, R99, R106). -/

namespace Sys2Proof.Machine

/-! ### Rebuilding frames (R458) -/

/-- A frame recombined from the held inputs of its combined set. -/
def rebuildFrame (o : Op) (f : AFrame) : AFrame :=
  f.from_.foldl (fun acc x =>
    match o.inputs.find? (fun h => h.used && h.c.kind ≤ 1 && h.c.chunk = f.chunk && h.c.stage = x.1 && h.c.src = x.2) with
    | none => acc
    | some h => match frameAdd o acc h.c with | .ok r => r.1 | .error _ => acc) (emptyFrame o f.chunk)

/-- FAULT_STATS (R473): 0 grove failures, 1 frames rebuilt, 2 residue mismatches, 3 stall detections. -/
def faultStat (d : Dev) (k : Nat) (n : Nat := 1) : Dev := if n = 0 then d else d.inc 0x9021 0 k n

/-- FRAME_REBUILT (R474). -/
def rebuiltEvent (d : Dev) (g coll n : Nat) : Dev :=
  if n = 0 then d else emit (faultStat d 1 n) 0x9003 stOK 7 false 0x9021 0 (dataUN 2 g 0 0 coll n 0)

/-- Frames of an operation in a grove's slots or in its own spill area rebuilt; how many. -/
def rebuildOp (g : Nat) (o : Op) : Op × Nat :=
  let inSlots := o.grove = some g
  let inSpill := o.spill = some g
  ({ o with frames := if inSlots then o.frames.map (rebuildFrame o) else o.frames,
            spilled := if inSpill then o.spilled.map (rebuildFrame o) else o.spilled },
    (if inSlots then o.frames.length else 0) + (if inSpill then o.spilled.length else 0))

/-- Every operation's frames in a grove rebuilt: the device and the frames rebuilt. -/
def rebuildAll (d : Dev) (g : Nat) : Dev × Nat :=
  d.colls.ops.foldl (fun acc o =>
    let r := rebuildOp g o
    (rebuiltEvent (putOp acc.1 r.1) g o.coll r.2, acc.2 + r.2)) (d, 0)

/-- The frame of an operation that uses an 8-byte word of one of its slots: the frames of a group of slots lie one behind the other
(R95). -/
def frameAtWord (o : Op) (slot word : Nat) : Nat :=
  let m := max 1 o.geom.2
  let k := (firstIx (· = slot) o.slots 0).getD 0
  k / m * o.geom.1 + (k % m * 262144 + word % 32768 * 8) / frameBytes o.desc o.inFmt.1 o.inFmt.2

/-- A failing word of a slot rewritten, and the frame that uses it rebuilt: one more in FAULT_STATS (R95, R458). -/
def rebuildSlot (d : Dev) (g slot word : Nat) : Dev :=
  match d.colls.ops.find? (fun o => o.grove = some g && o.slots.contains slot) with
  | none => d
  | some o =>
    let i := frameAtWord o slot word
    let fs := o.frames.zipIdx.map (fun x => if x.2 = i then rebuildFrame o x.1 else x.1)
    rebuiltEvent (putOp d { o with frames := fs }) g o.coll (if i < o.frames.length then 1 else 0)

/-! ### Operations on a failed grove -/

/-- Operations that a failed grove holds: its slots, or frames spilled to its memory. -/
def opsOn (d : Dev) (g : Nat) : List Op :=
  d.colls.ops.filter (fun o => (o.grove = some g && !o.slots.isEmpty) || (o.spill = some g && !o.spilled.isEmpty))

/-- Operations end CHECK_FAIL (R460, R461). -/
def abortOps (p : Part) (d : Dev) (os : List Op) : Dev :=
  os.foldl (fun d o => onOp p d o.job o.coll (reportAbort p stCheckFail)) d

/-- The work of a grove stops or goes on: its own steps, and the operations whose slots it holds. -/
def pauseGrove (d : Dev) (g : Nat) : Dev :=
  let d1 := d.setGrove g { d.grove g with paused := true }
  d.colls.ops.foldl (fun d o => if o.grove = some g && !o.paused then putOp d ({ o with paused := true }.mark [99]) else d) d1

/-- Something holds a grove: it waits for its substitute (R457), a save of its job is under way (R229), or its job waits for its
resume pace (R234). -/
def groveHeld (d : Dev) (g : Nat) : Bool :=
  d.spares.failed.any (fun x => x.g = g) || d.modes.saving.any (fun v => v.image.groves.any (fun x => x.1 = g))
    || (d.role g = 1 && d.pace.resumes.any (fun r => r.1 = d.groveJob g))

/-- A save of a job is under way, or the job waits for its resume pace (R229, R234). -/
def jobPaused (d : Dev) (job : Nat) : Bool := d.modes.saving.any (fun v => v.job = job) || d.pace.resumes.any (fun r => r.1 = job)

/-- A grove goes on unless something else holds it. -/
def unpause (d : Dev) (g : Nat) : Dev := d.setGrove g { d.grove g with paused := groveHeld d g }

def resumeGrove (p : Part) (d : Dev) (g : Nat) : Dev :=
  let d1 := unpause d g
  d1.colls.ops.foldl (fun d o =>
    if o.grove = some g && o.marked [99] then
      onOp p (putOp d { o with paused := jobPaused d o.job, lists := o.lists.filter (· != [99]) }) o.job o.coll (catchUp p)
    else d) d1

/-! ### Failure (R455, R457, R460, R461) -/

/-- GROVE_FAILED (R474). -/
def failedEvent (d : Dev) (g cause phys : Nat) : Dev :=
  emit d 0x9001 stCheckFail 1 false 0x9021 0 (dataUN 2 g 0 cause phys 0 0)

/-- A failed grove for which no spare is left (R461). -/
def loseFailed (p : Part) (d : Dev) (g : Nat) : Dev :=
  let d1 := loseGrove p (freeScales d g) g
  let d2 := d1.setGrove g { Grove.init with phase := .lost, haltRec := (d1.grove g).haltRec }
  let d3 := if d2.colls.target.map Prod.fst = some g then { d2 with colls := { d2.colls with target := none } } else d2
  settleCollectives p (abortOps p (d3.colls.ops.foldl (fun d o =>
    if o.marked [99] && o.grove = some g then putOp d { o with paused := false } else d) d3) (opsOn d g))

/-- The first failed grove in line begins its substitution (R99, R457, R460); groves without a spare are LOST. In fixed-cycle mode
all wait. -/
def beginSubst (p : Part) : Nat → Dev → Dev
  | 0, d => d
  | fuel + 1, d =>
    if d.inFcm then d
    else
      match d.spares.failed with
      | [] => d
      | x :: xs =>
        if x.spare.isSome then d
        else
          match pickSpare p d x.old with
          | some s => { d with spares := { d.spares with failed := { x with spare := some s } :: xs } }
          | none => beginSubst p fuel (loseFailed p { d with spares := { d.spares with failed := xs } } x.g)

/-- A failure put in line, ascending behind the one in progress. -/
def queueSubst (d : Dev) (x : Subst) : Dev :=
  let busy := d.spares.failed.filter (fun y => y.spare.isSome)
  let wait := d.spares.failed.filter (fun y => y.spare.isNone)
  { d with spares := { d.spares with failed := busy ++ insertBy Subst.g x wait } }

/-- What fixed-cycle mode does with a failure instead (R460): operations that hold slots on the grove end, those with only frames
spilled to its memory wait for its substitute. -/
def failInFcm (p : Part) (d : Dev) (g : Nat) : Dev :=
  if !d.inFcm then d else if d.role g = 1 then seqFault p d g 0x03 stCheckFail else abortOps p d (slotOps d g)

/-- A grove fails (R455). When it already waits for its substitute, the spare that was chosen has failed, and the next one is
taken. -/
def failGrove (p : Part) (d : Dev) (g cause : Nat) : Dev :=
  if (d.grove g).phase == .lost || !d.boot.readyGroves.testBit g then d
  else
    let d0 := if cause = 1 then faultStat (faultStat d 0) 2 else if cause = 5 then faultStat (faultStat d 0) 3 else faultStat d 0
    match d.spares.failed.find? (fun x => x.g = g) with
    | some x =>
      match x.spare with
      | none => d
      | some s =>
        let rest := d0.spares.failed.filter (fun y => y.g != g)
        let d1 : Dev := { d0 with spares := { d0.spares with retired := s :: d0.spares.retired, failed := { x with spare := none } :: rest } }
        beginSubst p 33 (failedEvent d1 g cause s)
    | none =>
      let phys := physOf d g
      let d1 : Dev := { d0 with spares := { d0.spares with retired := phys :: d0.spares.retired } }
      let d2 := pauseGrove (failInFcm p (failedEvent d1 g cause phys) g) g
      beginSubst p 33 (queueSubst d2 ⟨g, cause, phys, none⟩)

/-- GROVE_FAILED (R455): one of the failures of R462's causes. -/
def execGroveFailed (g cause : Nat) (s : State) : Res :=
  liftAt s (decide (g < s.part.groves) && decide (1 ≤ cause) && decide (cause ≤ 5)) fun p d =>
    if d.runs domArc then failGrove p d g cause else d

/-- GROVE_STALL_DETECT (R455): a READY context without a step, or an unexplained stall, for 2^20 cycles. -/
def execGroveStallDetect (g : Nat) (s : State) : Res :=
  liftAt s (decide (g < s.part.groves)) fun p d => if d.runs domArc then failGrove p d g 5 else d

/-- A word that is uncorrectable stays so until it is written whole, and its copy in a spare is stored as poison (R78, R459). A word
of an open context, of scratch, of grove memory or of instruction memory is marked itself; of a word elsewhere (registers,
flags, queues) the spec does not say which command reads it first: here it is the sequencer's next instruction or the next
command to open (DESIGN CHOICE, log entry 125). A DEVICE-role grove's spare is zeroed, so nothing of it is marked (R458). -/
def poisonWord (d : Dev) (g : Nat) (w : SramWhere) : Dev :=
  let gr := d.grove g
  if d.role g = 0 then d
  else
    match w with
    | .context e c => if (gr.ctx e c).st == .free then d else d.setGrove g { gr with ctxPoison := (e * 4096 + c) :: gr.ctxPoison }
    | .data e _ k scratch =>
      d.setGrove g (if scratch then { gr with scratchPoison := (e * 131072 + k % 131072) :: gr.scratchPoison } else { gr with poison := k :: gr.poison })
    | .imem k => d.setGrove g { gr with imemPoison := k % 65536 :: gr.imemPoison }
    | .frame .. => d
    | .other => d.setGrove g { gr with statePoison := true }
    | .corrected _ => d

/-- A context's command that met an uncorrectable word faults with ECC (R78, R143). -/
def eccContext (p : Part) (d : Dev) (g e c addr : Nat) : Dev :=
  if ((d.grove g).ctx e c).st == .free then d else ctxFault p d g e c 0x03 stCheckFail addr

/-- An uncorrectable word of a grove that works (R78, R143, R455, R458): `again` says that the same word failed within 1 s. -/
def badSram (p : Part) (d : Dev) (g : Nat) (w : SramWhere) (again : Bool) : Dev :=
  match w with
  | .imem _ => failGrove p (poisonWord d g w) g 3
  | .frame slot word =>
    if again then failGrove p d g 2
    else if d.role g = 0 then rebuildSlot d g slot word
    else seqFault p d g 0x03 stCheckFail
  | .context e c =>
    if again then failGrove p (poisonWord d g w) g 2 else if d.role g = 0 then failGrove p d g 4 else eccContext p d g e c 0
  | .data e c k _ =>
    if again then failGrove p (poisonWord d g w) g 2
    else if d.role g = 0 then failGrove p d g 4
    else eccContext p (poisonWord d g w) g e c (8 * k)
  | .other =>
    if again then failGrove p (poisonWord d g w) g 2
    else if d.role g = 0 then failGrove p d g 4
    else seqFault p (poisonWord d g w) g 0x03 stCheckFail
  | .corrected _ => d

/-- SRAM_UNCORRECTABLE (R78, R101, R455, R458, R459). Corrected errors are only counted, also of a grove that is held. In a failed
grove that waits for its substitute, an uncorrectable word is one that its copy carries as poison. -/
def execSramUncorrectable (g : Nat) (w : SramWhere) (again : Bool) (s : State) : Res :=
  liftAt s (decide (g < s.part.groves)) fun p d =>
    if !d.runs domArc || (d.grove g).phase == .lost then d
    else
      match w with
      | .corrected n => d.inc 0x4003 0 0 n
      | w => if d.spares.failed.any (fun x => x.g = g) then poisonWord d g w else badSram p d g w again

/-! ### Substitution (R457-R462) -/

/-- A SUBST_LOG record (R462). -/
def substRec (d : Dev) (x : Subst) (spare duration frames : Nat) : Nat :=
  pack [(0, 8, x.g), (8, 8, x.old), (16, 8, spare), (24, 8, x.cause), (32, 8, d.role x.g), (64, 64, d.pace.visible),
    (128, 32, duration), (160, 32, frames)]

/-- A DEVICE-role grove on its spare (R457, R458): memories zeroed, firmware loaded, frames rebuilt. -/
def restoreDevice (d : Dev) (g : Nat) : Dev × Nat :=
  let d1 := d.setGrove g { d.grove g with gmem := [], scratch := [], poison := [], scratchPoison := [], ctxPoison := [], statePoison := false }
  rebuildAll (loadFirmware d1 g) g

/-- Steps 3 to 5 of R457. -/
def finishSubst (p : Part) (d : Dev) (x : Subst) (spare duration : Nat) : Dev :=
  let d1 : Dev := { d with spares := { d.spares with phys := d.spares.phys.put x.g spare, failed := d.spares.failed.drop 1 } }
  let r := if d1.role x.g = 0 then restoreDevice d1 x.g else (d1, 0)
  let d2 := r.1.wrD 0 0x4001 1 0 (min (2 ^ 32 - 1) (r.1.rdD 0 0x4001 1 0 + 1))
  let d3 := resumeGrove p d2 x.g
  let d4 : Dev := { d3 with spares := { d3.spares with log := (substRec d3 x spare duration r.2 :: d3.spares.log).take 64 } }
  let d5 := settleColl p (d4.colls.ops.length + 1) d4
  beginSubst p 33 (emit d5 0x9002 stOK 1 false 0x9020 0 (dataUN 2 x.g 0 0 x.old spare duration))

/-- GROVE_SUBSTITUTED (R457): `duration` in ns. -/
def execGroveSubstituted (g duration : Nat) (s : State) : Res :=
  liftAt s (decide (g < s.part.groves)) fun p d =>
    match d.spares.failed with
    | [] => d
    | x :: _ =>
      match x.spare with
      | some k => if x.g = g && d.runs domArc && !d.inFcm then finishSubst p d x k duration else d
      | none => d

end Sys2Proof.Machine
end

