-- ==== Sys2Proof/Machine/Modes.lean ====
section
/-! DEFINITION. Fixed-cycle mode, checkpoints and restores (spec/08_determinism_contract.md R222-R236,
spec/09_buffers_and_slots.md R262, spec/11_scheduling.md R312). -/

/-- The bytes of an image's body: the spec lists what an image holds and gives the body no layout (R230). -/
opaque Sys2Proof.Config.ckptBody : Sys2Proof.Machine.Image → List Sys2Proof.Byte

/-- What a body that this device did not write holds (R230, R233). -/
opaque Sys2Proof.Config.ckptDecode : List Sys2Proof.Byte → Sys2Proof.Machine.Image

namespace Sys2Proof.Machine

/-! ### Fixed-cycle mode (R222-R226) -/

/-- FCM_STATE brought to a value, as a level (R226). -/
def setFcm (d : Dev) (v : Nat) : Dev :=
  emitLevel { d with modes := { d.modes with fcm := v } } 3 0x8400 1 0xFFFFFFFF v d.modes.fcm

/-- FCM_EXACT brought to a value, as a level. -/
def setExact (d : Dev) (b : Bool) : Dev :=
  emitLevel { d with modes := { d.modes with fcmExact := b } } 3 0x8400 2 0xFFFFFFFF (b2n b) (b2n d.modes.fcmExact)

/-- Requests held for an entry go on, in their order (R223), those of a slot also while the PCIe link is down (R486). -/
def releaseHeld (p : Part) (d : Dev) : Dev :=
  d.modes.held.foldl (fun d i =>
    match i with
    | .collSubmit rq desc => serveTaken d rq (Call.write 0x5000 0 desc) (submitAct p rq desc)
    | .collSubmitFrame via row col acn desc => submitFrame p d via row col acn desc
    | .groveCtrlStart rq g bank => serveTaken d rq (startCall g bank) (startAct p g bank)
    | _ => d) { d with modes := { d.modes with held := [] } }

/-- The 16 bytes of FCM_CTRL (R226). -/
def fcmCtrlBytes (op target : Nat) : List Byte := toBytes 8 target ++ toBytes 1 op ++ List.replicate 7 0

/-- The lowest free schedule entry taken for an action of the device, or TABLE_FULL (R381). -/
def takeEntrySched (d : Dev) (rec : Nat) (f : Dev → Dev) : Dev × Nat :=
  match schedFree d with
  | none => refuse d stTableFull
  | some i => accept (f (putSched d i rec))

/-- Op 1 (R223). -/
def fcmEnterRule (target : Nat) (d : Dev) : Dev × Nat :=
  if d.modes.fcm != 0 then refuse d stNotReady else takeEntrySched d (mkSched 7 target 0 1 true) (fun d => setFcm d 1)

/-- Op 2 (R223). -/
def fcmLeaveRule (p : Part) (target : Nat) (d : Dev) : Dev × Nat :=
  if d.modes.fcm = 1 then
    let d1 := (schedWhere d (fun v => schedAction v = 7)).foldl (fun d i => putSched d i 0) d
    accept (releaseHeld p (setFcm d1 0))
  else if d.modes.fcm = 2 then takeEntrySched d (mkSched 7 target 0 2 true) (fun d => setFcm d 3)
  else refuse d stNotReady

/-- FCM_CTRL op 1 (R223). -/
def execFcmEnter (rq : Rq) (target : Nat) (s : State) : Res :=
  lift s fun _ d => serveWrite d rq 0x8400 0 (fcmCtrlBytes 1 target) (fcmEnterRule (target % 2 ^ 64))

/-- FCM_CTRL op 2 (R223). -/
def execFcmLeave (rq : Rq) (target : Nat) (s : State) : Res :=
  lift s fun p d => serveWrite d rq 0x8400 0 (fcmCtrlBytes 2 target) (fcmLeaveRule p (target % 2 ^ 64))

/-- What refuses entry at the boundary (R223). -/
def fcmBlocked (p : Part) (d : Dev) : Bool :=
  (List.range p.groves).any (fun g => d.role g = 1 && (d.grove g).phase == .running)
    || d.colls.ops.any Op.admitted
    || (List.range p.links).any (fun n => isEthernet d n && (d.link n).st != .disabled && (d.link n).st != .failed)

/-- Slots scanned at a clean boundary (R222, R262): due yields first, then admissions in ascending (JOB, COLL) order. -/
def fcmBoundary (p : Part) (d : Dev) : Dev :=
  let d1 := d.colls.ops.foldl (fun d o => match findOp d o.job o.coll with | some x => yieldDue p d x | none => d) d
  let out := d1.colls.ops.filter (fun o => o.waiting && d.colls.ops.any (fun x => x.is o.job o.coll && !x.waiting))
  let d2 := settleColl p (d1.colls.ops.length + 1) (scanSlots p d1)
  out.foldl (fun d o => noteWait d o.job o.coll) d2

/-- Every bucket stands at what it holds now, and no queue is promoted: in fixed-cycle mode neither changes (R312). -/
def holdScheds (p : Part) (d : Dev) : Dev :=
  (List.range p.links).foldl (fun d n =>
    (List.range 16).foldl (fun d q => d.setEq n q { d.eq n q with debt := bucketDebt d n q, debtAt := d.tick })
      (d.setSched n { d.sched n with promoted := none })) d

/-- Entry at a clean boundary (R223, R226). -/
def fcmEntryAt (p : Part) (d : Dev) : Dev × Nat :=
  if fcmBlocked p d then (releaseHeld p (setFcm d 0), stNotReady)
  else
    let m := { d.modes with fcmEntry := d.cycle, fcmPeriod := d.rd 0x8401 1 0, fcmWindow := d.rd 0x8401 2 0, fcmLead := d.rd 0x8401 3 0,
                            fcmSlots := (List.range p.links).map (fun n => (n, d.rd 0x8401 0 n)) }
    accept (releaseHeld p (setExact (setFcm (holdScheds p { d with modes := m }) 2) true))

/-- V, every tag and every bucket of every link (R312). -/
def resetScheds (p : Part) (d : Dev) : Dev :=
  (List.range p.links).foldl (fun d n =>
    (List.range 16).foldl (fun d q =>
      let e := d.eq n q
      d.setEq n q { e with debt := 0, debtAt := d.tick }) (clearTags d n)) d

/-- Leaving at a clean boundary (R223, R312, R460): what waited for the boundary goes on. -/
def fcmExitAt (p : Part) (d : Dev) : Dev × Nat :=
  let d1 := resetScheds p (setFcm (setExact d false) 0)
  accept (settleColl p (d1.colls.ops.length + 1) (beginSubst p 33 d1))

/-- The FCM action at its edge (R380). -/
def fireFcm (p : Part) (op : Nat) (d : Dev) : Dev × Nat :=
  if op = 1 then (if d.modes.fcm = 1 then fcmEntryAt p d else refuse d stNotReady)
  else if d.modes.fcm = 3 then fcmExitAt p d else refuse d stNotReady

/-! ### Images (R230-R232, R236) -/

/-- The groves of a job (R105, R229). -/
def jobGroves (p : Part) (d : Dev) (job : Nat) : List Nat :=
  (List.range p.groves).filter (fun g => d.role g = 1 && d.groveJob g = job)

/-- A context as an image holds it: at a step boundary, a step whose reads were in flight not done (R144, R229). The image has no
place for how long it has been READY (R88, R230). -/
def savedCtx (gr : Grove) (x : Ctx) : Ctx :=
  { x with st := if x.st == .waitData then (if gr.steps x.cmd ≤ x.steps then .waitWrite else .ready) else x.st,
           lines := [], whole := false, holds := [], since := 0 }

/-- A grove as an image holds it. -/
def savedGrove (gr : Grove) : Grove :=
  { gr with ctxs := gr.ctxs.map (fun x => (x.1, savedCtx gr x.2)), reqs := [], paused := false, writing := [] }

/-- The image of a job at a boundary of pace `w`. -/
def takeImage (p : Part) (d : Dev) (job w : Nat) : Image :=
  { valid := true, status := stOK, seq := d.modes.seq + 1, job := job, pace := w, acn := d.jobAcn job, stepping := p.step, row := d.row,
    col := d.col, plane := d.plane, grovesEnabled := p.groves,
    groves := (jobGroves p d job).map (fun g => (g, savedGrove (d.grove g))),
    ops := d.colls.ops.filter (fun o => o.job = job && o.admitted),
    hists := (d.modes.named.filter (fun x => x.1 = job)).map (fun x => (x.2, (d.ctx x.2).hist)),
    routes := d.colls.routes.filter (fun r => r.job = job), body := [] }

/-- GROVE_MASK. -/
def Image.mask (im : Image) : Nat := (im.groves.map (fun x => 2 ^ x.1)).sum

/-- The 128-byte header (R232). -/
def Image.header (im : Image) : Nat :=
  pack [(336, 8, im.grovesEnabled), (344, 8, im.plane), (352, 8, im.col), (360, 8, im.row), (368, 8, im.stepping), (376, 8, im.acn),
    (384, 16, 1), (400, 16, im.ops.length), (416, 32, im.mask), (448, 32, im.seq), (480, 32, im.job), (512, 64, im.pace),
    (576, 64, im.body.length), (640, 384, Config.sha384 im.body)]

/-- The image slots (R236). -/
def ckptRegion (d : Dev) : Nat := d.rd 0x8500 0 0
def ckptSlotBytes (d : Dev) : Nat := d.rd 0x8500 1 0 * 2 ^ 30
def ckptSlot (d : Dev) (k : Nat) : Nat := ckptRegion d + k * ckptSlotBytes d
def imageAt (d : Dev) (k : Nat) : Image := d.modes.images.get Image.none k

/-- The slot that does not hold the newest valid image (R236). -/
def idleSlot (d : Dev) : Nat :=
  let a := imageAt d 0
  let b := imageAt d 1
  if a.valid && (!b.valid || b.seq < a.seq) then 1 else 0

/-- A CKPT_STATUS record (R236). -/
def Image.statusRec (im : Image) : Nat :=
  pack [(0, 8, b2n im.valid), (8, 8, im.status), (32, 32, im.seq), (64, 32, im.job), (128, 64, im.pace), (192, 64, im.body.length)]

/-- A checkpoint that takes no image: the idle slot's status (R229, R236). -/
def ckptRefused (d : Dev) (st : Nat) : Dev :=
  { d with modes := { d.modes with images := d.modes.images.set Image.none (idleSlot d) { imageAt d (idleSlot d) with status := st } } }

/-! ### Taking a checkpoint (R229) -/

/-- Nothing of the job forbids an image. -/
def ckptReady (p : Part) (d : Dev) (job : Nat) : Bool :=
  (d.jobRec job).isSome && ckptRegion d != 0 && d.works 4
    && (jobGroves p d job).all (fun g => (d.grove g).phase != .halted && (d.grove g).phase != .lost)
    && !d.colls.ops.any (fun o => o.job = job && o.phase = 4)

/-- A grove of a job stops where it stands. -/
def holdGrove (d : Dev) (g : Nat) : Dev := d.setGrove g { d.grove g with paused := true }

/-- The CHECKPOINT action at its boundary (R229). -/
def fireCheckpoint (p : Part) (job w : Nat) (stop : Bool) (d : Dev) : Dev × Nat :=
  if !ckptReady p d job then (ckptRefused d stNotReady, stNotReady)
  else
    let im := takeImage p d job w
    let d1 := (jobGroves p d job).foldl holdGrove { d with modes := { d.modes with seq := im.seq, saving := d.modes.saving ++ [⟨job, stop, im⟩] } }
    accept (d1.colls.ops.foldl (fun d o => if o.job = job && o.admitted then putOp d { o with paused := true } else d) d1)

/-- A grove of a job goes on after its save, or halts with HALT_REQUESTED (R144, R229). -/
def freeGrove (p : Part) (stop : Bool) (d : Dev) (g : Nat) : Dev :=
  let d1 := if stop && (d.grove g).phase == .running then seqFault p d g 0x0C stOK else d
  unpause d1 g

/-- Operations of a job go on. -/
def freeOps (p : Part) (d : Dev) (job : Nat) : Dev :=
  d.colls.ops.foldl (fun d o =>
    if o.job = job && o.paused && !o.marked [99] then
      onOp p (putOp d { o with paused := false }) o.job o.coll (fun x => catchUp p x)
    else d) d

/-- The image in its slot: header and body in device memory, the slot's record, the count (R229, R232, R236). What the bytes of
its body stand for is kept for good, so that a copy of them restores it wherever it has been (log entry 101). -/
def storeImage (p : Part) (d : Dev) (im : Image) : Dev :=
  let k := idleSlot d
  let d1 := writeArea p d (ckptSlot d k) (toBytes 128 im.header ++ im.body)
  { d1 with modes := { d1.modes with images := d1.modes.images.set Image.none k im,
                                     written := im :: d1.modes.written } }.inc 0x8500 5 0

/-- An image at the end of its save: the steps in flight at the boundary have ended as at a halt, and their atomics' results stand
in it (R144, R229); the flags are those of the boundary. -/
def settledImage (d : Dev) (im : Image) : Image :=
  { im with groves := im.groves.map (fun x => (x.1, { savedGrove (d.grove x.1) with flags := x.2.flags, phase := x.2.phase })) }

/-- A write or an atomic of a saved grove has not been answered: the steps that wait for them end before the save does (R144,
R229). -/
def stepsOut (d : Dev) (im : Image) : Bool :=
  im.groves.any (fun x => (d.grove x.1).reqs.any (fun r => r.e != 16 && r.req.op != 1))

/-- The ranges of device memory that a save reads for an image: histories, route tables, spilled frames (R230, R356). -/
def savedRanges (p : Part) (d : Dev) (im : Image) : List (Nat × Nat) :=
  im.hists.map (fun h => histRange p d h.1) ++ im.routes.map (routeRange p d)
    ++ (im.ops.filter (fun o => o.spill = some 255 && !o.spilled.isEmpty)).map (fun o => (areaBase p d 2 + o.spillAt, spillBytes o.spilled))

/-- The end of a save that met poison, reading what the image takes in or writing part of a word (R356). -/
def saveFailed (p : Part) (d : Dev) (a : Nat) : Dev := ckptRefused (poisonEvent p d a 3 0) stCheckFail

/-- The end of a save. A grove that has been LOST or has faulted since the boundary leaves no image, as R229 says of one that stands
so at the boundary (DESIGN CHOICE, log entry 126). -/
def endSave (p : Part) (d : Dev) (v : Saving) : Dev :=
  let im0 := settledImage d v.image
  let im := { im0 with body := Config.ckptBody im0 }
  let fits := 128 + im.body.length ≤ ckptSlotBytes d && ckptSlot d (idleSlot d) + ckptSlotBytes d ≤ memSize p d
  let lost := v.image.groves.any (fun x => (d.grove x.1).phase == .lost || ((d.grove x.1).phase == .halted && x.2.phase != .halted))
  let at_ := ckptSlot d (idleSlot d)
  let y := checkReads p d (savedRanges p d v.image)
  let d1 := if lost then ckptRefused d stNotReady
    else match y.2 with
      | some a => saveFailed p y.1 a
      | none =>
        if !fits then ckptRefused y.1 stTableFull
        else if writePoison p y.1 at_ (128 + im.body.length) then saveFailed p y.1 (poisonSpot p y.1 at_ (128 + im.body.length))
        else storeImage p y.1 im
  let d2 := (v.image.groves.map Prod.fst).foldl (freeGrove p v.stop) d1
  if v.stop then d2 else freeOps p d2 v.job

/-- CHECKPOINT_SAVED (R229): the oldest save ends, once no substitution is in progress and every write and atomic in flight has been
answered. -/
def execCheckpointSaved (job : Nat) (s : State) : Res :=
  lift s fun p d =>
    match d.modes.saving with
    | [] => d
    | v :: vs =>
      if v.job != job || !d.runs domArc || (!d.inFcm && !d.spares.failed.isEmpty) || stepsOut d v.image then d
      else endSave p { d with modes := { d.modes with saving := vs } } v

/-- The 16 bytes of CKPT_CTRL (R236). -/
def ckptCtrlBytes (job op target : Nat) : List Byte := toBytes 4 job ++ toBytes 1 op ++ List.replicate 3 0 ++ toBytes 8 target

/-- CKPT_CTRL's rule (R229, R381). -/
def ckptRule (job op target : Nat) (d : Dev) : Dev × Nat :=
  if (d.jobRec job).isNone then refuse d stBadField else takeEntrySched d (mkSched 8 target job op false) id

/-- CKPT_CTRL op 1 (R229). -/
def execCkptCheckpoint (rq : Rq) (job target : Nat) (s : State) : Res :=
  lift s fun _ d => serveWrite d rq 0x8500 2 (ckptCtrlBytes job 1 target) (ckptRule (job % 2 ^ 32) 1 (target % 2 ^ 64))

/-- CKPT_CTRL op 2 (R229). -/
def execCkptCheckpointStop (rq : Rq) (job target : Nat) (s : State) : Res :=
  lift s fun _ d => serveWrite d rq 0x8500 2 (ckptCtrlBytes job 2 target) (ckptRule (job % 2 ^ 32) 2 (target % 2 ^ 64))

/-! ### Restoring (R233, R234) -/

/-- Where the image of a source lies (R236). -/
def restoreOff (d : Dev) (source off : Nat) : Nat := if source = 2 then off else ckptSlot d source

/-- A header field in device memory. -/
def headerAt (d : Dev) (a : Nat) : Nat := d.mem.mem.readNat 0#8 a 128

/-- The body that a header announces. -/
def bodyAt (d : Dev) (a : Nat) : List Byte := d.mem.mem.readN 0#8 (a + 128) (bits (headerAt d a) 576 64)

/-- What a body holds: the image this device wrote with those bytes, or, for another device's, what its bytes say. The groves are
those of the header's GROVE_MASK, which R233 has tested. -/
def imageOf (d : Dev) (a : Nat) : Image :=
  let body := bodyAt d a
  let im := match d.modes.written.find? (fun im => im.body = body) with
    | some im => im
    | none => Config.ckptDecode body
  { im with groves := im.groves.filter (fun x => decide (x.1 < 32) && (headerAt d a).testBit (416 + x.1)) }

/-- The range that a restore reads, when it has one (R236). -/
def restoreRanges (p : Part) (d : Dev) (source off : Nat) : List (Nat × Nat) :=
  let a := restoreOff d source off
  let n := 128 + bits (headerAt d a) 576 64
  if 2 < source || (source != 2 && ckptRegion d = 0) || !d.works 4 || memSize p d < a + 128 then []
  else if memSize p d < a + n then [(a, 128)] else [(a, n)]

/-- The status of a restore (R233, R236); `bad` says that the image met poison (R356). -/
def restoreStatus (p : Part) (d : Dev) (bad : Bool) (job source off : Nat) : Nat :=
  let a := restoreOff d source off
  let h := headerAt d a
  let len := bits h 576 64
  let gs := (List.range 32).filter (fun g => h.testBit (416 + g))
  if 2 < source || (d.jobRec job).isNone then stBadField
  else if (source != 2 && ckptRegion d = 0) || !d.works 4 then stNotReady
  else if memSize p d < a + 128 then stBadPointer
  else if bits h 384 16 != 1 || bits h 0 336 != 0 then stBadField
  else if memSize p d < a + 128 + len then stBadPointer
  else if bad || Config.sha384 (bodyAt d a) != bits h 640 384 then stCheckFail
  else if !(p.acnSet).testBit (bits h 376 8) || bits h 376 8 != d.jobAcn job then stAcnUnsupported
  else if bits h 400 16 != 0 && (bits h 360 8 != d.row || bits h 352 8 != d.col || bits h 344 8 != d.plane) then stBadField
  else if gs.any (fun g => p.groves ≤ g || d.role g != 1 || d.groveJob g != job) then stBadField
  else if gs.any (fun g => (d.grove g).phase != .idle) || d.colls.ops.any (fun o => o.job = job && o.admitted) then stNotReady
  else stOK

/-- The scaling contexts that a grove's commands hold are busy again (R46, R235). -/
def holdScales (d : Dev) (gr : Grove) : Dev :=
  gr.open_.foldl (fun d x => match x.xscale with
    | some _ => d.setCtx (cvCtx (gr.cvt x.cmd)) { d.ctx (cvCtx (gr.cvt x.cmd)) with busy := true }
    | none => d) d

/-- A saved grove put back, held until the resume pace. Its READY contexts have been READY since the restore, all alike, so that they
go on in the order of their numbers, and its waits begin anew (DESIGN CHOICE, log entry 126). -/
def restoreGrove (d : Dev) (x : Nat × Grove) : Dev :=
  let ctxs := x.2.ctxs.map (fun y => (y.1, { y.2 with since := d.cycle }))
  let d1 := setPhase (d.setGrove x.1 { x.2 with phase := (d.grove x.1).phase, paused := true, ctxs := ctxs, waitsAt := [] }) x.1 x.2.phase
  (List.range 16).foldl (fun d e => raiseMark d (1000 + 16 * x.1 + e) (ctxInUse x.2 e)) (holdScales d1 x.2)

/-- Held chunks of a restored operation take cells again. -/
def restoreHeld (p : Part) (o : Op) (acc : Dev × List HeldIn) (h : HeldIn) : Dev × List HeldIn :=
  match holdChunk p acc.1 o h.c with
  | some (cells, d) => (d, acc.2 ++ [{ h with c := { h.c with job := o.job }, cells := cells, holder := opHolder p acc.1 o }])
  | none => (acc.1, acc.2 ++ [{ h with c := { h.c with job := o.job }, cells := [] }])

def restoreOut (p : Part) (o : Op) (acc : Dev × List HeldOut) (h : HeldOut) : Dev × List HeldOut :=
  match holdChunk p acc.1 o { h.c with via := .own } with
  | some (cells, d) => (d, acc.2 ++ [{ h with c := { h.c with job := o.job }, cells := cells, holder := opHolder p acc.1 o }])
  | none => (acc.1, acc.2 ++ [{ h with c := { h.c with job := o.job }, cells := [] }])

/-- A saved operation put back for a job: its frames wait as state images for slots, and it waits for the resume pace. -/
def restoreOp (p : Part) (job : Nat) (d : Dev) (o : Op) : Dev :=
  let o1 := { o with job := job, grove := none, slots := [], fromReserve := [], frames := [], spilled := o.frames ++ o.spilled,
                     spill := if (o.frames ++ o.spilled).isEmpty then none else some 255, waiting := claims o.opc,
                     ticket := d.colls.ticketNext, aged := false, quantum := 0, paused := true, inputs := [], outs := [],
                     lists := o.lists.filter (· != [99]) }
  let r := o.inputs.foldl (restoreHeld p o1) (d, [])
  let s0 := o.outs.foldl (restoreOut p o1) (r.1, [])
  let s : Dev × List HeldOut := match o.scale with | some (n, _) => (s0.1.setCtx n { s0.1.ctx n with busy := true }, s0.2) | none => s0
  { s.1 with colls := { s.1.colls with ops := s.1.colls.ops ++ [{ o1 with inputs := r.2, outs := s.2 }], ticketNext := s.1.colls.ticketNext + 1 } }

/-- An image loaded for a job. -/
def restoreImage (p : Part) (d : Dev) (im : Image) (job resume : Nat) : Dev :=
  let d1 := im.groves.foldl restoreGrove d
  let d2 := im.ops.foldl (restoreOp p job) d1
  let d3 := im.hists.foldl (fun (d : Dev) h => noteNamed (d.setCtx h.1 { d.ctx h.1 with hist := h.2 }) job h.1) d2
  let rs := im.routes.map (fun (r : RouteTab) => { r with job := job })
  { d3 with colls := { d3.colls with routes := d3.colls.routes.filter (fun r => r.job != job) ++ rs },
            pace := { d3.pace with resumes := d3.pace.resumes ++ [(job, resume)] } }

/-- CKPT_RESTORE's rule. -/
def ckptRestoreRule (p : Part) (job source off resume : Nat) (d : Dev) : Dev × Nat :=
  let y := checkReads p d (restoreRanges p d source off)
  let d1 := match y.2 with | some a => poisonEvent p y.1 a 3 0 | none => y.1
  let st := restoreStatus p d1 y.2.isSome job source off
  if st != stOK then refuse d1 st
  else accept (restoreImage p d1 (imageOf d1 (restoreOff d1 source off)) job resume)

/-- CKPT_RESTORE (R233). -/
def execCkptRestore (rq : Rq) (job source off resume : Nat) (s : State) : Res :=
  lift s fun p d => serveWrite d rq 0x8500 4
    (toBytes 4 job ++ toBytes 1 source ++ List.replicate 3 0 ++ toBytes 8 off ++ toBytes 8 resume ++ List.replicate 8 0)
    (ckptRestoreRule p (job % 2 ^ 32) (source % 256) (off % 2 ^ 64) (resume % 2 ^ 64))

/-! ### Resuming (R234) -/

/-- Chunks of DATA that an operation takes from a stream of `n` bytes. -/
def streamChunks (n : Nat) : List (Nat × Nat) := (List.range (ceilDiv n 4096)).map (fun k => (k, 0))

/-- The DATA chunks, as index and destination, that an operation needs from an own member. -/
def neededData (d : Dev) (o : Op) (i : Nat) : List (Nat × Nat) :=
  let all := (List.range o.chunks).map (fun k => (k, 0))
  let t := (tokensOf o i).getD 0
  match o.opc with
  | 5 => if i = o.memberOf (dscRoot o.desc) then all else []
  | 6 => (List.range o.m).flatMap (fun j => (List.range o.chunks).map (fun k => (k, j)))
  | 7 => (o.counts.filter (fun c => c.1 = i)).flatMap (fun c => (List.range (ceilDiv c.2.2 o.epc)).map (fun k => (k, c.2.1)))
  | 8 => [(0, 0)]
  | 0x10 => if (tokensOf o i).isNone then [] else streamChunks (scoreBytes o t + t * rowBytes o)
  | 0x11 =>
    match findRoute d o.job (bits o.opx 32 32) with
    | some r => streamChunks ((r.rows.filter (fun c => tableHost r c.expert = i)).length * rowBytes o)
    | none => []
  | 0x12 => streamChunks (t * ixBytes o)
  | 0x13 => streamChunks (4 * o.count)
  | 0x14 => (List.range (ceilDiv o.count (4096 / max 1 (keyBytes (bits o.opx 50 4))))).map (fun k => (k, 0))
  | _ => all

/-- RESEND to an own member's endpoint for every DATA chunk with no record here. -/
def askData (p : Part) (x : Run) (i : Nat) : Run :=
  let miss := (neededData x.1 x.2 i).filter (fun k => !x.2.seen.contains [0, k.1, 0, i, k.2])
  let ps := match x.2.members[i]? with | some m => [m.pset] | none => []
  ((miss.map Prod.snd).eraseDups).foldl (fun (x : Run) j =>
    let ix := (miss.filter (fun k => k.2 = j)).map Prod.fst
    (chunksOf 256 ix.length ix).foldl (fun (x : Run) b =>
      (sendCtl p x.1 x.2 6 0 0 i j (b.flatMap (toBytes 4)) ps, x.2)) x) x

/-- A held output sent again to each member device that has not acknowledged it. -/
def resendOut (p : Part) (x : Run) (h : HeldOut) : Run :=
  ((sendChunk p x.1 x.2 h.c (h.waiting.filter (fun w => decide (2 ^ 20 ≤ w))) none).1, x.2)

/-- A restored job goes on (R234). -/
def resumeJob (p : Part) (d : Dev) (job : Nat) : Dev :=
  let d1 := (jobGroves p d job).foldl (freeGrove p false) d
  let d2 := freeOps p d1 job
  d2.colls.ops.foldl (fun d o =>
    if o.job = job && o.admitted then onOp p d o.job o.coll (fun x => (x.2.here x.1).foldl (askData p) (x.2.outs.foldl (resendOut p) x)) else d) d2

end Sys2Proof.Machine
end

