-- ==== Sys2Proof/Machine/Reads.lean ====
section
/-! DEFINITION. Reads that change what they read: marks that rearm and queues that drain (spec/04_engines_and_groves.md R101,
spec/09_buffers_and_slots.md R248, spec/10_ports_and_links.md R296, R297, spec/11_scheduling.md R311, spec/18_faults_and_telemetry.md R468). -/

namespace Sys2Proof.Machine

/-- Bytes that a READ of a value of `total` bytes returns (R394, R399, R405). -/
def returned (path : Path) (off len total : Nat) : Nat :=
  let most := match path with | .slot _ => 8128 | .peer _ => 1024
  min (min len most) (total - off)

/-- The records of `w` bytes that a READ touches. -/
def touched (path : Path) (off len w n : Nat) : List Nat :=
  let k := returned path off len (w * n)
  if k = 0 then [] else (List.range ((off + k - 1) / w - off / w + 1)).map (· + off / w)

/-- A READ of a table of `n` records of `w` bytes: OFFSET and LENGTH are whole records (R397), and the records that it touches are
rearmed. -/
def tableRead (path : Path) (off len w n : Nat) (rec : Dev → Nat → Nat) (rearm : Dev → Nat → Dev) : Act := fun _ d =>
  if off % w != 0 || len % w != 0 then (d, some (Rsp.st stBadField))
  else
    let value := (List.range n).flatMap (fun k => toBytes w (rec d k))
    ((touched path off len w n).foldl rearm d, some (Rsp.bytes path off len value))

/-- A queue's record of QHWM (R311, R315): the marks with what stands now. -/
def qhwmRec (d : Dev) (n q : Nat) : Nat :=
  let x := d.eq n q
  pack [(0, 32, max x.depthMark x.charged), (64, 64, max x.ageMark (headAge d x))]

/-- A link's 16 records of QHWM. -/
def qhwmLink (d : Dev) (n : Nat) : Nat := packList 128 ((List.range 16).map (qhwmRec d n))

/-- A link's marks rearmed (R311). -/
def rearmLink (d : Dev) (n : Nat) : Dev :=
  (List.range 16).foldl (fun d q =>
    let x := d.eq n q
    d.setEq n q { x with depthMark := x.charged, ageMark := headAge d x }) d

/-- QHWM as it is read (R311). -/
def qhwmAct (path : Path) (off len : Nat) : Act := tableRead path off len 256 128 qhwmLink rearmLink

/-- QHWM_READ (R311). -/
def execQhwmRead (rq : Rq) (off len : Nat) (s : State) : Res :=
  lift s fun _ d => serve d rq (Call.read 0x3102 1 off len) (qhwmAct rq.path off len)

/-- BUF_FREE_LWM as it is read (R248). -/
def lwmAct (path : Path) (off len : Nat) : Act := fun _ d =>
  (if returned path off len 4 = 0 then d else { d with buf := { d.buf with lwm := bufFree d } },
    some (Rsp.bytes path off len (toBytes 4 (min d.buf.lwm (bufFree d)))))

/-- BUF_FREE_LWM_READ (R248). -/
def execBufFreeLwmRead (rq : Rq) (s : State) : Res :=
  lift s fun _ d => serve d rq (Call.read 0x3000 2 0 4) (lwmAct rq.path 0 4)

/-- CTX_IN_USE of logical engine `k` (R101). -/
def ctxNow (d : Dev) (k : Nat) : Nat := ctxInUse (d.grove (k / 16)) (k % 16)

/-- CTX_IN_USE_HWM as it is read (R101). -/
def ctxHwmAct (p : Part) (path : Path) (off len : Nat) : Act :=
  tableRead path off len 2 (16 * p.groves) (fun d k => max (d.marks.get 0 (1000 + k)) (ctxNow d k))
    (fun d k => { d with marks := d.marks.set 0 (1000 + k) (ctxNow d k) })

/-- CTX_IN_USE_HWM_READ (R101). -/
def execCtxInUseHwmRead (rq : Rq) (off len : Nat) (s : State) : Res :=
  lift s fun p d => serve d rq (Call.read 0x4002 1 off len) (ctxHwmAct p rq.path off len)

/-- The clock domain of a timing site (R468). -/
def siteDomain (k : Nat) : Nat := if k < 60 then domArc else domMgmt

/-- A MARGIN_TIMING record (R468): site, slack and lowest slack of a clock domain; all 0
before the sampler first ran (mark 1). -/
def timingRec (d : Dev) (k : Nat) : Nat :=
  let now := d.health.slack.get 0 k
  let low := min (d.health.slackLow.get 0 k) now
  if d.marks.get 0 1 = 0 then 0 else pack [(0, 8, siteDomain k), (8, 8, k), (16, 16, ofSigned 16 now), (32, 16, ofSigned 16 low)]

/-- MARGIN_TIMING as it is read (R468). -/
def timingAct (path : Path) (off len : Nat) : Act :=
  tableRead path off len 8 64 timingRec
    (fun d k => { d with health := { d.health with slackLow := d.health.slackLow.set 0 k (d.health.slack.get 0 k) } })

/-- MARGIN_TIMING_READ (R468). -/
def execMarginTimingRead (rq : Rq) (off len : Nat) (s : State) : Res :=
  lift s fun _ d => serve d rq (Call.read 0x9012 0 off len) (timingAct rq.path off len)

/-- The 160 bytes of a sample record (R296). -/
def sampleBytes (x : Sample) : List Byte :=
  (x.bytes ++ List.replicate 128 0).take 128 ++
    toBytes 32 (pack [(0, 64, x.pace), (64, 64, x.wall), (128, 16, x.link), (144, 16, x.len), (160, 8, x.flags), (168, 8, x.vc)])

/-- SAMPLE_READ's rule (R297): up to 16 whole records that the request and the path can carry, oldest first; the queue lets go of
the cells it held for them (R242, R295). -/
def sampleRule (path : Path) (len : Nat) (d : Dev) : Dev × Rsp :=
  let n := min 16 (returned path 0 len (160 * d.sw.samples.length) / 160)
  let xs := d.sw.samples.take n
  let d1 := { d with sw := { d.sw with samples := d.sw.samples.drop n } }
  (releaseCells d1 160 (xs.filterMap (fun x => x.cell)),
    ⟨stOK, 0, 160 * min 16 d.sw.samples.length, xs.flatMap sampleBytes⟩)

/-- SAMPLE_READ's answer; OFFSET 0 only (R398). -/
def sampleAct (path : Path) (off len : Nat) : Act := fun _ d =>
  if off != 0 then (d, some (Rsp.st stBadField)) else ((sampleRule path len d).1, some (sampleRule path len d).2)

/-- SAMPLE_READ (R297). -/
def execSampleRead (rq : Rq) (len : Nat) (s : State) : Res :=
  lift s fun _ d => serve d rq (Call.read 0x2020 1 0 len) (sampleAct rq.path 0 len)

end Sys2Proof.Machine
end

