-- ==== Sys2Proof/Machine/Telemetry.lean ====
section
/-! DEFINITION. Margins, the telemetry sampler and snapshots (spec/18_faults_and_telemetry.md R467-R473,
spec/19_electrical_and_package.md R479). -/

namespace Sys2Proof.Machine

/-! ### Thresholds (R469, R473) -/

/-- A field of MARGIN_THRESH. -/
def threshField (d : Dev) (lo len : Nat) : Nat := bits (d.rd 0x9011 0 0) lo len

/-- A quantity that must not fall below its threshold: bad now, and better by a tenth of the threshold. -/
def lowBad (v t : Int) : Bool := decide (v < t)
def lowGood (v t : Int) : Bool := decide ((t.natAbs : Int) ≤ 10 * (v - t))

/-- An FP32 ratio that must not rise above its threshold. -/
def highBad (v t : Nat) : Bool := (decodeNum (fmtOf 1) t).lt (decodeNum (fmtOf 1) v)
def highGood (v t : Nat) : Bool :=
  match decodeNum (fmtOf 1) v, decodeNum (fmtOf 1) t with
  | .fin _ n m, .fin _ n' m' => decide (10 * n * m' ≤ 9 * n' * m)
  | _, _ => false

/-- MARGIN_CROSS (R474): `unit` is link * 4 + lane for causes 1-3 and 6, the rail or site otherwise. -/
def crossEvent (d : Dev) (cause unit value thresh c : Nat) : Dev :=
  emit d 0x9004 stOK 3 (c = 1) 0x9011 0
    (if cause = 4 || cause = 5 then dataUN 0 unit 0 cause value thresh c else dataUN 1 (unit / 4) (unit % 4) cause value thresh c)

/-- A new measurement of one quantity compared (R469). -/
def noteMargin (d : Dev) (cause unit value thresh : Nat) (bad good : Bool) : Dev :=
  let key := cause * 65536 + unit
  if d.health.crossed.contains key then
    if good then crossEvent { d with health := { d.health with crossed := d.health.crossed.filter (· != key) } } cause unit value thresh 0
    else d
  else if bad then crossEvent { d with health := { d.health with crossed := key :: d.health.crossed } } cause unit value thresh 1
  else d

/-! ### Measurements (R467, R468) -/

/-- The link whose state a link's lanes follow: the even one of a pair that runs mode 3 as one port (R267). -/
def portLink (d : Dev) (n : Nat) : Nat := if d.pairOdd n then n - 1 else n

/-- A lane's link is not DISABLED and the lane exists. -/
def laneOn (p : Part) (d : Dev) (lane : Nat) : Bool :=
  decide (lane / 4 < p.links) && (d.link (portLink d (lane / 4))).st != .disabled

/-- One lane measured. -/
def takeLane (p : Part) (d : Dev) (m : LaneMeas) : Dev :=
  if !laneOn p d m.lane then d
  else
    let m := { m with height := m.height % 65536, width := m.width % 65536, ber := m.ber % 2 ^ 32, uncorr := m.uncorr % 2 ^ 32 }
    let d1 := { d with health := { d.health with lanes := d.health.lanes.set LaneMeas.none m.lane m },
                       marks := d.marks.set 0 (2000 + m.lane) (d.tick + 1) }
    let th := threshField d1 0 16
    let tw := threshField d1 16 16
    let tb := threshField d1 32 32
    let d2 := noteMargin d1 1 m.lane m.height th (lowBad m.height th) (lowGood m.height th)
    let d3 := noteMargin d2 2 m.lane m.width tw (lowBad m.width tw) (lowGood m.width tw)
    noteMargin d3 3 m.lane m.ber tb (highBad m.ber tb) (highGood m.ber tb)

/-- MARGIN_MEASURE (R467, R469): the eye monitors' period ends. -/
def execMarginMeasure (ms : List LaneMeas) (s : State) : Res :=
  lift s fun p d => if !d.runs domTelem then d else ms.foldl (takeLane p) d

/-- MGMT (R275, R468): a control word that no other row takes; its bits [63:56] are its kind. Kind 7 carries the six bytes of a management word,
whose receive power is compared with its threshold, on a link in HANDSHAKE too, which carries control flits (R287); a word of a
reserved kind is ignored and counted in RX_DISCARDS (log entry
112); kinds 0 to 6 are IDLE or have rows of their own. -/
def execMgmt (n word : Nat) (s : State) : Res :=
  liftAt s (decide (n < s.part.links)) fun _ d =>
    let kind := bits word 56 8
    let lane := 4 * n + bits word 8 8
    let v := bits word 16 16
    let old := d.health.opt.get 0 lane
    if !d.runs (domPort (n / 8)) || !((d.link n).live || (d.link n).st == .handshake) || d.linkMode n != 1 || kind < 7 then d
    else if 7 < kind then linkCtr d n 12
    else if (bits word 0 8 != 1 && bits word 0 8 != 2) || 3 < bits word 8 8 then d.inc 0x9021 0 5
    else
      let rx := bits word 0 8 = 1
      let now := if rx then setBits old 16 16 v else setBits old 0 16 v
      let d1 := { d with health := { d.health with opt := d.health.opt.set 0 lane now }, marks := d.marks.set 0 (3000 + lane) (d.tick + 1) }
      let t := threshField d1 96 16
      if rx then noteMargin d1 6 lane v t (lowBad (toSigned 16 v) (toSigned 16 t)) (lowGood (toSigned 16 v) (toSigned 16 t)) else d1

/-- The minimum of a rail in mV (R479). -/
def railMin (rail : Nat) : Nat := [720, 770, 873, 720, 1164, 1067, 770, 770, 3135].getD rail 0

/-- Supply headroom of a rail (R468, R479). -/
def headroomMv (d : Dev) (rail : Nat) : Int := (d.health.railMv.get 0 rail : Int) - (railMin rail : Int)

/-- One rail sampled. -/
def takeRail (d : Dev) (x : (Nat × Nat) × Nat) : Dev :=
  let d1 := { d with health := { d.health with railMv := d.health.railMv.set 0 x.2 (x.1.1 % 65536), railMa := d.health.railMa.set 0 x.2 (x.1.2 % 2 ^ 32) } }
  let t := threshField d1 64 16
  let v := headroomMv d1 x.2
  noteMargin d1 4 x.2 (ofSigned 16 v) t (lowBad v (toSigned 16 t)) (lowGood v (toSigned 16 t))

/-- One timing site sampled: its slack, and its low of the period since the last read. -/
def takeSite (first : Bool) (d : Dev) (x : Int × Nat) : Dev :=
  let low := if first then x.1 else min (d.health.slackLow.get 0 x.2) x.1
  let d1 := { d with health := { d.health with slack := d.health.slack.set 0 x.2 x.1, slackLow := d.health.slackLow.set 0 x.2 low } }
  let t := threshField d1 80 16
  noteMargin d1 5 x.2 (ofSigned 16 x.1) t (lowBad x.1 (toSigned 16 t)) (lowGood x.1 (toSigned 16 t))

/-- SAMPLER_TICK (R468): every 10 ms the input, the rails and the timing sites are sampled. -/
def execSamplerTick (input : List Nat) (rails : List (Nat × Nat)) (slacks : List Int) (s : State) : Res :=
  lift s fun _ d =>
    if !d.runs domTelem then d
    else
      let d1 := { d with health := { d.health with input := (input.take 3).map (· % 2 ^ 32) }, marks := d.marks.set 0 1 1 }
      let d2 := (rails.take 9).zipIdx.foldl takeRail d1
      (slacks.take 64).zipIdx.foldl (takeSite (d.marks.get 0 1 = 0)) d2

/-! ### Images of the objects of a snapshot (R471, R473) -/

/-- Milliseconds since a mark, saturating at `most`. -/
def ageMs (d : Dev) (mark most : Nat) : Nat := min most ((d.tick + 1 - d.marks.get 0 mark) / 2700000)

/-- A MARGIN_LANE record (R467): all 0 when it is not valid (R472). -/
def laneRec (p : Part) (d : Dev) (lane : Nat) : Nat :=
  if !laneOn p d lane || d.marks.get 0 (2000 + lane) = 0 then 0
  else
    let m := d.health.lanes.get LaneMeas.none lane
    pack [(0, 16, m.height), (16, 16, m.width), (32, 32, m.ber), (64, 32, m.uncorr), (96, 8, 1), (104, 8, d.linkMode (lane / 4)),
      (128, 32, ageMs d (2000 + lane) (2 ^ 32 - 1))]

/-- A MARGIN_TIMING record with current values only (R471). -/
def timingNow (d : Dev) (k : Nat) : Nat :=
  let v := ofSigned 16 (d.health.slack.get 0 k)
  if d.marks.get 0 1 = 0 then 0 else pack [(0, 8, siteDomain k), (8, 8, k), (16, 16, v), (32, 16, v)]

/-- An OPT_POWER record (R468). -/
def optRec (d : Dev) (lane : Nat) : Nat :=
  if d.marks.get 0 (3000 + lane) = 0 then 0
  else d.health.opt.get 0 lane + pack [(32, 16, ageMs d (3000 + lane) 65535), (48, 8, 1)]

/-- Counters of the LFP link layer and of Ethernet links (R298). -/
def lfpCounters : List Nat := [8, 9]
def ethCounters : List Nat := [13, 14]

/-- A LINK_COUNTERS record (R298): counters of the mode that the link does not run read 0, and the odd link of a mode 3 pair holds
none (R267). -/
def countersRec (d : Dev) (n : Nat) : Nat :=
  let off := if d.linkMode n = 1 then ethCounters else lfpCounters
  if d.pairOdd n then 0 else packList 64 ((List.range 16).map (fun k => if off.contains k then 0 else (d.link n).ctr.get 0 k))

/-- STALL_NS of a queue, up to now (R304). -/
def stallNs (d : Dev) (x : EQueue) : Nat :=
  (x.stall + (if x.fifo.isEmpty || x.elig then 0 else d.tick - x.stallAt)) * 10 / 27

/-- A link's records of QDEPTH and QSTATS (R315). -/
def qdepthRec (d : Dev) (n : Nat) : Nat := packList 32 ((List.range 16).map (fun q => (d.eq n q).charged))
def qstatsRec (d : Dev) (n : Nat) : Nat :=
  packList 256 ((List.range 16).map (fun q =>
    let x := d.eq n q
    packList 64 [x.frames, x.bytes, x.promotions, stallNs d x]))

/-- A GROVE_UTIL record (R470). -/
def utilRec (d : Dev) (g : Nat) : Nat := packList 64 ((List.range 5).map (fun k => d.health.util.get 0 (5 * g + k)))

/-- A RAIL_STATE record (R473). -/
def railRec (d : Dev) (r : Nat) : Nat :=
  if d.marks.get 0 1 = 0 then 0
  else pack [(0, 8, r), (8, 8, phasesGood d r), (16, 8, phasesFitted r), (24, 8, phasesNeeded r), (32, 16, d.health.railMv.get 0 r),
    (48, 16, railMin r), (64, 16, ofSigned 16 (headroomMv d r)), (80, 32, d.health.railMa.get 0 r)]

/-- A SLOT_STATE record (R264). -/
def slotRec (d : Dev) (g : Nat) : Nat :=
  if d.role g = 1 || (d.grove g).phase == .lost then 0
  else
    let used := slotsHeld d g
    pack [(0, 32, ((List.range 32).map (fun k => if used.contains k then 0 else 2 ^ k)).sum), (32, 8, sharedFree d g),
      (40, 8, b2n (d.colls.target.map Prod.fst = some g)), (48, 16, packList 4 ((List.range 4).map (reserveFree d g)))]

/-- `n` records of `w` bytes. -/
def tabImage (w n : Nat) (f : Nat → Nat) : List Byte := (List.range n).flatMap (fun k => toBytes w (f k))

/-- The image of set `k` of R471. -/
def setImage (p : Part) (d : Dev) (k : Nat) : List Byte :=
  match k with
  | 0 => tabImage 128 128 (countersRec d)
  | 1 => tabImage 64 128 (qdepthRec d) ++ tabImage 512 128 (qstatsRec d)
  | 2 => tabImage 40 p.groves (utilRec d)
  | 3 => tabImage 20 512 (laneRec p d) ++ tabImage 8 64 (timingNow d) ++ tabImage 8 512 (optRec d)
  | 4 => toBytes 12 (packList 32 d.health.input) ++ tabImage 16 9 (railRec d)
      ++ tabImage 2 42 (fun i => if i < 34 + p.stacks then ofSigned 16 (d.health.temps.get 0 i) else 0) ++ toBytes 1 d.health.throttle
  | 5 => toBytes 4 (bufFree d) ++ toBytes 8 (d.ctr 0x3003 0 0) ++ toBytes 8 (d.ctr 0x3003 1 0) ++ tabImage 8 p.groves (slotRec d)
  | _ => []

/-! ### Snapshots (R471) -/

/-- The slot that holds the lowest SNAP_SEQ. -/
def oldestSnap (d : Dev) : Nat :=
  (List.range 8).foldl (fun b k => if (d.health.snaps.get Snap.empty k).seq < (d.health.snaps.get Snap.empty b).seq then k else b) 0

/-- A snapshot of a set mask: latched now, its copy begun; or refused (R471). -/
def takeSnap (p : Part) (mask : Nat) (d : Dev) : Dev × Nat :=
  if mask = 0 || 64 ≤ mask then refuse d stBadField
  else if d.health.snapBusy.isSome then
    (emit (d.inc 0x9111 1 1) 0x9006 stTableFull 5 false 0x9111 1 (dataUN 0 0 0 0 mask 0 0), stTableFull)
  else
    let k := oldestSnap d
    let image := ((List.range 6).filter (fun b => mask.testBit b)).flatMap (setImage p d)
    let new : Snap := ⟨d.health.snapSeq + 1, d.pace.visible, d.pace.wall, mask, 1, image⟩
    let old : Snap := { d.health.snaps.get Snap.empty k with status := 0 }
    let d1 : Dev := { d with health := { d.health with snapSeq := new.seq, snapBusy := some (k, new),
                                                       snaps := d.health.snaps.set Snap.empty k old } }
    accept (d1.inc 0x9111 1 0)

/-- TELEM_SNAP_NOW (R471). -/
def execTelemSnapNow (rq : Rq) (mask : Nat) (s : State) : Res :=
  lift s fun p d => serveWrite d rq 0x9111 0 (toBytes 1 mask) (fun d =>
    if !d.runs domTelem then refuse d stNotReady else takeSnap p (mask % 256) d)

/-- SNAPSHOT_COPIED (R471): the slot holds the whole snapshot. -/
def execSnapshotCopied (s : State) : Res :=
  lift s fun _ d =>
    match d.health.snapBusy with
    | none => d
    | some (k, new) =>
      if !d.runs domTelem then d
      else { d with health := { d.health with snaps := d.health.snaps.set Snap.empty k new, snapBusy := none, newest := k } }

end Sys2Proof.Machine
end

