-- ==== Sys2Proof/Machine/Pace.lean ====
section
/-! DEFINITION. Pace words, tokens, edges and the schedule table's firing, calibration, wall-clock time
(spec/14_pace_and_time.md R367-R387). -/

namespace Sys2Proof.Machine

/-! ### PACE_STATE (R387, R425) -/

/-- The PACE_STATE byte. -/
def paceState (d : Dev) : Nat :=
  b2n d.pace.calibrated + 2 * b2n d.pace.inFault + 4 * b2n d.pace.lastLate + 8 * b2n (!d.pace.pending.isEmpty)

/-- A change of bits [2:0] written as LEVEL. -/
def settlePace (old d : Dev) : Dev :=
  if paceState d % 8 = paceState old % 8 then d else emitLevel d 3 0x8000 2 0xFFFFFFFF (paceState d) (paceState old)

/-! ### Words (R370-R375) -/

/-- A discarded word: the third in a row sets PACE_IN_FAULT (R375). `k` is 2 for framing, 3 for CRC. -/
def badWord (d : Dev) (k : Nat) : Dev :=
  let d1 := paceStat d k
  settlePace d { d1 with pace := { d1.pace with badRun := d1.pace.badRun + 1, inFault := d1.pace.inFault || decide (3 ≤ d1.pace.badRun + 1) } }

/-- A good word: DLY is kept, the fault clears (R375, R387). -/
def goodWord (d : Dev) (dly : Nat) : Dev :=
  settlePace d { d with pace := { d.pace with badRun := 0, inFault := false, lastDly := dly } }

/-- A word forwarded 32 cycles behind, with the delay spent so far and the CRC made anew, or its complement when the incoming one
fails; a framing error is forwarded as it arrives (R372). -/
def forwardWord (d : Dev) (v : Nat) (framed : Bool) : Dev :=
  putWord d (sealWord (setBits v 64 16 ((wordDly v + 32 + paceFlight d) % 65536)) (wordCrcOk v)) 1576 framed

/-- A word keeps the rules of the line (R370): a start bit of 1, 64 low bits before it, its start edge 160 bits after the last one. -/
def lineOk (d : Dev) (line : PaceLine) : Bool :=
  line.start && decide (64 ≤ line.low) && (d.pace.inLast = 0 || decide (d.pace.inLast + 2763 ≤ d.cycle))

/-- A word on PACE_IN at a CHAIN device (R370-R372), checked and forwarded; `f` acts on a good one. -/
def chainWord (d0 : Dev) (v : Nat) (cal : Bool) (line : PaceLine) (f : Dev → Dev) : Dev :=
  if !d0.runs domPace || paceSource d0 != 1 || wordCal v != cal then d0
  else
    let framed := lineOk d0 line
    let d := { d0 with pace := { d0.pace with inLast := d0.cycle + 1 } }
    let d1 := forwardWord d v framed
    if !framed || !wordReservedOk v then badWord d1 2 else if !wordCrcOk v then badWord d1 3 else f (goodWord d1 (wordDly v))

/-- PACE_WORD (R371): the word is whole 1,608 cycles after its start edge; the advance is late when its apply time has passed by
then (R378). -/
def execPaceWord (w dly upper : Nat) (line : PaceLine) (s : State) : Res :=
  let word := wordAs w dly upper
  lift s fun _ d => chainWord d word false line (fun d =>
    let due := d.cycle + paceLead d - (1608 + wordDly word)
    takeAdvance d (wordW word) due (decide (due < d.cycle)))

/-- CAL_WORD (R374): the termination opens, and after forwarding a probe goes out. -/
def execCalWord (w upper : Nat) (line : PaceLine) (s : State) : Res :=
  lift s fun _ d => chainWord d (calAs w upper) true line (fun d =>
    { d with pace := { d.pace with termOpen := true, calSent := true } }.send .probe)

/-- A chain head sends a CAL word and its probe (R374), once the spacing on the line allows (R370). -/
def sendCal (d : Dev) : Dev :=
  if !outFree d then { d with pace := { d.pace with calWaits := true } }
  else (putWord { d with pace := { d.pace with calSent := true, calWaits := false } } (paceWordOf 0 (paceFlight d % 65536) true) 0 true).send
    .probe

/-- PACE_FLIGHT_MEASURE (R374): half the round trip in quarter cycles, or none within the window. -/
def execPaceFlightMeasure (roundTrip : Option Nat) (s : State) : Res :=
  lift s fun _ d =>
    if !d.runs domPace || !d.pace.calSent then d
    else
      let x := { d.pace with calSent := false, termOpen := false }
      match roundTrip with
      | none => { d with pace := x }
      | some r => settlePace d { d with pace := { x with flight := r / 2, calibrated := true } }

/-- PACE_IN_FAULT (R375): PACE_IN has been high for more than 2 µs. -/
def execPaceInFault (s : State) : Res :=
  lift s fun _ d =>
    if !d.runs domPace || paceSource d != 1 then d else settlePace d { d with pace := { d.pace with inFault := true } }

/-! ### Sources (R369, R374, R376) -/

/-- PACE_SOURCE's rule (R369). A source that heads the chain sends a CAL word. -/
def paceSourceRule (v : Nat) (d : Dev) : Dev × Nat :=
  if 3 < v || (v = 3 && d.rd 0x8001 2 0 != ownHome d) then refuse d stBadField
  else
    let d1 := if v = paceSource d then d
      else settlePace d { d.wr 0x8000 1 0 v with pace := { d.pace with pending := [], unlaunched := [], trigger := [], badRun := 0, calWaits := false } }
    accept (if 2 ≤ v then sendCal d1 else d1)

/-- PACE_SOURCE_WRITE (R369). -/
def execPaceSourceWrite (rq : Rq) (v : Nat) (s : State) : Res :=
  lift s fun _ d => serveWrite d rq 0x8000 1 (toBytes 1 v) (paceSourceRule (v % 256))

/-- PACE_LOAD's rule (R369): the count and the visible count. A load of the current value changes nothing. -/
def paceLoadRule (v : Nat) (d : Dev) : Dev × Nat :=
  if paceSource d != 0 then refuse d stNotReady
  else if v < d.pace.count then refuse d stBadField
  else if v = d.pace.count then accept d
  else accept { d with pace := { d.pace with count := v, visible := v } }

/-- PACE_LOAD (R369). -/
def execPaceLoad (rq : Rq) (v : Nat) (s : State) : Res :=
  lift s fun _ d => serveWrite d rq 0x8000 3 (toBytes 8 v) (paceLoadRule (v % 2 ^ 64))

/-- PACE_STEP's rule (R376): decided now, or held until the spacing allows. -/
def paceStepRule (p : Part) (v : Nat) (d : Dev) : Dev × Nat :=
  if paceSource d != 3 then refuse d stNotReady
  else if v ≤ d.pace.trigger.foldl max (paceTop d) then refuse d stBadField
  else if d.pace.trigger.isEmpty && spacingOk d then accept (decideAdvance p d v)
  else accept { d with pace := { d.pace with trigger := d.pace.trigger ++ [v] } }

/-- PACE_STEP (R376). -/
def execPaceStep (rq : Rq) (v : Nat) (s : State) : Res :=
  lift s fun p d => serveWrite d rq 0x8000 4 (toBytes 8 v) (paceStepRule p (v % 2 ^ 64))

/-- PACE_CAL's rule (R387): a BOOL; writing 0 sends nothing. -/
def paceCalRule (v : Nat) (d : Dev) : Dev × Nat :=
  if 1 < v then refuse d stBadField
  else if paceSource d < 2 then refuse d stNotReady
  else accept (if v = 1 then sendCal d else d)

/-- PACE_CAL (R374, R387). -/
def execPaceCal (rq : Rq) (v : Nat) (s : State) : Res :=
  lift s fun _ d => serveWrite d rq 0x8000 5 (toBytes 1 v) (paceCalRule (v % 256))

/-- PACE_TRIGGER_RELEASE (R376): the oldest held advance is decided. -/
def execPaceTriggerRelease (s : State) : Res :=
  lift s fun p d =>
    match d.pace.trigger with
    | [] => d
    | w :: ws =>
      if !d.runs domPace || paceSource d != 3 || !spacingOk d then d
      else
        let d1 := { d with pace := { d.pace with trigger := ws } }
        if w ≤ paceTop d1 then paceStat d1 1 else decideAdvance p d1 w

/-- PACE_WORD_LAUNCH (R370, R373): the word of the next advance that this head applies, when its time has come and the line is free for
a start edge; else a CAL word that waits. -/
def execPaceWordLaunch (s : State) : Res :=
  lift s fun _ d =>
    if !d.runs domPace || !outFree d then d
    else
      match d.pace.unlaunched with
      | [] => if d.pace.calWaits then sendCal d else d
      | a :: as_ =>
        if d.cycle + paceLead d < a.due then (if d.pace.calWaits then sendCal d else d)
        else launchWord { d with pace := { d.pace with unlaunched := as_ } } a

/-- PACE_TOKEN (R377, R378): a token that came down a column goes on along this row; a TOKEN device takes it, and heads its chain. -/
def execPaceToken (n srow plane master w elapsed : Nat) (s : State) : Res :=
  liftAt s (s.part.hasLink n) fun p d =>
    if !d.runs domXbar || !d.works 6 then d
    else
      let spec := setBits (tokenSpec d (w % 2 ^ 64) (elapsed % 2 ^ 32)) 128 16 master
      let d1 := if srow = d.row then d else multicast p (d.inc 0x6030 3 0 (fencedRowPeers d)) (rowStage d) 0x40 0 0 spec []
      if paceSource d1 != 2 then d1
      else if plane != d1.plane || master != d1.rd 0x8001 2 0 || master = 0xFFFF then paceStat d1 5
      else
        let due := d1.cycle + tokenLead d1 - elapsed % 2 ^ 32
        let late := decide (due < d1.cycle) || launchLate d1 due
        if w % 2 ^ 64 ≤ paceTop d1 then paceStat d1 1
        else takeAdvance (headChain d1 ⟨w % 2 ^ 64, due, late⟩) (w % 2 ^ 64) due late

/-! ### Firing (R380, R382, R384) -/

/-- COLL_GO at its edge (R384): fires on the control root once every ADMIT is held; none means that the entry stays armed. -/
def fireGo (p : Part) (job coll : Nat) (d : Dev) : Option (Dev × Nat) :=
  match findOp d job coll with
  | none => some (accept d)
  | some o =>
    if o.phase = 1 && ctlRoot d o = d.code && allAdmitted o then some (accept (onOp p d job coll (sendGo p))) else none

/-- One armed entry's action at an edge of value `w`; none when it does not fire. -/
def fireAction (p : Part) (w v : Nat) (d : Dev) : Option (Dev × Nat) :=
  let arg := schedArg v
  match schedAction v with
  | 1 => some (takeSwap p d (bits arg 0 8) (bits arg 32 32))
  | 2 => some (armRule p (bits arg 0 8) (bits arg 8 1) (bits arg 32 32) d)
  | 3 => some (mirrorRule p (bits arg 0 8) (bits arg 32 32) d)
  | 4 => some (accept (remoteSetHere p d (ownHome d) (schedJob v) (bits arg 32 8) (bits arg 24 8)))
  | 5 => fireGo p (schedJob v) (bits arg 0 32) d
  | 6 => some (takeSnap p (bits arg 0 8) d)
  | 7 => some (fireFcm p (bits arg 0 8) d)
  | 8 => some (fireCheckpoint p (schedJob v) w (bits arg 0 8 = 2) d)
  | _ => none

/-- A SCHED_LOG record (R387). -/
def logRec (i v st w : Nat) : Nat :=
  pack [(0, 8, i), (8, 8, schedAction v), (16, 8, st), (64, 64, schedTarget v), (128, 64, w)]

/-- An entry fired: freed, logged, counted, and an event when its status is not OK (R382). It is freed before its action, which may arm
it anew; a COLL_GO entry, which stays armed until it fires (R384), after it. -/
def fireEntry (p : Part) (w : Nat) (d : Dev) (i : Nat) : Dev :=
  let v := schedRec d i
  if schedAction v = 0 then d
  else
    match fireAction p w v (if schedAction v = 5 then d else putSched d i 0) with
    | none => d
    | some (d1, st) =>
      let r := logRec i v st w
      let d2 := if schedAction v = 5 && schedRec d1 i = v then putSched d1 i 0 else d1
      let d3 := { d2 with pace := { d2.pace with schedLog := (r :: d2.pace.schedLog).take 64, fired := i :: d2.pace.fired } }.inc 0x8100 4 0
      if st = stOK then d3 else emit d3 0x8001 st 6 false 0x8100 3 (r * 2 ^ 64)

/-- The entries due at an edge, in firing order (R382). -/
def dueEntries (d : Dev) (w : Nat) : List Nat :=
  sortBy (fun i => ((schedAction (schedRec d i)) * 2 ^ 64 + schedTarget (schedRec d i)) * 256 + i)
    (schedWhere d (fun v => schedTarget v ≤ w))

/-- Jobs that resume at an edge (R234). -/
def fireResumes (p : Part) (w : Nat) (d : Dev) : Dev :=
  (d.pace.resumes.filter (fun x => x.2 ≤ w)).foldl (fun d x => resumeJob p d x.1)
    { d with pace := { d.pace with resumes := d.pace.resumes.filter (fun x => decide (w < x.2)) } }

/-- Everything due at an edge: actions by class, what fixed-cycle mode does at a clean boundary, resumes, checkpoints last (R222,
R229, R382). -/
def fireAll (p : Part) (w : Nat) (d : Dev) : Dev :=
  let due := dueEntries d w
  let isCkpt := fun (i : Nat) => schedAction (schedRec d i) = 8
  let d1 := (due.filter (fun i => !isCkpt i)).foldl (fireEntry p w) d
  let d2 := fireResumes p w (if d1.inFcm then fcmBoundary p d1 else d1)
  (due.filter isCkpt).foldl (fireEntry p w) d2

/-- An advance applied (R368, R378). -/
def applyAdvance (p : Part) (d : Dev) (a : Advance) : Dev :=
  let x := { d.pace with pending := d.pace.pending.filter (fun b => b.w != a.w), count := a.w, lastLate := a.late,
                         edgeAt := d.cycle + 1, fired := [] }
  let d1 := settlePace d (paceStat { d with pace := x } 0)
  let d2 := if a.late then emit (paceStat d1 4) 0x8002 stOK 6 false 0x8002 0 (dataUN 0 0 0 0 a.w (d.cycle - a.due) 0) else d1
  fireAll p a.w d2

/-- An edge may be applied now: 1,024 ns have passed since the last one (R368). -/
def edgeSpaced (d : Dev) : Bool := d.pace.edgeAt = 0 || decide (d.pace.edgeAt + 2764 ≤ d.cycle)

/-- PACE_EDGE (R368): the first pending advance whose apply time has come. -/
def execPaceEdge (s : State) : Res :=
  lift s fun p d =>
    match d.pace.pending with
    | [] => d
    | a :: _ => if !d.runs domPace || d.cycle < a.due || !edgeSpaced d then d else applyAdvance p d a

/-- The count of the last edge is visible from 2,700 cycles after it on (R368). -/
def edgeVisible (d : Dev) : Bool := d.pace.edgeAt = 0 || decide (d.pace.edgeAt + 2699 ≤ d.cycle)

/-- PACE_VISIBLE (R368): 2,700 cycles after the edge the new count becomes visible. -/
def execPaceVisible (s : State) : Res :=
  lift s fun _ d => if d.runs domPace && edgeVisible d then { d with pace := { d.pace with visible := d.pace.count } } else d

/-! ### The schedule table (R379-R381) -/

/-- Bits of ARG that an action uses (R380). -/
def argMask (action : Nat) : Nat :=
  match action with
  | 1 => 0xFFFFFFFF000000FF
  | 2 => 0xFFFFFFFF000001FF
  | 3 => 0xFFFFFFFF000000FF
  | 4 => 0xFFFF00FFFF000000
  | 6 => 0xFF
  | 8 => 0xFF
  | _ => 0

/-- The status of arming a record (R380, R381). -/
def schedStatus (p : Part) (d : Dev) (v : Nat) : Nat :=
  let a := schedAction v
  let arg := schedArg v
  let job := schedJob v
  if 8 < a || a = 5 || a = 7 || arg &&& argMask a != arg || (a != 4 && a != 8 && job != 0) then stBadField
  else if a = 1 then swapStatus d (bits arg 0 8)
  else if a = 2 then (if p.groves ≤ bits arg 0 8 then stBadField else stOK)
  else if a = 4 then
    (if bits arg 48 16 != ownHome d || p.groves ≤ bits arg 32 8 || job = 0 || (d.jobRec job).isNone then stBadField else stOK)
  else if a = 8 then (if (bits arg 0 8 != 1 && bits arg 0 8 != 2) || (d.jobRec job).isNone then stBadField else stOK)
  else stOK

/-- SCHED_ARM's rule: a write to an armed entry is refused unless it is no change (R381, R397); DEV and reserved bits of the record
are not written. -/
def schedArmRule (p : Part) (i rec : Nat) (d : Dev) : Dev × Nat :=
  let v := mkSched (schedAction rec) (schedTarget rec) (schedJob rec) (schedArg rec) false
  if 256 ≤ i then refuse d stBadField
  else if v = schedRec d i then refuse d stOK
  else if schedAction (schedRec d i) != 0 then refuse d stNotReady
  else if schedStatus p d v != stOK then refuse d (schedStatus p d v)
  else if schedAction v = 1 then accept (armSwap d i (bits (schedArg v) 0 8) (bits (schedArg v) 32 32) (schedTarget v))
  else accept (putSched d i v)

/-- SCHED_ARM (R381). -/
def execSchedArm (rq : Rq) (entry rec : Nat) (s : State) : Res :=
  lift s fun p d => serve d rq ⟨2, 0x8100, 0, 32 * entry, true, 32, 0, toBytes 32 rec⟩
    (fun _ d => ((schedArmRule p entry (rec % 2 ^ 256) d).1,
      some (Rsp.st (schedArmRule p entry (rec % 2 ^ 256) d).2 (if (schedArmRule p entry (rec % 2 ^ 256) d).2 = stOK then 0 else entry))))

/-- Entry `n` fires in this cycle (R383): the edge of this cycle has fired it, or an advance whose apply time has come will. -/
def firesNow (d : Dev) (n : Nat) : Bool :=
  (d.pace.edgeAt = d.cycle + 1 && d.pace.fired.contains n)
    || (match d.pace.pending with
      | a :: _ => d.runs domPace && decide (a.due ≤ d.cycle) && edgeSpaced d && schedAction (schedRec d n) != 0
          && decide (schedTarget (schedRec d n) ≤ a.w)
      | [] => false)

/-- SCHED_CANCEL's rule (R381); a cancelled swap is no longer armed. An entry that fires in this cycle fires, and the cancel is refused
(R383). -/
def schedCancelRule (n : Nat) (d : Dev) : Dev × Nat :=
  let v := schedRec d n
  if !schedDev v && firesNow d n then refuse d stNotReady
  else if schedAction v = 0 || schedDev v then refuse d stBadField
  else
    let d1 := putSched d n 0
    accept (if schedAction v = 1 then moveEpoch d1 (fun w => { w with swapArmed := false }) else d1)

/-- SCHED_CANCEL (R381). -/
def execSchedCancel (rq : Rq) (n : Nat) (s : State) : Res :=
  lift s fun _ d => serveWrite d rq 0x8100 1 (toBytes 1 n) (schedCancelRule (n % 256))

/-! ### Wall clock (R386) -/

/-- The wall clock set, with its state as a level. -/
def setWall (d : Dev) (v st : Nat) : Dev :=
  emitLevel { d with pace := { d.pace with wall := v, wallState := st } } 3 0x8200 2 0xFFFFFFFF st d.pace.wallState

/-- WALLCLOCK_SET (R386, R387). -/
def execWallclockSet (rq : Rq) (v : Nat) (s : State) : Res :=
  lift s fun _ d => serveWrite d rq 0x8200 1 (toBytes 8 v) (fun d =>
    if d.pace.wallState = 2 then refuse d stNotReady else accept (setWall d (v % 2 ^ 64) 1))

/-- The clock corrected to `v`, its port in a state, with what its delay measurement has come to. -/
def disciplineWall (d : Dev) (v : Int) (x : Ptp) : Dev :=
  setWall { d with pace := { d.pace with ptp := x } } (v % 2 ^ 64).toNat 2

/-- PTP_MESSAGE (R386): a message of the domain disciplines the clock by the delay request-response mechanism of a slave-only ordinary
clock (IEEE 1588-2019, PRESUMED, log entry 131). A Sync sets the time to its origin and the mean path delay, and a Delay_Req leaves;
its answer gives the delay anew, half of what lies between the four time stamps, and the clock the correction that this makes. -/
def execPtpMessage (domain : Nat) (msg : PtpMsg) (s : State) : Res :=
  lift s fun _ d =>
    let x := d.pace.ptp
    if !d.runs domFnet || d.rd 0x8200 3 0 != domain then d
    else
      match msg with
      | .sync origin =>
        let now : Int := (origin : Int) + x.delay
        let port := if x.port == .listening then PtpPort.uncalibrated else x.port
        (disciplineWall d now { x with port := port, seq := (x.seq + 1) % 65536, sent := some (x.seq, (now % 2 ^ 64).toNat) }).send
          (.delayReq domain x.seq)
      | .delayResp seq receipt =>
        match x.sent with
        | none => d
        | some (k, left) =>
          if k != seq then d
          else
            let delay := (x.delay + ((receipt : Int) - left)) / 2
            disciplineWall d ((d.pace.wall : Int) + (delay - x.delay)) { x with port := .slave, delay := delay, sent := none }

end Sys2Proof.Machine
end

