-- ==== Sys2Proof/Machine/DictWrite.lean ====
section
/-! DEFINITION. DICT_WRITE: a write of whole records or of a scalar of a read-write object (spec/15_dictionary_protocol.md R389,
R397). A write that another row makes too takes that row's rule, record by record. -/

namespace Sys2Proof.Machine

/-- The rule of an object whose records have a row of their own: EVQ_OWNER, JOB_TABLE, MIRROR_N, PACE_SOURCE, SCHED_TAB. -/
def ownRule (p : Part) (idx sub rec v : Nat) : Option (Dev → Dev × Nat) :=
  match idx, sub with
  | 0x1021, 4 => some (ownerRule v)
  | 0x2020, 0 => some (mirrorRule p rec v)
  | 0x6002, 0 => some (jobRule p rec v)
  | 0x8000, 1 => some (paceSourceRule v)
  | 0x8100, 0 => some (schedArmRule p rec v)
  | _, _ => none

/-- Records written one after another under the object's rule: the device, or the first refused record with its status (R397). -/
def putRecs (p : Part) (idx sub : Nat) : Dev → Nat → List Nat → Except (Nat × Nat) Dev
  | d, _, [] => .ok d
  | d, rec, v :: vs =>
    match ownRule p idx sub rec v with
    | some rule => if (rule d).2 != stOK then .error ((rule d).2, rec) else putRecs p idx sub (rule d).1 (rec + 1) vs
    | none => writeRecs p idx sub d rec (v :: vs)

/-- What a write of `n` records brings about at once beside the records: queues whose shaper recovers wake, queues again below
their threshold stop withholding, a routing record that names an UP link with another peer is reported, and frames held for a port set
are looked at again when the sets or the ranks' entries change (R247, R263, R307, R309, R322, R324). -/
def afterWrite (p : Part) (idx sub first n : Nat) (d : Dev) : Dev :=
  let recs := (List.range n).map (· + first)
  match idx with
  | 0x3101 => (recs.filter p.hasLink).foldl settleElig d
  | 0x3001 => settleWithheld d
  | 0x3002 => settleWithheld d
  | 0x6010 => bundleRecs p d sub recs
  | 0x6003 => settleWaiting p d
  | 0x6004 => settleWaiting p d
  | _ => d

/-- The response to a write of records. -/
def recsDone (d : Dev) (single : Bool) : Except (Nat × Nat) Dev → Dev × Rsp
  | .ok d' => (d', Rsp.st stOK)
  | .error (st, rec) => (d, Rsp.st st (if single then 0 else rec))

/-- The rule of DICT_WRITE: type, whole records, each record's check, then all records in one step (R389, R397). -/
def dictWriteRule (p : Part) (idx sub off : Nat) (data : List Byte) (d : Dev) : Dev × Rsp :=
  match findObj idx sub with
  | none => (d, Rsp.st stOK)
  | some o =>
    if o.acc != accRw then (d, Rsp.st stBadField)
    else if o.ty = 10 then
      if o.bytes = 0 || off % o.bytes != 0 || data.length % o.bytes != 0
          || decide (o.count p 0 * o.bytes < off + data.length) then (d, Rsp.st stBadField)
      else
        let vals := (chunksOf o.bytes data.length data).map ofBytes
        if idx = 0x6020 && sub = 0 then grantRule p (off / o.bytes) vals d
        else recsDone d false ((putRecs p idx sub d (off / o.bytes) vals).map (afterWrite p idx sub (off / o.bytes) vals.length))
    else if off != 0 || data.length != o.bytes || !scalarOk o.ty (ofBytes data) then (d, Rsp.st stBadField)
    else recsDone d true ((putRecs p idx sub d 0 [ofBytes data]).map (afterWrite p idx sub 0 1))

/-- DICT_WRITE (R397). With LAST = 0 it is a segment, which only an OCT object takes (R398). -/
def execDictWrite (rq : Rq) (idx sub off : Nat) (last : Bool) (data : List Byte) (s : State) : Res :=
  lift s fun p d => serve d rq ⟨2, idx, sub, off, last, data.length, 0, data⟩
    (fun _ d => ((dictWriteRule p idx sub off data d).1, some (dictWriteRule p idx sub off data d).2))

end Sys2Proof.Machine
end

