-- ==== Sys2Proof/Machine/Maintain.lean ====
section
/-! DEFINITION. What runs beside the traffic: refresh, patrol scrub and failures of the stacks (spec/13_memory_stacks.md R359-R364),
the leak auditor and reclaim (spec/09_buffers_and_slots.md R249-R252). -/

namespace Sys2Proof.Machine

/-! ### Refresh (R359, R361) -/

/-- The refresh multiplier of a stack: 2 above 85 °C, else 1 (R359, R366). -/
def refreshMult (d : Dev) (stack : Nat) : Nat := d.mem.mult.get 0 stack

/-- PER_BANK_REFRESH (R359): the next bank of the channel, in ascending order. In fixed-cycle mode banks are refreshed outside the
window only while the period is too long for a hot stack, and each such refresh is a break (R361). -/
def execPerBankRefresh (stack channel : Nat) (s : State) : Res :=
  liftAt s (decide (stack < s.part.stacks) && decide (channel < 12)) fun _ d =>
    let k := stack * 12 + channel
    let go := fun (d : Dev) => { d with mem := { d.mem with refreshNext := d.mem.refreshNext.set 0 k ((d.mem.refreshNext.get 0 k + 1) % 16) } }
    if !d.runs (domMem stack) || d.mem.st.get 0 stack != 3 then d
    else if !d.inFcm then go d
    else if refreshMult d stack = 2 && 5265 < d.modes.fcmPeriod then go (fcmBreak d 4 3 stack)
    else d

/-- FCM_REFRESH_WINDOW (R222, R361): every channel refreshes all 16 banks, so the next per-bank refresh begins at bank 0 again. -/
def execFcmRefreshWindow (s : State) : Res :=
  lift s fun _ d => if !d.runs domXbar || !d.inFcm then d else { d with mem := { d.mem with refreshNext := [] } }

/-! ### Patrol scrub (R355, R356, R362) -/

/-- The stacks are trained and zeroed, or failed: the scrubber runs (R362). -/
def scrubRuns (p : Part) (d : Dev) : Bool :=
  !d.inFcm && d.works 4 && !(List.range p.stacks).any (fun k => d.mem.st.get 0 k = 1 || d.mem.st.get 0 k = 2)

/-- What a scrub read's outcome counts: a correction is counted as the read's and as the scrubber's (log entry 82). -/
def scrubCorrected (p : Part) (d : Dev) (off : Nat) : StackFx → Dev
  | .corrected _ words => memStat d (readStack p d off).1 6 words
  | .reread _ _ words => memStat d (readStack p d off).1 6 words
  | _ => d

/-- Poisoned words that the scrubber meets are counted as an uncorrectable read of their stack, with no event: R356 has them counted
and does not say where (DESIGN CHOICE, log entry 82). -/
def scrubPoison (p : Part) (d : Dev) (off : Nat) : Dev :=
  if readPoison p d off 64 then memStat d (readStack p d off).1 2 else d

/-- Upsets that come with a scrub read, for the next accesses to their lines. -/
def addUpsets (d : Dev) (us : List (Nat × StackFx)) : Dev :=
  { d with mem := { d.mem with flaws := d.mem.flaws ++ us.map (fun u => (u.1 / 64 * 64, firstLine u.2)) } }

/-- SCRUB_READ (R362): the next line of capacity is read and checked; after the last one a pass is complete. The upsets that its
operand brings strike whether or not the scrubber runs. -/
def execScrubRead (i : ScrubInfo) (s : State) : Res :=
  lift s fun p d =>
    let e := addUpsets d i.upsets
    if !scrubRuns p d || fxIsWrite i.fx then e
    else
      let off := d.mem.scrubNext
      let met := hitFlaws p e false off 64
      let d1 := scrubCorrected p (applyFx p (scrubPoison p e off) off (firstLine i.fx)).1 off i.fx
      let d2 := met.foldl (fun d x => scrubCorrected p d off x.2) (takeFlaws p d1 met).1
      let last := memCapacity p d ≤ off + 64
      { d2 with mem := { d2.mem with scrubNext := if last then 0 else off + 64,
                                     scrubPasses := if last then (d2.mem.scrubPasses + 1) % 2 ^ 64 else d2.mem.scrubPasses } }

/-! ### Failures and heat of a stack (R359, R364) -/

/-- STACK_FAILURE (R364): the stack is FAILED with its failed channels; cause 2 is lost training, 3 too many uncorrectable lines.
With mirroring the partner serves the pair. -/
def execStackFailure (stack channels cause : Nat) (s : State) : Res :=
  liftAt s (decide (stack < s.part.stacks) && (cause = 2 || cause = 3)) fun p d =>
    if !d.runs (domMem stack) || d.mem.st.get 0 stack != 3 then d
    else
      let d1 := { d with mem := { d.mem with st := d.mem.st.set 0 stack 4, badCh := d.mem.badCh.set 0 stack (channels % 4096) } }
      let partner := d.mem.mirror && d.mem.st.get 0 (if stack % 2 = 0 then stack + 1 else stack - 1) = 3
      emitLevel (emit d1 0x7002 stOK 1 true 0x7002 0 (dataUN 3 stack (channels % 4096) cause (b2n partner) 0 0))
        2 0x7002 1 0xFFFFFFFF (memUnprotected p d1) (memUnprotected p d)

/-- STACK_TEMPERATURE_CROSS (R359): above 85 °C the multiplier is 2, below 83 °C it is 1 again; the multiplier's change is a level
(R425). TEMPS 34 + k follows (R473), and with it what the hottest sensor brings about (R464, R483). -/
def execStackTemperatureCross (stack : Nat) (above : Bool) (celsius : Int) (s : State) : Res :=
  liftAt s (decide (stack < s.part.stacks)) fun _ d =>
    if !d.runs (domMem stack) || (if above then decide (celsius ≤ 85) else decide (83 ≤ celsius)) then d
    else
      let d1 := { d with mem := { d.mem with temp := d.mem.temp.set 0 stack celsius, mult := d.mem.mult.set 0 stack (if above then 2 else 1) } }
      let d2 := if refreshMult d1 stack = refreshMult d stack then d1
        else emitLevel d1 3 0x7002 0 stack (stackRec d1 stack) (stackRec d stack)
      noteHeat d2 (34 + stack) (10 * celsius)

/-! ### The leak auditor (R249-R252) -/

/-- Every live reference (R249): the holder and the cell. The management processor's and the Canopy engine's work lists are empty
between commands (log entry 108). -/
def liveRefs (d : Dev) : List (Nat × Nat) :=
  (heldCopies d ++ d.sw.vc1Held.map (fun x => (163, x))).flatMap (fun (x : Nat × Copy) => x.2.cells.map (fun c => (x.1, c)))
    ++ d.sw.samples.filterMap (fun x => x.cell.map (fun c => (160, c)))
    ++ d.colls.ops.flatMap (fun o => o.inputs.flatMap (fun h => h.cells.map (fun c => (h.holder, c)))
        ++ o.outs.flatMap (fun h => h.cells.map (fun c => (h.holder, c))))

/-- AUDIT_WALK_START (R249): the references of this moment are noted; cells allocated from now on count as referenced. -/
def execAuditWalkStart (s : State) : Res :=
  lift s fun _ d =>
    if !d.runs domXbar || !d.works 6 || d.buf.walking then d
    else { d with buf := { d.buf with walking := true, atStart := d.buf.cells.keys, seen := ((liveRefs d).map Prod.snd).eraseDups } }

/-- One unreferenced cell at the end of a walk (R250): remembered, or recorded as a leak when it was unreferenced in the walk
before as well. -/
def noteUnreferenced (walk : Nat) (was : List Nat) (d : Dev) (c : Nat) : Dev :=
  let owners := match d.buf.cells.find? c with | some r => r.owners | none => 0
  if !was.contains c || d.buf.leaks.any (fun l => l.cell = c) then d
  else if 1024 ≤ d.buf.leaks.length then d.inc 0x3010 3 0
  else
    emit { d with buf := { d.buf with leaks := d.buf.leaks ++ [⟨c, walk % 2 ^ 32, d.pace.visible, owners⟩] } }
      0x3003 stOK 5 false 0x3010 2 (dataUN 0 0 0 0 (c * 256) walk (owners % 2 ^ 64))

/-- A free cell that a reference names (R250). -/
def noteDangling (d : Dev) (x : Nat × Nat) : Dev :=
  emit (d.inc 0x3010 4 0) 0x3004 stBadPointer 5 false 0x3010 4 (dataUN 5 x.1 0 0 (x.2 * 256) 0 0)

/-- AUDIT_WALK_END (R250). -/
def execAuditWalkEnd (s : State) : Res :=
  lift s fun _ d =>
    if !d.buf.walking then d
    else
      let d1 := d.inc 0x3010 1 0
      let now := liveRefs d1
      let refs := now.map Prod.snd ++ d.buf.seen
      let isRef := fun (c : Nat) => refs.contains c || !d.buf.atStart.contains c
      let lost := (d.buf.cells.keys).filter (fun c => !isRef c)
      let d2 := { d1 with buf := { d1.buf with leaks := d1.buf.leaks.filter (fun l => !isRef l.cell) } }
      let d3 := lost.foldl (noteUnreferenced (d1.ctr 0x3010 1 0) d.buf.suspects) d2
      let gone := (now.filter (fun x => (d.buf.cells.find? x.2).isNone)).foldl
        (fun (acc : List (Nat × Nat)) x => if acc.any (fun y => y.2 = x.2) then acc else acc ++ [x]) []
      let d4 := gone.foldl noteDangling d3
      { d4 with buf := { d4.buf with walking := false, atStart := [], seen := [], suspects := lost } }

/-- A holder's bit taken from a cell: the cell goes back when no bit is left, and a release that the holder still makes will be a
mismatch (R252). -/
def reclaimCell (holder : Nat) (d : Dev) (c : Nat) : Dev :=
  let d1 := releaseCells d holder [c]
  { d1 with buf := { d1.buf with reclaimed := (c, holder) :: d1.buf.reclaimed } }.inc 0x3010 6 0

/-- The rule of BUF_RECLAIM (R252). -/
def reclaimRule (ref holder : Nat) (d : Dev) : Dev × Nat :=
  let c := ref / 256
  if ref % 256 != 0 || 2 ^ 29 ≤ ref then refuse d stBadPointer
  else if !d.buf.leaks.any (fun l => l.cell = c) || (liveRefs d).any (fun x => x.2 = c) then refuse d stBadPointer
  else
    match d.buf.cells.find? c with
    | none => refuse d stBadPointer
    | some r => if r.owners.testBit holder then accept (reclaimCell holder d c) else refuse d stBadPointer

/-- BUF_RECLAIM (R252). -/
def execBufReclaim (rq : Rq) (ref holder : Nat) (s : State) : Res :=
  lift s fun _ d => serveWrite d rq 0x3010 5 (toBytes 4 ref ++ toBytes 1 holder ++ List.replicate 3 0)
    (reclaimRule (ref % 2 ^ 32) (holder % 256))

end Sys2Proof.Machine
end

