-- ==== Sys2Proof/Machine/Moves.lean ====
section
/-! DEFINITION. PREFETCH, COPY, SEND, SIGNAL, the streaming windows and the ATOMIC opcode (spec/05_stream_programs.md R117,
R125, spec/12_routing_and_canopy.md R338). -/

namespace Sys2Proof.Machine

/-- N × 64 bytes from A to D; D must lie in a range of `kind`. -/
def copyStep (kind : Nat) (t : Stp) : StepRes :=
  { reads := [{ addr := t.a, len := 64 * t.n, align := 64 }],
    writes := [{ addr := t.dd, data := t.get t.a (64 * t.n), align := 64, kind := kind }] }

/-- PREFETCH (R117): into scratch only. -/
def execPrefetch (g e c : Nat) (s : State) : Res := engineStep g e c 0x01 (some 0) s (copyStep 1)

/-- What the stack interface reports for a COPY's read or write of the stacks: the device after it, and whether the read met
a line that must not be used. -/
def copyFx (p : Part) (d : Dev) (gr : Grove) (a n : Nat) (fx : StackFx) : Dev × Bool :=
  match region p d gr a n with
  | some (.stack o) => applyFx p d o fx
  | _ => (d, false)

/-- COPY (R117), with what the stacks report for it (R355, R357). -/
def execCopy (g e c : Nat) (fx : StackFx) (s : State) : Res :=
  liftAt s (decide (g < s.part.groves) && decide (e < 16) && decide (c < 4096)) fun p d =>
    if !canStep d g e c 0x02 (some 0) then d
    else
      let t := stepOf p d g e c
      let n := 64 * t.n
      let gr := d.grove g
      if fxIsWrite fx then
        let d1 := runStep p d g e c (copyStep 0 t)
        if ((d1.grove g).ctx e c).steps = t.x.steps then d1 else (copyFx p d1 gr t.dd n fx).1
      else
        let r := copyFx p d gr t.a n fx
        if r.2 then eccFault p r.1 g e c t.a n else runStep p r.1 g e c (copyStep 0 (stepOf p r.1 g e c))

/-- A SEND step (R117): to an aperture; the last one reads the remote flag word at B when PARAM[31] is set. -/
def sendStep (t : Stp) : StepRes :=
  let r := copyStep 2 t
  if t.prm.testBit 31 && t.last then
    { r with reads := r.reads ++ [{ addr := t.b, len := 8, align := 8 }], word := some (ofBytes (t.get t.b 8)) }
  else r

/-- SEND. -/
def execSend (g e c : Nat) (s : State) : Res := engineStep g e c 0x0C (some 0) s sendStep

/-- SIGNAL (R117): the remote flag word at B; the increment leaves at completion. -/
def execSignal (g e c : Nat) (s : State) : Res :=
  engineStep g e c 0x0D (some 0) s (fun t =>
    { reads := [{ addr := t.b, len := 8, align := 8 }], word := some (ofBytes (t.get t.b 8)) })

/-- The read sequence of A that a window is bound to (R117): its address at every step. -/
def readSequence (t : Stp) : List Nat := t.all.map (operandAddr (t.d.grove t.g) t.x.cmd t.e 0)

/-- A command with no operands left to touch: every step done at once. -/
def finishSteps (d : Dev) (g e c : Nat) : Dev :=
  let gr := d.grove g
  let x := gr.ctx e c
  d.setGrove g (gr.setCtx e c { x with st := .waitWrite, steps := gr.steps x.cmd })

/-- WOPEN (R93, R117): the window is bound to stack addresses only; a window that is open keeps the command waiting in
WAIT_DATA until it closes (DESIGN CHOICE, log entry 122). -/
def execWopen (g e c : Nat) (s : State) : Res :=
  liftAt s (decide (g < s.part.groves) && decide (e < 16) && decide (c < 4096)) fun p d =>
    if !canStep d g e c 0x0A (some 0) then d
    else
      let t := stepOf p d g e c
      let w := bits t.prm 0 6
      let gr := d.grove g
      let xs := readSequence t
      match xs.find? (fun a => match region p d gr a 1 with | some (.stack _) => false | _ => true) with
      | some a => ctxFault p d g e c 0x02 stBadPointer a
      | none =>
        if (gr.wins.get none w).isSome then d.setGrove g (gr.setCtx e c { t.x with st := .waitData })
        else finishSteps (d.setGrove g { gr with wins := gr.wins.set none w (some xs) }) g e c

/-- WCLOSE (R117). -/
def execWclose (g e c : Nat) (s : State) : Res :=
  liftAt s (decide (g < s.part.groves) && decide (e < 16) && decide (c < 4096)) fun p d =>
    if !canStep d g e c 0x0B (some 0) then d
    else
      let gr := d.grove g
      let w := bits (stepOf p d g e c).prm 0 6
      finishSteps (d.setGrove g { gr with wins := gr.wins.set none w none }) g e c

/-- Bytes of an atomic's operand at A: CAS takes compare, then new (R338). -/
def atomicLen (op : Nat) : Nat := if op = 0x14 then 16 else 8

/-- The payload of an atomic: each 8-byte field holds its operand in the low bytes, the rest zero (R338). -/
def atomicPayload (ty : Nat) (bs : List Byte) : List Byte :=
  (chunksOf 8 2 bs).flatMap (fun f => toBytes 8 (ofBytes (f.take (atypeBytes ty))))

/-- One ATOMIC step (R338): the request leaves, and the context waits for its response, which writes the old value to B. -/
def atomicRun (op g e c : Nat) (s : State) : Res :=
  liftAt s (decide (g < s.part.groves) && decide (e < 16) && decide (c < 4096)) fun p d =>
    if !canStep d g e c 0x0E (some op) then d
    else
      let t := stepOf p d g e c
      let gr := d.grove g
      let ty := bits t.prm 28 4
      let rd : Rd := { addr := t.a, len := atomicLen op, align := 8 }
      let r : StepRes := { reads := [rd], writes := [{ addr := t.b, data := List.replicate 8 0, align := 8 }] }
      let target : Wr := { addr := t.dd, data := List.replicate (atypeBytes ty) 0, align := atypeBytes ty, kind := 2 }
      match badOperand p d gr { r with writes := r.writes ++ [target] } with
      | some a => ctxFault p d g e c 0x02 stBadPointer a
      | none =>
        if !(missingLines p d gr t.x r).isEmpty || !(pendingLines p d gr e c r).isEmpty || gr.ctxPoison.contains (e * 4096 + c)
            || gr.bodyPoison t.x.cmd then
          runStep p d g e c r
        else
          let y := readFlaws p gr d r.reads
          match y.2 <|> poisonOperand p y.1 gr e r with
          | some a => eccFault p y.1 g e c a.1 a.2
          | none =>
            let ca := (canopyAt p d gr t.dd).getD 0
            if homeDead p d ca then ctxFault p y.1 g e c 0x0B stFenced t.dd
            else
              let d1 := y.1.setGrove g (gr.setCtx e c { t.x with st := .waitData, holds := [] })
              sendReqs d1 g [groveReq d g e c 0 op t.dd ca ty 0 (atomicPayload ty (t.get t.a (atomicLen op)))]

/-- ATOMIC ADD. -/
def execAtomicAdd (g e c : Nat) (s : State) : Res := atomicRun 0x10 g e c s
/-- ATOMIC EXADD. -/
def execAtomicExadd (g e c : Nat) (s : State) : Res := atomicRun 0x11 g e c s
/-- ATOMIC MIN. -/
def execAtomicMin (g e c : Nat) (s : State) : Res := atomicRun 0x12 g e c s
/-- ATOMIC MAX. -/
def execAtomicMax (g e c : Nat) (s : State) : Res := atomicRun 0x13 g e c s
/-- ATOMIC CAS. -/
def execAtomicCas (g e c : Nat) (s : State) : Res := atomicRun 0x14 g e c s
/-- ATOMIC SWAP. -/
def execAtomicSwap (g e c : Nat) (s : State) : Res := atomicRun 0x15 g e c s

end Sys2Proof.Machine
end

