-- ==== Sys2Proof/Machine/Security.lean ====
section
/-! DEFINITION. Flash writes, boot control, attestation and the test access port (spec/17_startup_and_security.md R432, R436,
R446-R452). -/

namespace Sys2Proof.Machine

/-! ### Flash (R436) -/

/-- The region of R435 that software may write and that a byte lies in: banks A and B, owner slots 0 and 1. -/
def flashRegion (a : Nat) : Option Nat :=
  if a < 0x01000000 then some 0 else if a < 0x02000000 then some 1 else if a < 0x02100000 then some 2
  else if a < 0x02200000 then some 3 else none

/-- A flash request's range touches the bank the device runs from. -/
def hitsRunning (d : Dev) (off len : Nat) : Bool :=
  decide (off < bankBase d.boot.bank + 0x01000000) && decide (bankBase d.boot.bank < off + len) && !d.boot.recovery

/-- A flash operation begins. -/
def startFlash (d : Dev) (o : FlashOp) : Dev :=
  { d with boot := { d.boot with flashOp := some o, flashReached := o.off } }

/-- FLASH_WRITE's rule, on channel `c`. -/
def flashWriteRule (off : Nat) (data : List Byte) (c : Nat) (d : Dev) : Dev × Nat :=
  if data.isEmpty || (flashRegion off).isNone || flashRegion off != flashRegion (off + data.length - 1) then refuse d stBadField
  else if hitsRunning d off data.length || d.boot.flashOp.isSome || flashAsmElsewhere d c then refuse d stNotReady
  else accept (startFlash d ⟨false, off, data.length, data, false⟩)

/-- FLASH_WRITE (R436). -/
def execFlashWrite (rq : Rq) (off : Nat) (data : List Byte) (s : State) : Res :=
  lift s fun _ d => serve d rq (Call.write 0xA001 0 (toBytes 8 (off % 2 ^ 32) ++ data))
    (fun c d => ((flashWriteRule (off % 2 ^ 32) data c d).1, some (Rsp.st (flashWriteRule (off % 2 ^ 32) data c d).2)))

/-- FLASH_ERASE's rule, on channel `c`. -/
def flashEraseRule (off len : Nat) (c : Nat) (d : Dev) : Dev × Nat :=
  if off % 65536 != 0 || len % 65536 != 0 || 0x02200000 < off + len then refuse d stBadField
  else if hitsRunning d off len || d.boot.flashOp.isSome || flashAsmElsewhere d c then refuse d stNotReady
  else accept (startFlash d ⟨true, off, len, [], false⟩)

/-- FLASH_ERASE (R436). -/
def execFlashErase (rq : Rq) (off len : Nat) (s : State) : Res :=
  lift s fun _ d => serve d rq (Call.write 0xA001 1 (toBytes 4 off ++ toBytes 4 len))
    (fun c d => ((flashEraseRule (off % 2 ^ 32) (len % 2 ^ 32) c d).1,
      some (Rsp.st (flashEraseRule (off % 2 ^ 32) (len % 2 ^ 32) c d).2)))

/-- An operation ends: FLASH_STATE. -/
def flashDone (d : Dev) (st reached : Nat) (flash : Mem) : Dev :=
  { d with boot := { d.boot with flashOp := none, flash := flash, flashStatus := st, flashReached := reached } }

/-- FLASH_OP_FAIL with cause 1 (R453). -/
def flashFail (d : Dev) (off : Nat) : Dev := emit d 0xA005 stCheckFail 5 false 0xA001 2 (dataUN 0 0 0 1 off 0 0)

/-- The first byte whose read-back differs when `new` is programmed over `old`: programming only clears bits. -/
def programMismatch (old new : List Byte) : Option Nat :=
  firstIx (fun x => x.1 &&& x.2 != x.2) (old.zip new) 0

/-- A program ends (R436): each page is read back, and a mismatch ends the operation there. How far the failing page reached, and
the byte that a faulty cell reads back, are left open (free values). -/
def endProgram (d : Dev) (o : FlashOp) (readBackOk : Bool) : Dev :=
  let old := flashBytes d o.off o.len
  let put := fun (n : Nat) => d.boot.flash.writeN 0xFF#8 o.off ((programmed old o.data).take n)
  match programMismatch old o.data with
  | some m =>
    let n := m + 1 + d.draw.1 % (o.len - m)
    flashFail (flashDone d.draw.2 stCheckFail (o.off + m) (put n)) (o.off + m)
  | none =>
    if readBackOk then flashDone d stOK (o.off + o.len) (put o.len)
    else
      let m := d.draw.1 % o.len
      let v := BitVec.ofNat 8 d.draw.2.draw.1
      flashFail (flashDone d.draw.2.draw.2 stCheckFail (o.off + m) (Mem.write (put (m + 1)) 0xFF#8 (o.off + m) v)) (o.off + m)

/-- An erase ends; when the check fails, the sectors done are left open (a free value). -/
def endErase (d : Dev) (o : FlashOp) (ok : Bool) : Dev :=
  if ok then flashDone d stOK (o.off + o.len) (d.boot.flash.clear o.off o.len)
  else
    let n := d.draw.1 % (o.len / 65536 + 1) * 65536
    flashFail (flashDone d.draw.2 stCheckFail (o.off + n) (d.boot.flash.clear o.off n)) (o.off + n)

/-- The oldest record on its way to the persistent tail is written, the tail's writes going before software's (R432, R438); a write that
fails leaves a record whose CRC fails, and FLASH_OP_FAIL. Where in its region a record stands is the device's own (a free value). -/
def tailDone (d : Dev) (r : TailRec) (rest : List TailRec) (ok : Bool) : Dev :=
  let d1 := { d with boot := { d.boot with tailWait := rest } }
  if ok then putTail d1 r
  else
    emit (putTail d1.draw.2 { r with good := false }) 0xA005 stCheckFail 5 false 0xA001 2
      (dataUN 0 0 0 3 (0x02400000 + 128 * (d1.draw.1 % 32768)) 0 0)

/-- As much of an operation as ends with the page or sector in progress: which one that is, is left open (a free value). -/
def currentPart (o : FlashOp) (v : Nat) : FlashOp :=
  let n := if o.erase then (v % (o.len / 65536) + 1) * 65536 else v % o.len + 1
  { o with len := min n o.len, data := o.data.take n }

/-- An operation of software ends. -/
def endFlash (d : Dev) (o : FlashOp) (ok : Bool) : Dev := if o.erase then endErase d o ok else endProgram d o ok

/-- FLASH_OP_COMPLETE (R432, R436, R438): a page of the tail is written, or an operation of software ends; a reset that waits for the
page or sector in progress takes effect with it. -/
def execFlashOpComplete (readBackOk : Bool) (s : State) : Res :=
  lift s fun p d =>
    if !d.runs domXspi then d
    else
      match d.boot.tailWait with
      | r :: rest => tailDone d r rest readBackOk
      | [] =>
        match d.boot.flashOp with
        | none => d
        | some o => if o.resetAfter then ownReset p (endFlash d.draw.2 (currentPart o d.draw.1) readBackOk) else endFlash d o readBackOk

/-! ### Boot control (R432, R446, R452) -/

/-- The 8 bytes of a BOOT_CTRL write. -/
def bootCtrl (op : Nat) : Call := Call.write 0xA002 0 (toBytes 8 op)

/-- Every open FLASH_WRITE assembly discarded (R432). -/
def dropFlashAsm (d : Dev) : Dev :=
  d.chans.keys.foldl (fun d c =>
    match (d.chan c).asm with
    | some a => if a.idx = 0xA001 && a.sub = 0 then dropAsm d c else d
    | none => d) d

/-- BOOT_RESET (R431, R432): at once, or when the flash page or sector in progress completes. -/
def execBootReset (rq : Rq) (s : State) : Res :=
  lift s fun p d => serve d rq (bootCtrl 1) (fun _ d =>
    match d.boot.flashOp with
    | some o => (dropFlashAsm { d with boot := { d.boot with flashOp := some { o with resetAfter := true } } }, some (Rsp.st stOK))
    | none => (ownReset p (respond d rq (Rsp.st stOK)), none))

/-- A bank verified into BANK_INFO (R436, R452). -/
def verifyBank (p : Part) (d : Dev) (b : Nat) : Dev :=
  { d with boot := { d.boot with bankStatus := d.boot.bankStatus.set 0 b (bankVerify p d b) } }

/-- VERIFY_BANK_A. -/
def execVerifyBankA (rq : Rq) (s : State) : Res :=
  lift s fun p d => serve d rq (bootCtrl 2) (fun _ d => (verifyBank p d 0, some (Rsp.st stOK)))

/-- VERIFY_BANK_B. -/
def execVerifyBankB (rq : Rq) (s : State) : Res :=
  lift s fun p d => serve d rq (bootCtrl 3) (fun _ d => (verifyBank p d 1, some (Rsp.st stOK)))

/-- ATTEMPT_RESET (R446): in recovery mode only. -/
def execAttemptReset (rq : Rq) (s : State) : Res :=
  lift s fun p d => serve d rq (bootCtrl 4) (fun _ d =>
    if !d.boot.recovery then (d, some (Rsp.st stBadField))
    else (ownReset p (appendTail (respond d rq (Rsp.st stOK)) 4 0), none))

/-! ### SPDM (R449-R451) -/

/-- The responder state of a peer: 0 the PCIe data object exchange, otherwise a field-network peer. -/
def Dev.spdm (d : Dev) (peer : Nat) : Spdm := d.boot.spdm.get Spdm.init peer

/-- Responder state changed. -/
def Dev.setSpdm (d : Dev) (peer : Nat) (x : Spdm) : Dev := { d with boot := { d.boot with spdm := d.boot.spdm.set Spdm.init peer x } }

/-- An ERROR message with an SPDM error code: 1 InvalidRequest, 3 Busy, 4 UnexpectedRequest, 7 UnsupportedRequest, 15 LargeResponse
(log entry 56). -/
def spdmError (code : Nat) : List Byte := Config.spdmBody 0x7F (toBytes 1 code)

/-- A message to a peer. -/
def spdmReply (d : Dev) (peer : Nat) (msg : List Byte) : Dev := d.send (.spdm peer msg)

/-- A message is too long for one datagram of the field network (R450). -/
def spdmLong (peer : Nat) (msg : List Byte) : Bool := peer != 0 && decide (1024 < msg.length)

/-- A response: on the field network one of more than 1,024 bytes waits for CHUNK_GET (R450). The exchange joins the
transcript. -/
def spdmAnswer (d : Dev) (peer : Nat) (x : Spdm) (req rsp : List Byte) : Dev :=
  let x' := { x with transcript := x.transcript ++ req ++ rsp, reply := rsp }
  if spdmLong peer rsp then spdmReply (d.setSpdm peer { x' with long := rsp }) peer (spdmError 15)
  else spdmReply (d.setSpdm peer x') peer rsp

/-- Measurement `k` of R449: 1 to 6 as taken, 7 from the test port's state now. -/
def measurement (d : Dev) (k : Nat) : Nat :=
  if k = 7 then Config.sha384 (toBytes 1 (b2n d.boot.jtag)) else d.boot.meas.getD (k - 1) 0

/-- The measurement blocks that an operation names: 0 none, 255 all seven, otherwise one. -/
def measBlocks (d : Dev) (op : Nat) : List Byte :=
  let block := fun (k : Nat) => toBytes 1 k ++ toBytes 48 (measurement d k)
  if op = 0 then [] else if op = 255 then ((List.range 7).map (· + 1)).flatMap block
  else if 1 ≤ op ∧ op ≤ 7 then block op else []

/-- The requests of R450 that an SPDM message can be, the chunk transfer apart. -/
inductive SpdmReq where
  | version | capabilities | algorithms | digests
  | certificate (off len : Nat)
  | challenge
  | measurements (signed : Bool) (op : Nat)
  | pqSign | pqCert
  | unknown
  deriving DecidableEq, Repr

/-- A request that needs agreed algorithms. -/
def SpdmReq.needsAlgorithms : SpdmReq → Bool
  | .digests | .certificate _ _ | .challenge | .measurements _ _ => true
  | _ => false

/-- A little-endian field of a message. -/
def msgField (msg : List Byte) (off n : Nat) : Nat := ofBytes ((msg.drop off).take n)

/-- The request that a whole message is: its code, its parameters and its vendor's operation where DSP0274 puts them (PRESUMED, log
entry 56). -/
def spdmParse (msg : List Byte) : SpdmReq :=
  match msgField msg 1 1 with
  | 0x84 => .version
  | 0xE1 => .capabilities
  | 0xE3 => .algorithms
  | 0x81 => .digests
  | 0x82 => .certificate (msgField msg 4 2) (msgField msg 6 2)
  | 0x83 => .challenge
  | 0xE0 => .measurements ((msg.getD 2 0).toNat % 2 = 1) (msgField msg 3 1)
  | 0xFE =>
    match msgField msg (7 + msgField msg 6 1 + 2) 1 with
    | 1 => .pqSign
    | 2 => .pqCert
    | _ => .unknown
  | _ => .unknown

/-- StandardID and vendor ID of a VENDOR_DEFINED_REQUEST are those of SPDM_VENDOR_ID (R451, R452). -/
def vendorOk (msg : List Byte) : Bool :=
  decide (msgField msg 4 2 + 65536 * msgField msg 7 (msgField msg 6 1) = Config.spdmVendorId % 2 ^ 32)

/-- What ALGORITHMS selects: TPM_ALG_RSAPSS_3072, and TPM_ALG_SHA_384 as base and as measurement hash (R450), by the bits that DSP0274
gives them (PRESUMED, log entry 56). -/
def algorithmBits : List Byte := toBytes 4 8 ++ toBytes 4 2 ++ toBytes 4 4

/-- A vendor-defined response of this device: its IDs and the payload (R451). -/
def vendorBody (payload : List Byte) : List Byte := Config.spdmBody 0x7E (toBytes 4 Config.spdmVendorId ++ payload)

/-- What a request does and is answered (R449-R451), or the error it is answered with: a signed MEASUREMENTS response fixes the
transcript hash L2 that PQ_SIGN signs. -/
def spdmRule (d : Dev) (x : Spdm) (msg : List Byte) (q : SpdmReq) : Except Nat (Spdm × List Byte) :=
  if q.needsAlgorithms && !x.negotiated then .error 4
  else match q with
  | .version => .ok ({ x with negotiated := false, transcript := [] }, Config.spdmBody 0x04 [0x12#8, 0x13#8])
  | .capabilities => .ok (x, Config.spdmBody 0x61 msg)
  | .algorithms => .ok ({ x with negotiated := true }, Config.spdmBody 0x63 (algorithmBits ++ msg))
  | .digests => .ok (x, Config.spdmBody 0x01 (toBytes 48 (Config.sha384 (Config.certChain 0))))
  | .certificate off len => .ok (x, Config.spdmBody 0x02 (((Config.certChain 0).drop off).take len))
  | .challenge =>
    let body := Config.spdmBody 0x03 (toBytes 48 (Config.sha384 (measBlocks d 255)))
    .ok (x, body ++ Config.rsaSign (x.transcript ++ msg ++ body))
  | .measurements signed op =>
    if 7 < op && op != 255 then .error 1
    else
      let body := Config.spdmBody 0x60 (measBlocks d op)
      if signed then
        .ok ({ x with l2 := some (Config.transcriptHash (x.transcript ++ msg ++ body)) },
          body ++ Config.rsaSign (x.transcript ++ msg ++ body))
      else .ok (x, body)
  | .pqSign =>
    if !vendorOk msg then .error 7
    else match x.l2 with
      | none => .error 1
      | some h => .ok (x, vendorBody (toBytes 2 16224 ++ Config.slhSign h))
  | .pqCert => if !vendorOk msg then .error 7 else .ok (x, vendorBody (Config.certChain 1))
  | .unknown => .error 7

/-- A request while the security processor runs: ERROR Busy until SECURITY is ready (R450). -/
def spdmServe (peer : Nat) (s : State) (f : Dev → Spdm → Dev) : Res :=
  lift s fun _ d =>
    if !d.runs domSec then d
    else if !d.isReady 3 then spdmReply d peer (spdmError 3)
    else f d (d.spdm peer)

/-- A request carried by one message. -/
def spdmRun (peer : Nat) (msg : List Byte) (q : SpdmReq) (s : State) : Res :=
  spdmServe peer s fun d x =>
    match spdmRule d x msg q with
    | .error c => spdmReply d peer (spdmError c)
    | .ok (x', rsp) => spdmAnswer d peer x' msg rsp

/-- GET_VERSION: versions 1.2 and 1.3; a new exchange begins. -/
def execGetVersion (peer : Nat) (msg : List Byte) (s : State) : Res := spdmRun peer msg .version s

/-- GET_CAPABILITIES. -/
def execGetCapabilities (peer : Nat) (msg : List Byte) (s : State) : Res := spdmRun peer msg .capabilities s

/-- NEGOTIATE_ALGORITHMS: RSAPSS 3072 and SHA-384 (R450). -/
def execNegotiateAlgorithms (peer : Nat) (msg : List Byte) (s : State) : Res := spdmRun peer msg .algorithms s

/-- GET_DIGESTS: the digest of the slot 0 chain. -/
def execGetDigests (peer : Nat) (msg : List Byte) (s : State) : Res := spdmRun peer msg .digests s

/-- GET_CERTIFICATE: a part of the slot 0 chain. -/
def execGetCertificate (peer offset len : Nat) (msg : List Byte) (s : State) : Res := spdmRun peer msg (.certificate offset len) s

/-- CHALLENGE, signed with the RSA identity key. -/
def execChallenge (peer : Nat) (msg : List Byte) (s : State) : Res := spdmRun peer msg .challenge s

/-- GET_MEASUREMENTS (R449, R451). An operation that names no block is answered InvalidRequest. -/
def execGetMeasurements (peer : Nat) (signed : Bool) (op : Nat) (msg : List Byte) (s : State) : Res :=
  spdmRun peer msg (.measurements signed op) s

/-- CHUNK_SEND: part of a long message. With the last part the whole message is executed, and its response goes with the
acknowledgement, or waits for CHUNK_GET where that is too long (R450). -/
def execChunkSend (peer : Nat) (last : Bool) (part : List Byte) (s : State) : Res :=
  spdmServe peer s fun d x =>
    let whole := x.asm ++ part
    if !last then spdmReply (d.setSpdm peer { x with asm := whole }) peer (Config.spdmBody 0x05 [])
    else
      match spdmRule d { x with asm := [] } whole (spdmParse whole) with
      | .error c => spdmReply (d.setSpdm peer { x with asm := [] }) peer (Config.spdmBody 0x05 (spdmError c))
      | .ok (y, rsp) =>
        let y' := { y with transcript := y.transcript ++ whole ++ rsp, reply := rsp }
        if spdmLong peer (Config.spdmBody 0x05 rsp) then
          spdmReply (d.setSpdm peer { y' with long := rsp }) peer (Config.spdmBody 0x05 (spdmError 15))
        else spdmReply (d.setSpdm peer y') peer (Config.spdmBody 0x05 rsp)

/-- A CHUNK_RESPONSE of at most 1,024 bytes, laid out as DSP0274 does (PRESUMED, log entry 56): version and handle of the request,
whether it is the last, its number, its bytes, and in the first the whole length. -/
def chunkResponse (long : List Byte) (k : Nat) (msg : List Byte) : List Byte :=
  let at_ := if k = 0 then 0 else 1008 + 1012 * (k - 1)
  let part := (long.drop at_).take (if k = 0 then 1008 else 1012)
  [msg.getD 0 0, 0x06#8, BitVec.ofNat 8 (b2n (decide (long.length ≤ at_ + part.length))), msg.getD 3 0] ++ toBytes 2 k ++ toBytes 2 0
    ++ toBytes 4 part.length ++ (if k = 0 then toBytes 4 long.length else []) ++ part

/-- CHUNK_GET: part of the long response; past its end there is none to get. -/
def execChunkGet (peer chunk : Nat) (msg : List Byte) (s : State) : Res :=
  spdmServe peer s fun d x =>
    if x.long.isEmpty || (chunk != 0 && decide (x.long.length ≤ 1008 + 1012 * (chunk - 1))) then spdmReply d peer (spdmError 1)
    else spdmReply d peer (chunkResponse x.long chunk msg)

/-- PQ_SIGN (R451): the SLH-DSA signature over L2 of the peer's latest signed MEASUREMENTS. -/
def execPqSign (peer : Nat) (msg : List Byte) (s : State) : Res := spdmRun peer msg .pqSign s

/-- PQ_CERT (R451): the SLH-DSA certificate chain. -/
def execPqCert (peer : Nat) (msg : List Byte) (s : State) : Res := spdmRun peer msg .pqCert s

/-- JTAG_INSTRUCTION_LOAD (R449): 0 is BYPASS, 1 IDCODE; any other instruction shows in measurement 7 until the next
power-up. -/
def execJtagInstructionLoad (ir : Nat) (s : State) : Res :=
  lift s fun _ d =>
    if d.boot.rails && 1 < ir then { d with boot := { d.boot with jtag := true } } else d

end Sys2Proof.Machine
end

