-- ==== Sys2Proof/Machine/Values.lean ====
section
/-! DEFINITION. What a READ returns: the value of every object of the dictionary (the object table of each chapter; R388, R390, R394,
R397, R398, R404). The reads that rearm a mark or drain a queue are in Reads.lean. -/

namespace Sys2Proof.Machine

/-! ### Records that only a READ forms -/

/-- COEF_STORE of a lane (R297): absent links have none. -/
def coefRec (p : Part) (d : Dev) (lane : Nat) : Nat := if p.hasLink (lane / 4) then coefStatus d (lane / 4) else 0

/-- A BUF_LEAKS record (R251). -/
def Leak.record (l : Leak) : List Byte := toBytes 4 (l.cell * 256) ++ toBytes 4 l.audits ++ toBytes 8 l.pace ++ toBytes 32 l.owners

/-- BANK_STATE of a grove (R146). -/
def bankStateRec (gr : Grove) : Nat :=
  let code := fun (b : BankSt) => match b with | .idle => 0 | .active => 1 | .draining => 2
  pack [(0, 2, code gr.b0), (2, 2, code gr.b1), (4, 1, b2n gr.armed.isSome), (5, 1, match gr.armed with | some x => x.1 | none => 0)]

/-- FLAG_STATE of a grove (R146): C, PL and PE of each flag. -/
def flagStateRec (gr : Grove) : List Byte :=
  (List.range 256).flatMap (fun k => let f := gr.flags.get Flag.zero k; toBytes 2 f.c ++ toBytes 2 f.pl ++ toBytes 2 f.pe)

/-- A MOE_ROUTES record (R213). -/
def RouteTab.record (r : RouteTab) : Nat := pack [(0, 32, r.coll), (32, 32, r.job), (64, 32, r.bytes), (96, 32, b2n r.inUse)]

/-- FENCED_DEVICES (R350): bit 33 × row + column. -/
def fencedDevices (d : Dev) : Nat := ((d.sw.fenced.eraseDups).map (fun c => 2 ^ (33 * (c / 64) + c % 64))).sum

/-- MEM_AREAS (R353, R366): offset and size of each area, from the top of capacity down. -/
def memAreas (p : Part) (d : Dev) : List Byte :=
  (List.range 4).flatMap (fun k => toBytes 8 (areaBase p d k) ++ toBytes 8 (areaGib d k * 2 ^ 30))

/-- MEM_STATS of a stack (R366). -/
def memStatsRec (d : Dev) (k : Nat) : Nat := packList 64 ((List.range 8).map (fun j => d.mem.stats.get 0 (8 * k + j)))

/-- A MEM_POISON_LOG record (R366). -/
def poisonRec (x : Nat × Nat) : List Byte := toBytes 8 x.1 ++ toBytes 8 x.2

/-- A snapshot slot (R471): the header and the images of its sets, zero bytes behind them. -/
def Snap.bytes (x : Snap) : List Byte :=
  let head := pack [(0, 64, x.seq), (64, 64, x.pace), (128, 64, x.wall), (192, 8, x.mask), (200, 8, x.status), (256, 32, x.image.length)]
  toBytes 64 head ++ x.image ++ List.replicate (131072 - 64 - x.image.length) 0

/-- A BANK_INFO record (R452). -/
def bankInfo (d : Dev) (b : Nat) : Nat :=
  let h := header d (bankBase b)
  pack [(0, 8, d.boot.bankStatus.get 0 b), (8, 8, hdrKey h), (16, 16, hdrMask h), (32, 32, hdrVersion h), (64, 32, hdrSeq h),
    (96, 32, hdrLen h), (128, 32, failedCount d b), (192, 384, hdrDigest h)]

/-- A MEASUREMENTS record (R449, R452). -/
def measRec (d : Dev) (k : Nat) : Nat :=
  let valid := k = 7 || !d.boot.meas.isEmpty
  pack [(0, 8, k), (8, 8, b2n valid), (128, 384, if valid then measurement d k else 0)]

/-- A record of the persistent tail (R438). -/
def TailRec.bytes (r : TailRec) : List Byte :=
  let b := toBytes 64 r.body ++ toBytes 4 r.bootSeq ++ toBytes 4 r.ty
  b ++ toBytes 4 (crc32c b) ++ List.replicate 52 0

/-- FLASH_INFO (R452). -/
def flashInfo : List Byte := toBytes 4 Config.flashSize ++ toBytes 4 65536 ++ toBytes 3 Config.jedecId ++ List.replicate 5 0

/-- IDENTITY (R452). -/
def identityImage (d : Dev) : List Byte :=
  toBytes 4 d.boot.identity ++ toBytes 48 (Config.identityDigestBits 0).toNat ++ toBytes 48 (Config.identityDigestBits 1).toNat

/-! ### Values by chapter -/

/-- Objects of 0x2000 to 0x3FFF that the store does not hold (R263, R297, R315). -/
def valueSwitch (p : Part) (d : Dev) (idx sub : Nat) : Option (List Byte) :=
  match idx, sub with
  | 0x2000, 0 => some (toBytes 1 p.links)
  | 0x2001, 2 => some (tabImage 8 128 (fun n => (d.link n).record))
  | 0x2005, 0 => some (tabImage 128 128 (countersRec d))
  | 0x2006, 0 => some (tabImage 1 512 (coefRec p d))
  | 0x2012, 1 => some (toBytes 4 d.sw.macs.length)
  | 0x2020, 1 => some ((d.sw.samples.take 16).flatMap sampleBytes)
  | 0x2020, 2 => some (toBytes 2 d.sw.samples.length)
  | 0x3000, 1 => some (toBytes 4 (bufFree d))
  | 0x3000, 2 => some (toBytes 4 (min d.buf.lwm (bufFree d)))
  | 0x3000, 3 => some (toBytes 4 d.buf.retired.length)
  | 0x3010, 2 => some (d.buf.leaks.flatMap Leak.record)
  | 0x3102, 0 => some (tabImage 64 128 (qdepthRec d))
  | 0x3102, 1 => some (tabImage 256 128 (qhwmLink d))
  | 0x3103, 0 => some (tabImage 512 128 (qstatsRec d))
  | _, _ => none

/-- Objects of 0x4000 to 0x5FFF that the store does not hold (R101, R146, R182, R213, R264). -/
def valueGroves (p : Part) (d : Dev) (idx sub : Nat) : Option (List Byte) :=
  match idx, sub with
  | 0x4000, 0 => some (toBytes 1 p.groves)
  | 0x4001, 0 => some (toBytes 1 (freeSpares p d).length)
  | 0x4001, 2 => some (toBytes 4 (grovesLost p d))
  | 0x4002, 0 => some (tabImage 2 (16 * p.groves) (ctxNow d))
  | 0x4002, 1 => some (tabImage 2 (16 * p.groves) (fun k => max (d.marks.get 0 (1000 + k)) (ctxNow d k)))
  | 0x4100, 2 => some (tabImage 1 p.groves (fun g => (d.grove g).phase.code))
  | 0x4102, 2 => some (tabImage 1 p.groves (fun g => bankStateRec (d.grove g)))
  | 0x4102, 3 => some (tabImage 8 p.groves (fun g => bankCrc (d.grove g) 0 + 2 ^ 32 * bankCrc (d.grove g) 1))
  | 0x4105, 0 => some ((List.range p.groves).flatMap (fun g => flagStateRec (d.grove g)))
  | 0x4106, 0 => some ((List.range p.groves).flatMap (fun g => (d.grove g).haltRec))
  | 0x4300, 1 => some (tabImage 8 1024 (fun n => d.rd 0x4300 1 n + (d.ctx n).hist.length))
  | 0x5001, 1 => some (d.colls.ops.flatMap (fun o => toBytes 16 o.activeRec))
  | 0x5003, 0 => some (d.colls.doneLog.reverse.flatMap id)
  | 0x5030, 0 => some (d.colls.routes.flatMap (fun r => toBytes 16 r.record))
  | 0x5200, 0 => some (tabImage 8 p.groves (slotRec d))
  | 0x5201, 0 => some ((sortBy Op.ticket (d.colls.ops.filter Op.waiting)).flatMap (fun o => toBytes 24 (slotQueueRec d o)))
  | _, _ => none

/-- Objects of 0x6000 to 0x8FFF that the store does not hold (R226, R236, R350, R366, R387). -/
def valueFabric (p : Part) (d : Dev) (idx sub : Nat) : Option (List Byte) :=
  match idx, sub with
  | 0x6011, 0 => some (toBytes 16 (epochBytes d))
  | 0x6011, 3 => some (toBytes 4 (epochCrc d 0) ++ toBytes 4 (epochCrc d 1))
  | 0x6012, 0 => some (tabImage 2 66 (fun k => d.sw.adapt.get 0 k))
  | 0x6030, 1 => some (toBytes 137 (fencedDevices d))
  | 0x6030, 2 => some (toBytes 4 (d.sw.fseqs.headD 0))
  | 0x7000, 0 => some (toBytes 1 p.stacks)
  | 0x7000, 1 => some (toBytes 8 (memCapacity p d))
  | 0x7000, 2 => some (toBytes 8 (memSize p d))
  | 0x7000, 3 => some (memAreas p d)
  | 0x7002, 0 => some (tabImage 8 8 (stackRec d))
  | 0x7002, 1 => some (toBytes 1 (memUnprotected p d))
  | 0x7003, 0 => some (tabImage 64 8 (memStatsRec d))
  | 0x7004, 1 => some (toBytes 8 d.mem.scrubPasses ++ toBytes 8 d.mem.scrubNext)
  | 0x7005, 0 => some (d.mem.poisonLog.reverse.flatMap poisonRec)
  | 0x8000, 0 => some (toBytes 8 d.pace.visible)
  | 0x8000, 2 => some (toBytes 1 (paceState d))
  | 0x8001, 4 => some (toBytes 4 d.pace.flight ++ toBytes 4 d.pace.lastDly)
  | 0x8100, 2 => some (toBytes 2 (schedFreeCount d))
  | 0x8100, 3 => some (d.pace.schedLog.reverse.flatMap (toBytes 24))
  | 0x8200, 0 => some (toBytes 8 d.pace.wall)
  | 0x8200, 2 => some (toBytes 1 d.pace.wallState)
  | 0x8400, 1 => some (toBytes 1 d.modes.fcm)
  | 0x8400, 2 => some (toBytes 1 (b2n d.modes.fcmExact))
  | 0x8400, 3 => some (toBytes 8 d.modes.fcmEntry)
  | 0x8500, 3 => some (tabImage 32 2 (fun k => (imageAt d k).statusRec))
  | _, _ => none

/-- Objects of 0x9000 to 0xBFFF that the store does not hold (R420, R452, R473). -/
def valueHealth (p : Part) (d : Dev) (idx sub : Nat) : Option (List Byte) :=
  match idx, sub with
  | 0x9000, 0 => some (toBytes 4 (deviceFaults d))
  | 0x9010, 0 => some (tabImage 20 512 (laneRec p d))
  | 0x9012, 0 => some (tabImage 8 64 (timingRec d))
  | 0x9013, 0 => some (tabImage 8 512 (optRec d))
  | 0x9020, 0 => some (d.spares.log.reverse.flatMap (toBytes 24))
  | 0x9100, 0 => some (setImage p d 2)
  | 0x9110, k => if k < 8 then some (d.health.snaps.get Snap.empty k).bytes else none
  | 0x9111, 1 => some (toBytes 8 (d.ctr 0x9111 1 0) ++ toBytes 8 (d.ctr 0x9111 1 1) ++ toBytes 8 d.health.newest)
  | 0xA000, 0 => some (toBytes 16 (bootState d))
  | 0xA000, 1 => some (tabImage 72 2 (bankInfo d))
  | 0xA001, 2 => some (toBytes 1 (b2n d.boot.flashOp.isSome) ++ toBytes 3 d.boot.flashStatus ++ toBytes 4 d.boot.flashReached)
  | 0xA001, 3 => some flashInfo
  | 0xA003, 0 => some ((List.range 7).flatMap (fun k => toBytes 64 (measRec d (k + 1))))
  | 0xA004, 0 => some (identityImage d)
  | 0xA004, 1 => some (toBytes 4 Config.spdmVendorId)
  | 0xA005, 0 => some (toBytes 16 (selftestImage d))
  | 0xA006, 0 => some ((validTail d).reverse.flatMap TailRec.bytes)
  | 0xA006, 1 => some (toBytes 4 (validTail d).length ++ toBytes 4 (match (validTail d).getLast? with | some r => r.bootSeq | none => 0))
  | 0xB000, 0 => some (toBytes 12 (packList 32 d.health.input))
  | 0xB001, 0 => some (tabImage 16 9 (railRec d))
  | 0xB002, 0 => some (tabImage 2 42 (fun i => if i < 34 + p.stacks then ofSigned 16 (d.health.temps.get 0 i) else 0))
  | 0xB003, 0 => some (toBytes 1 d.health.throttle)
  | _, _ => none

/-- What the store holds of an object: its records as they read (R10). -/
def valueStored (p : Part) (d : Dev) (o : Obj) : List Byte := tabImage o.bytes (o.count p (tabNow d o.idx o.sub)) (recRead p d o.idx o.sub)

/-- A value that the store does not hold. -/
def valueFormed (p : Part) (d : Dev) (idx sub : Nat) : Option (List Byte) :=
  if idx < 0x4000 then valueSwitch p d idx sub else if idx < 0x6000 then valueGroves p d idx sub
  else if idx < 0x9000 then valueFabric p d idx sub else valueHealth p d idx sub

/-- The value of a defined object as channel `c` reads it. -/
def objValue (p : Part) (d : Dev) (c : Nat) (o : Obj) : List Byte :=
  if o.idx < 0x1100 then (readLow p d o.idx o.sub).getD []
  else if o.idx = 0x1F00 then toBytes 1 (b2n (d.chan c).unlocked)
  else (valueFormed p d o.idx o.sub).getD (valueStored p d o)

/-! ### READ (R388, R390, R394, R397, R398) -/

/-- A counter: a read-only U64 or table that the device counts in the store, EVQ_DROPPED, and the counters of links, queues and stacks. -/
def isCounter (p : Part) (d : Dev) (o : Obj) : Bool :=
  o.acc = accRo && (o.ty = 4 || o.ty = 10) &&
    ((o.idx = 0x1021 && o.sub = 3) || [0x2005, 0x3103, 0x7003].contains o.idx
      || (decide (0x1F00 < o.idx) && (valueFormed p d o.idx o.sub).isNone))

/-- A function has been ready since the device reset; objects of the dictionary itself have none. -/
def Dev.seen (d : Dev) (func : Nat) : Bool := func = 255 || d.boot.readySeen.testBit func

/-- The value that a READ gives: before its function is ready a counter reads its reset value, 0 (R404, R414). -/
def readValue (p : Part) (d : Dev) (c : Nat) (o : Obj) : List Byte :=
  let v := objValue p d c o
  if isCounter p d o && !d.seen o.func then List.replicate v.length 0 else v

/-- The response of a READ that changes nothing, on channel `c`: a reserved object reads as eight zero bytes. -/
def readRsp (p : Part) (d : Dev) (path : Path) (c idx sub off len : Nat) : Rsp :=
  match findObj idx sub with
  | none => Rsp.bytes path off len (List.replicate 8 0)
  | some o => if readRangeOk o off len then Rsp.bytes path off len (readValue p d c o) else Rsp.st stBadField

end Sys2Proof.Machine
end

