-- ==== Sys2Proof/Machine/Requests.lean ====
section
/-! DEFINITION. A request that carries no data, of any operation and object (spec/15_dictionary_protocol.md R394): DESCRIBE, a READ
on its channel, and the refusal of an operation that the table does not list. -/

namespace Sys2Proof.Machine

/-- A READ of any object (R394): the objects whose read rearms or drains, then every other. -/
def readAct (p : Part) (path : Path) (idx sub off len : Nat) : Act :=
  match idx, sub with
  | 0x3102, 1 => qhwmAct path off len
  | 0x3000, 2 => lwmAct path off len
  | 0x4002, 1 => ctxHwmAct p path off len
  | 0x9012, 0 => timingAct path off len
  | 0x2020, 1 => sampleAct path off len
  | _, _ => fun c d => (d, some (readRsp p d path c idx sub off len))

/-- The call of a request without data. -/
def objCall (o : ObjReq) (sub : Nat) : Call := ⟨o.op, o.idx, sub, o.off, true, o.len, 0, []⟩

/-- What it does (R394): a WRITE without data is one of no bytes; EVQ_READ and LOG_READ are of their own objects, and take any other
field as it comes. -/
def objAct (p : Part) (path : Path) (o : ObjReq) (sub : Nat) : Act :=
  if o.op = 1 then readAct p path o.idx sub o.off o.len
  else if o.op = 2 then fun _ d => ((dictWriteRule p o.idx sub o.off [] d).1, some (dictWriteRule p o.idx sub o.off [] d).2)
  else if o.op = 3 then fun _ d => (d, some ⟨stOK, 0, 0, toBytes 16 (describeImage p d o.idx sub)⟩)
  else if o.op = 0x10 then fun _ d => evqReadRule path d
  else if o.op = 0x11 then fun _ d => (d, some (logReadRule path 0 d))
  else fun _ d => (d, some (Rsp.st stBadField))

/-- DESCRIBE (R394), a READ that has no row of its own, or any other request without data. -/
def execDescribe (rq : Rq) (obj : ObjReq) (sub : Nat) (s : State) : Res :=
  lift s fun p d => serve d rq (objCall obj sub) (objAct p rq.path obj sub)

end Sys2Proof.Machine
end

