-- ==== Sys2Proof/Machine/SortFilter.lean ====
section
/-! DEFINITION. SORT and FILTER (spec/07_dispatch_sort_gather.md R183-R187, R206-R209). -/

namespace Sys2Proof.Machine

/-- KEYT of a body. -/
def Stp.kt (t : Stp) : Nat := bits t.prm 28 4

/-- `n` values of `w` bytes read at `a`. -/
def Stp.vals (t : Stp) (a w n : Nat) : List Nat := unpackCodes (8 * w) n (ofBytes (t.get a (n * w)))

/-- The pairs of a sort as (rank, pair). -/
def Stp.pairs (t : Stp) (a n : Nat) : List (Nat × Nat) :=
  (t.vals a (pairBytes t.kt) n).map (fun v => (keyRank t.kt (pairKey t.kt v), v))

/-- The bytes of pairs. -/
def pairsBytes (kt : Nat) (xs : List (Nat × Nat)) : List Byte :=
  xs.flatMap (fun x => toBytes (pairBytes kt) (mkPair kt (pairKey kt x.2) (pairLoad kt x.2)))

/-- A sort step that reads `n` pairs at A (and at B) and writes pairs to D. -/
def sortOut (t : Stp) (b : Bool) (out : List (Nat × Nat)) : StepRes :=
  let w := pairBytes t.kt
  { reads := { addr := t.a, len := t.n * w, align := w : Rd } :: (if b then [{ addr := t.b, len := t.n * w, align := w }] else []),
    writes := [{ addr := t.dd, data := pairsBytes t.kt out, align := w }] }

/-- SORT64 (R185). -/
def sort64Step (t : Stp) : StepRes := sortOut t false (sortRank (t.prm.testBit 27) (t.pairs t.a t.n))

/-- MERGE (R185). -/
def mergeStep (t : Stp) : StepRes :=
  sortOut t true (mergeRank (t.prm.testBit 27) (2 * t.n) (t.pairs t.a t.n) (t.pairs t.b t.n))

/-- TOPK (R185): the k largest, in descending key order. -/
def topkStep (t : Stp) : StepRes := sortOut t false ((sortRank true (t.pairs t.a t.n)).take (bits t.prm 21 6 + 1))

/-- Keys of a FILTER step. -/
def Stp.keys (t : Stp) : List Nat := t.vals t.a (keyBytes t.kt) t.n

/-- The read of the keys. -/
def keyRead (t : Stp) : Rd := { addr := t.a, len := t.n * keyBytes t.kt, align := keyBytes t.kt }

/-- HASH (R186). -/
def hashStep (t : Stp) : StepRes :=
  let seed := ofBytes (t.get t.b 4)
  { reads := [keyRead t, { addr := t.b, len := 4, align := 4 }],
    writes := [{ addr := t.dd, data := t.keys.flatMap (fun k => toBytes 4 (hashOf seed t.kt k)), align := 4 }] }

/-- The engine address of a set's table. R208 gives OFFSET as a device memory offset; R84 puts the tables that an engine probes in
scratch or grove memory, whose engine addresses OFFSET can hold as well. Which of the two a PROBE's record means is left free
(log entry 102). -/
def tableBase (r : Nat) : Nat := if Config.probeLocal r then setOffset r else 0x4000000000 + setOffset r

/-- A set's table as a step reads it. -/
def Stp.table (t : Stp) (r off n : Nat) : Nat := ofBytes (t.get (tableBase r + off) n)

/-- PROBE (R186, R209). -/
def probeStep (t : Stp) : StepRes :=
  let r := ofBytes (t.get t.b 16)
  let visits := (t.keys.flatMap (setReads (t.table r) r t.kt)).map (fun x => ({ addr := tableBase r + x.1, len := x.2, align := 1 } : Rd))
  { reads := [keyRead t, { addr := t.b, len := 16, align := 16 }] ++ visits,
    writes := [{ addr := t.dd, data := t.keys.map (fun k => if probeSet (t.table r) r t.kt k then 1 else 0), align := 1 }] }

/-- RANGE (R186, R206). -/
def rangeStep (t : Stp) : StepRes :=
  let r := ofBytes (t.get t.b 16)
  { reads := [keyRead t, { addr := t.b, len := 16, align := 16 }],
    writes := [{ addr := t.dd, data := t.keys.map (fun k => if inKeyRange t.kt (bits r 0 64) (bits r 64 64) k then 1 else 0),
                 align := 1 }] }

/-- COMPACT (R186): the keys kept from D + 64, their count at D. -/
def compactStep (t : Stp) : StepRes :=
  let w := keyBytes t.kt
  let kept := ((t.keys.zip (t.get t.b t.n)).filter (fun x => x.2 != 0)).map Prod.fst
  { reads := [keyRead t, { addr := t.b, len := t.n, align := 1 }],
    writes := [{ addr := t.dd, data := toBytes 4 kept.length, align := max 4 w }]
      ++ (if kept.isEmpty then [] else [{ addr := t.dd + 64, data := kept.flatMap (toBytes w), align := w }]) }

/-- SORT64. -/
def execSort64 (g e c : Nat) (s : State) : Res := engineStep g e c 0x08 (some 0) s sort64Step
/-- MERGE. -/
def execMerge (g e c : Nat) (s : State) : Res := engineStep g e c 0x08 (some 1) s mergeStep
/-- TOPK of the SORT opcode. -/
def execSortTopk (g e c : Nat) (s : State) : Res := engineStep g e c 0x08 (some 2) s topkStep
/-- HASH. -/
def execHash (g e c : Nat) (s : State) : Res := engineStep g e c 0x09 (some 0) s hashStep
/-- PROBE. -/
def execProbe (g e c : Nat) (s : State) : Res := engineStep g e c 0x09 (some 1) s probeStep
/-- RANGE. -/
def execRange (g e c : Nat) (s : State) : Res := engineStep g e c 0x09 (some 2) s rangeStep
/-- COMPACT. -/
def execCompact (g e c : Nat) (s : State) : Res := engineStep g e c 0x09 (some 3) s compactStep

end Sys2Proof.Machine
end

