-- ==== Sys2Proof/Machine/Sums.lean ====
section
/-! DEFINITION. DOT, ACC, SEAL and ZERO: exact sums and dot products over arrays of state images, and the FP64 chain
(spec/05_stream_programs.md R117, R122-R124, spec/03_exact_arithmetic.md). -/

namespace Sys2Proof.Machine

/-- A fault of the body code with BAD_FIELD (R143): its address, and whether it counts as a malformed image or record. -/
structure Bad where
  addr : Nat
  counted : Bool

/-- An image of an array of class `c` read at `a` (R122): all zeros is an empty accumulator of the array's class. -/
def loadAcc (c a : Nat) (bs : List Byte) : Except Bad Acc :=
  if bs.all (· == 0) then .ok (Acc.empty c)
  else
    match imageAcc bs with
    | none => .error ⟨a, true⟩
    | some x => if x.cls = c then .ok x else .error ⟨a, false⟩

/-- An array of `n` images at `a`. -/
def Stp.accs (t : Stp) (c a n : Nat) : Except Bad (List Acc) :=
  (List.range n).mapM (fun k => loadAcc c (a + k * imageBytes c) (t.get (a + k * imageBytes c) (imageBytes c)))

/-- Reads of an array of images (R120, R122). -/
def accRead (c a n : Nat) : Rd := { addr := a, len := n * imageBytes c, align := 8, kind := 3 }

/-- Writes of an array of images. -/
def accWrite (a : Nat) (xs : List Acc) : Wr := { addr := a, data := xs.flatMap accImage, align := 8, kind := 3 }

/-- A step that ends in a fault of BAD_FIELD once its operands are in. -/
def badStep (reads : List Rd) (b : Bad) : StepRes :=
  { reads := reads, err := some (0x01, stBadField, b.addr), malformed := b.counted }

/-- Terms added to one accumulator of an array (R60, R122). -/
def addTerms (a : Acc) : List (Option Num) → Option Acc
  | [] => some a
  | t :: ts => match addTerm false a t with | some (a', _) => addTerms a' ts | none => none

/-- The product terms of one pair of FP32 codes in pieces (R50-R52). -/
def pieceTerms (six : Bool) (u v : Nat) : List (Option Num) :=
  let whole := [prodTerm (decodeNum (fmtOf 1) u) (decodeNum (fmtOf 1) v)]
  if bits u 23 8 = 255 || bits v 23 8 = 255 then whole
  else
    (splitFp32 u).zipIdx.flatMap (fun x => (splitFp32 v).zipIdx.filterMap (fun y =>
      if six && 2 < x.2 + y.2 then none else some (prodTerm x.1 y.1)))

/-- The terms of a DOT step. -/
def dotTerms (sub : Nat) (t : Stp) : List (Option Num) :=
  let fa := bits t.prm 28 4
  let fb := bits t.prm 24 4
  let mode := if t.prm.testBit 23 then 1 else 0
  if sub = 0 then
    ((t.elems fa mode t.n t.a 0).zip (t.elems fb mode t.n t.b 0)).map (fun x => prodTerm x.1 x.2)
  else
    ((unpackCodes 32 t.n (ofBytes (t.get t.a (4 * t.n)))).zip (unpackCodes 32 t.n (ofBytes (t.get t.b (4 * t.n))))).flatMap
      (fun x => pieceTerms (sub = 2) x.1 x.2)

/-- Reads of the two operands of a DOT step. -/
def dotReads (t : Stp) : List Rd :=
  let fa := bits t.prm 28 4
  let fb := bits t.prm 24 4
  let mode := if t.prm.testBit 23 then 1 else 0
  [{ addr := t.a, len := t.elemsLen fa mode t.n t.a, align := elemBytes fa },
   { addr := t.b, len := t.elemsLen fb mode t.n t.b, align := elemBytes fb }]

/-- One dot product added into the accumulator at D (R117). -/
def dotStep (sub : Nat) (t : Stp) : StepRes :=
  let c := if sub = 0 then dotClass (bits t.prm 28 4) (bits t.prm 24 4) (t.prm.testBit 23) else 1
  let reads := dotReads t ++ [accRead c t.dd 1]
  match t.accs c t.dd 1 with
  | .ok [a] =>
    match addTerms a (dotTerms sub t) with
    | some a' => { reads := reads, writes := [accWrite t.dd [a']] }
    | none => badStep reads ⟨t.dd, false⟩
  | .ok _ => { reads := reads }
  | .error b => badStep reads b

/-- One chain of R69 over the step's pairs (R117). Its result counts once in CVT_SAT_ELEMS or CVT_OVERFLOW_ELEMS when a step of
the chain saturated or overflowed (R56, log entry 39). -/
def chainStep (t : Stp) : StepRes :=
  let fa := bits t.prm 28 4
  let fb := bits t.prm 24 4
  let init := t.prm.testBit 22
  let rd : List Rd := if init then [{ addr := t.dd, len := 8, align := 8 }] else []
  let c := if init then some (ofBytes (t.get t.dd 8)) else none
  let r := dot64 (cvRm t.cvt) (cvSat t.cvt) c ((t.elems fa 0 t.n t.a 0).zip (t.elems fb 0 t.n t.b 0))
  { reads := dotReads t ++ rd, writes := [{ addr := t.dd, data := toBytes 8 r.1, align := 8 }],
    tally := { r.2 with sat := min 1 r.2.sat, ovf := min 1 r.2.ovf,
                        flags := r.2.flags ||| (if (decodeNum (fmtOf 0) r.1).isNan then flNanOut else 0) } }

/-- CRC-32C of each 4 KiB of a byte list. -/
def crcPieces (bs : List Byte) : List Nat := (chunksOf 4096 bs.length bs).map crc32c

/-- VERIFY of ACC (R123): the fault, if a 4 KiB piece of the input does not match. -/
def verifyStep (t : Stp) (input : List Byte) : Option (Nat × Nat × Nat) :=
  if !t.prm.testBit 25 then none
  else
    ((crcPieces input).zipIdx.find? (fun x => x.1 != ofBytes (t.get (t.b + 4 * x.2) 4))).map
      (fun x => (0x04, stCheckFail, t.a + 4096 * x.2))

/-- Reads of VERIFY's check values. -/
def verifyReads (t : Stp) (len : Nat) : List Rd :=
  if t.prm.testBit 25 then [{ addr := t.b, len := 4 * ceilDiv len 4096, align := 4 }] else []

/-- An ACC step from its input bytes: `parts` merges the inputs into the array. -/
def accStepWith (t : Stp) (len align : Nat) (put : List Byte → List Acc → Except Bad (List Acc)) : StepRes :=
  let c := bits t.prm 23 2
  let input := t.get t.a len
  let reads : List Rd := [{ addr := t.a, len := len, align := align }] ++ verifyReads t len ++ [accRead c t.dd t.n]
  match verifyStep t input with
  | some e => { reads := reads, err := some e }
  | none =>
    match t.accs c t.dd t.n with
    | .error b => badStep reads b
    | .ok xs =>
      match put input xs with
      | .error b => badStep reads b
      | .ok ys => { reads := reads, writes := [accWrite t.dd ys] }

/-- ACC of decoded elements. -/
def accElemStep (t : Stp) : StepRes :=
  let f := bits t.prm 28 4
  let m := bits t.prm 26 2
  let vals := t.elems f m t.n t.a t.freeScale
  accStepWith t (t.elemsLen f m t.n t.a) (elemBytes f)
    (fun _ xs => (xs.zip vals).zipIdx.mapM (fun x =>
      match addTerm false x.1.1 (elemTerm x.1.2) with
      | some (a, _) => Except.ok a
      | none => .error ⟨t.dd + x.2 * imageBytes (bits t.prm 23 2), false⟩))

/-- Bytes of `n` EXP records at `a`, read back to back (R73). -/
def expLen (get : Nat → Nat → List Byte) : Nat → Nat → Nat
  | 0, _ => 0
  | n + 1, a =>
    let k := 4 + 2 * ofBytes (get (a + 1) 1)
    k + expLen get n (a + k)

/-- The terms of an input would carry an A320 image past 2^25 terms, which no image holds (R60, R122). -/
def tooMany (a b : Acc) : Bool := a.cls = 0 && b.cls = 0 && a.count != 0 && !hasRoom a b.count

/-- Inputs merged one into each accumulator of the array at D (R63). An input that does not fit its image's terms faults there
(R122); one that carries V out of its class is malformed (R75). -/
def mergeAll (t : Stp) : Nat → List Acc → List Acc → Except Bad (List Acc)
  | k, a :: as_, b :: bs =>
    if tooMany a b then .error ⟨t.dd + k * imageBytes a.cls, false⟩
    else
      match mergeAcc false a b with
      | none => .error ⟨t.a, true⟩
      | some (x, _) => match mergeAll t (k + 1) as_ bs with | .ok ys => .ok (x :: ys) | .error e => .error e
  | _, _, _ => .ok []

/-- ACC of EXP records: each record is one input, one term (log entry 31). -/
def accExpStep (t : Stp) : StepRes :=
  accStepWith t (expLen t.get t.n t.a) 1
    (fun bs xs => match readExps (bits t.prm 23 2) 1 t.n bs with
      | none => .error ⟨t.a, true⟩
      | some ys => mergeAll t 0 xs ys)

/-- The class of the input images of an ACC into an array of class `c`: R117 lets it be narrower than the array's, and nothing
but the images says which it is. The widest class in which every image reads is taken (log entry 99). -/
def inputClass (t : Stp) (c : Nat) : Nat :=
  ((List.range (c + 1)).reverse.find? (fun k => (t.accs k t.a t.n).isOk)).getD c

/-- ACC of state images of the array's class or of a narrower one (R117). -/
def accImageStep (t : Stp) : StepRes :=
  let k := inputClass t (bits t.prm 23 2)
  accStepWith t (t.n * imageBytes k) 8
    (fun _ xs => match t.accs k t.a t.n with
      | .error b => .error b
      | .ok ys => mergeAll t 0 xs ys)

/-- The exact values that a SEAL rounds. -/
def sealVals (t : Stp) : List Num :=
  match t.accs (bits t.prm 23 2) t.a t.n with
  | .ok xs => xs.map (accNum (cvRm t.cvt))
  | .error _ => []

/-- The writes of a SEAL of the values `vs`: the sealed output at D, its check values at B, and what D's conversion raised. -/
def sealOut (t : Stp) (vs : List Num) : List Wr × Tally × (Nat × Nat) :=
  let r := encodeOut t.cvt t.x.xscale vs
  let crc : List Wr := if t.prm.testBit 22 then [{ addr := t.b, data := (crcPieces r.1).flatMap (toBytes 4), align := 4 }] else []
  ({ addr := t.dd, data := r.1, align := elemBytes (cvFmt t.cvt) } :: crc, r.2)

/-- SEAL (R65, R66, R124). A malformed image at A faults only where every range the step touches, those at D and B too, passes
the check of R120. -/
def sealStep (t : Stp) : StepRes :=
  let c := bits t.prm 23 2
  let reads := [accRead c t.a t.n]
  match t.accs c t.a t.n with
  | .error b => { badStep reads b with writes := (sealOut t (List.replicate t.n (.fin false 0 1))).1 }
  | .ok xs =>
    let out := sealOut t (xs.map (accNum (cvRm t.cvt)))
    let clear : List Wr := if t.prm.testBit 21 then [] else [accWrite t.a (List.replicate t.n (Acc.empty c))]
    { reads := reads, writes := clear ++ out.1,
      tally := out.2.1.join (joinAll (xs.map tlimTally)), amax := out.2.2 }

/-- ZERO (R117, R122). -/
def zeroStep (t : Stp) : StepRes :=
  let c := bits t.prm 23 2
  match t.accs c t.dd t.n with
  | .error b => badStep [accRead c t.dd t.n] b
  | .ok _ => { reads := [accRead c t.dd t.n], writes := [accWrite t.dd (List.replicate t.n (Acc.empty c))] }

/-- DOT exact. -/
def execDotExact (g e c : Nat) (s : State) : Res := engineStep g e c 0x04 (some 0) s (dotStep 0)
/-- DOT SPLIT9 (R51). -/
def execSplit9 (g e c : Nat) (s : State) : Res := engineStep g e c 0x04 (some 1) s (dotStep 1)
/-- DOT SPLIT6 (R52). -/
def execSplit6 (g e c : Nat) (s : State) : Res := engineStep g e c 0x04 (some 2) s (dotStep 2)
/-- DOT FP64 chain (R69). -/
def execDotFp64Chain (g e c : Nat) (s : State) : Res := engineStep g e c 0x04 (some 3) s chainStep
/-- ACC of decoded elements. -/
def execAccElements (g e c : Nat) (s : State) : Res := engineStep g e c 0x05 (some 0) s accElemStep
/-- ACC of EXP records (R75). -/
def execAccExpRecords (g e c : Nat) (s : State) : Res := engineStep g e c 0x05 (some 1) s accExpStep
/-- ACC of state images (R72). -/
def execAccStateImages (g e c : Nat) (s : State) : Res := engineStep g e c 0x05 (some 2) s accImageStep
/-- SEAL (R124). -/
def execSeal (g e c : Nat) (s : State) : Res := scaledStep g e c 0x06 (some 0) s sealVals sealStep
/-- ZERO. -/
def execZero (g e c : Nat) (s : State) : Res := engineStep g e c 0x07 (some 0) s zeroStep

end Sys2Proof.Machine
end

