-- ==== Sys2Proof/Machine/Dispatch.lean ====
section
/-! DEFINITION. The dispatch of a command to its meaning: one arm per constructor of `Instr`. -/

namespace Sys2Proof.Machine

/-- The effect of a command on everything but the queue of waiting commands. -/
def exec (i : Instr) (s : State) : Host.Outcome State Fault Refusal :=
  match i with
  | .powerUp => Sys2Proof.Machine.execPowerUp s
  | .bootRefclkReady => Sys2Proof.Machine.execBootRefclkReady s
  | .selftestEnd groves portGroups cells broke => Sys2Proof.Machine.execSelftestEnd groves portGroups cells broke s
  | .memoryTrained stack ok => Sys2Proof.Machine.execMemoryTrained stack ok s
  | .pcieLinkUp => Sys2Proof.Machine.execPcieLinkUp s
  | .plcaJoin => Sys2Proof.Machine.execPlcaJoin s
  | .bootWatchdog => Sys2Proof.Machine.execBootWatchdog s
  | .resetNAssert => Sys2Proof.Machine.execResetNAssert s
  | .resetNRelease => Sys2Proof.Machine.execResetNRelease s
  | .refclkLoss => Sys2Proof.Machine.execRefclkLoss s
  | .inputOutOfRange => Sys2Proof.Machine.execInputOutOfRange s
  | .inputShutdown => Sys2Proof.Machine.execInputShutdown s
  | .inputRestored => Sys2Proof.Machine.execInputRestored s
  | .inputPowerCycle => Sys2Proof.Machine.execInputPowerCycle s
  | .railFault rail mv => Sys2Proof.Machine.execRailFault rail mv s
  | .junctionTempCross sensor reading => Sys2Proof.Machine.execJunctionTempCross sensor reading s
  | .throttleStep => Sys2Proof.Machine.execThrottleStep s
  | .phaseFailed rail phase => Sys2Proof.Machine.execPhaseFailed rail phase s
  | .mgmtFailover pair => Sys2Proof.Machine.execMgmtFailover pair s
  | .perstAssert => Sys2Proof.Machine.execPerstAssert s
  | .perstRelease => Sys2Proof.Machine.execPerstRelease s
  | .describe rq obj sub => Sys2Proof.Machine.execDescribe rq obj sub s
  | .evqRead rq => Sys2Proof.Machine.execEvqRead rq s
  | .logRead rq first => Sys2Proof.Machine.execLogRead rq first s
  | .dictWrite rq idx sub off last data => Sys2Proof.Machine.execDictWrite rq idx sub off last data s
  | .octSegment rq idx sub off data => Sys2Proof.Machine.execOctSegment rq idx sub off data s
  | .bar0BusySlotWrite slot => Sys2Proof.Machine.execBar0BusySlotWrite slot s
  | .eventConsumed w => Sys2Proof.Machine.execEventConsumed w s
  | .evqNoticeDelayed => Sys2Proof.Machine.execEvqNoticeDelayed s
  | .malformedDatagram => Sys2Proof.Machine.execMalformedDatagram s
  | .discoveryRead peer seq idx sub span => Sys2Proof.Machine.execDiscoveryRead peer seq idx sub span s
  | .unlock rq v => Sys2Proof.Machine.execUnlock rq v s
  | .unlockTimeout path => Sys2Proof.Machine.execUnlockTimeout path s
  | .evqFlush rq v => Sys2Proof.Machine.execEvqFlush rq v s
  | .evqOwnerChange rq v => Sys2Proof.Machine.execEvqOwnerChange rq v s
  | .qhwmRead rq off len => Sys2Proof.Machine.execQhwmRead rq off len s
  | .bufFreeLwmRead rq => Sys2Proof.Machine.execBufFreeLwmRead rq s
  | .ctxInUseHwmRead rq off len => Sys2Proof.Machine.execCtxInUseHwmRead rq off len s
  | .marginTimingRead rq off len => Sys2Proof.Machine.execMarginTimingRead rq off len s
  | .sampleRead rq len => Sys2Proof.Machine.execSampleRead rq len s
  | .groveCtrlStart rq g bank => Sys2Proof.Machine.execGroveCtrlStart rq g bank s
  | .groveCtrlHalt rq g => Sys2Proof.Machine.execGroveCtrlHalt rq g s
  | .groveCtrlReset rq g => Sys2Proof.Machine.execGroveCtrlReset rq g s
  | .groveResetDone g => Sys2Proof.Machine.execGroveResetDone g s
  | .instrWrite rq g bank first words => Sys2Proof.Machine.execInstrWrite rq g bank first words s
  | .instrLoadMem rq mask bank first off len => Sys2Proof.Machine.execInstrLoadMem rq mask bank first off len s
  | .instrLoadDone => Sys2Proof.Machine.execInstrLoadDone s
  | .bankSwitch rq g bank crc => Sys2Proof.Machine.execBankSwitch rq g bank crc s
  | .scaleCtxClear rq n => Sys2Proof.Machine.execScaleCtxClear rq n s
  | .seqIllegal g => Sys2Proof.Machine.execSeqIllegal g s
  | .nop g => Sys2Proof.Machine.execNop g s
  | .li g => Sys2Proof.Machine.execLi g s
  | .lih g => Sys2Proof.Machine.execLih g s
  | .add g => Sys2Proof.Machine.execAdd g s
  | .sub g => Sys2Proof.Machine.execSub g s
  | .andR g => Sys2Proof.Machine.execAndR g s
  | .orR g => Sys2Proof.Machine.execOrR g s
  | .xorR g => Sys2Proof.Machine.execXorR g s
  | .shl g => Sys2Proof.Machine.execShl g s
  | .shr g => Sys2Proof.Machine.execShr g s
  | .mul g => Sys2Proof.Machine.execMul g s
  | .addi g => Sys2Proof.Machine.execAddi g s
  | .beq g => Sys2Proof.Machine.execBeq g s
  | .bne g => Sys2Proof.Machine.execBne g s
  | .blt g => Sys2Proof.Machine.execBlt g s
  | .bge g => Sys2Proof.Machine.execBge g s
  | .bltu g => Sys2Proof.Machine.execBltu g s
  | .jmp g => Sys2Proof.Machine.execJmp g s
  | .ldw g => Sys2Proof.Machine.execLdw g s
  | .stw g => Sys2Proof.Machine.execStw g s
  | .fdecl g => Sys2Proof.Machine.execFdecl g s
  | .fset g => Sys2Proof.Machine.execFset g s
  | .fclr g => Sys2Proof.Machine.execFclr g s
  | .fwait g => Sys2Proof.Machine.execFwait g s
  | .apld g => Sys2Proof.Machine.execApld g s
  | .wpace g => Sys2Proof.Machine.execWpace g s
  | .rdpace g => Sys2Proof.Machine.execRdpace g s
  | .rdcyc g => Sys2Proof.Machine.execRdcyc g s
  | .issue g => Sys2Proof.Machine.execIssue g s
  | .bsync g => Sys2Proof.Machine.execBsync g s
  | .endProg g => Sys2Proof.Machine.execEndProg g s
  | .trace g => Sys2Proof.Machine.execTrace g s
  | .commandOpen g e => Sys2Proof.Machine.execCommandOpen g e s
  | .operandArrival g e c => Sys2Proof.Machine.execOperandArrival g e c s
  | .commandComplete g e c => Sys2Proof.Machine.execCommandComplete g e c s
  | .prefetch g e c => Sys2Proof.Machine.execPrefetch g e c s
  | .copy g e c fx => Sys2Proof.Machine.execCopy g e c fx s
  | .vopAdd g e c => Sys2Proof.Machine.execVopAdd g e c s
  | .vopSub g e c => Sys2Proof.Machine.execVopSub g e c s
  | .vopMul g e c => Sys2Proof.Machine.execVopMul g e c s
  | .vopMin g e c => Sys2Proof.Machine.execVopMin g e c s
  | .vopMax g e c => Sys2Proof.Machine.execVopMax g e c s
  | .vopDiv g e c => Sys2Proof.Machine.execVopDiv g e c s
  | .vopSqrt g e c => Sys2Proof.Machine.execVopSqrt g e c s
  | .vopFma g e c => Sys2Proof.Machine.execVopFma g e c s
  | .vopConvert g e c => Sys2Proof.Machine.execVopConvert g e c s
  | .split3 g e c => Sys2Proof.Machine.execSplit3 g e c s
  | .vopAnd g e c => Sys2Proof.Machine.execVopAnd g e c s
  | .vopOr g e c => Sys2Proof.Machine.execVopOr g e c s
  | .vopXor g e c => Sys2Proof.Machine.execVopXor g e c s
  | .exp2 g e c => Sys2Proof.Machine.execExp2 g e c s
  | .log2 g e c => Sys2Proof.Machine.execLog2 g e c s
  | .rsqrt g e c => Sys2Proof.Machine.execRsqrt g e c s
  | .dotExact g e c => Sys2Proof.Machine.execDotExact g e c s
  | .split9 g e c => Sys2Proof.Machine.execSplit9 g e c s
  | .split6 g e c => Sys2Proof.Machine.execSplit6 g e c s
  | .dotFp64Chain g e c => Sys2Proof.Machine.execDotFp64Chain g e c s
  | .accElements g e c => Sys2Proof.Machine.execAccElements g e c s
  | .accExpRecords g e c => Sys2Proof.Machine.execAccExpRecords g e c s
  | .accStateImages g e c => Sys2Proof.Machine.execAccStateImages g e c s
  | .seal g e c => Sys2Proof.Machine.execSeal g e c s
  | .zero g e c => Sys2Proof.Machine.execZero g e c s
  | .sort64 g e c => Sys2Proof.Machine.execSort64 g e c s
  | .merge g e c => Sys2Proof.Machine.execMerge g e c s
  | .sortTopk g e c => Sys2Proof.Machine.execSortTopk g e c s
  | .hash g e c => Sys2Proof.Machine.execHash g e c s
  | .probe g e c => Sys2Proof.Machine.execProbe g e c s
  | .range g e c => Sys2Proof.Machine.execRange g e c s
  | .compact g e c => Sys2Proof.Machine.execCompact g e c s
  | .wopen g e c => Sys2Proof.Machine.execWopen g e c s
  | .wclose g e c => Sys2Proof.Machine.execWclose g e c s
  | .send g e c => Sys2Proof.Machine.execSend g e c s
  | .signal g e c => Sys2Proof.Machine.execSignal g e c s
  | .atomicAdd g e c => Sys2Proof.Machine.execAtomicAdd g e c s
  | .atomicExadd g e c => Sys2Proof.Machine.execAtomicExadd g e c s
  | .atomicMin g e c => Sys2Proof.Machine.execAtomicMin g e c s
  | .atomicMax g e c => Sys2Proof.Machine.execAtomicMax g e c s
  | .atomicCas g e c => Sys2Proof.Machine.execAtomicCas g e c s
  | .atomicSwap g e c => Sys2Proof.Machine.execAtomicSwap g e c s
  | .externalSet home job g flag => Sys2Proof.Machine.execExternalSet home job g flag s
  | .waitCycleSample g => Sys2Proof.Machine.execWaitCycleSample g s
  | .waitLimitExpiry g w => Sys2Proof.Machine.execWaitLimitExpiry g w s
  | .cin g job coll chunk src => Sys2Proof.Machine.execCin g job coll chunk src s
  | .pout g job coll chunk => Sys2Proof.Machine.execPout g job coll chunk s
  | .rout g job coll chunk => Sys2Proof.Machine.execRout g job coll chunk s
  | .cmove g job coll chunk src dst => Sys2Proof.Machine.execCmove g job coll chunk src dst s
  | .cnts g job coll => Sys2Proof.Machine.execCnts g job coll s
  | .fsave g job coll => Sys2Proof.Machine.execFsave g job coll s
  | .topk g job coll member => Sys2Proof.Machine.execTopk g job coll member s
  | .keep g job coll => Sys2Proof.Machine.execKeep g job coll s
  | .route g job coll member => Sys2Proof.Machine.execRoute g job coll member s
  | .wcomb g job coll member chunk => Sys2Proof.Machine.execWcomb g job coll member chunk s
  | .rowacc g job coll member => Sys2Proof.Machine.execRowacc g job coll member s
  | .page g job coll member => Sys2Proof.Machine.execPage g job coll member s
  | .pred g job coll member chunk => Sys2Proof.Machine.execPred g job coll member chunk s
  | .collSubmit rq desc => Sys2Proof.Machine.execCollSubmit rq desc s
  | .collSubmitFrame via row col acn desc => Sys2Proof.Machine.execCollSubmitFrame via row col acn desc s
  | .dataChunk c => Sys2Proof.Machine.execDataChunk c s
  | .partialChunk c => Sys2Proof.Machine.execPartialChunk c s
  | .resultChunk c => Sys2Proof.Machine.execResultChunk c s
  | .counts c => Sys2Proof.Machine.execCounts c s
  | .countsOut c => Sys2Proof.Machine.execCountsOut c s
  | .admitChunk c => Sys2Proof.Machine.execAdmit c s
  | .go c => Sys2Proof.Machine.execGo c s
  | .resend c => Sys2Proof.Machine.execResend c s
  | .ack c => Sys2Proof.Machine.execAck c s
  | .ackBundleTimer job coll peer stage src dst => Sys2Proof.Machine.execAckBundleTimer job coll peer stage src dst s
  | .doneUp c => Sys2Proof.Machine.execDoneUp c s
  | .doneChunk c => Sys2Proof.Machine.execDoneChunk c s
  | .abort c => Sys2Proof.Machine.execAbort c s
  | .collProgressTimeout job coll => Sys2Proof.Machine.execCollProgressTimeout job coll s
  | .slotAging job coll => Sys2Proof.Machine.execSlotAging job coll s
  | .sliceIdleExpiry job coll => Sys2Proof.Machine.execSliceIdleExpiry job coll s
  | .moeRouteRelease rq job coll => Sys2Proof.Machine.execMoeRouteRelease rq job coll s
  | .filterSetCommit rq n => Sys2Proof.Machine.execFilterSetCommit rq n s
  | .filterSetUncommit rq n => Sys2Proof.Machine.execFilterSetUncommit rq n s
  | .fcmEnter rq target => Sys2Proof.Machine.execFcmEnter rq target s
  | .fcmLeave rq target => Sys2Proof.Machine.execFcmLeave rq target s
  | .ckptCheckpoint rq job target => Sys2Proof.Machine.execCkptCheckpoint rq job target s
  | .ckptCheckpointStop rq job target => Sys2Proof.Machine.execCkptCheckpointStop rq job target s
  | .checkpointSaved job => Sys2Proof.Machine.execCheckpointSaved job s
  | .ckptRestore rq job source off resume => Sys2Proof.Machine.execCkptRestore rq job source off resume s
  | .auditWalkEnd => Sys2Proof.Machine.execAuditWalkEnd s
  | .bufReclaim rq ref holder => Sys2Proof.Machine.execBufReclaim rq ref holder s
  | .linkEnable rq n => Sys2Proof.Machine.execLinkEnable rq n s
  | .linkDisable rq n => Sys2Proof.Machine.execLinkDisable rq n s
  | .linkRetrain rq n => Sys2Proof.Machine.execLinkRetrain rq n s
  | .linkRestoreLane rq n => Sys2Proof.Machine.execLinkRestoreLane rq n s
  | .linkEraseCoefficients rq n => Sys2Proof.Machine.execLinkEraseCoefficients rq n s
  | .linkTrainingEnd n ok order polarity => Sys2Proof.Machine.execLinkTrainingEnd n ok order polarity s
  | .linkQualifyEnd n bers x => Sys2Proof.Machine.execLinkQualifyEnd n bers x s
  | .hs n upper item value => Sys2Proof.Machine.execHs n upper item value s
  | .lfpFrameRx n f r => Sys2Proof.Machine.execLfpFrameRx n f r s
  | .linkAck n lseq => Sys2Proof.Machine.execLinkAck n lseq s
  | .linkNak n x => Sys2Proof.Machine.execLinkNak n x s
  | .credit n vc pool total => Sys2Proof.Machine.execCredit n vc pool total s
  | .degrade n lane cw => Sys2Proof.Machine.execDegrade n lane cw s
  | .restore n lane cw => Sys2Proof.Machine.execRestore n lane cw s
  | .mgmt n word => Sys2Proof.Machine.execMgmt n word s
  | .replayTimeout n x => Sys2Proof.Machine.execReplayTimeout n x s
  | .controlFlitTimer n => Sys2Proof.Machine.execControlFlitTimer n s
  | .laneFailure n lane cw => Sys2Proof.Machine.execLaneFailure n lane cw s
  | .reseqTimeout n vc => Sys2Proof.Machine.execReseqTimeout n vc s
  | .linkFlightMeasure n flight => Sys2Proof.Machine.execLinkFlightMeasure n flight s
  | .ethernetFrameRx n bytes x => Sys2Proof.Machine.execEthernetFrameRx n bytes x s
  | .pfcFrameRx n prio x => Sys2Proof.Machine.execPfcFrameRx n prio x s
  | .pfcPauseExpiry n prio => Sys2Proof.Machine.execPfcPauseExpiry n prio s
  | .pfcXoffRepeat n prio => Sys2Proof.Machine.execPfcXoffRepeat n prio s
  | .ethMacAgeExpiry vlan mac => Sys2Proof.Machine.execEthMacAgeExpiry vlan mac s
  | .ethMacFlush rq v => Sys2Proof.Machine.execEthMacFlush rq v s
  | .mirrorNWrite rq n v => Sys2Proof.Machine.execMirrorNWrite rq n v s
  | .egressDecision x => Sys2Proof.Machine.execEgressDecision x s
  | .ageMarkUpdate n q => Sys2Proof.Machine.execAgeMarkUpdate n q s
  | .unicast n f => Sys2Proof.Machine.execUnicast n f s
  | .ethFabricFrame n f => Sys2Proof.Machine.execEthFabricFrame n f s
  | .adaptSample => Sys2Proof.Machine.execAdaptSample s
  | .epochSwap rq target crc pace => Sys2Proof.Machine.execEpochSwap rq target crc pace s
  | .epochDrained e => Sys2Proof.Machine.execEpochDrained e s
  | .jobCreate rq r => Sys2Proof.Machine.execJobCreate rq r s
  | .jobDelete rq r => Sys2Proof.Machine.execJobDelete rq r s
  | .jobAdaptiveUpdate rq r => Sys2Proof.Machine.execJobAdaptiveUpdate rq r s
  | .grantWrite rq first recs => Sys2Proof.Machine.execGrantWrite rq first recs s
  | .canopyRead r fx => Sys2Proof.Machine.execCanopyRead r fx s
  | .canopyWrite w => Sys2Proof.Machine.execCanopyWrite w s
  | .writeMasked r => Sys2Proof.Machine.execWriteMasked r s
  | .canopyAdd r => Sys2Proof.Machine.execCanopyAdd r s
  | .exadd r => Sys2Proof.Machine.execExadd r s
  | .canopyMin r => Sys2Proof.Machine.execCanopyMin r s
  | .canopyMax r => Sys2Proof.Machine.execCanopyMax r s
  | .cas r => Sys2Proof.Machine.execCas r s
  | .swap r => Sys2Proof.Machine.execSwap r s
  | .canopyRsp r => Sys2Proof.Machine.execCanopyRsp r s
  | .canopyTimeout sunit rtag => Sys2Proof.Machine.execCanopyTimeout sunit rtag s
  | .fence rq c => Sys2Proof.Machine.execFence rq c s
  | .unfence rq c => Sys2Proof.Machine.execUnfence rq c s
  | .propagatedFence n srow c => Sys2Proof.Machine.execPropagatedFence n srow c s
  | .paceToken n srow plane master w elapsed => Sys2Proof.Machine.execPaceToken n srow plane master w elapsed s
  | .perBankRefresh stack channel => Sys2Proof.Machine.execPerBankRefresh stack channel s
  | .fcmRefreshWindow => Sys2Proof.Machine.execFcmRefreshWindow s
  | .scrubRead x => Sys2Proof.Machine.execScrubRead x s
  | .stackFailure stack channels cause => Sys2Proof.Machine.execStackFailure stack channels cause s
  | .paceWord w dly upper line => Sys2Proof.Machine.execPaceWord w dly upper line s
  | .calWord w upper line => Sys2Proof.Machine.execCalWord w upper line s
  | .paceFlightMeasure roundTrip => Sys2Proof.Machine.execPaceFlightMeasure roundTrip s
  | .paceEdge => Sys2Proof.Machine.execPaceEdge s
  | .paceVisible => Sys2Proof.Machine.execPaceVisible s
  | .paceInFault => Sys2Proof.Machine.execPaceInFault s
  | .paceSourceWrite rq v => Sys2Proof.Machine.execPaceSourceWrite rq v s
  | .paceLoad rq v => Sys2Proof.Machine.execPaceLoad rq v s
  | .paceStep rq v => Sys2Proof.Machine.execPaceStep rq v s
  | .paceCal rq v => Sys2Proof.Machine.execPaceCal rq v s
  | .schedArm rq entry rec => Sys2Proof.Machine.execSchedArm rq entry rec s
  | .schedCancel rq n => Sys2Proof.Machine.execSchedCancel rq n s
  | .wallclockSet rq v => Sys2Proof.Machine.execWallclockSet rq v s
  | .ptpMessage domain msg => Sys2Proof.Machine.execPtpMessage domain msg s
  | .marginMeasure ms => Sys2Proof.Machine.execMarginMeasure ms s
  | .samplerTick input rails slacks => Sys2Proof.Machine.execSamplerTick input rails slacks s
  | .telemSnapNow rq mask => Sys2Proof.Machine.execTelemSnapNow rq mask s
  | .snapshotCopied => Sys2Proof.Machine.execSnapshotCopied s
  | .groveFailed g cause => Sys2Proof.Machine.execGroveFailed g cause s
  | .groveStallDetect g => Sys2Proof.Machine.execGroveStallDetect g s
  | .sramUncorrectable g w again => Sys2Proof.Machine.execSramUncorrectable g w again s
  | .groveSubstituted g duration => Sys2Proof.Machine.execGroveSubstituted g duration s
  | .flashWrite rq off data => Sys2Proof.Machine.execFlashWrite rq off data s
  | .flashErase rq off len => Sys2Proof.Machine.execFlashErase rq off len s
  | .flashOpComplete readBackOk => Sys2Proof.Machine.execFlashOpComplete readBackOk s
  | .bootReset rq => Sys2Proof.Machine.execBootReset rq s
  | .verifyBankA rq => Sys2Proof.Machine.execVerifyBankA rq s
  | .verifyBankB rq => Sys2Proof.Machine.execVerifyBankB rq s
  | .attemptReset rq => Sys2Proof.Machine.execAttemptReset rq s
  | .getVersion peer msg => Sys2Proof.Machine.execGetVersion peer msg s
  | .getCapabilities peer msg => Sys2Proof.Machine.execGetCapabilities peer msg s
  | .negotiateAlgorithms peer msg => Sys2Proof.Machine.execNegotiateAlgorithms peer msg s
  | .getDigests peer msg => Sys2Proof.Machine.execGetDigests peer msg s
  | .getCertificate peer offset len msg => Sys2Proof.Machine.execGetCertificate peer offset len msg s
  | .challenge peer msg => Sys2Proof.Machine.execChallenge peer msg s
  | .getMeasurements peer signed op msg => Sys2Proof.Machine.execGetMeasurements peer signed op msg s
  | .chunkSend peer last part => Sys2Proof.Machine.execChunkSend peer last part s
  | .chunkGet peer chunk msg => Sys2Proof.Machine.execChunkGet peer chunk msg s
  | .pqSign peer msg => Sys2Proof.Machine.execPqSign peer msg s
  | .pqCert peer msg => Sys2Proof.Machine.execPqCert peer msg s
  | .jtagInstructionLoad ir => Sys2Proof.Machine.execJtagInstructionLoad ir s
  | .refclkRestored => Sys2Proof.Machine.execRefclkRestored s
  | .inputRangeRecovered => Sys2Proof.Machine.execInputRangeRecovered s
  | .stackTemperatureCross stack above celsius => Sys2Proof.Machine.execStackTemperatureCross stack above celsius s
  | .pcieLinkDown => Sys2Proof.Machine.execPcieLinkDown s
  | .fieldNetworkLinkDown => Sys2Proof.Machine.execFieldNetworkLinkDown s
  | .paceWordLaunch => Sys2Proof.Machine.execPaceWordLaunch s
  | .paceTriggerRelease => Sys2Proof.Machine.execPaceTriggerRelease s
  | .auditWalkStart => Sys2Proof.Machine.execAuditWalkStart s
  | .fcmFrameRelease n => Sys2Proof.Machine.execFcmFrameRelease n s

end Sys2Proof.Machine
end

