-- ==== Sys2Proof/Machine/Idle.lean ====
section
/-! DEFINITION. What the block does when no command waits: one ARC cycle passes. The opcode table has no row for a tick, so the
tick is what a step does on an empty queue (log entry 2). -/

namespace Sys2Proof.Machine

/-- The ARC clock is enabled in this cycle: throttle level L enables it in 16 - L of every 16 cycles (R464). -/
def arcEnabled (d : Dev) : Bool := d.runs domArc && decide (d.marks.get 0 0 % 16 < 16 - d.health.throttle)

/-- An engine has an open context and none READY, or no open context, in this cycle (R470): the count that advances. -/
def engineIdle (gr : Grove) (e : Nat) : Option Nat :=
  let open_ := gr.ctxs.filter (fun x => x.1 / 4096 = e && x.2.st != .free)
  if open_.isEmpty then some 2 else if open_.any (fun x => x.2.st == .ready) then none else some 1

/-- A sequencer stall that GROVE_UTIL counts (R470). -/
def stallCount (gr : Grove) : Option Nat :=
  if gr.phase != .running then none
  else match gr.stall with
    | .issue => some 3
    | .fwait _ _ => some 4
    | .wpace _ => some 4
    | _ => none

/-- One enabled ARC cycle in the counts of a logical grove, while the clock gate of the physical grove behind it is open (R18,
R470). -/
def utilCycle (p : Part) (d : Dev) (g : Nat) : Dev :=
  let gr := d.grove g
  if !gateOpen p d (physOf d g) || gr.phase == .lost then d
  else
    let ks := (List.range 16).filterMap (engineIdle gr)
    let d1 := (d.addUtil g 1 (ks.count 1)).addUtil g 2 (ks.count 2)
    match stallCount gr with
    | some k => d1.addUtil g k 1
    | none => d1

/-- A collective whose scaling context has become free is admitted (R46). -/
def retryAdmit (p : Part) (d : Dev) : Dev :=
  if d.colls.ops.any (canAdmit d) then settleColl p (d.colls.ops.length + 1) d else d

/-- Wall-clock time once it is set (R386): 10/27 ns for each cycle, the fraction in mark 2. -/
def wallTick (d : Dev) : Dev :=
  if d.pace.wallState = 0 then d
  else
    let n := d.marks.get 0 2 + 10
    { d with marks := d.marks.set 0 2 (n % 27), pace := { d.pace with wall := (d.pace.wall + n / 27) % 2 ^ 64 } }

/-- The links that have egress queues. -/
def queuedLinks (d : Dev) : List Nat := (d.sw.queues.keys.map (· / 16)).eraseDups

/-- One cycle of the ARC clock source: the 16-cycle window of R464 advances; an enabled cycle adds one to the cycle counter
that RDCYC reads and to the counts of R470, a gated one to THROTTLE_CYCLES (R110, R464, R473). The schedulers run in a domain that
throttle does not gate: in every cycle the queues whose shapers have recovered wake (R304, R307). The waits that stand as the cycle
ends are noted for their limits (R141). -/
def idleTick (p : Part) (d : Dev) : Dev :=
  if !d.runs domArc then d
  else
    let d0 := wallTick { d with tick := d.tick + 1, marks := d.marks.set 0 0 ((d.marks.get 0 0 + 1) % 16) }
    let d' := (queuedLinks d0).foldl settleElig d0
    let now := if arcEnabled d then (d.cycle + 1) % 2 ^ 64 else d.cycle
    { (if arcEnabled d then retryAdmit p { (List.range p.groves).foldl (fun d g => utilCycle p (noteWaits d g) g) d' with cycle := now } else d'.inc 0xB003 1 0) with
      cycle := now }

end Sys2Proof.Machine
end

