-- ==== Sys2Proof/WellFormed.lean ====
section
/-! DEFINITION. Well-formed commands: a command names only units that this part has (spec/01_device_overview.md R1, R10). A
meaning stops with `Fault.noSuchUnit` exactly on a command that is not well-formed. -/

namespace Sys2Proof

open Machine

/-- The part has logical grove `g` (R1, R101). -/
def hasGrove (p : Part) (g : Nat) : Bool := decide (g < p.groves)

/-- The part has context `c` of engine `e` of grove `g` (R77, R88). -/
def hasCtx (p : Part) (g e c : Nat) : Bool := hasGrove p g && decide (e < 16) && decide (c < 4096)

/-- The part has the link that a chunk or request came by. -/
def hasVia (p : Part) : Via → Bool
  | .endpoint n => p.hasLink n
  | .fabric n => p.hasLink n
  | .own => true

/-- A requester unit of this device that is a grove is one it has (R337). -/
def hasUnit (p : Part) (u : Nat) : Bool := decide (128 ≤ u ∧ u < 160 → u - 128 < p.groves)

/-- Every unit a command names exists on this part. -/
def Instr.wf (p : Part) (i : Instr) : Bool :=
  match i with
  | .powerUp | .bootRefclkReady | .selftestEnd _ _ _ _ => true
  | .memoryTrained stack _ => decide (stack < p.stacks)
  | .pcieLinkUp | .plcaJoin | .bootWatchdog | .resetNAssert | .resetNRelease | .refclkLoss | .inputOutOfRange
  | .inputShutdown | .inputRestored | .inputPowerCycle => true
  | .railFault rail _ => decide (rail < 9)
  | .junctionTempCross sensor _ => decide (sensor < 34 + p.stacks)
  | .throttleStep => true
  | .phaseFailed rail phase => decide (rail < 9) && decide (phase < phasesFitted rail)
  | .mgmtFailover pair => decide (pair < 2)
  | .perstAssert | .perstRelease | .describe _ _ _ | .evqRead _ | .logRead _ _ | .dictWrite _ _ _ _ _ _
  | .octSegment _ _ _ _ _ => true
  | .bar0BusySlotWrite slot => decide (slot < 8)
  | .eventConsumed _ | .evqNoticeDelayed | .malformedDatagram | .discoveryRead _ _ _ _ _ | .unlock _ _ | .unlockTimeout _
  | .evqFlush _ _ | .evqOwnerChange _ _ | .qhwmRead _ _ _ | .bufFreeLwmRead _ | .ctxInUseHwmRead _ _ _
  | .marginTimingRead _ _ _ | .sampleRead _ _ | .groveCtrlStart _ _ _ | .groveCtrlHalt _ _ | .groveCtrlReset _ _ => true
  | .groveResetDone g => hasGrove p g
  | .instrWrite _ _ _ _ _ | .instrLoadMem _ _ _ _ _ _ | .instrLoadDone | .bankSwitch _ _ _ _ | .scaleCtxClear _ _ => true
  | .seqIllegal g => hasGrove p g
  | .nop g => hasGrove p g
  | .li g => hasGrove p g
  | .lih g => hasGrove p g
  | .add g => hasGrove p g
  | .sub g => hasGrove p g
  | .andR g => hasGrove p g
  | .orR g => hasGrove p g
  | .xorR g => hasGrove p g
  | .shl g => hasGrove p g
  | .shr g => hasGrove p g
  | .mul g => hasGrove p g
  | .addi g => hasGrove p g
  | .beq g => hasGrove p g
  | .bne g => hasGrove p g
  | .blt g => hasGrove p g
  | .bge g => hasGrove p g
  | .bltu g => hasGrove p g
  | .jmp g => hasGrove p g
  | .ldw g => hasGrove p g
  | .stw g => hasGrove p g
  | .fdecl g => hasGrove p g
  | .fset g => hasGrove p g
  | .fclr g => hasGrove p g
  | .fwait g => hasGrove p g
  | .apld g => hasGrove p g
  | .wpace g => hasGrove p g
  | .rdpace g => hasGrove p g
  | .rdcyc g => hasGrove p g
  | .issue g => hasGrove p g
  | .bsync g => hasGrove p g
  | .endProg g => hasGrove p g
  | .trace g => hasGrove p g
  | .commandOpen g e => hasGrove p g && decide (e < 16)
  | .operandArrival g e c => hasCtx p g e c
  | .commandComplete g e c => hasCtx p g e c
  | .prefetch g e c => hasCtx p g e c
  | .copy g e c _ => hasCtx p g e c
  | .vopAdd g e c => hasCtx p g e c
  | .vopSub g e c => hasCtx p g e c
  | .vopMul g e c => hasCtx p g e c
  | .vopMin g e c => hasCtx p g e c
  | .vopMax g e c => hasCtx p g e c
  | .vopDiv g e c => hasCtx p g e c
  | .vopSqrt g e c => hasCtx p g e c
  | .vopFma g e c => hasCtx p g e c
  | .vopConvert g e c => hasCtx p g e c
  | .split3 g e c => hasCtx p g e c
  | .vopAnd g e c => hasCtx p g e c
  | .vopOr g e c => hasCtx p g e c
  | .vopXor g e c => hasCtx p g e c
  | .exp2 g e c => hasCtx p g e c
  | .log2 g e c => hasCtx p g e c
  | .rsqrt g e c => hasCtx p g e c
  | .dotExact g e c => hasCtx p g e c
  | .split9 g e c => hasCtx p g e c
  | .split6 g e c => hasCtx p g e c
  | .dotFp64Chain g e c => hasCtx p g e c
  | .accElements g e c => hasCtx p g e c
  | .accExpRecords g e c => hasCtx p g e c
  | .accStateImages g e c => hasCtx p g e c
  | .seal g e c => hasCtx p g e c
  | .zero g e c => hasCtx p g e c
  | .sort64 g e c => hasCtx p g e c
  | .merge g e c => hasCtx p g e c
  | .sortTopk g e c => hasCtx p g e c
  | .hash g e c => hasCtx p g e c
  | .probe g e c => hasCtx p g e c
  | .range g e c => hasCtx p g e c
  | .compact g e c => hasCtx p g e c
  | .wopen g e c => hasCtx p g e c
  | .wclose g e c => hasCtx p g e c
  | .send g e c => hasCtx p g e c
  | .signal g e c => hasCtx p g e c
  | .atomicAdd g e c => hasCtx p g e c
  | .atomicExadd g e c => hasCtx p g e c
  | .atomicMin g e c => hasCtx p g e c
  | .atomicMax g e c => hasCtx p g e c
  | .atomicCas g e c => hasCtx p g e c
  | .atomicSwap g e c => hasCtx p g e c
  | .externalSet _ _ _ _ => true
  | .waitCycleSample g => hasGrove p g
  | .waitLimitExpiry g _ => hasGrove p g
  | .cin g _ _ _ _ => hasGrove p g
  | .pout g _ _ _ => hasGrove p g
  | .rout g _ _ _ => hasGrove p g
  | .cmove g _ _ _ _ _ => hasGrove p g
  | .cnts g _ _ => hasGrove p g
  | .fsave g _ _ => hasGrove p g
  | .topk g _ _ _ => hasGrove p g
  | .keep g _ _ => hasGrove p g
  | .route g _ _ _ => hasGrove p g
  | .wcomb g _ _ _ _ => hasGrove p g
  | .rowacc g _ _ _ => hasGrove p g
  | .page g _ _ _ => hasGrove p g
  | .pred g _ _ _ _ => hasGrove p g
  | .collSubmit _ _ => true
  | .collSubmitFrame via _ _ _ _ => hasVia p via
  | .dataChunk c => hasVia p c.via
  | .partialChunk c => hasVia p c.via
  | .resultChunk c => hasVia p c.via
  | .counts c => hasVia p c.via
  | .countsOut c => hasVia p c.via
  | .admitChunk c => hasVia p c.via
  | .go c => hasVia p c.via
  | .resend c => hasVia p c.via
  | .ack c => hasVia p c.via
  | .ackBundleTimer _ _ _ _ _ _ => true
  | .doneUp c => hasVia p c.via
  | .doneChunk c => hasVia p c.via
  | .abort c => hasVia p c.via
  | .collProgressTimeout _ _ | .slotAging _ _ | .sliceIdleExpiry _ _ | .moeRouteRelease _ _ _ | .filterSetCommit _ _
  | .filterSetUncommit _ _ | .fcmEnter _ _ | .fcmLeave _ _ | .ckptCheckpoint _ _ _ | .ckptCheckpointStop _ _ _
  | .checkpointSaved _ | .ckptRestore _ _ _ _ _ | .auditWalkEnd | .bufReclaim _ _ _ | .linkEnable _ _ | .linkDisable _ _
  | .linkRetrain _ _ | .linkRestoreLane _ _ | .linkEraseCoefficients _ _ => true
  | .linkTrainingEnd n _ _ _ => p.hasLink n
  | .linkQualifyEnd n _ _ => p.hasLink n
  | .hs n _ _ _ => p.hasLink n
  | .lfpFrameRx n _ _ => p.hasLink n
  | .linkAck n _ => p.hasLink n
  | .linkNak n _ => p.hasLink n
  | .credit n vc pool _ => p.hasLink n && decide (vc < 8) && decide (pool < 2)
  | .degrade n lane _ => p.hasLink n && decide (lane < 4)
  | .restore n lane _ => p.hasLink n && decide (lane < 4)
  | .mgmt n _ => decide (n < p.links)
  | .replayTimeout n _ => p.hasLink n
  | .controlFlitTimer n => p.hasLink n
  | .laneFailure n lane _ => p.hasLink n && decide (lane < 4)
  | .reseqTimeout n vc => p.hasLink n && decide (vc < 8)
  | .linkFlightMeasure n _ => p.hasLink n
  | .ethernetFrameRx n _ _ => p.hasLink n
  | .pfcFrameRx n prio _ => p.hasLink n && decide (prio < 8)
  | .pfcPauseExpiry n prio => p.hasLink n && decide (prio < 8)
  | .pfcXoffRepeat n prio => p.hasLink n && decide (prio < 8)
  | .ethMacAgeExpiry _ _ | .ethMacFlush _ _ | .mirrorNWrite _ _ _ => true
  | .egressDecision i => p.hasLink i.link
  | .ageMarkUpdate n q => p.hasLink n && decide (q < 16)
  | .unicast n _ => p.hasLink n
  | .ethFabricFrame n _ => p.hasLink n
  | .adaptSample | .epochSwap _ _ _ _ => true
  | .epochDrained e => decide (e < 2)
  | .jobCreate _ _ | .jobDelete _ _ | .jobAdaptiveUpdate _ _ | .grantWrite _ _ _ => true
  | .canopyRead r _ => hasVia p r.via
  | .canopyWrite w => hasVia p w.req.via
  | .writeMasked r => hasVia p r.via
  | .canopyAdd r => hasVia p r.via
  | .exadd r => hasVia p r.via
  | .canopyMin r => hasVia p r.via
  | .canopyMax r => hasVia p r.via
  | .cas r => hasVia p r.via
  | .swap r => hasVia p r.via
  | .canopyRsp r => hasUnit p r.sunit && decide (r.sunit < 128 → r.sunit < p.links)
  | .canopyTimeout sunit _ => hasUnit p sunit
  | .fence _ _ | .unfence _ _ => true
  | .propagatedFence n _ _ => p.hasLink n
  | .paceToken n _ _ _ _ _ => p.hasLink n
  | .perBankRefresh stack channel => decide (stack < p.stacks) && decide (channel < 12)
  | .fcmRefreshWindow | .scrubRead _ => true
  | .stackFailure stack _ cause => decide (stack < p.stacks) && (cause = 2 || cause = 3)
  | .paceWord _ _ _ _ | .calWord _ _ _ | .paceFlightMeasure _ | .paceEdge | .paceVisible | .paceInFault
  | .paceSourceWrite _ _ | .paceLoad _ _ | .paceStep _ _ | .paceCal _ _ | .schedArm _ _ _ | .schedCancel _ _
  | .wallclockSet _ _ | .ptpMessage _ _ | .marginMeasure _ | .samplerTick _ _ _ | .telemSnapNow _ _ | .snapshotCopied => true
  | .groveFailed g cause => hasGrove p g && decide (1 ≤ cause) && decide (cause ≤ 5)
  | .groveStallDetect g => hasGrove p g
  | .sramUncorrectable g _ _ => hasGrove p g
  | .groveSubstituted g _ => hasGrove p g
  | .flashWrite _ _ _ | .flashErase _ _ _ | .flashOpComplete _ | .bootReset _ | .verifyBankA _ | .verifyBankB _
  | .attemptReset _ | .getVersion _ _ | .getCapabilities _ _ | .negotiateAlgorithms _ _ | .getDigests _ _
  | .getCertificate _ _ _ _ | .challenge _ _ | .getMeasurements _ _ _ _ | .chunkSend _ _ _ | .chunkGet _ _ _
  | .pqSign _ _ | .pqCert _ _ | .jtagInstructionLoad _ | .refclkRestored | .inputRangeRecovered => true
  | .stackTemperatureCross stack _ _ => decide (stack < p.stacks)
  | .pcieLinkDown | .fieldNetworkLinkDown | .paceWordLaunch | .paceTriggerRelease | .auditWalkStart => true
  | .fcmFrameRelease n => p.hasLink n

end Sys2Proof
end

