-- ==== Sys2Proof/Safety.lean ====
section
/-! DEFINITION. What a safe run is, and the words the statements use: which commands wait, what an event may change, when a
dictionary request is taken and what it is answered, when an engine's step is clean. -/

namespace Sys2Proof.Machine

open Sys2Proof

/-- Every command that waits names units this part has. -/
def State.ok (s : State) : Prop := ∀ c ∈ s.pending, c.wf s.part = true

/-- A run of `k` steps that ends in a next state: no fault and no refusal on the way. -/
def Runs (k : Nat) (s t : State) : Prop := Sys2Proof.core.run k s = .next t

/-- `t` differs from `d` at most in what writing an event changes (R409-R412): the event log and queue, the dictionary's
counters, the persistent tail, and what leaves the device. -/
def OnlyEvents (d t : Dev) : Prop :=
  t = { d with evt := t.evt, dict := t.dict, out := t.out, boot := { d.boot with tailWait := t.boot.tailWait } }

/-- `t` differs from `d` at most in device memory and in what writing an event changes: what the stack interface may do to the
device (R355-R357). -/
def OnlyMem (d t : Dev) : Prop := OnlyEvents { d with mem := t.mem } t

/-- What a grove's own work never touches: the shared buffer, the collective engines, the switch and its links, the pace unit,
slots, channels and field-network peers, spares, an instruction load, and the modes (but for the scaling contexts a job has named). -/
def beside (d : Dev) : Buffer × Colls × Switch × Pace × Tbl Slot × Tbl Chan × List (Nat × Nat) × Spares × List (Nat × Nat × Nat × Nat × Nat) × Modes :=
  (d.buf, d.colls, d.sw, d.pace, d.slots, d.chans, d.peers, d.spares, d.loads, { d.modes with named := [] })

/-- `t` differs from `d` at most in grove `g` and in what a grove's work may change besides: device memory, the dictionary's
counters, scaling contexts, events, utilization and what leaves the device. -/
def OnlyGrove (g : Nat) (d t : Dev) : Prop := (∀ h, h ≠ g → t.grove h = d.grove h) ∧ beside t = beside d

/-! ### Dictionary requests (R390, R396-R405) -/

/-- The channel of a request that R396 takes as new while no assembly is open on it, and the device from which it is executed:
the path is ready, its slot is free, the header is good. None otherwise. -/
def taken (d : Dev) (rq : Rq) (k : Call) : Option (Nat × Dev) :=
  match receive d rq k with
  | .error _ => none
  | .ok d1 =>
    let x := enterChan d1 rq.path
    if verdict (x.2.chan x.1) rq.seq k.image = .run && (x.2.chan x.1).asm.isNone then some x else none

/-- The same for a READ, DESCRIBE, EVQ_READ or LOG_READ that no gate stops. -/
def readTaken (d : Dev) (rq : Rq) (k : Call) : Option (Nat × Dev) :=
  match taken d rq k with
  | some x => if k.op != 2 && (readGate x.2 k).isNone then some x else none
  | none => none

/-- The same for a WRITE of a whole value that fits the path and that no gate stops (R390, R399, R401, R404). -/
def writeTaken (d : Dev) (rq : Rq) (k : Call) : Option (Nat × Dev) :=
  match taken d rq k with
  | some (c, d1) =>
    let d2 := d1.setChan c { d1.chan c with asm := none }
    if k.op = 2 && k.last && !tooLong rq.path k.bytes.length && decide (k.bytes.length ≤ 294912)
        && (writeGate d2 c rq.path k).isNone then some (c, d2) else none
  | none => none

/-- The request answered: the channel keeps it with its response, and the response leaves (R396, R399). -/
def answered (c : Nat) (rq : Rq) (k : Call) (d : Dev) (r : Rsp) : Dev :=
  respond (d.setChan c { d.chan c with lastReq := some (rq.seq, k.image), rsp := r }) rq r

/-- A WRITE answered: a write of an rk object re-arms the lock first (R401). -/
def written (c : Nat) (rq : Rq) (k : Call) (d : Dev) (r : Rsp) : Dev := answered c rq k (rearm d c k.idx k.sub) r

/-! ### Engine steps (R91, R120, R122, R356) -/

/-- A step that nothing stops: every operand is mapped, aligned and writable, every line of an aperture has arrived, no earlier write
of its own command is pending on a line it reads, no word it meets is poisoned and the stack interface has nothing to report of
it, no home it writes to is fenced or absent, and its own work ends in no fault. -/
def cleanStep (p : Part) (d : Dev) (g e c : Nat) (r : StepRes) : Bool :=
  let gr := d.grove g
  !gr.ctxPoison.contains (e * 4096 + c) && !gr.bodyPoison (gr.ctx e c).cmd && (badOperand p d gr r).isNone
    && (missingLines p d gr (gr.ctx e c) r).isEmpty && (pendingLines p d gr e c r).isEmpty
    && r.reads.all (fun x => (rangeFlaws p d gr false x.addr x.len).isEmpty) && (writeFlaws p d gr r).isEmpty && (poisonOperand p d gr e r).isNone && r.err.isNone
    && ((writeReqs p d g r.writes).find? (fun y => homeDead p d y.2.1)).isNone

/-- Ranges of device memory that the device itself can read: the interface has nothing to report of them and no word is poisoned. -/
def cleanReads (p : Part) (d : Dev) (rs : List (Nat × Nat)) : Bool :=
  rs.all (fun r => (hitFlaws p d false r.1 r.2).isEmpty && !readPoison p d r.1 r.2)

/-! ### What holds of the device in every run -/

/-- A grove's memories are in canonical form (R78, R85), no flag counts more than 65,535 sets, and no more local setters are queued
or open than are declared (R127, R128). -/
def Grove.Sound (gr : Grove) : Prop :=
  (Mem.wf 0#8 gr.scratch = true ∧ Mem.wf 0#8 gr.gmem = true ∧ Tbl.wf 0 gr.imem = true)
    ∧ ∀ f, (gr.flag f).c + (gr.flag f).pl + (gr.flag f).pe ≤ 65535 ∧ (gr.flag f).s ≤ (gr.flag f).pl

/-- Every cell in use has an owner, no cell is in use twice or both in use and retired, and the cells marked as drawn from headroom
are those that headroom counts (R238-R241, R247). -/
def Buffer.Sound (b : Buffer) : Prop :=
  b.cells.Pairwise (fun x y => x.1 < y.1) ∧ b.retired.Nodup ∧ (∀ x ∈ b.cells, x.1 < 2097152 ∧ x.2.owners ≠ 0 ∧ x.1 ∉ b.retired)
    ∧ (∀ c ∈ b.retired, c < 2097152) ∧ b.headroomUsed = (b.cells.filter (fun x => x.2.head)).length

/-- What an allocation of cells comes to (R240, R243): they are distinct, were free, and have ingress alone as their holder; every other
cell stays as it was, and no cell is retired. -/
def Allocated (d : Dev) (cs : List Nat) (t : Dev) : Prop :=
  cs.Nodup ∧ (∀ c ∈ cs, d.buf.cells.find? c = none ∧ c ∉ d.buf.retired) ∧ (∀ c ∈ cs, t.buf.cells.find? c = some ⟨2 ^ 163, false, false⟩)
    ∧ (∀ c, c ∉ cs → t.buf.cells.find? c = d.buf.cells.find? c) ∧ t.buf.retired = d.buf.retired

/-- The visible count follows the count, and what is pending lies ahead of it in rising order (R367, R368). -/
def Pace.Sound (x : Pace) : Prop :=
  x.visible ≤ x.count ∧ x.pending.Pairwise (fun a b => a.w < b.w) ∧ ∀ a ∈ x.pending, x.count < a.w

/-- The device: every grove, device memory and flash in canonical form (R353, R436), the packet buffer, the pace. -/
def Dev.Sound (d : Dev) : Prop :=
  (∀ g, (d.grove g).Sound) ∧ (Mem.wf 0#8 d.mem.mem = true ∧ Mem.wf 0xFF#8 d.boot.flash = true) ∧ d.buf.Sound ∧ d.pace.Sound

end Sys2Proof.Machine
end

