-- ==== Sys2Proof/Certificates/Slice0/Obligations.lean ====
section
/-! DEFINITION. The statements for the provers: what each command completes with, what it leaves alone, and what every step keeps. -/

section

open Sys2Proof Sys2Proof.Machine

/-- A step takes the command at the front of the queue, first in, first out, and is what that command does with the queue's
rest. -/
def Obligations.StepTakesTheFrontCommand : Prop :=
  ∀ (s : State) (c : Instr) (rest : List Instr), s.pending = c :: rest → step s = exec c { s with pending := rest }

/-- With no command waiting, a step is one ARC cycle (the model's choice, log entry 2): it ends in a next state with the same part, an
empty queue, and the cycle counter advanced by one, modulo 2^64, when the ARC clock runs and is enabled in this cycle (R464), as it
was when throttle gates the cycle; nothing at all changes when the clock does not run. -/
def Obligations.EmptyQueueIdles : Prop :=
  ∀ (p : Part) (d : Dev),
    step ⟨p, d, []⟩ = .next ⟨p, idleTick p d, []⟩
    ∧ (d.runs domArc = false → idleTick p d = d)
    ∧ (d.runs domArc = true → arcEnabled d = true → (idleTick p d).cycle = (d.cycle + 1) % 2 ^ 64)
    ∧ (d.runs domArc = true → arcEnabled d = false → (idleTick p d).cycle = d.cycle)

/-- The machine after reset lists nothing in any memory, holds no command, has every supply off and every dictionary path closed, and
every command that waits is well-formed. What an unlisted byte of memory reads as the model's choice (log entry 12). -/
def Obligations.ResetIsPlain : Prop :=
  let s := State.reset
  State.ok s ∧ s.pending = [] ∧ s.dev.mem.mem = [] ∧ s.dev.boot.flash = [] ∧ s.dev.groves = [] ∧ s.dev.boot.rails = false
    ∧ s.dev.boot.ready = 0 ∧ s.dev.out = [] ∧ s.dev.evt.last = 0

/-- Every command the table has ends in a next state that changes neither the part nor the queue, exactly when every unit it names exists
on this part; otherwise it stops with the fault that says so, and nothing is ever refused. The stop at an absent unit, and that a
command that cannot happen leaves the device as it is, are the model's choice (log entry 4). -/
def Obligations.CommandsStopOnlyAtAbsentUnits : Prop :=
  ∀ (c : Instr) (s : State),
    (c.wf s.part = true → ∃ d, exec c s = .next { s with dev := d })
    ∧ (c.wf s.part = false → exec c s = .fault .noSuchUnit)

/-- THE INVARIANT THAT EVERY STEP KEEPS: while every waiting command names units the part has, a step ends in a next state of the
same part, with the queue's rest waiting, and that holds again. -/
def Obligations.EveryStepKeepsTheQueueSound : Prop :=
  ∀ s : State, s.ok → ∃ t, step s = .next t ∧ t.ok ∧ t.part = s.part ∧ t.pending = s.pending.tail

/-- Every run goes on: from a state whose waiting commands name units the part has, any number of steps ends in a next state with
that many commands taken from the front of the queue. -/
def Obligations.RunsNeverStop : Prop :=
  ∀ (k : Nat) (s : State), s.ok → ∃ t, Runs k s t ∧ t.ok ∧ t.part = s.part ∧ t.pending = s.pending.drop k

/-- Start-up completes (R430-R434, R445, R482, R403): each event of the start-up sequence, when it can happen, ends in a next state.
POWER_UP and RESET_N start the sequence; REFCLK takes it on to step 3; the self-test's end is step 9; a stack's training ends well
(READY) or fails (the third failure marks it FAILED); the PCIe link and the field network raise their dictionary paths; with node ID 0
the device sends the beacons that PLCA asks of a coordinator; the boot watchdog resets the device. After a loss of REFCLK neither the
self-test's end nor the watchdog starts the derived clocks again (R19, log entry 114). That start-up steps 3 to 8 are one step is the
model's choice (log entry 46). -/
def Obligations.StartUpCompletes : Prop :=
  (∀ (p : Part) (d : Dev) (q : List Instr), d.boot.rails = false → d.boot.tripped = false →
    exec .powerUp ⟨p, d, q⟩ = .next ⟨p, startUp p { d with boot := { d.boot with rails := true, vinOk := true, cold := true } }, q⟩)
  ∧ (∀ (p : Part) (d : Dev) (q : List Instr), d.boot.rails = true → d.boot.step = 2 →
    exec .bootRefclkReady ⟨p, d, q⟩ = .next ⟨p, steps38 p { d with boot := { d.boot with refclkOk := true } }, q⟩)
  ∧ (∀ (p : Part) (d : Dev) (q : List Instr) (gs pgs cells : List Nat) (broke : Bool), d.boot.step = 8 →
    exec (.selftestEnd gs pgs cells broke) ⟨p, d, q⟩ =
      .next ⟨p, if clockLost d then d else step9 p (takeOut p d gs pgs cells broke), q⟩)
  ∧ (∀ (p : Part) (d : Dev) (q : List Instr) (k : Nat), k < p.stacks → d.runs (domMem k) = true → d.mem.st.get 0 k = 1 →
    exec (.memoryTrained k true) ⟨p, d, q⟩ = .next ⟨p, settleMemory p (setStack (setStack d k 2) k 3), q⟩
    ∧ exec (.memoryTrained k false) ⟨p, d, q⟩ =
      (let d1 := { d with mem := { d.mem with tries := d.mem.tries.set 0 k (d.mem.tries.get 0 k + 1) } }
       .next ⟨p, if d.mem.tries.get 0 k + 1 < 3 then d1 else settleMemory p (trainFailed p d1 k), q⟩))
  ∧ (∀ (p : Part) (d : Dev) (q : List Instr), d.runs domPcie = true → d.boot.perst = true → d.boot.step = 9 →
    exec .pcieLinkUp ⟨p, d, q⟩ = .next ⟨p, raisePath { d with boot := { d.boot with pcieUp := true } } 0, q⟩)
  ∧ (∀ (p : Part) (d : Dev) (q : List Instr), d.runs domFnet = true → d.boot.step = 9 →
    exec .plcaJoin ⟨p, d, q⟩ =
      .next ⟨p, raisePath (if nodeId p d = 0 then d.send (.beacon (d.rd 0x1040 2 0)) else d) 1, q⟩)
  ∧ (∀ (p : Part) (d : Dev) (q : List Instr), 8 ≤ d.boot.step → d.boot.recovery = false → d.boot.bootOk = false →
    d.isReady 0 = false → d.isReady 1 = false →
    exec .bootWatchdog ⟨p, d, q⟩ = .next ⟨p, if clockLost d then startHeld (resetDev (cutWrites d))
      else startUp p (resetDev (cutWrites d)), q⟩)
  ∧ (∀ (p : Part) (d : Dev) (q : List Instr), d.boot.rails = true → d.boot.resetN = true →
    exec .resetNAssert ⟨p, d, q⟩ = .next ⟨p, startUp p (resetDev (cutWrites { d with boot := { d.boot with resetN := false } })), q⟩)
  ∧ (∀ (p : Part) (d : Dev) (q : List Instr), d.boot.rails = true → d.boot.resetN = false →
    exec .resetNRelease ⟨p, d, q⟩ = .next ⟨p, startUp p (resetDev (cutWrites { d with boot := { d.boot with resetN := true } })), q⟩)

/-- Power, clocks, heat and pins complete (R19, R421, R432, R454, R463, R464, R474, R477, R483, R486): each event, in a device it can
happen to, ends in a next state. With a rail inside its window nothing is shut down (R479). The PCIe function's masks are as after its
reset while the link is down (the model's choice, log entry 133). The throttle level of a rail short of phases, and the sensor a stack
reports to, are the model's choice (log entries 52 and 53). -/
def Obligations.PowerAndPinsComplete : Prop :=
  (∀ (p : Part) (d : Dev) (q : List Instr), d.boot.refclkOk = true → d.boot.rails = true → 8 ≤ d.boot.step →
    exec .refclkLoss ⟨p, d, q⟩ = .next ⟨p, loseRefclk p d, q⟩)
  ∧ (∀ (p : Part) (d : Dev) (q : List Instr), d.boot.refclkOk = false → d.boot.rails = true → 8 ≤ d.boot.step →
    exec .refclkRestored ⟨p, d, q⟩ = .next ⟨p, faultLevel d { d with boot := { d.boot with refclkOk := true } }, q⟩)
  ∧ (∀ (p : Part) (d : Dev) (q : List Instr), d.boot.rails = true → d.boot.vinOk = true →
    exec .inputOutOfRange ⟨p, d, q⟩ =
      .next ⟨p, if d.boot.step < 8 then powerOff d false else faultLevel d { d with boot := { d.boot with vinOk := false } }, q⟩)
  ∧ (∀ (p : Part) (d : Dev) (q : List Instr), d.boot.rails = true → d.boot.vinOk = false →
    exec .inputRangeRecovered ⟨p, d, q⟩ = .next ⟨p, faultLevel d { d with boot := { d.boot with vinOk := true } }, q⟩)
  ∧ (∀ (p : Part) (d : Dev) (q : List Instr), d.boot.rails = true →
    exec .inputShutdown ⟨p, d, q⟩ = .next ⟨p, powerOff (if d.boot.vinOk && 8 ≤ d.boot.step
      then faultLevel d { d with boot := { d.boot with vinOk := false } } else d) false, q⟩)
  ∧ (∀ (p : Part) (d : Dev) (q : List Instr), d.boot.rails = false → d.boot.tripped = false → d.boot.vinOk = false →
    exec .inputRestored ⟨p, d, q⟩ =
      .next ⟨p, startUp p { d with boot := { d.boot with rails := true, vinOk := true, cold := true } }, q⟩)
  ∧ (∀ (p : Part) (d : Dev) (q : List Instr), exec .inputPowerCycle ⟨p, d, q⟩ = .next ⟨p, powerOff d false, q⟩)
  ∧ (∀ (p : Part) (d : Dev) (q : List Instr) (rail mv : Nat), rail < 9 → d.boot.rails = true →
    (mv < (railWindow rail).1 ∨ (railWindow rail).2 < mv) → exec (.railFault rail mv) ⟨p, d, q⟩ =
      .next ⟨p, powerOff (flushTail (emit d 0xB003 stOK 0 false 0xB001 0 (dataUN 0 rail 0 0 mv 0 0))) true, q⟩)
  ∧ (∀ (p : Part) (d : Dev) (q : List Instr) (rail mv : Nat), rail < 9 → (railWindow rail).1 ≤ mv → mv ≤ (railWindow rail).2 →
    exec (.railFault rail mv) ⟨p, d, q⟩ = .next ⟨p, d, q⟩)
  ∧ (∀ (p : Part) (d : Dev) (q : List Instr) (sensor : Nat) (reading : Int), sensor < 34 + p.stacks → d.boot.rails = true →
    let d1 := { d with health := { d.health with temps := d.health.temps.set 0 sensor reading } }
    let hot := if 1050 ≤ hottest d1 then true else if hottest d1 < 1020 then false else d.health.thermal
    let d2 := faultLevel d { d1 with health := { d1.health with thermal := hot } }
    exec (.junctionTempCross sensor reading) ⟨p, d, q⟩ = .next ⟨p, if 1150 ≤ hottest d1 then
      powerOff (flushTail (emit d2 0xB004 stOK 0 false 0xB002 0 (dataUN 0 sensor 0 0 (ofSigned 64 reading) 0 0))) true else d2, q⟩)
  ∧ (∀ (p : Part) (d : Dev) (q : List Instr), d.runs domPower = true → 8 ≤ d.boot.step →
    exec .throttleStep ⟨p, d, q⟩ = .next ⟨p,
      if thermWarn d ≤ hottest d then setThrottle d 1 (min 8 (d.health.hot + 1)) d.health.short
      else if hottest d < thermWarn d - 30 then setThrottle d 1 (d.health.hot - 1) d.health.short else d, q⟩)
  ∧ (∀ (p : Part) (d : Dev) (q : List Instr) (rail phase : Nat), rail < 9 → phase < phasesFitted rail → d.runs domPower = true →
    (d.health.phases.get 0 rail).testBit phase = false →
    let d1 := Dev.inc { d with health := { d.health with
      phases := d.health.phases.set 0 rail (d.health.phases.get 0 rail + 2 ^ phase) } } 0xB005 0 0
    let d2 := emit d1 0xB001 stOK 1 false 0xB001 0 (dataUN 0 rail phase 0 (phasesGood d1 rail) 0 0)
    exec (.phaseFailed rail phase) ⟨p, d, q⟩ = .next ⟨p, if rail < 2 && phasesGood d2 rail < phasesNeeded rail
      then setThrottle d2.draw.2 2 d2.health.hot (d2.draw.1 % 9) else d2, q⟩)
  ∧ (∀ (p : Part) (d : Dev) (q : List Instr) (pair : Nat), pair < 2 → d.runs domMgmt = true → d.health.pairsFailed = 0 →
    exec (.mgmtFailover pair) ⟨p, d, q⟩ = .next ⟨p,
      emit (Dev.inc { d with health := { d.health with pairsFailed := 2 ^ pair } } 0x9021 0 4) 0x9005 stOK 1 false 0x9021 0
        (dataUN 6 pair 0 0 0 0 0), q⟩)
  ∧ (∀ (p : Part) (d : Dev) (q : List Instr), exec .perstAssert ⟨p, d, q⟩ =
      .next ⟨p, setReady { d with boot := { d.boot with perst := false, pcieUp := false }, evt := { d.evt with masks := 3, pend := 0 } } 0 false, q⟩)
  ∧ (∀ (p : Part) (d : Dev) (q : List Instr), exec .perstRelease ⟨p, d, q⟩ =
      .next ⟨p, { d with boot := { d.boot with perst := true } }, q⟩)
  ∧ (∀ (p : Part) (d : Dev) (q : List Instr), exec .pcieLinkDown ⟨p, d, q⟩ =
      .next ⟨p, setReady { d with boot := { d.boot with pcieUp := false }, evt := { d.evt with masks := 3, pend := 0 } } 0 false, q⟩)
  ∧ (∀ (p : Part) (d : Dev) (q : List Instr), exec .fieldNetworkLinkDown ⟨p, d, q⟩ =
      .next ⟨p, setReady { d with pace := { d.pace with ptp := { d.pace.ptp with port := .listening, sent := none } } } 1 false, q⟩)

/-- The dictionary's own requests complete (R394, R397-R401, R404-R406, R409, R410, R412): a request that R396 takes as new and no
gate stops is answered with what its rule gives, and the channel keeps it with its response. An operation that R394 does not list is
refused with BAD_FIELD. How a discovery answer is delayed is left free (the model's choice, log entry 10), and the function's MSI-X
masks work as the PCIe standard has them (the model's, log entry 133). -/
def Obligations.DictionaryRequestsComplete : Prop :=
  (∀ (p : Part) (d : Dev) (q : List Instr) (rq : Rq) (idx sub off len c : Nat) (d1 : Dev),
    readTaken d rq ⟨3, idx, sub, off, true, len, 0, []⟩ = some (c, d1) →
    exec (.describe rq ⟨3, idx, off, len⟩ sub) ⟨p, d, q⟩ = .next ⟨p, answered c rq ⟨3, idx, sub, off, true, len, 0, []⟩ d1
      ⟨stOK, 0, 0, toBytes 16 (describeImage p d1 idx sub)⟩, q⟩)
  ∧ (∀ (p : Part) (d : Dev) (q : List Instr) (rq : Rq) (idx sub off len c : Nat) (d1 : Dev),
    (idx, sub) ∉ [(0x3102, 1), (0x3000, 2), (0x4002, 1), (0x9012, 0), (0x2020, 1)] →
    readTaken d rq ⟨1, idx, sub, off, true, len, 0, []⟩ = some (c, d1) →
    exec (.describe rq ⟨1, idx, off, len⟩ sub) ⟨p, d, q⟩ = .next ⟨p, answered c rq ⟨1, idx, sub, off, true, len, 0, []⟩ d1
      (readRsp p d1 rq.path c idx sub off len), q⟩)
  ∧ (∀ (p : Part) (d : Dev) (q : List Instr) (rq : Rq) (op idx sub off len c : Nat) (d1 : Dev), op ∉ [1, 2, 3, 0x10, 0x11] →
    readTaken d rq ⟨op, idx, sub, off, true, len, 0, []⟩ = some (c, d1) →
    exec (.describe rq ⟨op, idx, off, len⟩ sub) ⟨p, d, q⟩ = .next ⟨p, answered c rq ⟨op, idx, sub, off, true, len, 0, []⟩ d1
      (Rsp.st stBadField), q⟩)
  ∧ (∀ (p : Part) (d : Dev) (q : List Instr) (rq : Rq) (a c : Nat) (d1 : Dev),
    let k : Call := ⟨0x10, 0x1021, 0, 0, true, 0, 0, []⟩
    let d2 := { d1 with evt := { d1.evt with queue := (takeEvents 15 d1.evt.queue).2, reader := some a } }
    rq.path = .peer a → d1.evqOwner = 1 → readTaken d rq k = some (c, d1) →
    exec (.evqRead rq) ⟨p, d, q⟩ = .next ⟨p, answered c rq k (settleQueue d2 (d2.ctr 0x1021 3 0))
      ⟨stOK, 0, 0, eventBytes (takeEvents 15 d1.evt.queue).1⟩, q⟩)
  ∧ (∀ (p : Part) (d : Dev) (q : List Instr) (rq : Rq) (first c : Nat) (d1 : Dev),
    let k : Call := ⟨0x11, 0x1020, 0, 0, true, 0, first, []⟩
    let xs := (logFrom d1.evt (max first d1.evt.oldest)).take (logFits rq.path)
    readTaken d rq k = some (c, d1) →
    exec (.logRead rq first) ⟨p, d, q⟩ = .next ⟨p, answered c rq k d1
      ⟨stOK, match xs with | [] => 0 | x :: _ => x.seq, 0, eventBytes xs⟩, q⟩)
  ∧ (∀ (p : Part) (d : Dev) (q : List Instr) (rq : Rq) (idx sub off : Nat) (data : List Byte) (c : Nat) (d1 d2 : Dev),
    let k : Call := ⟨2, idx, sub, off, true, data.length, 0, data⟩
    writeTaken d rq k = some (c, d1) → dictWriteRule p idx sub off data d1 = (d2, Rsp.st stOK) →
    exec (.dictWrite rq idx sub off true data) ⟨p, d, q⟩ = .next ⟨p, written c rq k d2 (Rsp.st stOK), q⟩)
  ∧ (∀ (p : Part) (d : Dev) (q : List Instr) (rq : Rq) (idx sub : Nat) (data : List Byte) (c : Nat) (d1 : Dev),
    let k : Call := ⟨2, idx, sub, 0, false, data.length, 0, data⟩
    taken d rq k = some (c, d1) → writeGate d1 c rq.path k = none → isOct idx sub = true → data.length ≤ 1024 →
    flashAsmElsewhere d1 c = false →
    exec (.octSegment rq idx sub 0 data) ⟨p, d, q⟩ = .next ⟨p,
      answered c rq k (d1.setChan c { d1.chan c with asm := some ⟨idx, sub, data⟩ }) (Rsp.st stOK), q⟩)
  ∧ (∀ (p : Part) (d : Dev) (q : List Instr) (slot : Nat), slot < 8 → d.isReady 0 = true →
    exec (.bar0BusySlotWrite slot) ⟨p, d, q⟩ = .next ⟨p, d.inc 0x1030 0 6, q⟩)
  ∧ (∀ (p : Part) (d : Dev) (q : List Instr) (v : Nat), d.isReady 0 = true → d.evt.consumed ≤ v → v ≤ d.evt.placed →
    let d1 := placeEvents 64 { d with evt := { d.evt with consumed := v } }
    exec (.eventConsumed (.consumed v)) ⟨p, d, q⟩ = .next ⟨p, settleQueue d1 (d1.ctr 0x1021 3 0), q⟩)
  ∧ (∀ (p : Part) (d : Dev) (q : List Instr) (v : Nat), d.isReady 0 = true → (v < d.evt.consumed ∨ d.evt.placed < v) →
    exec (.eventConsumed (.consumed v)) ⟨p, d, q⟩ = .next ⟨p, d.inc 0x1030 0 6, q⟩)
  ∧ (∀ (p : Part) (d : Dev) (q : List Instr) (off : Nat), exec (.eventConsumed (.window off)) ⟨p, d, q⟩ = .next ⟨p, d, q⟩)
  ∧ (∀ (p : Part) (d : Dev) (q : List Instr) (k : Nat) (on : Bool), d.isReady 0 = true → k < 3 →
    let d1 := { d with evt := { d.evt with masks := putBit d.evt.masks k on, pend := 0 } }
    let d2 := if d.evt.pend.testBit 0 then raiseMsix d1 0 else d1
    exec (.eventConsumed (.msixMask k on)) ⟨p, d, q⟩ = .next ⟨p, if d.evt.pend.testBit 1 then raiseMsix d2 1 else d2, q⟩)
  ∧ (∀ (p : Part) (d : Dev) (q : List Instr),
    let d1 := { d with evt := { d.evt with noticeHeld := false, noticeRecent := false } }
    exec .evqNoticeDelayed ⟨p, d, q⟩ =
      .next ⟨p, if d.evt.noticeHeld && !d.evt.queue.isEmpty then notice d1 else d1, q⟩)
  ∧ (∀ (p : Part) (d : Dev) (q : List Instr), d.isReady 1 = true →
    exec .malformedDatagram ⟨p, d, q⟩ = .next ⟨p, d.inc 0x1030 0 4, q⟩)
  ∧ (∀ (p : Part) (d : Dev) (q : List Instr) (peer seq idx sub : Nat) (span : Span), d.isReady 1 = true → 0x1000 ≤ idx → idx ≤ 0x10FF →
    let x := enterPeer (d.inc 0x1030 0 1) peer
    let k := Call.read idx sub span.off span.len
    verdict (x.2.chan x.1) seq k.image = .run →
    let d1 := dropAsm x.2 x.1
    let r := discoveryRsp p d1 idx sub span
    exec (.discoveryRead peer seq idx sub span) ⟨p, d, q⟩ = .next ⟨p,
      answerDiscovery (d1.setChan x.1 { d1.chan x.1 with lastReq := some (seq, k.image), rsp := r }) peer seq r, q⟩)
  ∧ (∀ (p : Part) (d : Dev) (q : List Instr) (rq : Rq) (c : Nat) (d1 : Dev),
    let k := Call.write 0x1F00 0 (toBytes 2 0xC3A5)
    writeTaken d rq k = some (c, d1) →
    exec (.unlock rq 0xC3A5) ⟨p, d, q⟩ = .next ⟨p, written c rq k (setUnlocked d1 c true) (Rsp.st stOK), q⟩)
  ∧ (∀ (p : Part) (d : Dev) (q : List Instr) (path : Path) (c : Nat), chanOf d path = some c → (d.chan c).unlocked = true →
    (d.chan c).asm = none →
    exec (.unlockTimeout path) ⟨p, d, q⟩ = .next ⟨p, setUnlocked d c false, q⟩)
  ∧ (∀ (p : Part) (d : Dev) (q : List Instr) (rq : Rq) (c : Nat) (d1 : Dev),
    let k := Call.write 0x1021 5 (toBytes 1 1)
    let d2 := { d1 with evt := { d1.evt with queue := [] } }
    writeTaken d rq k = some (c, d1) →
    exec (.evqFlush rq 1) ⟨p, d, q⟩ =
      .next ⟨p, written c rq k (settleQueue d2 (d2.ctr 0x1021 3 0)) (Rsp.st stOK), q⟩)
  ∧ (∀ (p : Part) (d : Dev) (q : List Instr) (rq : Rq) (v c : Nat) (d1 : Dev),
    let k := Call.write 0x1021 4 (toBytes 1 v)
    v < 2 → v ≠ d1.evqOwner → writeTaken d rq k = some (c, d1) →
    exec (.evqOwnerChange rq v) ⟨p, d, q⟩ =
      .next ⟨p, written c rq k (placeEvents 64 (d1.wr 0x1021 4 0 v)) (Rsp.st stOK), q⟩)

/-- What a dictionary WRITE leaves of the store (R389, R390, R397, R401, R404): one that a gate stops or the object refuses is answered
with that status, its channel keeps the answer, and no object of a chapter changes; one that is accepted is held as the object keeps
it, and a READ then gives it. Not said here of the objects whose records have a row of their own, of grants, of port sets and ranks
(frames may move at once), and of a scaling context that an operation holds (R49). -/
def Obligations.DictionaryWritesTakeEffect : Prop :=
  (∀ (p : Part) (d : Dev) (q : List Instr) (rq : Rq) (idx sub off : Nat) (data : List Byte) (c st : Nat) (d1 : Dev),
    let k : Call := ⟨2, idx, sub, off, true, data.length, 0, data⟩
    taken d rq k = some (c, d1) → tooLong rq.path data.length = false → data.length ≤ 294912 → writeGate d1 c rq.path k = some st →
    ∃ t, exec (.dictWrite rq idx sub off true data) ⟨p, d, q⟩ = .next ⟨p, t, q⟩ ∧ (t.chan c).rsp = Rsp.st st
      ∧ ∀ i s r, 0x1030 < i → t.rd i s r = d.rd i s r)
  ∧ (∀ (p : Part) (d : Dev) (q : List Instr) (rq : Rq) (idx sub off : Nat) (data : List Byte) (c : Nat) (d1 : Dev),
    let k : Call := ⟨2, idx, sub, off, true, data.length, 0, data⟩
    let r := (dictWriteRule p idx sub off data d1).2
    writeTaken d rq k = some (c, d1) → r.status ≠ stOK →
    ∃ t, exec (.dictWrite rq idx sub off true data) ⟨p, d, q⟩ = .next ⟨p, t, q⟩ ∧ (t.chan c).rsp = r
      ∧ ∀ i s r, 0x1030 < i → t.rd i s r = d.rd i s r)
  ∧ (∀ (p : Part) (d : Dev) (q : List Instr) (rq : Rq) (o : Obj) (idx sub rec c : Nat) (data : List Byte) (d1 : Dev),
    let k : Call := ⟨2, idx, sub, o.bytes * rec, true, data.length, 0, data⟩
    writeTaken d rq k = some (c, d1) → (dictWriteRule p idx sub (o.bytes * rec) data d1).2 = Rsp.st stOK →
    findObj idx sub = some o → data.length = o.bytes → ownRule p idx sub rec (ofBytes data) = none →
    idx ∉ [0x6003, 0x6004, 0x6020] → (linkScope idx sub = true → p.hasLink rec = true) →
    (idx = 0x4300 → (d1.ctx rec).busy = false) →
    ∃ t, exec (.dictWrite rq idx sub (o.bytes * rec) true data) ⟨p, d, q⟩ = .next ⟨p, t, q⟩ ∧ (t.chan c).rsp = Rsp.st stOK
      ∧ t.rd idx sub rec = kept d1 idx sub rec (ofBytes data))
  ∧ (∀ (p : Part) (d : Dev) (path : Path) (o : Obj) (idx sub rec c : Nat), findObj idx sub = some o → o.acc = accRw → idx ≠ 0x4300 →
    rec < o.count p (tabNow d idx sub) →
    (readRsp p d path c idx sub (o.bytes * rec) o.bytes).data = toBytes o.bytes (recRead p d idx sub rec))

/-- `x` is a dictionary request that reads, with what R396 compares of it: a request without data of any operation, EVQ_READ, LOG_READ
and the reads that rearm. -/
def readRequests (rq : Rq) (op idx sub off len : Nat) (x : Instr × Call) : Prop :=
  x ∈ [(.describe rq ⟨op, idx, off, len⟩ sub, ⟨op, idx, sub, off, true, len, 0, []⟩), (.evqRead rq, ⟨0x10, 0x1021, 0, 0, true, 0, 0, []⟩),
    (.logRead rq off, ⟨0x11, 0x1020, 0, 0, true, 0, off, []⟩), (.qhwmRead rq off len, Call.read 0x3102 1 off len),
    (.bufFreeLwmRead rq, Call.read 0x3000 2 0 4), (.ctxInUseHwmRead rq off len, Call.read 0x4002 1 off len),
    (.marginTimingRead rq off len, Call.read 0x9012 0 off len), (.sampleRead rq len, Call.read 0x2020 1 0 len)]

/-- A WRITE of one record of a table. -/
def recordCall (idx rec : Nat) (bytes : List Byte) : Call := ⟨2, idx, 0, bytes.length * rec, true, bytes.length, 0, bytes⟩

/-- `x` is a request that writes, of those in the table's order up to the operations of the groves and of collectives. -/
def writeRequests (rq : Rq) (a b c e f : Nat) (last : Bool) (data : List Byte) (ws : List Word) (x : Instr × Call) : Prop :=
  x ∈ [(.dictWrite rq a b c last data, ⟨2, a, b, c, last, data.length, 0, data⟩),
    (.octSegment rq a b c data, ⟨2, a, b, c, false, data.length, 0, data⟩), (.unlock rq a, Call.write 0x1F00 0 (toBytes 2 a)),
    (.evqFlush rq a, Call.write 0x1021 5 (toBytes 1 a)), (.evqOwnerChange rq a, Call.write 0x1021 4 (toBytes 1 a)),
    (.groveCtrlStart rq a b, Call.write 0x4101 0 (groveCtrlBytes 1 a b)), (.groveCtrlHalt rq a, Call.write 0x4101 0 (groveCtrlBytes 2 a 0)),
    (.groveCtrlReset rq a, Call.write 0x4101 0 (groveCtrlBytes 3 a 0)),
    (.instrWrite rq a b c ws, Call.write 0x4102 0 (instrWriteBytes a b c ws)),
    (.instrLoadMem rq a b c e f, Call.write 0x4102 1 (toBytes 24 (pack [(0, 32, a), (32, 15, c), (48, 16, b), (64, 64, e), (128, 64, f)]))),
    (.bankSwitch rq a b c, Call.write 0x4102 4 (toBytes 8 (pack [(0, 32, c), (32, 24, b), (56, 8, a)]))),
    (.scaleCtxClear rq a, Call.write 0x4300 2 (toBytes 2 a)), (.collSubmit rq data, Call.write 0x5000 0 data),
    (.moeRouteRelease rq a b, Call.write 0x5030 1 (toBytes 4 a ++ toBytes 4 b)),
    (.filterSetCommit rq a, Call.write 0x5110 1 (toBytes 1 (a % 128))),
    (.filterSetUncommit rq a, Call.write 0x5110 1 (toBytes 1 (a % 128 + 128))),
    (.fcmEnter rq a, Call.write 0x8400 0 (fcmCtrlBytes 1 a)), (.fcmLeave rq a, Call.write 0x8400 0 (fcmCtrlBytes 2 a)),
    (.ckptCheckpoint rq a b, Call.write 0x8500 2 (ckptCtrlBytes a 1 b)),
    (.ckptCheckpointStop rq a b, Call.write 0x8500 2 (ckptCtrlBytes a 2 b)),
    (.ckptRestore rq a b c e, Call.write 0x8500 4 (toBytes 4 a ++ toBytes 1 b ++ List.replicate 3 0 ++ toBytes 8 c ++ toBytes 8 e
      ++ List.replicate 8 0))]

/-- `x` is a request that writes, of the rest of the table's but for BOOT_RESET and ATTEMPT_RESET. -/
def moreWriteRequests (rq : Rq) (a b c : Nat) (data : List Byte) (recs : List Nat) (job : JobRec) (cmd : FenceCmd)
    (x : Instr × Call) : Prop :=
  x ∈ [(.bufReclaim rq a b, Call.write 0x3010 5 (toBytes 4 a ++ toBytes 1 b ++ List.replicate 3 0)),
    (.linkEnable rq a, Call.write 0x2001 1 (linkCtrlBytes a 1)), (.linkDisable rq a, Call.write 0x2001 1 (linkCtrlBytes a 2)),
    (.linkRetrain rq a, Call.write 0x2001 1 (linkCtrlBytes a 3)), (.linkRestoreLane rq a, Call.write 0x2001 1 (linkCtrlBytes a 4)),
    (.linkEraseCoefficients rq a, Call.write 0x2001 1 (linkCtrlBytes a 5)), (.ethMacFlush rq a, Call.write 0x2012 2 (toBytes 2 a)),
    (.mirrorNWrite rq a b, recordCall 0x2020 a (toBytes 4 b)),
    (.epochSwap rq a b c, Call.write 0x6011 1 (toBytes 4 (a % 256) ++ toBytes 4 b ++ toBytes 8 c)),
    (.jobCreate rq job, recordCall 0x6002 job.idx (toBytes 32 (jobImage { job with valid := true }))),
    (.jobDelete rq job, recordCall 0x6002 job.idx (toBytes 32 (jobImage { job with valid := false }))),
    (.jobAdaptiveUpdate rq job, recordCall 0x6002 job.idx (toBytes 32 (jobImage { job with valid := true }))),
    (.grantWrite rq a recs, ⟨2, 0x6020, 0, 32 * a, true, (recs.flatMap (toBytes 32)).length, 0, recs.flatMap (toBytes 32)⟩),
    (.unfence rq cmd, Call.write 0x6030 0 (toBytes 24 (fenceRec { cmd with op := 2 }))),
    (.paceSourceWrite rq a, Call.write 0x8000 1 (toBytes 1 a)), (.paceLoad rq a, Call.write 0x8000 3 (toBytes 8 a)),
    (.paceStep rq a, Call.write 0x8000 4 (toBytes 8 a)), (.paceCal rq a, Call.write 0x8000 5 (toBytes 1 a)),
    (.schedArm rq a b, recordCall 0x8100 a (toBytes 32 b)), (.schedCancel rq a, Call.write 0x8100 1 (toBytes 1 a)),
    (.wallclockSet rq a, Call.write 0x8200 1 (toBytes 8 a)), (.telemSnapNow rq a, Call.write 0x9111 0 (toBytes 1 a)),
    (.flashWrite rq a data, Call.write 0xA001 0 (toBytes 8 (a % 2 ^ 32) ++ data)),
    (.flashErase rq a b, Call.write 0xA001 1 (toBytes 4 a ++ toBytes 4 b)), (.verifyBankA rq, bootCtrl 2), (.verifyBankB rq, bootCtrl 3)]
  ∨ (cmd.op % 256 ≠ 2 ∧ x = (.fence rq cmd, Call.write 0x6030 0 (toBytes 24 (fenceRec cmd))))

/-- `x` is a request after which the device may have reset. -/
def resetRequests (rq : Rq) (x : Instr × Call) : Prop := x ∈ [(.bootReset rq, bootCtrl 1), (.attemptReset rq, bootCtrl 4)]

/-- A response stands where it goes: in the slot of the request, or among what has left for the peer (R399, R405). -/
def responded (rq : Rq) (r : Rsp) (t : Dev) : Prop :=
  match rq.path with
  | .slot n => ∃ h, t.slot n = ⟨rspHeader h r, r.data⟩
  | .peer a => Out.response (linkLocal, vdpPort) a rq.seq r ∈ t.out

/-- R396's cases for a request that has been seen: repeated as it was, the kept response is sent again and nothing executes; with the
same REQSEQ but another header or data, BAD_FIELD and nothing executes; with d from 2^31 on, BAR0 answers BAD_FIELD, and the field network
sends no response and counts a stale request. `c` is the channel, `d1` the device that has taken the request. -/
def repeats (p : Part) (dev : Dev) (q : List Instr) (rq : Rq) (x : Instr × Call) (c : Nat) (d1 : Dev) : Prop :=
  let back := fun l => (rq.seq + 2 ^ 32 - l) % 2 ^ 32
  (∀ l, (d1.chan c).lastReq = some (l, x.2.image) → back l = 0 →
    exec x.1 ⟨p, dev, q⟩ = .next ⟨p, respond (d1.inc 0x1030 0 2) rq (d1.chan c).rsp, q⟩)
  ∧ (∀ l im, (d1.chan c).lastReq = some (l, im) → im ≠ x.2.image → back l = 0 →
    exec x.1 ⟨p, dev, q⟩ = .next ⟨p, respond d1 rq (Rsp.st stBadField), q⟩)
  ∧ (∀ l im n, (d1.chan c).lastReq = some (l, im) → 2 ^ 31 ≤ back l → rq.path = .slot n →
    exec x.1 ⟨p, dev, q⟩ = .next ⟨p, respond d1 rq (Rsp.st stBadField), q⟩)
  ∧ (∀ l im a, (d1.chan c).lastReq = some (l, im) → 2 ^ 31 ≤ back l → rq.path = .peer a →
    exec x.1 ⟨p, dev, q⟩ = .next ⟨p, d1.inc 0x1030 0 3, q⟩)

/-- R396's five cases, for every dictionary request that the table has: a request that has been received and is new on its channel (no
last request, or d from 1 to 2^31 - 1) executes, and the channel keeps it with the response that leaves; one that was seen never
executes twice. BOOT_RESET and ATTEMPT_RESET may leave no channel; entry into fixed-cycle mode, while it is armed, holds
COLL_SUBMIT and START (R223). -/
def Obligations.ChannelSequence : Prop :=
  ∀ (p : Part) (dev : Dev) (q : List Instr) (rq : Rq) (a b c e f : Nat) (last : Bool) (data : List Byte) (ws : List Word)
    (recs : List Nat) (job : JobRec) (cmd : FenceCmd),
    (∀ x, readRequests rq a b c e f x ∨ writeRequests rq a b c e f last data ws x ∨ moreWriteRequests rq a b c data recs job cmd x →
      ∀ d0, receive dev rq x.2 = .ok d0 →
      let n := (enterChan d0 rq.path).1
      let d1 := (enterChan d0 rq.path).2
      let back := fun l => (rq.seq + 2 ^ 32 - l) % 2 ^ 32
      (dev.modes.fcm ≠ 1 → ((d1.chan n).lastReq = none ∨ ∃ l im, (d1.chan n).lastReq = some (l, im) ∧ 1 ≤ back l ∧ back l < 2 ^ 31) →
        ∃ t, exec x.1 ⟨p, dev, q⟩ = .next ⟨p, t, q⟩ ∧ (t.chan n).lastReq = some (rq.seq, x.2.image) ∧ responded rq (t.chan n).rsp t)
      ∧ repeats p dev q rq x n d1)
    ∧ (∀ x, resetRequests rq x → ∀ d0, receive dev rq x.2 = .ok d0 →
      repeats p dev q rq x (enterChan d0 rq.path).1 (enterChan d0 rq.path).2)

/-- The reads that change what they read complete (R101, R242, R248, R296, R297, R311, R394, R397, R468): a READ that no gate stops
answers with the bytes asked for, and the marks it touched are rearmed, or the samples it returned are gone and their cells are let
go; OFFSET or LENGTH that is no whole number of a table's records is answered BAD_FIELD and rearms nothing. What a read of a part of a
table rearms is the model's choice (log entry 42). -/
def Obligations.RearmingReadsComplete : Prop :=
  (∀ (p : Part) (d : Dev) (q : List Instr) (rq : Rq) (off len c : Nat) (d1 : Dev),
    let k := Call.read 0x3102 1 off len
    readTaken d rq k = some (c, d1) →
    exec (.qhwmRead rq off len) ⟨p, d, q⟩ = .next ⟨p,
      if off % 256 ≠ 0 ∨ len % 256 ≠ 0 then answered c rq k d1 (Rsp.st stBadField) else answered c rq k ((touched rq.path off len 256 128).foldl rearmLink d1)
        (Rsp.bytes rq.path off len ((List.range 128).flatMap (fun n => toBytes 256 (qhwmLink d1 n)))), q⟩)
  ∧ (∀ (p : Part) (d : Dev) (q : List Instr) (rq : Rq) (c : Nat) (d1 : Dev),
    let k := Call.read 0x3000 2 0 4
    readTaken d rq k = some (c, d1) →
    exec (.bufFreeLwmRead rq) ⟨p, d, q⟩ = .next ⟨p,
      answered c rq k { d1 with buf := { d1.buf with lwm := bufFree d1 } }
        ⟨stOK, 0, 4, toBytes 4 (min d1.buf.lwm (bufFree d1))⟩, q⟩)
  ∧ (∀ (p : Part) (d : Dev) (q : List Instr) (rq : Rq) (off len c : Nat) (d1 : Dev),
    let k := Call.read 0x4002 1 off len
    readTaken d rq k = some (c, d1) →
    exec (.ctxInUseHwmRead rq off len) ⟨p, d, q⟩ = .next ⟨p,
      if off % 2 ≠ 0 ∨ len % 2 ≠ 0 then answered c rq k d1 (Rsp.st stBadField) else answered c rq k ((touched rq.path off len 2 (16 * p.groves)).foldl
          (fun d k => { d with marks := d.marks.set 0 (1000 + k) (ctxNow d k) }) d1)
        (Rsp.bytes rq.path off len ((List.range (16 * p.groves)).flatMap
          (fun k => toBytes 2 (max (d1.marks.get 0 (1000 + k)) (ctxNow d1 k))))), q⟩)
  ∧ (∀ (p : Part) (d : Dev) (q : List Instr) (rq : Rq) (off len c : Nat) (d1 : Dev),
    let k := Call.read 0x9012 0 off len
    readTaken d rq k = some (c, d1) →
    exec (.marginTimingRead rq off len) ⟨p, d, q⟩ = .next ⟨p,
      if off % 8 ≠ 0 ∨ len % 8 ≠ 0 then answered c rq k d1 (Rsp.st stBadField) else answered c rq k ((touched rq.path off len 8 64).foldl
          (fun d k => { d with health := { d.health with slackLow := d.health.slackLow.set 0 k (d.health.slack.get 0 k) } }) d1)
        (Rsp.bytes rq.path off len ((List.range 64).flatMap (fun k => toBytes 8 (timingRec d1 k)))), q⟩)
  ∧ (∀ (p : Part) (d : Dev) (q : List Instr) (rq : Rq) (len c : Nat) (d1 : Dev),
    let k := Call.read 0x2020 1 0 len
    let n := min 16 (returned rq.path 0 len (160 * d1.sw.samples.length) / 160)
    readTaken d rq k = some (c, d1) →
    exec (.sampleRead rq len) ⟨p, d, q⟩ = .next ⟨p,
      answered c rq k (releaseCells { d1 with sw := { d1.sw with samples := d1.sw.samples.drop n } } 160
          ((d1.sw.samples.take n).filterMap (fun x => x.cell)))
        ⟨stOK, 0, 160 * min 16 d1.sw.samples.length, (d1.sw.samples.take n).flatMap sampleBytes⟩, q⟩)

/-- Control of a grove completes (R47, R49, R105, R107, R136-R138, R144-R146): START, HALT, RESET, RESET's end, INSTR_WRITE,
INSTR_LOAD_MEM and its end, BANK_SWITCH and SCALE_CTX_CLEAR, in a state that the rules let them act on. The words of a load stand where its end, not its start,
finds them, loads end in the order in which they began, and RESET drops an armed switch (the model's choices, log entry 41); a load's
statuses for what R146 gives none are the model's (log entry 118). -/
def Obligations.GroveControlCompletes : Prop :=
  (∀ (p : Part) (d : Dev) (q : List Instr) (rq : Rq) (g bank c : Nat) (d1 : Dev),
    let k := Call.write 0x4101 0 (groveCtrlBytes 1 g bank)
    let gr := d1.grove g
    let gr1 := { gr with pc := 0, bank := bank, ended := false, stall := Stall.none, regs := [], flags := [], lastTag := 0,
                         haltRec := List.replicate 200 0, sampled := false, statePoison := false, waitsAt := [] }
    g < p.groves → bank < 2 → d.modes.fcm ≠ 1 → writeTaken d rq k = some (c, d1) → d1.boot.readyGroves.testBit g = true →
    d1.role g = 1 → d1.groveJob g ≠ 0 → (d1.jobRec (d1.groveJob g)).isSome = true → gr.phase = .idle →
    gr.bankSt bank = .idle → bank ∉ gr.writing →
    exec (.groveCtrlStart rq g bank) ⟨p, d, q⟩ = .next ⟨p,
      written c rq k (setPhase (d1.setGrove g (gr1.setBank bank .active)) g .running) (Rsp.st stOK), q⟩)
  ∧ (∀ (p : Part) (d : Dev) (q : List Instr) (rq : Rq) (g c : Nat) (d1 : Dev),
    let k := Call.write 0x4101 0 (groveCtrlBytes 2 g 0)
    g < p.groves → writeTaken d rq k = some (c, d1) → (d1.grove g).phase = .running →
    exec (.groveCtrlHalt rq g) ⟨p, d, q⟩ = .next ⟨p, written c rq k (seqFault p d1 g 0x0C stOK) (Rsp.st stOK), q⟩)
  ∧ (∀ (p : Part) (d : Dev) (q : List Instr) (rq : Rq) (g c : Nat) (d1 : Dev),
    let k := Call.write 0x4101 0 (groveCtrlBytes 3 g 0)
    let d2 := freeScales d1 g
    g < p.groves → writeTaken d rq k = some (c, d1) → (d1.grove g).phase = .running ∨ (d1.grove g).phase = .halted →
    exec (.groveCtrlReset rq g) ⟨p, d, q⟩ = .next ⟨p,
      written c rq k (setPhase (d2.setGrove g (clearWork (d2.grove g))) g .resetting) (Rsp.st stOK), q⟩)
  ∧ (∀ (p : Part) (d : Dev) (q : List Instr) (rq : Rq) (g c : Nat) (d1 : Dev),
    let k := Call.write 0x4101 0 (groveCtrlBytes 3 g 0)
    g < p.groves → writeTaken d rq k = some (c, d1) → (d1.grove g).phase = .idle →
    exec (.groveCtrlReset rq g) ⟨p, d, q⟩ = .next ⟨p,
      written c rq k (d1.setGrove g (clearState (clearWork (d1.grove g)))) (Rsp.st stOK), q⟩)
  ∧ (∀ (p : Part) (d : Dev) (q : List Instr) (g : Nat), g < p.groves → d.runs domArc = true →
    (d.grove g).phase = .resetting → (d.grove g).reqs = [] →
    let gr := d.grove g
    let gr1 := { gr with flags := [], regs := [], aps := [], b0 := .idle, b1 := .idle, armed := none, sampled := false, statePoison := false }
    exec (.groveResetDone g) ⟨p, d, q⟩ = .next ⟨p, setPhase (d.setGrove g gr1) g .idle, q⟩)
  ∧ (∀ (p : Part) (d : Dev) (q : List Instr) (rq : Rq) (g bank first : Nat) (ws : List Word) (c : Nat) (d1 : Dev),
    let k := Call.write 0x4102 0 (instrWriteBytes g bank first ws)
    g < p.groves → bank < 2 → ws ≠ [] → ws.length ≤ 512 → first + ws.length ≤ 32768 → writeTaken d rq k = some (c, d1) →
    bankWriteStatus d1 g bank = stOK →
    exec (.instrWrite rq g bank first ws) ⟨p, d, q⟩ = .next ⟨p,
      written c rq k (d1.setGrove g ((d1.grove g).putWords bank first ws)) (Rsp.st stOK), q⟩)
  ∧ (∀ (p : Part) (d : Dev) (q : List Instr) (rq : Rq) (mask bank first off len c : Nat) (d1 : Dev),
    let k := Call.write 0x4102 1 (toBytes 24 (pack [(0, 32, mask), (32, 15, first), (48, 16, bank), (64, 64, off), (128, 64, len)]))
    mask < 2 ^ p.groves → bank < 2 → first + len ≤ 32768 → 0 < len → 8 ∣ off → writeTaken d rq k = some (c, d1) →
    d1.works 4 = true → off + 8 * len ≤ memSize p d1 →
    (∀ g ∈ maskGroves p mask, bankWriteStatus d1 g bank = stOK) → readPoison p d1 off (8 * len) = false →
    exec (.instrLoadMem rq mask bank first off len) ⟨p, d, q⟩ = .next ⟨p, written c rq k ((maskGroves p mask).foldl
      (fun d g => d.setGrove g { d.grove g with writing := bank :: (d.grove g).writing })
      { d1 with loads := d1.loads ++ [(mask, bank, first, off, len)] }) (Rsp.st stOK), q⟩)
  ∧ (∀ (p : Part) (d : Dev) (q : List Instr) (mask bank first off len : Nat) (rest : List (Nat × Nat × Nat × Nat × Nat)),
    d.loads = (mask, bank, first, off, len) :: rest → hitFlaws p d false off (8 * len) = [] → readPoison p d off (8 * len) = false →
    let ws := (unpackCodes 64 len (ofBytes (d.mem.mem.readN 0#8 off (8 * len)))).map (BitVec.ofNat 64)
    exec .instrLoadDone ⟨p, d, q⟩ = .next ⟨p, (maskGroves p mask).foldl (fun d g =>
      let gr1 := { d.grove g with writing := (d.grove g).writing.erase bank }
      d.setGrove g (if (d.grove g).phase != .resetting then gr1.putWords bank first ws else gr1)) { d with loads := rest }, q⟩)
  ∧ (∀ (p : Part) (d : Dev) (q : List Instr) (rq : Rq) (g bank crc c : Nat) (d1 : Dev),
    let k := Call.write 0x4102 4 (toBytes 8 (pack [(0, 32, crc), (32, 24, bank), (56, 8, g)]))
    g < p.groves → bank < 2 → crc < 2 ^ 32 → writeTaken d rq k = some (c, d1) → (d1.grove g).bankSt bank = .idle →
    exec (.bankSwitch rq g bank crc) ⟨p, d, q⟩ = .next ⟨p,
      written c rq k (d1.setGrove g { d1.grove g with armed := some (bank, crc) }) (Rsp.st stOK), q⟩)
  ∧ (∀ (p : Part) (d : Dev) (q : List Instr) (rq : Rq) (n c : Nat) (d1 : Dev),
    let k := Call.write 0x4300 2 (toBytes 2 n)
    n < 1024 → writeTaken d rq k = some (c, d1) → (d1.ctx n).busy = false →
    exec (.scaleCtxClear rq n) ⟨p, d, q⟩ = .next ⟨p,
      written c rq k (d1.setCtx n { d1.ctx n with hist := [] }) (Rsp.st stOK), q⟩)
  ∧ (∀ (p : Part) (d : Dev) (q : List Instr) (rq : Rq) (c : Nat) (d1 : Dev),
    let k := Call.write 0x4300 2 (toBytes 2 0xFFFF)
    writeTaken d rq k = some (c, d1) →
    exec (.scaleCtxClear rq 0xFFFF) ⟨p, d, q⟩ = .next ⟨p,
      written c rq k (d1.scale.keys.foldl clearScale d1) (Rsp.st stOK), q⟩)

/-- The sequencer's register instructions and branches complete (R108-R110): the instruction that is next writes its result to its destination
(a write to s0 is ignored) and goes on to the next word. Arithmetic wraps at 64 bits, shift amounts are taken modulo 64, the
immediate is sign-extended, LIH keeps the low half, RDPACE and RDCYC read the pace and the cycle counter. A taken branch goes to its
TARGET, any other goes on to the next word; JMP is always taken. BLT and BGE compare signed values, BLTU unsigned ones. -/
def Obligations.SequencerRegisterInstructionsComplete : Prop :=
  (∀ (p : Part) (d : Dev) (q : List Instr) (g w : Nat), g < p.groves →
    let gr := d.grove g
    let put : Word → Res := fun v => .next ⟨p, d.setGrove g (gr.setReg (fSD w) v).advance, q⟩
    (seqWord d g 0x00 = some w → exec (.nop g) ⟨p, d, q⟩ = .next ⟨p, d.setGrove g gr.advance, q⟩)
    ∧ (seqWord d g 0x01 = some w → exec (.li g) ⟨p, d, q⟩ = put (fImm w))
    ∧ (seqWord d g 0x02 = some w → exec (.lih g) ⟨p, d, q⟩ = put (BitVec.ofNat 64 ((gr.reg (fSD w)).toNat % 2 ^ 32 + w % 2 ^ 32 * 2 ^ 32)))
    ∧ (seqWord d g 0x03 = some w → exec (.add g) ⟨p, d, q⟩ = put (gr.reg (fSA w) + gr.reg (fSB w)))
    ∧ (seqWord d g 0x04 = some w → exec (.sub g) ⟨p, d, q⟩ = put (gr.reg (fSA w) - gr.reg (fSB w)))
    ∧ (seqWord d g 0x05 = some w → exec (.andR g) ⟨p, d, q⟩ = put (gr.reg (fSA w) &&& gr.reg (fSB w)))
    ∧ (seqWord d g 0x06 = some w → exec (.orR g) ⟨p, d, q⟩ = put (gr.reg (fSA w) ||| gr.reg (fSB w)))
    ∧ (seqWord d g 0x07 = some w → exec (.xorR g) ⟨p, d, q⟩ = put (gr.reg (fSA w) ^^^ gr.reg (fSB w)))
    ∧ (seqWord d g 0x08 = some w → exec (.shl g) ⟨p, d, q⟩ = put (gr.reg (fSA w) <<< ((gr.reg (fSB w)).toNat % 64)))
    ∧ (seqWord d g 0x09 = some w → exec (.shr g) ⟨p, d, q⟩ = put (gr.reg (fSA w) >>> ((gr.reg (fSB w)).toNat % 64)))
    ∧ (seqWord d g 0x0A = some w → exec (.mul g) ⟨p, d, q⟩ = put (gr.reg (fSA w) * gr.reg (fSB w)))
    ∧ (seqWord d g 0x0B = some w → exec (.addi g) ⟨p, d, q⟩ = put (gr.reg (fSA w) + fImm w))
    ∧ (seqWord d g 0x2A = some w → exec (.rdpace g) ⟨p, d, q⟩ = put (BitVec.ofNat 64 d.pace.visible))
    ∧ (seqWord d g 0x2B = some w → exec (.rdcyc g) ⟨p, d, q⟩ = put (BitVec.ofNat 64 d.cycle)))
  ∧ (∀ (p : Part) (d : Dev) (q : List Instr) (g w : Nat), g < p.groves →
    let gr := d.grove g
    let go : Grove → Res := fun x => .next ⟨p, d.setGrove g x, q⟩
    (seqWord d g 0x10 = some w → exec (.beq g) ⟨p, d, q⟩ =
      go (if gr.reg (fSA w) = gr.reg (fSB w) then gr.goto (fTarget w) else gr.advance))
    ∧ (seqWord d g 0x11 = some w → exec (.bne g) ⟨p, d, q⟩ =
      go (if gr.reg (fSA w) ≠ gr.reg (fSB w) then gr.goto (fTarget w) else gr.advance))
    ∧ (seqWord d g 0x12 = some w → exec (.blt g) ⟨p, d, q⟩ =
      go (if (gr.reg (fSA w)).toInt < (gr.reg (fSB w)).toInt then gr.goto (fTarget w) else gr.advance))
    ∧ (seqWord d g 0x13 = some w → exec (.bge g) ⟨p, d, q⟩ =
      go (if (gr.reg (fSB w)).toInt ≤ (gr.reg (fSA w)).toInt then gr.goto (fTarget w) else gr.advance))
    ∧ (seqWord d g 0x14 = some w → exec (.bltu g) ⟨p, d, q⟩ =
      go (if (gr.reg (fSA w)).toNat < (gr.reg (fSB w)).toNat then gr.goto (fTarget w) else gr.advance))
    ∧ (seqWord d g 0x15 = some w → exec (.jmp g) ⟨p, d, q⟩ = go (gr.goto (fTarget w))))

/-- LDW, STW and the flag instructions complete (R110, R111, R126, R127, R459). -/
def Obligations.SequencerMemoryAndFlagsComplete : Prop :=
  ∀ (p : Part) (d : Dev) (q : List Instr) (g w : Nat), g < p.groves →
    let gr := d.grove g
    let x := gr.flag (fFlag w)
    let go : Grove → Res := fun y => .next ⟨p, d.setGrove g y.advance, q⟩
    (∀ o, seqWord d g 0x18 = some w → groveWordAt (gr.reg (fSA w) + fImm w) = some o → o / 8 ∉ gr.poison →
      exec (.ldw g) ⟨p, d, q⟩ = go (gr.setReg (fSD w) (BitVec.ofNat 64 (gr.gmem.readNat 0#8 o 8))))
    ∧ (∀ o, seqWord d g 0x19 = some w → groveWordAt (gr.reg (fSA w) + fImm w) = some o →
      exec (.stw g) ⟨p, d, q⟩ = go { gr with gmem := gr.gmem.writeNat 0#8 o 8 (gr.reg (fSD w)).toNat,
                                             poison := gr.poison.filter (fun y => y != o / 8) })
    ∧ (seqWord d g 0x20 = some w → x.c + (x.pl + fN1 w) + (x.pe + fN2 w) ≤ 65535 →
      exec (.fdecl g) ⟨p, d, q⟩ = go (gr.setFlag (fFlag w) { x with pl := x.pl + fN1 w, pe := x.pe + fN2 w }))
    ∧ (seqWord d g 0x21 = some w → fN1 w ≠ 0 → x.c + fN1 w + x.pl + x.pe ≤ 65535 →
      exec (.fset g) ⟨p, d, q⟩ = go (gr.setFlag (fFlag w) { x with c := x.c + fN1 w }))
    ∧ (seqWord d g 0x22 = some w → x.pl = 0 → x.pe = 0 →
      exec (.fclr g) ⟨p, d, q⟩ = go (gr.setFlag (fFlag w) { x with c := 0 }))
    ∧ (seqWord d g 0x23 = some w → let t := if fTreg w = 0 then fN1 w else (gr.reg (fTreg w)).toNat % 65536
      exec (.fwait g) ⟨p, d, q⟩ =
        if t ≤ x.c then go gr else .next ⟨p, d.setGrove g { gr with stall := .fwait (fFlag w) t }, q⟩)

/-- The other sequencer instructions complete (R110-R113, R127, R128, R134, R137, R138, R141): APLD once nothing is queued or open,
WPACE once the pace is reached, ISSUE when every queue it names has room, BSYNC and END at a program boundary, TRACE; and
a word that R110 does not let run halts the grove, as does a poisoned one (R459). -/
def Obligations.SequencerControlInstructionsComplete : Prop :=
  ∀ (p : Part) (d : Dev) (q : List Instr) (g w : Nat), g < p.groves →
    let gr := d.grove g
    let cm := issueCmd gr w
    let h := gr.head cm
    (seqWord d g 0x28 = some w → gr.quiet = true → (gr.reg (fSA w)).toNat % 2 ^ 32 = 0 →
      exec (.apld g) ⟨p, d, q⟩ =
        .next ⟨p, d.setGrove g (Grove.advance { gr with aps := gr.aps.set none (fSD w) (some (gr.reg (fSA w)).toNat) }), q⟩)
    ∧ (seqWord d g 0x29 = some w → (gr.reg (fSA w)).toNat ≤ d.pace.visible →
      exec (.wpace g) ⟨p, d, q⟩ = .next ⟨p, d.setGrove g gr.advance, q⟩)
    ∧ (seqWord d g 0x30 = some w → emask w ≠ [] → bits w 4 5 < 30 →
      (h.testBit 19 = true → (gr.flag (bits h 11 8)).s + cm.copies ≤ (gr.flag (bits h 11 8)).pl) →
      (∀ e ∈ emask w, (gr.queue e).length < 64) → gr.wordPoison gr.bank cm.body = false →
      exec (.issue g) ⟨p, d, q⟩ = .next ⟨p, d.setGrove g (pushAll gr w).advance, q⟩)
    ∧ (seqWord d g 0x38 = some w → exec (.bsync g) ⟨p, d, q⟩ = .next ⟨p, boundary d g (fun y => y.advance), q⟩)
    ∧ (seqWord d g 0x39 = some w →
      exec (.endProg g) ⟨p, d, q⟩ = .next ⟨p, settleEnd (boundary d g (fun y => { y.advance with ended := true })) g, q⟩)
    ∧ (seqWord d g 0x3A = some w → let d1 := tracePut p d g gr.lastTag 16 0 2 (w % 2 ^ 32)
      exec (.trace g) ⟨p, d, q⟩ = .next ⟨p, d1.setGrove g (d1.grove g).advance, q⟩)
    ∧ (canFetch d g = true → fetchPoison d g = true ∨ (∀ v, fetchWord d g = some v → legalWord v = false) →
      exec (.seqIllegal g) ⟨p, d, q⟩ =
        .next ⟨p, if fetchPoison d g then seqFault p d g 0x03 stCheckFail else seqFault p d g 0x05 stBadField, q⟩)

/-- Waits and sets from outside complete (R130, R131, R139-R141, R368): the second sample in a row that finds a wait cycle halts the
grove with WAIT_CYCLE, a first one is noted; a wait that has stood for longer than its limit, in ARC cycles or
in pace units of the visible count with the backstop of 2^40 cycles, halts it, and one that has not goes on; a remote increment for the grove's job
counts up C and down PE. -/
def Obligations.WaitsAndExternalSetsComplete : Prop :=
  ∀ (p : Part) (d : Dev) (q : List Instr) (g : Nat), g < p.groves → d.runs domArc = true →
    let gr := d.grove g
    let unsampled := d.setGrove g { gr with sampled := false }
    let limit := bits (d.rd 0x4103 0 g) 0 63
    let beyond : WaitNote → Bool := fun n =>
      let cycles := (d.cycle + 2 ^ 64 - n.cycle) % 2 ^ 64
      if (d.rd 0x4103 0 g).testBit 63 then decide (limit < d.pace.visible - n.pace) || decide (2 ^ 40 < cycles) else decide (limit < cycles)
    let began : Nat → List Nat → WaitNote → Prop := fun k key n => gr.waitsAt.find? (fun n => n.waiter = k && n.key = key) = some n
    let halted := seqFault p (d.inc 0x4103 2 0) g 0x0A stWaitCycle
    (d.role g = 1 → gr.phase = .running →
      exec (.waitCycleSample g) ⟨p, d, q⟩ = .next ⟨p,
        if waitCycle gr = false then unsampled
        else if gr.sampled = true then seqFault p (unsampled.inc 0x4103 1 0) g 0x09 stWaitCycle
        else d.setGrove g { gr with sampled := true }, q⟩)
    ∧ (∀ f t n, gr.phase = .running → gr.stall = .fwait f t → (gr.flag f).c < t → began 16 [gr.pc, t] n →
      exec (.waitLimitExpiry g .sequencer) ⟨p, d, q⟩ = .next ⟨p, if beyond n then halted else d, q⟩)
    ∧ (∀ t n, gr.phase = .running → gr.stall = .wpace t → d.pace.visible < t → began 16 [gr.pc, t] n →
      exec (.waitLimitExpiry g .sequencer) ⟨p, d, q⟩ = .next ⟨p, if beyond n then halted else d, q⟩)
    ∧ (∀ e c cs n, e < 16 → gr.phase = .running → gr.queue e = c :: cs → gr.waits c = true → began e [c.tag, c.body] n →
      exec (.waitLimitExpiry g (.queue e)) ⟨p, d, q⟩ = .next ⟨p, if beyond n then halted else d, q⟩)
    ∧ (∀ home job f, gr.phase = .running ∨ gr.phase = .halted → d.role g = 1 → d.groveJob g = job → 0 < (gr.flag f).pe →
      exec (.externalSet home job g f) ⟨p, d, q⟩ = .next ⟨p, d.setGrove g
        (gr.setFlag f { gr.flag f with c := (gr.flag f).c + 1, pe := (gr.flag f).pe - 1 }), q⟩)

/-- R108: s0 reads zero whatever is written to it, and a write of any other register is read back and leaves every other register. -/
def Obligations.ZeroRegisterIsWired : Prop :=
  ∀ (gr : Grove) (i j : Nat) (v : Word),
    gr.reg 0 = 0 ∧ gr.setReg 0 v = gr ∧ (gr.setReg i v).reg 0 = 0 ∧ (i ≠ 0 → (gr.setReg i v).reg i = v)
      ∧ (j ≠ i → (gr.setReg i v).reg j = gr.reg j)

/-- FRAME of the sequencer's register instructions and branches (R108, R110): a next state differs from the one before in nothing but
the grove's destination register, its program counter and its stall; a branch changes no register at all; and one that is not the
grove's next instruction changes nothing. -/
def Obligations.RegisterInstructionsFrame : Prop :=
  (∀ x ∈ [Instr.li, .lih, .add, .sub, .andR, .orR, .xorR, .shl, .shr, .mul, .addi, .rdpace, .rdcyc], ∀ (g : Nat) (s t : State),
    exec (x g) s = .next t → t = s ∨ ∃ w pc regs, fetchWord s.dev g = some w ∧
      t = { s with dev := s.dev.setGrove g { s.dev.grove g with regs := regs, pc := pc, stall := .none } } ∧
      ∀ i, i ≠ fSD w → (t.dev.grove g).reg i = (s.dev.grove g).reg i)
  ∧ (∀ x ∈ [Instr.nop, .beq, .bne, .blt, .bge, .bltu, .jmp], ∀ (g : Nat) (s t : State),
    exec (x g) s = .next t → t = s ∨ ∃ pc,
      t = { s with dev := s.dev.setGrove g { s.dev.grove g with pc := pc, stall := .none } })

/-- STW stores exactly its 8 bytes (R110, R111): the word reads back, every other byte of grove memory reads as before, and registers,
flags, contexts, device memory and the other groves stay as they are. -/
def Obligations.StoreWordStoresEightBytes : Prop :=
  ∀ (p : Part) (d : Dev) (q : List Instr) (g w o : Nat), g < p.groves → seqWord d g 0x19 = some w →
    groveWordAt ((d.grove g).reg (fSA w) + fImm w) = some o →
    ∃ t, exec (.stw g) ⟨p, d, q⟩ = .next ⟨p, t, q⟩
      ∧ (t.grove g).gmem.readNat 0#8 o 8 = ((d.grove g).reg (fSD w)).toNat
      ∧ (∀ a, a < o ∨ o + 8 ≤ a → (t.grove g).gmem.read 0#8 a = (d.grove g).gmem.read 0#8 a)
      ∧ (Mem.wf 0#8 (d.grove g).gmem = true → Mem.wf 0#8 (t.grove g).gmem = true)
      ∧ (t.grove g).regs = (d.grove g).regs ∧ (t.grove g).flags = (d.grove g).flags ∧ (t.grove g).ctxs = (d.grove g).ctxs
      ∧ (t.grove g).scratch = (d.grove g).scratch ∧ t.mem = d.mem ∧ (∀ h, h ≠ g → t.grove h = d.grove h)

/-- R127, the flag operations: FDECL adds N1 to PL and N2 to PE, FSET adds N1 to C, FCLR sets C to 0 unless PL or PE is nonzero
(FLAG_BUSY); ISSUE of a body with SETF_EN adds its copies to S; a local setter's completion adds 1 to C and takes 1 from PL and S; an
external set adds 1 to C and takes 1 from PE; and a sum past 65,535 is FLAG_RANGE. -/
def Obligations.FlagOperations : Prop :=
  ∀ (p : Part) (d : Dev) (q : List Instr) (g w : Nat), g < p.groves →
    let gr := d.grove g
    let f := fFlag w
    let x := gr.flag f
    let flagIs := fun (i : Instr) (f : Nat) (y : Flag) =>
      ∃ t : Dev, exec i ⟨p, d, q⟩ = .next ⟨p, t, q⟩ ∧ (t.grove g).flag f = y ∧ ∀ k, k ≠ f → (t.grove g).flag k = gr.flag k
    (seqWord d g 0x20 = some w → x.c + (x.pl + fN1 w) + (x.pe + fN2 w) ≤ 65535 →
      flagIs (.fdecl g) f { x with pl := x.pl + fN1 w, pe := x.pe + fN2 w })
    ∧ (seqWord d g 0x20 = some w → 65535 < x.c + (x.pl + fN1 w) + (x.pe + fN2 w) →
      exec (.fdecl g) ⟨p, d, q⟩ = .next ⟨p, seqFault p d g 0x07 stBadField, q⟩)
    ∧ (seqWord d g 0x21 = some w → fN1 w ≠ 0 → x.c + fN1 w + x.pl + x.pe ≤ 65535 →
      flagIs (.fset g) f { x with c := x.c + fN1 w })
    ∧ (seqWord d g 0x21 = some w → fN1 w ≠ 0 → 65535 < x.c + fN1 w + x.pl + x.pe →
      exec (.fset g) ⟨p, d, q⟩ = .next ⟨p, seqFault p d g 0x07 stBadField, q⟩)
    ∧ (seqWord d g 0x22 = some w → x.pl = 0 → x.pe = 0 → flagIs (.fclr g) f { x with c := 0 })
    ∧ (seqWord d g 0x22 = some w → x.pl ≠ 0 ∨ x.pe ≠ 0 →
      exec (.fclr g) ⟨p, d, q⟩ = .next ⟨p, seqFault p d g 0x08 stBadField, q⟩)
    ∧ (let c := issueCmd gr w
       let h := gr.head c
       let y := gr.flag (bits h 11 8)
       seqWord d g 0x30 = some w → emask w ≠ [] → bits w 4 5 < 30 → h.testBit 19 = true → y.s + c.copies ≤ y.pl →
       (∀ e ∈ emask w, (gr.queue e).length < 64) → gr.wordPoison gr.bank c.body = false → flagIs (.issue g) (bits h 11 8) { y with s := y.s + c.copies })
    ∧ (∀ e c, e < 16 → c < 4096 → d.runs domArc = true → gr.phase = .running → gr.paused = false →
      (gr.ctx e c).st = .waitWrite → (∀ r ∈ gr.reqs, r.isOf e c = false) → signals gr (gr.ctx e c).cmd = false →
      let h := gr.head (gr.ctx e c).cmd
      let y := gr.flag (bits h 11 8)
      h.testBit 19 = true →
      flagIs (.commandComplete g e c) (bits h 11 8) { y with c := y.c + 1, pl := y.pl - 1, s := y.s - 1 })
    ∧ (∀ home job k, d.runs domArc = true → gr.phase = .running → d.role g = 1 → d.groveJob g = job → 0 < (gr.flag k).pe →
      flagIs (.externalSet home job g k) k { gr.flag k with c := (gr.flag k).c + 1, pe := (gr.flag k).pe - 1 })

/-- A halt keeps queues, flags, registers, apertures, windows and banks as they stand, and stops the grove (R142-R144): seen where a word that
R110 does not let run, or a poisoned one (R459), halts it. Step 2 of R144: a context that waits for data in flight stands before its
step again, every other stands as it was, and every Canopy write of a step done goes on. The record goes to the completion ring of
grove memory (R133), a full ring counting it as lost, and with tracing on a trace record goes to device memory (R134; a
place past its end, and the ring's index, are the model's choice, log entry 121; EVENT 3, log entry 97). No other grove changes. -/
def Obligations.HaltsKeepTheGrove : Prop :=
  ∀ (p : Part) (d : Dev) (q : List Instr) (g : Nat), g < p.groves → canFetch d g = true →
    fetchPoison d g = true ∨ (∀ v, fetchWord d g = some v → legalWord v = false) →
    let a := d.grove g
    let fault := if fetchPoison d g then 0x03 else 0x05
    let status := if fetchPoison d g then stCheckFail else stBadField
    let size := bits (d.rd 0x4104 0 g) 0 4
    let base := ringBase d g
    let head := a.gmem.readNat 0#8 base 4
    let place := base + 64 + head % 2 ^ size * 32
    let full := (head + 2 ^ 32 - a.gmem.readNat 0#8 (base + 4) 4) % 2 ^ 32 = 2 ^ size
    let tracing := (d.rd 0x4107 0 g).testBit 63 = true
    let at_ := traceAddr d g
    ∃ t, exec (.seqIllegal g) ⟨p, d, q⟩ = .next ⟨p, t, q⟩
      ∧ (let b := t.grove g
         b.phase = .halted ∧ b.queues = a.queues ∧ b.flags = a.flags ∧ b.regs = a.regs ∧ b.pc = a.pc ∧ b.bank = a.bank
           ∧ b.aps = a.aps ∧ b.wins = a.wins ∧ b.b0 = a.b0 ∧ b.b1 = a.b1 ∧ b.imem = a.imem ∧ b.scratch = a.scratch
           ∧ b.haltRec.length = 200
           ∧ (∀ e c, b.ctx e c = a.ctx e c
               ∨ (a.ctx e c).st = .waitData ∧ b.ctx e c = { a.ctx e c with st := .ready, lines := [], whole := false })
           ∧ (∀ r ∈ a.reqs, r.req.op ≠ 0x01 → r.req.op < 0x10 → r ∈ b.reqs)
           ∧ (size = 0 → b.gmem = a.gmem)
           ∧ (size ≠ 0 → full →
               b.gmem.readNat 0#8 (base + 8) 4 = (a.gmem.readNat 0#8 (base + 8) 4 + 1) % 2 ^ 32
               ∧ ∀ x, x < base + 8 ∨ base + 12 ≤ x → b.gmem.read 0#8 x = a.gmem.read 0#8 x)
           ∧ (size ≠ 0 → ¬ full →
               b.gmem.readNat 0#8 place 32 =
                 record132 d 0 (a.pc % 32768 + a.bank * 32768) a.lastTag 0 16 fault status 0 1 % 2 ^ 256
               ∧ b.gmem.readNat 0#8 base 4 = (head + 1) % 2 ^ 32
               ∧ ∀ x, x < base ∨ base + 4 ≤ x → x < place ∨ place + 32 ≤ x → b.gmem.read 0#8 x = a.gmem.read 0#8 x))
      ∧ (∀ h, h ≠ g → t.grove h = d.grove h)
      ∧ (¬ tracing ∨ memSize p d < at_ + 16 → t.mem = d.mem)
      ∧ (tracing → at_ + 16 ≤ memSize p d → hitFlaws p d true at_ 16 = [] →
          t.mem.mem.readNat 0#8 at_ 16 = traceRec d a.lastTag 16 0 3 ((a.ctx 16 0).steps % 2 ^ 32) % 2 ^ 128
          ∧ ∀ x, x < at_ ∨ at_ + 16 ≤ x → t.mem.mem.read 0#8 x = d.mem.mem.read 0#8 x)

/-- The engine commands whose steps do not deliver under delayed scaling (the transcendental ones round in their input's format,
R217), each with its opcode, sub-operation and step (R117, R119-R125,
R183-R187, R206-R209). -/
def plainSteps (g e c : Nat) : List (Instr × Nat × Nat × (Stp → StepRes)) :=
  [(.prefetch g e c, 0x01, 0, copyStep 1), (.split3 g e c, 0x03, 9, split3Step),
    (.vopAnd g e c, 0x03, 10, bitStep (fun u v => u &&& v)), (.vopOr g e c, 0x03, 11, bitStep (fun u v => u ||| v)),
    (.vopXor g e c, 0x03, 12, bitStep (fun u v => u ^^^ v)), (.exp2 g e c, 0x03, 13, vopStep 13),
    (.log2 g e c, 0x03, 14, vopStep 14), (.rsqrt g e c, 0x03, 15, vopStep 15), (.dotExact g e c, 0x04, 0, dotStep 0),
    (.split9 g e c, 0x04, 1, dotStep 1), (.split6 g e c, 0x04, 2, dotStep 2), (.dotFp64Chain g e c, 0x04, 3, chainStep),
    (.accElements g e c, 0x05, 0, accElemStep), (.accExpRecords g e c, 0x05, 1, accExpStep),
    (.accStateImages g e c, 0x05, 2, accImageStep), (.zero g e c, 0x07, 0, zeroStep), (.sort64 g e c, 0x08, 0, sort64Step),
    (.merge g e c, 0x08, 1, mergeStep), (.sortTopk g e c, 0x08, 2, topkStep), (.hash g e c, 0x09, 0, hashStep),
    (.probe g e c, 0x09, 1, probeStep), (.range g e c, 0x09, 2, rangeStep), (.compact g e c, 0x09, 3, compactStep),
    (.send g e c, 0x0C, 0, sendStep),
    (.signal g e c, 0x0D, 0, fun t => { reads := [{ addr := t.b, len := 8, align := 8 }],
                                        word := some (ofBytes (t.get t.b 8)) })]

/-- The engine commands whose steps convert their output, under delayed scaling too, each with its opcode, sub-operation, the values it converts and its step
(R25, R66, R117, R124). -/
def convertingSteps (g e c : Nat) : List (Instr × Nat × Nat × (Stp → List Sys2Proof.Machine.Num) × (Stp → StepRes)) :=
  [(.vopAdd g e c, 0x03, 0, vopVals 0, vopStep 0), (.vopSub g e c, 0x03, 1, vopVals 1, vopStep 1),
    (.vopMul g e c, 0x03, 2, vopVals 2, vopStep 2), (.vopMin g e c, 0x03, 3, vopVals 3, vopStep 3),
    (.vopMax g e c, 0x03, 4, vopVals 4, vopStep 4), (.vopDiv g e c, 0x03, 5, vopVals 5, vopStep 5),
    (.vopSqrt g e c, 0x03, 6, vopVals 6, vopStep 6), (.vopFma g e c, 0x03, 7, vopVals 7, vopStep 7),
    (.vopConvert g e c, 0x03, 8, vopVals 8, vopStep 8),
    (.seal g e c, 0x06, 0, sealVals, sealStep)]

/-- A step of the engine commands that know no delayed scaling completes (R79, R91, R117, R119-R125, R183-R187, R206-R209, R217):
the context can run it, nothing stops it, and it is done: its writes are performed, what it raised is counted, and its indices
advance. PREFETCH, SPLIT3, AND, OR, XOR, EXP2, LOG2, RSQRT, the DOT, ACC and ZERO rows, SORT, FILTER, SEND and SIGNAL. -/
def Obligations.EngineStepsComplete : Prop :=
  ∀ (p : Part) (d : Dev) (q : List Instr) (g e c : Nat), g < p.groves → e < 16 → c < 4096 →
    ∀ x ∈ plainSteps g e c,
    let r := x.2.2.2 (stepOf p d g e c)
    canStep d g e c x.2.1 (some x.2.2.1) = true → cleanStep p d g e c r = true →
    exec x.1 ⟨p, d, q⟩ = .next ⟨p, stepDone p d g e c r, q⟩

/-- A step of the commands that convert their output completes (R25, R44-R46, R66, R117, R124): with no delayed scaling as
any other step; with SCALE_MODE 3 like any other step once the scaling context is the command's (R46), and at its first step, when
no other operation holds the context, every line is here that it needs (all its steps', when its output is to be measured, R44) and
the context's history is read clean, on the device that holds the context for it. That a stream command takes its context at its
first step is the model's choice (log entry 123), and so is where the history lies (log entry 104). -/
def Obligations.ConvertingStepsComplete : Prop :=
  ∀ (p : Part) (d : Dev) (q : List Instr) (g e c : Nat), g < p.groves → e < 16 → c < 4096 →
    ∀ x ∈ convertingSteps g e c,
    let t := stepOf p d g e c
    let r := x.2.2.2.2 t
    canStep d g e c x.2.1 (some x.2.2.1) = true →
    let f := x.2.2.2.2
    let d1 := takeScale t x.2.2.2.1 f
    let gr := d.grove g
    (cvMode t.cvt ≠ 3 ∨ t.x.xscale.isSome = true → cleanStep p d g e c r = true →
      exec x.1 ⟨p, d, q⟩ = .next ⟨p, stepDone p d g e c r, q⟩)
    ∧ (cvMode t.cvt = 3 → t.x.xscale = none → gr.ctxPoison.contains (e * 4096 + c) = false → gr.bodyPoison t.x.cmd = false →
      badOperand p d gr r = none → deadLine p d g (missingLines p d gr t.x r) = none → pendingLines p d gr e c r = [] →
      (d.ctx (cvCtx t.cvt)).busy = false →
      (if measures t then (wholeMiss f t t.all).eraseDups else missingLines p d gr t.x r) = [] →
      (let h := histRange p d (cvCtx t.cvt); hitFlaws p d false h.1 h.2 = [] ∧ readPoison p d h.1 h.2 = false) →
      cleanStep p d1 g e c (x.2.2.2.2 (stepOf p d1 g e c)) = true →
      exec x.1 ⟨p, d, q⟩ = .next ⟨p, stepDone p d1 g e c (x.2.2.2.2 (stepOf p d1 g e c)), q⟩)

/-- The other engine commands complete (R87, R90, R93, R117, R129, R338, R355, R357): a command opens in the lowest FREE context;
arrived operands make a context READY, once no earlier write of its command that its next step reads is pending (R121); a finished one completes and frees its context; COPY is done with what the stacks
report for its read or its write; a window opens or closes; an atomic's request leaves and its context waits. -/
def Obligations.CommandsOpenMoveAndComplete : Prop :=
  ∀ (p : Part) (d : Dev) (q : List Instr) (g e c : Nat), g < p.groves → e < 16 → c < 4096 → d.runs domArc = true →
    let gr := d.grove g
    let x := gr.ctx e c
    let t := stepOf p d g e c
    (∀ cmd rest, gr.queue e = cmd :: rest → freeCtx gr e = some c → gr.phase = .running → gr.paused = false →
      gr.waits cmd = false → gr.statePoison = false → gr.bodyPoison cmd = false → bodyBad gr (d.role g) (d.jobAcn (d.groveJob g)) cmd = false →
      let gr1 := ({ gr with ctxPoison := gr.ctxPoison.filter (· != e * 4096 + c) }.setQueue e rest).setCtx e c { Ctx.free with st := .ready, cmd := cmd, since := d.cycle }
      let d1 := raiseMark (d.setGrove g gr1) (1000 + 16 * g + e) (ctxInUse gr1 e)
      exec (.commandOpen g e) ⟨p, d, q⟩ =
        .next ⟨p, if (gr.head cmd).testBit 9 then tracePut p d1 g cmd.tag e c 0 0 else d1, q⟩)
    ∧ (gr.phase = .running → x.st = .waitData → gr.unsent e c = false → gr.steps x.cmd ≤ x.steps ∨ heldUp d g e c = false →
      (∀ r ∈ gr.reqs, r.isOf e c = true → r.req.op ≠ 0x01 ∧ r.req.op < 0x10 ∧ r.req.caddr ∉ x.holds) →
      exec (.operandArrival g e c) ⟨p, d, q⟩ = .next ⟨p, d.setGrove g (gr.setCtx e c
        { x with st := if gr.steps x.cmd ≤ x.steps then .waitWrite else .ready, since := d.cycle, holds := [] }), q⟩)
    ∧ (gr.phase = .running ∨ gr.phase = .halted → gr.paused = false → x.st = .waitWrite → (∀ r ∈ gr.reqs, r.isOf e c = false) →
      exec (.commandComplete g e c) ⟨p, d, q⟩ = .next ⟨p, completeCtx p d g e c, q⟩)
    ∧ (∀ fx d1, canStep d g e c 0x02 (some 0) = true → fxIsWrite fx = false →
      copyFx p d gr t.a (64 * t.n) fx = (d1, false) → cleanStep p d1 g e c (copyStep 0 (stepOf p d1 g e c)) = true →
      exec (.copy g e c fx) ⟨p, d, q⟩ = .next ⟨p, stepDone p d1 g e c (copyStep 0 (stepOf p d1 g e c)), q⟩)
    ∧ (∀ fx, canStep d g e c 0x02 (some 0) = true → fxIsWrite fx = true → cleanStep p d g e c (copyStep 0 t) = true →
      exec (.copy g e c fx) ⟨p, d, q⟩ =
        .next ⟨p, (copyFx p (stepDone p d g e c (copyStep 0 t)) gr t.dd (64 * t.n) fx).1, q⟩)
    ∧ (canStep d g e c 0x0A (some 0) = true → gr.wins.get none (bits t.prm 0 6) = none →
      (∀ a ∈ readSequence t, ∃ o, region p d gr a 1 = some (.stack o)) →
      exec (.wopen g e c) ⟨p, d, q⟩ = .next ⟨p,
        finishSteps (d.setGrove g { gr with wins := gr.wins.set none (bits t.prm 0 6) (some (readSequence t)) }) g e c, q⟩)
    ∧ (canStep d g e c 0x0B (some 0) = true →
      exec (.wclose g e c) ⟨p, d, q⟩ = .next ⟨p,
        finishSteps (d.setGrove g { gr with wins := gr.wins.set none (bits t.prm 0 6) none }) g e c, q⟩)
    ∧ (∀ y ∈ [(Instr.atomicAdd g e c, 0x10), (.atomicExadd g e c, 0x11), (.atomicMin g e c, 0x12), (.atomicMax g e c, 0x13),
        (.atomicCas g e c, 0x14), (.atomicSwap g e c, 0x15)],
      let w := atypeBytes (bits t.prm 28 4)
      let n := if y.2 = 0x14 then 16 else 8
      let r : StepRes := { reads := [{ addr := t.a, len := n, align := 8 }],
                           writes := [{ addr := t.b, data := List.replicate 8 0, align := 8 },
                                      { addr := t.dd, data := List.replicate w 0, align := w, kind := 2 }] }
      let r1 : StepRes := { r with writes := [{ addr := t.b, data := List.replicate 8 0, align := 8 }] }
      let ca := (canopyAt p d gr t.dd).getD 0
      canStep d g e c 0x0E (some y.2) = true → badOperand p d gr r = none → missingLines p d gr x r1 = [] →
      pendingLines p d gr e c r1 = [] → rangeFlaws p d gr false t.a n = [] →
      poisonOperand p d gr e r1 = none → e * 4096 + c ∉ gr.ctxPoison → gr.bodyPoison x.cmd = false → homeDead p d ca = false →
      exec y.1 ⟨p, d, q⟩ = .next ⟨p, sendReqs (d.setGrove g (gr.setCtx e c { x with st := .waitData, holds := [] })) g
        [groveReq d g e c 0 y.2 t.dd ca (bits t.prm 28 4) 0 (atomicPayload (bits t.prm 28 4) (t.get t.a n))], q⟩)

/-- FRAME of an engine command's step that is done (R79, R85, R119, R120): its writes change the bytes they name and no other byte of
scratch, of grove memory or of device memory, the place of each computed from the write's own address; a single write into
device memory reads back; the three memories keep their form; and the grove's registers, flags, queues, program counter,
instruction memory, apertures and every other context stay. -/
def Obligations.EngineStepStores : Prop :=
  ∀ (p : Part) (d : Dev) (q : List Instr) (g e c : Nat) (i : Instr) (r : StepRes), g < p.groves → e < 16 → c < 4096 →
    ((∃ op sub f, (i, op, sub, f) ∈ plainSteps g e c ∧ canStep d g e c op (some sub) = true ∧ r = f (stepOf p d g e c))
      ∨ ∃ op sub v f, (i, op, sub, v, f) ∈ convertingSteps g e c ∧ canStep d g e c op (some sub) = true
          ∧ (cvMode (stepOf p d g e c).cvt ≠ 3 ∨ (stepOf p d g e c).x.xscale.isSome = true) ∧ r = f (stepOf p d g e c)) →
    cleanStep p d g e c r = true →
    let gr := d.grove g
    let at_ := fun (w : Wr) => region p d gr w.addr w.data.length
    let out := fun (a o : Nat) (w : Wr) => a < o ∨ o + w.data.length ≤ a
    ∃ t, exec i ⟨p, d, q⟩ = .next ⟨p, t, q⟩
      ∧ (let u := t.grove g
        (∀ a, (∀ w ∈ r.writes, ∀ o, at_ w = some (.scratch o) → out a (e * 1048576 + o) w) → u.scratch.read 0#8 a = gr.scratch.read 0#8 a)
        ∧ (∀ a, (∀ w ∈ r.writes, ∀ o, at_ w = some (.grove o) → out a o w) → u.gmem.read 0#8 a = gr.gmem.read 0#8 a)
        ∧ (∀ a, (∀ w ∈ r.writes, ∀ o, at_ w = some (.stack o) → out a o w) → t.mem.mem.read 0#8 a = d.mem.mem.read 0#8 a)
        ∧ (∀ w o, r.writes = [w] → at_ w = some (.stack o) → t.mem.mem.readN 0#8 o w.data.length = w.data)
        ∧ (Mem.wf 0#8 gr.scratch = true → Mem.wf 0#8 gr.gmem = true → Mem.wf 0#8 d.mem.mem = true →
            Mem.wf 0#8 u.scratch = true ∧ Mem.wf 0#8 u.gmem = true ∧ Mem.wf 0#8 t.mem.mem = true)
        ∧ u.regs = gr.regs ∧ u.flags = gr.flags ∧ u.queues = gr.queues ∧ u.pc = gr.pc ∧ u.phase = gr.phase ∧ u.imem = gr.imem
        ∧ u.aps = gr.aps ∧ u.wins = gr.wins ∧ (∀ j k, j * 4096 + k ≠ e * 4096 + c → u.ctx j k = gr.ctx j k))

/-- The grove a sequencer instruction, a sequencer wait or an engine command names; a command's completion, which may increment a
flag of another grove (R125), and a set from outside are not among them. -/
def groveWorkOf : Instr → Option Nat
  | .seqIllegal g | .nop g | .li g | .lih g | .add g | .sub g | .andR g | .orR g | .xorR g | .shl g | .shr g | .mul g | .addi g
  | .beq g | .bne g | .blt g | .bge g | .bltu g | .jmp g | .ldw g | .stw g | .fdecl g | .fset g | .fclr g | .fwait g | .apld g
  | .wpace g | .rdpace g | .rdcyc g | .issue g | .bsync g | .endProg g | .trace g | .waitCycleSample g | .waitLimitExpiry g _
  | .commandOpen g _ | .operandArrival g _ _ | .prefetch g _ _ | .copy g _ _ _ | .wopen g _ _ | .wclose g _ _ | .send g _ _
  | .signal g _ _ | .atomicAdd g _ _ | .atomicExadd g _ _ | .atomicMin g _ _ | .atomicMax g _ _ | .atomicCas g _ _
  | .atomicSwap g _ _ | .vopAdd g _ _ | .vopSub g _ _ | .vopMul g _ _ | .vopMin g _ _ | .vopMax g _ _ | .vopDiv g _ _
  | .vopSqrt g _ _ | .vopFma g _ _ | .vopConvert g _ _ | .split3 g _ _ | .vopAnd g _ _ | .vopOr g _ _ | .vopXor g _ _
  | .exp2 g _ _ | .log2 g _ _ | .rsqrt g _ _ | .dotExact g _ _ | .split9 g _ _ | .split6 g _ _ | .dotFp64Chain g _ _
  | .accElements g _ _ | .accExpRecords g _ _ | .accStateImages g _ _ | .seal g _ _ | .zero g _ _ | .sort64 g _ _ | .merge g _ _
  | .sortTopk g _ _ | .hash g _ _ | .probe g _ _ | .range g _ _ | .compact g _ _ => some g
  | _ => none

/-- FRAME of the sequencers and the engines (R78, R79, R110, R117): whatever an instruction of a grove's sequencer or a command of its
engines comes to, a fault of it included, no other grove changes, and neither the shared buffer, the collective engines, the
switch, the links, the pace unit, the dictionary's channels nor the machine's modes do. -/
def Obligations.GroveWorkStaysInItsGrove : Prop :=
  ∀ (c : Instr) (g : Nat) (s t : State), groveWorkOf c = some g → exec c s = .next t → OnlyGrove g s.dev t.dev

/-- R32: an infinity converted into a format with infinity is that infinity and raises no flag; into E4M3 it is 0x7F with the invalid
flag, whatever SAT holds; and SAT changes no conversion but that of a finite value that overflows. -/
def Obligations.InfinitiesConvert : Prop :=
  ∀ (rm : Nat) (sat neg : Bool),
    (∀ k ∈ [0, 1, 2, 3, 5],
      decodeNum (fmtOf k) (roundTo (fmtOf k) rm sat (.inf neg)).1 = .inf neg ∧ (roundTo (fmtOf k) rm sat (.inf neg)).2.flags = 0)
    ∧ (roundTo (fmtOf 4) rm sat (.inf neg)).1 = 0x7F ∧ (roundTo (fmtOf 4) rm sat (.inf neg)).2.flags.testBit 3 = true
    ∧ (∀ k n, (n.isFin = false ∨ (roundTo (fmtOf k) rm false n).2.flags.testBit 2 = false) →
      roundTo (fmtOf k) rm true n = roundTo (fmtOf k) rm false n)

/-- R36: a block whose elements are all zeros is written with scale byte 0x00 and each element as a zero with its own sign, whether
in MX or in MXE, and raises nothing. -/
def Obligations.ZeroBlocksKeepTheirSigns : Prop :=
  ∀ (f : Fmt) (rm : Nat) (sat : Bool) (gap : Nat) (xs : List Sys2Proof.Machine.Num), (∀ x ∈ xs, x.isZero = true) →
    encodeBlock f rm sat gap xs = ⟨xs.map (fun x => f.sign x.neg? 0), 0x00, none, Tally.zero⟩

/-- Every finite code of every scalar format converts into its own format as itself, under every rounding mode, with no flag (R22, R28-R30, R33). -/
def Obligations.CodesConvertToThemselves : Prop :=
  ∀ (k rm v : Nat) (sat : Bool), k < 9 → v < 2 ^ (fmtOf k).w → (decodeNum (fmtOf k) v).isFin = true →
    roundTo (fmtOf k) rm sat (decodeNum (fmtOf k) v) = (v, Tally.zero)

/-- Terms added one after another to an accumulator that can grow (R60, R61, R63). -/
def sumTerms (a : Acc) (ts : List (Option Sys2Proof.Machine.Num)) : Acc :=
  ts.foldl (fun a t => match addTerm true a t with | some x => x.1 | none => a) a

/-- A term whose finite value is a multiple of a class's least significant bit (R57). -/
def onGrid (c : Nat) (t : Option Sys2Proof.Machine.Num) : Prop := ∀ neg num den, t = some (.fin neg num den) → den ∣ num * 2 ^ (-clsLsb c).toNat

/-- The result of an exact sum does not depend on the order in which its terms arrive (R57, R59, R60, R61, R63, R65): past the
promotion to A640 and past the term limit too, any reordering of the terms of a class seals into the same code of any format with
the same flags and counts. -/
def Obligations.ExactSumsIgnoreOrder : Prop :=
  ∀ (c : Nat) (ts us : List (Option Sys2Proof.Machine.Num)) (f : Fmt) (rm : Nat) (sat : Bool), c ≤ 2 → (∀ t ∈ ts, onGrid c t) → ts.Perm us →
    sealAcc f rm sat (sumTerms (Acc.empty c) ts) = sealAcc f rm sat (sumTerms (Acc.empty c) us)

/-- It does not depend on how terms are grouped into partials (R59, R60, R63): while the count stays in the class's limit and the sum in
its range, merging two partials is adding all the terms to one accumulator; and no merge leaves PINF and NINF set with INV clear,
whatever it takes in (R63). -/
def Obligations.ExactSumsIgnoreGrouping : Prop :=
  (∀ (c : Nat) (ts us : List (Option Sys2Proof.Machine.Num)), c ≤ 2 → ts.length + us.length ≤ clsLimit c →
    inRange c (sumTerms (Acc.empty c) (ts ++ us)).v = true →
    mergeAcc true (sumTerms (Acc.empty c) ts) (sumTerms (Acc.empty c) us) = some (sumTerms (Acc.empty c) (ts ++ us), false))
  ∧ ∀ (grow need : Bool) (a b x : Acc), (a.pinf = true → a.ninf = true → a.inv = true) → mergeAcc grow a b = some (x, need) →
    x.pinf = true → x.ninf = true → x.inv = true

/-- A restored image gives the accumulator exactly the state that was saved (R71, R72), with INV where an image has both PINF and
NINF (R63), which no saved accumulation leaves clear. -/
def Obligations.StateImagesRestore : Prop :=
  ∀ a : Acc, a.cls ≤ 2 → a.count < 2 ^ 64 → inRange a.cls a.v = true → ¬ (a.nz = true ∧ a.pz = true) →
    (accImage a).length = imageBytes a.cls ∧ imageAcc (accImage a) = some (closeInv a)
      ∧ ((a.pinf = true → a.ninf = true → a.inv = true) → closeInv a = a)

/-- The opcodes that a DEVICE-role grove runs for a reduction or a move complete (R95, R149, R158-R161, R172, R181, R261): the
operation is admitted and is that grove's, and what the opcode needs is there. The order in which a yielded operation's frames come
back, and where they lie in device memory, are the model's choice (log entry 104). -/
def Obligations.DeviceOpcodesComplete : Prop :=
  ∀ (p : Part) (d : Dev) (q : List Instr) (g job coll : Nat) (o : Op), g < p.groves → d.runs domArc = true → d.role g = 0 →
    (d.grove g).phase ≠ .lost → (d.grove g).paused = false → findOp d job coll = some o → o.phase ≠ 0 → o.phase ≠ 4 →
    o.paused = false → (∀ h, o.grove = some h → h = g) →
    let done := fun (y : Run) => (.next ⟨p, commitRun p (if y.2 = o then y else (workRecords p g (d, o) y, y.2)), q⟩ : Res)
    (∀ chunk src h f grown,
      o.inputs.find? (fun h => !h.used && h.c.kind ≤ 1 && h.c.chunk = chunk && h.c.src = src) = some h →
      o.slots ≠ [] → o.spilled = [] → reduces o.opc = true → chunk < o.chunks →
      ((o.frames.find? (fun y => y.chunk = chunk)).isSome = true ∨ o.frames.length < frameRoom o) →
      frameAdd o ((o.frames.find? (fun y => y.chunk = chunk)).getD (emptyFrame o chunk)) h.c = .ok (f, grown) →
      exec (.cin g job coll chunk src) ⟨p, d, q⟩ = done (d.inc 0x4315 0 0 grown,
        { o with frames := o.frames.filter (fun y => y.chunk != chunk) ++ [f], idle := false,
                 inputs := o.inputs.map (fun i => if keyOf i.c = keyOf h.c then { i with used := true } else i) }))
    ∧ (∀ k f up, reduces o.opc = true → readyFrame d o k = some f → o.parent (o.rootDev k) d.code = some up →
      let r := sealPartial o f
      let stage := if o.stageDev (o.rootDev k) (d.code / 64) = some d.code then 2 else 1
      let c := { mkChunk o 1 k stage (o.lowest d.code) 0 r.1 with
        terms := f.terms, flags := if !compares o.desc && dscPart o.desc = 0 then 0 else (r.2.flags ||| f.flags) % 4096 }
      exec (.pout g job coll k) ⟨p, d, q⟩ =
        done (frameDone k (sendHeld p c [up] [] (addTally d r.2, o))))
    ∧ (∀ k f, reduces o.opc = true → readyFrame d o k = some f → o.parent (o.rootDev k) d.code = none →
      let r := sealResult d o k (o.lowest d.code) 0 f.terms f.flags (frameVals o f)
        ((joinAll (f.accs.map tlimTally)).join (Tally.flag (compareFlags f)))
      let dest := resultDests d o k
      let o1 := { o with flags := o.flags ||| r.2.1.flags ||| f.flags, amax := magMax o.amax r.2.2 }
      let y := frameDone k (sendHeld p r.1 dest.1 dest.2 (addTally d r.2.1, o1))
      exec (.rout g job coll k) ⟨p, d, q⟩ =
        done (if dest.2.isEmpty then y else noteGot [k] y))
    ∧ (∀ chunk src dst h, inputOf o (fun c => c.kind = 0 && c.chunk = chunk && c.src = src && c.dst = dst) = some h →
      exec (.cmove g job coll chunk src dst) ⟨p, d, q⟩ =
        done (moveOne p h (d, o)))
    ∧ (o.opc = 7 → o.marked [7] = false → countsDue d o = true →
      (∀ j ∈ o.here d, countTotal (o.mark [7]) j ≤ bits o.opx 0 44) →
      (dscIscale o.desc = 1 ∨ dscIscale o.desc = 2 → ∀ c ∈ o.counts, c.2.2 % 1024 = 0) →
      exec (.cnts g job coll) ⟨p, d, q⟩ =
        done (moveAll p (d, o.mark [7])))
    ∧ (o.spilled ≠ [] → o.slots ≠ [] →
      (o.spill = some 255 → cleanReads p d [(areaBase p d 2 + o.spillAt, spillBytes o.spilled)] = true) →
      exec (.fsave g job coll) ⟨p, d, q⟩ =
        done (d, { o with frames := o.spilled, spilled := [], spill := none }))

/-- The opcodes that a DEVICE-role grove runs for the operations of chapter 7 complete (R191-R195, R198, R203-R205, R211): TOPK,
KEEP, ROUTE, WCOMB, ROWACC, PAGE, PRED, when what each needs is there. That a filter's bitmap is numbered after its chunks of elements is
the model's choice (log entry 76). -/
def Obligations.DispatchOpcodesComplete : Prop :=
  ∀ (p : Part) (d : Dev) (q : List Instr) (g job coll : Nat) (o : Op), g < p.groves → d.runs domArc = true → d.role g = 0 →
    (d.grove g).phase ≠ .lost → (d.grove g).paused = false → findOp d job coll = some o → o.phase ≠ 0 → o.phase ≠ 4 →
    o.paused = false → (∀ h, o.grove = some h → h = g) →
    let done := fun (y : Run) => (.next ⟨p, commitRun p (if y.2 = o then y else (workRecords p g (d, o) y, y.2)), q⟩ : Res)
    (∀ i t bs, o.opc = 0x10 → tokensOf o i = some t → o.marked [12, i] = false → i ∈ o.here d →
      heldStream o i (scoreBytes o t / 4096) = some bs → scoreBytes o t ≤ bs.length →
      let w := (fmtOf (scoreFmt o)).w
      let e := opxExperts o.opx
      let y := (List.range t).foldl (fun x k =>
        chooseToken i k (unpackCodes w e (ofBytes ((bs.drop (k * e * (w / 8))).take (e * (w / 8))))) x) (d, o.mark [12, i])
      exec (.topk g job coll i) ⟨p, d, q⟩ =
        done (y.2.devs.foldl (fun x dev =>
        if dev = x.1.code then (x.1, takeChoiceCounts dev i (choiceCounts x.2 i dev) x.2)
        else sendHeld p (mkChunk x.2 3 0 2 i 0 ((choiceCounts x.2 i dev).flatMap (toBytes 4))) [dev] [] x) y))
    ∧ (o.opc = 0x10 → o.marked [16] = false → (∀ i < o.m, o.marked [14, i] = true) →
      exec (.keep g job coll) ⟨p, d, q⟩ =
        done (keepWork p (d, o)))
    ∧ (∀ i t bs, o.opc = 0x10 → tokensOf o i = some t → o.marked [18, i] = false → o.marked [12, i] = true →
      (∀ x ∈ o.devs, o.marked [33, i, x] = true) →
      heldStream o i (ceilDiv (scoreBytes o t + t * rowBytes o) 4096) = some bs → scoreBytes o t + t * rowBytes o ≤ bs.length →
      exec (.route g job coll i) ⟨p, d, q⟩ =
        done (routeWork p i (d, o)))
    ∧ (∀ i k r vals, o.opc = 0x11 → combineTable d o = some r → o.slots ≠ [] → i ∈ o.here d →
      let t := ((r.tokens.find? (fun y => y.1 = i)).map Prod.snd).getD 0
      let n := min o.epc (t * o.count - k * o.epc)
      n ≠ 0 → [k, i] ∉ o.got → combineVals o r i k n = some vals →
      cleanReads p d [routeRange p d r] = true →
      let y := sealOwn p i k 0 0 vals (d, o)
      exec (.wcomb g job coll i k) ⟨p, d, q⟩ =
        done (if (List.range (ceilDiv (t * o.count) o.epc)).all (fun k => y.2.got.contains [k, i])
         then releaseInputs (fun h => h.c.stage = 1 && h.c.dst = i) y else y))
    ∧ (∀ i, o.opc = 0x12 → i < o.m → i ∈ o.here d →
      let y := if o.marked [21, i] then (d, o) else askPool p i (d, o)
      exec (.rowacc g job coll i) ⟨p, d, q⟩ =
        done (if y.2.phase = 4 ∨ y.2.marked [21, i] = false ∨ y.2.marked [22, i] = true ∨ y.2.slots = [] then y else sealPool p i y))
    ∧ (∀ i, o.opc = 0x12 → i < o.m → i ∉ o.here d → o.slots ≠ [] →
      exec (.rowacc g job coll i) ⟨p, d, q⟩ =
        done (answerPool p i (d, o)))
    ∧ (∀ i, o.opc = 0x13 → i < o.m → i ∈ o.here d →
      let y := if o.marked [26, i] then (d, o) else askPages p i (d, o)
      exec (.page g job coll i) ⟨p, d, q⟩ =
        done (if y.2.phase = 4 then y else canopyPages p i y))
    ∧ (∀ i, o.opc = 0x13 → i < o.m → i ∉ o.here d →
      exec (.page g job coll i) ⟨p, d, q⟩ =
        done (answerPages p i (d, o)))
    ∧ (∀ i k h, o.opc = 0x14 → i ∈ o.here d → k < filtChunks o → survivors o i k = none →
      (∀ j < k, (survivors o i j).isSome = true) →
      o.inputs.find? (fun h => h.c.kind = 0 && h.c.stage = 0 && h.c.src = i && h.c.chunk = k) = some h →
      let kb := keyBytes (filtKt o)
      let n := min (filtEpc o) (o.count - k * filtEpc o)
      h.c.payload.length = n * kb →
      let codes := unpackCodes (8 * kb) n (ofBytes h.c.payload)
      cleanReads p d (filtReads d o codes) = true →
      let kept := codes.filter (filtHolds d o)
      let bs := toBytes (kept.length * kb) (packCodes (8 * kb) kept)
      let rank := ((List.range k).map (fun j => (survivors o i j).getD 0)).sum
      let here := (filtDests o).filter (fun j => (o.here d).contains j)
      let c := { mkChunk o 2 k 3 i 0 bs with doff := (i * o.count + rank) * kb }
      let all := { mkChunk o 2 k 3 i 0 h.c.payload with doff := (i * o.count + k * filtEpc o) * kb }
      let mask := (codes.map (filtHolds d o)).zipIdx.foldl (fun v y => if y.1 then v + 2 ^ y.2 else v) 0
      let b := mkChunk o 2 (filtChunks o + k) 3 i 0 (toBytes (ceilDiv n 8) mask)
      (filtTag o = false → exec (.pred g job coll i k) ⟨p, d, q⟩ =
        done (finishFilter p (moved h (sendHeld p c (filtPeers d o)
          (if bs.isEmpty then [] else here) (d.inc 0x5020 4 0 (n - kept.length), o.mark [29, i, k, kept.length])))))
      ∧ (filtTag o = true → exec (.pred g job coll i k) ⟨p, d, q⟩ =
        done (finishFilter p (sendHeld p b (filtPeers d o) []
          (moved h (sendHeld p all (filtPeers d o) here (d, (o.mark [29, i, k, n]).mark [30, i, k, mask])))))))
    ∧ (∀ i k, o.opc = 0x14 → filtChunks o = 0 → i ∈ o.here d →
      exec (.pred g job coll i k) ⟨p, d, q⟩ = done (finishFilter p (d, o)))

/-- A chunk that a device can take: its link is there, the core runs and takes collectives, and a fabric chunk's device is not
fenced. -/
def chunkHeard (p : Part) (d : Dev) (c : Chunk) : Prop :=
  (chunkArr c).all p.hasLink = true ∧ d.runs domXbar = true ∧ d.works 7 = true ∧ (∀ n, c.via = .fabric n → d.isFenced c.row c.col = false)

/-- Data chunks complete (R160, R164-R169, R171): DATA, PARTIAL, RESULT and COUNTS of an admitted operation, good, not seen before
and for no fenced member, are held, acknowledged and used. -/
def Obligations.DataChunksComplete : Prop :=
  ∀ (p : Part) (d : Dev) (q : List Instr) (c : Chunk) (o : Op) (cells : List Nat) (d1 : Dev), chunkHeard p d c →
    findOp d c.job c.coll = some o → o.phase ≠ 0 → o.phase ≠ 4 → senderOk d o c = true → toFenced o c = false →
    c.lost = false → c.badCell = none → c.crc = crc32c c.payload → keyOf c ∉ o.seen →
    let k := chunkKept d c
    holdChunk p d o k = some (cells, d1) →
    let h : HeldIn := ⟨k, cells, opHolder p d1 o, false⟩
    let o1 := { o with seen := o.seen ++ [keyOf c], fails := o.fails.filter (fun f => f.1 != keyOf c), inputs := o.inputs ++ [h] }
    ∀ x ∈ [(Instr.dataChunk c, 0), (.partialChunk c, 1), (.resultChunk c, 2), (.counts c, 3)], c.kind = x.2 →
      exec x.1 ⟨p, d, q⟩ = .next ⟨p, commitRun p (useChunk p h (addAck p k (d1, o1))), q⟩

/-- Control chunks complete (R160, R168, R169, R172, R174, R176, R177): COUNTS_OUT, ADMIT, GO, RESEND, ACK, DONE_UP, DONE, ABORT. One that
comes on a link is served by the management processor, which holds its cells meanwhile (R242), and `unit w` is the next state whose
device is what `w` makes of the device that ingress hands over. The content of COUNTS_OUT is the model's choice (log entry 105). -/
def Obligations.ControlChunksComplete : Prop :=
  ∀ (p : Part) (d : Dev) (q : List Instr) (c : Chunk) (o : Op), chunkHeard p d c → findOp d c.job c.coll = some o →
    let unit := fun (w : Dev → Dev) => (.next ⟨p, serveAt 161 d (chunkArr c) 0 (64 + c.payload.length) w, q⟩ : Res)
    (c.kind = 4 → c.via = .own → o.opc = 7 → o.marked [7] = true → o.marked [34, c.dst] = false → o.paused = false → o.phase ≠ 4 →
      c.dst ∈ o.here d →
      let body := (List.range o.m).flatMap (fun i => toBytes 4 ((countOf o i c.dst).getD 0)) ++ toBytes 8 (countTotal o c.dst)
      let y := sendHeld p (mkChunk o 4 0 3 (o.lowest d.code) 0 body) [] [c.dst] (d, o.mark [34, c.dst])
      exec (.countsOut c) ⟨p, d, q⟩ = .next ⟨p, commitRun p (if (o.here d).all (fun i => y.2.marked [34, i])
        then releaseInputs (fun h => h.c.kind = 3) y else y), q⟩)
    ∧ (c.kind = 5 → c.chunk = 0 → o.phase ≠ 0 →
      exec (.admitChunk c) ⟨p, d, q⟩ = unit (fun e => commitRun p (takeAdmit p c.src (ofBytes (c.payload.take 4)) (e, o))))
    ∧ (c.kind = 5 → c.chunk = 1 → o.phase = 1 →
      exec (.go c) ⟨p, d, q⟩ = unit (fun e => commitRun p (passGo p (o.passOn e c.row c.col) (e, o))))
    ∧ (c.kind = 6 → o.phase ≠ 0 →
      exec (.resend c) ⟨p, d, q⟩ = unit (fun e => commitRun p ((indicesOf c).foldl (fun x k =>
        match outFor p x.1 x.2 c k with
        | none => (x.1.inc 0x5010 2 0, x.2)
        | some (h, w) =>
          match badRef x.1 h.cells with
          | some b => dropOut h b x
          | none => (fcmBreak (sendChunk p x.1 x.2 h.c [w] none).1 2 1 (chunkLink c), x.2)) (e, o))))
    ∧ (c.kind = 7 → o.phase ≠ 0 →
      exec (.ack c) ⟨p, d, q⟩ = unit (fun e => commitRun p (releaseOuts (fun h => h.waiting.isEmpty) ((indicesOf c).foldl (fun x k =>
        match outFor p x.1 x.2 c k with
        | none => x
        | some (h, w) => (x.1, { x.2 with
            outs := x.2.outs.map (fun y => if y = h then { y with waiting := y.waiting.filter (· != w) } else y) })) (e, o)))))
    ∧ (c.kind = 8 → o.phase ≠ 0 → o.phase ≠ 4 →
      exec (.doneUp c) ⟨p, d, q⟩ =
        unit (fun e => commitRun p (takeDoneUp p c.src (ofBytes (c.payload.take 4)) (readAmax (c.payload.drop 4)) (e, o))))
    ∧ (c.kind = 9 → (∀ n, c.via ≠ .endpoint n) → exec (.doneChunk c) ⟨p, d, q⟩ = unit (fun e => if o.phase = 0 then discardEarly e else takeDone p e o c))
    ∧ (c.kind = 10 → o.phase ≠ 0 → exec (.abort c) ⟨p, d, q⟩ = unit (fun e => commitRun p (takeAbort p c (e, o))))

/-- Descriptors, timers of operations, route tables and hash sets complete (R152, R154, R156, R169, R179, R196, R209, R258, R260,
R273). How the limit of R179 ends an operation that aborts already is the model's choice (log entry 128). -/
def Obligations.CollectiveEntriesComplete : Prop :=
  (∀ (p : Part) (d : Dev) (q : List Instr) (rq : Rq) (desc : List Byte) (c : Nat) (d1 : Dev) (ms : List Member),
    let v := descNat desc
    let o := addWriter (newOp v (descList desc) ms) (some (.inl rq.path))
    d.modes.fcm ≠ 1 → writeTaken d rq (Call.write 0x5000 0 desc) = some (c, d1) → d1.works 7 = true →
    findOp d1 (bits v 448 32) (bits v 480 32) = none → checkDesc p d1 v desc.length (descList desc) 0 = (stOK, ms) →
    exec (.collSubmit rq desc) ⟨p, d, q⟩ = .next ⟨p, written c rq (Call.write 0x5000 0 desc)
      (takeEntry p (forwardDesc p d1 desc ((o.rowOf d1.code ++ o.columnsOf d1.code).filter (· != d1.code))) o) (Rsp.st stOK), q⟩)
  ∧ (∀ (p : Part) (d : Dev) (q : List Instr) (n acn row col : Nat) (desc : List Byte) (ms : List Member),
    let v := descNat desc
    let o := addWriter (newOp v (descList desc) ms) none
    let devs := if row = d.code / 64 then o.columnsOf d.code else []
    p.hasLink n = true → d.runs domXbar = true → d.works 6 = true → d.works 7 = true → d.modes.fcm ≠ 1 →
    d.isFenced row col = false → col < 64 → findOp d (bits v 448 32) (bits v 480 32) = none →
    checkDesc p d v desc.length (descList desc) acn = (stOK, ms) →
    exec (.collSubmitFrame (.fabric n) row col acn desc) ⟨p, d, q⟩ =
      .next ⟨p, takeEntry p (forwardDesc p d desc (devs.filter (· != d.code))) o, q⟩)
  ∧ (∀ (p : Part) (d : Dev) (q : List Instr) (job coll peer stage src dst : Nat) (o : Op) (a : AckList), d.runs domXbar = true →
    findOp d job coll = some o →
    o.acks.find? (fun a => a.peer = peer && a.stage = stage && a.src = src && a.dst = dst) = some a →
    exec (.ackBundleTimer job coll peer stage src dst) ⟨p, d, q⟩ = .next ⟨p,
      commitRun p (sendCtl p d o 7 0 stage src dst ((a.ixs.take 256).flatMap (toBytes 4)) [peer], { o with
        acks := o.acks.filter (fun b => !(b.peer = peer && b.stage = stage && b.src = src && b.dst = dst)) }), q⟩)
  ∧ (∀ (p : Part) (d : Dev) (q : List Instr) (job coll : Nat) (o : Op), d.runs domXbar = true → findOp d job coll = some o →
    o.phase ≠ 0 → o.phase ≠ 4 →
    exec (.collProgressTimeout job coll) ⟨p, d, q⟩ = .next ⟨p, commitRun p (reportAbort p stWaitCycle (d, o)), q⟩)
  ∧ (∀ (p : Part) (d : Dev) (q : List Instr) (job coll : Nat) (o : Op), d.runs domXbar = true → findOp d job coll = some o →
    o.phase = 4 →
    let o1 := joinAbort o stWaitCycle o.fencedMask
    let d1 := if ctlRoot d o1 = d.code then finishAt p d o1
      else finalize p d o1 (mkRecord o1 d.pace.visible o1.flags o1.status o1.mask) (if o1.status = stFenced then maskBytes o1 o1.mask else []) (0, 1)
    exec (.collProgressTimeout job coll) ⟨p, d, q⟩ = .next ⟨p, settleColl p (d1.colls.ops.length + 1) d1, q⟩)
  ∧ (∀ (p : Part) (d : Dev) (q : List Instr) (job coll : Nat) (o : Op), findOp d job coll = some o → o.waiting = true →
    o.aged = false → d.inFcm = false →
    exec (.slotAging job coll) ⟨p, d, q⟩ =
      .next ⟨p, settleColl p (d.colls.ops.length + 1) ((putOp d { o with aged := true }).inc 0x5210 2 0), q⟩)
  ∧ (∀ (p : Part) (d : Dev) (q : List Instr) (job coll : Nat) (o : Op), findOp d job coll = some o → o.slots ≠ [] →
    o.phase ≠ 4 →
    exec (.sliceIdleExpiry job coll) ⟨p, d, q⟩ =
      .next ⟨p, settleColl p (d.colls.ops.length + 1) (yieldsDue p (putOp d { o with idle := true })), q⟩)
  ∧ (∀ (p : Part) (d : Dev) (q : List Instr) (rq : Rq) (job coll c : Nat) (d1 : Dev) (r : RouteTab),
    let k := Call.write 0x5030 1 (toBytes 4 job ++ toBytes 4 coll)
    job < 2 ^ 32 → coll < 2 ^ 32 → writeTaken d rq k = some (c, d1) → findRoute d1 job coll = some r → r.inUse = false →
    exec (.moeRouteRelease rq job coll) ⟨p, d, q⟩ = .next ⟨p, written c rq k (dropRoute d1 job coll) (Rsp.st stOK), q⟩)
  ∧ (∀ (p : Part) (d : Dev) (q : List Instr) (rq : Rq) (n c : Nat) (d1 : Dev),
    let k := Call.write 0x5110 1 (toBytes 1 n)
    let r := d1.rd 0x5110 0 n
    let ks := setKeys d1.mem.mem r
    n < 16 → writeTaken d rq k = some (c, d1) → 4 ≤ setL r → setL r ≤ 24 → setMaxProbe r ≠ 0 → setKeyt r ≤ 11 →
    setOffset r + setRegion r ≤ memSize p d1 → cleanReads p d1 [(setOffset r, setRegion r)] = true →
    (∀ x ∈ ks, setKeyBad (setKeyt r) x = false ∧ probeSet (memTable d1.mem.mem r) r (setKeyt r) x = true) → hasTwice ks = false →
    exec (.filterSetCommit rq n) ⟨p, d, q⟩ =
      .next ⟨p, written c rq k (d1.wr 0x5110 0 n (putBit r 32 true)) (Rsp.st stOK), q⟩)
  ∧ (∀ (p : Part) (d : Dev) (q : List Instr) (rq : Rq) (n c : Nat) (d1 : Dev),
    let k := Call.write 0x5110 1 (toBytes 1 (n + 128))
    n < 16 → writeTaken d rq k = some (c, d1) →
    (∀ o ∈ d1.colls.ops, ¬ (o.opc = 0x14 ∧ 2 ≤ bits o.opx 60 4 ∧ bits o.opx 54 4 = n)) →
    exec (.filterSetUncommit rq n) ⟨p, d, q⟩ =
      .next ⟨p, written c rq k (d1.wr 0x5110 0 n (putBit (d1.rd 0x5110 0 n) 32 false)) (Rsp.st stOK), q⟩)

/-- Fixed-cycle mode and checkpoints complete (R223, R229, R233, R236, R381): an entry to or an exit from fixed-cycle mode is armed at its
edge, a checkpoint is armed, a save ends in an image when every grove of it is still there and has not faulted meanwhile and it fits
its slot, else is refused with NOT_READY or TABLE_FULL, and an image that passes every check is loaded for a job. What the bytes of an
image stand for, and that a grove faulted since the boundary ends its save, are the model's choice (log entries 80, 101, 126). What a
checkpoint holds and when its save ends is the model's choice (log entry 86). -/
def Obligations.ModesAndCheckpointsComplete : Prop :=
  (∀ (p : Part) (d : Dev) (q : List Instr) (rq : Rq) (target c i : Nat) (d1 : Dev),
    let k := Call.write 0x8400 0 (fcmCtrlBytes 1 target)
    target < 2 ^ 64 → writeTaken d rq k = some (c, d1) → d1.modes.fcm = 0 → schedFree d1 = some i →
    exec (.fcmEnter rq target) ⟨p, d, q⟩ =
      .next ⟨p, written c rq k (setFcm (putSched d1 i (mkSched 7 target 0 1 true)) 1) (Rsp.st stOK), q⟩)
  ∧ (∀ (p : Part) (d : Dev) (q : List Instr) (rq : Rq) (target c i : Nat) (d1 : Dev),
    let k := Call.write 0x8400 0 (fcmCtrlBytes 2 target)
    target < 2 ^ 64 → writeTaken d rq k = some (c, d1) → d1.modes.fcm = 2 → schedFree d1 = some i →
    exec (.fcmLeave rq target) ⟨p, d, q⟩ =
      .next ⟨p, written c rq k (setFcm (putSched d1 i (mkSched 7 target 0 2 true)) 3) (Rsp.st stOK), q⟩)
  ∧ (∀ (p : Part) (d : Dev) (q : List Instr) (rq : Rq) (job target c i : Nat) (d1 : Dev), job < 2 ^ 32 → target < 2 ^ 64 →
    (d1.jobRec job).isSome = true → schedFree d1 = some i →
    (writeTaken d rq (Call.write 0x8500 2 (ckptCtrlBytes job 1 target)) = some (c, d1) →
      exec (.ckptCheckpoint rq job target) ⟨p, d, q⟩ = .next ⟨p, written c rq (Call.write 0x8500 2 (ckptCtrlBytes job 1 target))
        (putSched d1 i (mkSched 8 target job 1 false)) (Rsp.st stOK), q⟩)
    ∧ (writeTaken d rq (Call.write 0x8500 2 (ckptCtrlBytes job 2 target)) = some (c, d1) →
      exec (.ckptCheckpointStop rq job target) ⟨p, d, q⟩ = .next ⟨p, written c rq
        (Call.write 0x8500 2 (ckptCtrlBytes job 2 target)) (putSched d1 i (mkSched 8 target job 2 false)) (Rsp.st stOK), q⟩))
  ∧ (∀ (p : Part) (d : Dev) (q : List Instr) (v : Saving) (vs : List Saving), d.modes.saving = v :: vs → d.runs domArc = true →
    d.inFcm = true ∨ d.spares.failed = [] → stepsOut d v.image = false →
    let d1 := { d with modes := { d.modes with saving := vs } }
    let im0 := settledImage d1 v.image
    let im : Image := { im0 with body := Config.ckptBody im0 }
    let at_ := ckptSlot d1 (idleSlot d1)
    cleanReads p d1 (savedRanges p d1 v.image) = true → writePoison p d1 at_ (128 + im.body.length) = false →
    let gone := ∃ x ∈ v.image.groves, (d.grove x.1).phase = .lost ∨ (d.grove x.1).phase = .halted ∧ x.2.phase ≠ .halted
    let kept := if gone then ckptRefused d1 stNotReady
      else if 128 + im.body.length ≤ ckptSlotBytes d1 ∧ at_ + ckptSlotBytes d1 ≤ memSize p d1
      then storeImage p d1 im else ckptRefused d1 stTableFull
    let freed := (v.image.groves.map Prod.fst).foldl (freeGrove p v.stop) kept
    exec (.checkpointSaved v.job) ⟨p, d, q⟩ = .next ⟨p, if v.stop = true then freed else freeOps p freed v.job, q⟩)
  ∧ (∀ (p : Part) (d : Dev) (q : List Instr) (rq : Rq) (job source off resume c : Nat) (d1 : Dev),
    let k := Call.write 0x8500 4
      (toBytes 4 job ++ toBytes 1 source ++ List.replicate 3 0 ++ toBytes 8 off ++ toBytes 8 resume ++ List.replicate 8 0)
    job < 2 ^ 32 → source < 3 → off < 2 ^ 64 → resume < 2 ^ 64 → writeTaken d rq k = some (c, d1) →
    cleanReads p d1 (restoreRanges p d1 source off) = true → restoreStatus p d1 false job source off = stOK →
    exec (.ckptRestore rq job source off resume) ⟨p, d, q⟩ =
      .next ⟨p, written c rq k (restoreImage p d1 (imageOf d1 (restoreOff d1 source off)) job resume) (Rsp.st stOK), q⟩)

/-- What runs beside the traffic completes (R222, R249-R252, R355, R359, R361, R362, R364): refresh, the refresh window, patrol
scrub, a stack's failure and heat, the leak auditor's walk, reclaim. Where the scrubber counts what it corrects and the poison it
meets is the model's choice (log entry 82). -/
def Obligations.StackUpkeepComplete : Prop :=
  (∀ (p : Part) (d : Dev) (q : List Instr) (k ch : Nat), k < p.stacks → ch < 12 → d.runs (domMem k) = true →
    d.mem.st.get 0 k = 3 → d.inFcm = false →
    exec (.perBankRefresh k ch) ⟨p, d, q⟩ = .next ⟨p, { d with mem := { d.mem with
      refreshNext := d.mem.refreshNext.set 0 (k * 12 + ch) ((d.mem.refreshNext.get 0 (k * 12 + ch) + 1) % 16) } }, q⟩)
  ∧ (∀ (p : Part) (d : Dev) (q : List Instr), d.runs domXbar = true → d.inFcm = true →
    exec .fcmRefreshWindow ⟨p, d, q⟩ = .next ⟨p, { d with mem := { d.mem with refreshNext := [] } }, q⟩)
  ∧ (∀ (p : Part) (d : Dev) (q : List Instr) (i : ScrubInfo), scrubRuns p d = true → fxIsWrite i.fx = false →
    let off := d.mem.scrubNext
    let e := addUpsets d i.upsets
    let met := hitFlaws p e false off 64
    let d1 := scrubCorrected p (applyFx p (scrubPoison p e off) off (firstLine i.fx)).1 off i.fx
    let d2 := met.foldl (fun d x => scrubCorrected p d off x.2) (takeFlaws p d1 met).1
    exec (.scrubRead i) ⟨p, d, q⟩ = .next ⟨p, { d2 with mem := { d2.mem with
      scrubNext := if memCapacity p d ≤ off + 64 then 0 else off + 64,
      scrubPasses := if memCapacity p d ≤ off + 64 then (d2.mem.scrubPasses + 1) % 2 ^ 64 else d2.mem.scrubPasses } }, q⟩)
  ∧ (∀ (p : Part) (d : Dev) (q : List Instr) (i : ScrubInfo), scrubRuns p d = false →
    exec (.scrubRead i) ⟨p, d, q⟩ = .next ⟨p, addUpsets d i.upsets, q⟩)
  ∧ (∀ (p : Part) (d : Dev) (q : List Instr) (k channels cause : Nat), k < p.stacks → cause = 2 ∨ cause = 3 →
    d.runs (domMem k) = true → d.mem.st.get 0 k = 3 →
    let d1 := { d with mem := { d.mem with st := d.mem.st.set 0 k 4, badCh := d.mem.badCh.set 0 k (channels % 4096) } }
    let partner := d.mem.mirror && d.mem.st.get 0 (if k % 2 = 0 then k + 1 else k - 1) = 3
    exec (.stackFailure k channels cause) ⟨p, d, q⟩ = .next ⟨p,
      emitLevel (emit d1 0x7002 stOK 1 true 0x7002 0 (dataUN 3 k (channels % 4096) cause (b2n partner) 0 0))
        2 0x7002 1 0xFFFFFFFF (memUnprotected p d1) (memUnprotected p d), q⟩)
  ∧ (∀ (p : Part) (d : Dev) (q : List Instr) (k : Nat) (above : Bool) (celsius : Int), k < p.stacks → d.runs (domMem k) = true →
    (if above then 85 < celsius else celsius < 83) →
    let d1 := { d with mem := { d.mem with temp := d.mem.temp.set 0 k celsius, mult := d.mem.mult.set 0 k (if above then 2 else 1) } }
    exec (.stackTemperatureCross k above celsius) ⟨p, d, q⟩ = .next ⟨p,
      noteHeat (if refreshMult d1 k = refreshMult d k then d1 else emitLevel d1 3 0x7002 0 k (stackRec d1 k) (stackRec d k))
        (34 + k) (10 * celsius), q⟩)
  ∧ (∀ (p : Part) (d : Dev) (q : List Instr), d.runs domXbar = true → d.works 6 = true → d.buf.walking = false →
    exec .auditWalkStart ⟨p, d, q⟩ = .next ⟨p, { d with buf := { d.buf with
      walking := true, atStart := d.buf.cells.keys, seen := ((liveRefs d).map Prod.snd).eraseDups } }, q⟩)
  ∧ (∀ (p : Part) (d : Dev) (q : List Instr), d.buf.walking = true →
    let isRef := fun (c : Nat) => ((liveRefs d).map Prod.snd ++ d.buf.seen).contains c || !d.buf.atStart.contains c
    let lost := d.buf.cells.keys.filter (fun c => !isRef c)
    let gone := ((liveRefs d).filter (fun x => (d.buf.cells.find? x.2).isNone)).foldl
      (fun (acc : List (Nat × Nat)) x => if acc.any (fun y => y.2 = x.2) then acc else acc ++ [x]) []
    let d1 := d.inc 0x3010 1 0
    let d2 := { d1 with buf := { d.buf with leaks := d.buf.leaks.filter (fun l => !isRef l.cell) } }
    let d3 := gone.foldl noteDangling (lost.foldl (noteUnreferenced (d1.ctr 0x3010 1 0) d.buf.suspects) d2)
    exec .auditWalkEnd ⟨p, d, q⟩ = .next ⟨p, { d3 with buf := { d3.buf with
      walking := false, atStart := [], seen := [], suspects := lost } }, q⟩)
  ∧ (∀ (p : Part) (d : Dev) (q : List Instr) (rq : Rq) (cell holder c : Nat) (d1 : Dev) (r : CellRec),
    let k := Call.write 0x3010 5 (toBytes 4 (cell * 256) ++ toBytes 1 holder ++ List.replicate 3 0)
    cell < 2097152 → holder < 256 → writeTaken d rq k = some (c, d1) → (∃ l ∈ d1.buf.leaks, l.cell = cell) →
    (∀ x ∈ liveRefs d1, x.2 ≠ cell) → d1.buf.cells.find? cell = some r → r.owners.testBit holder = true →
    let e := releaseCells d1 holder [cell]
    exec (.bufReclaim rq (cell * 256) holder) ⟨p, d, q⟩ = .next ⟨p, written c rq k
      ({ e with buf := { e.buf with reclaimed := (cell, holder) :: e.buf.reclaimed } }.inc 0x3010 6 0) (Rsp.st stOK), q⟩)

/-- Pace commands that come by pins, tokens and time complete (R368, R371-R378, R386): a good word is forwarded and its advance
taken in, a CAL word opens the termination and probes, a bad word of either kind is forwarded, counted and dropped, a flight is kept, and none
that failed, an edge is applied when its time has come, the visible count follows, the fault sets, a token that came down a column is
passed along the row and a token is taken, a head's word is launched, a held trigger is decided, PTP messages discipline the wall
clock (by the standard's mechanism, PRESUMED, log entry 131). When a word may be launched and what waits for it are the model's choice
(log entry 75). -/
def Obligations.PaceEventsComplete : Prop :=
  ∀ (p : Part) (d : Dev) (q : List Instr),
    let d0 := { d with pace := { d.pace with inLast := d.cycle + 1 } }
    (∀ w dly upper line, let v := wordAs w dly upper
      d.runs domPace = true → paceSource d = 1 → lineOk d line = true → wordCal v = false → wordReservedOk v = true → wordCrcOk v = true →
      let d1 := goodWord (forwardWord d0 v true) (wordDly v)
      let due := d1.cycle + paceLead d1 - (1608 + wordDly v)
      exec (.paceWord w dly upper line) ⟨p, d, q⟩ = .next ⟨p, takeAdvance d1 (wordW v) due (decide (due < d1.cycle)), q⟩)
    ∧ (∀ w upper line, let v := calAs w upper
      d.runs domPace = true → paceSource d = 1 → lineOk d line = true → wordCal v = true → wordReservedOk v = true → wordCrcOk v = true →
      let d1 := goodWord (forwardWord d0 v true) (wordDly v)
      exec (.calWord w upper line) ⟨p, d, q⟩ =
        .next ⟨p, Dev.send { d1 with pace := { d1.pace with termOpen := true, calSent := true } } .probe, q⟩)
    ∧ (∀ w dly upper line, d.runs domPace = true → paceSource d = 1 →
      ∀ x ∈ [(Instr.paceWord w dly upper line, wordAs w dly upper, false), (.calWord w upper line, calAs w upper, true)],
        let v := x.2.1
        let framed := lineOk d line
        framed = false ∨ wordReservedOk v = false ∨ wordCrcOk v = false → wordCal v = x.2.2 →
        exec x.1 ⟨p, d, q⟩ = .next ⟨p, badWord (forwardWord d0 v framed)
          (if framed = true ∧ wordReservedOk v = true then 3 else 2), q⟩)
    ∧ (∀ r, d.runs domPace = true → d.pace.calSent = true →
      exec (.paceFlightMeasure (some r)) ⟨p, d, q⟩ = .next ⟨p, settlePace d { d with pace := { d.pace with
        calSent := false, termOpen := false, flight := r / 2, calibrated := true } }, q⟩)
    ∧ (d.runs domPace = true → d.pace.calSent = true →
      exec (.paceFlightMeasure none) ⟨p, d, q⟩ =
        .next ⟨p, { d with pace := { d.pace with calSent := false, termOpen := false } }, q⟩)
    ∧ (∀ a as_, d.pace.pending = a :: as_ → d.runs domPace = true → a.due ≤ d.cycle →
      d.pace.edgeAt = 0 ∨ d.pace.edgeAt + 2764 ≤ d.cycle →
      exec .paceEdge ⟨p, d, q⟩ = .next ⟨p, applyAdvance p d a, q⟩)
    ∧ (d.runs domPace = true → d.pace.edgeAt = 0 ∨ d.pace.edgeAt + 2699 ≤ d.cycle →
      exec .paceVisible ⟨p, d, q⟩ = .next ⟨p, { d with pace := { d.pace with visible := d.pace.count } }, q⟩)
    ∧ (d.runs domPace = true → paceSource d = 1 →
      exec .paceInFault ⟨p, d, q⟩ = .next ⟨p, settlePace d { d with pace := { d.pace with inFault := true } }, q⟩)
    ∧ (∀ n srow plane master w elapsed, p.hasLink n = true → d.runs domXbar = true → d.works 6 = true → w < 2 ^ 64 → elapsed < 2 ^ 32 →
      let spec := setBits (tokenSpec d w elapsed) 128 16 master
      let d1 := if srow = d.row then d
        else multicast p (d.inc 0x6030 3 0 (fencedRowPeers d)) (rowStage d) 0x40 0 0 spec []
      let due := d1.cycle + tokenLead d1 - elapsed
      let late := decide (due < d1.cycle) || launchLate d1 due
      let mine := plane = d1.plane ∧ master = d1.rd 0x8001 2 0 ∧ master ≠ 0xFFFF
      (paceSource d1 ≠ 2 → exec (.paceToken n srow plane master w elapsed) ⟨p, d, q⟩ = .next ⟨p, d1, q⟩)
      ∧ (paceSource d1 = 2 → ¬ mine → exec (.paceToken n srow plane master w elapsed) ⟨p, d, q⟩ = .next ⟨p, paceStat d1 5, q⟩)
      ∧ (paceSource d1 = 2 → mine → w ≤ paceTop d1 →
        exec (.paceToken n srow plane master w elapsed) ⟨p, d, q⟩ = .next ⟨p, paceStat d1 1, q⟩)
      ∧ (paceSource d1 = 2 → mine → paceTop d1 < w →
        exec (.paceToken n srow plane master w elapsed) ⟨p, d, q⟩ =
          .next ⟨p, takeAdvance (headChain d1 ⟨w, due, late⟩) w due late, q⟩))
    ∧ (∀ a as_, d.pace.unlaunched = a :: as_ → d.runs domPace = true → outFree d = true → a.due ≤ d.cycle + paceLead d →
      exec .paceWordLaunch ⟨p, d, q⟩ = .next ⟨p, launchWord { d with pace := { d.pace with unlaunched := as_ } } a, q⟩)
    ∧ (d.pace.unlaunched = [] → d.runs domPace = true → outFree d = true → d.pace.calWaits = true →
      exec .paceWordLaunch ⟨p, d, q⟩ = .next ⟨p, sendCal d, q⟩)
    ∧ (∀ w ws, d.pace.trigger = w :: ws → d.runs domPace = true → paceSource d = 3 → spacingOk d = true → paceTop d < w →
      exec .paceTriggerRelease ⟨p, d, q⟩ = .next ⟨p, decideAdvance p { d with pace := { d.pace with trigger := ws } } w, q⟩)
    ∧ (∀ domain origin : Nat, d.runs domFnet = true → d.rd 0x8200 3 0 = domain →
      let x := d.pace.ptp
      let now : Int := (origin : Int) + x.delay
      let port := if x.port = .listening then PtpPort.uncalibrated else x.port
      exec (.ptpMessage domain (.sync origin)) ⟨p, d, q⟩ = .next ⟨p,
        (disciplineWall d now { x with port := port, seq := (x.seq + 1) % 65536, sent := some (x.seq, (now % 2 ^ 64).toNat) }).send
          (.delayReq domain x.seq), q⟩)
    ∧ (∀ domain seq receipt left : Nat, d.runs domFnet = true → d.rd 0x8200 3 0 = domain →
      let x := d.pace.ptp
      let delay := (x.delay + ((receipt : Int) - left)) / 2
      x.sent = some (seq, left) →
      exec (.ptpMessage domain (.delayResp seq receipt)) ⟨p, d, q⟩ = .next ⟨p,
        disciplineWall d ((d.pace.wall : Int) + (delay - x.delay)) { x with port := .slave, delay := delay, sent := none }, q⟩)

/-- Writes of pace, schedule and wall-clock objects complete (R369, R374, R376, R381, R383, R386, R387): a cancel in the cycle in which
its entry fires is refused, and the order of an advance and a write of one cycle is the model's choice (log entry 94); when a trigger
is decided is too (log entry 75). -/
def Obligations.PaceWritesComplete : Prop :=
  ∀ (p : Part) (d : Dev) (q : List Instr) (rq : Rq) (v c : Nat) (d1 : Dev),
    (let k := Call.write 0x8000 1 (toBytes 1 v)
     writeTaken d rq k = some (c, d1) → v < 4 → (v = 3 → d1.rd 0x8001 2 0 = ownHome d1) → v ≠ paceSource d1 →
     let x := { d1.pace with pending := [], unlaunched := [], trigger := [], badRun := 0, calWaits := false }
     let d2 := settlePace d1 { d1.wr 0x8000 1 0 v with pace := x }
     exec (.paceSourceWrite rq v) ⟨p, d, q⟩ = .next ⟨p, written c rq k (if 2 ≤ v then sendCal d2 else d2) (Rsp.st stOK), q⟩)
    ∧ (let k := Call.write 0x8000 3 (toBytes 8 v)
       writeTaken d rq k = some (c, d1) → v < 2 ^ 64 → paceSource d1 = 0 → d1.pace.count ≤ v →
       exec (.paceLoad rq v) ⟨p, d, q⟩ =
         .next ⟨p, written c rq k
           (if v = d1.pace.count then d1 else { d1 with pace := { d1.pace with count := v, visible := v } }) (Rsp.st stOK), q⟩)
    ∧ (let k := Call.write 0x8000 4 (toBytes 8 v)
       writeTaken d rq k = some (c, d1) → v < 2 ^ 64 → paceSource d1 = 3 → d1.pace.trigger.foldl max (paceTop d1) < v →
       exec (.paceStep rq v) ⟨p, d, q⟩ = .next ⟨p, written c rq k
         (if d1.pace.trigger = [] ∧ spacingOk d1 = true then decideAdvance p d1 v
          else { d1 with pace := { d1.pace with trigger := d1.pace.trigger ++ [v] } }) (Rsp.st stOK), q⟩)
    ∧ (let k := Call.write 0x8000 5 (toBytes 1 1)
       writeTaken d rq k = some (c, d1) → 2 ≤ paceSource d1 →
       exec (.paceCal rq 1) ⟨p, d, q⟩ = .next ⟨p, written c rq k (sendCal d1) (Rsp.st stOK), q⟩)
    ∧ (∀ i, let k : Call := ⟨2, 0x8100, 0, 32 * i, true, 32, 0, toBytes 32 v⟩
       let r := mkSched (schedAction v) (schedTarget v) (schedJob v) (schedArg v) false
       writeTaken d rq k = some (c, d1) → v < 2 ^ 256 → i < 256 → schedAction (schedRec d1 i) = 0 → r ≠ schedRec d1 i →
       schedStatus p d1 r = stOK →
       exec (.schedArm rq i v) ⟨p, d, q⟩ = .next ⟨p, written c rq k
         (if schedAction r = 1 then armSwap d1 i (bits (schedArg r) 0 8) (bits (schedArg r) 32 32) (schedTarget r)
          else putSched d1 i r) (Rsp.st stOK), q⟩)
    ∧ (let k := Call.write 0x8100 1 (toBytes 1 v)
       let r := schedRec d1 v
       writeTaken d rq k = some (c, d1) → v < 256 → schedAction r ≠ 0 → schedDev r = false → firesNow d1 v = false →
       exec (.schedCancel rq v) ⟨p, d, q⟩ = .next ⟨p, written c rq k
         (if schedAction r = 1 then moveEpoch (putSched d1 v 0) (fun w => { w with swapArmed := false }) else putSched d1 v 0)
         (Rsp.st stOK), q⟩)
    ∧ (let k := Call.write 0x8100 1 (toBytes 1 v)
       writeTaken d rq k = some (c, d1) → v < 256 → schedDev (schedRec d1 v) = false → firesNow d1 v = true →
       exec (.schedCancel rq v) ⟨p, d, q⟩ = .next ⟨p, written c rq k d1 (Rsp.st stNotReady), q⟩)
    ∧ (let k := Call.write 0x8200 1 (toBytes 8 v)
       writeTaken d rq k = some (c, d1) → v < 2 ^ 64 → d1.pace.wallState ≠ 2 →
       exec (.wallclockSet rq v) ⟨p, d, q⟩ = .next ⟨p, written c rq k (setWall d1 v 1) (Rsp.st stOK), q⟩)

/-- The ops of LINK_CTRL complete (R289, R291, R492) when the request is new and its write allowed: enable brings up a DISABLED or
FAILED link with a mode; disable takes any link down; retrain starts any link but a DISABLED one; restore trains the failed lane
of a DEGRADED link alone; erase empties a link's coefficient record. A link whose port group failed its self-test stays as it is
(R434). -/
def Obligations.LinkControlCompletes : Prop :=
  ∀ (p : Part) (d : Dev) (q : List Instr) (rq : Rq) (n c : Nat) (d1 : Dev), p.hasLink n = true →
    let k := fun (op : Nat) => Call.write 0x2001 1 (linkCtrlBytes n op)
    let done := fun (op : Nat) (d2 : Dev) => (Host.Outcome.next ⟨p, written c rq (k op) d2 (Rsp.st stOK), q⟩ : Res)
    let l := d1.link n
    (writeTaken d rq (k 1) = some (c, d1) → l.st = .disabled ∨ l.st = .failed → d1.linkMode n ≠ 0 →
      exec (.linkEnable rq n) ⟨p, d, q⟩ =
        done 1 (if badPort d1 n then d1 else settleCommit p (settleWaiting p (startTraining p d1 n))))
    ∧ (writeTaken d rq (k 2) = some (c, d1) →
      exec (.linkDisable rq n) ⟨p, d, q⟩ =
        done 2 (settleCommit p (settleWaiting p (if badPort d1 n then d1 else disableLink p d1 n))))
    ∧ (writeTaken d rq (k 3) = some (c, d1) → l.st ≠ .disabled →
      exec (.linkRetrain rq n) ⟨p, d, q⟩ = done 3 (retrain p d1 n))
    ∧ (writeTaken d rq (k 4) = some (c, d1) → l.st = .degraded → d1.linkMode n = 1 →
      exec (.linkRestoreLane rq n) ⟨p, d, q⟩ =
        done 4 (if l.rxLanes = 15 then d1 else d1.setLink n { l with restoring := true }))
    ∧ (writeTaken d rq (k 5) = some (c, d1) → exec (.linkEraseCoefficients rq n) ⟨p, d, q⟩ = done 5 (eraseCoef d1 n))

/-- Training, qualification and the handshake of a link complete (R287-R289, R291, R292, R317): training that ended well makes an LFP link
QUALIFYING and an Ethernet link UP, a first or second failed one is counted and a third makes the link FAILED; a passed qualification
sends the handshake items, after full training once the coefficients are written, a failed one returns to TRAINING; a lane that
trained alone is decided; a handshake item is kept, item 0 answered with the stream items, and the last one brings the link up when
plane, mode and role agree, fences it when only the role does not, with LINK_ROLE_FENCED in place of the level event, and makes it
FAILED otherwise. The order of the items is the model's choice (log entry 59). When COEF_STORE is written is the model's choice (log
entry 109). -/
def Obligations.LinkBringUpCompletes : Prop :=
  ∀ (p : Part) (d : Dev) (q : List Instr) (n : Nat), p.hasLink n = true → portRuns d n = true →
    let l := d.link n
    (∀ order polarity, l.st = .training → order < 256 → polarity < 16 →
      let l' := { l with order := order, polarity := polarity }
      exec (.linkTrainingEnd n true order polarity) ⟨p, d, q⟩ = .next ⟨p,
        if isEthernet d n then ethernetUp p d n l' else moveLink d n { l' with st := .qualifying }, q⟩)
    ∧ (∀ order polarity, l.st = .training →
      exec (.linkTrainingEnd n false order polarity) ⟨p, d, q⟩ = .next ⟨p,
        if l.tries + 1 < 3 then d.setLink n { l with tries := l.tries + 1, full := true }
        else settleWaiting p (linkFailed (dropKept d n) n 1 { (((dropKept d n).link n).down .failed) with tries := 0 }), q⟩)
    ∧ (∀ bers uncorr coef, l.st = .qualifying →
      let passed := uncorr = false ∧ ∀ b ∈ bers, b ≤ d.rd 0x2001 3 0
      (passed → exec (.linkQualifyEnd n bers ⟨uncorr, coef⟩) ⟨p, d, q⟩ =
        .next ⟨p, enterHandshake p (if l.full then writeCoef d n coef else d) n, q⟩)
      ∧ (¬passed → let d1 := if l.full then d else staleCoef d n
        exec (.linkQualifyEnd n bers ⟨uncorr, coef⟩) ⟨p, d, q⟩ =
          .next ⟨p, moveLink d1 n { d1.link n with st := .training, full := true }, q⟩))
    ∧ (∀ bers uncorr coef, l.st = .degraded → l.restoring = true →
      exec (.linkQualifyEnd n bers ⟨uncorr, coef⟩) ⟨p, d, q⟩ = .next ⟨p, laneQualified p d n (qualifies d bers uncorr), q⟩)
    ∧ (∀ item v upper, l.st = .handshake → item < 19 → v < 2 ^ 40 →
      let hs := l.hs.put item (some v)
      let lh := { l with hs := hs }
      let d0 := d.setLink n lh
      let d1 := if item = 0 then sendItems d0 n 11 (hsSseq p d n (bits v 0 8) (bits v 8 8)) else d0
      let got := fun (k : Nat) => (hs.get none k).getD 0
      let peer := got 0 % 2 ^ 24 + bits (got 1) 0 8 * 2 ^ 24
      let mode := bits (got 2) 8 8
      let l1 := { l with hs := hs, peer := peer, peerMode := mode, known := true }
      let d2 := d1.setLink n l1
      let agrees := bits peer 16 8 = d.plane ∧ mode = d.linkMode n
      ((∃ k, k < 19 ∧ hs.get none k = none) → exec (.hs n upper item v) ⟨p, d, q⟩ = .next ⟨p, d1, q⟩)
      ∧ ((∀ k, k < 19 → hs.get none k ≠ none) →
        (agrees → roleClash d2 n = false → exec (.hs n upper item v) ⟨p, d, q⟩ = .next ⟨p, comeUp p d2 n lh moveLink, q⟩)
        ∧ (agrees → roleClash d2 n = true → exec (.hs n upper item v) ⟨p, d, q⟩ = .next ⟨p,
            emit (comeUp p (d2.setLink n { l1 with roleFenced := true }) n lh moveLinkQuiet) 0x2003 stFenced 1 true 0x6001 0 (dataUN 1 n 0 0 peer 0 0), q⟩)
        ∧ (¬agrees → exec (.hs n upper item v) ⟨p, d, q⟩ = .next ⟨p, settleWaiting p (linkFailed (dropKept d2 n) n
            (if bits peer 16 8 ≠ d.plane then 2 else 3) (((dropKept d2 n).link n).down .failed)), q⟩)))

/-- Acknowledgements, replays, credits and lanes of a live LFP link complete (R241, R275-R278, R290, R291, R377, R468). A replay is of the
frames from the one named, oldest first; when RETRY_LIMIT replays have passed with no new ACK the link retrains instead. What MGMT
does with a word of a reserved kind, or one for a lane above 3, is the model's choice (log entries 85 and 112). -/
def Obligations.LinkRetryAndLanesComplete : Prop :=
  ∀ (p : Part) (d : Dev) (q : List Instr) (n : Nat), p.hasLink n = true → lfpLive d n = true →
    let l := d.link n
    let replay := fun (bad : Option Nat) (frames : List Sent) =>
      let e := readFails d n bad
      if d.rd 0x2003 1 0 ≤ l.retries then retrain p e n
      else
        let e1 := fcmBreak (linkCtr (e.setLink n { l with retries := l.retries + 1 }) n 8) 1 1 n
        if l.isFenced then e1 else frames.foldl (replayOne n) e1
    (∀ lseq k, lseq < 256 → firstIx (fun x => x.lseq = lseq) l.replay 0 = some k →
      exec (.linkAck n lseq) ⟨p, d, q⟩ = .next ⟨p, ackFrames n (k + 1) (d.setLink n { l with retries := 0 }), q⟩)
    ∧ (∀ lseq k bad, lseq < 256 → firstIx (fun x => x.lseq = lseq) l.replay 0 = some k →
      exec (.linkNak n ⟨lseq, bad⟩) ⟨p, d, q⟩ = .next ⟨p, replay bad (l.replay.drop k), q⟩)
    ∧ (∀ bad, l.nakSent = true → exec (.replayTimeout n ⟨true, bad⟩) ⟨p, d, q⟩ = .next ⟨p, linkCtr (d.setLink n { l with nakSent := true } |>.send
        (.control n 2 (l.lseqRx * 2 ^ 40))) n 9, q⟩)
    ∧ (∀ bad, l.replay ≠ [] → exec (.replayTimeout n ⟨false, bad⟩) ⟨p, d, q⟩ = .next ⟨p, replay bad l.replay, q⟩)
    ∧ (exec (.controlFlitTimer n) ⟨p, d, q⟩ = .next ⟨p, (List.range 14).foldl (fun d k => d.send (.control n 3 (creditWord d n k)))
        (d.send (.control n 1 ((l.lseqRx + 255) % 256 * 2 ^ 40))), q⟩)
    ∧ (∀ vc pool total, vc < 7 → pool < 2 → total < 2 ^ 24 →
      let key := vc * 2 + pool
      let more := (total + 2 ^ 24 - l.credSeen.get 0 key) % 2 ^ 24
      let l1 := { l with credSeen := l.credSeen.set 0 key total }
      exec (.credit n vc pool total) ⟨p, d, q⟩ = .next ⟨p, settleElig (d.setLink n (
        if pool = 0 then { l1 with credFloor := l1.credFloor.set 0 vc (l1.credFloor.get 0 vc + more) }
        else { l1 with credShared := l1.credShared + more })) n, q⟩)
    ∧ (∀ lane cw, lane < 4 → cw < 2 ^ 32 → l.rxLanes = 15 →
      let d1 := (sendNak (linkCtr d n 15) n).send (.control n 5 (bits l.order (2 * lane) 2 * 2 ^ 48 + cw))
      exec (.laneFailure n lane cw) ⟨p, d, q⟩ = .next ⟨p, linkLane d1 n lane 1 cw
        { d1.link n with rxLanes := 15 - 2 ^ lane, st := .degraded, restoring := false }, q⟩)
    ∧ (∀ lane cw, lane < 4 → l.txLanes = 15 →
      let d1 := linkCtr d n 15
      exec (.degrade n lane cw) ⟨p, d, q⟩ =
        .next ⟨p, linkLane d1 n lane 1 cw { d1.link n with txLanes := 15 - 2 ^ lane, st := .degraded }, q⟩)
    ∧ (∀ lane cw, lane < 4 → l.txLanes.testBit lane = false →
      let d1 := linkCtr d n 15
      exec (.restore n lane cw) ⟨p, d, q⟩ = .next ⟨p, settleWaiting p
        (linkLane d1 n lane 2 cw { d1.link n with txLanes := 15, st := liveState l.rxLanes 15 }), q⟩)
    ∧ (∀ flight, exec (.linkFlightMeasure n flight) ⟨p, d, q⟩ = .next ⟨p, d.setLink n { l with flight := flight }, q⟩)
    ∧ (∀ word, n < p.links → d.runs (domPort (n / 8)) = true → bits word 56 8 = 7 → bits word 0 8 = 2 → bits word 8 8 < 4 →
      let lane := 4 * n + bits word 8 8
      exec (.mgmt n word) ⟨p, d, q⟩ = .next ⟨p, { d with
        health := { d.health with opt := d.health.opt.set 0 lane (setBits (d.health.opt.get 0 lane) 0 16 (bits word 16 16)) },
        marks := d.marks.set 0 (3000 + lane) (d.tick + 1) }, q⟩)
    ∧ (∀ word, n < p.links → d.runs (domPort (n / 8)) = true → bits word 56 8 = 7 → bits word 0 8 = 1 → bits word 8 8 < 4 →
      let lane := 4 * n + bits word 8 8
      let v := bits word 16 16
      let d1 := { d with health := { d.health with opt := d.health.opt.set 0 lane (setBits (d.health.opt.get 0 lane) 16 16 v) },
                         marks := d.marks.set 0 (3000 + lane) (d.tick + 1) }
      let t := threshField d1 96 16
      exec (.mgmt n word) ⟨p, d, q⟩ = .next ⟨p,
        noteMargin d1 6 lane v t (lowBad (toSigned 16 v) (toSigned 16 t)) (lowGood (toSigned 16 v) (toSigned 16 t)), q⟩)
    ∧ (∀ word, n < p.links → d.runs (domPort (n / 8)) = true → 7 < bits word 56 8 →
      exec (.mgmt n word) ⟨p, d, q⟩ = .next ⟨p, linkCtr d n 12, q⟩)

/-- Received frames complete (R222, R225, R241, R272-R285, R298, R321): a frame takes its cells as it arrives, unless it is of a kind that
a unit's own command takes them for; a good one is acknowledged, counted, and put in its stream, its floor credits going back when its
first holder has its cells; a frame to discard, a poisoned one or one with a failed cell only fills its place; one that fails its link
check is discarded and answered with NAK; of a discarded frame the copies under way are cut short. In fixed-cycle mode an endpoint's
oldest frame, or a neighbor's oldest of which the release cycle has come, is released in the cycle of its port group, in its link's
turn, and outside the mode any held frame; a gap is skipped after its time; a UNICAST frame is translated when an endpoint sent it,
delivered at its destination, routed on otherwise. That a discarded frame keeps its place in its stream, and that a frame is one
command, are the model's choice (log entries 61 and 96). -/
def Obligations.LinkFramesComplete : Prop :=
  ∀ (p : Part) (d : Dev) (q : List Instr) (n : Nat), p.hasLink n = true →
    (∀ f i, lfpLive d n = true →
      let c := rxCredit (countFec d n i.fec) n f i
      let taken := fun (w : Dev → Dev) => (.next ⟨p,
        if handsOver d n f ∧ i.badCell.isNone then withFrame c.1 (some n) f.vc (cellsFor (64 + i.len)) [] c.2 w
        else ingress c.1 (some n) f.vc (64 + i.len) c.2 w, q⟩ : Res)
      let good := i.lseq = (d.link n).lseqRx ∧ frameCrc f i.len = i.crc ∧ i.fec.uncorr = 0
      let bytes := headerBytes f i.len ++ f.payload
      (good → exec (.lfpFrameRx n f i) ⟨p, d, q⟩ = taken (fun e =>
        let drop := rxDiscard e n f i
        let e1 := mirror e n bytes (64 + i.len) (2 * b2n i.poison + 8 * b2n (drop && !i.poison)) f.vc
        let e2 := (linkCtr (linkCtr e1 n 1) n 3 (64 + i.len)).send (.control n 1 (i.lseq * 2 ^ 40))
        let e3 := e2.setLink n { e2.link n with lseqRx := ((e2.link n).lseqRx + 1) % 256, nakSent := false }
        if i.poison then streamIn p (cutLfp p (linkCtr e3 n 10) n f i) n f true
        else if drop then streamIn p (cutLfp p (linkCtr e3 n 12) n f i) n f true
        else if i.badCell.isSome then streamIn p (cutLfp p (linkCtr e3 n 7) n f i) n f true
        else fcmIn p e3 n f))
      ∧ (¬good → exec (.lfpFrameRx n f i) ⟨p, d, q⟩ = taken (fun e =>
        rxFailed (cutLfp p (mirror e n bytes (64 + i.len) (2 * b2n i.poison + 4) f.vc) n f i) n f i)))
    ∧ (∀ x, d.sw.fcmHeld.find? (fun x => x.1 = n && (!d.inFcm || fcmFree d x)) = some x →
      let go := fun (d : Dev) => placeIn p { d with sw := { d.sw with fcmHeld := d.sw.fcmHeld.erase x } } x.1 x.2.1 x.2.2
      (d.inFcm = false → exec (.fcmFrameRelease n) ⟨p, d, q⟩ = .next ⟨p, go d, q⟩)
      ∧ (d.inFcm = true → fcmXbar d % 16 = n / 8 → (fcmReady d (n / 8)).head? = some n →
        exec (.fcmFrameRelease n) ⟨p, d, q⟩ =
          .next ⟨p, go { d with sw := { d.sw with fcmTurn := d.sw.fcmTurn.set (8 * (n / 8) + 7) (n / 8) n } }, q⟩))
    ∧ (∀ vc gap, vc < 8 →
      let key := streamKey d n vc
      let st := d.sw.streams.get Stream.init key
      let l := d.link n
      (st.held.map (fun x => (x.sseq + 65536 - st.e) % 65536)).min? = some gap →
      exec (.reseqTimeout n vc) ⟨p, d, q⟩ = .next ⟨p, drainStream p key 2048 (emit (Dev.inc { d with sw := { d.sw with
          streams := d.sw.streams.set Stream.init key { st with e := (st.e + gap) % 65536 } } } 0x2004 3 0)
        0x2006 stOK 5 false 0x2004 3 (dataUN 4 (l.peerRow * 256 + l.peerCol) vc 0 st.e gap 0)), q⟩)
    ∧ (∀ f, d.runs domXbar = true → d.works 6 = true →
      exec (.unicast n f) ⟨p, d, q⟩ = .next ⟨p, ingress d (some n) f.vc (64 + f.payload.length) none (fun e =>
        if e.linkRole n = 1 then unicastEntry p e n f
        else if f.drow = e.row ∧ f.dcol = e.col then (if e.isFenced f.srow f.scol then fenceDiscard e f else deliver p e (some n) f)
        else routeFrame p e (some n) false f), q⟩)

/-- Copies leave as they are marked (R241, R280): a copy of which a cell returns an uncorrectable error as it is read is marked as well;
an LFP copy that starts is sent with its mark as POISON and kept for retry with it, an Ethernet copy marked so is sent with the
complement of its last four bytes, the FCS, and every marked copy, of either kind, counts in POISONED_TX. -/
def Obligations.PoisonedCopiesLeaveMarked : Prop :=
  ∀ (d : Dev) (n q : Nat) (x : Copy) (rest : List Copy),
    let y := (readCells d x).1
    y.poison = (x.poison || x.cells.any (cellBad d))
    ∧ (x.eth = false →
      let t := startFrame d n q x rest
      ∃ c, t.out = .frame n (leavingFrame d n c) (d.link n).lseqTx y.poison :: d.out
        ∧ (t.link n).replay = (d.link n).replay ++ [⟨(d.link n).lseqTx, q, c⟩] ∧ c.poison = y.poison ∧ c.f.payload = x.f.payload
        ∧ (y.poison = true → (t.link n).ctr.get 0 11 = ((d.link n).ctr.get 0 11 + 1) % 2 ^ 64))
    ∧ (x.eth = true →
      let t := startFrame d n q x rest
      (∃ more, t.out = more ++ .ethFrame n (ethBytes y) :: d.out)
        ∧ (y.poison = true → (t.link n).ctr.get 0 11 = ((d.link n).ctr.get 0 11 + 1) % 2 ^ 64))
    ∧ (x.poison = true → ∀ body fcs, x.f.payload = body ++ fcs → fcs.length = 4 →
        ethBytes x = body ++ fcs.map (fun b => ~~~b))
    ∧ (x.poison = false → ethBytes x = x.f.payload)

/-- Ethernet frames, PFC and the MAC table's commands complete (R158, R222, R241, R280, R292-R295, R297, R298): a frame takes its cells
and is sampled; a good one in size is counted and forwarded, or only counted in fixed-cycle mode; one that fails its FCS, its size or
a cell, or whose link is fenced, is counted, and copies of it under way are cut short; a PFC frame pauses or resumes a priority, and
in fixed-cycle mode is discarded and counted; its time ends; XOFF is repeated while the device withholds; an ETH frame from the fabric
is learned and delivered at its device, or goes on; an entry of the table leaves when its age has passed, all entries of a VLAN or of
the table are flushed, and MIRROR_N of a link takes 0 or a period from 16 on and restarts its count. That a frame is one command is
the model's choice (log entry 96). -/
def Obligations.EthernetFramesComplete : Prop :=
  (∀ (p : Part) (d : Dev) (q : List Instr) (n : Nat), p.hasLink n = true →
    let l := d.link n
    (∀ bytes fec under bad, portRuns d n = true → isEthernet d n = true → d.pairOdd n = false → l.live = true →
      let vc := fun (e : Dev) => pcpVc e (ethPcp bytes)
      exec (.ethernetFrameRx n bytes ⟨fec, under, bad⟩) ⟨p, d, q⟩ = .next ⟨p, ingress (countFec d n fec) (some n) (vc d) bytes.length none (fun e =>
        let good := fcsGood bytes && decide (fec.uncorr = 0)
        let fenced := (e.link n).isFenced
        let sized := decide (64 ≤ bytes.length) && decide (bytes.length ≤ e.rd 0x2010 3 0)
        let e1 := mirror e n bytes bytes.length (4 * b2n (!good) + 8 * b2n (fenced && good) + 16) (vc e)
        let cut := fun (x : Dev) => cutShort x n (if under.isEmpty || fenced || x.inFcm then none else some (forwardEth p x n bytes)) under bad
        let e2 := linkCtr (linkCtr e1 n 1) n 3 bytes.length
        if good = false then linkCtr (cut e1) n 7
        else if fenced = true ∨ sized = false then linkCtr (cut e1) n 12
        else if bad.isSome then linkCtr (cut e1) n 7
        else if e2.inFcm then e2.inc 0x8400 5 0
        else forwardEth p e2 n bytes), q⟩)
    ∧ (∀ src prio time, prio < 8 → portRuns d n = true → isEthernet d n = true → d.pairOdd n = false → l.live = true →
      let d0 := mirror d n (pfcBytes src prio time) 64 (8 * b2n l.isFenced + 16) (pcpVc d 0)
      let d1 := linkCtr d0 n 14
      exec (.pfcFrameRx n prio ⟨src, time⟩) ⟨p, d, q⟩ = .next ⟨p, if (d0.link n).isFenced then linkCtr d0 n 12
        else if d0.inFcm then d0.inc 0x8400 5 0
        else settleElig (d1.setLink n { d1.link n with paused := putBit (d1.link n).paused prio (decide (0 < time)) }) n, q⟩)
    ∧ (∀ prio, prio < 8 → exec (.pfcPauseExpiry n prio) ⟨p, d, q⟩ = .next ⟨p, settleElig
        (d.setLink n { l with paused := putBit l.paused prio false }) n, q⟩)
    ∧ (∀ prio, prio < 8 → portRuns d n = true → isEthernet d n = true → l.carries = true → l.xoff.testBit prio = true →
      exec (.pfcXoffRepeat n prio) ⟨p, d, q⟩ = .next ⟨p, sendPfc d n prio 0xFFFF, q⟩)
    ∧ (∀ f, d.runs domXbar = true → d.works 6 = true →
      exec (.ethFabricFrame n f) ⟨p, d, q⟩ = .next ⟨p, ingress d (some n) f.vc (64 + f.payload.length) none (fun e =>
        if f.drow = e.row ∧ f.dcol = e.col then ethFabric p e n f else routeFrame p e (some n) false f), q⟩))
  ∧ (∀ (p : Part) (d : Dev) (q : List Instr) (rq : Rq) (c : Nat) (d1 : Dev),
    (∀ vlan mac, exec (.ethMacAgeExpiry vlan mac) ⟨p, d, q⟩ =
      .next ⟨p, { d with sw := { d.sw with macs := d.sw.macs.filter (fun m => !(m.vlan = vlan && m.mac = mac)) } }, q⟩)
    ∧ (∀ v, v < 4096 ∨ v = 0xFFFF →
      let k := Call.write 0x2012 2 (toBytes 2 v)
      writeTaken d rq k = some (c, d1) →
      exec (.ethMacFlush rq v) ⟨p, d, q⟩ = .next ⟨p, written c rq k { d1 with sw := { d1.sw with
        macs := if v = 0xFFFF then [] else d1.sw.macs.filter (fun m => m.vlan != v) } } (Rsp.st stOK), q⟩)
    ∧ (∀ n v, n < p.links → v = 0 ∨ 16 ≤ v ∧ v ≤ 16777216 →
      let k : Call := ⟨2, 0x2020, 0, 4 * n, true, 4, 0, toBytes 4 v⟩
      writeTaken d rq k = some (c, d1) →
      exec (.mirrorNWrite rq n v) ⟨p, d, q⟩ = .next ⟨p, written c rq k
        ((d1.wr 0x2020 0 n v).setLink n { (d1.link n) with mirrorCount := 0 }) (Rsp.st stOK), q⟩))

/-- A link's scheduler decides, and the age mark follows the oldest head (R222, R286, R299-R312): a kept frame first, in fixed-cycle mode
only in a slot of its queue, then the slot table in fixed-cycle mode, else the levels; nothing is sent while 64 frames wait for their
ACK. That a kept frame without credit holds up no other queue is the model's choice (log entry 65). -/
def Obligations.EgressCompletes : Prop :=
  ∀ (p : Part) (d : Dev) (q : List Instr) (n : Nat), p.hasLink n = true →
    (portRuns d n = true → (d.link n).carries = true → ∀ bad : Option Nat,
      let s := settleElig (readFails d n bad) n
      let levels := if s.inFcm then serveSlot s n else serveLevels s n
      (isEthernet s n = true → exec (.egressDecision ⟨n, bad⟩) ⟨p, d, q⟩ = .next ⟨p, settleElig levels n, q⟩)
      ∧ (isEthernet s n = false → 64 ≤ (s.link n).replay.length →
        exec (.egressDecision ⟨n, bad⟩) ⟨p, d, q⟩ = .next ⟨p, settleElig s n, q⟩)
      ∧ (∀ x rest, isEthernet s n = false → (s.link n).replay.length < 64 → (s.link n).resend = x :: rest →
        keptTurn s n x = true →
        exec (.egressDecision ⟨n, bad⟩) ⟨p, d, q⟩ = .next ⟨p, settleElig (serveKept s n x rest) n, q⟩)
      ∧ (isEthernet s n = false → (s.link n).replay.length < 64 →
        (∀ x rest, (s.link n).resend = x :: rest → keptTurn s n x = false) →
        exec (.egressDecision ⟨n, bad⟩) ⟨p, d, q⟩ = .next ⟨p, settleElig levels n, q⟩))
    ∧ (∀ k, k < 16 → d.runs domXbar = true → (d.eq n k).fifo ≠ [] →
      exec (.ageMarkUpdate n k) ⟨p, d, q⟩ =
        .next ⟨p, d.setEq n k { d.eq n k with ageMark := max (d.eq n k).ageMark (headAge d (d.eq n k)) }, q⟩)

/-- Routing, jobs and grants complete (R318, R319, R327, R330, R332, R336): congestion is sampled; an accepted swap takes the
lowest free schedule entry; a drained epoch is freed; a job record that passes its checks is stored, one that nothing holds is
cleared; grant records that pass their checks are stored. -/
def Obligations.RoutingAndJobsComplete : Prop :=
  ∀ (p : Part) (d : Dev) (q : List Instr) (rq : Rq) (c : Nat) (d1 : Dev),
    (d.runs domXbar = true → exec .adaptSample ⟨p, d, q⟩ = .next ⟨p, (List.range 66).foldl (sampleBundle p) d, q⟩)
    ∧ (∀ target crc pace i, target < 256 → crc < 2 ^ 32 → pace < 2 ^ 64 →
      let k := Call.write 0x6011 1 (toBytes 4 target ++ toBytes 4 crc ++ toBytes 8 pace)
      writeTaken d rq k = some (c, d1) → swapStatus d1 target = stOK → schedFree d1 = some i →
      exec (.epochSwap rq target crc pace) ⟨p, d, q⟩ =
        .next ⟨p, written c rq k (armSwap d1 i target crc pace) (Rsp.st stOK), q⟩)
    ∧ (∀ e, e < 2 → d.runs domXbar = true → epochState d e = 2 → epochHeld d e = 0 →
      exec (.epochDrained e) ⟨p, d, q⟩ =
        .next ⟨p, moveEpoch d (fun w => if e = 0 then { w with stA := 0 } else { w with stB := 0 }), q⟩)
    ∧ (∀ x ∈ [Instr.jobCreate rq, Instr.jobAdaptiveUpdate rq], ∀ r, r.idx < 4096 → r.valid = true →
      let v := jobImage r
      let k : Call := ⟨2, 0x6002, 0, 32 * r.idx, true, 32, 0, toBytes 32 v⟩
      let d2 := if jobValid (d1.rd 0x6002 0 r.idx) then d1
        else { d1 with modes := { d1.modes with named := d1.modes.named.filter (fun y => y.1 != jobOf v) } }
      writeTaken d rq k = some (c, d1) → jobStatus p d1 r.idx v = stOK →
      exec (x r) ⟨p, d, q⟩ = .next ⟨p, written c rq k (d2.wr 0x6002 0 r.idx v) (Rsp.st stOK), q⟩)
    ∧ (∀ r, r.idx < 4096 → r.valid = false →
      let v := jobImage r
      let k : Call := ⟨2, 0x6002, 0, 32 * r.idx, true, 32, 0, toBytes 32 v⟩
      let old := d1.rd 0x6002 0 r.idx
      writeTaken d rq k = some (c, d1) → (jobValid old = true → jobHeld p d1 (jobOf old) = false) →
      exec (.jobDelete rq r) ⟨p, d, q⟩ =
        .next ⟨p, written c rq k (d1.wr 0x6002 0 r.idx (pack [(0, 42, bits v 0 42), (64, 64, bits v 64 64)])) (Rsp.st stOK), q⟩)
    ∧ (∀ first recs d2, first + recs.length ≤ 1024 → (∀ v ∈ recs, v < 2 ^ 256) →
      let bs := recs.flatMap (fun v => toBytes 32 v)
      let k : Call := ⟨2, 0x6020, 0, 32 * first, true, bs.length, 0, bs⟩
      writeTaken d rq k = some (c, d1) → putGrants p d1 first recs = .ok d2 →
      exec (.grantWrite rq first recs) ⟨p, d, q⟩ = .next ⟨p, written c rq k d2 (Rsp.st stOK), q⟩)

/-- Fences complete (R347-R349): a new command that passes its checks is applied, and sent on when it says so; one that came from the
fabric is applied, and one that came down a column goes on along the row. What becomes of queued copies and chunks at a fence is the
model's choice (log entry 80). -/
def Obligations.FencesComplete : Prop :=
  ∀ (p : Part) (d : Dev) (q : List Instr) (rq : Rq) (c : Nat) (d1 : Dev) (f : FenceCmd),
    (let k := Call.write 0x6030 0 (toBytes 24 (fenceRec f))
     let x := fenceOf (fenceRec f)
     let d2 := applyFence p d1 x
     writeTaken d rq k = some (c, d1) → fenceBad p d1 x = false → fenceSeen d1 x = false →
     (f.op = 1 → exec (.fence rq f) ⟨p, d, q⟩ = .next ⟨p, written c rq k
        (if x.propagate = 1 then broadcast p d2 0x40 0 0 0 (toBytes 24 (fenceRec x)) else d2) (Rsp.st stOK), q⟩)
     ∧ (f.op = 2 → exec (.unfence rq f) ⟨p, d, q⟩ = .next ⟨p, written c rq k
        (if x.propagate = 1 then broadcast p d2 0x40 0 0 0 (toBytes 24 (fenceRec x)) else d2) (Rsp.st stOK), q⟩))
    ∧ (∀ n srow, p.hasLink n = true → d.runs domXbar = true → d.works 6 = true → fenceBad p d f = false → fenceSeen d f = false →
      exec (.propagatedFence n srow f) ⟨p, d, q⟩ = .next ⟨p, serveAt 161 d (some n) 0 88 (fun e =>
        let e1 := applyFence p e f
        if srow = e.row then e1
        else multicast p (e1.inc 0x6030 3 0 (fencedRowPeers e1)) (rowStage e1) 0x40 0 0 0 (toBytes 24 (fenceRec f))), q⟩)

/-- Canopy requests complete at their home (R209, R336, R338-R343, R355-R357): a granted request of a device that is not fenced, to
memory of this device outside every committed set, is performed and answered OK when what it reads is neither poisoned nor fails in
the stack, whatever becomes of the lines it writes; a READ that fails there writes MEM_POISON and is answered FENCED; while it is
served the Canopy engine holds the request's cells (`serveAt`). -/
def Obligations.CanopyRequestsComplete : Prop :=
  ∀ (p : Part) (d : Dev) (q : List Instr) (r : CanReq) (n : Nat), p.hasLink n = true → r.via = .fabric n →
    d.runs domXbar = true → d.works 8 = true → d.isFenced r.srow r.scol = false → homeDead p d r.caddr = false →
    homeDevice d (bits r.caddr 48 16) = (d.row, d.col) → (bits r.caddr 48 16).testBit 15 = false → granted d r = true →
    canLocked d r = false →
    let done : (Dev → Dev) → Res := fun f => .next ⟨p, serveAt 162 d (some n) 1 (64 + r.payload.length) f, q⟩
    let off := bits r.caddr 0 48
    let clean := fun fx => (canReads p d r fx).2 = false ∧ canPoison p (canReads p d r fx).1 r = none
    (∀ fx, r.op = 1 → clean fx → exec (.canopyRead r fx) ⟨p, d, q⟩ = done (fun e =>
        let e1 := (canReads p e r fx).1
        canAnswer p e1 r stOK (e1.mem.mem.readN 0#8 off (canBytes r))))
    ∧ (∀ fx, r.op = 2 → exec (.canopyWrite ⟨r, fx⟩) ⟨p, d, q⟩ = done (fun e =>
        canAnswer p (canWrites p (storeDev e off r.payload) r fx) r stOK []))
    ∧ (∀ x ∈ [(Instr.writeMasked r, 3), (.canopyAdd r, 0x10), (.exadd r, 0x11), (.canopyMin r, 0x12),
        (.canopyMax r, 0x13), (.cas r, 0x14), (.swap r, 0x15)], r.op = x.2 → clean .clean →
      exec x.1 ⟨p, d, q⟩ = done (fun e =>
        let e1 := (canReads p e r .clean).1
        canAnswer p (canWrites p (canPerform e1 r).1 r .clean) r stOK (canPerform e1 r).2))
    ∧ (∀ fx, r.op = 1 → (canReads p d r fx).2 = true → exec (.canopyRead r fx) ⟨p, d, q⟩ = done (fun e =>
        canAnswer p (poisonEvent p (canReads p e r fx).1 (8 * (off / 8)) 3 r.caddr) r stFenced []))

/-- Canopy requests end (R331, R339, R345, R347): a response of a fenced device is discarded; any other goes to the link or the grove that asked, or on to its entry device; a
request of a grove or of management that gets none ends with an event, and of a step that has ended halts the grove unless it reads. -/
def Obligations.CanopyEndsComplete : Prop :=
  ∀ (p : Part) (d : Dev) (q : List Instr),
    (∀ r, d.runs domXbar = true → d.works 6 = true → d.isFenced r.srow r.scol = false → (r.sunit < 128 → r.sunit < p.links) →
      (128 ≤ r.sunit → r.sunit < 160 → r.sunit - 128 < p.groves) →
      ((r.drow ≠ d.row ∨ r.dcol ≠ d.col) → exec (.canopyRsp r) ⟨p, d, q⟩ = .next ⟨p, canSend p d r, q⟩)
      ∧ (r.drow = d.row → r.dcol = d.col → r.sunit < 128 →
        exec (.canopyRsp r) ⟨p, d, q⟩ = .next ⟨p, canSend p (vc1Done p d r.sunit r.rtag) r, q⟩)
      ∧ (∀ i x, r.drow = d.row → r.dcol = d.col → 128 ≤ r.sunit → r.sunit < 160 →
        findReq (d.grove (r.sunit - 128)) r.rtag = some i → (d.grove (r.sunit - 128)).reqs[i]? = some x →
        exec (.canopyRsp r) ⟨p, d, q⟩ =
          .next ⟨p, vc1Done p (groveRsp p (dropReq d (r.sunit - 128) i) (r.sunit - 128) x r) r.sunit r.rtag, q⟩))
    ∧ (∀ r, d.runs domXbar = true → d.works 6 = true → d.isFenced r.srow r.scol = true → r.sunit < p.links →
      exec (.canopyRsp r) ⟨p, d, q⟩ = .next ⟨p, fenceDiscard d (d.frame 0x11 2 r.drow r.dcol 0 0 []), q⟩)
    ∧ (∀ g rtag i x, g < p.groves → g < 32 → findReq (d.grove g) rtag = some i → (d.grove g).reqs[i]? = some x →
      let w := Config.firmwareSlot g (x.c % 65536)
      let d1 := timeoutEvent (dropReq d g i) 2 g (if x.e = 16 then w % 16 * 4096 + w / 16 % 4096 else x.e * 4096 + x.c) x.req
      let done : Dev → Res := fun t => .next ⟨p, vc1Done p t (128 + g) rtag, q⟩
      (x.e = 16 → exec (.canopyTimeout (128 + g) rtag) ⟨p, d, q⟩ = done (collLine p d1 x stFenced []))
      ∧ (x.e ≠ 16 → x.live = true → (d.grove g).phase = .running ∨ (d.grove g).phase = .halted →
        exec (.canopyTimeout (128 + g) rtag) ⟨p, d, q⟩ = done (ctxFault p d1 g x.e x.c 0x0B stFenced x.eaddr))
      ∧ (x.e ≠ 16 → x.live = true → (d.grove g).phase ≠ .running → (d.grove g).phase ≠ .halted →
        exec (.canopyTimeout (128 + g) rtag) ⟨p, d, q⟩ = done d1)
      ∧ (x.e ≠ 16 → x.live = false → x.req.op = 1 → exec (.canopyTimeout (128 + g) rtag) ⟨p, d, q⟩ = done d1)
      ∧ (x.e ≠ 16 → x.live = false → x.req.op ≠ 1 →
        exec (.canopyTimeout (128 + g) rtag) ⟨p, d, q⟩ = done (haltGrove p d1 g ⟨0x0B, stFenced, x.eaddr, x.tag, x.c, x.e, 0, 0⟩)))
    ∧ (∀ sunit rtag x, 160 ≤ sunit → d.sw.vc1Out.find? (fun y => y.sunit = sunit && y.rtag = rtag) = some x →
      exec (.canopyTimeout sunit rtag) ⟨p, d, q⟩ = .next ⟨p, vc1Done p (timeoutEvent d 6 0 0 x) sunit rtag, q⟩)

/-- Telemetry completes (R467, R468, R471): margins are taken lane by lane, the sampler takes the input, the rails and the sites, a
snapshot is latched into the slot with the lowest SNAP_SEQ, and its copy ends with the slot holding it. When a margin has crossed or
recovered is the model's choice (log entry 85). -/
def Obligations.TelemetryCompletes : Prop :=
  ∀ (p : Part) (d : Dev) (q : List Instr), d.runs domTelem = true →
    (∀ ms, exec (.marginMeasure ms) ⟨p, d, q⟩ = .next ⟨p, ms.foldl (takeLane p) d, q⟩)
    ∧ (∀ input rails slacks, input.length = 3 → rails.length = 9 → slacks.length = 64 →
      let d1 := { d with health := { d.health with input := input.map (· % 2 ^ 32) }, marks := d.marks.set 0 1 1 }
      exec (.samplerTick input rails slacks) ⟨p, d, q⟩ = .next ⟨p,
        slacks.zipIdx.foldl (takeSite (d.marks.get 0 1 = 0)) (rails.zipIdx.foldl takeRail d1), q⟩)
    ∧ (∀ rq mask c d1, 1 ≤ mask → mask < 64 →
      let k := Call.write 0x9111 0 (toBytes 1 mask)
      let i := oldestSnap d1
      let new : Snap := ⟨d1.health.snapSeq + 1, d1.pace.visible, d1.pace.wall, mask, 1,
        ((List.range 6).filter (fun b => mask.testBit b)).flatMap (setImage p d1)⟩
      let old : Snap := { d1.health.snaps.get Snap.empty i with status := 0 }
      let h : Health := { d1.health with snapSeq := new.seq, snapBusy := some (i, new), snaps := d1.health.snaps.set Snap.empty i old }
      let d2 : Dev := { d1 with health := h }
      writeTaken d rq k = some (c, d1) → d1.runs domTelem = true → d1.health.snapBusy = none →
      exec (.telemSnapNow rq mask) ⟨p, d, q⟩ = .next ⟨p, written c rq k (Dev.inc d2 0x9111 1 0) (Rsp.st stOK), q⟩)
    ∧ (∀ i new, d.health.snapBusy = some (i, new) →
      exec .snapshotCopied ⟨p, d, q⟩ = .next ⟨p, { d with health := { d.health with
        snaps := d.health.snaps.set Snap.empty i new, snapBusy := none, newest := i } }, q⟩)

/-- Failures of groves and their substitution complete (R78, R95, R99, R143, R455-R462): a ready grove that fails is counted,
retires its spare, reports it, pauses and stands in line for a substitute; so does one that stalls; an uncorrectable word of a
JOB-role grove faults its context or its sequencer, one of a DEVICE-role grove's frames is rebuilt and any other such word of it
fails it; a word of instruction memory, or one that fails again within 1 s, fails the grove, and corrected errors are counted; what is
uncorrectable in a grove that waits for its substitute is marked; the substitution that is first in line ends with the grove on its
spare. Which marks a word outside the named memories leaves is the model's choice (log entry 125). -/
def Obligations.GroveFailuresComplete : Prop :=
  ∀ (p : Part) (d : Dev) (q : List Instr) (g : Nat), g < p.groves → d.runs domArc = true → (d.grove g).phase ≠ .lost →
    let gr := d.grove g
    let fail := fun (cause : Nat) (d0 : Dev) =>
      let d1 : Dev := { d0 with spares := { d0.spares with retired := physOf d g :: d0.spares.retired } }
      (Host.Outcome.next ⟨p, beginSubst p 33 (queueSubst (pauseGrove (failedEvent d1 g cause (physOf d g)) g)
        ⟨g, cause, physOf d g, none⟩), q⟩ : Res)
    let works := ∀ x ∈ d.spares.failed, x.g ≠ g
    let ready := d.boot.readyGroves.testBit g = true ∧ works ∧ d.inFcm = false
    (ready → exec (.groveFailed g 1) ⟨p, d, q⟩ = fail 1 ((d.inc 0x9021 0 0).inc 0x9021 0 2))
    ∧ (∀ cause, 2 ≤ cause → cause ≤ 4 → ready → exec (.groveFailed g cause) ⟨p, d, q⟩ = fail cause (d.inc 0x9021 0 0))
    ∧ (ready → exec (.groveStallDetect g) ⟨p, d, q⟩ = fail 5 ((d.inc 0x9021 0 0).inc 0x9021 0 3))
    ∧ (works → d.role g ≠ 0 → ∀ e c, (gr.ctx e c).st ≠ .free →
      exec (.sramUncorrectable g (.context e c) false) ⟨p, d, q⟩ = .next ⟨p, ctxFault p d g e c 0x03 stCheckFail 0, q⟩
      ∧ (∀ k scratch, exec (.sramUncorrectable g (.data e c k scratch) false) ⟨p, d, q⟩ =
          .next ⟨p, ctxFault p (poisonWord d g (.data e c k scratch)) g e c 0x03 stCheckFail (8 * k), q⟩))
    ∧ (works → d.role g ≠ 0 → ∀ slot word,
      exec (.sramUncorrectable g (.frame slot word) false) ⟨p, d, q⟩ = .next ⟨p, seqFault p d g 0x03 stCheckFail, q⟩
      ∧ exec (.sramUncorrectable g .other false) ⟨p, d, q⟩ = .next ⟨p, seqFault p (poisonWord d g .other) g 0x03 stCheckFail, q⟩)
    ∧ (works → d.role g = 0 → ∀ slot word,
      exec (.sramUncorrectable g (.frame slot word) false) ⟨p, d, q⟩ = .next ⟨p, rebuildSlot d g slot word, q⟩)
    ∧ (∀ n again, exec (.sramUncorrectable g (.corrected n) again) ⟨p, d, q⟩ = .next ⟨p, d.inc 0x4003 0 0 n, q⟩)
    ∧ (works →
      let failed := fun (d0 : Dev) (cause : Nat) => (Host.Outcome.next ⟨p, failGrove p d0 g cause, q⟩ : Res)
      (∀ n again, exec (.sramUncorrectable g (.imem n) again) ⟨p, d, q⟩ = failed (poisonWord d g (.imem n)) 3)
      ∧ (∀ slot word, exec (.sramUncorrectable g (.frame slot word) true) ⟨p, d, q⟩ = failed d 2)
      ∧ exec (.sramUncorrectable g .other true) ⟨p, d, q⟩ = failed (poisonWord d g .other) 2
      ∧ (∀ e c, exec (.sramUncorrectable g (.context e c) true) ⟨p, d, q⟩ = failed (poisonWord d g (.context e c)) 2)
      ∧ (∀ e c k sc, exec (.sramUncorrectable g (.data e c k sc) true) ⟨p, d, q⟩ = failed (poisonWord d g (.data e c k sc)) 2)
      ∧ (d.role g = 0 → exec (.sramUncorrectable g .other false) ⟨p, d, q⟩ = failed d 4
        ∧ (∀ e c, exec (.sramUncorrectable g (.context e c) false) ⟨p, d, q⟩ = failed d 4)
        ∧ (∀ e c k sc, exec (.sramUncorrectable g (.data e c k sc) false) ⟨p, d, q⟩ = failed d 4)))
    ∧ (∀ w again, (∃ x ∈ d.spares.failed, x.g = g) → (∀ n, w ≠ .corrected n) →
      exec (.sramUncorrectable g w again) ⟨p, d, q⟩ = .next ⟨p, poisonWord d g w, q⟩)
    ∧ (∀ x xs k duration, d.spares.failed = x :: xs → x.spare = some k → x.g = g → d.inFcm = false →
      exec (.groveSubstituted g duration) ⟨p, d, q⟩ = .next ⟨p, finishSubst p d x k duration, q⟩)

/-- Flash and boot control complete (R431, R432, R436, R438, R446, R452): a write or an erase of a region the device does not run from begins;
its end leaves the bytes programmed (bits only cleared) or the sectors erased; records on their way to the persistent tail go before
it; a reset is answered and taken, while an operation runs with its page or sector in progress; a bank's verification is
kept; an attempt reset in recovery mode is recorded and taken. How programming changes the flash, and that BOOT_CTRL answers before
its reset, are the model's choice (log entries 55 and 57). -/
def Obligations.FlashAndBootComplete : Prop :=
  ∀ (p : Part) (d : Dev) (q : List Instr) (rq : Rq) (c : Nat) (d1 : Dev),
    (∀ off data r, off < 2 ^ 32 → data ≠ [] → flashRegion off = some r → flashRegion (off + data.length - 1) = some r →
      let k := Call.write 0xA001 0 (toBytes 8 off ++ data)
      writeTaken d rq k = some (c, d1) → hitsRunning d1 off data.length = false → d1.boot.flashOp = none →
      flashAsmElsewhere d1 c = false →
      exec (.flashWrite rq off data) ⟨p, d, q⟩ =
        .next ⟨p, written c rq k (startFlash d1 ⟨false, off, data.length, data, false⟩) (Rsp.st stOK), q⟩)
    ∧ (∀ off len, off + len ≤ 0x02200000 → off % 65536 = 0 → len % 65536 = 0 →
      let k := Call.write 0xA001 1 (toBytes 4 off ++ toBytes 4 len)
      writeTaken d rq k = some (c, d1) → hitsRunning d1 off len = false → d1.boot.flashOp = none →
      flashAsmElsewhere d1 c = false →
      exec (.flashErase rq off len) ⟨p, d, q⟩ =
        .next ⟨p, written c rq k (startFlash d1 ⟨true, off, len, [], false⟩) (Rsp.st stOK), q⟩)
    ∧ (∀ r rest, d.runs domXspi = true → d.boot.tailWait = r :: rest →
      exec (.flashOpComplete true) ⟨p, d, q⟩ = .next ⟨p, putTail { d with boot := { d.boot with tailWait := rest } } r, q⟩)
    ∧ (∀ o ok, d.runs domXspi = true → d.boot.tailWait = [] → d.boot.flashOp = some o → o.resetAfter = true →
      exec (.flashOpComplete ok) ⟨p, d, q⟩ = .next ⟨p, ownReset p (endFlash d.draw.2 (currentPart o d.draw.1) ok), q⟩)
    ∧ (∀ o, d.runs domXspi = true → d.boot.tailWait = [] → d.boot.flashOp = some o → o.resetAfter = false →
      (o.erase = true → exec (.flashOpComplete true) ⟨p, d, q⟩ = .next ⟨p, { d with boot := { d.boot with
        flashOp := none, flash := d.boot.flash.clear o.off o.len, flashStatus := stOK, flashReached := o.off + o.len } }, q⟩)
      ∧ (o.erase = false → programMismatch (flashBytes d o.off o.len) o.data = none →
        exec (.flashOpComplete true) ⟨p, d, q⟩ = .next ⟨p, { d with boot := { d.boot with
          flashOp := none, flashStatus := stOK, flashReached := o.off + o.len,
          flash := d.boot.flash.writeN 0xFF#8 o.off
            ((((flashBytes d o.off o.len).zip o.data).map (fun x => x.1 &&& x.2)).take o.len) } }, q⟩))
    ∧ (∀ o, writeTaken d rq (bootCtrl 1) = some (c, d1) → d1.boot.flashOp = some o →
      exec (.bootReset rq) ⟨p, d, q⟩ = .next ⟨p, written c rq (bootCtrl 1)
        (dropFlashAsm { d1 with boot := { d1.boot with flashOp := some { o with resetAfter := true } } }) (Rsp.st stOK), q⟩)
    ∧ (writeTaken d rq (bootCtrl 1) = some (c, d1) → d1.boot.flashOp = none →
      exec (.bootReset rq) ⟨p, d, q⟩ = .next ⟨p, ownReset p (respond d1 rq (Rsp.st stOK)), q⟩)
    ∧ (writeTaken d rq (bootCtrl 2) = some (c, d1) →
      exec (.verifyBankA rq) ⟨p, d, q⟩ = .next ⟨p, written c rq (bootCtrl 2) { d1 with boot := { d1.boot with
        bankStatus := d1.boot.bankStatus.set 0 0 (bankVerify p d1 0) } } (Rsp.st stOK), q⟩)
    ∧ (writeTaken d rq (bootCtrl 3) = some (c, d1) →
      exec (.verifyBankB rq) ⟨p, d, q⟩ = .next ⟨p, written c rq (bootCtrl 3) { d1 with boot := { d1.boot with
        bankStatus := d1.boot.bankStatus.set 0 1 (bankVerify p d1 1) } } (Rsp.st stOK), q⟩)
    ∧ (writeTaken d rq (bootCtrl 4) = some (c, d1) → d1.boot.recovery = true →
      exec (.attemptReset rq) ⟨p, d, q⟩ = .next ⟨p, ownReset p (appendTail (respond d1 rq (Rsp.st stOK)) 4 0), q⟩)

/-- Attestation completes once the security unit is ready (R449-R451): each request is answered with the message its code names, built on
the keys and hashes of the part, and the exchange joins the peer's transcript; the last part of a request sent in chunks executes the
whole of it, and a response too long for a datagram waits for CHUNK_GET. The codes of SPDM's messages, and that their bodies are
uninterpreted, are the model's choice (log entry 56). -/
def Obligations.AttestationCompletes : Prop :=
  ∀ (p : Part) (d : Dev) (q : List Instr) (peer : Nat) (msg : List Byte), d.runs domSec = true → d.isReady 3 = true →
    let x := d.spdm peer
    let done := fun (y : Spdm) (rsp : List Byte) => (Host.Outcome.next ⟨p, spdmAnswer d peer y msg rsp, q⟩ : Res)
    let all := Config.spdmBody 0x03 (toBytes 48 (Config.sha384 (measBlocks d 255)))
    exec (.getVersion peer msg) ⟨p, d, q⟩ =
      done { x with negotiated := false, transcript := [] } (Config.spdmBody 0x04 [0x12#8, 0x13#8])
    ∧ exec (.getCapabilities peer msg) ⟨p, d, q⟩ = done x (Config.spdmBody 0x61 msg)
    ∧ exec (.negotiateAlgorithms peer msg) ⟨p, d, q⟩ = done { x with negotiated := true } (Config.spdmBody 0x63 (algorithmBits ++ msg))
    ∧ (x.negotiated = true →
      exec (.getDigests peer msg) ⟨p, d, q⟩ = done x (Config.spdmBody 0x01 (toBytes 48 (Config.sha384 (Config.certChain 0))))
      ∧ (∀ off len, exec (.getCertificate peer off len msg) ⟨p, d, q⟩ =
          done x (Config.spdmBody 0x02 (((Config.certChain 0).drop off).take len)))
      ∧ exec (.challenge peer msg) ⟨p, d, q⟩ = done x (all ++ Config.rsaSign (x.transcript ++ msg ++ all))
      ∧ (∀ op, op ≤ 7 ∨ op = 255 →
        let body := Config.spdmBody 0x60 (measBlocks d op)
        exec (.getMeasurements peer false op msg) ⟨p, d, q⟩ = done x body
        ∧ exec (.getMeasurements peer true op msg) ⟨p, d, q⟩ =
          done { x with l2 := some (Config.transcriptHash (x.transcript ++ msg ++ body)) }
            (body ++ Config.rsaSign (x.transcript ++ msg ++ body))))
    ∧ (exec (.chunkSend peer false msg) ⟨p, d, q⟩ =
        .next ⟨p, spdmReply (d.setSpdm peer { x with asm := x.asm ++ msg }) peer (Config.spdmBody 0x05 []), q⟩)
    ∧ (let whole := x.asm ++ msg
      let run := spdmRule d { x with asm := [] } whole (spdmParse whole)
      (∀ code, run = .error code → exec (.chunkSend peer true msg) ⟨p, d, q⟩ =
        .next ⟨p, spdmReply (d.setSpdm peer { x with asm := [] }) peer (Config.spdmBody 0x05 (spdmError code)), q⟩)
      ∧ (∀ y rsp, run = .ok (y, rsp) →
        let ack := Config.spdmBody 0x05 rsp
        let y1 := { y with transcript := y.transcript ++ whole ++ rsp, reply := rsp }
        (peer = 0 ∨ ack.length ≤ 1024 →
          exec (.chunkSend peer true msg) ⟨p, d, q⟩ = .next ⟨p, spdmReply (d.setSpdm peer y1) peer ack, q⟩)
        ∧ (peer ≠ 0 → 1024 < ack.length → exec (.chunkSend peer true msg) ⟨p, d, q⟩ =
          .next ⟨p, spdmReply (d.setSpdm peer { y1 with long := rsp }) peer (Config.spdmBody 0x05 (spdmError 15)), q⟩)))
    ∧ (∀ chunk, x.long ≠ [] → chunk = 0 ∨ 1008 + 1012 * (chunk - 1) < x.long.length →
        exec (.chunkGet peer chunk msg) ⟨p, d, q⟩ = .next ⟨p, spdmReply d peer (chunkResponse x.long chunk msg), q⟩)
    ∧ (∀ h, vendorOk msg = true → x.l2 = some h → exec (.pqSign peer msg) ⟨p, d, q⟩ =
        done x (vendorBody (toBytes 2 16224 ++ Config.slhSign h)))
    ∧ (vendorOk msg = true → exec (.pqCert peer msg) ⟨p, d, q⟩ = done x (vendorBody (Config.certChain 1)))
    ∧ (∀ ir, d.boot.rails = true → 1 < ir →
      exec (.jtagInstructionLoad ir) ⟨p, d, q⟩ = .next ⟨p, { d with boot := { d.boot with jtag := true } }, q⟩)

/-- FRAME of the commands that touch nothing a program computes with (R385, R404, R405, R410, R450, R468, R471): pins, readiness of the
host's paths, the protocol sessions, the management core, measurement, sampling and the pace unit's output change no grove, no byte of
the stacks, no cell of the shared buffer and no collective. -/
def Obligations.ServiceCommandsFrame : Prop :=
  ∀ (rail phase peer slot n w k : Nat) (path : Path) (ms : List LaneMeas) (input : List Nat) (rails : List (Nat × Nat))
    (slacks : List Int) (pm : PtpMsg) (msg : List Byte) (last : Bool) (s t : State),
    ∀ c ∈ [Instr.pcieLinkUp, .pcieLinkDown, .plcaJoin, .fieldNetworkLinkDown, .throttleStep, .phaseFailed rail phase, .perstAssert,
      .perstRelease, .bar0BusySlotWrite slot, .evqNoticeDelayed, .malformedDatagram, .unlockTimeout path, .mgmt n w,
      .linkFlightMeasure n k, .pfcXoffRepeat n k, .ethMacAgeExpiry n w, .ageMarkUpdate n k, .paceVisible, .paceWordLaunch,
      .ptpMessage n pm, .marginMeasure ms, .samplerTick input rails slacks, .snapshotCopied, .getVersion peer msg, .chunkSend peer last msg,
      .pqCert peer msg, .jtagInstructionLoad n], exec c s = .next t →
    t.dev.groves = s.dev.groves ∧ t.dev.mem = s.dev.mem ∧ t.dev.buf = s.dev.buf ∧ t.dev.colls = s.dev.colls

/-- A command whose step the last clause but one of the next statement is about (DESCRIBE in any operation but a WRITE): requests on the dictionary that read, work the event
queue and the lock, control groves, load their instruction memory, switch their banks, clear scaling contexts, arm a swap or set the
pace unit; and words, measurements and edges at the pace unit's pins, and the walk of the leak auditor. -/
def servedSoundly : Instr → Bool
  | .describe _ obj _ => obj.op != 2
  | .evqRead .. | .logRead .. | .octSegment .. | .bar0BusySlotWrite .. | .eventConsumed .. | .evqNoticeDelayed | .malformedDatagram
  | .discoveryRead .. | .unlock .. | .unlockTimeout .. | .evqFlush .. | .evqOwnerChange .. | .qhwmRead .. | .bufFreeLwmRead ..
  | .ctxInUseHwmRead .. | .marginTimingRead .. | .sampleRead .. | .groveCtrlStart .. | .groveCtrlHalt .. | .groveCtrlReset ..
  | .groveResetDone .. | .instrWrite .. | .instrLoadMem .. | .instrLoadDone | .bankSwitch .. | .scaleCtxClear .. | .epochSwap ..
  | .auditWalkStart | .auditWalkEnd | .bufReclaim .. | .paceWord .. | .calWord .. | .paceFlightMeasure .. | .paceVisible | .paceInFault
  | .paceWordLaunch | .paceSourceWrite .. | .paceCal .. | .schedArm .. | .schedCancel .. | .wallclockSet .. | .ptpMessage .. => true
  | _ => false

/-- THE DEVICE STAYS SOUND, from every sound state, not only those a run reaches: what reset leaves is sound, and each step that runs an
instruction of a sequencer, a wait, or a command of an engine, one that faults or halts the grove included, one that completes a
command, one that applies or discards a set from outside, and one that runs a command of `servedSoundly` leave every memory in
canonical form (R78, R85, R353, R436), no flag counting more than 65,535 sets in all (R127), the packet buffer's cells as they must be
(R238-R241, R247), and the visible count not above the count, with what is pending ahead of it in rising order (R367, R368). A
completion of a command that names a local flag is under the premise that it is counted among that flag's setters not yet complete
(R128), which ISSUE does as it queues it; PACE_LOAD is under the premise that nothing is pending, as R369 leaves it when it sets the
source to NONE. -/
def Obligations.WorkAndRequestsKeepTheDeviceSound : Prop :=
  State.reset.dev.Sound
    ∧ (∀ (c : Instr) (q : List Instr) (g : Nat) (s t : State), s.pending = c :: q → groveWorkOf c = some g → step s = .next t →
      s.dev.Sound → t.dev.Sound)
    ∧ (∀ (g e c : Nat) (q : List Instr) (s t : State), s.pending = .commandComplete g e c :: q →
        (let gr := s.dev.grove g
         let h := gr.head (gr.ctx e c).cmd
         h.testBit 19 = true → 0 < (gr.flag (bits h 11 8)).s) →
        step s = .next t → s.dev.Sound → t.dev.Sound)
    ∧ (∀ (home job g f : Nat) (q : List Instr) (s t : State), s.pending = .externalSet home job g f :: q → step s = .next t →
        s.dev.Sound → t.dev.Sound)
    ∧ (∀ (c : Instr) (q : List Instr) (s t : State), s.pending = c :: q → servedSoundly c = true → step s = .next t →
        s.dev.Sound → t.dev.Sound)
    ∧ (∀ (rq : Rq) (v : Nat) (q : List Instr) (s t : State), s.pending = .paceLoad rq v :: q → s.dev.pace.pending = [] →
        step s = .next t → s.dev.Sound → t.dev.Sound)

/-- THE PACKET BUFFER LOSES AND INVENTS NO CELL (R238-R241, R243, R244, R247, R249, R252): in a sound buffer, where every held cell has
an owner, none is held twice or both held and retired, and the cells marked as drawn from headroom are those that headroom counts, free,
held and retired cells are the whole buffer. Cells allocated for a frame are as many as asked for, distinct, were free and not retired,
and have ingress as their one owner; every other cell stays as it was. Taking a cell, marking one failed or drawn from headroom,
releasing cells, placing a copy in an egress queue, releasing one, admitting the copies of a frame, a frame decided at ingress by a rule
that keeps the buffer sound, and a reclaim by the leak auditor all leave it sound. -/
def Obligations.ThePacketBufferKeepsItsCells : Prop :=
  ∀ d : Dev, d.buf.Sound →
    bufFree d + d.buf.cells.length + d.buf.retired.length = 2097152
    ∧ (∀ arr n cs t, allocFrame d arr n = some (cs, t) → t.buf.Sound ∧ cs.length = n ∧ Allocated d cs t)
    ∧ (∀ h c, (holdCell h d c).buf.Sound)
    ∧ (∀ c, (failCell d c).buf.Sound ∧ (markHead d c).buf.Sound)
    ∧ (∀ h cs, (releaseCells d h cs).buf.Sound)
    ∧ (∀ n q x, (placeCopy d n q x).buf.Sound ∧ (releaseCopy d n q x).buf.Sound)
    ∧ (∀ arr lossless charge dests pcp, (admitCopies d arr lossless charge dests pcp).buf.Sound)
    ∧ (∀ arr vc bytes owed f, (∀ u : Dev, u.buf.Sound → (f u).buf.Sound) → (ingress d arr vc bytes owed f).buf.Sound)
    ∧ (∀ h c, (reclaimCell h d c).buf.Sound)

end
end

