-- ==== Sys2Proof/Laws/Table.lean ====
section
/-! SUPPORT. Laws of tables and byte memories: what is read after a write, and that every operation keeps the canonical form. -/

namespace Sys2Proof.Machine

variable {α : Type}

theorem Tbl.find?_put_same (t : Tbl α) (x : Nat) (v : α) : Tbl.find? (Tbl.put t x v) x = some v := by
  induction t with
  | nil => simp [Tbl.put, Tbl.find?]
  | cons p t ih =>
    obtain ⟨k, w⟩ := p
    by_cases h : x = k
    · simp [Tbl.put, Tbl.find?, h]
    · by_cases h2 : x < k
      · simp [Tbl.put, Tbl.find?, h, h2]
      · simp [Tbl.put, Tbl.find?, h, h2, ih]

theorem Tbl.find?_put_other (t : Tbl α) (x y : Nat) (v : α) (h : y ≠ x) :
    Tbl.find? (Tbl.put t x v) y = Tbl.find? t y := by
  induction t with
  | nil => simp [Tbl.put, Tbl.find?, h]
  | cons p t ih =>
    obtain ⟨k, w⟩ := p
    by_cases h1 : x = k
    · subst h1; simp [Tbl.put, Tbl.find?, h]
    · by_cases h2 : x < k
      · simp [Tbl.put, Tbl.find?, h1, h2, h]
      · simp [Tbl.put, Tbl.find?, h1, h2, ih]

theorem Tbl.find?_erase_same (t : Tbl α) (x : Nat) : Tbl.find? (Tbl.erase t x) x = none := by
  induction t with
  | nil => rfl
  | cons p t ih =>
    obtain ⟨k, w⟩ := p
    by_cases h : k = x
    · simp [Tbl.erase, h]; simpa [Tbl.erase] using ih
    · have h' : ¬x = k := fun e => h e.symm
      simp [Tbl.erase, h, Tbl.find?, h']; simpa [Tbl.erase] using ih

theorem Tbl.find?_erase_other (t : Tbl α) (x y : Nat) (h : y ≠ x) :
    Tbl.find? (Tbl.erase t x) y = Tbl.find? t y := by
  induction t with
  | nil => rfl
  | cons p t ih =>
    obtain ⟨k, w⟩ := p
    by_cases h1 : k = x
    · have h2 : ¬y = k := fun e => h (e.trans h1)
      simp [Tbl.erase, h1, Tbl.find?, h]; simpa [Tbl.erase] using ih
    · by_cases h2 : y = k
      · simp [Tbl.erase, h1, Tbl.find?, h2]
      · simp [Tbl.erase, h1, Tbl.find?, h2]; simpa [Tbl.erase] using ih

/-- A table reads what was written there. -/
@[simp] theorem Tbl.get_set_same [DecidableEq α] (t : Tbl α) (d : α) (x : Nat) (v : α) :
    Tbl.get (Tbl.set t d x v) d x = v := by
  unfold Tbl.set Tbl.get
  split
  · rename_i h; simp [Tbl.find?_erase_same, h]
  · simp [Tbl.find?_put_same]

/-- A write leaves every other key alone. -/
theorem Tbl.get_set_other [DecidableEq α] (t : Tbl α) (d : α) (x y : Nat) (v : α) (h : y ≠ x) :
    Tbl.get (Tbl.set t d x v) d y = Tbl.get t d y := by
  unfold Tbl.set Tbl.get
  split
  · simp [Tbl.find?_erase_other _ _ _ h]
  · simp [Tbl.find?_put_other _ _ _ _ h]

/-- A byte of memory after a write of one byte. -/
theorem Mem.read_write (m : Mem) (d : Byte) (a b : Nat) (v : Byte) :
    Mem.read (Mem.write m d a v) d b = if b = a then v else Mem.read m d b := by
  by_cases h : b = a
  · subst h; simp [Mem.read, Mem.write]
  · simp [Mem.read, Mem.write, h, Tbl.get_set_other]

/-- A byte outside a written range reads as before. -/
theorem Mem.read_writeN_outside (bs : List Byte) (m : Mem) (d : Byte) (a b : Nat) (h : b < a ∨ a + bs.length ≤ b) :
    Mem.read (Mem.writeN m d a bs) d b = Mem.read m d b := by
  induction bs generalizing m a with
  | nil => rfl
  | cons x xs ih =>
    have hb : b ≠ a := by
      rcases h with h | h
      · omega
      · simp at h; omega
    have h' : b < a + 1 ∨ a + 1 + xs.length ≤ b := by
      rcases h with h | h
      · omega
      · right; simp at h; omega
    rw [Mem.writeN, ih _ _ h', Mem.read_write, if_neg hb]

/-- A byte inside a written range reads as the byte written there. -/
theorem Mem.read_writeN_inside (bs : List Byte) (m : Mem) (d : Byte) (a i : Nat) (h : i < bs.length) :
    Mem.read (Mem.writeN m d a bs) d (a + i) = bs[i] := by
  induction bs generalizing m a i with
  | nil => simp at h
  | cons x xs ih =>
    cases i with
    | zero =>
      rw [Mem.writeN, Mem.read_writeN_outside _ _ _ _ _ (Or.inl (by omega)), Mem.read_write]
      simp
    | succ j =>
      have hj : j < xs.length := by simpa using h
      have := ih (Mem.write m d a x) (a + 1) j hj
      rw [Mem.writeN, show a + (j + 1) = a + 1 + j by omega, this]
      rfl

/-- What the canonical form says: keys rise strictly and no entry holds the unlisted value. -/
theorem Tbl.wf_iff [DecidableEq α] (d : α) (t : Tbl α) :
    Tbl.wf d t = true ↔ List.Pairwise (fun p q => p.1 < q.1) t ∧ ∀ p ∈ t, p.2 ≠ d := by
  induction t with
  | nil => simp [Tbl.wf]
  | cons p t ih =>
    cases t with
    | nil => obtain ⟨k, v⟩ := p; simp [Tbl.wf]
    | cons q t =>
      obtain ⟨k, v⟩ := p
      obtain ⟨k', v'⟩ := q
      rw [Tbl.wf, Bool.and_eq_true, Bool.and_eq_true, ih]
      constructor
      · rintro ⟨⟨hv, hk⟩, hp, hd⟩
        have hv : v ≠ d := by simpa using hv
        have hk : k < k' := by simpa using hk
        refine ⟨List.pairwise_cons.mpr ⟨?_, hp⟩, ?_⟩
        · intro r hr
          rcases List.mem_cons.mp hr with h | h
          · subst h; exact hk
          · exact Nat.lt_trans hk ((List.pairwise_cons.mp hp).1 r h)
        · intro r hr
          rcases List.mem_cons.mp hr with h | h
          · subst h; exact hv
          · exact hd r h
      · rintro ⟨hp, hd⟩
        have h1 := List.pairwise_cons.mp hp
        refine ⟨⟨?_, ?_⟩, h1.2, fun r hr => hd r (List.mem_cons_of_mem _ hr)⟩
        · simpa using hd (k, v) (List.mem_cons_self ..)
        · simpa using h1.1 (k', v') (List.mem_cons_self ..)

theorem Tbl.mem_put (t : Tbl α) (x : Nat) (v : α) (p : Nat × α) (h : p ∈ Tbl.put t x v) : p = (x, v) ∨ p ∈ t := by
  induction t with
  | nil => simpa [Tbl.put] using h
  | cons q t ih =>
    obtain ⟨k, w⟩ := q
    unfold Tbl.put at h
    split at h
    · rename_i e; subst e
      rcases List.mem_cons.mp h with h | h
      · exact .inl h
      · exact .inr (List.mem_cons_of_mem _ h)
    · split at h
      · rcases List.mem_cons.mp h with h | h
        · exact .inl h
        · exact .inr h
      · rcases List.mem_cons.mp h with h | h
        · exact .inr (h ▸ List.mem_cons_self ..)
        · rcases ih h with h | h
          · exact .inl h
          · exact .inr (List.mem_cons_of_mem _ h)

theorem Tbl.pairwise_put (t : Tbl α) (x : Nat) (v : α) (h : List.Pairwise (fun p q => p.1 < q.1) t) :
    List.Pairwise (fun p q => p.1 < q.1) (Tbl.put t x v) := by
  induction t with
  | nil => simp [Tbl.put]
  | cons q t ih =>
    obtain ⟨k, w⟩ := q
    have hc := List.pairwise_cons.mp h
    unfold Tbl.put
    split
    · exact List.pairwise_cons.mpr ⟨hc.1, hc.2⟩
    · split
      · rename_i hlt
        refine List.pairwise_cons.mpr ⟨?_, h⟩
        intro r hr
        rcases List.mem_cons.mp hr with e | e
        · subst e; exact hlt
        · exact Nat.lt_trans hlt (hc.1 r e)
      · rename_i hne hnl
        refine List.pairwise_cons.mpr ⟨?_, ih hc.2⟩
        intro r hr
        rcases Tbl.mem_put t x v r hr with e | e
        · subst e
          have h1 : x ≠ k := hne
          have h2 : ¬x < k := hnl
          show k < x
          omega
        · exact hc.1 r e

/-- Writing one entry keeps the canonical form. -/
theorem Tbl.wf_set [DecidableEq α] (t : Tbl α) (d : α) (x : Nat) (v : α) (h : Tbl.wf d t = true) :
    Tbl.wf d (Tbl.set t d x v) = true := by
  rw [Tbl.wf_iff] at h ⊢
  unfold Tbl.set
  split
  · exact ⟨h.1.filter _, fun p hp => h.2 p (List.mem_filter.mp hp).1⟩
  · rename_i hv
    refine ⟨Tbl.pairwise_put t x v h.1, fun p hp => ?_⟩
    rcases Tbl.mem_put t x v p hp with e | e
    · subst e; exact hv
    · exact h.2 p e

/-- Dropping entries keeps the canonical form. -/
theorem Tbl.wf_filter [DecidableEq α] (t : Tbl α) (d : α) (f : Nat × α → Bool) (h : Tbl.wf d t = true) :
    Tbl.wf d (t.filter f) = true := by
  rw [Tbl.wf_iff] at h ⊢
  exact ⟨h.1.filter _, fun p hp => h.2 p (List.mem_filter.mp hp).1⟩

/-- Every memory operation keeps the canonical form. -/
theorem Mem.wf_write (m : Mem) (d : Byte) (a : Nat) (v : Byte) (h : Mem.wf d m = true) :
    Mem.wf d (Mem.write m d a v) = true := Tbl.wf_set m d a v h

theorem Mem.wf_writeN (bs : List Byte) (m : Mem) (d : Byte) (a : Nat) (h : Mem.wf d m = true) :
    Mem.wf d (Mem.writeN m d a bs) = true := by
  induction bs generalizing m a with
  | nil => exact h
  | cons x xs ih => exact ih _ _ (Mem.wf_write m d a x h)

theorem Mem.wf_writeNat (m : Mem) (d : Byte) (a n v : Nat) (h : Mem.wf d m = true) :
    Mem.wf d (Mem.writeNat m d a n v) = true := Mem.wf_writeN _ m d a h

theorem Mem.wf_clear (m : Mem) (d : Byte) (a n : Nat) (h : Mem.wf d m = true) :
    Mem.wf d (Mem.clear m a n) = true := Tbl.wf_filter m d _ h

/-- The number of bytes written is the number asked for. -/
@[simp] theorem toBytes_length (n v : Nat) : (toBytes n v).length = n := by
  induction n generalizing v with
  | zero => rfl
  | succ n ih => simp [toBytes, ih]

/-- The number of bytes read is the number asked for. -/
@[simp] theorem Mem.readN_length (m : Mem) (d : Byte) (a n : Nat) : (Mem.readN m d a n).length = n := by
  induction n generalizing a with
  | zero => rfl
  | succ n ih => simp [Mem.readN, ih]

/-- Byte `i` of a read. -/
theorem Mem.readN_getElem (m : Mem) (d : Byte) (a n i : Nat) (h : i < (Mem.readN m d a n).length) :
    (Mem.readN m d a n)[i] = Mem.read m d (a + i) := by
  induction n generalizing a i with
  | zero => simp at h
  | succ n ih =>
    cases i with
    | zero => simp [Mem.readN]
    | succ j =>
      simp only [Mem.readN, List.getElem_cons_succ]
      rw [ih (a + 1) j (by simpa using h), show a + 1 + j = a + (j + 1) by omega]

/-- Bytes written read back. -/
theorem Mem.readN_writeN (m : Mem) (d : Byte) (a : Nat) (bs : List Byte) :
    Mem.readN (Mem.writeN m d a bs) d a bs.length = bs := by
  apply List.ext_getElem
  · simp
  · intro i h1 h2
    rw [Mem.readN_getElem, Mem.read_writeN_inside _ _ _ _ _ h2]

/-- A range clear of what is written reads as before. -/
theorem Mem.readN_writeN_outside (m : Mem) (d : Byte) (b : Nat) (bs : List Byte) (n a : Nat) (h : a + n ≤ b ∨ b + bs.length ≤ a) :
    Mem.readN (Mem.writeN m d b bs) d a n = Mem.readN m d a n := by
  induction n generalizing a with
  | zero => rfl
  | succ n ih => simp only [Mem.readN]; rw [Mem.read_writeN_outside _ _ _ _ _ (by omega), ih _ (by omega)]

/-- A number clear of what is written reads as before. -/
theorem Mem.readNat_writeNat_outside (m : Mem) (d : Byte) (b k v a n : Nat) (h : a + n ≤ b ∨ b + k ≤ a) :
    Mem.readNat (Mem.writeNat m d b k v) d a n = Mem.readNat m d a n := by
  unfold Mem.readNat Mem.writeNat
  rw [Mem.readN_writeN_outside _ _ _ _ _ _ (by rwa [toBytes_length])]

/-- A number's little-endian bytes read back as the number, modulo their width. -/
theorem ofBytes_toBytes (n v : Nat) : ofBytes (toBytes n v) = v % 256 ^ n := by
  induction n generalizing v with
  | zero => simp [toBytes, ofBytes, Nat.mod_one]
  | succ n ih =>
    simp only [toBytes, ofBytes, ih, BitVec.toNat_ofNat]
    rw [show 256 ^ (n + 1) = 256 * 256 ^ n by rw [Nat.pow_succ, Nat.mul_comm], Nat.mod_mul]

/-- A number written reads back, modulo its width. -/
theorem Mem.readNat_writeNat (m : Mem) (d : Byte) (a n v : Nat) :
    Mem.readNat (Mem.writeNat m d a n v) d a n = v % 256 ^ n := by
  have h := Mem.readN_writeN m d a (toBytes n v)
  rw [toBytes_length] at h
  rw [Mem.readNat, Mem.writeNat, h, ofBytes_toBytes]

end Sys2Proof.Machine
end

