-- ==== Sys2Proof/Laws/State.lean ====
section
/-! SUPPORT. What each update of the device leaves alone, field by field, and what the accessors read after an update: no later proof
unfolds a record update. -/

namespace Sys2Proof.Machine


@[simp] theorem Dev.setGrove_cycle (d : Dev) (g : Nat) (v : Grove) : (d.setGrove g v).cycle = d.cycle := rfl
@[simp] theorem Dev.setGrove_tick (d : Dev) (g : Nat) (v : Grove) : (d.setGrove g v).tick = d.tick := rfl
@[simp] theorem Dev.setGrove_boot (d : Dev) (g : Nat) (v : Grove) : (d.setGrove g v).boot = d.boot := rfl
@[simp] theorem Dev.setGrove_dict (d : Dev) (g : Nat) (v : Grove) : (d.setGrove g v).dict = d.dict := rfl
@[simp] theorem Dev.setGrove_chans (d : Dev) (g : Nat) (v : Grove) : (d.setGrove g v).chans = d.chans := rfl
@[simp] theorem Dev.setGrove_slots (d : Dev) (g : Nat) (v : Grove) : (d.setGrove g v).slots = d.slots := rfl
@[simp] theorem Dev.setGrove_peers (d : Dev) (g : Nat) (v : Grove) : (d.setGrove g v).peers = d.peers := rfl
@[simp] theorem Dev.setGrove_evt (d : Dev) (g : Nat) (v : Grove) : (d.setGrove g v).evt = d.evt := rfl
@[simp] theorem Dev.setGrove_spares (d : Dev) (g : Nat) (v : Grove) : (d.setGrove g v).spares = d.spares := rfl
@[simp] theorem Dev.setGrove_scale (d : Dev) (g : Nat) (v : Grove) : (d.setGrove g v).scale = d.scale := rfl
@[simp] theorem Dev.setGrove_buf (d : Dev) (g : Nat) (v : Grove) : (d.setGrove g v).buf = d.buf := rfl
@[simp] theorem Dev.setGrove_sw (d : Dev) (g : Nat) (v : Grove) : (d.setGrove g v).sw = d.sw := rfl
@[simp] theorem Dev.setGrove_colls (d : Dev) (g : Nat) (v : Grove) : (d.setGrove g v).colls = d.colls := rfl
@[simp] theorem Dev.setGrove_mem (d : Dev) (g : Nat) (v : Grove) : (d.setGrove g v).mem = d.mem := rfl
@[simp] theorem Dev.setGrove_pace (d : Dev) (g : Nat) (v : Grove) : (d.setGrove g v).pace = d.pace := rfl
@[simp] theorem Dev.setGrove_modes (d : Dev) (g : Nat) (v : Grove) : (d.setGrove g v).modes = d.modes := rfl
@[simp] theorem Dev.setGrove_health (d : Dev) (g : Nat) (v : Grove) : (d.setGrove g v).health = d.health := rfl
@[simp] theorem Dev.setGrove_loads (d : Dev) (g : Nat) (v : Grove) : (d.setGrove g v).loads = d.loads := rfl
@[simp] theorem Dev.setGrove_marks (d : Dev) (g : Nat) (v : Grove) : (d.setGrove g v).marks = d.marks := rfl
@[simp] theorem Dev.setGrove_freeIx (d : Dev) (g : Nat) (v : Grove) : (d.setGrove g v).freeIx = d.freeIx := rfl
@[simp] theorem Dev.setGrove_out (d : Dev) (g : Nat) (v : Grove) : (d.setGrove g v).out = d.out := rfl

@[simp] theorem Dev.setLink_cycle (d : Dev) (n : Nat) (v : Link) : (d.setLink n v).cycle = d.cycle := rfl
@[simp] theorem Dev.setLink_tick (d : Dev) (n : Nat) (v : Link) : (d.setLink n v).tick = d.tick := rfl
@[simp] theorem Dev.setLink_boot (d : Dev) (n : Nat) (v : Link) : (d.setLink n v).boot = d.boot := rfl
@[simp] theorem Dev.setLink_dict (d : Dev) (n : Nat) (v : Link) : (d.setLink n v).dict = d.dict := rfl
@[simp] theorem Dev.setLink_chans (d : Dev) (n : Nat) (v : Link) : (d.setLink n v).chans = d.chans := rfl
@[simp] theorem Dev.setLink_slots (d : Dev) (n : Nat) (v : Link) : (d.setLink n v).slots = d.slots := rfl
@[simp] theorem Dev.setLink_peers (d : Dev) (n : Nat) (v : Link) : (d.setLink n v).peers = d.peers := rfl
@[simp] theorem Dev.setLink_evt (d : Dev) (n : Nat) (v : Link) : (d.setLink n v).evt = d.evt := rfl
@[simp] theorem Dev.setLink_groves (d : Dev) (n : Nat) (v : Link) : (d.setLink n v).groves = d.groves := rfl
@[simp] theorem Dev.setLink_spares (d : Dev) (n : Nat) (v : Link) : (d.setLink n v).spares = d.spares := rfl
@[simp] theorem Dev.setLink_scale (d : Dev) (n : Nat) (v : Link) : (d.setLink n v).scale = d.scale := rfl
@[simp] theorem Dev.setLink_buf (d : Dev) (n : Nat) (v : Link) : (d.setLink n v).buf = d.buf := rfl
@[simp] theorem Dev.setLink_colls (d : Dev) (n : Nat) (v : Link) : (d.setLink n v).colls = d.colls := rfl
@[simp] theorem Dev.setLink_mem (d : Dev) (n : Nat) (v : Link) : (d.setLink n v).mem = d.mem := rfl
@[simp] theorem Dev.setLink_pace (d : Dev) (n : Nat) (v : Link) : (d.setLink n v).pace = d.pace := rfl
@[simp] theorem Dev.setLink_modes (d : Dev) (n : Nat) (v : Link) : (d.setLink n v).modes = d.modes := rfl
@[simp] theorem Dev.setLink_health (d : Dev) (n : Nat) (v : Link) : (d.setLink n v).health = d.health := rfl
@[simp] theorem Dev.setLink_loads (d : Dev) (n : Nat) (v : Link) : (d.setLink n v).loads = d.loads := rfl
@[simp] theorem Dev.setLink_marks (d : Dev) (n : Nat) (v : Link) : (d.setLink n v).marks = d.marks := rfl
@[simp] theorem Dev.setLink_freeIx (d : Dev) (n : Nat) (v : Link) : (d.setLink n v).freeIx = d.freeIx := rfl
@[simp] theorem Dev.setLink_out (d : Dev) (n : Nat) (v : Link) : (d.setLink n v).out = d.out := rfl

@[simp] theorem Dev.setEq_cycle (d : Dev) (n q : Nat) (v : EQueue) : (d.setEq n q v).cycle = d.cycle := rfl
@[simp] theorem Dev.setEq_tick (d : Dev) (n q : Nat) (v : EQueue) : (d.setEq n q v).tick = d.tick := rfl
@[simp] theorem Dev.setEq_boot (d : Dev) (n q : Nat) (v : EQueue) : (d.setEq n q v).boot = d.boot := rfl
@[simp] theorem Dev.setEq_dict (d : Dev) (n q : Nat) (v : EQueue) : (d.setEq n q v).dict = d.dict := rfl
@[simp] theorem Dev.setEq_chans (d : Dev) (n q : Nat) (v : EQueue) : (d.setEq n q v).chans = d.chans := rfl
@[simp] theorem Dev.setEq_slots (d : Dev) (n q : Nat) (v : EQueue) : (d.setEq n q v).slots = d.slots := rfl
@[simp] theorem Dev.setEq_peers (d : Dev) (n q : Nat) (v : EQueue) : (d.setEq n q v).peers = d.peers := rfl
@[simp] theorem Dev.setEq_evt (d : Dev) (n q : Nat) (v : EQueue) : (d.setEq n q v).evt = d.evt := rfl
@[simp] theorem Dev.setEq_groves (d : Dev) (n q : Nat) (v : EQueue) : (d.setEq n q v).groves = d.groves := rfl
@[simp] theorem Dev.setEq_spares (d : Dev) (n q : Nat) (v : EQueue) : (d.setEq n q v).spares = d.spares := rfl
@[simp] theorem Dev.setEq_scale (d : Dev) (n q : Nat) (v : EQueue) : (d.setEq n q v).scale = d.scale := rfl
@[simp] theorem Dev.setEq_buf (d : Dev) (n q : Nat) (v : EQueue) : (d.setEq n q v).buf = d.buf := rfl
@[simp] theorem Dev.setEq_colls (d : Dev) (n q : Nat) (v : EQueue) : (d.setEq n q v).colls = d.colls := rfl
@[simp] theorem Dev.setEq_mem (d : Dev) (n q : Nat) (v : EQueue) : (d.setEq n q v).mem = d.mem := rfl
@[simp] theorem Dev.setEq_pace (d : Dev) (n q : Nat) (v : EQueue) : (d.setEq n q v).pace = d.pace := rfl
@[simp] theorem Dev.setEq_modes (d : Dev) (n q : Nat) (v : EQueue) : (d.setEq n q v).modes = d.modes := rfl
@[simp] theorem Dev.setEq_health (d : Dev) (n q : Nat) (v : EQueue) : (d.setEq n q v).health = d.health := rfl
@[simp] theorem Dev.setEq_loads (d : Dev) (n q : Nat) (v : EQueue) : (d.setEq n q v).loads = d.loads := rfl
@[simp] theorem Dev.setEq_marks (d : Dev) (n q : Nat) (v : EQueue) : (d.setEq n q v).marks = d.marks := rfl
@[simp] theorem Dev.setEq_freeIx (d : Dev) (n q : Nat) (v : EQueue) : (d.setEq n q v).freeIx = d.freeIx := rfl
@[simp] theorem Dev.setEq_out (d : Dev) (n q : Nat) (v : EQueue) : (d.setEq n q v).out = d.out := rfl

@[simp] theorem Dev.setSched_cycle (d : Dev) (n : Nat) (v : Sched) : (d.setSched n v).cycle = d.cycle := rfl
@[simp] theorem Dev.setSched_tick (d : Dev) (n : Nat) (v : Sched) : (d.setSched n v).tick = d.tick := rfl
@[simp] theorem Dev.setSched_boot (d : Dev) (n : Nat) (v : Sched) : (d.setSched n v).boot = d.boot := rfl
@[simp] theorem Dev.setSched_dict (d : Dev) (n : Nat) (v : Sched) : (d.setSched n v).dict = d.dict := rfl
@[simp] theorem Dev.setSched_chans (d : Dev) (n : Nat) (v : Sched) : (d.setSched n v).chans = d.chans := rfl
@[simp] theorem Dev.setSched_slots (d : Dev) (n : Nat) (v : Sched) : (d.setSched n v).slots = d.slots := rfl
@[simp] theorem Dev.setSched_peers (d : Dev) (n : Nat) (v : Sched) : (d.setSched n v).peers = d.peers := rfl
@[simp] theorem Dev.setSched_evt (d : Dev) (n : Nat) (v : Sched) : (d.setSched n v).evt = d.evt := rfl
@[simp] theorem Dev.setSched_groves (d : Dev) (n : Nat) (v : Sched) : (d.setSched n v).groves = d.groves := rfl
@[simp] theorem Dev.setSched_spares (d : Dev) (n : Nat) (v : Sched) : (d.setSched n v).spares = d.spares := rfl
@[simp] theorem Dev.setSched_scale (d : Dev) (n : Nat) (v : Sched) : (d.setSched n v).scale = d.scale := rfl
@[simp] theorem Dev.setSched_buf (d : Dev) (n : Nat) (v : Sched) : (d.setSched n v).buf = d.buf := rfl
@[simp] theorem Dev.setSched_colls (d : Dev) (n : Nat) (v : Sched) : (d.setSched n v).colls = d.colls := rfl
@[simp] theorem Dev.setSched_mem (d : Dev) (n : Nat) (v : Sched) : (d.setSched n v).mem = d.mem := rfl
@[simp] theorem Dev.setSched_pace (d : Dev) (n : Nat) (v : Sched) : (d.setSched n v).pace = d.pace := rfl
@[simp] theorem Dev.setSched_modes (d : Dev) (n : Nat) (v : Sched) : (d.setSched n v).modes = d.modes := rfl
@[simp] theorem Dev.setSched_health (d : Dev) (n : Nat) (v : Sched) : (d.setSched n v).health = d.health := rfl
@[simp] theorem Dev.setSched_loads (d : Dev) (n : Nat) (v : Sched) : (d.setSched n v).loads = d.loads := rfl
@[simp] theorem Dev.setSched_marks (d : Dev) (n : Nat) (v : Sched) : (d.setSched n v).marks = d.marks := rfl
@[simp] theorem Dev.setSched_freeIx (d : Dev) (n : Nat) (v : Sched) : (d.setSched n v).freeIx = d.freeIx := rfl
@[simp] theorem Dev.setSched_out (d : Dev) (n : Nat) (v : Sched) : (d.setSched n v).out = d.out := rfl

@[simp] theorem Dev.setChan_cycle (d : Dev) (c : Nat) (v : Chan) : (d.setChan c v).cycle = d.cycle := rfl
@[simp] theorem Dev.setChan_tick (d : Dev) (c : Nat) (v : Chan) : (d.setChan c v).tick = d.tick := rfl
@[simp] theorem Dev.setChan_boot (d : Dev) (c : Nat) (v : Chan) : (d.setChan c v).boot = d.boot := rfl
@[simp] theorem Dev.setChan_dict (d : Dev) (c : Nat) (v : Chan) : (d.setChan c v).dict = d.dict := rfl
@[simp] theorem Dev.setChan_slots (d : Dev) (c : Nat) (v : Chan) : (d.setChan c v).slots = d.slots := rfl
@[simp] theorem Dev.setChan_peers (d : Dev) (c : Nat) (v : Chan) : (d.setChan c v).peers = d.peers := rfl
@[simp] theorem Dev.setChan_evt (d : Dev) (c : Nat) (v : Chan) : (d.setChan c v).evt = d.evt := rfl
@[simp] theorem Dev.setChan_groves (d : Dev) (c : Nat) (v : Chan) : (d.setChan c v).groves = d.groves := rfl
@[simp] theorem Dev.setChan_spares (d : Dev) (c : Nat) (v : Chan) : (d.setChan c v).spares = d.spares := rfl
@[simp] theorem Dev.setChan_scale (d : Dev) (c : Nat) (v : Chan) : (d.setChan c v).scale = d.scale := rfl
@[simp] theorem Dev.setChan_buf (d : Dev) (c : Nat) (v : Chan) : (d.setChan c v).buf = d.buf := rfl
@[simp] theorem Dev.setChan_sw (d : Dev) (c : Nat) (v : Chan) : (d.setChan c v).sw = d.sw := rfl
@[simp] theorem Dev.setChan_colls (d : Dev) (c : Nat) (v : Chan) : (d.setChan c v).colls = d.colls := rfl
@[simp] theorem Dev.setChan_mem (d : Dev) (c : Nat) (v : Chan) : (d.setChan c v).mem = d.mem := rfl
@[simp] theorem Dev.setChan_pace (d : Dev) (c : Nat) (v : Chan) : (d.setChan c v).pace = d.pace := rfl
@[simp] theorem Dev.setChan_modes (d : Dev) (c : Nat) (v : Chan) : (d.setChan c v).modes = d.modes := rfl
@[simp] theorem Dev.setChan_health (d : Dev) (c : Nat) (v : Chan) : (d.setChan c v).health = d.health := rfl
@[simp] theorem Dev.setChan_loads (d : Dev) (c : Nat) (v : Chan) : (d.setChan c v).loads = d.loads := rfl
@[simp] theorem Dev.setChan_marks (d : Dev) (c : Nat) (v : Chan) : (d.setChan c v).marks = d.marks := rfl
@[simp] theorem Dev.setChan_freeIx (d : Dev) (c : Nat) (v : Chan) : (d.setChan c v).freeIx = d.freeIx := rfl
@[simp] theorem Dev.setChan_out (d : Dev) (c : Nat) (v : Chan) : (d.setChan c v).out = d.out := rfl

@[simp] theorem Dev.setSlot_cycle (d : Dev) (n : Fin 8) (v : Slot) : (d.setSlot n v).cycle = d.cycle := rfl
@[simp] theorem Dev.setSlot_tick (d : Dev) (n : Fin 8) (v : Slot) : (d.setSlot n v).tick = d.tick := rfl
@[simp] theorem Dev.setSlot_boot (d : Dev) (n : Fin 8) (v : Slot) : (d.setSlot n v).boot = d.boot := rfl
@[simp] theorem Dev.setSlot_dict (d : Dev) (n : Fin 8) (v : Slot) : (d.setSlot n v).dict = d.dict := rfl
@[simp] theorem Dev.setSlot_chans (d : Dev) (n : Fin 8) (v : Slot) : (d.setSlot n v).chans = d.chans := rfl
@[simp] theorem Dev.setSlot_peers (d : Dev) (n : Fin 8) (v : Slot) : (d.setSlot n v).peers = d.peers := rfl
@[simp] theorem Dev.setSlot_evt (d : Dev) (n : Fin 8) (v : Slot) : (d.setSlot n v).evt = d.evt := rfl
@[simp] theorem Dev.setSlot_groves (d : Dev) (n : Fin 8) (v : Slot) : (d.setSlot n v).groves = d.groves := rfl
@[simp] theorem Dev.setSlot_spares (d : Dev) (n : Fin 8) (v : Slot) : (d.setSlot n v).spares = d.spares := rfl
@[simp] theorem Dev.setSlot_scale (d : Dev) (n : Fin 8) (v : Slot) : (d.setSlot n v).scale = d.scale := rfl
@[simp] theorem Dev.setSlot_buf (d : Dev) (n : Fin 8) (v : Slot) : (d.setSlot n v).buf = d.buf := rfl
@[simp] theorem Dev.setSlot_sw (d : Dev) (n : Fin 8) (v : Slot) : (d.setSlot n v).sw = d.sw := rfl
@[simp] theorem Dev.setSlot_colls (d : Dev) (n : Fin 8) (v : Slot) : (d.setSlot n v).colls = d.colls := rfl
@[simp] theorem Dev.setSlot_mem (d : Dev) (n : Fin 8) (v : Slot) : (d.setSlot n v).mem = d.mem := rfl
@[simp] theorem Dev.setSlot_pace (d : Dev) (n : Fin 8) (v : Slot) : (d.setSlot n v).pace = d.pace := rfl
@[simp] theorem Dev.setSlot_modes (d : Dev) (n : Fin 8) (v : Slot) : (d.setSlot n v).modes = d.modes := rfl
@[simp] theorem Dev.setSlot_health (d : Dev) (n : Fin 8) (v : Slot) : (d.setSlot n v).health = d.health := rfl
@[simp] theorem Dev.setSlot_loads (d : Dev) (n : Fin 8) (v : Slot) : (d.setSlot n v).loads = d.loads := rfl
@[simp] theorem Dev.setSlot_marks (d : Dev) (n : Fin 8) (v : Slot) : (d.setSlot n v).marks = d.marks := rfl
@[simp] theorem Dev.setSlot_freeIx (d : Dev) (n : Fin 8) (v : Slot) : (d.setSlot n v).freeIx = d.freeIx := rfl
@[simp] theorem Dev.setSlot_out (d : Dev) (n : Fin 8) (v : Slot) : (d.setSlot n v).out = d.out := rfl

@[simp] theorem Dev.setCtx_cycle (d : Dev) (n : Nat) (v : ScaleCtx) : (d.setCtx n v).cycle = d.cycle := rfl
@[simp] theorem Dev.setCtx_tick (d : Dev) (n : Nat) (v : ScaleCtx) : (d.setCtx n v).tick = d.tick := rfl
@[simp] theorem Dev.setCtx_boot (d : Dev) (n : Nat) (v : ScaleCtx) : (d.setCtx n v).boot = d.boot := rfl
@[simp] theorem Dev.setCtx_dict (d : Dev) (n : Nat) (v : ScaleCtx) : (d.setCtx n v).dict = d.dict := rfl
@[simp] theorem Dev.setCtx_chans (d : Dev) (n : Nat) (v : ScaleCtx) : (d.setCtx n v).chans = d.chans := rfl
@[simp] theorem Dev.setCtx_slots (d : Dev) (n : Nat) (v : ScaleCtx) : (d.setCtx n v).slots = d.slots := rfl
@[simp] theorem Dev.setCtx_peers (d : Dev) (n : Nat) (v : ScaleCtx) : (d.setCtx n v).peers = d.peers := rfl
@[simp] theorem Dev.setCtx_evt (d : Dev) (n : Nat) (v : ScaleCtx) : (d.setCtx n v).evt = d.evt := rfl
@[simp] theorem Dev.setCtx_groves (d : Dev) (n : Nat) (v : ScaleCtx) : (d.setCtx n v).groves = d.groves := rfl
@[simp] theorem Dev.setCtx_spares (d : Dev) (n : Nat) (v : ScaleCtx) : (d.setCtx n v).spares = d.spares := rfl
@[simp] theorem Dev.setCtx_buf (d : Dev) (n : Nat) (v : ScaleCtx) : (d.setCtx n v).buf = d.buf := rfl
@[simp] theorem Dev.setCtx_sw (d : Dev) (n : Nat) (v : ScaleCtx) : (d.setCtx n v).sw = d.sw := rfl
@[simp] theorem Dev.setCtx_colls (d : Dev) (n : Nat) (v : ScaleCtx) : (d.setCtx n v).colls = d.colls := rfl
@[simp] theorem Dev.setCtx_mem (d : Dev) (n : Nat) (v : ScaleCtx) : (d.setCtx n v).mem = d.mem := rfl
@[simp] theorem Dev.setCtx_pace (d : Dev) (n : Nat) (v : ScaleCtx) : (d.setCtx n v).pace = d.pace := rfl
@[simp] theorem Dev.setCtx_modes (d : Dev) (n : Nat) (v : ScaleCtx) : (d.setCtx n v).modes = d.modes := rfl
@[simp] theorem Dev.setCtx_health (d : Dev) (n : Nat) (v : ScaleCtx) : (d.setCtx n v).health = d.health := rfl
@[simp] theorem Dev.setCtx_loads (d : Dev) (n : Nat) (v : ScaleCtx) : (d.setCtx n v).loads = d.loads := rfl
@[simp] theorem Dev.setCtx_marks (d : Dev) (n : Nat) (v : ScaleCtx) : (d.setCtx n v).marks = d.marks := rfl
@[simp] theorem Dev.setCtx_freeIx (d : Dev) (n : Nat) (v : ScaleCtx) : (d.setCtx n v).freeIx = d.freeIx := rfl
@[simp] theorem Dev.setCtx_out (d : Dev) (n : Nat) (v : ScaleCtx) : (d.setCtx n v).out = d.out := rfl

@[simp] theorem Dev.wrD_cycle (d : Dev) (k i s r v : Nat) : (d.wrD k i s r v).cycle = d.cycle := rfl
@[simp] theorem Dev.wrD_tick (d : Dev) (k i s r v : Nat) : (d.wrD k i s r v).tick = d.tick := rfl
@[simp] theorem Dev.wrD_boot (d : Dev) (k i s r v : Nat) : (d.wrD k i s r v).boot = d.boot := rfl
@[simp] theorem Dev.wrD_chans (d : Dev) (k i s r v : Nat) : (d.wrD k i s r v).chans = d.chans := rfl
@[simp] theorem Dev.wrD_slots (d : Dev) (k i s r v : Nat) : (d.wrD k i s r v).slots = d.slots := rfl
@[simp] theorem Dev.wrD_peers (d : Dev) (k i s r v : Nat) : (d.wrD k i s r v).peers = d.peers := rfl
@[simp] theorem Dev.wrD_evt (d : Dev) (k i s r v : Nat) : (d.wrD k i s r v).evt = d.evt := rfl
@[simp] theorem Dev.wrD_groves (d : Dev) (k i s r v : Nat) : (d.wrD k i s r v).groves = d.groves := rfl
@[simp] theorem Dev.wrD_spares (d : Dev) (k i s r v : Nat) : (d.wrD k i s r v).spares = d.spares := rfl
@[simp] theorem Dev.wrD_scale (d : Dev) (k i s r v : Nat) : (d.wrD k i s r v).scale = d.scale := rfl
@[simp] theorem Dev.wrD_buf (d : Dev) (k i s r v : Nat) : (d.wrD k i s r v).buf = d.buf := rfl
@[simp] theorem Dev.wrD_sw (d : Dev) (k i s r v : Nat) : (d.wrD k i s r v).sw = d.sw := rfl
@[simp] theorem Dev.wrD_colls (d : Dev) (k i s r v : Nat) : (d.wrD k i s r v).colls = d.colls := rfl
@[simp] theorem Dev.wrD_mem (d : Dev) (k i s r v : Nat) : (d.wrD k i s r v).mem = d.mem := rfl
@[simp] theorem Dev.wrD_pace (d : Dev) (k i s r v : Nat) : (d.wrD k i s r v).pace = d.pace := rfl
@[simp] theorem Dev.wrD_modes (d : Dev) (k i s r v : Nat) : (d.wrD k i s r v).modes = d.modes := rfl
@[simp] theorem Dev.wrD_health (d : Dev) (k i s r v : Nat) : (d.wrD k i s r v).health = d.health := rfl
@[simp] theorem Dev.wrD_loads (d : Dev) (k i s r v : Nat) : (d.wrD k i s r v).loads = d.loads := rfl
@[simp] theorem Dev.wrD_marks (d : Dev) (k i s r v : Nat) : (d.wrD k i s r v).marks = d.marks := rfl
@[simp] theorem Dev.wrD_freeIx (d : Dev) (k i s r v : Nat) : (d.wrD k i s r v).freeIx = d.freeIx := rfl
@[simp] theorem Dev.wrD_out (d : Dev) (k i s r v : Nat) : (d.wrD k i s r v).out = d.out := rfl

@[simp] theorem Dev.inc_cycle (d : Dev) (i s r k : Nat) : (d.inc i s r k).cycle = d.cycle := rfl
@[simp] theorem Dev.inc_tick (d : Dev) (i s r k : Nat) : (d.inc i s r k).tick = d.tick := rfl
@[simp] theorem Dev.inc_boot (d : Dev) (i s r k : Nat) : (d.inc i s r k).boot = d.boot := rfl
@[simp] theorem Dev.inc_chans (d : Dev) (i s r k : Nat) : (d.inc i s r k).chans = d.chans := rfl
@[simp] theorem Dev.inc_slots (d : Dev) (i s r k : Nat) : (d.inc i s r k).slots = d.slots := rfl
@[simp] theorem Dev.inc_peers (d : Dev) (i s r k : Nat) : (d.inc i s r k).peers = d.peers := rfl
@[simp] theorem Dev.inc_evt (d : Dev) (i s r k : Nat) : (d.inc i s r k).evt = d.evt := rfl
@[simp] theorem Dev.inc_groves (d : Dev) (i s r k : Nat) : (d.inc i s r k).groves = d.groves := rfl
@[simp] theorem Dev.inc_spares (d : Dev) (i s r k : Nat) : (d.inc i s r k).spares = d.spares := rfl
@[simp] theorem Dev.inc_scale (d : Dev) (i s r k : Nat) : (d.inc i s r k).scale = d.scale := rfl
@[simp] theorem Dev.inc_buf (d : Dev) (i s r k : Nat) : (d.inc i s r k).buf = d.buf := rfl
@[simp] theorem Dev.inc_sw (d : Dev) (i s r k : Nat) : (d.inc i s r k).sw = d.sw := rfl
@[simp] theorem Dev.inc_colls (d : Dev) (i s r k : Nat) : (d.inc i s r k).colls = d.colls := rfl
@[simp] theorem Dev.inc_mem (d : Dev) (i s r k : Nat) : (d.inc i s r k).mem = d.mem := rfl
@[simp] theorem Dev.inc_pace (d : Dev) (i s r k : Nat) : (d.inc i s r k).pace = d.pace := rfl
@[simp] theorem Dev.inc_modes (d : Dev) (i s r k : Nat) : (d.inc i s r k).modes = d.modes := rfl
@[simp] theorem Dev.inc_health (d : Dev) (i s r k : Nat) : (d.inc i s r k).health = d.health := rfl
@[simp] theorem Dev.inc_loads (d : Dev) (i s r k : Nat) : (d.inc i s r k).loads = d.loads := rfl
@[simp] theorem Dev.inc_marks (d : Dev) (i s r k : Nat) : (d.inc i s r k).marks = d.marks := rfl
@[simp] theorem Dev.inc_freeIx (d : Dev) (i s r k : Nat) : (d.inc i s r k).freeIx = d.freeIx := rfl
@[simp] theorem Dev.inc_out (d : Dev) (i s r k : Nat) : (d.inc i s r k).out = d.out := rfl

@[simp] theorem Dev.send_cycle (d : Dev) (o : Out) : (d.send o).cycle = d.cycle := rfl
@[simp] theorem Dev.send_tick (d : Dev) (o : Out) : (d.send o).tick = d.tick := rfl
@[simp] theorem Dev.send_boot (d : Dev) (o : Out) : (d.send o).boot = d.boot := rfl
@[simp] theorem Dev.send_dict (d : Dev) (o : Out) : (d.send o).dict = d.dict := rfl
@[simp] theorem Dev.send_chans (d : Dev) (o : Out) : (d.send o).chans = d.chans := rfl
@[simp] theorem Dev.send_slots (d : Dev) (o : Out) : (d.send o).slots = d.slots := rfl
@[simp] theorem Dev.send_peers (d : Dev) (o : Out) : (d.send o).peers = d.peers := rfl
@[simp] theorem Dev.send_evt (d : Dev) (o : Out) : (d.send o).evt = d.evt := rfl
@[simp] theorem Dev.send_groves (d : Dev) (o : Out) : (d.send o).groves = d.groves := rfl
@[simp] theorem Dev.send_spares (d : Dev) (o : Out) : (d.send o).spares = d.spares := rfl
@[simp] theorem Dev.send_scale (d : Dev) (o : Out) : (d.send o).scale = d.scale := rfl
@[simp] theorem Dev.send_buf (d : Dev) (o : Out) : (d.send o).buf = d.buf := rfl
@[simp] theorem Dev.send_sw (d : Dev) (o : Out) : (d.send o).sw = d.sw := rfl
@[simp] theorem Dev.send_colls (d : Dev) (o : Out) : (d.send o).colls = d.colls := rfl
@[simp] theorem Dev.send_mem (d : Dev) (o : Out) : (d.send o).mem = d.mem := rfl
@[simp] theorem Dev.send_pace (d : Dev) (o : Out) : (d.send o).pace = d.pace := rfl
@[simp] theorem Dev.send_modes (d : Dev) (o : Out) : (d.send o).modes = d.modes := rfl
@[simp] theorem Dev.send_health (d : Dev) (o : Out) : (d.send o).health = d.health := rfl
@[simp] theorem Dev.send_loads (d : Dev) (o : Out) : (d.send o).loads = d.loads := rfl
@[simp] theorem Dev.send_marks (d : Dev) (o : Out) : (d.send o).marks = d.marks := rfl
@[simp] theorem Dev.send_freeIx (d : Dev) (o : Out) : (d.send o).freeIx = d.freeIx := rfl

@[simp] theorem Dev.addUtil_cycle (d : Dev) (g k n : Nat) : (d.addUtil g k n).cycle = d.cycle := rfl
@[simp] theorem Dev.addUtil_tick (d : Dev) (g k n : Nat) : (d.addUtil g k n).tick = d.tick := rfl
@[simp] theorem Dev.addUtil_boot (d : Dev) (g k n : Nat) : (d.addUtil g k n).boot = d.boot := rfl
@[simp] theorem Dev.addUtil_dict (d : Dev) (g k n : Nat) : (d.addUtil g k n).dict = d.dict := rfl
@[simp] theorem Dev.addUtil_chans (d : Dev) (g k n : Nat) : (d.addUtil g k n).chans = d.chans := rfl
@[simp] theorem Dev.addUtil_slots (d : Dev) (g k n : Nat) : (d.addUtil g k n).slots = d.slots := rfl
@[simp] theorem Dev.addUtil_peers (d : Dev) (g k n : Nat) : (d.addUtil g k n).peers = d.peers := rfl
@[simp] theorem Dev.addUtil_evt (d : Dev) (g k n : Nat) : (d.addUtil g k n).evt = d.evt := rfl
@[simp] theorem Dev.addUtil_groves (d : Dev) (g k n : Nat) : (d.addUtil g k n).groves = d.groves := rfl
@[simp] theorem Dev.addUtil_spares (d : Dev) (g k n : Nat) : (d.addUtil g k n).spares = d.spares := rfl
@[simp] theorem Dev.addUtil_scale (d : Dev) (g k n : Nat) : (d.addUtil g k n).scale = d.scale := rfl
@[simp] theorem Dev.addUtil_buf (d : Dev) (g k n : Nat) : (d.addUtil g k n).buf = d.buf := rfl
@[simp] theorem Dev.addUtil_sw (d : Dev) (g k n : Nat) : (d.addUtil g k n).sw = d.sw := rfl
@[simp] theorem Dev.addUtil_colls (d : Dev) (g k n : Nat) : (d.addUtil g k n).colls = d.colls := rfl
@[simp] theorem Dev.addUtil_mem (d : Dev) (g k n : Nat) : (d.addUtil g k n).mem = d.mem := rfl
@[simp] theorem Dev.addUtil_pace (d : Dev) (g k n : Nat) : (d.addUtil g k n).pace = d.pace := rfl
@[simp] theorem Dev.addUtil_modes (d : Dev) (g k n : Nat) : (d.addUtil g k n).modes = d.modes := rfl
@[simp] theorem Dev.addUtil_loads (d : Dev) (g k n : Nat) : (d.addUtil g k n).loads = d.loads := rfl
@[simp] theorem Dev.addUtil_marks (d : Dev) (g k n : Nat) : (d.addUtil g k n).marks = d.marks := rfl
@[simp] theorem Dev.addUtil_freeIx (d : Dev) (g k n : Nat) : (d.addUtil g k n).freeIx = d.freeIx := rfl
@[simp] theorem Dev.addUtil_out (d : Dev) (g k n : Nat) : (d.addUtil g k n).out = d.out := rfl

@[simp] theorem Dev.withClocks_cycle (d : Dev) (c : Nat) : (d.withClocks c).cycle = d.cycle := rfl
@[simp] theorem Dev.withClocks_tick (d : Dev) (c : Nat) : (d.withClocks c).tick = d.tick := rfl
@[simp] theorem Dev.withClocks_dict (d : Dev) (c : Nat) : (d.withClocks c).dict = d.dict := rfl
@[simp] theorem Dev.withClocks_chans (d : Dev) (c : Nat) : (d.withClocks c).chans = d.chans := rfl
@[simp] theorem Dev.withClocks_slots (d : Dev) (c : Nat) : (d.withClocks c).slots = d.slots := rfl
@[simp] theorem Dev.withClocks_peers (d : Dev) (c : Nat) : (d.withClocks c).peers = d.peers := rfl
@[simp] theorem Dev.withClocks_evt (d : Dev) (c : Nat) : (d.withClocks c).evt = d.evt := rfl
@[simp] theorem Dev.withClocks_groves (d : Dev) (c : Nat) : (d.withClocks c).groves = d.groves := rfl
@[simp] theorem Dev.withClocks_spares (d : Dev) (c : Nat) : (d.withClocks c).spares = d.spares := rfl
@[simp] theorem Dev.withClocks_scale (d : Dev) (c : Nat) : (d.withClocks c).scale = d.scale := rfl
@[simp] theorem Dev.withClocks_buf (d : Dev) (c : Nat) : (d.withClocks c).buf = d.buf := rfl
@[simp] theorem Dev.withClocks_sw (d : Dev) (c : Nat) : (d.withClocks c).sw = d.sw := rfl
@[simp] theorem Dev.withClocks_colls (d : Dev) (c : Nat) : (d.withClocks c).colls = d.colls := rfl
@[simp] theorem Dev.withClocks_mem (d : Dev) (c : Nat) : (d.withClocks c).mem = d.mem := rfl
@[simp] theorem Dev.withClocks_pace (d : Dev) (c : Nat) : (d.withClocks c).pace = d.pace := rfl
@[simp] theorem Dev.withClocks_modes (d : Dev) (c : Nat) : (d.withClocks c).modes = d.modes := rfl
@[simp] theorem Dev.withClocks_health (d : Dev) (c : Nat) : (d.withClocks c).health = d.health := rfl
@[simp] theorem Dev.withClocks_loads (d : Dev) (c : Nat) : (d.withClocks c).loads = d.loads := rfl
@[simp] theorem Dev.withClocks_marks (d : Dev) (c : Nat) : (d.withClocks c).marks = d.marks := rfl
@[simp] theorem Dev.withClocks_freeIx (d : Dev) (c : Nat) : (d.withClocks c).freeIx = d.freeIx := rfl
@[simp] theorem Dev.withClocks_out (d : Dev) (c : Nat) : (d.withClocks c).out = d.out := rfl

@[simp] theorem Grove.setFlag_phase (gr : Grove) (f : Nat) (x : Flag) : (gr.setFlag f x).phase = gr.phase := rfl
@[simp] theorem Grove.setFlag_pc (gr : Grove) (f : Nat) (x : Flag) : (gr.setFlag f x).pc = gr.pc := rfl
@[simp] theorem Grove.setFlag_bank (gr : Grove) (f : Nat) (x : Flag) : (gr.setFlag f x).bank = gr.bank := rfl
@[simp] theorem Grove.setFlag_ended (gr : Grove) (f : Nat) (x : Flag) : (gr.setFlag f x).ended = gr.ended := rfl
@[simp] theorem Grove.setFlag_stall (gr : Grove) (f : Nat) (x : Flag) : (gr.setFlag f x).stall = gr.stall := rfl
@[simp] theorem Grove.setFlag_regs (gr : Grove) (f : Nat) (x : Flag) : (gr.setFlag f x).regs = gr.regs := rfl
@[simp] theorem Grove.setFlag_lastTag (gr : Grove) (f : Nat) (x : Flag) : (gr.setFlag f x).lastTag = gr.lastTag := rfl
@[simp] theorem Grove.setFlag_queues (gr : Grove) (f : Nat) (x : Flag) : (gr.setFlag f x).queues = gr.queues := rfl
@[simp] theorem Grove.setFlag_ctxs (gr : Grove) (f : Nat) (x : Flag) : (gr.setFlag f x).ctxs = gr.ctxs := rfl
@[simp] theorem Grove.setFlag_aps (gr : Grove) (f : Nat) (x : Flag) : (gr.setFlag f x).aps = gr.aps := rfl
@[simp] theorem Grove.setFlag_wins (gr : Grove) (f : Nat) (x : Flag) : (gr.setFlag f x).wins = gr.wins := rfl
@[simp] theorem Grove.setFlag_b0 (gr : Grove) (f : Nat) (x : Flag) : (gr.setFlag f x).b0 = gr.b0 := rfl
@[simp] theorem Grove.setFlag_b1 (gr : Grove) (f : Nat) (x : Flag) : (gr.setFlag f x).b1 = gr.b1 := rfl
@[simp] theorem Grove.setFlag_armed (gr : Grove) (f : Nat) (x : Flag) : (gr.setFlag f x).armed = gr.armed := rfl
@[simp] theorem Grove.setFlag_imem (gr : Grove) (f : Nat) (x : Flag) : (gr.setFlag f x).imem = gr.imem := rfl
@[simp] theorem Grove.setFlag_gmem (gr : Grove) (f : Nat) (x : Flag) : (gr.setFlag f x).gmem = gr.gmem := rfl
@[simp] theorem Grove.setFlag_scratch (gr : Grove) (f : Nat) (x : Flag) : (gr.setFlag f x).scratch = gr.scratch := rfl
@[simp] theorem Grove.setFlag_poison (gr : Grove) (f : Nat) (x : Flag) : (gr.setFlag f x).poison = gr.poison := rfl
@[simp] theorem Grove.setFlag_scratchPoison (gr : Grove) (f : Nat) (x : Flag) : (gr.setFlag f x).scratchPoison = gr.scratchPoison := rfl
@[simp] theorem Grove.setFlag_ctxPoison (gr : Grove) (f : Nat) (x : Flag) : (gr.setFlag f x).ctxPoison = gr.ctxPoison := rfl
@[simp] theorem Grove.setFlag_haltRec (gr : Grove) (f : Nat) (x : Flag) : (gr.setFlag f x).haltRec = gr.haltRec := rfl
@[simp] theorem Grove.setFlag_sampled (gr : Grove) (f : Nat) (x : Flag) : (gr.setFlag f x).sampled = gr.sampled := rfl
@[simp] theorem Grove.setFlag_traceIx (gr : Grove) (f : Nat) (x : Flag) : (gr.setFlag f x).traceIx = gr.traceIx := rfl
@[simp] theorem Grove.setFlag_writing (gr : Grove) (f : Nat) (x : Flag) : (gr.setFlag f x).writing = gr.writing := rfl
@[simp] theorem Grove.setFlag_statePoison (gr : Grove) (f : Nat) (x : Flag) : (gr.setFlag f x).statePoison = gr.statePoison := rfl
@[simp] theorem Grove.setFlag_reqs (gr : Grove) (f : Nat) (x : Flag) : (gr.setFlag f x).reqs = gr.reqs := rfl
@[simp] theorem Grove.setFlag_tagNext (gr : Grove) (f : Nat) (x : Flag) : (gr.setFlag f x).tagNext = gr.tagNext := rfl
@[simp] theorem Grove.setFlag_paused (gr : Grove) (f : Nat) (x : Flag) : (gr.setFlag f x).paused = gr.paused := rfl

@[simp] theorem Grove.setCtx_phase (gr : Grove) (e c : Nat) (x : Ctx) : (gr.setCtx e c x).phase = gr.phase := rfl
@[simp] theorem Grove.setCtx_pc (gr : Grove) (e c : Nat) (x : Ctx) : (gr.setCtx e c x).pc = gr.pc := rfl
@[simp] theorem Grove.setCtx_bank (gr : Grove) (e c : Nat) (x : Ctx) : (gr.setCtx e c x).bank = gr.bank := rfl
@[simp] theorem Grove.setCtx_ended (gr : Grove) (e c : Nat) (x : Ctx) : (gr.setCtx e c x).ended = gr.ended := rfl
@[simp] theorem Grove.setCtx_stall (gr : Grove) (e c : Nat) (x : Ctx) : (gr.setCtx e c x).stall = gr.stall := rfl
@[simp] theorem Grove.setCtx_regs (gr : Grove) (e c : Nat) (x : Ctx) : (gr.setCtx e c x).regs = gr.regs := rfl
@[simp] theorem Grove.setCtx_lastTag (gr : Grove) (e c : Nat) (x : Ctx) : (gr.setCtx e c x).lastTag = gr.lastTag := rfl
@[simp] theorem Grove.setCtx_flags (gr : Grove) (e c : Nat) (x : Ctx) : (gr.setCtx e c x).flags = gr.flags := rfl
@[simp] theorem Grove.setCtx_queues (gr : Grove) (e c : Nat) (x : Ctx) : (gr.setCtx e c x).queues = gr.queues := rfl
@[simp] theorem Grove.setCtx_aps (gr : Grove) (e c : Nat) (x : Ctx) : (gr.setCtx e c x).aps = gr.aps := rfl
@[simp] theorem Grove.setCtx_wins (gr : Grove) (e c : Nat) (x : Ctx) : (gr.setCtx e c x).wins = gr.wins := rfl
@[simp] theorem Grove.setCtx_b0 (gr : Grove) (e c : Nat) (x : Ctx) : (gr.setCtx e c x).b0 = gr.b0 := rfl
@[simp] theorem Grove.setCtx_b1 (gr : Grove) (e c : Nat) (x : Ctx) : (gr.setCtx e c x).b1 = gr.b1 := rfl
@[simp] theorem Grove.setCtx_armed (gr : Grove) (e c : Nat) (x : Ctx) : (gr.setCtx e c x).armed = gr.armed := rfl
@[simp] theorem Grove.setCtx_imem (gr : Grove) (e c : Nat) (x : Ctx) : (gr.setCtx e c x).imem = gr.imem := rfl
@[simp] theorem Grove.setCtx_gmem (gr : Grove) (e c : Nat) (x : Ctx) : (gr.setCtx e c x).gmem = gr.gmem := rfl
@[simp] theorem Grove.setCtx_scratch (gr : Grove) (e c : Nat) (x : Ctx) : (gr.setCtx e c x).scratch = gr.scratch := rfl
@[simp] theorem Grove.setCtx_poison (gr : Grove) (e c : Nat) (x : Ctx) : (gr.setCtx e c x).poison = gr.poison := rfl
@[simp] theorem Grove.setCtx_scratchPoison (gr : Grove) (e c : Nat) (x : Ctx) : (gr.setCtx e c x).scratchPoison = gr.scratchPoison := rfl
@[simp] theorem Grove.setCtx_ctxPoison (gr : Grove) (e c : Nat) (x : Ctx) : (gr.setCtx e c x).ctxPoison = gr.ctxPoison := rfl
@[simp] theorem Grove.setCtx_haltRec (gr : Grove) (e c : Nat) (x : Ctx) : (gr.setCtx e c x).haltRec = gr.haltRec := rfl
@[simp] theorem Grove.setCtx_sampled (gr : Grove) (e c : Nat) (x : Ctx) : (gr.setCtx e c x).sampled = gr.sampled := rfl
@[simp] theorem Grove.setCtx_traceIx (gr : Grove) (e c : Nat) (x : Ctx) : (gr.setCtx e c x).traceIx = gr.traceIx := rfl
@[simp] theorem Grove.setCtx_writing (gr : Grove) (e c : Nat) (x : Ctx) : (gr.setCtx e c x).writing = gr.writing := rfl
@[simp] theorem Grove.setCtx_statePoison (gr : Grove) (e c : Nat) (x : Ctx) : (gr.setCtx e c x).statePoison = gr.statePoison := rfl
@[simp] theorem Grove.setCtx_reqs (gr : Grove) (e c : Nat) (x : Ctx) : (gr.setCtx e c x).reqs = gr.reqs := rfl
@[simp] theorem Grove.setCtx_tagNext (gr : Grove) (e c : Nat) (x : Ctx) : (gr.setCtx e c x).tagNext = gr.tagNext := rfl
@[simp] theorem Grove.setCtx_paused (gr : Grove) (e c : Nat) (x : Ctx) : (gr.setCtx e c x).paused = gr.paused := rfl

@[simp] theorem Grove.setQueue_phase (gr : Grove) (e : Nat) (q : List Cmd) : (gr.setQueue e q).phase = gr.phase := rfl
@[simp] theorem Grove.setQueue_pc (gr : Grove) (e : Nat) (q : List Cmd) : (gr.setQueue e q).pc = gr.pc := rfl
@[simp] theorem Grove.setQueue_bank (gr : Grove) (e : Nat) (q : List Cmd) : (gr.setQueue e q).bank = gr.bank := rfl
@[simp] theorem Grove.setQueue_ended (gr : Grove) (e : Nat) (q : List Cmd) : (gr.setQueue e q).ended = gr.ended := rfl
@[simp] theorem Grove.setQueue_stall (gr : Grove) (e : Nat) (q : List Cmd) : (gr.setQueue e q).stall = gr.stall := rfl
@[simp] theorem Grove.setQueue_regs (gr : Grove) (e : Nat) (q : List Cmd) : (gr.setQueue e q).regs = gr.regs := rfl
@[simp] theorem Grove.setQueue_lastTag (gr : Grove) (e : Nat) (q : List Cmd) : (gr.setQueue e q).lastTag = gr.lastTag := rfl
@[simp] theorem Grove.setQueue_flags (gr : Grove) (e : Nat) (q : List Cmd) : (gr.setQueue e q).flags = gr.flags := rfl
@[simp] theorem Grove.setQueue_ctxs (gr : Grove) (e : Nat) (q : List Cmd) : (gr.setQueue e q).ctxs = gr.ctxs := rfl
@[simp] theorem Grove.setQueue_aps (gr : Grove) (e : Nat) (q : List Cmd) : (gr.setQueue e q).aps = gr.aps := rfl
@[simp] theorem Grove.setQueue_wins (gr : Grove) (e : Nat) (q : List Cmd) : (gr.setQueue e q).wins = gr.wins := rfl
@[simp] theorem Grove.setQueue_b0 (gr : Grove) (e : Nat) (q : List Cmd) : (gr.setQueue e q).b0 = gr.b0 := rfl
@[simp] theorem Grove.setQueue_b1 (gr : Grove) (e : Nat) (q : List Cmd) : (gr.setQueue e q).b1 = gr.b1 := rfl
@[simp] theorem Grove.setQueue_armed (gr : Grove) (e : Nat) (q : List Cmd) : (gr.setQueue e q).armed = gr.armed := rfl
@[simp] theorem Grove.setQueue_imem (gr : Grove) (e : Nat) (q : List Cmd) : (gr.setQueue e q).imem = gr.imem := rfl
@[simp] theorem Grove.setQueue_gmem (gr : Grove) (e : Nat) (q : List Cmd) : (gr.setQueue e q).gmem = gr.gmem := rfl
@[simp] theorem Grove.setQueue_scratch (gr : Grove) (e : Nat) (q : List Cmd) : (gr.setQueue e q).scratch = gr.scratch := rfl
@[simp] theorem Grove.setQueue_poison (gr : Grove) (e : Nat) (q : List Cmd) : (gr.setQueue e q).poison = gr.poison := rfl
@[simp] theorem Grove.setQueue_scratchPoison (gr : Grove) (e : Nat) (q : List Cmd) : (gr.setQueue e q).scratchPoison = gr.scratchPoison := rfl
@[simp] theorem Grove.setQueue_ctxPoison (gr : Grove) (e : Nat) (q : List Cmd) : (gr.setQueue e q).ctxPoison = gr.ctxPoison := rfl
@[simp] theorem Grove.setQueue_haltRec (gr : Grove) (e : Nat) (q : List Cmd) : (gr.setQueue e q).haltRec = gr.haltRec := rfl
@[simp] theorem Grove.setQueue_sampled (gr : Grove) (e : Nat) (q : List Cmd) : (gr.setQueue e q).sampled = gr.sampled := rfl
@[simp] theorem Grove.setQueue_traceIx (gr : Grove) (e : Nat) (q : List Cmd) : (gr.setQueue e q).traceIx = gr.traceIx := rfl
@[simp] theorem Grove.setQueue_writing (gr : Grove) (e : Nat) (q : List Cmd) : (gr.setQueue e q).writing = gr.writing := rfl
@[simp] theorem Grove.setQueue_statePoison (gr : Grove) (e : Nat) (q : List Cmd) : (gr.setQueue e q).statePoison = gr.statePoison := rfl
@[simp] theorem Grove.setQueue_reqs (gr : Grove) (e : Nat) (q : List Cmd) : (gr.setQueue e q).reqs = gr.reqs := rfl
@[simp] theorem Grove.setQueue_tagNext (gr : Grove) (e : Nat) (q : List Cmd) : (gr.setQueue e q).tagNext = gr.tagNext := rfl
@[simp] theorem Grove.setQueue_paused (gr : Grove) (e : Nat) (q : List Cmd) : (gr.setQueue e q).paused = gr.paused := rfl

@[simp] theorem Grove.store8_phase (gr : Grove) (a v : Nat) : (gr.store8 a v).phase = gr.phase := rfl
@[simp] theorem Grove.store8_pc (gr : Grove) (a v : Nat) : (gr.store8 a v).pc = gr.pc := rfl
@[simp] theorem Grove.store8_bank (gr : Grove) (a v : Nat) : (gr.store8 a v).bank = gr.bank := rfl
@[simp] theorem Grove.store8_ended (gr : Grove) (a v : Nat) : (gr.store8 a v).ended = gr.ended := rfl
@[simp] theorem Grove.store8_stall (gr : Grove) (a v : Nat) : (gr.store8 a v).stall = gr.stall := rfl
@[simp] theorem Grove.store8_regs (gr : Grove) (a v : Nat) : (gr.store8 a v).regs = gr.regs := rfl
@[simp] theorem Grove.store8_lastTag (gr : Grove) (a v : Nat) : (gr.store8 a v).lastTag = gr.lastTag := rfl
@[simp] theorem Grove.store8_flags (gr : Grove) (a v : Nat) : (gr.store8 a v).flags = gr.flags := rfl
@[simp] theorem Grove.store8_queues (gr : Grove) (a v : Nat) : (gr.store8 a v).queues = gr.queues := rfl
@[simp] theorem Grove.store8_ctxs (gr : Grove) (a v : Nat) : (gr.store8 a v).ctxs = gr.ctxs := rfl
@[simp] theorem Grove.store8_aps (gr : Grove) (a v : Nat) : (gr.store8 a v).aps = gr.aps := rfl
@[simp] theorem Grove.store8_wins (gr : Grove) (a v : Nat) : (gr.store8 a v).wins = gr.wins := rfl
@[simp] theorem Grove.store8_b0 (gr : Grove) (a v : Nat) : (gr.store8 a v).b0 = gr.b0 := rfl
@[simp] theorem Grove.store8_b1 (gr : Grove) (a v : Nat) : (gr.store8 a v).b1 = gr.b1 := rfl
@[simp] theorem Grove.store8_armed (gr : Grove) (a v : Nat) : (gr.store8 a v).armed = gr.armed := rfl
@[simp] theorem Grove.store8_imem (gr : Grove) (a v : Nat) : (gr.store8 a v).imem = gr.imem := rfl
@[simp] theorem Grove.store8_scratch (gr : Grove) (a v : Nat) : (gr.store8 a v).scratch = gr.scratch := rfl
@[simp] theorem Grove.store8_scratchPoison (gr : Grove) (a v : Nat) : (gr.store8 a v).scratchPoison = gr.scratchPoison := rfl
@[simp] theorem Grove.store8_ctxPoison (gr : Grove) (a v : Nat) : (gr.store8 a v).ctxPoison = gr.ctxPoison := rfl
@[simp] theorem Grove.store8_haltRec (gr : Grove) (a v : Nat) : (gr.store8 a v).haltRec = gr.haltRec := rfl
@[simp] theorem Grove.store8_sampled (gr : Grove) (a v : Nat) : (gr.store8 a v).sampled = gr.sampled := rfl
@[simp] theorem Grove.store8_traceIx (gr : Grove) (a v : Nat) : (gr.store8 a v).traceIx = gr.traceIx := rfl
@[simp] theorem Grove.store8_writing (gr : Grove) (a v : Nat) : (gr.store8 a v).writing = gr.writing := rfl
@[simp] theorem Grove.store8_statePoison (gr : Grove) (a v : Nat) : (gr.store8 a v).statePoison = gr.statePoison := rfl
@[simp] theorem Grove.store8_reqs (gr : Grove) (a v : Nat) : (gr.store8 a v).reqs = gr.reqs := rfl
@[simp] theorem Grove.store8_tagNext (gr : Grove) (a v : Nat) : (gr.store8 a v).tagNext = gr.tagNext := rfl
@[simp] theorem Grove.store8_paused (gr : Grove) (a v : Nat) : (gr.store8 a v).paused = gr.paused := rfl

@[simp] theorem Grove.goto_phase (gr : Grove) (a : Nat) : (gr.goto a).phase = gr.phase := rfl
@[simp] theorem Grove.goto_bank (gr : Grove) (a : Nat) : (gr.goto a).bank = gr.bank := rfl
@[simp] theorem Grove.goto_ended (gr : Grove) (a : Nat) : (gr.goto a).ended = gr.ended := rfl
@[simp] theorem Grove.goto_regs (gr : Grove) (a : Nat) : (gr.goto a).regs = gr.regs := rfl
@[simp] theorem Grove.goto_lastTag (gr : Grove) (a : Nat) : (gr.goto a).lastTag = gr.lastTag := rfl
@[simp] theorem Grove.goto_flags (gr : Grove) (a : Nat) : (gr.goto a).flags = gr.flags := rfl
@[simp] theorem Grove.goto_queues (gr : Grove) (a : Nat) : (gr.goto a).queues = gr.queues := rfl
@[simp] theorem Grove.goto_ctxs (gr : Grove) (a : Nat) : (gr.goto a).ctxs = gr.ctxs := rfl
@[simp] theorem Grove.goto_aps (gr : Grove) (a : Nat) : (gr.goto a).aps = gr.aps := rfl
@[simp] theorem Grove.goto_wins (gr : Grove) (a : Nat) : (gr.goto a).wins = gr.wins := rfl
@[simp] theorem Grove.goto_b0 (gr : Grove) (a : Nat) : (gr.goto a).b0 = gr.b0 := rfl
@[simp] theorem Grove.goto_b1 (gr : Grove) (a : Nat) : (gr.goto a).b1 = gr.b1 := rfl
@[simp] theorem Grove.goto_armed (gr : Grove) (a : Nat) : (gr.goto a).armed = gr.armed := rfl
@[simp] theorem Grove.goto_imem (gr : Grove) (a : Nat) : (gr.goto a).imem = gr.imem := rfl
@[simp] theorem Grove.goto_gmem (gr : Grove) (a : Nat) : (gr.goto a).gmem = gr.gmem := rfl
@[simp] theorem Grove.goto_scratch (gr : Grove) (a : Nat) : (gr.goto a).scratch = gr.scratch := rfl
@[simp] theorem Grove.goto_poison (gr : Grove) (a : Nat) : (gr.goto a).poison = gr.poison := rfl
@[simp] theorem Grove.goto_scratchPoison (gr : Grove) (a : Nat) : (gr.goto a).scratchPoison = gr.scratchPoison := rfl
@[simp] theorem Grove.goto_ctxPoison (gr : Grove) (a : Nat) : (gr.goto a).ctxPoison = gr.ctxPoison := rfl
@[simp] theorem Grove.goto_haltRec (gr : Grove) (a : Nat) : (gr.goto a).haltRec = gr.haltRec := rfl
@[simp] theorem Grove.goto_sampled (gr : Grove) (a : Nat) : (gr.goto a).sampled = gr.sampled := rfl
@[simp] theorem Grove.goto_traceIx (gr : Grove) (a : Nat) : (gr.goto a).traceIx = gr.traceIx := rfl
@[simp] theorem Grove.goto_writing (gr : Grove) (a : Nat) : (gr.goto a).writing = gr.writing := rfl
@[simp] theorem Grove.goto_statePoison (gr : Grove) (a : Nat) : (gr.goto a).statePoison = gr.statePoison := rfl
@[simp] theorem Grove.goto_reqs (gr : Grove) (a : Nat) : (gr.goto a).reqs = gr.reqs := rfl
@[simp] theorem Grove.goto_tagNext (gr : Grove) (a : Nat) : (gr.goto a).tagNext = gr.tagNext := rfl
@[simp] theorem Grove.goto_paused (gr : Grove) (a : Nat) : (gr.goto a).paused = gr.paused := rfl

@[simp] theorem Grove.advance_phase (gr : Grove) : (gr.advance).phase = gr.phase := rfl
@[simp] theorem Grove.advance_bank (gr : Grove) : (gr.advance).bank = gr.bank := rfl
@[simp] theorem Grove.advance_ended (gr : Grove) : (gr.advance).ended = gr.ended := rfl
@[simp] theorem Grove.advance_regs (gr : Grove) : (gr.advance).regs = gr.regs := rfl
@[simp] theorem Grove.advance_lastTag (gr : Grove) : (gr.advance).lastTag = gr.lastTag := rfl
@[simp] theorem Grove.advance_flags (gr : Grove) : (gr.advance).flags = gr.flags := rfl
@[simp] theorem Grove.advance_queues (gr : Grove) : (gr.advance).queues = gr.queues := rfl
@[simp] theorem Grove.advance_ctxs (gr : Grove) : (gr.advance).ctxs = gr.ctxs := rfl
@[simp] theorem Grove.advance_aps (gr : Grove) : (gr.advance).aps = gr.aps := rfl
@[simp] theorem Grove.advance_wins (gr : Grove) : (gr.advance).wins = gr.wins := rfl
@[simp] theorem Grove.advance_b0 (gr : Grove) : (gr.advance).b0 = gr.b0 := rfl
@[simp] theorem Grove.advance_b1 (gr : Grove) : (gr.advance).b1 = gr.b1 := rfl
@[simp] theorem Grove.advance_armed (gr : Grove) : (gr.advance).armed = gr.armed := rfl
@[simp] theorem Grove.advance_imem (gr : Grove) : (gr.advance).imem = gr.imem := rfl
@[simp] theorem Grove.advance_gmem (gr : Grove) : (gr.advance).gmem = gr.gmem := rfl
@[simp] theorem Grove.advance_scratch (gr : Grove) : (gr.advance).scratch = gr.scratch := rfl
@[simp] theorem Grove.advance_poison (gr : Grove) : (gr.advance).poison = gr.poison := rfl
@[simp] theorem Grove.advance_scratchPoison (gr : Grove) : (gr.advance).scratchPoison = gr.scratchPoison := rfl
@[simp] theorem Grove.advance_ctxPoison (gr : Grove) : (gr.advance).ctxPoison = gr.ctxPoison := rfl
@[simp] theorem Grove.advance_haltRec (gr : Grove) : (gr.advance).haltRec = gr.haltRec := rfl
@[simp] theorem Grove.advance_sampled (gr : Grove) : (gr.advance).sampled = gr.sampled := rfl
@[simp] theorem Grove.advance_traceIx (gr : Grove) : (gr.advance).traceIx = gr.traceIx := rfl
@[simp] theorem Grove.advance_writing (gr : Grove) : (gr.advance).writing = gr.writing := rfl
@[simp] theorem Grove.advance_statePoison (gr : Grove) : (gr.advance).statePoison = gr.statePoison := rfl
@[simp] theorem Grove.advance_reqs (gr : Grove) : (gr.advance).reqs = gr.reqs := rfl
@[simp] theorem Grove.advance_tagNext (gr : Grove) : (gr.advance).tagNext = gr.tagNext := rfl
@[simp] theorem Grove.advance_paused (gr : Grove) : (gr.advance).paused = gr.paused := rfl
@[simp] theorem Grove.setReg_phase (gr : Grove) (i : Nat) (v : Word) : (gr.setReg i v).phase = gr.phase := by unfold Grove.setReg; split <;> rfl
@[simp] theorem Grove.setReg_pc (gr : Grove) (i : Nat) (v : Word) : (gr.setReg i v).pc = gr.pc := by unfold Grove.setReg; split <;> rfl
@[simp] theorem Grove.setReg_bank (gr : Grove) (i : Nat) (v : Word) : (gr.setReg i v).bank = gr.bank := by unfold Grove.setReg; split <;> rfl
@[simp] theorem Grove.setReg_ended (gr : Grove) (i : Nat) (v : Word) : (gr.setReg i v).ended = gr.ended := by unfold Grove.setReg; split <;> rfl
@[simp] theorem Grove.setReg_stall (gr : Grove) (i : Nat) (v : Word) : (gr.setReg i v).stall = gr.stall := by unfold Grove.setReg; split <;> rfl
@[simp] theorem Grove.setReg_lastTag (gr : Grove) (i : Nat) (v : Word) : (gr.setReg i v).lastTag = gr.lastTag := by unfold Grove.setReg; split <;> rfl
@[simp] theorem Grove.setReg_flags (gr : Grove) (i : Nat) (v : Word) : (gr.setReg i v).flags = gr.flags := by unfold Grove.setReg; split <;> rfl
@[simp] theorem Grove.setReg_queues (gr : Grove) (i : Nat) (v : Word) : (gr.setReg i v).queues = gr.queues := by unfold Grove.setReg; split <;> rfl
@[simp] theorem Grove.setReg_ctxs (gr : Grove) (i : Nat) (v : Word) : (gr.setReg i v).ctxs = gr.ctxs := by unfold Grove.setReg; split <;> rfl
@[simp] theorem Grove.setReg_aps (gr : Grove) (i : Nat) (v : Word) : (gr.setReg i v).aps = gr.aps := by unfold Grove.setReg; split <;> rfl
@[simp] theorem Grove.setReg_wins (gr : Grove) (i : Nat) (v : Word) : (gr.setReg i v).wins = gr.wins := by unfold Grove.setReg; split <;> rfl
@[simp] theorem Grove.setReg_b0 (gr : Grove) (i : Nat) (v : Word) : (gr.setReg i v).b0 = gr.b0 := by unfold Grove.setReg; split <;> rfl
@[simp] theorem Grove.setReg_b1 (gr : Grove) (i : Nat) (v : Word) : (gr.setReg i v).b1 = gr.b1 := by unfold Grove.setReg; split <;> rfl
@[simp] theorem Grove.setReg_armed (gr : Grove) (i : Nat) (v : Word) : (gr.setReg i v).armed = gr.armed := by unfold Grove.setReg; split <;> rfl
@[simp] theorem Grove.setReg_imem (gr : Grove) (i : Nat) (v : Word) : (gr.setReg i v).imem = gr.imem := by unfold Grove.setReg; split <;> rfl
@[simp] theorem Grove.setReg_gmem (gr : Grove) (i : Nat) (v : Word) : (gr.setReg i v).gmem = gr.gmem := by unfold Grove.setReg; split <;> rfl
@[simp] theorem Grove.setReg_scratch (gr : Grove) (i : Nat) (v : Word) : (gr.setReg i v).scratch = gr.scratch := by unfold Grove.setReg; split <;> rfl
@[simp] theorem Grove.setReg_poison (gr : Grove) (i : Nat) (v : Word) : (gr.setReg i v).poison = gr.poison := by unfold Grove.setReg; split <;> rfl
@[simp] theorem Grove.setReg_scratchPoison (gr : Grove) (i : Nat) (v : Word) : (gr.setReg i v).scratchPoison = gr.scratchPoison := by unfold Grove.setReg; split <;> rfl
@[simp] theorem Grove.setReg_ctxPoison (gr : Grove) (i : Nat) (v : Word) : (gr.setReg i v).ctxPoison = gr.ctxPoison := by unfold Grove.setReg; split <;> rfl
@[simp] theorem Grove.setReg_haltRec (gr : Grove) (i : Nat) (v : Word) : (gr.setReg i v).haltRec = gr.haltRec := by unfold Grove.setReg; split <;> rfl
@[simp] theorem Grove.setReg_sampled (gr : Grove) (i : Nat) (v : Word) : (gr.setReg i v).sampled = gr.sampled := by unfold Grove.setReg; split <;> rfl
@[simp] theorem Grove.setReg_traceIx (gr : Grove) (i : Nat) (v : Word) : (gr.setReg i v).traceIx = gr.traceIx := by unfold Grove.setReg; split <;> rfl
@[simp] theorem Grove.setReg_writing (gr : Grove) (i : Nat) (v : Word) : (gr.setReg i v).writing = gr.writing := by unfold Grove.setReg; split <;> rfl
@[simp] theorem Grove.setReg_statePoison (gr : Grove) (i : Nat) (v : Word) : (gr.setReg i v).statePoison = gr.statePoison := by unfold Grove.setReg; split <;> rfl
@[simp] theorem Grove.setReg_reqs (gr : Grove) (i : Nat) (v : Word) : (gr.setReg i v).reqs = gr.reqs := by unfold Grove.setReg; split <;> rfl
@[simp] theorem Grove.setReg_tagNext (gr : Grove) (i : Nat) (v : Word) : (gr.setReg i v).tagNext = gr.tagNext := by unfold Grove.setReg; split <;> rfl
@[simp] theorem Grove.setReg_paused (gr : Grove) (i : Nat) (v : Word) : (gr.setReg i v).paused = gr.paused := by unfold Grove.setReg; split <;> rfl

@[simp] theorem Grove.goto_pc (gr : Grove) (a : Nat) : (gr.goto a).pc = a := rfl
@[simp] theorem Grove.goto_stall (gr : Grove) (a : Nat) : (gr.goto a).stall = .none := rfl
@[simp] theorem Grove.advance_pc (gr : Grove) : gr.advance.pc = gr.pc + 1 := rfl
@[simp] theorem Grove.advance_stall (gr : Grove) : gr.advance.stall = .none := rfl

/-- A grove reads as it was written. -/
@[simp] theorem Dev.grove_setGrove (d : Dev) (g : Nat) (v : Grove) : (d.setGrove g v).grove g = v := Tbl.get_set_same ..

/-- Writing one grove leaves the others alone. -/
theorem Dev.grove_setGrove_other (d : Dev) (g h : Nat) (v : Grove) (hn : h ≠ g) : (d.setGrove g v).grove h = d.grove h :=
  Tbl.get_set_other _ _ _ _ _ hn

@[simp] theorem Dev.link_setLink (d : Dev) (n : Nat) (v : Link) : (d.setLink n v).link n = v := Tbl.get_set_same ..

theorem Dev.link_setLink_other (d : Dev) (n m : Nat) (v : Link) (hn : m ≠ n) : (d.setLink n v).link m = d.link m :=
  Tbl.get_set_other _ _ _ _ _ hn

@[simp] theorem Dev.chan_setChan (d : Dev) (c : Nat) (v : Chan) : (d.setChan c v).chan c = v := Tbl.get_set_same ..

@[simp] theorem Dev.slot_setSlot (d : Dev) (n : Fin 8) (v : Slot) : (d.setSlot n v).slot n = v := Tbl.get_set_same ..
@[simp] theorem Dev.chan_setSlot (d : Dev) (n : Fin 8) (v : Slot) (c : Nat) : (d.setSlot n v).chan c = d.chan c := rfl

theorem Dev.chan_setChan_other (d : Dev) (c e : Nat) (v : Chan) (hn : e ≠ c) : (d.setChan c v).chan e = d.chan e :=
  Tbl.get_set_other _ _ _ _ _ hn

@[simp] theorem Dev.eq_setEq (d : Dev) (n q : Nat) (v : EQueue) : (d.setEq n q v).eq n q = v := Tbl.get_set_same ..

/-- A stored record reads as it was written. -/
@[simp] theorem Dev.rdD_wrD (d : Dev) (k i s r v : Nat) : (d.wrD k i s r v).rdD k i s r = v := Tbl.get_set_same ..

/-- A counter advances modulo 2^64 (R414). -/
@[simp] theorem Dev.ctr_inc (d : Dev) (i s r k : Nat) : (d.inc i s r k).ctr i s r = (d.ctr i s r + k) % 2 ^ 64 :=
  Tbl.get_set_same ..

/-- A flag reads as it was written. -/
@[simp] theorem Grove.flag_setFlag (gr : Grove) (f : Nat) (x : Flag) : (gr.setFlag f x).flag f = x := Tbl.get_set_same ..

theorem Grove.flag_setFlag_other (gr : Grove) (f h : Nat) (x : Flag) (hn : h ≠ f) : (gr.setFlag f x).flag h = gr.flag h :=
  Tbl.get_set_other _ _ _ _ _ hn

@[simp] theorem Grove.flag_advance (gr : Grove) (f : Nat) : gr.advance.flag f = gr.flag f := rfl
@[simp] theorem Grove.reg_advance (gr : Grove) (i : Nat) : gr.advance.reg i = gr.reg i := rfl
@[simp] theorem Grove.reg_goto (gr : Grove) (a i : Nat) : (gr.goto a).reg i = gr.reg i := rfl

/-- s0 reads zero (R108). -/
@[simp] theorem Grove.reg_zero (gr : Grove) : gr.reg 0 = 0 := rfl

/-- s0 ignores writes (R108). -/
@[simp] theorem Grove.setReg_zero (gr : Grove) (v : Word) : gr.setReg 0 v = gr := rfl

/-- Any other register reads as it was written. -/
theorem Grove.reg_setReg (gr : Grove) (i : Nat) (v : Word) (h : i ≠ 0) : (gr.setReg i v).reg i = v := by
  simp [Grove.reg, Grove.setReg, h]

/-- A register write leaves the other registers alone. -/
theorem Grove.reg_setReg_other (gr : Grove) (i j : Nat) (v : Word) (h : j ≠ i) : (gr.setReg i v).reg j = gr.reg j := by
  unfold Grove.reg Grove.setReg
  split
  · rfl
  · split
    · rfl
    · simp [Tbl.get_set_other _ _ _ _ _ h]

/-- A context reads as it was written. -/
@[simp] theorem Grove.ctx_setCtx (gr : Grove) (e c : Nat) (x : Ctx) : (gr.setCtx e c x).ctx e c = x := Tbl.get_set_same ..

end Sys2Proof.Machine
end

