-- ==== Sys2Proof/Laws/Events.lean ====
section
/-! SUPPORT. What writing an event changes, said once: the log, the queue, the window, counters, the tail and what leaves. -/

namespace Sys2Proof.Machine

theorem OnlyEvents.refl (d : Dev) : OnlyEvents d d := rfl

theorem OnlyEvents.trans {d t u : Dev} (h : OnlyEvents d t) (k : OnlyEvents t u) : OnlyEvents d u := by
  unfold OnlyEvents at h k ⊢
  rw [h] at k
  exact k

theorem onlyEvents_evt (d : Dev) (e : Events) : OnlyEvents d { d with evt := e } := rfl
theorem onlyEvents_inc (d : Dev) (i s r k : Nat) : OnlyEvents d (d.inc i s r k) := rfl
theorem onlyEvents_send (d : Dev) (o : Out) : OnlyEvents d (d.send o) := rfl
theorem onlyEvents_tail (d : Dev) (ty body : Nat) : OnlyEvents d (queueTail d ty body) := rfl

theorem onlyEvents_ite {d a b : Dev} (c : Prop) [Decidable c] (h : OnlyEvents d a) (k : OnlyEvents d b) :
    OnlyEvents d (if c then a else b) := by
  split
  · exact h
  · exact k

/-- An MSI-X vector raised leaves the device or stands pending. -/
theorem onlyEvents_raiseMsix (d : Dev) (v : Nat) : OnlyEvents d (raiseMsix d v) :=
  onlyEvents_ite _ (onlyEvents_evt d _) (onlyEvents_send d _)

theorem onlyEvents_placeEvents (n : Nat) (d : Dev) : OnlyEvents d (placeEvents n d) := by
  induction n generalizing d with
  | zero => exact OnlyEvents.refl d
  | succ n ih =>
    unfold placeEvents
    dsimp only
    refine onlyEvents_ite _ (OnlyEvents.refl d) ?_
    split
    · exact OnlyEvents.refl d
    · refine OnlyEvents.trans ?_ (ih _)
      exact onlyEvents_ite _ ((onlyEvents_evt d _).trans (onlyEvents_raiseMsix _ _)) (onlyEvents_evt d _)

theorem onlyEvents_notice (d : Dev) : OnlyEvents d (notice d) := by
  unfold notice
  split
  · exact OnlyEvents.refl d
  · exact onlyEvents_ite _ (onlyEvents_evt d _) ((onlyEvents_send d _).trans (onlyEvents_evt _ _))

theorem onlyEvents_emitRaw (d : Dev) (code status prio : Nat) (rise : Bool) (idx sub data : Nat) :
    OnlyEvents d (emitRaw d code status prio rise idx sub data) := by
  unfold emitRaw
  dsimp only
  refine onlyEvents_ite _ ((onlyEvents_evt d _).trans (onlyEvents_tail _ _ _)) ?_
  have h : OnlyEvents d (if prio ≤ 1 then queueTail d 1 (d.mkEvent code status prio rise idx sub data).image else d) :=
    onlyEvents_ite _ (onlyEvents_tail d 1 _) (OnlyEvents.refl d)
  revert h
  generalize (if prio ≤ 1 then queueTail d 1 (d.mkEvent code status prio rise idx sub data).image else d) = t
  intro h
  refine h.trans ?_
  refine onlyEvents_ite _ ((onlyEvents_evt _ _).trans (onlyEvents_inc _ _ _ _ _)) ?_
  refine onlyEvents_ite _ ?_ ?_
  · exact ((onlyEvents_evt _ _).trans (onlyEvents_placeEvents _ _)).trans (onlyEvents_notice _)
  · exact (onlyEvents_evt _ _).trans (onlyEvents_placeEvents _ _)

theorem onlyEvents_settleFull (d : Dev) : OnlyEvents d (settleFull d) :=
  onlyEvents_ite _ ((onlyEvents_evt d _).trans (onlyEvents_emitRaw _ _ _ _ _ _ _ _))
    (onlyEvents_ite _ ((onlyEvents_evt d _).trans (onlyEvents_emitRaw _ _ _ _ _ _ _ _)) (OnlyEvents.refl d))

theorem onlyEvents_settleOver (d : Dev) (k : Nat) : OnlyEvents d (settleOver d k) :=
  onlyEvents_ite _ ((onlyEvents_evt d _).trans (onlyEvents_emitRaw _ _ _ _ _ _ _ _))
    (onlyEvents_ite _ ((onlyEvents_evt d _).trans (onlyEvents_emitRaw _ _ _ _ _ _ _ _)) (OnlyEvents.refl d))

theorem onlyEvents_settleQueue (d : Dev) (k : Nat) : OnlyEvents d (settleQueue d k) :=
  ((onlyEvents_settleFull d).trans (onlyEvents_settleFull _)).trans (onlyEvents_settleOver _ _)

/-- Writing an event changes nothing but the log and queue, counters, the persistent tail and what leaves. -/
theorem onlyEvents_emit (d : Dev) (code status prio : Nat) (rise : Bool) (idx sub data : Nat) :
    OnlyEvents d (emit d code status prio rise idx sub data) :=
  (onlyEvents_emitRaw _ _ _ _ _ _ _ _).trans (onlyEvents_settleQueue _ _)

/-- So does writing a level's change. -/
theorem onlyEvents_emitLevel (d : Dev) (code idx sub rec new old : Nat) :
    OnlyEvents d (emitLevel d code idx sub rec new old) :=
  onlyEvents_ite _ (OnlyEvents.refl d) (onlyEvents_emit _ _ _ _ _ _ _ _)

/-- The groves, and all else outside events, stay when an event is written. -/
theorem OnlyEvents.grove {d t : Dev} (h : OnlyEvents d t) (g : Nat) : t.grove g = d.grove g := by rw [h]; rfl
theorem OnlyEvents.mem_eq {d t : Dev} (h : OnlyEvents d t) : t.mem = d.mem := by rw [h]
theorem OnlyEvents.groves_eq {d t : Dev} (h : OnlyEvents d t) : t.groves = d.groves := by rw [h]
theorem OnlyEvents.sw_eq {d t : Dev} (h : OnlyEvents d t) : t.sw = d.sw := by rw [h]
theorem OnlyEvents.colls_eq {d t : Dev} (h : OnlyEvents d t) : t.colls = d.colls := by rw [h]
theorem OnlyEvents.pace_eq {d t : Dev} (h : OnlyEvents d t) : t.pace = d.pace := by rw [h]
theorem OnlyEvents.chans_eq {d t : Dev} (h : OnlyEvents d t) : t.chans = d.chans := by rw [h]
theorem OnlyEvents.slots_eq {d t : Dev} (h : OnlyEvents d t) : t.slots = d.slots := by rw [h]
theorem OnlyEvents.buf_eq {d t : Dev} (h : OnlyEvents d t) : t.buf = d.buf := by rw [h]
theorem OnlyEvents.modes_eq {d t : Dev} (h : OnlyEvents d t) : t.modes = d.modes := by rw [h]
theorem OnlyEvents.health_eq {d t : Dev} (h : OnlyEvents d t) : t.health = d.health := by rw [h]
theorem OnlyEvents.scale_eq {d t : Dev} (h : OnlyEvents d t) : t.scale = d.scale := by rw [h]

/-- A grove's state moved: the new state stands, the rest of the grove stays, and only events change besides. -/
theorem setPhase_grove (d : Dev) (g : Nat) (ph : GPhase) :
    (setPhase d g ph).grove g = { d.grove g with phase := ph } := by
  unfold setPhase
  rw [(onlyEvents_emitLevel _ _ _ _ _ _ _).grove, Dev.grove_setGrove]

theorem setPhase_grove_other (d : Dev) (g h : Nat) (ph : GPhase) (hn : h ≠ g) : (setPhase d g ph).grove h = d.grove h := by
  unfold setPhase
  rw [(onlyEvents_emitLevel _ _ _ _ _ _ _).grove, Dev.grove_setGrove_other _ _ _ _ hn]

theorem setPhase_mem (d : Dev) (g : Nat) (ph : GPhase) : (setPhase d g ph).mem = d.mem := by
  unfold setPhase
  rw [(onlyEvents_emitLevel _ _ _ _ _ _ _).mem_eq]
  rfl

end Sys2Proof.Machine
end

