-- ==== Sys2Proof/Laws/Stacks.lean ====
section
/-! SUPPORT. What the stack interface's reports, and the stores that meet them, may change: device memory, events and what leaves.
And that each of them keeps the form of memory. -/

namespace Sys2Proof.Machine

theorem OnlyMem.refl (d : Dev) : OnlyMem d d := rfl

theorem OnlyMem.trans {d t u : Dev} (h : OnlyMem d t) (k : OnlyMem t u) : OnlyMem d u := by
  unfold OnlyMem OnlyEvents at h k ⊢
  rw [h] at k
  exact k

theorem OnlyEvents.onlyMem {d t : Dev} (h : OnlyEvents d t) : OnlyMem d t := by
  unfold OnlyMem OnlyEvents at *
  rw [h]

theorem onlyMem_mem (d : Dev) (m : Stacks) : OnlyMem d { d with mem := m } := rfl

theorem OnlyMem.ite {d a b : Dev} (c : Prop) [Decidable c] (h : OnlyMem d a) (k : OnlyMem d b) : OnlyMem d (if c then a else b) := by
  split
  · exact h
  · exact k

theorem OnlyMem.foldl {α : Type} (f : Dev → α → Dev) (h : ∀ d x, OnlyMem d (f d x)) (l : List α) (d : Dev) : OnlyMem d (l.foldl f d) := by
  induction l generalizing d with
  | nil => exact OnlyMem.refl d
  | cons a l ih => exact (h d a).trans (ih _)

theorem OnlyMem.groves_eq {d t : Dev} (h : OnlyMem d t) : t.groves = d.groves := OnlyEvents.groves_eq (d := { d with mem := t.mem }) h
theorem OnlyMem.grove {d t : Dev} (h : OnlyMem d t) (g : Nat) : t.grove g = d.grove g := by unfold Dev.grove; rw [h.groves_eq]
theorem OnlyMem.scale_eq {d t : Dev} (h : OnlyMem d t) : t.scale = d.scale := OnlyEvents.scale_eq (d := { d with mem := t.mem }) h
theorem OnlyMem.buf_eq {d t : Dev} (h : OnlyMem d t) : t.buf = d.buf := OnlyEvents.buf_eq (d := { d with mem := t.mem }) h
theorem OnlyMem.pace_eq {d t : Dev} (h : OnlyMem d t) : t.pace = d.pace := OnlyEvents.pace_eq (d := { d with mem := t.mem }) h

/-! ### Each operation of the interface -/

theorem onlyMem_memStat (d : Dev) (s k n : Nat) : OnlyMem d (memStat d s k n) := OnlyMem.ite _ (OnlyMem.refl d) (onlyMem_mem d _)

theorem onlyMem_memStats (d : Dev) (ks : List Nat) (k n : Nat) : OnlyMem d (memStats d ks k n) :=
  OnlyMem.foldl _ (fun d s => onlyMem_memStat d s k n) ks d

theorem poisonEvent_mem (p : Part) (d : Dev) (off cause who : Nat) : (poisonEvent p d off cause who).mem = d.mem :=
  (onlyEvents_emit ..).mem_eq

theorem onlyMem_poisonEvent (p : Part) (d : Dev) (off cause who : Nat) : OnlyMem d (poisonEvent p d off cause who) :=
  (onlyEvents_emit ..).onlyMem

theorem onlyMem_poisonWords (p : Part) (d : Dev) (ks : List Nat) (off : Nat) (ws : List Nat) (cause : Nat) :
    OnlyMem d (poisonWords p d ks off ws cause) :=
  (OnlyMem.trans (onlyMem_mem d _) (onlyMem_memStats ..)).trans (onlyMem_poisonEvent ..)

theorem onlyMem_failCopies (p : Part) (d : Dev) (off : Nat) (ks : List Nat) : OnlyMem d (failCopies p d off ks) := by
  unfold failCopies
  refine OnlyMem.ite _ (OnlyMem.refl d) (OnlyMem.ite _ (onlyMem_poisonWords ..) ?_)
  exact (OnlyMem.trans (onlyMem_mem d _) (onlyMem_memStats ..)).trans (OnlyMem.foldl _ (fun d k => (onlyEvents_emit ..).onlyMem) _ _)

theorem onlyMem_ite2 {d : Dev} {a b : Dev × Bool} (c : Prop) [Decidable c] (h : OnlyMem d a.1) (k : OnlyMem d b.1) :
    OnlyMem d (if c then a else b).1 := by
  split
  · exact h
  · exact k

/-- What the interface reports of an access changes memory, its counters and marks, and events. -/
theorem onlyMem_applyFx (p : Part) (d : Dev) (off : Nat) (fx : StackFx) : OnlyMem d (applyFx p d off fx).1 := by
  have m := fun (d : Dev) (s k n : Nat) => onlyMem_memStat d s k n
  have ms := fun (d : Dev) (ks : List Nat) (k n : Nat) => onlyMem_memStats d ks k n
  have f := fun (d : Dev) (o : Nat) (ks : List Nat) => onlyMem_failCopies p d o ks
  cases fx with
  | clean => exact OnlyMem.refl d
  | corrected => exact m ..
  | reread => exact onlyMem_ite2 _ (m ..) (((m ..).trans (m ..)).trans (m ..))
  | uncorrectable =>
    exact onlyMem_ite2 _ (m ..) ((((ms ..).trans (m ..)).trans (ms ..)).trans (onlyMem_poisonWords ..))
  | partnerRepair =>
    exact onlyMem_ite2 _ (m ..) (onlyMem_ite2 _ (OnlyMem.refl d) ((((m ..).trans (m ..)).trans (m ..)).trans (onlyMem_mem ..)))
  | writeRetried => exact onlyMem_ite2 _ ((ms ..).trans (f ..)) ((ms ..).trans (ms ..))
  | writeFailed => exact (OnlyMem.ite _ (ms ..) ((ms ..).trans (ms ..))).trans (f ..)

/-- So do several reports, one after the other. -/
theorem onlyMem_takeFlaws (p : Part) (d : Dev) (xs : List (Nat × StackFx)) : OnlyMem d (takeFlaws p d xs).1 := by
  have h : ∀ (xs : List (Nat × StackFx)) (acc : Dev × Bool), OnlyMem d acc.1 → OnlyMem d (xs.foldl (fun acc x =>
      let d := { acc.1 with mem := { acc.1.mem with flaws := acc.1.mem.flaws.filter (· != x) } }
      let r := applyFx p d (x.1 / 64 * 64) (firstLine x.2)
      (r.1, acc.2 || r.2)) acc).1 := by
    intro xs
    induction xs with
    | nil => exact fun _ h => h
    | cons x xs ih => exact fun acc h => ih _ ((h.trans (onlyMem_mem acc.1 _)).trans (onlyMem_applyFx ..))
  exact h xs (d, false) (OnlyMem.refl d)

theorem onlyMem_checkRead (p : Part) (d : Dev) (off n : Nat) : OnlyMem d (checkRead p d off n).1 := onlyMem_takeFlaws ..

theorem onlyMem_afterStore (p : Part) (d : Dev) (off n : Nat) : OnlyMem d (afterStore p d off n) := onlyMem_takeFlaws ..

theorem onlyMem_storeDev (d : Dev) (off : Nat) (bs : List Byte) : OnlyMem d (storeDev d off bs) := onlyMem_mem d _

theorem onlyMem_writeArea (p : Part) (d : Dev) (off : Nat) (bs : List Byte) : OnlyMem d (writeArea p d off bs) :=
  (onlyMem_storeDev ..).trans (onlyMem_afterStore ..)

theorem onlyMem_storeHist (p : Part) (d : Dev) (n : Nat) : OnlyMem d (storeHist p d n) := onlyMem_writeArea ..

theorem onlyMem_checkReads (p : Part) (d : Dev) (rs : List (Nat × Nat)) : OnlyMem d (checkReads p d rs).1 := by
  have h : ∀ (rs : List (Nat × Nat)) (acc : Dev × Option Nat), OnlyMem d acc.1 → OnlyMem d (rs.foldl (fun acc r =>
      let y := checkRead p acc.1 r.1 r.2
      (y.1, if acc.2.isNone && y.2 then some (poisonSpot p y.1 r.1 r.2) else acc.2)) acc).1 := by
    intro rs
    induction rs with
    | nil => exact fun _ h => h
    | cons r rs ih => exact fun acc h => ih _ (h.trans (onlyMem_checkRead ..))
  exact h rs (d, none) (OnlyMem.refl d)

/-! ### What the interface does to memory depends on memory alone -/

/-- Two devices alike in all that the stack interface looks at. -/
def LikeMem (d e : Dev) : Prop := d.mem = e.mem ∧ d.pace = e.pace ∧ d.modes = e.modes

theorem OnlyMem.modes_eq {d t : Dev} (h : OnlyMem d t) : t.modes = d.modes := OnlyEvents.modes_eq (d := { d with mem := t.mem }) h

/-- A change of memory alone on each side keeps devices alike when the memories agree. -/
theorem LikeMem.next {d e t u : Dev} (h : LikeMem d e) (a : OnlyMem d t) (b : OnlyMem e u) (m : t.mem = u.mem) : LikeMem t u :=
  ⟨m, a.pace_eq.trans (h.2.1.trans b.pace_eq.symm), a.modes_eq.trans (h.2.2.trans b.modes_eq.symm)⟩

theorem LikeMem.copyStacks {d e : Dev} (h : LikeMem d e) (p : Part) (a : Nat) : copyStacks p d a = copyStacks p e a := by
  simp only [Machine.copyStacks, stackPlace, stackFailed, h.1]

theorem LikeMem.readStack {d e : Dev} (h : LikeMem d e) (p : Part) (a : Nat) : readStack p d a = readStack p e a := by
  simp only [Machine.readStack, stackPlace, h.1]; rfl

theorem LikeMem.inFcm {d e : Dev} (h : LikeMem d e) : d.inFcm = e.inFcm := by simp only [Dev.inFcm, h.2.2]

theorem LikeMem.memStat {d e : Dev} (h : LikeMem d e) (s k n : Nat) : LikeMem (memStat d s k n) (memStat e s k n) := by
  refine h.next (onlyMem_memStat ..) (onlyMem_memStat ..) ?_
  unfold Machine.memStat
  by_cases hn : n = 0
  · rw [if_pos hn, if_pos hn]; exact h.1
  · rw [if_neg hn, if_neg hn]; simp only [h.1]

theorem LikeMem.memStats {d e : Dev} (h : LikeMem d e) (ks : List Nat) (k n : Nat) : LikeMem (memStats d ks k n) (memStats e ks k n) := by
  unfold Machine.memStats
  induction ks generalizing d e with
  | nil => exact h
  | cons s ks ih => exact ih (h.memStat ..)

theorem LikeMem.poisonWords {d e : Dev} (h : LikeMem d e) (p : Part) (ks : List Nat) (off : Nat) (ws : List Nat) (cause : Nat) :
    LikeMem (poisonWords p d ks off ws cause) (poisonWords p e ks off ws cause) := by
  refine h.next (onlyMem_poisonWords ..) (onlyMem_poisonWords ..) ?_
  unfold Machine.poisonWords
  dsimp only
  rw [poisonEvent_mem, poisonEvent_mem]
  refine And.left (LikeMem.memStats ?_ ks 4 ws.length)
  refine ⟨?_, h.2.1, h.2.2⟩
  simp only [logPoison, h.1, h.2.1]

theorem foldEmit_mem (f : Dev → Nat → Dev) (hf : ∀ d k, (f d k).mem = d.mem) (ks : List Nat) (d : Dev) : (ks.foldl f d).mem = d.mem := by
  induction ks generalizing d with
  | nil => rfl
  | cons k ks ih => rw [List.foldl_cons, ih, hf]

theorem LikeMem.failCopies {d e : Dev} (h : LikeMem d e) (p : Part) (off : Nat) (ks : List Nat) :
    LikeMem (failCopies p d off ks) (failCopies p e off ks) := by
  refine h.next (onlyMem_failCopies ..) (onlyMem_failCopies ..) ?_
  unfold Machine.failCopies
  rw [h.copyStacks]
  split
  · exact h.1
  · split
    · exact (h.poisonWords ..).1
    · rw [foldEmit_mem _ (fun _ _ => (onlyEvents_emit ..).mem_eq), foldEmit_mem _ (fun _ _ => (onlyEvents_emit ..).mem_eq)]
      refine And.left (LikeMem.memStats ?_ ks 4 8)
      refine ⟨?_, h.2.1, h.2.2⟩
      simp only [logPoison, h.1, h.2.1]

theorem like_ite {c : Prop} [Decidable c] {a b x y : Dev × Bool} (h : LikeMem a.1 x.1 ∧ a.2 = x.2) (k : LikeMem b.1 y.1 ∧ b.2 = y.2) :
    LikeMem (if c then a else b).1 (if c then x else y).1 ∧ (if c then a else b).2 = (if c then x else y).2 := by
  split
  · exact h
  · exact k

/-- What the interface reports of an access does the same to devices that are alike. -/
theorem LikeMem.applyFx {d e : Dev} (h : LikeMem d e) (p : Part) (off : Nat) (fx : StackFx) :
    LikeMem (applyFx p d off fx).1 (applyFx p e off fx).1 ∧ (applyFx p d off fx).2 = (applyFx p e off fx).2 := by
  have ws : ∀ a c, writeStacks p d a c = writeStacks p e a c := fun a c => by simp only [writeStacks, h.copyStacks, h.1]
  cases fx with
  | clean => exact ⟨h, rfl⟩
  | corrected => simp only [Machine.applyFx, h.readStack]; exact ⟨h.memStat .., trivial⟩
  | reread =>
    simp only [Machine.applyFx, h.readStack, h.inFcm]
    exact like_ite ⟨h.memStat .., rfl⟩ ⟨((h.memStat ..).memStat ..).memStat .., rfl⟩
  | uncorrectable =>
    simp only [Machine.applyFx, h.readStack, h.inFcm, h.copyStacks]
    exact like_ite ⟨h.memStat .., rfl⟩ ⟨(((h.memStats ..).memStat ..).memStats ..).poisonWords .., rfl⟩
  | partnerRepair line crcs =>
    simp only [Machine.applyFx, h.readStack, h.inFcm, h.copyStacks]
    refine like_ite ⟨h.memStat .., rfl⟩ (like_ite ⟨h, rfl⟩ ⟨?_, rfl⟩)
    have k := ((h.memStat (Machine.readStack p e (off / 64 * 64 + line * 64)).1 1 1).memStat
      (Machine.readStack p e (off / 64 * 64 + line * 64)).1 7 crcs).memStat (Machine.readStack p e (off / 64 * 64 + line * 64)).1 5 1
    exact ⟨by simp only [k.1], k.2⟩
  | writeRetried =>
    simp only [Machine.applyFx, h.inFcm, ws]
    exact like_ite ⟨(h.memStats ..).failCopies .., rfl⟩ ⟨(h.memStats ..).memStats .., rfl⟩
  | writeFailed =>
    simp only [Machine.applyFx, h.inFcm, ws]
    refine ⟨LikeMem.failCopies ?_ .., trivial⟩
    split
    · exact h.memStats ..
    · exact (h.memStats ..).memStats ..

/-- So do several reports. -/
theorem LikeMem.takeFlaws {d e : Dev} (h : LikeMem d e) (p : Part) (xs : List (Nat × StackFx)) :
    LikeMem (takeFlaws p d xs).1 (takeFlaws p e xs).1 ∧ (takeFlaws p d xs).2 = (takeFlaws p e xs).2 := by
  unfold Machine.takeFlaws
  generalize hd : (d, false) = a
  generalize he : (e, false) = b
  have k : LikeMem a.1 b.1 ∧ a.2 = b.2 := by subst hd he; exact ⟨h, rfl⟩
  clear hd he h
  induction xs generalizing a b with
  | nil => exact k
  | cons x xs ih =>
    refine ih _ _ ?_
    have j : LikeMem { a.1 with mem := { a.1.mem with flaws := a.1.mem.flaws.filter (· != x) } }
        { b.1 with mem := { b.1.mem with flaws := b.1.mem.flaws.filter (· != x) } } := ⟨by simp only [k.1.1], k.1.2⟩
    have y := j.applyFx p (x.1 / 64 * 64) (firstLine x.2)
    exact ⟨y.1, by dsimp only; rw [k.2, y.2]⟩

theorem LikeMem.hitFlaws {d e : Dev} (h : LikeMem d e) (p : Part) (w : Bool) (off n : Nat) : hitFlaws p d w off n = hitFlaws p e w off n := by
  simp only [Machine.hitFlaws, h.copyStacks, h.readStack, h.1]

/-! ### A store that the interface performs without report -/

@[simp] theorem takeFlaws_nil (p : Part) (d : Dev) : takeFlaws p d [] = (d, false) := rfl

/-- Of a write the interface has its own reports alone. -/
theorem hitFlaws_write (p : Part) (d : Dev) (off n : Nat) : hitFlaws p d true off n =
    d.mem.flaws.filter (fun x => fxIsWrite x.2 == true && (decide (off / 64 * 64 ≤ x.1) && decide (x.1 < off + n))) := by
  simp [hitFlaws]

theorem hitFlaws_storeDev (p : Part) (d : Dev) (g : Nat) (v : Grove) (off n o : Nat) (bs : List Byte) :
    hitFlaws p (storeDev (d.setGrove g v) o bs) true off n = hitFlaws p d true off n := by
  rw [hitFlaws_write, hitFlaws_write]
  rfl

/-- A write of which the interface has nothing to report stands as it was made. -/
theorem afterStore_clean (p : Part) (d : Dev) (off n : Nat) (h : hitFlaws p d true off n = []) : afterStore p d off n = d := by
  unfold afterStore; rw [h]; rfl

/-- A read of which the interface has nothing to report, and which meets no poison, may be used. -/
theorem checkRead_clean (p : Part) (d : Dev) (off n : Nat) (h : hitFlaws p d false off n = []) (k : readPoison p d off n = false) :
    checkRead p d off n = (d, false) := by
  simp only [checkRead, h, takeFlaws_nil, k, Bool.or_false]

/-- So may several. -/
theorem checkReads_clean (p : Part) (d : Dev) (rs : List (Nat × Nat)) (h : ∀ r ∈ rs, hitFlaws p d false r.1 r.2 = [])
    (k : ∀ r ∈ rs, readPoison p d r.1 r.2 = false) : checkReads p d rs = (d, none) := by
  unfold checkReads
  induction rs with
  | nil => rfl
  | cons r rs ih =>
    simp only [List.foldl_cons, checkRead_clean p d r.1 r.2 (h r List.mem_cons_self) (k r List.mem_cons_self), Bool.and_false,
      Bool.false_eq_true, if_false]
    exact ih (fun x hx => h x (List.mem_cons_of_mem _ hx)) (fun x hx => k x (List.mem_cons_of_mem _ hx))

/-! ### Memory keeps its form -/

/-- Clean ranges are read as they stand. -/
theorem checkReads_of_clean (p : Part) (d : Dev) (rs : List (Nat × Nat)) (h : cleanReads p d rs = true) : checkReads p d rs = (d, none) := by
  simp only [cleanReads, List.all_eq_true, Bool.and_eq_true, List.isEmpty_iff, Bool.not_eq_true'] at h
  exact checkReads_clean p d rs (fun r hr => (h r hr).1) (fun r hr => (h r hr).2)

theorem memStat_bytes (d : Dev) (s k n : Nat) : (memStat d s k n).mem.mem = d.mem.mem := by
  unfold memStat; split <;> rfl

theorem memStats_bytes (d : Dev) (ks : List Nat) (k n : Nat) : (memStats d ks k n).mem.mem = d.mem.mem := by
  unfold memStats
  induction ks generalizing d with
  | nil => rfl
  | cons s ks ih => rw [List.foldl_cons, ih, memStat_bytes]

/-- Poisoning words keeps the form of device memory. -/
theorem wf_poisonWords (p : Part) (d : Dev) (ks : List Nat) (off : Nat) (ws : List Nat) (cause : Nat)
    (h : Mem.wf 0#8 d.mem.mem = true) : Mem.wf 0#8 (poisonWords p d ks off ws cause).mem.mem = true := by
  have k : ∀ (ws : List Nat) (m : Mem), Mem.wf 0#8 m = true →
      Mem.wf 0#8 (ws.foldl (fun m w => m.writeN 0#8 (w * 8) (List.replicate 8 0)) m) = true := by
    intro ws
    induction ws with
    | nil => exact fun _ h => h
    | cons w ws ih => exact fun m h => ih _ (Mem.wf_writeN _ _ _ _ h)
  unfold poisonWords
  dsimp only
  rw [poisonEvent_mem, memStats_bytes]
  exact k ws _ h

theorem wf_failCopies (p : Part) (d : Dev) (off : Nat) (ks : List Nat) (h : Mem.wf 0#8 d.mem.mem = true) :
    Mem.wf 0#8 (failCopies p d off ks).mem.mem = true := by
  unfold failCopies
  split
  · exact h
  · split
    · exact wf_poisonWords _ _ _ _ _ _ h
    · rw [foldEmit_mem _ (fun _ _ => (onlyEvents_emit ..).mem_eq), memStats_bytes]
      exact h

theorem wf_ite2 {a b : Dev × Bool} (c : Prop) [Decidable c] (h : Mem.wf 0#8 a.1.mem.mem = true) (k : Mem.wf 0#8 b.1.mem.mem = true) :
    Mem.wf 0#8 (if c then a else b).1.mem.mem = true := by
  split
  · exact h
  · exact k

/-- What the interface reports keeps the form of device memory. -/
theorem wf_applyFx (p : Part) (d : Dev) (off : Nat) (fx : StackFx) (h : Mem.wf 0#8 d.mem.mem = true) :
    Mem.wf 0#8 (applyFx p d off fx).1.mem.mem = true := by
  cases fx with
  | clean => exact h
  | corrected => exact (congrArg (Mem.wf 0#8) (memStat_bytes ..)).trans h
  | reread => refine wf_ite2 _ ?_ ?_ <;> simpa only [memStat_bytes] using h
  | uncorrectable =>
    refine wf_ite2 _ ?_ (wf_poisonWords _ _ _ _ _ _ ?_) <;> simpa only [memStat_bytes, memStats_bytes] using h
  | partnerRepair => refine wf_ite2 _ ?_ (wf_ite2 _ h ?_) <;> simpa only [memStat_bytes] using h
  | writeRetried =>
    refine wf_ite2 _ (wf_failCopies _ _ _ _ ?_) ?_ <;> simpa only [memStats_bytes] using h
  | writeFailed =>
    refine wf_failCopies _ _ _ _ ?_
    split <;> simpa only [memStats_bytes] using h

theorem wf_takeFlaws (p : Part) (d : Dev) (xs : List (Nat × StackFx)) (h : Mem.wf 0#8 d.mem.mem = true) :
    Mem.wf 0#8 (takeFlaws p d xs).1.mem.mem = true := by
  have k : ∀ (xs : List (Nat × StackFx)) (acc : Dev × Bool), Mem.wf 0#8 acc.1.mem.mem = true →
      Mem.wf 0#8 (xs.foldl (fun acc x =>
        let d := { acc.1 with mem := { acc.1.mem with flaws := acc.1.mem.flaws.filter (· != x) } }
        let r := applyFx p d (x.1 / 64 * 64) (firstLine x.2)
        (r.1, acc.2 || r.2)) acc).1.mem.mem = true := by
    intro xs
    induction xs with
    | nil => exact fun _ h => h
    | cons x xs ih => exact fun acc h => ih _ (wf_applyFx _ _ _ _ h)
  exact k xs (d, false) h

theorem wf_afterStore (p : Part) (d : Dev) (off n : Nat) (h : Mem.wf 0#8 d.mem.mem = true) :
    Mem.wf 0#8 (afterStore p d off n).mem.mem = true := wf_takeFlaws _ _ _ h

theorem wf_storeDev (d : Dev) (off : Nat) (bs : List Byte) (h : Mem.wf 0#8 d.mem.mem = true) :
    Mem.wf 0#8 (storeDev d off bs).mem.mem = true := Mem.wf_writeN _ _ _ _ h

theorem wf_writeArea (p : Part) (d : Dev) (off : Nat) (bs : List Byte) (h : Mem.wf 0#8 d.mem.mem = true) :
    Mem.wf 0#8 (writeArea p d off bs).mem.mem = true := wf_afterStore _ _ _ _ (wf_storeDev _ _ _ h)

end Sys2Proof.Machine
end

