-- ==== Sys2Proof/Laws/GroveWork.lean ====
section
/-! SUPPORT. What a grove's own work changes, said once for each shared operation of the sequencer and the engines: the grove, device
memory, the dictionary, the scaling contexts, the event log, counters and what leaves; nothing else. -/

namespace Sys2Proof.Machine

theorem OnlyGrove.refl (g : Nat) (d : Dev) : OnlyGrove g d d := ⟨fun _ _ => rfl, rfl⟩

theorem OnlyGrove.trans {g : Nat} {d t u : Dev} (h : OnlyGrove g d t) (k : OnlyGrove g t u) : OnlyGrove g d u :=
  ⟨fun x hx => (k.1 x hx).trans (h.1 x hx), k.2.trans h.2⟩

theorem OnlyGrove.ite {g : Nat} {d a b : Dev} (c : Prop) [Decidable c] (h : OnlyGrove g d a) (k : OnlyGrove g d b) :
    OnlyGrove g d (if c then a else b) := by
  split
  · exact h
  · exact k

theorem OnlyGrove.foldl {α : Type} {g : Nat} (f : Dev → α → Dev) (h : ∀ d x, OnlyGrove g d (f d x)) (l : List α) (d : Dev) :
    OnlyGrove g d (l.foldl f d) := by
  induction l generalizing d with
  | nil => exact OnlyGrove.refl g d
  | cons a l ih => exact (h d a).trans (ih _)

theorem onlyGrove_setGrove (g : Nat) (d : Dev) (gr : Grove) : OnlyGrove g d (d.setGrove g gr) :=
  ⟨fun _ hx => Dev.grove_setGrove_other _ _ _ _ hx, rfl⟩

/-- A change that touches neither a grove nor what `beside` lists. -/
theorem onlyGrove_same {g : Nat} {d t : Dev} (h : t.groves = d.groves) (k : beside t = beside d) : OnlyGrove g d t :=
  ⟨fun x _ => by unfold Dev.grove; rw [h], k⟩

theorem OnlyEvents.onlyGrove {d t : Dev} (g : Nat) (h : OnlyEvents d t) : OnlyGrove g d t :=
  onlyGrove_same h.groves_eq (by unfold OnlyEvents at h; rw [h]; rfl)

theorem OnlyMem.onlyGrove {d t : Dev} (g : Nat) (h : OnlyMem d t) : OnlyGrove g d t :=
  onlyGrove_same h.groves_eq (by unfold OnlyMem OnlyEvents at h; rw [h]; rfl)

theorem onlyGrove_emit (g : Nat) (d : Dev) (code status prio : Nat) (rise : Bool) (idx sub data : Nat) :
    OnlyGrove g d (emit d code status prio rise idx sub data) := (onlyEvents_emit ..).onlyGrove g

theorem onlyGrove_setPhase (d : Dev) (g : Nat) (ph : GPhase) : OnlyGrove g d (setPhase d g ph) :=
  (onlyGrove_setGrove ..).trans ((onlyEvents_emitLevel ..).onlyGrove g)

theorem onlyGrove_ringPut (d : Dev) (g rec : Nat) : OnlyGrove g d (ringPut d g rec) :=
  OnlyGrove.ite _ (OnlyGrove.refl g d) (onlyGrove_setGrove ..)

theorem onlyGrove_tracePut (p : Part) (d : Dev) (g a b c e f : Nat) : OnlyGrove g d (tracePut p d g a b c e f) :=
  OnlyGrove.ite _ (OnlyGrove.refl g d)
    (OnlyGrove.ite _ ((onlyGrove_setGrove ..).trans (((onlyMem_storeDev ..).trans (onlyMem_afterStore ..)).onlyGrove g)) (onlyGrove_setGrove ..))

theorem onlyGrove_haltGrove (p : Part) (d : Dev) (g : Nat) (h : HaltInfo) : OnlyGrove g d (haltGrove p d g h) :=
  OnlyGrove.ite _ (onlyGrove_emit ..) (OnlyGrove.ite _ (OnlyGrove.refl g d)
    (((((onlyGrove_setGrove ..).trans (onlyGrove_ringPut ..)).trans (onlyGrove_tracePut ..)).trans (onlyGrove_emit ..)).trans
      (onlyGrove_setPhase ..)))

theorem onlyGrove_seqFault (p : Part) (d : Dev) (g fault status : Nat) : OnlyGrove g d (seqFault p d g fault status) :=
  onlyGrove_haltGrove ..

theorem onlyGrove_limitHalt (p : Part) (d : Dev) (g : Nat) : OnlyGrove g d (limitHalt p d g) :=
  (onlyGrove_same rfl rfl : OnlyGrove g d (d.inc 0x4103 2 0)).trans (onlyGrove_seqFault ..)

theorem onlyGrove_freeScale (g : Nat) (d : Dev) (n : Nat) (entry : Option (Nat × Nat)) : OnlyGrove g d (freeScale d n entry) := by
  unfold freeScale
  dsimp only
  split <;> exact onlyGrove_same rfl rfl

theorem onlyGrove_dropCtx (d : Dev) (g e c : Nat) : OnlyGrove g d (dropCtx d g e c) := by
  unfold dropCtx
  dsimp only
  split
  · exact (onlyGrove_setGrove ..).trans (onlyGrove_freeScale ..)
  · exact onlyGrove_setGrove ..

theorem onlyGrove_ctxFault (p : Part) (d : Dev) (g e c code status addr : Nat) :
    OnlyGrove g d (ctxFault p d g e c code status addr) :=
  ((onlyGrove_setGrove ..).trans (onlyGrove_haltGrove ..)).trans (onlyGrove_dropCtx ..)

theorem onlyGrove_eccFault (p : Part) (d : Dev) (g e c a n : Nat) : OnlyGrove g d (eccFault p d g e c a n) := by
  unfold eccFault
  dsimp only
  refine OnlyGrove.trans ?_ (onlyGrove_ctxFault ..)
  split
  · exact (onlyMem_poisonEvent ..).onlyGrove g
  · exact OnlyGrove.refl g d

theorem onlyGrove_sendReqs (d : Dev) (g : Nat) (rs : List GroveReq) : OnlyGrove g d (sendReqs d g rs) := by
  unfold sendReqs
  dsimp only
  refine (onlyGrove_setGrove ..).trans (OnlyGrove.foldl _ (fun d r => ?_) _ _)
  exact onlyGrove_same rfl rfl

theorem onlyGrove_storeLocal (p : Part) (g e : Nat) (d : Dev) (w : Wr) : OnlyGrove g d (storeLocal p g e d w) := by
  unfold storeLocal
  dsimp only
  split
  · exact onlyGrove_setGrove ..
  · exact onlyGrove_setGrove ..
  · exact (onlyMem_storeDev ..).onlyGrove g
  · exact OnlyGrove.refl g d

theorem onlyGrove_addTally (g : Nat) (d : Dev) (t : Tally) : OnlyGrove g d (addTally d t) := by
  have h : ∀ (d : Dev) (i n : Nat), OnlyGrove g d (if n = 0 then d else d.inc i 0 0 n) :=
    fun d i n => OnlyGrove.ite _ (OnlyGrove.refl g d) (onlyGrove_same rfl rfl)
  exact (((((h d _ _).trans (h _ _ _)).trans (h _ _ _)).trans (h _ _ _)).trans (h _ _ _)).trans (h _ _ _)

theorem onlyGrove_stepDone (p : Part) (d : Dev) (g e c : Nat) (r : StepRes) : OnlyGrove g d (stepDone p d g e c r) :=
  (OnlyGrove.foldl _ (onlyGrove_storeLocal p g e) _ _).trans
    ((onlyGrove_sendReqs ..).trans ((onlyGrove_addTally ..).trans (OnlyGrove.trans (onlyGrove_same rfl rfl) (onlyGrove_setGrove ..))))

theorem onlyGrove_readFlaws (p : Part) (g : Nat) (gr : Grove) (rs : List Rd) (d : Dev) : OnlyGrove g d (readFlaws p gr d rs).1 := by
  induction rs generalizing d with
  | nil => exact OnlyGrove.refl g d
  | cons r rs ih =>
    unfold readFlaws
    dsimp only
    split
    · exact (onlyMem_takeFlaws ..).onlyGrove g
    · exact ((onlyMem_takeFlaws ..).onlyGrove g).trans (ih _)

theorem onlyGrove_stepEnd (p : Part) (d : Dev) (g e c : Nat) (r : StepRes) : OnlyGrove g d (stepEnd p d g e c r) :=
  (onlyGrove_stepDone ..).trans ((onlyMem_takeFlaws ..).onlyGrove g)

theorem onlyGrove_askLines (p : Part) (d : Dev) (g e c : Nat) (miss : List Nat) : OnlyGrove g d (askLines p d g e c miss) :=
  (onlyGrove_setGrove ..).trans (onlyGrove_sendReqs ..)

theorem onlyGrove_runStep (p : Part) (d : Dev) (g e c : Nat) (r : StepRes) : OnlyGrove g d (runStep p d g e c r) := by
  have hr := onlyGrove_readFlaws p g (d.grove g) r.reads d
  unfold runStep
  dsimp only
  split
  · exact (onlyGrove_setGrove ..).trans (onlyGrove_ctxFault ..)
  · split
    · exact onlyGrove_ctxFault ..
    · split
      · exact onlyGrove_ctxFault ..
      · split
        · exact onlyGrove_ctxFault ..
        · split
          · exact onlyGrove_setGrove ..
          · split
            · exact onlyGrove_askLines ..
            · refine hr.trans ?_
              split
              · exact onlyGrove_eccFault ..
              · split
                · refine OnlyGrove.trans ?_ (onlyGrove_ctxFault ..)
                  exact OnlyGrove.ite _ (onlyGrove_same rfl rfl) (OnlyGrove.refl g _)
                · split
                  · exact onlyGrove_ctxFault ..
                  · exact onlyGrove_stepEnd ..

theorem onlyGrove_copyFx (p : Part) (g : Nat) (d : Dev) (gr : Grove) (a n : Nat) (fx : StackFx) :
    OnlyGrove g d (copyFx p d gr a n fx).1 := by
  unfold copyFx
  split
  · exact (onlyMem_applyFx ..).onlyGrove g
  · exact OnlyGrove.refl g d

theorem onlyGrove_settleEnd (d : Dev) (g : Nat) : OnlyGrove g d (settleEnd d g) :=
  OnlyGrove.ite _ ((onlyGrove_setGrove ..).trans ((onlyGrove_setGrove ..).trans (onlyGrove_setPhase ..))) (onlyGrove_setGrove ..)

theorem onlyGrove_boundary (d : Dev) (g : Nat) (next : Grove → Grove) : OnlyGrove g d (boundary d g next) := by
  unfold boundary
  dsimp only
  split
  · exact onlyGrove_setGrove ..
  · split
    · exact onlyGrove_setGrove ..
    · split
      · exact onlyGrove_setGrove ..
      · exact (onlyGrove_setGrove ..).trans (onlyGrove_emit ..)

/-- An instruction of the sequencer changes only its grove if its effect does. -/
theorem seqRun_onlyGrove {g op : Nat} {s t : State} (f : Part → Dev → Nat → Dev) (h : seqRun g op s f = .next t)
    (hf : ∀ p d w, OnlyGrove g d (f p d w)) : OnlyGrove g s.dev t.dev := by
  unfold seqRun liftAt at h
  split at h
  · unfold lift at h
    injection h with h
    subst h
    show OnlyGrove g s.dev (match seqWord s.dev g op with | some w => f s.part s.dev w | none => s.dev)
    split
    · exact hf ..
    · exact OnlyGrove.refl g _
  · cases h

/-- A meaning at a unit changes only a grove if its effect does. -/
theorem liftAt_onlyGrove {g : Nat} {c : Bool} {s t : State} (f : Part → Dev → Dev) (h : liftAt s c f = .next t)
    (hf : ∀ p d, OnlyGrove g d (f p d)) : OnlyGrove g s.dev t.dev := by
  unfold liftAt at h
  split at h
  · unfold lift at h
    injection h with h
    subst h
    exact hf ..
  · cases h

/-- An engine command's step changes only its grove. -/
theorem engineStep_onlyGrove {g e c opc : Nat} {sub : Option Nat} {s t : State} {f : Stp → StepRes}
    (h : engineStep g e c opc sub s f = .next t) : OnlyGrove g s.dev t.dev :=
  liftAt_onlyGrove _ h fun _ d => OnlyGrove.ite _ (OnlyGrove.refl g d) (onlyGrove_runStep ..)

/-- Taking a scaling context changes only the grove, the context and its naming. -/
theorem onlyGrove_takeScale (t : Stp) (vals : Stp → List Num) (f : Stp → StepRes) : OnlyGrove t.g t.d (takeScale t vals f) := by
  unfold takeScale
  dsimp only
  refine OnlyGrove.trans ?_ (onlyGrove_setGrove ..)
  refine OnlyGrove.trans ?_ (onlyGrove_same rfl rfl)
  exact OnlyGrove.ite _ (OnlyGrove.refl ..) (onlyGrove_same rfl rfl)

/-- A step of a converting command changes only its grove. -/
theorem scaledStep_onlyGrove {g e c opc : Nat} {sub : Option Nat} {s t : State} {vals : Stp → List Num} {f : Stp → StepRes}
    (h : scaledStep g e c opc sub s vals f = .next t) : OnlyGrove g s.dev t.dev :=
  liftAt_onlyGrove _ h fun p d => OnlyGrove.ite _ (OnlyGrove.refl g d)
    (OnlyGrove.ite _ (onlyGrove_runStep ..) (OnlyGrove.ite _ (onlyGrove_setGrove ..)
      (OnlyGrove.ite _ ((onlyGrove_setGrove ..).trans (onlyGrove_askLines ..)) (by
        refine OnlyGrove.trans ((onlyMem_checkReads p d [histRange p d (cvCtx (stepOf p d g e c).cvt)]).onlyGrove g) ?_
        dsimp only
        split
        · exact ((onlyMem_poisonEvent ..).onlyGrove g).trans (onlyGrove_ctxFault ..)
        · exact (onlyGrove_takeScale (stepOf p _ g e c) vals f).trans (onlyGrove_runStep ..)))))

end Sys2Proof.Machine
end

