-- ==== Sys2Proof/Laws/Serve.lean ====
section
/-! SUPPORT. What a dictionary request comes to, once for reads and once for writes; and what a meaning answers. -/

namespace Sys2Proof.Machine

/-- A meaning of the device alone answers the state with its device changed. -/
theorem lift_next (s : State) (f : Part → Dev → Dev) : lift s f = .next { s with dev := f s.part s.dev } := rfl

/-- A meaning at a unit that exists answers the same. -/
theorem liftAt_next (s : State) (b : Bool) (f : Part → Dev → Dev) (h : b = true) :
    liftAt s b f = .next { s with dev := f s.part s.dev } := by
  simp [liftAt, lift, h]

/-- A meaning at a unit that does not exist stops. -/
theorem liftAt_fault (s : State) (b : Bool) (f : Part → Dev → Dev) (h : b = false) :
    liftAt s b f = .fault .noSuchUnit := by
  simp [liftAt, h]

theorem dropAsm_none (d : Dev) (c : Nat) (h : (d.chan c).asm = none) : dropAsm d c = d := by
  simp [dropAsm, h]

/-- What it is for a request to be taken as new: it has been received, and its channel has neither seen it nor an open assembly. -/
theorem taken_some {d : Dev} {rq : Rq} {k : Call} {c : Nat} {d1 : Dev} (h : taken d rq k = some (c, d1)) :
    ∃ d0, receive d rq k = .ok d0 ∧ enterChan d0 rq.path = (c, d1) ∧ verdict (d1.chan c) rq.seq k.image = .run ∧
      (d1.chan c).asm = none := by
  unfold taken at h
  split at h
  · exact absurd h (by simp)
  · rename_i d0 hr
    dsimp only at h
    split at h
    · rename_i hv
      have h := Option.some.inj h
      simp only [h, Bool.and_eq_true, decide_eq_true_eq, Option.isNone_iff_eq_none] at hv
      exact ⟨d0, hr, h, hv.1, hv.2⟩
    · exact absurd h (by simp)

/-- A request taken as new runs on its channel. -/
theorem serve_of_taken {d : Dev} {rq : Rq} {k : Call} {c : Nat} {d1 : Dev} (act : Act) (h : taken d rq k = some (c, d1)) :
    (d1.chan c).asm = none ∧
    serve d rq k act = finish c rq k.image (if k.op != 2 then runOther d1 c k act
      else if k.last then runWrite d1 c rq.path k act else runSegment d1 c rq.path k) := by
  obtain ⟨d0, hr, he, hv, ha⟩ := taken_some h
  simp only [serve, serveTaken, serveOn, hr, he, hv, ha, true_and]

/-- A request that need not wait is served like any other. -/
theorem serveOrHold_serve (d : Dev) (rq : Rq) (k : Call) (act : Act) (held : Dev → Dev) :
    serveOrHold d rq k act false held = serve d rq k act := by
  unfold serveOrHold serve
  split <;> rfl

/-- A read that no gate stops: the object's rule answers. -/
theorem serve_of_readTaken {d : Dev} {rq : Rq} {k : Call} {c : Nat} {d1 d2 : Dev} {r : Rsp} (act : Act)
    (h : readTaken d rq k = some (c, d1)) (ha : act c d1 = (d2, some r)) : serve d rq k act = answered c rq k d2 r := by
  unfold readTaken at h
  split at h
  · rename_i x hx
    split at h
    · rename_i hg
      simp only [Bool.and_eq_true, Option.isNone_iff_eq_none] at hg
      have h := Option.some.inj h
      subst h
      obtain ⟨hn, hs⟩ := serve_of_taken act hx
      rw [hs, if_pos hg.1]
      simp only [runOther, dropAsm_none _ _ hn, hg.2, ha, finish, answered]
    · exact absurd h (by simp)
  · exact absurd h (by simp)

/-- A write that no gate stops runs its object's rule; an answer is kept and re-arms the lock of an rk object. -/
theorem serve_write_run {d : Dev} {rq : Rq} {k : Call} {c : Nat} {d1 : Dev} (act : Act)
    (h : writeTaken d rq k = some (c, d1)) : serve d rq k act = finish c rq k.image (match act c d1 with
      | (d2, none) => (d2, none)
      | (d2, some r) => (rearm d2 c k.idx k.sub, some r)) := by
  unfold writeTaken at h
  split at h
  · rename_i c' d' hx
    dsimp only at h
    split at h
    · rename_i hg
      simp only [Bool.and_eq_true, decide_eq_true_eq, Option.isNone_iff_eq_none, Bool.not_eq_true'] at hg
      obtain ⟨⟨⟨⟨h1, h2⟩, h3⟩, h4⟩, h5⟩ := hg
      have h := Option.some.inj h
      have e1 := congrArg Prod.fst h
      have e2 := congrArg Prod.snd h
      dsimp only at e1 e2
      subst e1 e2
      obtain ⟨hn, hs⟩ := serve_of_taken act hx
      rw [hs]
      have ho : (k.op != 2) = false := by simp [h1]
      have hl : decide (294912 < k.bytes.length) = false := by simp only [decide_eq_false_iff_not]; omega
      simp only [ho, h2, Bool.false_eq_true, if_false, if_true]
      unfold runWrite
      simp only [hn, dropAsm_none _ _ hn, Bool.false_eq_true, if_false, Bool.false_and, List.length_nil, Nat.sub_zero, h3, hl, Bool.or_false]
      rw [h5] <;> rfl
    · exact absurd h (by simp)
  · exact absurd h (by simp)

/-- A write that no gate stops: the object's rule answers, and a write of an rk object re-arms the lock. -/
theorem serve_of_writeTaken {d : Dev} {rq : Rq} {k : Call} {c : Nat} {d1 d2 : Dev} {r : Rsp} (act : Act)
    (h : writeTaken d rq k = some (c, d1)) (ha : act c d1 = (d2, some r)) : serve d rq k act = written c rq k d2 r := by
  rw [serve_write_run act h, ha]
  rfl

/-- A write that no gate stops and that resets the device: nothing of the channel is left. -/
theorem serve_of_writeTaken_reset {d : Dev} {rq : Rq} {k : Call} {c : Nat} {d1 d2 : Dev} (act : Act)
    (h : writeTaken d rq k = some (c, d1)) (ha : act c d1 = (d2, none)) : serve d rq k act = d2 := by
  rw [serve_write_run act h, ha]
  rfl

/-- A write whose object's rule gives a device and a status. -/
theorem serveWrite_of_writeTaken {d : Dev} {rq : Rq} {idx sub : Nat} {bs : List Byte} {c : Nat} {d1 : Dev}
    (rule : Dev → Dev × Nat) (h : writeTaken d rq (Call.write idx sub bs) = some (c, d1)) :
    serveWrite d rq idx sub bs rule = written c rq (Call.write idx sub bs) (rule d1).1 (Rsp.st (rule d1).2) :=
  serve_of_writeTaken _ h rfl

end Sys2Proof.Machine
end

