-- ==== Sys2Proof/Laws/Steps.lean ====
section
/-! SUPPORT. The sequencer's and the engines' shared steps, said once: what they answer when the instruction is next or the step is
clean, and where a step's stores go. -/

namespace Sys2Proof.Machine

/-- The instruction that is next has its effect. -/
theorem seqRun_next {g op w : Nat} {s : State} (f : Part → Dev → Nat → Dev) (hg : g < s.part.groves)
    (hw : seqWord s.dev g op = some w) : seqRun g op s f = .next { s with dev := f s.part s.dev w } := by
  simp [seqRun, liftAt, lift, hg, hw]

/-- An instruction that is not next changes nothing. -/
theorem seqRun_idle {g op : Nat} {s : State} (f : Part → Dev → Nat → Dev) (hg : g < s.part.groves)
    (hw : seqWord s.dev g op = none) : seqRun g op s f = .next s := by
  simp [seqRun, liftAt, lift, hg, hw]

/-- Reads of which the interface has nothing to report change nothing. -/
theorem readFlaws_clean (p : Part) (gr : Grove) (d : Dev) (rs : List Rd)
    (h : (rs.all fun x => (rangeFlaws p d gr false x.addr x.len).isEmpty) = true) : readFlaws p gr d rs = (d, none) := by
  induction rs with
  | nil => rfl
  | cons r rs ih =>
    simp only [List.all_cons, Bool.and_eq_true, List.isEmpty_iff] at h
    simp only [readFlaws, h.1, takeFlaws_nil, Bool.false_eq_true, if_false]
    exact ih (by simpa only [List.isEmpty_iff] using h.2)

/-- A step with nothing to report of its writes ends as it is done. -/
theorem stepEnd_clean {p : Part} {d : Dev} {g e c : Nat} {r : StepRes} (h : writeFlaws p d (d.grove g) r = []) :
    stepEnd p d g e c r = stepDone p d g e c r := by
  unfold stepEnd; rw [h]; rfl

/-- A clean step is done. -/
theorem runStep_clean {p : Part} {d : Dev} {g e c : Nat} {r : StepRes} (h : cleanStep p d g e c r = true) :
    runStep p d g e c r = stepDone p d g e c r := by
  unfold cleanStep at h
  simp only [Bool.and_eq_true, Bool.not_eq_true', Option.isNone_iff_eq_none, List.isEmpty_iff] at h
  obtain ⟨⟨⟨⟨⟨⟨h1, h0⟩, h2⟩, h3⟩, h4⟩, h5⟩, h6⟩ := h
  unfold runStep
  simp only [h0, h1, h4, h5, h6, readFlaws_clean _ _ _ _ h2, stepEnd_clean h3, deadLine, Bool.false_eq_true, if_false,
    List.find?_nil, List.isEmpty_nil, Bool.not_true]
  rfl

/-- A command's step that can run and is clean. -/
theorem engineStep_clean {g e c opc : Nat} {sub : Option Nat} {s : State} (f : Stp → StepRes) (hg : g < s.part.groves)
    (he : e < 16) (hc : c < 4096) (hs : canStep s.dev g e c opc sub = true)
    (h : cleanStep s.part s.dev g e c (f (stepOf s.part s.dev g e c)) = true) :
    engineStep g e c opc sub s f =
      .next { s with dev := stepDone s.part s.dev g e c (f (stepOf s.part s.dev g e c)) } := by
  simp [engineStep, liftAt, lift, hg, he, hc, hs, runStep_clean h]

/-- A clean step of a command that does not deliver under delayed scaling. -/
theorem scaledStep_clean {g e c opc : Nat} {sub : Option Nat} {s : State} (vals : Stp → List Num) (f : Stp → StepRes)
    (hg : g < s.part.groves) (he : e < 16) (hc : c < 4096) (hs : canStep s.dev g e c opc sub = true)
    (hm : cvMode (stepOf s.part s.dev g e c).cvt ≠ 3)
    (h : cleanStep s.part s.dev g e c (f (stepOf s.part s.dev g e c)) = true) :
    scaledStep g e c opc sub s vals f =
      .next { s with dev := stepDone s.part s.dev g e c (f (stepOf s.part s.dev g e c)) } := by
  simp [scaledStep, liftAt, lift, hg, he, hc, hs, hm, runStep_clean h]

/-- A store into device memory leaves the bytes outside it alone. -/
theorem memWrite_outside (d : Dev) (off a : Nat) (bs : List Byte) (h : a < off ∨ off + bs.length ≤ a) :
    (memWrite d off bs).mem.mem.read 0#8 a = d.mem.mem.read 0#8 a := Mem.read_writeN_outside _ _ _ _ _ h

/-- A store changes no context. -/
theorem storeLocal_ctxs (p : Part) (g e g' : Nat) (d : Dev) (w : Wr) :
    ((storeLocal p g e d w).grove g').ctxs = (d.grove g').ctxs := by
  unfold storeLocal
  dsimp only
  by_cases hg : g' = g
  · subst hg
    split <;> simp [storeDev, memWrite, Dev.grove, Dev.setGrove]
  · split <;> simp [storeDev, memWrite, Dev.grove, Dev.setGrove, Tbl.get_set_other _ _ _ _ _ hg]

theorem storeAll_ctxs (p : Part) (g e g' : Nat) (ws : List Wr) (d : Dev) :
    ((ws.foldl (storeLocal p g e) d).grove g').ctxs = (d.grove g').ctxs := by
  induction ws generalizing d with
  | nil => rfl
  | cons w ws ih => rw [List.foldl_cons, ih, storeLocal_ctxs]

theorem foldSend_groves {α : Type} (f : α → Out) (xs : List α) (d : Dev) :
    (xs.foldl (fun d r => d.send (f r)) d).groves = d.groves := by
  induction xs generalizing d with
  | nil => rfl
  | cons x xs ih => rw [List.foldl_cons, ih]; rfl

/-- Sending requests changes no context. -/
theorem sendReqs_ctxs (d : Dev) (g g' : Nat) (rs : List GroveReq) :
    ((sendReqs d g rs).grove g').ctxs = (d.grove g').ctxs := by
  unfold sendReqs Dev.grove
  dsimp only
  rw [foldSend_groves]
  by_cases hg : g' = g
  · subst hg; simp [Dev.setGrove]
  · simp [Dev.setGrove, Tbl.get_set_other _ _ _ _ _ hg]

theorem addTally_groves (d : Dev) (t : Tally) : (addTally d t).groves = d.groves := by
  have h : ∀ (d : Dev) (i n : Nat), (if n = 0 then d else d.inc i 0 0 n).groves = d.groves := by
    intro d i n; split <;> rfl
  unfold addTally
  dsimp only
  simp only [h]

/-- A step done counts one step. -/
theorem stepDone_steps (p : Part) (d : Dev) (g e c : Nat) (r : StepRes) :
    (((stepDone p d g e c r).grove g).ctx e c).steps = ((d.grove g).ctx e c).steps + 1 := by
  unfold stepDone
  dsimp only
  rw [Dev.grove, Dev.setGrove, Tbl.get_set_same]
  rw [Grove.ctx, Grove.setCtx, Tbl.get_set_same]
  dsimp only [Dev.addUtil]
  unfold Grove.ctx Dev.grove
  rw [addTally_groves]
  have h1 := sendReqs_ctxs (r.writes.foldl (storeLocal p g e) d) g g
    ((writeReqs p d g r.writes).zipIdx.map (fun y =>
      groveReq d g e c y.2 (if y.1.2.2.1 = 2 ^ 64 - 1 then 0x02 else 0x03) y.1.1 y.1.2.1 0
        (if y.1.2.2.1 = 2 ^ 64 - 1 then 0 else y.1.2.2.1) y.1.2.2.2))
  rw [storeAll_ctxs] at h1
  unfold Dev.grove at h1
  rw [h1]

/-! ### Waits that stand (R141) -/

/-- What a queue's head is known by as a wait. -/
def headWait (gr : Grove) (e : Nat) : Option (Nat × List Nat) :=
  match gr.queue e with
  | c :: _ => if gr.waits c then some (e, [c.tag, c.body]) else none
  | [] => none

theorem headWait_fst {gr : Grove} {e : Nat} {x : Nat × List Nat} (h : headWait gr e = some x) : x.1 = e := by
  unfold headWait at h
  split at h
  · split at h
    · rw [← Option.some.inj h]
    · cases h
  · cases h

/-- Among the heads of some queues, that of engine `k` is found when it is one of them. -/
theorem headWaits_find (gr : Grove) (k : Nat) (l : List Nat) :
    (l.filterMap (headWait gr)).find? (fun x => x.1 = k) = if k ∈ l then headWait gr k else none := by
  induction l with
  | nil => rfl
  | cons e l ih =>
    rw [List.filterMap_cons]
    by_cases he : e = k
    · subst he
      rw [if_pos List.mem_cons_self]
      cases hw : headWait gr e with
      | none => dsimp only; rw [ih, hw, ite_self]
      | some x => dsimp only; rw [List.find?_cons_of_pos (by simpa using headWait_fst hw)]
    · have hm : (if k ∈ e :: l then headWait gr k else none) = if k ∈ l then headWait gr k else none := by
        by_cases hk : k ∈ l
        · rw [if_pos hk, if_pos (List.mem_cons_of_mem e hk)]
        · rw [if_neg hk, if_neg (by simp [Ne.symm he, hk])]
      rw [hm]
      cases hw : headWait gr e with
      | none => exact ih
      | some x =>
        dsimp only
        rw [List.find?_cons_of_neg (by simpa [headWait_fst hw] using he)]
        exact ih

/-- The wait of the head of engine `e`'s queue. -/
theorem standingWaits_queue (d : Dev) (gr : Grove) {e : Nat} {c : Cmd} {cs : List Cmd} (he : e < 16) (hq : gr.queue e = c :: cs)
    (hw : gr.waits c = true) : (standingWaits d gr).find? (fun x => x.1 = e) = some (e, [c.tag, c.body]) := by
  have h : ((List.range 16).filterMap (headWait gr)).find? (fun x => x.1 = e) = some (e, [c.tag, c.body]) := by
    rw [headWaits_find, if_pos (List.mem_range.mpr he)]
    simp only [headWait, hq, hw, if_true]
  have k : ∀ ys : List (Nat × List Nat), ((List.range 16).filterMap (headWait gr) ++ ys).find? (fun x => x.1 = e) = some (e, [c.tag, c.body]) :=
    fun ys => by rw [List.find?_append, h]; rfl
  unfold standingWaits
  dsimp only
  split
  · split
    · exact k _
    · exact h
  · split
    · exact k _
    · exact h
  · exact h

/-- The wait of the sequencer: no queue's head is it. -/
theorem standingWaits_sequencer {gr : Grove} (y : Nat × List Nat) (hy : y.1 = 16) :
    ((List.range 16).filterMap (headWait gr) ++ [y]).find? (fun x => x.1 = 16) = some y := by
  rw [List.find?_append, headWaits_find, if_neg (by simp)]
  simp [hy]

end Sys2Proof.Machine
end

