-- ==== Sys2Proof/Laws/Stores.lean ====
section
/-! SUPPORT. What the stores and records of a grove's work leave alone, said once for each shared operation. -/

namespace Sys2Proof.Machine

/-- An instruction either changes nothing or has its effect. -/
theorem seqRun_any {g op : Nat} {s t : State} (f : Part → Dev → Nat → Dev) (h : seqRun g op s f = .next t) :
    t = s ∨ ∃ w, seqWord s.dev g op = some w ∧ t = { s with dev := f s.part s.dev w } := by
  unfold seqRun liftAt at h
  split at h
  · simp only [lift] at h
    injection h with h
    subst h
    cases hw : seqWord s.dev g op with
    | none => exact Or.inl rfl
    | some w => exact Or.inr ⟨w, rfl, rfl⟩
  · cases h

/-- The next instruction is the fetched word. -/
theorem seqWord_fetch {d : Dev} {g op w : Nat} (h : seqWord d g op = some w) : fetchWord d g = some w := by
  unfold seqWord at h
  split at h
  · split at h
    · rename_i v hv
      split at h
      · rw [hv]; exact h
      · cases h
    · cases h
  · cases h

/-- A register write changes the registers alone. -/
theorem setReg_regs (gr : Grove) (i : Nat) (v : Word) : ∃ r, gr.setReg i v = { gr with regs := r } := by
  unfold Grove.setReg; split
  · exact ⟨gr.regs, rfl⟩
  · exact ⟨_, rfl⟩

/-- A ring record changes a grove in its memory alone. -/
theorem ringPut_grove (d : Dev) (g rec h : Nat) : ∃ m, (ringPut d g rec).grove h = { d.grove h with gmem := m } := by
  unfold ringPut
  dsimp only
  split
  · exact ⟨(d.grove h).gmem, rfl⟩
  · by_cases hh : h = g
    · subst hh; rw [Dev.grove_setGrove]; exact ⟨_, rfl⟩
    · rw [Dev.grove_setGrove_other _ _ _ _ hh]; exact ⟨(d.grove h).gmem, rfl⟩

theorem ringPut_other (d : Dev) (g rec h : Nat) (hn : h ≠ g) : (ringPut d g rec).grove h = d.grove h := by
  unfold ringPut
  dsimp only
  split
  · rfl
  · rw [Dev.grove_setGrove_other _ _ _ _ hn]

theorem ringPut_rest (d : Dev) (g rec : Nat) : (ringPut d g rec).mem = d.mem ∧ (ringPut d g rec).dict = d.dict := by
  unfold ringPut
  dsimp only
  split <;> exact ⟨rfl, rfl⟩

/-- The grove memory after a record: a full ring counts it as lost, and any other takes it where its head stands. -/
theorem ringPut_gmem (d : Dev) (g rec : Nat) :
    let k := bits (d.rd 0x4104 0 g) 0 4
    let m := (d.grove g).gmem
    let b := ringBase d g
    let head := m.readNat 0#8 b 4
    let m' := ((ringPut d g rec).grove g).gmem
    (k = 0 → m' = m)
    ∧ (k ≠ 0 → (head + 2 ^ 32 - m.readNat 0#8 (b + 4) 4) % 2 ^ 32 = 2 ^ k →
      m'.readNat 0#8 (b + 8) 4 = (m.readNat 0#8 (b + 8) 4 + 1) % 2 ^ 32 ∧ ∀ x, x < b + 8 ∨ b + 12 ≤ x → m'.read 0#8 x = m.read 0#8 x)
    ∧ (k ≠ 0 → (head + 2 ^ 32 - m.readNat 0#8 (b + 4) 4) % 2 ^ 32 ≠ 2 ^ k →
      let a := b + 64 + head % 2 ^ k * 32
      m'.readNat 0#8 a 32 = rec % 2 ^ 256 ∧ m'.readNat 0#8 b 4 = (head + 1) % 2 ^ 32
        ∧ ∀ x, x < b ∨ b + 4 ≤ x → x < a ∨ a + 32 ≤ x → m'.read 0#8 x = m.read 0#8 x) := by
  intro k m b head m'
  have hm : m' = if k = 0 then m else
      if (head + 2 ^ 32 - m.readNat 0#8 (b + 4) 4) % 2 ^ 32 = 2 ^ k then m.writeNat 0#8 (b + 8) 4 ((m.readNat 0#8 (b + 8) 4 + 1) % 2 ^ 32)
      else (m.writeNat 0#8 (b + 64 + head % 2 ^ k * 32) 32 rec).writeNat 0#8 b 4 ((head + 1) % 2 ^ 32) := by
    simp only [m', ringPut]
    split
    · rfl
    · rw [Dev.grove_setGrove]
  refine ⟨fun h => by rw [hm, if_pos h], fun h hf => ?_, fun h hf => ?_⟩
  · rw [hm, if_neg h, if_pos hf]
    refine ⟨?_, fun x hx => Mem.read_writeN_outside _ _ _ _ _ (by rw [toBytes_length]; exact hx)⟩
    rw [Mem.readNat_writeNat]; exact Nat.mod_mod _ _
  · rw [hm, if_neg h, if_neg hf]
    refine ⟨?_, ?_, fun x hx hy => ?_⟩
    · rw [Mem.readNat_writeNat_outside _ _ _ _ _ _ _ (by omega), Mem.readNat_writeNat, show 256 ^ 32 = 2 ^ 256 by norm_num]
    · rw [Mem.readNat_writeNat]; exact Nat.mod_mod _ _
    · exact (Mem.read_writeN_outside _ _ _ _ _ (by rw [toBytes_length]; exact hx)).trans
        (Mem.read_writeN_outside _ _ _ _ _ (by rw [toBytes_length]; exact hy))

theorem bytes16 (m : Mem) (o v : Nat) : (m.writeN 0#8 o (toBytes 16 v)).readNat 0#8 o 16 = v % 2 ^ 128 := by
  have h := Mem.readNat_writeNat m 0#8 o 16 v
  rw [show (256 : Nat) ^ 16 = 2 ^ 128 by norm_num, Mem.writeNat] at h
  exact h

theorem storeDev_bytes (d : Dev) (off : Nat) (bs : List Byte) : (storeDev d off bs).mem.mem = d.mem.mem.writeN 0#8 off bs := rfl

/-- What a trace record leaves of device memory (R134): nothing of it while tracing is off or the place lies past the end; and where the
interface reports nothing of the write, the record at its place and every other byte. -/
theorem tracePut_bytes (p : Part) (d : Dev) (g a b c e f : Nat) :
    ((d.rd 0x4107 0 g).testBit 63 = false ∨ memSize p d < traceAddr d g + 16 → (tracePut p d g a b c e f).mem = d.mem)
    ∧ ((d.rd 0x4107 0 g).testBit 63 = true → traceAddr d g + 16 ≤ memSize p d → hitFlaws p d true (traceAddr d g) 16 = [] →
      (tracePut p d g a b c e f).mem.mem.readNat 0#8 (traceAddr d g) 16 = traceRec d a b c e f % 2 ^ 128
      ∧ ∀ x, x < traceAddr d g ∨ traceAddr d g + 16 ≤ x → (tracePut p d g a b c e f).mem.mem.read 0#8 x = d.mem.mem.read 0#8 x) := by
  refine ⟨?_, ?_⟩
  · intro h
    unfold tracePut
    dsimp only
    split
    · rfl
    · rename_i hb
      have hk : ¬ traceAddr d g + 16 ≤ memSize p d := Nat.not_le.mpr (h.resolve_left (by simpa using hb))
      rw [if_neg hk, Dev.setGrove_mem]
  · intro h1 h2 h3
    have he : tracePut p d g a b c e f = storeDev (d.setGrove g { d.grove g with traceIx := (d.grove g).traceIx + 1 }) (traceAddr d g)
        (toBytes 16 (traceRec d a b c e f)) := by
      unfold tracePut
      rw [h1]
      simp only [Bool.not_true, Bool.false_eq_true, if_false]
      rw [if_pos h2]
      exact afterStore_clean _ _ _ _ ((hitFlaws_storeDev ..).trans h3)
    rw [he, storeDev_bytes, Dev.setGrove_mem]
    refine ⟨?_, fun x hx => ?_⟩
    · exact bytes16 ..
    · exact Mem.read_writeN_outside _ _ _ _ _ (by rw [toBytes_length]; exact hx)

/-- A store of the device's own into device memory touches no grove. -/
theorem tracePut_grove_eq (p : Part) (d : Dev) (g a b c e f h : Nat) : (tracePut p d g a b c e f).grove h =
    if (d.rd 0x4107 0 g).testBit 63 then (d.setGrove g { d.grove g with traceIx := (d.grove g).traceIx + 1 }).grove h
    else d.grove h := by
  unfold tracePut
  dsimp only
  cases (d.rd 0x4107 0 g).testBit 63
  · rfl
  · simp only [Bool.not_true, Bool.false_eq_true, if_false, if_true]
    split
    · exact ((onlyMem_storeDev ..).trans (onlyMem_afterStore ..)).grove h
    · rfl

/-- A trace record changes a grove in its trace index alone. -/
theorem tracePut_grove (p : Part) (d : Dev) (g a b c e f h : Nat) : ∃ n, (tracePut p d g a b c e f).grove h = { d.grove h with traceIx := n } := by
  rw [tracePut_grove_eq]
  split
  · by_cases hh : h = g
    · subst hh; rw [Dev.grove_setGrove]; exact ⟨_, rfl⟩
    · rw [Dev.grove_setGrove_other _ _ _ _ hh]; exact ⟨(d.grove h).traceIx, rfl⟩
  · exact ⟨(d.grove h).traceIx, rfl⟩

theorem tracePut_other (p : Part) (d : Dev) (g a b c e f h : Nat) (hn : h ≠ g) : (tracePut p d g a b c e f).grove h = d.grove h := by
  rw [tracePut_grove_eq]
  split
  · exact Dev.grove_setGrove_other _ _ _ _ hn
  · rfl

/-- With tracing off nothing is written. -/
theorem tracePut_off (p : Part) (d : Dev) (g a b c e f : Nat) (h : (d.rd 0x4107 0 g).testBit 63 = false) : tracePut p d g a b c e f = d := by
  simp [tracePut, h]

/-- Freeing a scaling context changes no grove. -/
theorem freeScale_grove (d : Dev) (n : Nat) (en : Option (Nat × Nat)) (g : Nat) : (freeScale d n en).grove g = d.grove g := by
  unfold freeScale
  dsimp only
  split
  · unfold takeScaleRec
    rfl
  · rfl

theorem drain_flag (gr : Grove) (f : Nat) : gr.drain.flag f = gr.flag f := by
  have h : ∀ (gr : Grove) (b : Nat) (x : BankSt), (gr.setBank b x).flag f = gr.flag f := by
    intro gr b x; unfold Grove.setBank; split <;> rfl
  unfold Grove.drain
  dsimp only
  split <;> split <;> simp only [h]

/-- The end of a program changes no flag. -/
theorem settleEnd_flag (d : Dev) (g f : Nat) : ((settleEnd d g).grove g).flag f = (d.grove g).flag f := by
  have h : ∀ (gr : Grove) (b : Nat) (x : BankSt), (gr.setBank b x).flag f = gr.flag f := by
    intro gr b x; unfold Grove.setBank; split <;> rfl
  unfold settleEnd
  dsimp only
  split
  · rw [setPhase_grove, Dev.grove_setGrove]
    exact (h _ _ _).trans (drain_flag _ _)
  · rw [Dev.grove_setGrove]; exact drain_flag _ _

/-- A local setter's completion, flag by flag. -/
theorem localSet_flag (gr : Grove) (f k : Nat) : (gr.localSet f).flag k = if k = f then { gr.flag f with c := (gr.flag f).c + 1, pl := (gr.flag f).pl - 1, s := (gr.flag f).s - 1 } else gr.flag k := by
  unfold Grove.localSet
  split
  · rename_i h; rw [h]; exact Grove.flag_setFlag _ _ _
  · rename_i h; exact Grove.flag_setFlag_other _ _ _ _ h

/-- Pushing a command changes no flag. -/
theorem fold_flag (q : Cmd) (l : List Nat) (gr : Grove) (k : Nat) : (l.foldl (fun gr e => gr.setQueue e (gr.queue e ++ [q])) gr).flag k = gr.flag k := by
  induction l generalizing gr with
  | nil => rfl
  | cons a l ih => rw [List.foldl_cons, ih]; rfl

/-- A store leaves the size of device memory. -/
theorem memSize_storeLocal (p : Part) (g e : Nat) (d : Dev) (w : Wr) : memSize p (storeLocal p g e d w) = memSize p d := by
  unfold storeLocal
  dsimp only
  split <;> rfl

/-- What a store leaves of a grove: everything but its memories and one context. -/
structure Kept (g e c : Nat) (d t : Dev) : Prop where
  regs : (t.grove g).regs = (d.grove g).regs
  flags : (t.grove g).flags = (d.grove g).flags
  queues : (t.grove g).queues = (d.grove g).queues
  pc : (t.grove g).pc = (d.grove g).pc
  phase : (t.grove g).phase = (d.grove g).phase
  imem : (t.grove g).imem = (d.grove g).imem
  aps : (t.grove g).aps = (d.grove g).aps
  wins : (t.grove g).wins = (d.grove g).wins
  ctx : ∀ j k, j * 4096 + k ≠ e * 4096 + c → (t.grove g).ctx j k = (d.grove g).ctx j k

/-- Where an address lies depends only on the size of device memory and the loaded apertures. -/
theorem region_congr (p : Part) {d t : Dev} {gr hr : Grove} (h : memSize p t = memSize p d) (k : hr.aps = gr.aps) (a n : Nat) :
    region p t hr a n = region p d gr a n := by unfold region; rw [h, k]

/-- A store loads no aperture. -/
theorem aps_storeLocal (p : Part) (g e : Nat) (d : Dev) (w : Wr) : ((storeLocal p g e d w).grove g).aps = (d.grove g).aps := by
  unfold storeLocal
  dsimp only
  split <;> simp [storeDev, memWrite, Dev.grove, Dev.setGrove]

/-- A store moves no address. -/
theorem region_storeLocal (p : Part) (g e : Nat) (d : Dev) (w : Wr) (a n : Nat) :
    region p (storeLocal p g e d w) ((storeLocal p g e d w).grove g) a n = region p d (d.grove g) a n :=
  region_congr p (memSize_storeLocal ..) (aps_storeLocal ..) a n

/-- One store changes the bytes it names and no other, in each of the three memories. -/
theorem store_one (p : Part) (g e : Nat) (d : Dev) (w : Wr) (a : Nat) :
    ((∀ o, region p d (d.grove g) w.addr w.data.length = some (.scratch o) → a < e * 1048576 + o ∨ e * 1048576 + o + w.data.length ≤ a) →
      ((storeLocal p g e d w).grove g).scratch.read 0#8 a = (d.grove g).scratch.read 0#8 a)
    ∧ ((∀ o, region p d (d.grove g) w.addr w.data.length = some (.grove o) → a < o ∨ o + w.data.length ≤ a) →
      ((storeLocal p g e d w).grove g).gmem.read 0#8 a = (d.grove g).gmem.read 0#8 a)
    ∧ ((∀ o, region p d (d.grove g) w.addr w.data.length = some (.stack o) → a < o ∨ o + w.data.length ≤ a) →
      (storeLocal p g e d w).mem.mem.read 0#8 a = d.mem.mem.read 0#8 a) := by
  unfold storeLocal
  dsimp only
  split
  · rename_i o h
    rw [h]
    refine ⟨fun k => ?_, fun _ => ?_, fun _ => rfl⟩
    · rw [Dev.grove_setGrove]; exact Mem.read_writeN_outside _ _ _ _ _ (k o rfl)
    · rw [Dev.grove_setGrove]
  · rename_i o h
    rw [h]
    refine ⟨fun k => ?_, fun k => ?_, fun _ => rfl⟩
    · rw [Dev.grove_setGrove]
    · rw [Dev.grove_setGrove]; exact Mem.read_writeN_outside _ _ _ _ _ (k o rfl)
  · rename_i o h
    rw [h]
    refine ⟨fun _ => rfl, fun _ => rfl, fun k => ?_⟩
    exact memWrite_outside _ _ _ _ (k o rfl)
  · exact ⟨fun _ => rfl, fun _ => rfl, fun _ => rfl⟩

/-- A store keeps the form of the three memories. -/
theorem store_wf (p : Part) (g e : Nat) (d : Dev) (w : Wr) (h1 : Mem.wf 0#8 (d.grove g).scratch = true) (h2 : Mem.wf 0#8 (d.grove g).gmem = true)
    (h3 : Mem.wf 0#8 d.mem.mem = true) : Mem.wf 0#8 ((storeLocal p g e d w).grove g).scratch = true
      ∧ Mem.wf 0#8 ((storeLocal p g e d w).grove g).gmem = true ∧ Mem.wf 0#8 (storeLocal p g e d w).mem.mem = true := by
  unfold storeLocal
  dsimp only
  split
  · rw [Dev.grove_setGrove]; exact ⟨Mem.wf_writeN _ _ _ _ h1, h2, h3⟩
  · rw [Dev.grove_setGrove]; exact ⟨h1, Mem.wf_writeN _ _ _ _ h2, h3⟩
  · exact ⟨h1, h2, Mem.wf_writeN _ _ _ _ h3⟩
  · exact ⟨h1, h2, h3⟩

theorem Kept.refl (g e c : Nat) (d : Dev) : Kept g e c d d := ⟨rfl, rfl, rfl, rfl, rfl, rfl, rfl, rfl, fun _ _ _ => rfl⟩

theorem Kept.trans {g e c : Nat} {d t u : Dev} (h : Kept g e c d t) (k : Kept g e c t u) : Kept g e c d u :=
  ⟨k.regs.trans h.regs, k.flags.trans h.flags, k.queues.trans h.queues, k.pc.trans h.pc, k.phase.trans h.phase, k.imem.trans h.imem,
   k.aps.trans h.aps, k.wins.trans h.wins, fun j i hn => (k.ctx j i hn).trans (h.ctx j i hn)⟩

theorem Kept.of_grove {g e c : Nat} {d t : Dev} (h : t.grove g = d.grove g) : Kept g e c d t := by
  refine ⟨?_, ?_, ?_, ?_, ?_, ?_, ?_, ?_, ?_⟩ <;> simp [h]

/-- A store leaves the grove's registers, flags, queues, program counter, phase, instruction memory and contexts. -/
theorem kept_storeLocal (p : Part) (g e c : Nat) (d : Dev) (w : Wr) : Kept g e c d (storeLocal p g e d w) := by
  unfold storeLocal
  dsimp only
  split
  · refine ⟨?_, ?_, ?_, ?_, ?_, ?_, ?_, ?_, ?_⟩ <;> simp [Grove.ctx]
  · refine ⟨?_, ?_, ?_, ?_, ?_, ?_, ?_, ?_, ?_⟩ <;> simp [Grove.ctx]
  · exact Kept.of_grove rfl
  · exact Kept.refl ..

/-- A row of stores changes the bytes they name and no other, each where the state before all of them puts it. -/
theorem storeAll (p : Part) (g e c : Nat) (ws : List Wr) (d : Dev) :
    let t := ws.foldl (storeLocal p g e) d
    Kept g e c d t
    ∧ (∀ a, (∀ w ∈ ws, ∀ o, region p d (d.grove g) w.addr w.data.length = some (.scratch o) → a < e * 1048576 + o ∨ e * 1048576 + o + w.data.length ≤ a) →
      (t.grove g).scratch.read 0#8 a = (d.grove g).scratch.read 0#8 a)
    ∧ (∀ a, (∀ w ∈ ws, ∀ o, region p d (d.grove g) w.addr w.data.length = some (.grove o) → a < o ∨ o + w.data.length ≤ a) →
      (t.grove g).gmem.read 0#8 a = (d.grove g).gmem.read 0#8 a)
    ∧ (∀ a, (∀ w ∈ ws, ∀ o, region p d (d.grove g) w.addr w.data.length = some (.stack o) → a < o ∨ o + w.data.length ≤ a) →
      t.mem.mem.read 0#8 a = d.mem.mem.read 0#8 a)
    ∧ (Mem.wf 0#8 (d.grove g).scratch = true → Mem.wf 0#8 (d.grove g).gmem = true → Mem.wf 0#8 d.mem.mem = true →
        Mem.wf 0#8 (t.grove g).scratch = true ∧ Mem.wf 0#8 (t.grove g).gmem = true ∧ Mem.wf 0#8 t.mem.mem = true) := by
  induction ws generalizing d with
  | nil => exact ⟨Kept.refl .., fun _ _ => rfl, fun _ _ => rfl, fun _ _ => rfl, fun a b c => ⟨a, b, c⟩⟩
  | cons w ws ih =>
    obtain ⟨k, i1, i2, i3, i4⟩ := ih (storeLocal p g e d w)
    rw [List.foldl_cons]
    refine ⟨(kept_storeLocal p g e c d w).trans k, ?_, ?_, ?_, ?_⟩
    · intro a h
      rw [i1 a (fun w' hw o ho => h w' (List.mem_cons_of_mem _ hw) o (by rwa [region_storeLocal] at ho))]
      exact (store_one p g e d w a).1 (fun o ho => h w List.mem_cons_self o ho)
    · intro a h
      rw [i2 a (fun w' hw o ho => h w' (List.mem_cons_of_mem _ hw) o (by rwa [region_storeLocal] at ho))]
      exact (store_one p g e d w a).2.1 (fun o ho => h w List.mem_cons_self o ho)
    · intro a h
      rw [i3 a (fun w' hw o ho => h w' (List.mem_cons_of_mem _ hw) o (by rwa [region_storeLocal] at ho))]
      exact (store_one p g e d w a).2.2 (fun o ho => h w List.mem_cons_self o ho)
    · intro h1 h2 h3
      obtain ⟨a, b, c⟩ := store_wf p g e d w h1 h2 h3
      exact i4 a b c

theorem foldSend_mem {α : Type} (f : α → Out) (xs : List α) (d : Dev) : (xs.foldl (fun d r => d.send (f r)) d).mem = d.mem := by
  induction xs generalizing d with
  | nil => rfl
  | cons x xs ih => rw [List.foldl_cons, ih]; rfl

/-- Sending requests changes a grove in its request list and tags alone. -/
theorem sendReqs_grove (d : Dev) (g : Nat) (rs : List GroveReq) : ∃ q n, (sendReqs d g rs).grove g = { d.grove g with reqs := q, tagNext := n } := by
  unfold sendReqs Dev.grove
  dsimp only
  rw [foldSend_groves]
  simp [Dev.setGrove]

theorem sendReqs_mem (d : Dev) (g : Nat) (rs : List GroveReq) : (sendReqs d g rs).mem = d.mem := by
  unfold sendReqs
  dsimp only
  rw [foldSend_mem]; rfl

theorem addTally_mem (d : Dev) (t : Tally) : (addTally d t).mem = d.mem := by
  have h : ∀ (d : Dev) (i n : Nat), (if n = 0 then d else d.inc i 0 0 n).mem = d.mem := by
    intro d i n; split <;> rfl
  unfold addTally
  dsimp only
  simp only [h]

/-- A step done leaves the grove as its stores left it, but for requests, tags and the context. -/
theorem stepDone_grove (p : Part) (d : Dev) (g e c : Nat) (r : StepRes) : ∃ q n x,
    (stepDone p d g e c r).grove g = ({ (r.writes.foldl (storeLocal p g e) d).grove g with reqs := q, tagNext := n }.setCtx e c x) := by
  unfold stepDone
  dsimp only
  generalize hq : List.map _ (writeReqs p d g r.writes).zipIdx = qs
  obtain ⟨q, n, h⟩ := sendReqs_grove (r.writes.foldl (storeLocal p g e) d) g qs
  have h2 : (addTally (sendReqs (r.writes.foldl (storeLocal p g e) d) g qs) r.tally).grove g = { (r.writes.foldl (storeLocal p g e) d).grove g with reqs := q, tagNext := n } := by
    rw [← h]; unfold Dev.grove; rw [addTally_groves]
  rw [Dev.grove_setGrove, h2]
  exact ⟨q, n, _, rfl⟩

/-- A step done leaves device memory as its stores left it. -/
theorem stepDone_mem (p : Part) (d : Dev) (g e c : Nat) (r : StepRes) : (stepDone p d g e c r).mem = (r.writes.foldl (storeLocal p g e) d).mem := by
  unfold stepDone
  dsimp only
  show (addTally _ _).mem = _
  rw [addTally_mem, sendReqs_mem]

/-- The shape of a meaning: a next state that keeps the part and the queue when the unit exists, else the fault. -/
theorem liftAt_shape (s : State) (b : Bool) (f : Part → Dev → Dev) :
    (b = true → ∃ d, liftAt s b f = .next { s with dev := d }) ∧ (b = false → liftAt s b f = .fault .noSuchUnit) :=
  ⟨fun h => ⟨f s.part s.dev, liftAt_next s b f h⟩, fun h => liftAt_fault s b f h⟩

end Sys2Proof.Machine
end

