-- ==== Sys2Proof/Laws/Sound.lean ====
section
/-! SUPPORT. The work of sequencers and engines keeps a device sound: groves, device memory, flash, packet buffer and pace. -/

namespace Sys2Proof.Machine

/-- The parts of a sound device that a grove's work may change. -/
def Dev.WorkSound (d : Dev) : Prop :=
  (∀ g, (d.grove g).Sound) ∧ Mem.wf 0#8 d.mem.mem = true ∧ Mem.wf 0xFF#8 d.boot.flash = true

/-- A change that keeps them. -/
structure WorkKeeps (d t : Dev) : Prop where
  keep : d.WorkSound → t.WorkSound

/-- What keeps them keeps the device sound when all it changes is a grove's work. -/
theorem OnlyGrove.sound {g : Nat} {d t : Dev} (h : OnlyGrove g d t) (k : WorkKeeps d t) (hd : d.Sound) : t.Sound := by
  obtain ⟨a, b, c⟩ := k.keep ⟨hd.1, hd.2.1.1, hd.2.1.2⟩
  have hb : t.buf = d.buf := congrArg (fun x => x.1) h.2
  have hp : t.pace = d.pace := congrArg (fun x => x.2.2.2.1) h.2
  exact ⟨a, ⟨b, c⟩, by rw [hb]; exact hd.2.2.1, by rw [hp]; exact hd.2.2.2⟩

theorem WorkKeeps.refl (d : Dev) : WorkKeeps d d := ⟨id⟩

theorem WorkKeeps.trans {d t u : Dev} (h : WorkKeeps d t) (k : WorkKeeps t u) : WorkKeeps d u := ⟨fun x => k.keep (h.keep x)⟩

theorem WorkKeeps.ite {d a b : Dev} (c : Prop) [Decidable c] (h : WorkKeeps d a) (k : WorkKeeps d b) : WorkKeeps d (if c then a else b) := by
  split
  · exact h
  · exact k

theorem WorkKeeps.foldl {α : Type} (f : Dev → α → Dev) (hf : ∀ d x, WorkKeeps d (f d x)) (l : List α) (d : Dev) :
    WorkKeeps d (l.foldl f d) := by
  induction l generalizing d with
  | nil => exact WorkKeeps.refl d
  | cons x l ih => exact (hf d x).trans (ih _)

theorem keeps_same {d t : Dev} (g : t.groves = d.groves) (m : t.mem.mem = d.mem.mem) (f : t.boot.flash = d.boot.flash) : WorkKeeps d t := by
  have hg : ∀ g, t.grove g = d.grove g := fun g' => by unfold Dev.grove; rw [g]
  exact ⟨fun h => ⟨fun g => by rw [hg]; exact h.1 g, by rw [m]; exact h.2.1, by rw [f]; exact h.2.2⟩⟩

theorem keeps_setGrove (g : Nat) (d : Dev) (v : Grove) (hv : (d.grove g).Sound → v.Sound) : WorkKeeps d (d.setGrove g v) := by
  refine ⟨fun h => ⟨fun k => ?_, h.2⟩⟩
  by_cases hk : k = g
  · subst hk; rw [Dev.grove_setGrove]; exact hv (h.1 k)
  · rw [Dev.grove_setGrove_other _ _ _ _ hk]; exact h.1 k

/-- A change of its memories that keeps their form. -/
theorem Grove.Sound.stores {gr hr : Grove} (h : gr.Sound) (a : Mem.wf 0#8 hr.scratch = true) (b : Mem.wf 0#8 hr.gmem = true)
    (c : hr.flags = gr.flags) (i : hr.imem = gr.imem := by rfl) : hr.Sound := by
  refine ⟨⟨a, b, by rw [i]; exact h.1.2.2⟩, fun f => ?_⟩
  have e : hr.flag f = gr.flag f := by unfold Grove.flag; rw [c]
  rw [e]; exact h.2 f

/-- A change that leaves a grove's memories and flags. -/
theorem Grove.Sound.of {gr hr : Grove} (h : gr.Sound) (a : hr.scratch = gr.scratch) (b : hr.gmem = gr.gmem) (c : hr.flags = gr.flags)
    (i : hr.imem = gr.imem := by rfl) : hr.Sound := h.stores (by rw [a]; exact h.1.1) (by rw [b]; exact h.1.2.1) c i

theorem keeps_grove (g : Nat) (d : Dev) (v : Grove) (a : v.scratch = (d.grove g).scratch := by rfl) (b : v.gmem = (d.grove g).gmem := by rfl)
    (c : v.flags = (d.grove g).flags := by rfl) (i : v.imem = (d.grove g).imem := by rfl) : WorkKeeps d (d.setGrove g v) :=
  keeps_setGrove g d v (fun h => h.of a b c i)

theorem OnlyEvents.keeps {d t : Dev} (k : OnlyEvents d t) : WorkKeeps d t :=
  keeps_same k.groves_eq (by rw [k.mem_eq]) (by rw [show t = _ from k])

theorem OnlyMem.keeps {d t : Dev} (k : OnlyMem d t) (m : Mem.wf 0#8 d.mem.mem = true → Mem.wf 0#8 t.mem.mem = true) : WorkKeeps d t :=
  ⟨fun h => ⟨fun g => by rw [k.grove]; exact h.1 g, m h.2.1, by
    have e : t.boot.flash = d.boot.flash := by rw [show t = _ from k]
    rw [e]; exact h.2.2⟩⟩

theorem keeps_emit (d : Dev) (code status prio : Nat) (rise : Bool) (idx sub data : Nat) :
    WorkKeeps d (emit d code status prio rise idx sub data) := (onlyEvents_emit ..).keeps

/-! ### Groves -/

theorem Grove.Sound.setFlag {gr : Grove} (h : gr.Sound) (f : Nat) {x : Flag} (hx : x.c + x.pl + x.pe ≤ 65535 ∧ x.s ≤ x.pl) :
    (gr.setFlag f x).Sound := by
  refine ⟨h.1, fun k => ?_⟩
  have e : (gr.setFlag f x).flag k = if k = f then x else gr.flag k := by
    unfold Grove.setFlag Grove.flag
    by_cases hk : k = f
    · subst hk; simp
    · simp only [hk, if_false]; exact Tbl.get_set_other _ _ _ _ _ hk
  rw [e]
  split
  · exact hx
  · exact h.2 k

theorem Grove.Sound.setBank {gr : Grove} (h : gr.Sound) (b : Nat) (x : BankSt) : (gr.setBank b x).Sound := by
  unfold Grove.setBank; split <;> exact h.of rfl rfl rfl

theorem Grove.Sound.drain {gr : Grove} (h : gr.Sound) : gr.drain.Sound := by
  have one : ∀ (gr : Grove) (b : Nat), gr.Sound → (if gr.bankSt b == .draining && !gr.refs b then gr.setBank b .idle else gr).Sound := by
    intro gr b h
    split
    · exact h.setBank ..
    · exact h
  exact one _ _ (one _ _ h)

theorem Grove.Sound.setReg {gr : Grove} (h : gr.Sound) (i : Nat) (v : Word) : (gr.setReg i v).Sound := by
  obtain ⟨r, e⟩ := setReg_regs gr i v
  rw [e]; exact h.of rfl rfl rfl

theorem Grove.Sound.store8 {gr : Grove} (h : gr.Sound) (o v : Nat) : (gr.store8 o v).Sound :=
  h.stores h.1.1 (Mem.wf_writeNat _ _ _ _ _ h.1.2.1) rfl

theorem Grove.Sound.pushAll {gr : Grove} (h : gr.Sound) (w : Nat)
    (hs : (gr.head (issueCmd gr w)).testBit 19 = true →
      (gr.flag (bits (gr.head (issueCmd gr w)) 11 8)).s + (issueCmd gr w).copies ≤ (gr.flag (bits (gr.head (issueCmd gr w)) 11 8)).pl) :
    (pushAll gr w).Sound := by
  have fold : ∀ (l : List Nat) (c : Cmd) (gr : Grove), gr.Sound → (l.foldl (fun gr e => gr.setQueue e (gr.queue e ++ [c])) gr).Sound := by
    intro l c
    induction l with
    | nil => exact fun _ h => h
    | cons e l ih => exact fun gr h => ih _ (h.of rfl rfl rfl)
  unfold Machine.pushAll
  dsimp only
  have base : (if (gr.head (issueCmd gr w)).testBit 19 then gr.setFlag (bits (gr.head (issueCmd gr w)) 11 8)
      { gr.flag (bits (gr.head (issueCmd gr w)) 11 8) with
        s := (gr.flag (bits (gr.head (issueCmd gr w)) 11 8)).s + (issueCmd gr w).copies } else gr).Sound := by
    split
    · rename_i hb
      exact h.setFlag _ ⟨(h.2 _).1, hs hb⟩
    · exact h
  exact (fold (emask w) (issueCmd gr w) _ base).of rfl rfl rfl

/-! ### Halts and faults -/

theorem keeps_setPhase (d : Dev) (g : Nat) (ph : GPhase) : WorkKeeps d (setPhase d g ph) := by
  unfold setPhase
  dsimp only
  refine WorkKeeps.trans ?_ (onlyEvents_emitLevel ..).keeps
  exact keeps_grove ..

theorem keeps_ringPut (d : Dev) (g rec : Nat) : WorkKeeps d (ringPut d g rec) := by
  unfold ringPut
  dsimp only
  split
  · exact WorkKeeps.refl d
  · refine keeps_setGrove _ _ _ (fun h => h.stores h.1.1 ?_ rfl)
    dsimp only
    split
    · exact Mem.wf_writeNat _ _ _ _ _ h.1.2.1
    · exact Mem.wf_writeNat _ _ _ _ _ (Mem.wf_writeNat _ _ _ _ _ h.1.2.1)

theorem keeps_storeDev (d : Dev) (off : Nat) (bs : List Byte) : WorkKeeps d (storeDev d off bs) := (onlyMem_storeDev ..).keeps (wf_storeDev _ _ _)
theorem keeps_afterStore (p : Part) (d : Dev) (off n : Nat) : WorkKeeps d (afterStore p d off n) :=
  (onlyMem_afterStore ..).keeps (wf_afterStore _ _ _ _)
theorem keeps_takeFlaws (p : Part) (d : Dev) (xs : List (Nat × StackFx)) : WorkKeeps d (takeFlaws p d xs).1 :=
  (onlyMem_takeFlaws ..).keeps (wf_takeFlaws _ _ _)
theorem keeps_poisonEvent (p : Part) (d : Dev) (off cause who : Nat) : WorkKeeps d (poisonEvent p d off cause who) :=
  (onlyMem_poisonEvent ..).keeps (by rw [poisonEvent_mem]; exact id)

theorem keeps_tracePut (p : Part) (d : Dev) (g a b c e f : Nat) : WorkKeeps d (tracePut p d g a b c e f) :=
  WorkKeeps.ite _ (WorkKeeps.refl d)
    (WorkKeeps.ite _ ((keeps_grove ..).trans ((keeps_storeDev ..).trans (keeps_afterStore ..))) (keeps_grove ..))

theorem keeps_haltGrove (p : Part) (d : Dev) (g : Nat) (h : HaltInfo) : WorkKeeps d (haltGrove p d g h) :=
  WorkKeeps.ite _ (keeps_emit ..) (WorkKeeps.ite _ (WorkKeeps.refl d)
    (((((keeps_grove ..).trans (keeps_ringPut ..)).trans (keeps_tracePut ..)).trans (keeps_emit ..)).trans (keeps_setPhase ..)))

theorem keeps_seqFault (p : Part) (d : Dev) (g fault status : Nat) : WorkKeeps d (seqFault p d g fault status) := keeps_haltGrove ..

theorem keeps_limitHalt (p : Part) (d : Dev) (g : Nat) : WorkKeeps d (limitHalt p d g) :=
  (keeps_same rfl rfl rfl : WorkKeeps d (d.inc 0x4103 2 0)).trans (keeps_seqFault ..)

theorem keeps_freeScale (d : Dev) (n : Nat) (entry : Option (Nat × Nat)) : WorkKeeps d (freeScale d n entry) := by
  unfold freeScale
  dsimp only
  split <;> exact keeps_same rfl rfl rfl

theorem keeps_dropCtx (d : Dev) (g e c : Nat) : WorkKeeps d (dropCtx d g e c) := by
  have hg : WorkKeeps d (d.setGrove g (((d.grove g).retire (fun r => r.isOf e c)).setCtx e c Ctx.free).drain) :=
    keeps_setGrove _ _ _ (fun h => Grove.Sound.drain (h.of rfl rfl rfl))
  unfold dropCtx
  dsimp only
  split
  · exact hg.trans (keeps_freeScale ..)
  · exact hg

theorem keeps_ctxFault (p : Part) (d : Dev) (g e c code status addr : Nat) : WorkKeeps d (ctxFault p d g e c code status addr) :=
  ((keeps_grove ..).trans (keeps_haltGrove ..)).trans (keeps_dropCtx ..)

theorem keeps_eccFault (p : Part) (d : Dev) (g e c a n : Nat) : WorkKeeps d (eccFault p d g e c a n) := by
  unfold eccFault
  dsimp only
  refine WorkKeeps.trans ?_ (keeps_ctxFault ..)
  split
  · exact keeps_poisonEvent ..
  · exact WorkKeeps.refl d

/-! ### Steps -/

theorem keeps_sendReqs (d : Dev) (g : Nat) (rs : List GroveReq) : WorkKeeps d (sendReqs d g rs) := by
  unfold sendReqs
  dsimp only
  refine (keeps_grove ..).trans (WorkKeeps.foldl _ (fun d r => ?_) _ _)
  exact keeps_same rfl rfl rfl

theorem keeps_storeLocal (p : Part) (g e : Nat) (d : Dev) (w : Wr) : WorkKeeps d (storeLocal p g e d w) := by
  unfold storeLocal
  dsimp only
  split
  · exact keeps_setGrove _ _ _ (fun h => h.stores (Mem.wf_writeN _ _ _ _ h.1.1) h.1.2.1 rfl)
  · exact keeps_setGrove _ _ _ (fun h => h.stores h.1.1 (Mem.wf_writeN _ _ _ _ h.1.2.1) rfl)
  · exact keeps_storeDev ..
  · exact WorkKeeps.refl d

theorem keeps_addTally (d : Dev) (t : Tally) : WorkKeeps d (addTally d t) := by
  have k : ∀ (d : Dev) (i n : Nat), WorkKeeps d (if n = 0 then d else d.inc i 0 0 n) :=
    fun d i n => WorkKeeps.ite _ (WorkKeeps.refl d) (keeps_same rfl rfl rfl)
  exact (((((k d _ _).trans (k _ _ _)).trans (k _ _ _)).trans (k _ _ _)).trans (k _ _ _)).trans (k _ _ _)

theorem keeps_addUtil (d : Dev) (g k n : Nat) : WorkKeeps d (d.addUtil g k n) := keeps_same rfl rfl rfl
theorem keeps_setCtx (d : Dev) (n : Nat) (x : ScaleCtx) : WorkKeeps d (d.setCtx n x) := keeps_same rfl rfl rfl

theorem keeps_stepDone (p : Part) (d : Dev) (g e c : Nat) (r : StepRes) : WorkKeeps d (stepDone p d g e c r) := by
  unfold stepDone
  dsimp only
  refine WorkKeeps.trans ?_ (keeps_grove ..)
  refine WorkKeeps.trans ?_ (keeps_addUtil ..)
  exact (WorkKeeps.foldl _ (keeps_storeLocal p g e) _ _).trans ((keeps_sendReqs ..).trans (keeps_addTally ..))

theorem keeps_readFlaws (p : Part) (gr : Grove) (rs : List Rd) (d : Dev) : WorkKeeps d (readFlaws p gr d rs).1 := by
  induction rs generalizing d with
  | nil => exact WorkKeeps.refl d
  | cons r rs ih =>
    unfold readFlaws
    dsimp only
    split
    · exact keeps_takeFlaws ..
    · exact (keeps_takeFlaws ..).trans (ih _)

theorem keeps_stepEnd (p : Part) (d : Dev) (g e c : Nat) (r : StepRes) : WorkKeeps d (stepEnd p d g e c r) :=
  (keeps_stepDone ..).trans (keeps_takeFlaws ..)

theorem keeps_askLines (p : Part) (d : Dev) (g e c : Nat) (miss : List Nat) : WorkKeeps d (askLines p d g e c miss) :=
  (keeps_grove ..).trans (keeps_sendReqs ..)

theorem keeps_runStep (p : Part) (d : Dev) (g e c : Nat) (r : StepRes) : WorkKeeps d (runStep p d g e c r) := by
  have hr := keeps_readFlaws p (d.grove g) r.reads d
  unfold runStep
  dsimp only
  split
  · exact (keeps_grove ..).trans (keeps_ctxFault ..)
  · split
    · exact keeps_ctxFault ..
    · split
      · exact keeps_ctxFault ..
      · split
        · exact keeps_ctxFault ..
        · split
          · exact keeps_grove ..
          · split
            · exact keeps_askLines ..
            · refine hr.trans ?_
              split
              · exact keeps_eccFault ..
              · split
                · refine WorkKeeps.trans ?_ (keeps_ctxFault ..)
                  exact WorkKeeps.ite _ (keeps_same rfl rfl rfl) (WorkKeeps.refl _)
                · split
                  · exact keeps_ctxFault ..
                  · exact keeps_stepEnd ..

theorem keeps_copyFx (p : Part) (d : Dev) (gr : Grove) (a n : Nat) (fx : StackFx) : WorkKeeps d (copyFx p d gr a n fx).1 := by
  unfold copyFx
  split
  · exact (onlyMem_applyFx ..).keeps (wf_applyFx _ _ _ _)
  · exact WorkKeeps.refl d

theorem keeps_settleEnd (d : Dev) (g : Nat) : WorkKeeps d (settleEnd d g) := by
  have k : WorkKeeps d (d.setGrove g (d.grove g).drain) := keeps_setGrove _ _ _ (fun h => h.drain)
  refine WorkKeeps.ite _ (k.trans (WorkKeeps.trans (keeps_setGrove _ _ _ (fun h => ?_)) (keeps_setPhase ..))) k
  rw [Dev.grove_setGrove] at h
  exact h.setBank ..

theorem keeps_boundary (d : Dev) (g : Nat) (next : Grove → Grove) (hn : ∀ gr, gr.Sound → (next gr).Sound) : WorkKeeps d (boundary d g next) := by
  unfold boundary
  dsimp only
  split
  · exact keeps_setGrove _ _ _ (fun h => hn _ h)
  · split
    · exact keeps_grove ..
    · have k : (d.grove g).Sound → ({ d.grove g with armed := none } : Grove).Sound := fun h => h.of rfl rfl rfl
      split
      · exact keeps_setGrove _ _ _ (fun h => (((k h).setBank ..).setBank ..).drain.of rfl rfl rfl)
      · exact (keeps_setGrove _ _ _ (fun h => hn _ (k h))).trans (keeps_emit ..)

theorem keeps_flagGrow (p : Part) (d : Dev) (g f : Nat) (x : Flag) (hx : (d.grove g).Sound → x.s ≤ x.pl) : WorkKeeps d (flagGrow p d g f x) := by
  unfold flagGrow
  split
  · exact keeps_seqFault ..
  · rename_i k
    exact keeps_setGrove _ _ _ (fun h => (h.setFlag f ⟨Nat.le_of_not_lt k, hx h⟩).of rfl rfl rfl)

theorem keeps_takeScale (t : Stp) (vals : Stp → List Num) (f : Stp → StepRes) : WorkKeeps t.d (takeScale t vals f) := by
  unfold takeScale
  dsimp only
  have e : ∀ (d : Dev) (j n : Nat), (noteNamed d j n).groves = d.groves := by
    intro d j n
    unfold noteNamed
    split <;> rfl
  refine WorkKeeps.trans (WorkKeeps.trans ?_ (keeps_setCtx ..)) (keeps_setGrove _ _ _ fun h => ?_)
  · exact WorkKeeps.ite _ (WorkKeeps.refl _) (keeps_same rfl rfl rfl)
  · refine Grove.Sound.of (gr := t.d.grove t.g) ?_ rfl rfl rfl
    unfold Dev.grove at h ⊢
    rwa [← e t.d (t.d.groveJob t.g) (cvCtx t.cvt)]

theorem wf_checkReads (p : Part) (d : Dev) (rs : List (Nat × Nat)) (h : Mem.wf 0#8 d.mem.mem = true) :
    Mem.wf 0#8 (checkReads p d rs).1.mem.mem = true := by
  have k : ∀ (rs : List (Nat × Nat)) (acc : Dev × Option Nat), Mem.wf 0#8 acc.1.mem.mem = true →
      Mem.wf 0#8 (rs.foldl (fun acc r =>
        let y := checkRead p acc.1 r.1 r.2
        (y.1, if acc.2.isNone && y.2 then some (poisonSpot p y.1 r.1 r.2) else acc.2)) acc).1.mem.mem = true := by
    intro rs
    induction rs with
    | nil => exact fun _ h => h
    | cons r rs ih => exact fun acc h => ih _ (wf_takeFlaws _ _ _ h)
  exact k rs (d, none) h

/-! ### Meanings -/

/-- A sequencer's instruction keeps them if its effect does. -/
theorem seqRun_keeps {g op : Nat} {s t : State} (f : Part → Dev → Nat → Dev) (h : seqRun g op s f = .next t)
    (hf : ∀ p d w, WorkKeeps d (f p d w)) : WorkKeeps s.dev t.dev := by
  unfold seqRun liftAt at h
  split at h
  · unfold lift at h
    injection h with h
    subst h
    show WorkKeeps s.dev (match seqWord s.dev g op with | some w => f s.part s.dev w | none => s.dev)
    split
    · exact hf ..
    · exact WorkKeeps.refl _
  · cases h

/-- A meaning at a unit. -/
theorem liftAt_keeps {c : Bool} {s t : State} (f : Part → Dev → Dev) (h : liftAt s c f = .next t) (hf : ∀ p d, WorkKeeps d (f p d)) :
    WorkKeeps s.dev t.dev := by
  unfold liftAt at h
  split at h
  · unfold lift at h
    injection h with h
    subst h
    exact hf ..
  · cases h

/-- An engine command's step. -/
theorem engineStep_keeps {g e c opc : Nat} {sub : Option Nat} {s t : State} {f : Stp → StepRes}
    (h : engineStep g e c opc sub s f = .next t) : WorkKeeps s.dev t.dev :=
  liftAt_keeps _ h fun _ d => WorkKeeps.ite _ (WorkKeeps.refl d) (keeps_runStep ..)

/-- A step of a converting command. -/
theorem scaledStep_keeps {g e c opc : Nat} {sub : Option Nat} {s t : State} {vals : Stp → List Num} {f : Stp → StepRes}
    (h : scaledStep g e c opc sub s vals f = .next t) : WorkKeeps s.dev t.dev :=
  liftAt_keeps _ h fun p d => WorkKeeps.ite _ (WorkKeeps.refl d)
    (WorkKeeps.ite _ (keeps_runStep ..) (WorkKeeps.ite _ (keeps_grove ..)
      (WorkKeeps.ite _ ((keeps_grove ..).trans (keeps_askLines ..)) (by
        refine WorkKeeps.trans ((onlyMem_checkReads p d [histRange p d (cvCtx (stepOf p d g e c).cvt)]).keeps (wf_checkReads p d _)) ?_
        dsimp only
        split
        · exact (keeps_poisonEvent ..).trans (keeps_ctxFault ..)
        · exact (keeps_takeScale (stepOf p _ g e c) vals f).trans (keeps_runStep ..)))))

/-! ### Registers, marks -/

/-- Registers written, and the next word. -/
theorem keeps_regInstr (g : Nat) (f : Grove → Dev → Word) (r : Nat) (d : Dev) : WorkKeeps d (regInstr g f r d) :=
  keeps_setGrove _ _ _ (fun h => (h.setReg ..).of rfl rfl rfl)

theorem keeps_branch (g w : Nat) (k : Word → Word → Bool) (d : Dev) : WorkKeeps d (branchInstr g w k d) :=
  keeps_setGrove _ _ _ (fun h => by split <;> exact h.of rfl rfl rfl)

/-- Reads by a step change memory and events alone. -/
theorem onlyMem_readFlaws (p : Part) (gr : Grove) (rs : List Rd) (d : Dev) : OnlyMem d (readFlaws p gr d rs).1 := by
  induction rs generalizing d with
  | nil => exact OnlyMem.refl d
  | cons r rs ih =>
    unfold readFlaws
    dsimp only
    split
    · exact onlyMem_takeFlaws ..
    · exact (onlyMem_takeFlaws ..).trans (ih _)

theorem keeps_raiseMark (d : Dev) (k v : Nat) : WorkKeeps d (raiseMark d k v) := by
  unfold raiseMark
  split
  · exact keeps_same rfl rfl rfl
  · exact WorkKeeps.refl d

/-! ### Flags -/

/-- A set from outside, applied or discarded (R130). -/
theorem remoteSet_sound (p : Part) (d : Dev) (sender job g f : Nat) (hd : d.Sound) : (remoteSetHere p d sender job g f).Sound := by
  have k : OnlyGrove g d (remoteSetHere p d sender job g f) := by
    unfold remoteSetHere
    exact OnlyGrove.ite _ (onlyGrove_setGrove ..) ((onlyGrove_same rfl rfl : OnlyGrove g d (d.inc 0x4107 1 0)).trans (onlyGrove_emit ..))
  refine k.sound ?_ hd
  unfold remoteSetHere
  dsimp only
  split
  · rename_i ok
    simp only [Bool.and_eq_true, decide_eq_true_eq] at ok
    refine keeps_setGrove _ _ _ (fun h => h.setFlag f ?_)
    have := h.2 f
    dsimp only
    omega
  · exact (keeps_same rfl rfl rfl : WorkKeeps d (d.inc 0x4107 1 0)).trans (keeps_emit ..)

/-- A remote flag word acted on (R125, R129). -/
theorem signal_sound (p : Part) (d : Dev) (job w : Nat) (hd : d.Sound) : (signalFlag p d job w).Sound := by
  unfold signalFlag
  dsimp only
  split
  · exact remoteSet_sound _ _ _ _ _ _ hd
  · split
    · exact ((onlyGrove_same rfl rfl : OnlyGrove 0 d (d.inc 0x4107 1 0)).trans (onlyGrove_emit 0 ..)).sound
        ((keeps_same rfl rfl rfl : WorkKeeps d (d.inc 0x4107 1 0)).trans (keeps_emit ..)) hd
    · exact (onlyGrove_same rfl rfl : OnlyGrove 0 d _).sound (keeps_same rfl rfl rfl) hd

/-- A local setter done (R127). -/
theorem localSet_sound {gr : Grove} (h : gr.Sound) (f : Nat) (hs : 0 < (gr.flag f).s) : (gr.localSet f).Sound := by
  unfold Grove.localSet
  refine h.setFlag f ?_
  have := h.2 f
  dsimp only
  omega

end Sys2Proof.Machine
end

