-- ==== Sys2Proof/Laws/Cells.lean ====
section
/-! SUPPORT. The packet buffer stays sound: every operation on cells, and how many cells there are. -/

namespace Sys2Proof.Machine

variable {α : Type}

/-! ### Sorted tables taken apart -/

/-- A listed entry, what stands before it and what after. -/
theorem Tbl.split_some {t : Tbl α} {c : Nat} {r : α} (hs : t.Pairwise (fun x y => x.1 < y.1)) (h : Tbl.find? t c = some r) :
    ∃ l m, t = l ++ (c, r) :: m ∧ (∀ v, Tbl.put t c v = l ++ (c, v) :: m) ∧ Tbl.erase t c = l ++ m := by
  induction t with
  | nil => cases h
  | cons p t ih =>
    obtain ⟨k, w⟩ := p
    have hc := List.pairwise_cons.mp hs
    by_cases e : c = k
    · subst e
      simp only [Tbl.find?, if_true, Option.some.injEq] at h
      subst h
      refine ⟨[], t, rfl, fun v => by simp [Tbl.put], ?_⟩
      have : t.filter (fun p => p.1 != c) = t := List.filter_eq_self.mpr fun a ha => by
        have := hc.1 a ha
        simp only [bne_iff_ne, ne_eq]
        omega
      simp [Tbl.erase, this]
    · simp only [Tbl.find?, e, if_false] at h
      obtain ⟨l, m, h1, h2, h3⟩ := ih hc.2 h
      have hk : ¬c < k := by
        have := hc.1 (c, r) (by rw [h1]; simp)
        dsimp only at this
        omega
      refine ⟨(k, w) :: l, m, by rw [h1]; rfl, fun v => by simp [Tbl.put, e, hk, h2 v], ?_⟩
      have e' : ¬k = c := fun x => e x.symm
      simp only [Tbl.erase] at h3
      simp [Tbl.erase, e', h3]

/-- Where an entry that is not listed comes to stand. -/
theorem Tbl.split_none (t : Tbl α) {c : Nat} (h : Tbl.find? t c = none) : ∃ l m, t = l ++ m ∧ ∀ v, Tbl.put t c v = l ++ (c, v) :: m := by
  induction t with
  | nil => exact ⟨[], [], rfl, fun v => rfl⟩
  | cons p t ih =>
    obtain ⟨k, w⟩ := p
    by_cases e : c = k
    · simp [Tbl.find?, e] at h
    · simp only [Tbl.find?, e, if_false] at h
      by_cases hk : c < k
      · exact ⟨[], (k, w) :: t, rfl, fun v => by simp [Tbl.put, e, hk]⟩
      · obtain ⟨l, m, h1, h2⟩ := ih h
        exact ⟨(k, w) :: l, m, by rw [h1]; rfl, fun v => by simp [Tbl.put, e, hk, h2 v]⟩

theorem Tbl.find?_none_of {t : Tbl α} {c : Nat} (h : c ∉ Tbl.keys t) : Tbl.find? t c = none := by
  induction t with
  | nil => rfl
  | cons p t ih =>
    obtain ⟨k, w⟩ := p
    simp only [Tbl.keys, List.map_cons, List.mem_cons, not_or] at h
    simp only [Tbl.find?, h.1, if_false]
    exact ih h.2

theorem Tbl.find?_mem {t : Tbl α} {c : Nat} {r : α} (h : Tbl.find? t c = some r) : (c, r) ∈ t := by
  induction t with
  | nil => cases h
  | cons p t ih =>
    obtain ⟨k, w⟩ := p
    unfold Tbl.find? at h
    split at h
    · rename_i e; subst e; injection h with h; subst h; exact List.mem_cons_self ..
    · exact List.mem_cons_of_mem _ (ih h)

/-! ### One cell -/

/-- The record of a cell in use changed, its headroom mark and the count of those together. -/
theorem Buffer.Sound.put {b t : Buffer} {c : Nat} {r v : CellRec} (h : b.Sound) (hf : b.cells.find? c = some r)
    (hc : t.cells = b.cells.put c v) (hr : t.retired = b.retired) (ho : v.owners ≠ 0)
    (hh : t.headroomUsed + b2n r.head = b.headroomUsed + b2n v.head) : t.Sound := by
  obtain ⟨h1, h2, h3, h4, h5⟩ := h
  obtain ⟨l, m, e1, e2, -⟩ := Tbl.split_some h1 hf
  have hm := h3 _ (Tbl.find?_mem hf)
  refine ⟨by rw [hc]; exact Tbl.pairwise_put _ _ _ h1, by rw [hr]; exact h2, fun x hx => ?_, by rw [hr]; exact h4, ?_⟩
  · rw [hc] at hx
    rw [hr]
    rcases Tbl.mem_put _ _ _ _ hx with e | e
    · subst e; exact ⟨hm.1, ho, hm.2.2⟩
    · exact h3 x e
  · rw [hc, e2]
    rw [e1] at h5
    simp only [List.filter_append, List.filter_cons, List.length_append] at h5 ⊢
    cases hv : v.head <;> cases hr' : r.head <;> simp_all [b2n] <;> omega

/-- A free cell taken. -/
theorem Buffer.Sound.take {b t : Buffer} {c : Nat} {v : CellRec} (h : b.Sound) (hf : b.cells.find? c = none) (hl : c < 2097152)
    (hn : c ∉ b.retired) (hc : t.cells = b.cells.put c v) (hr : t.retired = b.retired) (ho : v.owners ≠ 0) (hv : v.head = false)
    (hh : t.headroomUsed = b.headroomUsed) : t.Sound := by
  obtain ⟨h1, h2, h3, h4, h5⟩ := h
  obtain ⟨l, m, e1, e2⟩ := Tbl.split_none b.cells hf
  refine ⟨by rw [hc]; exact Tbl.pairwise_put _ _ _ h1, by rw [hr]; exact h2, fun x hx => ?_, by rw [hr]; exact h4, ?_⟩
  · rw [hc] at hx
    rw [hr]
    rcases Tbl.mem_put _ _ _ _ hx with e | e
    · subst e; exact ⟨hl, ho, hn⟩
    · exact h3 x e
  · rw [hc, e2, hh, h5, e1]
    simp [List.filter_append, hv]

/-- What leaves cells, retired cells and the count of headroom alone. -/
theorem Buffer.Sound.of {b t : Buffer} (h : b.Sound) (hc : t.cells = b.cells) (hr : t.retired = b.retired)
    (hh : t.headroomUsed = b.headroomUsed) : t.Sound := by
  unfold Buffer.Sound at h ⊢
  rw [hc, hr, hh]
  exact h

theorem putBit_set (v k : Nat) : putBit v k true ≠ 0 := by
  have : 0 < 2 ^ k := Nat.two_pow_pos k
  simp only [putBit, setBits, b2n]
  simp

/-- Free, held and retired cells are the whole buffer. -/
theorem Buffer.Sound.whole {d : Dev} (h : d.buf.Sound) : bufFree d + d.buf.cells.length + d.buf.retired.length = 2097152 := by
  obtain ⟨h1, h2, h3, h4, -⟩ := h
  have hn : (d.buf.cells.map Prod.fst ++ d.buf.retired).Nodup := by
    refine List.nodup_append.mpr ⟨?_, h2, fun a ha b hb e => ?_⟩
    · exact List.Pairwise.map _ (fun a b (h : a.1 < b.1) => Nat.ne_of_lt h) h1
    · obtain ⟨x, hx, rfl⟩ := List.mem_map.mp ha
      exact (h3 x hx).2.2 (e ▸ hb)
  have hs : (d.buf.cells.map Prod.fst ++ d.buf.retired) ⊆ List.range 2097152 := by
    intro a ha
    rcases List.mem_append.mp ha with e | e
    · obtain ⟨x, hx, rfl⟩ := List.mem_map.mp e
      exact List.mem_range.mpr (h3 x hx).1
    · exact List.mem_range.mpr (h4 a e)
  have := hn.length_le_of_subset hs
  simp only [List.length_append, List.length_map, List.length_range] at this
  unfold bufFree
  omega

/-! ### The operations -/

/-- A change that keeps the buffer sound. -/
structure BufKeeps (d t : Dev) : Prop where
  keep : d.buf.Sound → t.buf.Sound

theorem BufKeeps.refl (d : Dev) : BufKeeps d d := ⟨id⟩
theorem BufKeeps.trans {d t u : Dev} (h : BufKeeps d t) (k : BufKeeps t u) : BufKeeps d u := ⟨fun x => k.keep (h.keep x)⟩
theorem BufKeeps.ite {d a b : Dev} (c : Prop) [Decidable c] (h : BufKeeps d a) (k : BufKeeps d b) : BufKeeps d (if c then a else b) := by
  split
  · exact h
  · exact k
theorem BufKeeps.foldl {α : Type} (f : Dev → α → Dev) (hf : ∀ d x, BufKeeps d (f d x)) (l : List α) (d : Dev) : BufKeeps d (l.foldl f d) := by
  induction l generalizing d with
  | nil => exact BufKeeps.refl d
  | cons x l ih => exact (hf d x).trans (ih _)
theorem BufKeeps.same {d t : Dev} (h : t.buf = d.buf) : BufKeeps d t := ⟨fun x => by rw [h]; exact x⟩
theorem OnlyEvents.bufKeeps {d t : Dev} (h : OnlyEvents d t) : BufKeeps d t := .same h.buf_eq

theorem bufKeeps_badUse (d : Dev) (h c : Nat) : BufKeeps d (badUse d h c) :=
  ((onlyEvents_inc ..).trans (onlyEvents_emit ..)).bufKeeps

theorem bufKeeps_holdCell (h : Nat) (d : Dev) (c : Nat) : BufKeeps d (holdCell h d c) := by
  unfold holdCell
  split
  · rename_i r hr
    exact ⟨fun x => x.put hr rfl rfl (putBit_set _ _) rfl⟩
  · exact bufKeeps_badUse ..

theorem bufKeeps_holdCells (d : Dev) (cs : List Nat) (h : Nat) : BufKeeps d (holdCells d cs h) :=
  BufKeeps.foldl _ (bufKeeps_holdCell h) _ _

theorem bufKeeps_failCell (d : Dev) (c : Nat) : BufKeeps d (failCell d c) := by
  unfold failCell
  split
  · exact BufKeeps.refl d
  · rename_i r hr
    exact ⟨fun x => x.put hr rfl rfl (x.2.2.1 _ (Tbl.find?_mem hr)).2.1 rfl⟩

theorem bufKeeps_markHead (d : Dev) (c : Nat) : BufKeeps d (markHead d c) := by
  unfold markHead
  split
  · exact BufKeeps.refl d
  · rename_i r hr
    split
    · exact BufKeeps.refl d
    · rename_i hh
      refine ⟨fun x => x.put hr rfl rfl (x.2.2.1 _ (Tbl.find?_mem hr)).2.1 ?_⟩
      simp [hh, b2n]

theorem freeCell_keeps (d : Dev) (c : Nat) (r : CellRec) (hf : d.buf.cells.find? c = some r) (h : d.buf.Sound) : (freeCell d c r).buf.Sound := by
  obtain ⟨h1, h2, h3, h4, h5⟩ := h
  obtain ⟨l, m, e1, -, e3⟩ := Tbl.split_some h1 hf
  have hm := h3 _ (Tbl.find?_mem hf)
  have sub : ∀ x ∈ Tbl.erase d.buf.cells c, x ∈ d.buf.cells ∧ x.1 ≠ c := by
    intro x hx
    have := List.mem_filter.mp hx
    exact ⟨this.1, by simpa using this.2⟩
  refine ⟨h1.filter _, ?_, fun x hx => ?_, fun x hx => ?_, ?_⟩
  · show (if r.bad then c :: d.buf.retired else d.buf.retired).Nodup
    split
    · exact List.nodup_cons.mpr ⟨hm.2.2, h2⟩
    · exact h2
  · obtain ⟨hx1, hx2⟩ := sub x hx
    refine ⟨(h3 x hx1).1, (h3 x hx1).2.1, ?_⟩
    show x.1 ∉ (if r.bad then c :: d.buf.retired else d.buf.retired)
    split
    · intro hy
      rcases List.mem_cons.mp hy with e | e
      · exact hx2 e
      · exact (h3 x hx1).2.2 e
    · exact (h3 x hx1).2.2
  · change x ∈ (if r.bad then c :: d.buf.retired else d.buf.retired) at hx
    split at hx
    · rcases List.mem_cons.mp hx with e | e
      · subst e; exact hm.1
      · exact h4 x e
    · exact h4 x hx
  · show d.buf.headroomUsed - b2n r.head = ((Tbl.erase d.buf.cells c).filter fun x => x.2.head).length
    rw [e3]
    rw [e1] at h5
    simp only [List.filter_append, List.filter_cons, List.length_append] at h5 ⊢
    cases hr : r.head <;> simp_all [b2n]

theorem bufKeeps_releaseCell (h : Nat) (d : Dev) (c : Nat) : BufKeeps d (releaseCell h d c) := by
  have mis : BufKeeps d ({ d with buf := { d.buf with reclaimed := d.buf.reclaimed.filter (· != (c, h)) } }.inc 0x3003 3 0) :=
    ⟨fun x => x.of rfl rfl rfl⟩
  unfold releaseCell
  dsimp only
  split
  · exact BufKeeps.ite _ mis (bufKeeps_badUse ..)
  · rename_i r hr
    refine BufKeeps.ite _ mis ?_
    split
    · exact ⟨freeCell_keeps d c r hr⟩
    · rename_i ho
      exact ⟨fun x => x.put hr rfl rfl ho rfl⟩

/-! ### Credit withheld: no cell changes -/

theorem setLink_buf (d : Dev) (n : Nat) (l : Link) : (d.setLink n l).buf = d.buf := rfl

theorem sendPfc_buf (d : Dev) (arr prio time : Nat) : (sendPfc d arr prio time).buf = d.buf := by
  unfold sendPfc linkCtr
  dsimp only
  rw [setLink_buf]
  rfl

theorem bufKeeps_returnCredits (d : Dev) (arr vc fl sh : Nat) : BufKeeps d (returnCredits d arr vc fl sh) := by
  unfold returnCredits
  dsimp only
  refine BufKeeps.same ?_
  split <;> split <;> rfl

theorem bufKeeps_releaseKept (d : Dev) (arr key : Nat) (k : List Nat) : BufKeeps d (releaseKept d arr key k) := by
  unfold releaseKept
  dsimp only
  split
  · refine BufKeeps.trans ?_ (bufKeeps_returnCredits ..)
    exact BufKeeps.same rfl
  · refine BufKeeps.same ?_
    rw [sendPfc_buf, setLink_buf, setLink_buf]

theorem bufKeeps_unhold (d : Dev) (cause : Nat) : BufKeeps d (unhold d cause) := by
  unfold unhold
  refine BufKeeps.foldl _ (fun d arr => ?_) _ _
  refine BufKeeps.foldl _ (fun d x => ?_) _ _
  exact BufKeeps.ite _ (bufKeeps_releaseKept ..) (BufKeeps.same rfl)

theorem bufKeeps_settleWithheld (d : Dev) : BufKeeps d (settleWithheld d) :=
  BufKeeps.foldl _ (fun d _ => BufKeeps.ite _ (bufKeeps_unhold ..) (BufKeeps.refl d)) _ _

theorem bufKeeps_releaseCells (d : Dev) (h : Nat) (cs : List Nat) : BufKeeps d (releaseCells d h cs) :=
  (BufKeeps.foldl _ (bufKeeps_releaseCell h) _ _).trans (bufKeeps_settleWithheld _)

/-! ### Egress queues: cells held and released -/

theorem bufKeeps_settleElig (d : Dev) (n : Nat) : BufKeeps d (settleElig d n) := by
  have one : ∀ (wake : Option Nat) (d : Dev) (q : Nat), BufKeeps d (noteElig n wake d q) := by
    intro wake d q
    unfold noteElig
    dsimp only
    exact BufKeeps.ite _ (BufKeeps.refl d) (BufKeeps.same rfl)
  unfold settleElig
  dsimp only
  generalize (if d.inFcm = true then none else some _ : Option Nat) = wake
  have k : BufKeeps d ((List.range 16).foldl (noteElig n wake) d) := BufKeeps.foldl _ (one wake) _ d
  generalize (List.range 16).foldl (noteElig n wake) d = t at k
  split
  · split
    · exact k
    · exact k.trans (BufKeeps.same rfl)
  · exact k

theorem bufKeeps_placeCopy (d : Dev) (n q : Nat) (x : Copy) : BufKeeps d (placeCopy d n q x) := by
  unfold placeCopy
  split
  · exact bufKeeps_badUse ..
  · dsimp only
    have k : BufKeeps d (if x.headroom then x.cells.foldl markHead (holdCells d x.cells n) else holdCells d x.cells n) :=
      BufKeeps.ite _ ((bufKeeps_holdCells ..).trans (BufKeeps.foldl _ bufKeeps_markHead _ _)) (bufKeeps_holdCells ..)
    refine k.trans ?_
    unfold queueCopy
    dsimp only
    refine BufKeeps.trans ?_ (bufKeeps_settleElig ..)
    exact BufKeeps.same rfl

theorem bufKeeps_releaseLink (d : Dev) (n : Nat) (cs : List Nat) : BufKeeps d (releaseLink d n cs) := bufKeeps_releaseCells ..

theorem bufKeeps_releaseCopy (d : Dev) (n q : Nat) (x : Copy) : BufKeeps d (releaseCopy d n q x) := by
  unfold releaseCopy
  dsimp only
  refine BufKeeps.trans ?_ (bufKeeps_releaseLink ..)
  exact BufKeeps.same rfl

/-! ### Cells allocated -/

theorem lowestFree_free {d : Dev} {bank c : Nat} (h : lowestFree d bank = some c) (hb : bank < 32) :
    c < 2097152 ∧ d.buf.cells.find? c = none ∧ c ∉ d.buf.retired := by
  unfold lowestFree at h
  have hp := List.find?_some h
  simp only [Bool.and_eq_true, decide_eq_true_eq, Bool.not_eq_true', List.contains_eq_mem, List.mem_filter, List.mem_append,
    decide_eq_false_iff_not, not_and_or] at hp
  obtain ⟨⟨h1, h2⟩, h3⟩ := hp
  have hn : c ∉ Tbl.keys d.buf.cells ∧ c ∉ d.buf.retired := by
    rcases h3 with h3 | h3
    · exact not_or.mp h3
    · rcases h3 with h3 | h3
      · exact absurd h1 h3
      · exact absurd h2 h3
  exact ⟨by omega, Tbl.find?_none_of hn.1, hn.2⟩

theorem allocFrom_free {d : Dev} {n bank c b : Nat} (h : allocFrom d n bank = some (c, b)) :
    c < 2097152 ∧ d.buf.cells.find? c = none ∧ c ∉ d.buf.retired := by
  induction n generalizing bank with
  | zero => cases h
  | succ n ih =>
    unfold allocFrom at h
    split at h
    · rename_i x hx
      injection h with h
      injection h with h1 h2
      subst h1
      exact lowestFree_free hx (Nat.mod_lt _ (by decide))
    · exact ih h

theorem allocCells_keeps {n : Nat} {d t : Dev} {bank b : Nat} {cs : List Nat} (h : allocCells n d bank = some (cs, b, t)) :
    BufKeeps d t ∧ cs.length = n ∧ Allocated d cs t := by
  induction n generalizing d bank b cs with
  | zero =>
    simp only [allocCells, Option.some.injEq, Prod.mk.injEq] at h
    obtain ⟨rfl, -, rfl⟩ := h
    exact ⟨BufKeeps.refl d, rfl, List.nodup_nil, by simp, by simp, fun _ _ => rfl, rfl⟩
  | succ n ih =>
    unfold allocCells at h
    split at h
    · cases h
    · rename_i c b1 ha
      have hf := allocFrom_free ha
      dsimp only at h
      split at h
      · cases h
      · rename_i cs' bank' d2 hr
        simp only [Option.some.injEq, Prod.mk.injEq] at h
        obtain ⟨rfl, -, rfl⟩ := h
        obtain ⟨k1, k2, k3⟩ := ih hr
        have hc : c ∉ cs' := fun hm => by
          have := (k3.2.1 c hm).1
          simp only [Tbl.find?_put_same] at this
          cases this
        refine ⟨BufKeeps.trans ⟨fun x => ?_⟩ k1, by simp [k2], List.nodup_cons.mpr ⟨hc, k3.1⟩, fun x hx => ?_, fun x hx => ?_,
          fun x hx => ?_, k3.2.2.2.2⟩
        · exact x.take hf.2.1 hf.1 hf.2.2 rfl rfl (by decide) rfl rfl
        · rcases List.mem_cons.mp hx with e | e
          · subst e; exact hf.2
          · have := k3.2.1 x e
            have hne : x ≠ c := fun h => hc (h ▸ e)
            simp only [Tbl.find?_put_other _ _ _ _ hne] at this
            exact this
        · rcases List.mem_cons.mp hx with e | e
          · subst e
            rw [k3.2.2.2.1 _ hc]
            exact Tbl.find?_put_same ..
          · exact k3.2.2.1 x e
        · have hx := not_or.mp (fun h => hx (List.mem_cons.mpr h))
          rw [k3.2.2.2.1 x hx.2]
          exact Tbl.find?_put_other _ _ _ _ hx.1

theorem allocFrame_keeps {d t : Dev} {arr : Option Nat} {n : Nat} {cs : List Nat} (h : allocFrame d arr n = some (cs, t)) :
    BufKeeps d t ∧ cs.length = n ∧ Allocated d cs t := by
  unfold allocFrame at h
  split at h
  · dsimp only at h
    split at h
    · cases h
    · rename_i cs' b d1 ha
      simp only [Option.some.injEq, Prod.mk.injEq] at h
      obtain ⟨rfl, rfl⟩ := h
      obtain ⟨k1, k2, k3⟩ := allocCells_keeps ha
      exact ⟨k1.trans ⟨fun x => x.of rfl rfl rfl⟩, k2, k3.1, k3.2.1, k3.2.2.1, k3.2.2.2.1, k3.2.2.2.2⟩
  · split at h
    · cases h
    · rename_i cs' b d1 ha
      simp only [Option.some.injEq, Prod.mk.injEq] at h
      obtain ⟨rfl, rfl⟩ := h
      obtain ⟨k1, k2, k3⟩ := allocCells_keeps ha
      exact ⟨(BufKeeps.same rfl : BufKeeps d d.draw.2).trans k1, k2, k3.1, k3.2.1, k3.2.2.1, k3.2.2.2.1, k3.2.2.2.2⟩

/-! ### A frame at ingress -/

theorem bufKeeps_giveCredit (d : Dev) (arr vc fl c : Nat) : BufKeeps d (giveCredit d arr vc fl c) := by
  unfold giveCredit
  dsimp only
  split
  · exact bufKeeps_returnCredits ..
  · exact BufKeeps.same rfl

theorem bufKeeps_withFrame (d : Dev) (arr : Option Nat) (vc c : Nat) (cs : List Nat) (owed : Option Nat) (f : Dev → Dev)
    (hf : ∀ d, BufKeeps d (f d)) : BufKeeps d (withFrame d arr vc c cs owed f) := by
  have put : ∀ (d : Dev) (a : Option (List Nat × Option Nat)), BufKeeps d { d with buf := { d.buf with arriving := a } } :=
    fun d a => ⟨fun x => x.of rfl rfl rfl⟩
  unfold withFrame
  dsimp only
  have h1 := (put d (some (cs, owed))).trans (hf _)
  generalize f { d with buf := { d.buf with arriving := some (cs, owed) } } = d1 at h1
  refine h1.trans ?_
  refine BufKeeps.trans ?_ (put ..)
  split
  · exact BufKeeps.refl _
  · have h2 := (put d1 none).trans (bufKeeps_releaseCells _ 163 ‹List Nat × Option Nat›.1)
    refine h2.trans ?_
    split
    · exact bufKeeps_giveCredit ..
    · exact BufKeeps.refl _

theorem bufKeeps_ingress (d : Dev) (arr : Option Nat) (vc bytes : Nat) (owed : Option Nat) (f : Dev → Dev) (hf : ∀ d, BufKeeps d (f d)) :
    BufKeeps d (ingress d arr vc bytes owed f) := by
  unfold ingress
  split
  · rename_i h
    exact (allocFrame_keeps h).1.trans (bufKeeps_withFrame _ _ _ _ _ _ _ hf)
  · exact bufKeeps_withFrame _ _ _ _ _ _ _ hf

theorem bufKeeps_withhold (d : Dev) (arr key n q : Nat) : BufKeeps d (withhold d arr key n q) := by
  unfold withhold
  dsimp only
  split
  · refine BufKeeps.same ?_
    rw [sendPfc_buf, setLink_buf, setLink_buf]
  · exact BufKeeps.same rfl

theorem bufKeeps_admitCopies (d : Dev) (arr : Option Nat) (lossless : Bool) (charge : Nat) (dests : List (Nat × Bool × Frame)) (pcp : Nat) :
    BufKeeps d (admitCopies d arr lossless charge dests pcp) := by
  unfold admitCopies
  refine BufKeeps.foldl _ (fun d x => ?_) _ _
  dsimp only
  split
  · exact BufKeeps.same rfl
  · exact ((onlyEvents_inc ..).trans (onlyEvents_emit ..)).bufKeeps
  · have k : ∀ y, BufKeeps d y → BufKeeps d (match arr with
        | some l => if x.2.2 == .headroom then withhold y l (heldKey d l pcp x.1.2.2) x.1.1 x.2.1 else y
        | none => y) := by
      intro y hy
      split
      · exact BufKeeps.ite _ (hy.trans (bufKeeps_withhold ..)) hy
      · exact hy
    exact k _ (bufKeeps_placeCopy ..)

/-! ### The leak auditor -/

theorem bufKeeps_reclaimCell (h : Nat) (d : Dev) (c : Nat) : BufKeeps d (reclaimCell h d c) := by
  unfold reclaimCell
  dsimp only
  refine (bufKeeps_releaseCells d h [c]).trans ⟨fun x => x.of rfl rfl rfl⟩

theorem bufKeeps_noteUnreferenced (walk : Nat) (was : List Nat) (d : Dev) (c : Nat) : BufKeeps d (noteUnreferenced walk was d c) := by
  unfold noteUnreferenced
  dsimp only
  split
  · exact BufKeeps.refl d
  · split
    · exact BufKeeps.same rfl
    · refine BufKeeps.trans ?_ (onlyEvents_emit ..).bufKeeps
      exact ⟨fun x => x.of rfl rfl rfl⟩

theorem bufKeeps_noteDangling (d : Dev) (x : Nat × Nat) : BufKeeps d (noteDangling d x) :=
  ((onlyEvents_inc ..).trans (onlyEvents_emit ..)).bufKeeps

end Sys2Proof.Machine
end

