-- ==== Sys2Proof/Laws/Body.lean ====
section
/-! SUPPORT. What the dictionary's serving of a request leaves alone, and the pace: a device stays sound. -/

namespace Sys2Proof.Machine

/-- The memories, the packet buffer and the groves are the same. -/
structure SameStore (d t : Dev) : Prop where
  groves : t.groves = d.groves
  mem : t.mem.mem = d.mem.mem
  flash : t.boot.flash = d.boot.flash
  buf : t.buf = d.buf

/-- The pace as well. -/
def SameBody (d t : Dev) : Prop := SameStore d t ∧ t.pace = d.pace

theorem SameStore.refl (d : Dev) : SameStore d d := ⟨rfl, rfl, rfl, rfl⟩
theorem SameStore.trans {d t u : Dev} (h : SameStore d t) (k : SameStore t u) : SameStore d u :=
  ⟨k.groves.trans h.groves, k.mem.trans h.mem, k.flash.trans h.flash, k.buf.trans h.buf⟩
theorem SameBody.refl (d : Dev) : SameBody d d := ⟨SameStore.refl d, rfl⟩
theorem SameBody.trans {d t u : Dev} (h : SameBody d t) (k : SameBody t u) : SameBody d u := ⟨h.1.trans k.1, k.2.trans h.2⟩
theorem SameBody.ite {d a b : Dev} (c : Prop) [Decidable c] (h : SameBody d a) (k : SameBody d b) : SameBody d (if c then a else b) := by
  split
  · exact h
  · exact k

theorem SameBody.foldl {α : Type} (f : Dev → α → Dev) (hf : ∀ d x, SameBody d (f d x)) (l : List α) (d : Dev) : SameBody d (l.foldl f d) := by
  induction l generalizing d with
  | nil => exact SameBody.refl d
  | cons x l ih => exact (hf d x).trans (ih _)

theorem OnlyEvents.body {d t : Dev} (h : OnlyEvents d t) : SameBody d t :=
  ⟨⟨h.groves_eq, by rw [h.mem_eq], by rw [show t = _ from h], h.buf_eq⟩, h.pace_eq⟩

/-- What leaves the stores leaves a device sound whose pace is. -/
theorem SameStore.sound {d t : Dev} (h : SameStore d t) (hd : d.Sound) (hp : t.pace.Sound) : t.Sound := by
  obtain ⟨h1, ⟨h2, h3⟩, h4, -⟩ := hd
  refine ⟨fun g => ?_, ⟨by rw [h.mem]; exact h2, by rw [h.flash]; exact h3⟩, by rw [h.buf]; exact h4, hp⟩
  unfold Dev.grove
  rw [h.groves]
  exact h1 g

theorem SameBody.sound {d t : Dev} (h : SameBody d t) (hd : d.Sound) : t.Sound := h.1.sound hd (by rw [h.2]; exact hd.2.2.2)

/-- All but the buffer, the switch and what the dictionary holds stands. -/
structure BesidesBuf (d t : Dev) : Prop where
  groves : t.groves = d.groves
  mem : t.mem.mem = d.mem.mem
  flash : t.boot.flash = d.boot.flash
  pace : t.pace = d.pace

theorem BesidesBuf.refl (d : Dev) : BesidesBuf d d := ⟨rfl, rfl, rfl, rfl⟩
theorem BesidesBuf.trans {d t u : Dev} (h : BesidesBuf d t) (k : BesidesBuf t u) : BesidesBuf d u :=
  ⟨k.groves.trans h.groves, k.mem.trans h.mem, k.flash.trans h.flash, k.pace.trans h.pace⟩
theorem BesidesBuf.ite {d a b : Dev} (c : Prop) [Decidable c] (h : BesidesBuf d a) (k : BesidesBuf d b) : BesidesBuf d (if c then a else b) := by
  split
  · exact h
  · exact k
theorem BesidesBuf.foldl {α : Type} (f : Dev → α → Dev) (hf : ∀ d x, BesidesBuf d (f d x)) (l : List α) (d : Dev) :
    BesidesBuf d (l.foldl f d) := by
  induction l generalizing d with
  | nil => exact BesidesBuf.refl d
  | cons x l ih => exact (hf d x).trans (ih _)
theorem OnlyEvents.besides {d t : Dev} (h : OnlyEvents d t) : BesidesBuf d t := ⟨h.body.1.groves, h.body.1.mem, h.body.1.flash, h.body.2⟩
theorem besides_setLink (d : Dev) (n : Nat) (l : Link) : BesidesBuf d (d.setLink n l) := ⟨rfl, rfl, rfl, rfl⟩
theorem besides_buf (d : Dev) (b : Buffer) : BesidesBuf d { d with buf := b } := ⟨rfl, rfl, rfl, rfl⟩

theorem besides_releaseCell (h : Nat) (d : Dev) (c : Nat) : BesidesBuf d (releaseCell h d c) := by
  unfold releaseCell
  dsimp only
  have mis := (besides_buf d { d.buf with reclaimed := d.buf.reclaimed.filter (· != (c, h)) }).trans (onlyEvents_inc _ 0x3003 3 0 1).besides
  split
  · exact BesidesBuf.ite _ mis ((onlyEvents_inc ..).trans (onlyEvents_emit ..)).besides
  · refine BesidesBuf.ite _ mis ?_
    exact BesidesBuf.ite _ (besides_buf ..) (besides_buf ..)

theorem besides_returnCredits (d : Dev) (arr vc fl sh : Nat) : BesidesBuf d (returnCredits d arr vc fl sh) := by
  have one : ∀ (c : Prop) [Decidable c] (d : Dev) (o : Out), BesidesBuf d (if c then d else d.send o) :=
    fun c _ d o => BesidesBuf.ite _ (BesidesBuf.refl d) (onlyEvents_send ..).besides
  unfold returnCredits
  dsimp only
  refine BesidesBuf.trans ?_ (one _ _ _)
  refine BesidesBuf.trans ?_ (one _ _ _)
  exact besides_setLink ..

theorem besides_sendPfc (d : Dev) (arr prio time : Nat) : BesidesBuf d (sendPfc d arr prio time) := by
  unfold sendPfc linkCtr
  dsimp only
  refine BesidesBuf.trans ?_ (besides_setLink ..)
  exact (onlyEvents_send ..).besides

theorem besides_releaseKept (d : Dev) (arr key : Nat) (k : List Nat) : BesidesBuf d (releaseKept d arr key k) := by
  unfold releaseKept
  dsimp only
  split
  · refine BesidesBuf.trans ?_ (besides_returnCredits ..)
    exact besides_setLink ..
  · refine BesidesBuf.trans ?_ (besides_sendPfc ..)
    refine BesidesBuf.trans ?_ (besides_setLink ..)
    exact besides_setLink ..

theorem besides_releaseCells (d : Dev) (h : Nat) (cs : List Nat) : BesidesBuf d (releaseCells d h cs) := by
  unfold releaseCells settleWithheld
  refine (BesidesBuf.foldl _ (besides_releaseCell h) _ _).trans (BesidesBuf.foldl _ (fun d _ => BesidesBuf.ite _ ?_ (BesidesBuf.refl d)) _ _)
  unfold unhold
  refine BesidesBuf.foldl _ (fun d arr => ?_) _ _
  refine BesidesBuf.foldl _ (fun d x => ?_) _ _
  exact BesidesBuf.ite _ (besides_releaseKept ..) (besides_setLink ..)

/-- What leaves all else and keeps the buffer sound leaves a device sound. -/
theorem BesidesBuf.sound {d t : Dev} (h : BesidesBuf d t) (k : BufKeeps d t) (hd : d.Sound) : t.Sound := by
  obtain ⟨h1, ⟨h2, h3⟩, h4, h5⟩ := hd
  refine ⟨fun x => ?_, ⟨by rw [h.mem]; exact h2, by rw [h.flash]; exact h3⟩, k.keep h4, by rw [h.pace]; exact h5⟩
  unfold Dev.grove
  rw [h.groves]
  exact h1 x

/-! ### Serving -/

theorem body_setChan (d : Dev) (c : Nat) (x : Chan) : SameBody d (d.setChan c x) := ⟨⟨rfl, rfl, rfl, rfl⟩, rfl⟩
theorem body_setSlot (d : Dev) (n : Fin 8) (x : Slot) : SameBody d (d.setSlot n x) := ⟨⟨rfl, rfl, rfl, rfl⟩, rfl⟩
theorem body_inc (d : Dev) (i s r k : Nat) : SameBody d (d.inc i s r k) := (onlyEvents_inc ..).body
theorem body_peers (d : Dev) (x : List (Nat × Nat)) : SameBody d { d with peers := x } := ⟨⟨rfl, rfl, rfl, rfl⟩, rfl⟩
theorem body_wr (d : Dev) (i s r v : Nat) : SameBody d (d.wr i s r v) := ⟨⟨rfl, rfl, rfl, rfl⟩, rfl⟩

theorem body_setUnlocked (d : Dev) (c : Nat) (b : Bool) : SameBody d (setUnlocked d c b) :=
  (body_setChan ..).trans (onlyEvents_emitLevel ..).body

theorem body_rearm (d : Dev) (c idx sub : Nat) : SameBody d (rearm d c idx sub) := by
  unfold rearm
  split
  · exact SameBody.ite _ (body_setUnlocked ..) (SameBody.refl d)
  · exact SameBody.refl d

theorem body_dropAsm (d : Dev) (c : Nat) : SameBody d (dropAsm d c) := by
  unfold dropAsm
  split
  · exact SameBody.refl d
  · refine SameBody.trans ?_ (body_rearm ..)
    exact (body_setChan ..).trans (body_inc ..)

theorem body_respond (d : Dev) (rq : Rq) (r : Rsp) : SameBody d (respond d rq r) := by
  unfold respond
  split
  · refine SameBody.trans ?_ (onlyEvents_raiseMsix ..).body
    exact body_setSlot ..
  · exact (onlyEvents_send ..).body

theorem body_enterChan (d : Dev) (p : Path) : SameBody d (enterChan d p).2 := by
  unfold enterChan
  split
  · exact SameBody.refl d
  · unfold enterPeer
    split
    · exact body_peers ..
    · split
      · exact body_peers ..
      · split
        · exact SameBody.refl d
        · exact (body_setUnlocked ..).trans ((body_peers ..).trans (body_setChan ..))

theorem body_takeReq (d : Dev) (rq : Rq) (k : Call) : SameBody d (takeReq d rq k) := by
  unfold takeReq
  split
  · exact (body_setSlot ..).trans (body_inc ..)
  · exact body_inc ..

theorem body_receive {d : Dev} {rq : Rq} {k : Call} : (∀ t, receive d rq k = .error t → SameBody d t) ∧
    (∀ t, receive d rq k = .ok t → SameBody d t) := by
  have hand : ∀ n, SameBody d (handSlot d rq k n) := fun n => body_setSlot ..
  unfold receive
  constructor <;> intro t h
  · split at h
    · injection h with h; subst h; exact SameBody.refl d
    · split at h
      · injection h with h; subst h; exact body_inc ..
      · split at h
        · split at h
          · split at h
            · cases h
            · injection h with h; subst h; exact hand _
          · cases h
        · split at h
          · injection h with h
            subst h
            exact SameBody.ite _ ((body_takeReq ..).trans (body_respond ..)) (hand _)
          · injection h with h; subst h; exact body_inc ..
  · split at h
    · cases h
    · split at h
      · cases h
      · split at h
        · split at h
          · split at h
            · injection h with h; subst h; exact body_takeReq ..
            · cases h
          · injection h with h; subst h; exact body_takeReq ..
        · split at h <;> cases h

/-- A request served leaves a device sound if its object's rule does. -/
theorem serve_sound {d : Dev} {rq : Rq} {k : Call} {act : Act} (hd : d.Sound)
    (h : ∀ c t, SameBody d t → (act c t).1.Sound) : (serve d rq k act).Sound := by
  have fin : ∀ (c : Nat) (x : Dev × Option Rsp), x.1.Sound → (finish c rq k.image x).Sound := by
    intro c x hx
    unfold finish
    split
    · exact hx
    · exact ((body_setChan ..).trans (body_respond ..)).sound hx
  have other : ∀ (c : Nat) (t : Dev), SameBody d t → (runOther t c k act).1.Sound := by
    intro c t ht
    unfold runOther
    dsimp only
    split
    · exact (ht.trans (body_dropAsm ..)).sound hd
    · exact h _ _ (ht.trans (body_dropAsm ..))
  have seg : ∀ (c : Nat) (t : Dev), SameBody d t → (runSegment t c rq.path k).1.Sound := by
    intro c t ht
    have dr : SameBody d (rearm (dropAsm t c) c k.idx k.sub) := (ht.trans (body_dropAsm ..)).trans (body_rearm ..)
    unfold runSegment
    dsimp only
    split
    · exact dr.sound hd
    · split
      · exact dr.sound hd
      · split
        · exact dr.sound hd
        · split
          · exact dr.sound hd
          · exact (ht.trans (body_setChan ..)).sound hd
  have wr : ∀ (c : Nat) (t : Dev), SameBody d t → (runWrite t c rq.path k act).1.Sound := by
    intro c t ht
    unfold runWrite
    extract_lets open_ mine stored t0 sent ch t1
    have h0 : SameBody d t0 := SameBody.ite _ ht (ht.trans (body_dropAsm ..))
    have h1 : SameBody d t1 := h0.trans (body_setChan ..)
    have dr : SameBody d (rearm (dropAsm t0 c) c k.idx k.sub) := (h0.trans (body_dropAsm ..)).trans (body_rearm ..)
    clear_value t1 ch sent t0 stored mine
    split
    · exact dr.sound hd
    · split
      · exact dr.sound hd
      · split
        · exact (h1.trans (body_rearm ..)).sound hd
        · have ha := h c t1 h1
          split
          · rename_i e; rw [e] at ha; exact ha
          · rename_i e; rw [e] at ha; exact (body_rearm ..).sound ha
  unfold serve
  split
  · rename_i t e
    exact (body_receive.1 t e).sound hd
  · rename_i t e
    have ht := (body_receive.2 t e).trans (body_enterChan t rq.path)
    unfold serveTaken serveOn
    generalize (enterChan t rq.path).2 = u at ht ⊢
    split
    · exact (ht.trans ((body_inc ..).trans (body_respond ..))).sound hd
    · exact (ht.trans (body_respond ..)).sound hd
    · split
      · exact (ht.trans (body_inc ..)).sound hd
      · exact (ht.trans (body_respond ..)).sound hd
    · refine fin _ _ ?_
      split
      · exact other _ _ ht
      · split
        · exact wr _ _ ht
        · exact seg _ _ ht

theorem serveWrite_sound {d : Dev} {rq : Rq} {idx sub : Nat} {bs : List Byte} {rule : Dev → Dev × Nat} (hd : d.Sound)
    (h : ∀ t, SameBody d t → (rule t).1.Sound) : (serveWrite d rq idx sub bs rule).Sound := serve_sound hd (fun _ t ht => h t ht)

end Sys2Proof.Machine
end

