-- ==== Sys2Proof/Laws/Ingress.lean ====
section
/-! SUPPORT. What taking a frame up at ingress does before the frame is decided, said once: cells are allocated and held, and
nothing else of the device changes. -/

namespace Sys2Proof.Machine

/-- `t` differs from `d` at most in what taking up a frame changes: the packet buffer and the count of free values. -/
def OnlyIngress (d t : Dev) : Prop := t = { d with buf := t.buf, freeIx := t.freeIx }

theorem OnlyIngress.refl (d : Dev) : OnlyIngress d d := rfl

theorem OnlyIngress.trans {d t u : Dev} (h : OnlyIngress d t) (k : OnlyIngress t u) : OnlyIngress d u := by
  unfold OnlyIngress at h k ⊢
  rw [h] at k
  exact k

theorem onlyIngress_buf (d : Dev) (b : Buffer) : OnlyIngress d { d with buf := b } := rfl

theorem OnlyIngress.colls {d t : Dev} (h : OnlyIngress d t) : t.colls = d.colls := by rw [h]
theorem OnlyIngress.groves {d t : Dev} (h : OnlyIngress d t) : t.groves = d.groves := by rw [h]
theorem OnlyIngress.sw {d t : Dev} (h : OnlyIngress d t) : t.sw = d.sw := by rw [h]
theorem OnlyIngress.mem {d t : Dev} (h : OnlyIngress d t) : t.mem = d.mem := by rw [h]
theorem OnlyIngress.modes {d t : Dev} (h : OnlyIngress d t) : t.modes = d.modes := by rw [h]
theorem OnlyIngress.dict {d t : Dev} (h : OnlyIngress d t) : t.dict = d.dict := by rw [h]

/-- Every one of some cells is allocated. -/
def CellsThere (d : Dev) (cs : List Nat) : Prop := ∀ c ∈ cs, (d.buf.cells.find? c).isSome

/-- A record written leaves every record that was there. -/
theorem find?_put_isSome {α : Type} (t : Tbl α) (x y : Nat) (v : α) (h : (Tbl.find? t y).isSome) : (Tbl.find? (Tbl.put t x v) y).isSome := by
  by_cases e : y = x
  · subst e; rw [Tbl.find?_put_same]; rfl
  · rw [Tbl.find?_put_other _ _ _ _ e]; exact h

/-- Cells allocated: the buffer alone, the cells are there, and those that were there still are. -/
theorem onlyIngress_allocCells (n : Nat) {d t : Dev} {bank b : Nat} {cs : List Nat} (h : allocCells n d bank = some (cs, b, t)) :
    OnlyIngress d t ∧ CellsThere t cs ∧ ∀ c, (d.buf.cells.find? c).isSome → (t.buf.cells.find? c).isSome := by
  induction n generalizing d bank cs b t with
  | zero =>
    simp only [allocCells, Option.some.injEq, Prod.mk.injEq] at h
    obtain ⟨rfl, -, rfl⟩ := h
    exact ⟨OnlyIngress.refl d, fun _ h => absurd h (List.not_mem_nil), fun _ h => h⟩
  | succ n ih =>
    unfold allocCells at h
    split at h
    · cases h
    · rename_i c b0 _
      dsimp only at h
      split at h
      · cases h
      · rename_i cs1 b1 t1 h2
        simp only [Option.some.injEq, Prod.mk.injEq] at h
        obtain ⟨rfl, -, rfl⟩ := h
        have k := ih h2
        refine ⟨OnlyIngress.trans (onlyIngress_buf _ _) k.1, fun x hx => ?_, fun x hx => k.2.2 x (find?_put_isSome _ _ _ _ hx)⟩
        rcases List.mem_cons.mp hx with rfl | hx
        · exact k.2.2 _ (by show (Tbl.find? (Tbl.put _ _ _) _).isSome; rw [Tbl.find?_put_same]; rfl)
        · exact k.2.1 x hx

/-- A frame's cells allocated: the buffer, and for a frame that the device builds a free value. -/
theorem onlyIngress_allocFrame {d t : Dev} {arr : Option Nat} {n : Nat} {cs : List Nat} (h : allocFrame d arr n = some (cs, t)) :
    OnlyIngress d t ∧ CellsThere t cs := by
  unfold allocFrame at h
  split at h
  · dsimp only at h
    split at h
    · cases h
    · rename_i h2
      simp only [Option.some.injEq, Prod.mk.injEq] at h
      obtain ⟨rfl, rfl⟩ := h
      have k := onlyIngress_allocCells _ h2
      exact ⟨k.1.trans rfl, k.2.1⟩
  · split at h
    · cases h
    · rename_i h2
      simp only [Option.some.injEq, Prod.mk.injEq] at h
      obtain ⟨rfl, rfl⟩ := h
      have k := onlyIngress_allocCells _ h2
      exact ⟨OnlyIngress.trans (d := d) (t := d.draw.2) rfl k.1, k.2.1⟩

/-- Cells that are there are held: the buffer alone. -/
theorem onlyIngress_holdCells {d : Dev} {cells : List Nat} (h : Nat) (hc : CellsThere d cells) : OnlyIngress d (holdCells d cells h) := by
  unfold holdCells
  induction cells generalizing d with
  | nil => exact OnlyIngress.refl d
  | cons c cs ih =>
    rw [List.foldl_cons]
    obtain ⟨r, hr⟩ := Option.isSome_iff_exists.mp (hc c List.mem_cons_self)
    have e : holdCell h d c = { d with buf := { d.buf with cells := d.buf.cells.put c { r with owners := putBit r.owners h true } } } := by
      simp only [holdCell, hr]
    rw [e]
    exact OnlyIngress.trans (onlyIngress_buf _ _)
      (ih (fun x hx => find?_put_isSome _ _ _ _ (hc x (List.mem_cons_of_mem _ hx))))

/-- What is decided of a frame depends only on what its decision does to devices that ingress can hand it. -/
theorem withFrame_congr {d : Dev} {arr : Option Nat} {vc c : Nat} {cells : List Nat} {owed : Option Nat} {f g : Dev → Dev}
    (hc : CellsThere d cells) (h : ∀ e, OnlyIngress d e → CellsThere e (arrivingCells e) → f e = g e) :
    withFrame d arr vc c cells owed f = withFrame d arr vc c cells owed g := by
  unfold withFrame
  rw [h _ (onlyIngress_buf _ _) hc]

/-- What ingress does with a frame depends only on what its decision does to devices that ingress can hand it: those in which only
the buffer and the count of free values have moved, and the frame's cells are there. -/
theorem ingress_congr {d : Dev} {arr : Option Nat} {vc bytes : Nat} {owed : Option Nat} {f g : Dev → Dev}
    (h : ∀ e, OnlyIngress d e → CellsThere e (arrivingCells e) → f e = g e) :
    ingress d arr vc bytes owed f = ingress d arr vc bytes owed g := by
  unfold ingress
  split
  · rename_i cells d1 h1
    have k := onlyIngress_allocFrame h1
    exact withFrame_congr k.2 (fun e he => h e (k.1.trans he))
  · exact withFrame_congr (fun _ h => absurd h (List.not_mem_nil)) h

/-- The same for a unit that serves the frame within the command. -/
theorem serveAt_congr {k : Nat} {d : Dev} {arr : Option Nat} {vc bytes : Nat} {f g : Dev → Dev}
    (h : ∀ e, OnlyIngress d e → f e = g e) : serveAt k d arr vc bytes f = serveAt k d arr vc bytes g := by
  unfold serveAt
  split
  · exact h d (OnlyIngress.refl d)
  · exact ingress_congr (fun e he hc => by rw [h _ (he.trans (onlyIngress_holdCells _ hc))])

/-- An operation is found the same before and after. -/
theorem OnlyIngress.findOp {d t : Dev} (h : OnlyIngress d t) (job coll : Nat) : findOp t job coll = findOp d job coll := by
  unfold Machine.findOp
  rw [h.colls]

/-! ### Device memory under a frame that is being taken up -/

/-- Ingress leaves all that the stack interface looks at. -/
theorem OnlyIngress.likeMem {d t : Dev} (h : OnlyIngress d t) : LikeMem t d := by
  unfold OnlyIngress at h; rw [h]; exact ⟨rfl, rfl, rfl⟩

/-- Whether a request meets poison depends only on device memory. -/
theorem canPoison_mem {p : Part} {d e : Dev} (r : CanReq) (h : d.mem = e.mem) : canPoison p d r = canPoison p e r := by
  have k : ∀ w, wordPoisoned p d w = wordPoisoned p e w := fun w => by
    simp only [wordPoisoned, stackDead, copyStacks, stackFailed, stackPlace, h]; rfl
  simp only [canPoison, k]

end Sys2Proof.Machine
end

