-- ==== Sys2Proof/Laws/Sends.lean ====
section
/-! SUPPORT. What releasing a copy leaves alone, said once: what has been sent stays sent, and no link's POISONED_TX moves. -/

namespace Sys2Proof.Machine

/-- `t` has sent all that `d` had, and perhaps more, and counts no more poisoned frames than `d` on any link. -/
def Adds (d t : Dev) : Prop := (∃ more, t.out = more ++ d.out) ∧ ∀ n, (t.link n).ctr.get 0 11 = (d.link n).ctr.get 0 11

theorem Adds.refl (d : Dev) : Adds d d := ⟨⟨[], rfl⟩, fun _ => rfl⟩

theorem Adds.trans {d t u : Dev} (h : Adds d t) (k : Adds t u) : Adds d u := by
  obtain ⟨⟨a, ha⟩, h2⟩ := h
  obtain ⟨⟨b, hb⟩, k2⟩ := k
  exact ⟨⟨b ++ a, by rw [hb, ha, List.append_assoc]⟩, fun n => (k2 n).trans (h2 n)⟩

theorem Adds.ite {d a b : Dev} (c : Prop) [Decidable c] (h : Adds d a) (k : Adds d b) : Adds d (if c then a else b) := by
  split
  · exact h
  · exact k

theorem Adds.foldl {α : Type} {f : Dev → α → Dev} (h : ∀ d x, Adds d (f d x)) (xs : List α) (d : Dev) : Adds d (xs.foldl f d) := by
  induction xs generalizing d with
  | nil => exact Adds.refl d
  | cons x xs ih => exact (h d x).trans (ih (f d x))

/-- A device that has the same links and the same output. -/
theorem adds_same {d t : Dev} (h1 : t.sw.links = d.sw.links) (h2 : t.out = d.out) : Adds d t :=
  ⟨⟨[], h2⟩, fun n => by unfold Dev.link; rw [h1]⟩

theorem adds_send (d : Dev) (o : Out) : Adds d (d.send o) := ⟨⟨[o], rfl⟩, fun _ => rfl⟩

theorem adds_setLink (d : Dev) (n : Nat) (l : Link) (h : l.ctr.get 0 11 = (d.link n).ctr.get 0 11) : Adds d (d.setLink n l) := by
  refine ⟨⟨[], rfl⟩, fun m => ?_⟩
  by_cases e : m = n
  · subst e; rw [Dev.link_setLink]; exact h
  · rw [Dev.link_setLink_other _ _ _ _ e]

theorem adds_linkCtr (d : Dev) (n k b : Nat) (h : k ≠ 11) : Adds d (linkCtr d n k b) :=
  adds_setLink d n _ (Tbl.get_set_other _ _ _ _ _ (Ne.symm h))

theorem adds_raiseMsix (d : Dev) (v : Nat) : Adds d (raiseMsix d v) :=
  Adds.ite _ (adds_same rfl rfl) (adds_send d _)

theorem adds_placeEvents (n : Nat) (d : Dev) : Adds d (placeEvents n d) := by
  induction n generalizing d with
  | zero => exact Adds.refl d
  | succ n ih =>
    unfold placeEvents
    dsimp only
    split
    · exact Adds.refl d
    · split
      · exact Adds.refl d
      · refine Adds.trans ?_ (ih _)
        exact Adds.ite _ (Adds.trans (adds_same rfl rfl) (adds_raiseMsix _ _)) (adds_same rfl rfl)

theorem adds_notice (d : Dev) : Adds d (notice d) := by
  unfold notice
  split
  · exact Adds.refl d
  · exact Adds.ite _ (adds_same rfl rfl) ⟨⟨[_], rfl⟩, fun _ => rfl⟩

theorem adds_emitRaw (d : Dev) (code status prio : Nat) (rise : Bool) (idx sub data : Nat) :
    Adds d (emitRaw d code status prio rise idx sub data) := by
  unfold emitRaw
  dsimp only
  refine Adds.ite _ (adds_same rfl rfl) (Adds.ite _ ?_ ?_)
  · split <;> exact adds_same rfl rfl
  · refine Adds.ite _ (Adds.trans (Adds.trans ?_ (adds_placeEvents _ _)) (adds_notice _)) (Adds.trans ?_ (adds_placeEvents _ _))
      <;> split <;> exact adds_same rfl rfl

theorem adds_settleFull (d : Dev) : Adds d (settleFull d) :=
  Adds.ite _ (Adds.trans (adds_same rfl rfl) (adds_emitRaw _ _ _ _ _ _ _ _))
    (Adds.ite _ (Adds.trans (adds_same rfl rfl) (adds_emitRaw _ _ _ _ _ _ _ _)) (Adds.refl d))

theorem adds_settleOver (d : Dev) (k : Nat) : Adds d (settleOver d k) :=
  Adds.ite _ (Adds.trans (adds_same rfl rfl) (adds_emitRaw _ _ _ _ _ _ _ _))
    (Adds.ite _ (Adds.trans (adds_same rfl rfl) (adds_emitRaw _ _ _ _ _ _ _ _)) (Adds.refl d))

theorem adds_emit (d : Dev) (code status prio : Nat) (rise : Bool) (idx sub data : Nat) :
    Adds d (emit d code status prio rise idx sub data) :=
  (adds_emitRaw d code status prio rise idx sub data).trans
    (((adds_settleFull _).trans (adds_settleFull _)).trans (adds_settleOver _ _))

theorem adds_ifSends (e : Dev) (b c : Prop) [Decidable b] [Decidable c] (x y : Out) :
    Adds e (if c then (if b then e else e.send x) else (if b then e else e.send x).send y) :=
  have h := Adds.ite b (Adds.refl e) (adds_send e x)
  Adds.ite c h (h.trans (adds_send _ _))

theorem adds_returnCredits (d : Dev) (arr vc floor shared : Nat) : Adds d (returnCredits d arr vc floor shared) := by
  unfold returnCredits
  refine Adds.trans ?_ (adds_ifSends _ _ _ _ _)
  exact adds_setLink d arr _ rfl

theorem adds_releaseKept (d : Dev) (arr key : Nat) (k : List Nat) : Adds d (releaseKept d arr key k) := by
  unfold releaseKept sendPfc
  dsimp only
  have h1 := adds_setLink d arr { d.link arr with credKept := (d.link arr).credKept.set [] key [] } rfl
  generalize d.setLink arr { d.link arr with credKept := (d.link arr).credKept.set [] key [] } = e at *
  split
  · exact h1.trans (adds_returnCredits _ _ _ _ _)
  · refine h1.trans (Adds.trans (Adds.trans ?_ (adds_send _ _)) (adds_linkCtr _ _ _ _ (by decide)))
    exact adds_setLink e arr _ rfl

theorem adds_unhold (d : Dev) (cause : Nat) : Adds d (unhold d cause) := by
  unfold unhold
  refine Adds.foldl (fun d arr => Adds.foldl (fun d x => ?_) _ _) _ _
  exact Adds.ite _ (adds_releaseKept _ _ _ _) (adds_setLink _ _ _ rfl)

theorem adds_settleWithheld (d : Dev) : Adds d (settleWithheld d) :=
  Adds.foldl (fun _ _ => Adds.ite _ (adds_unhold _ _) (Adds.refl _)) _ _

theorem adds_releaseCell (h : Nat) (d : Dev) (c : Nat) : Adds d (releaseCell h d c) := by
  unfold releaseCell badUse freeCell
  dsimp only
  have h1 : ∀ b : Buffer, Adds d ({ d with buf := b }.inc 0x3003 3 0) := fun _ => adds_same rfl rfl
  split
  · split
    · exact h1 _
    · refine Adds.trans (t := d.inc 0x3003 2 0) (adds_same rfl rfl) (adds_emit _ _ _ _ _ _ _ _)
  · split
    · exact h1 _
    · split <;> exact adds_same rfl rfl

theorem adds_releaseCells (d : Dev) (h : Nat) (cells : List Nat) : Adds d (releaseCells d h cells) :=
  (Adds.foldl (adds_releaseCell h) cells d).trans (adds_settleWithheld _)

/-- A copy released adds to what is sent, and counts no poisoned frame. -/
theorem adds_releaseCopy (d : Dev) (n q : Nat) (x : Copy) : Adds d (releaseCopy d n q x) :=
  Adds.trans (adds_same rfl rfl) (adds_releaseCells _ _ _)

/-- Cells read: nothing is sent, and no poisoned frame is counted. -/
theorem adds_readCells (d : Dev) (x : Copy) : Adds d (readCells d x).2 := by
  unfold readCells
  split
  · exact Adds.refl d
  · dsimp only
    split
    · exact adds_linkCtr d _ _ _ (by decide)
    · exact Adds.refl d

/-- A copy drawing credits changes neither what a link keeps nor its counters. -/
theorem drawCredit_same (l : Link) (f : Frame) : (drawCredit l f).replay = l.replay ∧ (drawCredit l f).ctr = l.ctr := by
  unfold drawCredit
  split <;> exact ⟨rfl, rfl⟩

/-- A copy sent on an LFP link: what leaves, and what the link keeps of it. -/
theorem sendCopy_sends (d : Dev) (n q : Nat) (x : Copy) :
    let c := { x with f := { x.f with stamp := stampNow d } }
    (sendCopy d n q x).out = .frame n (leavingFrame d n c) (d.link n).lseqTx x.poison :: d.out
      ∧ ((sendCopy d n q x).link n).replay = (d.link n).replay ++ [⟨(d.link n).lseqTx, q, c⟩]
      ∧ ((sendCopy d n q x).link n).ctr.get 0 11 = (d.link n).ctr.get 0 11 := by
  dsimp only
  have h := drawCredit_same (d.link n) x.f
  have hs : ∀ (e : Dev) (o : Out), (e.send o).link n = e.link n := fun _ _ => rfl
  unfold sendCopy linkCtr
  refine ⟨rfl, ?_, ?_⟩
  · simp only [Dev.link_setLink, hs]
  · simp only [Dev.link_setLink, hs]
    rw [Tbl.get_set_other _ _ _ _ _ (by decide), Tbl.get_set_other _ _ _ _ _ (by decide), h.2]

end Sys2Proof.Machine
end

