-- ==== Sys2Proof/Laws/Served.lean ====
section
/-! SUPPORT. What the rules of requests and the pace unit's operations keep: a device stays sound. -/

namespace Sys2Proof.Machine

/-- A meaning keeps the device sound if its effect does. -/
theorem soundOn {s t : State} {f : Part → Dev → Dev} (h : lift s f = .next t)
    (hf : (f s.part s.dev).Sound) : t.dev.Sound := by
  unfold lift at h
  injection h with h
  subst h
  exact hf

/-- The same at a unit. -/
theorem soundAt {s t : State} {b : Bool} {f : Part → Dev → Dev} (h : liftAt s b f = .next t)
    (hf : (f s.part s.dev).Sound) : t.dev.Sound := by
  unfold liftAt at h
  split at h
  · unfold lift at h
    injection h with h
    subst h
    exact hf
  · cases h

theorem sound_ite {a b : Dev} (c : Prop) [Decidable c] (h : a.Sound) (k : b.Sound) : (if c then a else b).Sound := by
  split
  · exact h
  · exact k

/-- Reads of tables. -/
theorem table_sound {path : Path} {off len w n c : Nat} {rec : Dev → Nat → Nat} {rearm : Dev → Nat → Dev} {d : Dev} (hd : d.Sound)
    (h : ∀ d k, SameBody d (rearm d k)) : (tableRead path off len w n rec rearm c d).1.Sound := by
  unfold tableRead
  split
  · exact hd
  · exact (SameBody.foldl _ h _ d).sound hd

theorem qhwm_sound {path : Path} {off len c : Nat} {d : Dev} (hd : d.Sound) : (qhwmAct path off len c d).1.Sound :=
  table_sound hd (fun d k => by
    unfold rearmLink
    refine SameBody.foldl _ (fun d x => ?_) _ d
    exact ⟨⟨rfl, rfl, rfl, rfl⟩, rfl⟩)

theorem lwm_sound {path : Path} {off len c : Nat} {d : Dev} (hd : d.Sound) : (lwmAct path off len c d).1.Sound := by
  unfold lwmAct
  refine sound_ite _ hd ?_
  exact (besides_buf d _).sound ⟨fun x => x.of rfl rfl rfl⟩ hd

theorem ctxHwm_sound {p : Part} {path : Path} {off len c : Nat} {d : Dev} (hd : d.Sound) : (ctxHwmAct p path off len c d).1.Sound :=
  table_sound hd (fun _ _ => ⟨⟨rfl, rfl, rfl, rfl⟩, rfl⟩)

theorem timing_sound {path : Path} {off len c : Nat} {d : Dev} (hd : d.Sound) : (timingAct path off len c d).1.Sound :=
  table_sound hd (fun _ _ => ⟨⟨rfl, rfl, rfl, rfl⟩, rfl⟩)

theorem sample_sound {path : Path} {off len c : Nat} {d : Dev} (hd : d.Sound) : (sampleAct path off len c d).1.Sound := by
  unfold sampleAct
  split
  · exact hd
  · have k : SameBody d { d with sw := { d.sw with samples := d.sw.samples.drop (min 16 (returned path 0 len (160 * d.sw.samples.length) / 160)) } } :=
      ⟨⟨rfl, rfl, rfl, rfl⟩, rfl⟩
    exact (besides_releaseCells ..).sound (bufKeeps_releaseCells ..) (k.sound hd)

theorem evqRead_sound {path : Path} {d : Dev} (hd : d.Sound) : (evqReadRule path d).1.Sound := by
  unfold evqReadRule
  split
  · exact hd
  · split
    · exact hd
    · exact ((onlyEvents_evt _ _).trans (onlyEvents_settleQueue ..)).body.sound hd

theorem readAct_sound {p : Part} {path : Path} {idx sub off len c : Nat} {d : Dev} (hd : d.Sound) : (readAct p path idx sub off len c d).1.Sound := by
  unfold readAct
  split
  · exact qhwm_sound hd
  · exact lwm_sound hd
  · exact ctxHwm_sound hd
  · exact timing_sound hd
  · exact sample_sound hd
  · exact hd

/-- Flags all zero. -/
theorem noFlags {gr : Grove} (h : gr.flags = []) (f : Nat) : (gr.flag f).c + (gr.flag f).pl + (gr.flag f).pe ≤ 65535 ∧ (gr.flag f).s ≤ (gr.flag f).pl := by
  have e : gr.flag f = Flag.zero := by unfold Grove.flag; rw [h]; rfl
  rw [e]
  decide

/-- Grove control. -/
theorem start_sound {p : Part} {g b : Nat} {u : Dev} (hs : u.Sound) : (startRule p g b u).1.Sound := by
  unfold startRule
  dsimp only
  split
  · exact hs
  · split
    · exact hs
    · split
      · exact hs
      · split
        · exact hs
        · refine ((onlyGrove_setGrove ..).trans (onlyGrove_setPhase ..)).sound ?_ hs
          refine WorkKeeps.trans ?_ (keeps_setPhase ..)
          refine keeps_setGrove _ _ _ (fun h => ?_)
          apply Grove.Sound.setBank
          exact ⟨h.1, noFlags rfl⟩

theorem clearWork_sound {gr : Grove} (h : gr.Sound) : (clearWork gr).Sound := h.of rfl rfl rfl

theorem clearState_sound {gr : Grove} (h : gr.Sound) : (clearState gr).Sound := ⟨h.1, noFlags rfl⟩

theorem freeScales_sound {d : Dev} (g : Nat) (h : d.Sound) : (freeScales d g).Sound := by
  unfold freeScales
  dsimp only
  generalize (d.grove g).open_ = l
  have k : ∀ (l : List Ctx) (cvt : Ctx → Nat) (d : Dev), d.Sound →
      (l.foldl (fun d x => match x.xscale with | some _ => freeScale d (cvt x) none | none => d) d).Sound := by
    intro l cvt
    induction l with
    | nil => exact fun d h => h
    | cons x l ih =>
      intro d h
      refine ih _ ?_
      dsimp only
      split
      · exact (onlyGrove_freeScale g ..).sound (keeps_freeScale ..) h
      · exact h
  exact k l (fun x => cvCtx ((d.grove g).cvt x.cmd)) d h

theorem setGrove_sound {d : Dev} {g : Nat} {v : Grove} (h : d.Sound) (hv : (d.grove g).Sound → v.Sound) : (d.setGrove g v).Sound :=
  (onlyGrove_setGrove g d v).sound (keeps_setGrove g d v hv) h

theorem setPhase_sound {d : Dev} {g : Nat} {x : GPhase} (h : d.Sound) : (setPhase d g x).Sound := (onlyGrove_setPhase ..).sound (keeps_setPhase ..) h

/-- Instruction memory. -/
theorem putWords_sound {gr : Grove} {b f : Nat} {ws : List Word} (h : gr.Sound) : (gr.putWords b f ws).Sound := by
  refine ⟨⟨h.1.1, h.1.2.1, ?_⟩, h.2⟩
  have k : ∀ (l : List (Word × Nat)) (m : Tbl Word), Tbl.wf 0 m = true →
      Tbl.wf 0 (l.foldl (fun m x => m.set 0 (b * 32768 + f + x.2) x.1) m) = true := by
    intro l
    induction l with
    | nil => exact fun m h => h
    | cons x l ih => exact fun m h => ih _ (Tbl.wf_set _ _ _ _ h)
  exact k _ _ h.1.2.2

theorem countActive_sound {d : Dev} {st : Nat} (h : d.Sound) : (countActive d st).1.Sound := by
  unfold countActive
  split
  · exact (body_inc ..).sound h
  · exact h

theorem poison_sound {p : Part} {d : Dev} {a b c : Nat} (h : d.Sound) : (poisonEvent p d a b c).Sound :=
  ((onlyMem_poisonEvent ..).onlyGrove 0).sound (keeps_poisonEvent ..) h

theorem foldGroves_sound {f : Dev → Nat → Dev} (hf : ∀ d g, d.Sound → (f d g).Sound) (l : List Nat) {d : Dev} (h : d.Sound) : (l.foldl f d).Sound := by
  induction l generalizing d with
  | nil => exact h
  | cons x l ih => exact ih (hf _ _ h)

theorem loads_sound {d : Dev} (l : List (Nat × Nat × Nat × Nat × Nat)) (h : d.Sound) : ({ d with loads := l } : Dev).Sound :=
  SameBody.sound (d := d) ⟨⟨rfl, rfl, rfl, rfl⟩, rfl⟩ h

/-- Discovery. -/
theorem body_answer (d : Dev) (a b : Nat) (r : Rsp) : SameBody d (answerDiscovery d a b r) := by
  unfold answerDiscovery
  exact ⟨⟨rfl, rfl, rfl, rfl⟩, rfl⟩

/-- Epochs. -/
theorem body_moveEpoch (d : Dev) (f : Switch → Switch) : SameBody d (moveEpoch d f) := by
  have k : SameBody d { d with sw := f d.sw } := ⟨⟨rfl, rfl, rfl, rfl⟩, rfl⟩
  unfold moveEpoch
  dsimp only
  exact SameBody.ite _ k (k.trans (onlyEvents_emitLevel ..).body)

theorem swap_sound {d : Dev} {i t c w : Nat} (h : d.Sound) : (armSwap d i t c w).Sound := by
  unfold armSwap
  refine (body_moveEpoch _ _).sound ?_
  exact (body_wr d 0x8100 0 i _).sound h

theorem swap_acc {d : Dev} (h : d.Sound) (i t c w : Nat) : (accept (armSwap d i t c w)).1.Sound := by
  have k := @swap_sound d i t c w h
  generalize armSwap d i t c w = e at k ⊢
  exact k

/-- The leak auditor. -/
theorem both_fold {α : Type} {f : Dev → α → Dev} (hf : ∀ d x, BufKeeps d (f d x) ∧ BesidesBuf d (f d x)) (l : List α) (d : Dev) (h : d.Sound) :
    (l.foldl f d).Sound := (BesidesBuf.foldl f (fun d x => (hf d x).2) l d).sound (BufKeeps.foldl f (fun d x => (hf d x).1) l d) h

/-- The pace. -/
theorem pace_sound {d : Dev} {x : Pace} (h : d.Sound) (hx : x.Sound) : ({ d with pace := x } : Dev).Sound :=
  SameStore.sound (d := d) ⟨rfl, rfl, rfl, rfl⟩ h hx

theorem Pace.Sound.of {a b : Pace} (h : a.Sound) (v : b.visible = a.visible) (c : b.count = a.count) (p : b.pending = a.pending) : b.Sound := by
  unfold Pace.Sound at h ⊢
  rw [v, c, p]
  exact h

theorem paceOf {d : Dev} {x : Pace} (h : d.Sound) (v : x.visible = d.pace.visible := by rfl) (c : x.count = d.pace.count := by rfl)
    (p : x.pending = d.pace.pending := by rfl) : ({ d with pace := x } : Dev).Sound := pace_sound h (Pace.Sound.of h.2.2.2 v c p)

theorem body_settlePace (o d : Dev) : SameBody d (settlePace o d) := SameBody.ite _ (SameBody.refl d) (onlyEvents_emitLevel ..).body

theorem body_stat (d : Dev) (k : Nat) : SameBody d (paceStat d k) := body_inc ..

theorem send_sound {d : Dev} (o : Out) (h : d.Sound) : (d.send o).Sound := (onlyEvents_send ..).body.sound h

theorem putWord_sound {d : Dev} (w b : Nat) (f : Bool) (h : d.Sound) : (putWord d w b f).Sound := by
  unfold putWord
  exact send_sound _ (paceOf h)

theorem sendCal_sound {d : Dev} (h : d.Sound) : (sendCal d).Sound := by
  unfold sendCal
  split
  · exact paceOf h
  · exact send_sound _ (putWord_sound _ _ _ (paceOf h))

theorem badWord_sound {d : Dev} (k : Nat) (h : d.Sound) : (badWord d k).Sound := by
  unfold badWord
  dsimp only
  exact (body_settlePace ..).sound (paceOf ((body_stat d k).sound h))

theorem goodWord_sound {d : Dev} (k : Nat) (h : d.Sound) : (goodWord d k).Sound := by
  unfold goodWord
  exact (body_settlePace ..).sound (paceOf h)

theorem top_le (l : List Nat) (n : Nat) : n ≤ l.foldl max n ∧ ∀ x ∈ l, x ≤ l.foldl max n := by
  induction l generalizing n with
  | nil => exact ⟨Nat.le_refl _, by simp⟩
  | cons a l ih =>
    obtain ⟨h1, h2⟩ := ih (max n a)
    have ha : max n a ≤ l.foldl max (max n a) := h1
    refine ⟨Nat.le_trans (Nat.le_max_left ..) ha, fun x hx => ?_⟩
    rcases List.mem_cons.mp hx with e | e
    · subst e; exact Nat.le_trans (Nat.le_max_right ..) ha
    · exact h2 x e

/-- An advance taken in lies above all that is pending. -/
theorem advance_sound {d : Dev} (w due : Nat) (late : Bool) (h : d.Sound) : (takeAdvance d w due late).Sound := by
  unfold takeAdvance
  split
  · exact (body_stat ..).sound h
  · rename_i hw
    have hw : paceTop d < w := Nat.lt_of_not_le hw
    obtain ⟨h1, h2⟩ := top_le (d.pace.pending.map (fun a => a.w)) d.pace.count
    obtain ⟨p1, p2, p3⟩ := h.2.2.2
    refine pace_sound h ⟨p1, ?_, ?_⟩
    · refine List.pairwise_append.mpr ⟨p2, List.pairwise_singleton .., fun a ha b hb => ?_⟩
      simp only [List.mem_singleton] at hb
      subst hb
      exact Nat.lt_of_le_of_lt (h2 a.w (List.mem_map.mpr ⟨a, ha, rfl⟩)) hw
    · intro a ha
      rcases List.mem_append.mp ha with e | e
      · exact p3 a e
      · simp only [List.mem_singleton] at e
        subst e
        exact Nat.lt_of_le_of_lt h1 hw

/-- A word of the chain. -/
theorem chain_sound {d : Dev} {v : Nat} {cal : Bool} {l : PaceLine} {f : Dev → Dev} (hf : ∀ d, d.Sound → (f d).Sound) (h : d.Sound) :
    (chainWord d v cal l f).Sound := by
  unfold chainWord
  split
  · exact h
  · dsimp only
    have k : ∀ b, (forwardWord { d with pace := { d.pace with inLast := d.cycle + 1 } } v b).Sound := fun b => putWord_sound _ _ _ (paceOf h)
    split
    · exact badWord_sound _ (k _)
    · split
      · exact badWord_sound _ (k _)
      · exact hf _ (goodWord_sound _ (k _))

theorem wall_sound {d : Dev} (v st : Nat) (h : d.Sound) : (setWall d v st).Sound := (onlyEvents_emitLevel ..).body.sound (paceOf h)

end Sys2Proof.Machine
end

