-- ==== Sys2Proof/Machine/Wire.lean ====
section
/-! DEFINITION. The flits that carry what a link sends: granules, flit control words, control flits (spec/10_ports_and_links.md
R269-R271, R275), and the codewords and lane symbols that carry the flits (R269; log entry 115). -/

namespace Sys2Proof.Machine

/-- What the flit control word tells of the frame that ends in a flit (R270). -/
structure FrameEnd where
  poison : Bool
  lseq : Nat
  crc : Nat
  deriving DecidableEq, Repr

/-- A granule of 64 bytes: whether a frame begins at it, and the frame that ends in it. -/
structure Granule where
  bytes : List Byte
  sof : Bool
  ends : Option FrameEnd
  deriving DecidableEq, Repr

/-- A flit: 256 bytes and the flit control word (R269). -/
structure Flit where
  bytes : List Byte
  fcw : Nat
  deriving DecidableEq, Repr

/-- A granule of zero bytes (R271). -/
def idleGranule : Granule := ⟨List.replicate 64 0, false, none⟩

/-- The bytes of a frame: header and payload (R271). -/
def onLink (f : Frame) : List Byte := headerBytes f f.payload.length ++ f.payload

/-- Granules that a frame occupies (R271). -/
def granuleCount (f : Frame) : Nat := ceilDiv (64 + f.payload.length) 64

/-- A frame as granules, the last one padded with zero bytes (R271). -/
def frameGranules (f : Frame) (lseq : Nat) (poison : Bool) : List Granule :=
  let bytes := onLink f ++ List.replicate (64 * granuleCount f - (onLink f).length) 0
  (chunksOf 64 (granuleCount f) bytes).zipIdx.map (fun x =>
    ⟨x.1, decide (x.2 = 0),
      if x.2 + 1 = granuleCount f then some ⟨poison, lseq % 256, frameCrc f f.payload.length⟩ else none⟩)

/-- A frame laid behind what a link has sent: idle granules first when it would end in the flit in which an earlier frame ended
(R271). -/
def layFrame (sent : List Granule) (f : Frame) (lseq : Nat) (poison : Bool) : List Granule :=
  let here := sent.drop (sent.length / 4 * 4)
  let fill := if here.any (fun g => g.ends.isSome) then 5 - (here.length + granuleCount f) else 0
  sent ++ List.replicate fill idleGranule ++ frameGranules f lseq poison

/-- The flit control word of four granules (R270). -/
def fcw (gs : List Granule) : Nat :=
  let sof := (59, 4, ((List.range 4).map (fun i => match gs[i]? with | some g => b2n g.sof * 2 ^ i | none => 0)).sum)
  match gs.zipIdx.findSome? (fun x => x.1.ends.map (fun e => (e, x.2))) with
  | some x => pack [sof, (58, 1, 1), (56, 2, x.2), (55, 1, b2n x.1.poison), (47, 8, x.1.lseq), (15, 32, x.1.crc)]
  | none => pack [sof]

/-- Granules as flits, the last filled with idle granules. -/
def flitsOf (gs : List Granule) : List Flit :=
  (chunksOf 4 gs.length gs).map (fun x =>
    let y := x ++ List.replicate (4 - x.length) idleGranule
    ⟨y.flatMap (fun g => g.bytes), fcw y⟩)

/-- A control flit: CTL set, 32 control words, IDLE words (kind 0) behind those given (R275). -/
def controlFlit (words : List Nat) : Flit :=
  ⟨(words.take 32 ++ List.replicate (32 - words.length) 0).flatMap (toBytes 8), 2 ^ 63⟩

/-- A control word of a kind (R275). -/
def controlWord (kind value : Nat) : Nat := pack [(0, 56, value), (56, 8, kind)]

/-- The flits in which a run of frames leaves on a link, oldest first: each with its LSEQ and poison. -/
def linkFlits (xs : List (Frame × Nat × Bool)) : List Flit :=
  flitsOf (xs.foldl (fun gs x => layFrame gs x.1 x.2.1 x.2.2) [])

/-- The flits of the frames that the device has sent on a link, oldest first. -/
def sentFlits (d : Dev) (n : Nat) : List Flit :=
  linkFlits (d.out.reverse.filterMap (fun o => match o with
    | .frame m f lseq poison => if m = n then some (f, lseq, poison) else none
    | _ => none))

/-- The control flits that the device has sent on a link, oldest first, each control word in one of its own: where they stand among
the frames, between which they fit, is timing. -/
def sentControls (d : Dev) (n : Nat) : List Flit :=
  d.out.reverse.filterMap (fun o => match o with
    | .control m kind value => if m = n then some (controlFlit [controlWord kind value]) else none
    | _ => none)

/-! ### Codewords and lanes (R269) -/

/-- A product in GF(2^10) by shift and add, over x^10 + x^3 + 1 (IEEE 802.3, PRESUMED, log entry 115). -/
def gfMul (a b : Nat) : Nat :=
  ((List.range 10).foldl (fun (acc : Nat × Nat) i =>
    (if b.testBit i then acc.1 ^^^ acc.2 else acc.1,
      if acc.2.testBit 9 then (2 * acc.2) ^^^ 0x409 else 2 * acc.2)) (0, a)).1

/-- A polynomial, highest coefficient first, times x minus a root. -/
def timesRoot (g : List Nat) (r : Nat) : List Nat :=
  ((g ++ [0]).zip (0 :: g)).map (fun (x : Nat × Nat) => x.1 ^^^ gfMul r x.2)

/-- The generator of the 30 parity symbols: the product of x minus each power 0 to 29 of the primitive element, without its leading
1 (PRESUMED, log entry 115). -/
def rsGen : List Nat :=
  (((List.range 30).foldl (fun (x : List Nat × Nat) _ => (timesRoot x.1 x.2, gfMul 2 x.2)) ([1], 1)).1).drop 1

/-- The 30 parity symbols of 514 message symbols, first sent first: the remainder of a division by the generator. -/
def rsParity (msg : List Nat) : List Nat :=
  let g := rsGen
  msg.foldl (fun reg m =>
    let f := reg.headD 0 ^^^ m
    ((reg.drop 1 ++ [0]).zip g).map (fun (x : Nat × Nat) => x.1 ^^^ gfMul f x.2)) (List.replicate 30 0)

/-- A codeword of RS(544,514). -/
def rsCodeword (msg : List Nat) : List Nat := msg ++ rsParity msg

/-- The bits of a flit in the order of their sending: its 256 bytes, then the flit control word, each byte from its least
significant bit (DESIGN CHOICE, log entry 115). -/
def flitBits (x : Flit) : List Bool := (x.bytes ++ toBytes 8 x.fcw).flatMap (fun b => (List.range 8).map (fun i => b.toNat.testBit i))

/-- Bits as symbols of ten, the first bit least significant; a last one that is short is filled with zeros. -/
def symbolsOf (bs : List Bool) : List Nat :=
  (chunksOf 10 bs.length bs).map (fun x => (x.zipIdx.map (fun y => b2n y.1 * 2 ^ y.2)).sum)

/-- The codewords that carry a run of flits; the message of the last one is filled with zeros. -/
def codewordsOf (fs : List Flit) : List (List Nat) :=
  let syms := symbolsOf (fs.flatMap flitBits)
  (chunksOf 514 syms.length syms).map (fun x => rsCodeword (x ++ List.replicate (514 - x.length) 0))

/-- The symbols of a group of codewords in the order of their sending over so many lanes: as many of one codeword as there are lanes,
then as many of the next, so that the symbols which follow each other on one lane come from the codewords in turn (DEDUCED, log
entry 115). -/
def interleave (lanes : Nat) (group : List (List Nat)) : List Nat :=
  (List.range (ceilDiv 544 lanes)).flatMap (fun q => group.flatMap (fun cw => (cw.drop (q * lanes)).take lanes))

/-- What each of `lanes` active lanes sends of a run of codewords: groups of four, symbol by symbol, round-robin over the lanes. -/
def laneSymbols (lanes : Nat) (cws : List (List Nat)) : List (List Nat) :=
  let run := (chunksOf 4 cws.length cws).flatMap (interleave lanes)
  let rounds := chunksOf lanes run.length run
  (List.range lanes).map (fun l => rounds.filterMap (fun x => x[l]?))

/-- The lane symbols of the frames that the device has sent on a link. -/
def sentSymbols (d : Dev) (n : Nat) : List (List Nat) :=
  laneSymbols ((List.range 4).filter (fun k => (d.link n).txLanes.testBit k)).length (codewordsOf (sentFlits d n))

end Sys2Proof.Machine
end

