-- ==== Sys2Proof/Tests/Slice0.lean ====
section
/-! SUPPORT. Tests of this slice: WellFormed refuses, small steps on small states, and a witness for every statement with hypotheses. -/

section

open Sys2Proof Sys2Proof.Machine

/-- A part of grade A, revision B0, and a device of it that has finished start-up with every function ready. -/
def testPart : Part := ⟨.a, .b0, 0⟩

def testLive : Dev :=
  let d := Dev.init
  let b := { d.boot with rails := true, vinOk := true, step := 9, resetN := true, clocks := clocks9 testPart, ready := 0x3FF,
                         readyGroves := 2 ^ 32 - 1, keys := true, selfDone := true, pcieUp := true, perst := true }
  { d with boot := b, mem := { d.mem with st := (List.range 8).map (fun k => (k, 3)) } }

/-- The live device with its boot state changed. -/
def testBoot (f : Boot → Boot) : Dev := { testLive with boot := f testLive.boot }

/-- The device a command leaves, the one before it where the command stops. -/
def testDev (c : Instr) (d : Dev) : Dev :=
  match exec c ⟨testPart, d, []⟩ with
  | .next t => t.dev
  | _ => d

/-- A good request on a path, with REQSEQ 9. -/
def testRq (path : Path) : Rq := ⟨path, 9, 0x5644, 1, 0, 0⟩

/-- The live device with BAR0 slot 0 unlocked. -/
def testOpen : Dev := testLive.setChan 0 { Chan.init with unlocked := true }

/-- A READ that R396 takes and no gate stops, on a device of which `f` holds then. -/
def testRead (d : Dev) (path : Path) (k : Call) (f : Dev → Bool) : Bool := (readTaken d (testRq path) k).any (fun x => f x.2)

/-- A WRITE that R396 takes and no gate stops, on a device of which `f` holds then. -/
def testWrite (d : Dev) (k : Call) (f : Dev → Bool) : Bool := (writeTaken d (testRq (.slot 0)) k).any (fun x => f x.2)

/-- The live device with grove 0 in PROGRAM role, bound to job 7, running, and changed by `f`. -/
def testGrove (f : Grove → Grove) : Dev :=
  ((testLive.wrD 0 0x4100 0 0 1).wrD 0 0x4100 1 0 7).setGrove 0 (f { Grove.init with phase := .running, ended := false })

/-- Grove 0 about to run the word `w`, with s1 = 0x01000000 and s2 = 5. -/
def testWord (w : Nat) : Dev :=
  testGrove (fun gr => { gr with imem := [(0, BitVec.ofNat 64 w)], regs := [(1, 0x01000000), (2, 5)] })

/-- A command whose body stands at word 1. -/
def testCmd : Cmd := { Cmd.none with body := 1 }

/-- Context 4095 of engine 15 of grove 0 ready for a step of a command of one step, with operand addresses `a`, `b`, `dd` and
aperture 0 loaded with home 0, on device `d`. -/
def testEngine (op sub cvt prm a b dd : Nat) : Dev :=
  testGrove (fun gr => { gr with
      aps := [(0, some 0)],
      imem := [(1, BitVec.ofNat 64 (op * 2 ^ 56 + sub * 2 ^ 48)), (2, BitVec.ofNat 64 (cvt * 2 ^ 32 + prm)), (3, BitVec.ofNat 64 a),
               (4, BitVec.ofNat 64 b), (5, BitVec.ofNat 64 dd)] }.setCtx 15 4095 { Ctx.free with st := .ready, cmd := testCmd })

/-- The step of it. -/
def testStp (d : Dev) : Stp := stepOf testPart d 0 15 4095

theorem test_startUpCompletes_witness :
    (Dev.init.boot.rails = false ∧ Dev.init.boot.tripped = false)
    ∧ (let d := testBoot (fun b => { b with step := 2 }); d.boot.rails = true ∧ d.boot.step = 2)
    ∧ (let d := testBoot (fun b => { b with step := 8 }); d.boot.step = 8 ∧ clockLost d = false)
    ∧ (let d := testBoot (fun b => { b with step := 8, clocks := 0 }); d.boot.step = 8 ∧ clockLost d = true)
    ∧ (let d := { testLive with mem := { testLive.mem with st := [(7, 1)] } }
       7 < testPart.stacks ∧ d.runs (domMem 7) = true ∧ d.mem.st.get 0 7 = 1)
    ∧ (testLive.runs domPcie = true ∧ testLive.boot.perst = true ∧ testLive.boot.step = 9)
    ∧ testLive.runs domFnet = true
    ∧ (let d := testBoot (fun b => { b with step := 8, ready := 0 })
       8 ≤ d.boot.step ∧ d.boot.recovery = false ∧ d.boot.bootOk = false ∧ d.isReady 0 = false ∧ d.isReady 1 = false)
    ∧ (testLive.boot.rails = true ∧ testLive.boot.resetN = true)
    ∧ (let d := testBoot (fun b => { b with resetN := false }); d.boot.rails = true ∧ d.boot.resetN = false) := by
  repeat' apply And.intro
  all_goals decide +kernel

theorem test_powerAndPinsComplete_witness :
    (let d := testBoot (fun b => { b with refclkOk := true }); d.boot.refclkOk = true ∧ d.boot.rails = true ∧ 8 ≤ d.boot.step)
    ∧ (let d := testBoot (fun b => { b with refclkOk := false }); d.boot.refclkOk = false ∧ d.boot.rails = true ∧ 8 ≤ d.boot.step)
    ∧ (testLive.boot.rails = true ∧ testLive.boot.vinOk = true)
    ∧ (let d := testBoot (fun b => { b with vinOk := false }); d.boot.rails = true ∧ d.boot.vinOk = false)
    ∧ (let d := powerOff testLive false; d.boot.rails = false ∧ d.boot.tripped = false ∧ d.boot.vinOk = false)
    ∧ ((870 < (railWindow 0).1 ∨ (railWindow 0).2 < 870) ∧ (railWindow 8).1 ≤ 3000 ∧ 3000 ≤ (railWindow 8).2 ∧ 3600 ≤ (railWindow 8).2)
    ∧ (testLive.runs domPower = true ∧ 8 ≤ testLive.boot.step)
    ∧ (0 < phasesFitted 1 ∧ (testLive.health.phases.get 0 1).testBit 0 = false)
    ∧ (testLive.runs domMgmt = true ∧ testLive.health.pairsFailed = 0) := by
  repeat' apply And.intro
  all_goals decide +kernel

theorem test_dictionaryRequestsComplete_witness :
    testRead testLive (.slot 7) ⟨3, 0x1010, 0, 0, true, 0, 0, []⟩ (fun _ => true) = true
    ∧ testRead (testLive.wr 0x1021 4 0 1) (.peer 5) ⟨0x10, 0x1021, 0, 0, true, 0, 0, []⟩ (fun d => d.evqOwner = 1) = true
    ∧ testRead testLive (.slot 0) ⟨0x11, 0x1020, 0, 0, true, 0, 1, []⟩ (fun _ => true) = true
    ∧ testWrite testLive ⟨2, 0x4100, 0, 0, true, 1, 0, [1#8]⟩
        (fun d => (dictWriteRule testPart 0x4100 0 0 [1#8] d).2 = Rsp.st stOK) = true
    ∧ ((taken testOpen (testRq (.slot 0)) ⟨2, 0xA001, 0, 0, false, 4, 0, [1#8, 2#8, 3#8, 4#8]⟩).any (fun x =>
        (writeGate x.2 x.1 (.slot 0) ⟨2, 0xA001, 0, 0, false, 4, 0, [1#8, 2#8, 3#8, 4#8]⟩).isNone && isOct 0xA001 0
          && !flashAsmElsewhere x.2 x.1)) = true
    ∧ testLive.isReady 0 = true
    ∧ (testLive.evt.consumed ≤ 0 ∧ 0 ≤ testLive.evt.placed)
    ∧ testLive.isReady 1 = true
    ∧ (let x := enterPeer (testLive.inc 0x1030 0 1) 5
       verdict (x.2.chan x.1) 9 (Call.read 0x1010 0 0 4).image = .run)
    ∧ testWrite testLive (Call.write 0x1F00 0 (toBytes 2 0xC3A5)) (fun _ => true) = true
    ∧ (chanOf testOpen (.slot 0) = some 0 ∧ (testOpen.chan 0).unlocked = true ∧ (testOpen.chan 0).asm = none)
    ∧ testWrite testLive (Call.write 0x1021 5 (toBytes 1 1)) (fun _ => true) = true
    ∧ testWrite testLive (Call.write 0x1021 4 (toBytes 1 1)) (fun d => 1 ≠ d.evqOwner) = true
    ∧ testRead testLive (.slot 7) ⟨1, 0x1010, 0, 0, true, 8, 0, []⟩ (fun _ => true) = true
    ∧ (0x1010, 0) ∉ [(0x3102, 1), (0x3000, 2), (0x4002, 1), (0x9012, 0), (0x2020, 1)]
    ∧ testRead testLive (.peer 5) ⟨4, 0x1010, 0, 0, true, 8, 0, []⟩ (fun _ => true) = true ∧ 4 ∉ [1, 2, 3, 0x10, 0x11]
    ∧ (testLive.evt.placed < 1 ∧ testLive.isReady 0 = true ∧ 2 < 3) := by
  repeat' apply And.intro
  all_goals decide +kernel

/-- A locked WRITE (the value of an rk object on a locked channel, an ro object), a refused one, and one that is accepted and held. -/
theorem test_dictionaryWritesTakeEffect_witness :
    (((taken testLive (testRq (.slot 0)) ⟨2, 0x1010, 0, 0, true, 1, 0, [1#8]⟩).any (fun x =>
        writeGate x.2 x.1 (.slot 0) ⟨2, 0x1010, 0, 0, true, 1, 0, [1#8]⟩ = some stBadField)) = true
      ∧ tooLong (.slot 0) 1 = false)
    ∧ testWrite testLive ⟨2, 0x4100, 0, 0, true, 1, 0, [3#8]⟩ (fun d => (dictWriteRule testPart 0x4100 0 0 [3#8] d).2.status != stOK) = true
    ∧ (testWrite testLive ⟨2, 0x4100, 0, 31, true, 1, 0, [1#8]⟩
        (fun d => (dictWriteRule testPart 0x4100 0 31 [1#8] d).2 = Rsp.st stOK) = true
      ∧ (findObj 0x4100 0).any (fun o => o.bytes = 1 && o.acc = accRw && decide (31 < o.count testPart (tabNow testLive 0x4100 0))) = true
      ∧ ownRule testPart 0x4100 0 31 1 = none ∧ linkScope 0x4100 0 = false) := by
  repeat' apply And.intro
  all_goals decide +kernel

theorem test_rearmingReadsComplete_witness :
    testRead testLive (.slot 0) (Call.read 0x3102 1 0 7936) (fun _ => true) = true
    ∧ testRead testLive (.slot 0) (Call.read 0x3102 1 0 8128) (fun _ => true) = true
    ∧ testRead testLive (.peer 3) (Call.read 0x3000 2 0 4) (fun _ => true) = true
    ∧ testRead testLive (.slot 0) (Call.read 0x4002 1 0 64) (fun _ => true) = true
    ∧ testRead testLive (.slot 0) (Call.read 0x4002 1 1 64) (fun _ => true) = true
    ∧ testRead testLive (.slot 0) (Call.read 0x9012 0 0 64) (fun _ => true) = true
    ∧ testRead testLive (.slot 0) (Call.read 0x9012 0 0 63) (fun _ => true) = true
    ∧ testRead testLive (.slot 0) (Call.read 0x2020 1 0 1024) (fun _ => true) = true := by
  repeat' apply And.intro
  all_goals decide +kernel

/-- A witness for each of R396's cases, at d = 0, 1, 2^31 - 1, 2^31 and 2^32 - 1. -/
theorem test_channelSequence_witness :
    let back := fun (l : Nat) => (9 + 2 ^ 32 - l) % 2 ^ 32
    (testLive.chan 0).lastReq = none ∧ testLive.pathReady (.slot 0) = true ∧ testLive.pathReady (.peer 5) = true
    ∧ back 8 = 1 ∧ back (9 + 2 ^ 31 + 1) = 2 ^ 31 - 1 ∧ back 9 = 0 ∧ back (9 + 2 ^ 31) = 2 ^ 31 ∧ back 10 = 2 ^ 32 - 1
    ∧ (let d := testLive.setChan 3 { Chan.init with lastReq := some (10, []) }
       (match receive d (testRq (.slot 3)) (Call.read 0x3000 2 0 4) with
         | .ok d0 => decide (((enterChan d0 (.slot 3)).2.chan 3).lastReq = some (10, []))
         | .error _ => false) = true)
    ∧ (let d := { testLive with peers := [(5, 0)] }.setChan 8 { Chan.init with lastReq := some (10, []) }
       (match receive d (testRq (.peer 5)) (Call.write 0x4100 0 [1#8]) with
         | .ok d0 => decide (((enterChan d0 (.peer 5)).2.chan 8).lastReq = some (10, []))
         | .error _ => false) = true)
    ∧ (match receive testLive (testRq (.slot 7)) (Call.write 0x1F00 0 (toBytes 2 0xC3A5)) with
         | .ok d0 => (((enterChan d0 (.slot 7)).2.chan 7).lastReq).isNone
         | .error _ => false) = true
    ∧ testLive.modes.fcm ≠ 1
    ∧ (match receive testLive (testRq (.slot 0)) (Call.write 0x1012 1 (toBytes 1 1)) with | .ok _ => true | .error _ => false) = true := by
  repeat' apply And.intro
  all_goals decide +kernel

theorem test_groveControlCompletes_witness :
    (let d := (testGrove (fun gr => { gr with phase := .idle, ended := true })).wr 0x6002 0 0 (7 + 2 ^ 40) |>.setChan 0 { Chan.init with unlocked := true }
     testWrite d (Call.write 0x4101 0 (groveCtrlBytes 1 0 1)) (fun d => d.boot.readyGroves.testBit 0 && d.role 0 = 1 && d.groveJob 0 != 0
       && (d.jobRec (d.groveJob 0)).isSome && (d.grove 0).phase == .idle && (d.grove 0).bankSt 1 == .idle && !(d.grove 0).writing.contains 1) = true
     ∧ d.modes.fcm ≠ 1)
    ∧ (let d := (testGrove id).setChan 0 { Chan.init with unlocked := true }
       testWrite d (Call.write 0x4101 0 (groveCtrlBytes 2 0 0)) (fun d => (d.grove 0).phase == .running) = true
       ∧ testWrite d (Call.write 0x4101 0 (groveCtrlBytes 3 0 0)) (fun d => (d.grove 0).phase == .running) = true
       ∧ testWrite d (Call.write 0x4102 0 (instrWriteBytes 0 1 32767 [5])) (fun d => bankWriteStatus d 0 1 = stOK) = true
       ∧ testWrite d (Call.write 0x4102 1 (toBytes 24 (pack [(0, 32, 1), (32, 15, 32767), (48, 16, 1), (64, 64, 8), (128, 64, 1)])))
          (fun d => d.works 4 && (maskGroves testPart 1).all (fun g => bankWriteStatus d g 1 = stOK)
            && !readPoison testPart d 8 8 && decide (16 ≤ memSize testPart d)) = true
       ∧ testWrite d (Call.write 0x4102 4 (toBytes 8 (pack [(0, 32, 1), (32, 24, 1), (56, 8, 0)]))) (fun d => (d.grove 0).bankSt 1 == .idle) = true
       ∧ testWrite d (Call.write 0x4300 2 (toBytes 2 1023)) (fun d => (d.ctx 1023).busy == false) = true)
    ∧ (let d := testGrove (fun gr => { gr with phase := .resetting })
       d.runs domArc = true ∧ (d.grove 0).phase = .resetting ∧ (d.grove 0).reqs = [])
    ∧ (let d := (testGrove (fun gr => { gr with phase := .idle })).setChan 0 { Chan.init with unlocked := true }
       testWrite d (Call.write 0x4101 0 (groveCtrlBytes 3 0 0)) (fun d => (d.grove 0).phase == .idle) = true
       ∧ testWrite d (Call.write 0x4300 2 (toBytes 2 0xFFFF)) (fun _ => true) = true)
    ∧ (let d := { testLive with loads := [(1, 0, 0, 0, 1)] }
       d.loads = [(1, 0, 0, 0, 1)] ∧ hitFlaws testPart d false 0 8 = [] ∧ readPoison testPart d 0 8 = false) := by
  repeat' apply And.intro
  all_goals decide +kernel

/-- A witness for each instruction that is next: its opcode alone is a legal word. -/
theorem test_sequencerRegisterInstructionsComplete_witness :
    ∀ op ∈ [0x00, 0x01, 0x02, 0x03, 0x04, 0x05, 0x06, 0x07, 0x08, 0x09, 0x0A, 0x0B, 0x10, 0x11, 0x12, 0x13, 0x14, 0x15, 0x20, 0x22, 0x23,
      0x28, 0x29, 0x2A, 0x2B, 0x38, 0x39, 0x3A], seqWord (testWord (op * 2 ^ 56)) 0 op = some (op * 2 ^ 56) := by decide +kernel

theorem test_sequencerMemoryAndFlagsComplete_witness :
    (let w := 0x18 * 2 ^ 56 + 2 ^ 46
     let d := testWord w
     seqWord d 0 0x18 = some w ∧ groveWordAt ((d.grove 0).reg (fSA w) + fImm w) = some 0 ∧ 0 ∉ (d.grove 0).poison)
    ∧ (let w := 0x19 * 2 ^ 56 + 2 ^ 46 + 0x1FFFFF8
       let d := testGrove (fun gr => { gr with imem := [(0, BitVec.ofNat 64 w)] })
       seqWord d 0 0x19 = some w ∧ groveWordAt ((d.grove 0).reg (fSA w) + fImm w) = some 0xFFFFF8)
    ∧ (let w := 0x20 * 2 ^ 56 + 65535 * 2 ^ 32
       seqWord (testWord w) 0 0x20 = some w ∧ ((testWord w).grove 0).flag (fFlag w) = Flag.zero ∧ fN1 w + fN2 w = 65535)
    ∧ (let w := 0x21 * 2 ^ 56 + 65535 * 2 ^ 32
       seqWord (testWord w) 0 0x21 = some w ∧ fN1 w = 65535 ∧ ((testWord w).grove 0).flag (fFlag w) = Flag.zero) := by
  repeat' apply And.intro
  all_goals decide +kernel

theorem test_sequencerControlInstructionsComplete_witness :
    (((testWord (0x28 * 2 ^ 56)).grove 0).quiet = true ∧ (((testWord (0x28 * 2 ^ 56)).grove 0).reg 0).toNat % 2 ^ 32 = 0)
    ∧ (((testWord (0x29 * 2 ^ 56)).grove 0).reg 0).toNat ≤ (testWord 0).pace.visible
    ∧ (let w := 0x30 * 2 ^ 56 + 0xFFFF * 2 ^ 40
       let gr := (testWord w).grove 0
       seqWord (testWord w) 0 0x30 = some w ∧ emask w ≠ [] ∧ bits w 4 5 < 30 ∧ (gr.head (issueCmd gr w)).testBit 19 = false
         ∧ (∀ e ∈ emask w, (gr.queue e).length < 64) ∧ gr.wordPoison gr.bank (issueCmd gr w).body = false)
    ∧ (let d := testWord (0xFF * 2 ^ 56)
       canFetch d 0 = true ∧ (fetchWord d 0).all (fun v => !legalWord v) = true)
    ∧ (let d := testGrove (fun gr => { gr with imemPoison := [0] })
       canFetch d 0 = true ∧ fetchPoison d 0 = true) := by
  repeat' apply And.intro
  all_goals decide +kernel

theorem test_waitsAndExternalSetsComplete_witness :
    (let d := testGrove id
     0 < testPart.groves ∧ d.runs domArc = true ∧ d.role 0 = 1 ∧ (d.grove 0).phase = .running)
    ∧ (let d := testGrove (fun gr => { gr with stall := .fwait 255 1, waitsAt := [⟨16, [0, 1], 0, 0⟩] })
       (d.grove 0).stall = .fwait 255 1 ∧ ((d.grove 0).flag 255).c < 1
         ∧ (d.grove 0).waitsAt.find? (fun n => n.waiter = 16 && n.key = [0, 1]) = some ⟨16, [0, 1], 0, 0⟩)
    ∧ (let d := testGrove (fun gr => { gr with stall := .wpace 1, waitsAt := [⟨16, [0, 1], 0, 0⟩] })
       (d.grove 0).stall = .wpace 1 ∧ d.pace.visible < 1
         ∧ (d.grove 0).waitsAt.find? (fun n => n.waiter = 16 && n.key = [0, 1]) = some ⟨16, [0, 1], 0, 0⟩)
    ∧ (let gr := { Grove.init with imem := [(0, 0x100000100000#64)], queues := [(15, [Cmd.none])], waitsAt := [⟨15, [0, 0], 0, 0⟩] }
       gr.queue 15 = [Cmd.none] ∧ gr.waits Cmd.none = true
         ∧ gr.waitsAt.find? (fun n => n.waiter = 15 && n.key = [Cmd.none.tag, Cmd.none.body]) = some ⟨15, [0, 0], 0, 0⟩)
    ∧ (let d := testGrove (fun gr => gr.setFlag 255 ⟨0, 0, 1, 0⟩)
       (d.grove 0).phase = .running ∧ d.role 0 = 1 ∧ d.groveJob 0 = 7 ∧ 0 < ((d.grove 0).flag 255).pe) := by
  repeat' apply And.intro
  all_goals decide +kernel

theorem test_registerInstructionsFrame_witness :
    (testDev (.add 0) (testWord (0x03 * 2 ^ 56 + 3 * 2 ^ 51 + 2 * 2 ^ 46 + 2 * 2 ^ 41))).grove 0 |>.reg 3 |> (· = 10) := by decide +kernel

theorem test_flagOperations_witness :
    (let w := 0x20 * 2 ^ 56 + 65535 * 2 ^ 32 + 2 ^ 16
     seqWord (testWord w) 0 0x20 = some w ∧ 65535 < fN1 w + fN2 w)
    ∧ (let w := 0x21 * 2 ^ 56 + 65535 * 2 ^ 32
       let d := (testWord w).setGrove 0 (((testWord w).grove 0).setFlag 0 ⟨1, 0, 0, 0⟩)
       seqWord d 0 0x21 = some w ∧ 65535 < ((d.grove 0).flag (fFlag w)).c + fN1 w)
    ∧ (let w := 0x22 * 2 ^ 56
       let d := (testWord w).setGrove 0 (((testWord w).grove 0).setFlag 0 ⟨0, 1, 0, 0⟩)
       seqWord d 0 0x22 = some w ∧ ((d.grove 0).flag (fFlag w)).pl ≠ 0)
    ∧ (let w := 0x30 * 2 ^ 56 + 2 ^ 40 + 2 ^ 9
       let d := testGrove (fun gr => { gr with imem := [(0, BitVec.ofNat 64 w), (1, 0x80000#64)] }.setFlag 0 ⟨0, 1, 0, 0⟩)
       let gr := d.grove 0
       let h := gr.head (issueCmd gr w)
       seqWord d 0 0x30 = some w ∧ h.testBit 19 = true
         ∧ (gr.flag (bits h 11 8)).s + (issueCmd gr w).copies ≤ (gr.flag (bits h 11 8)).pl)
    ∧ (let d := testGrove (fun gr => { gr with imem := [(0, 0x80000#64)] }.setCtx 15 4095 { Ctx.free with st := .waitWrite })
       let gr := d.grove 0
       d.runs domArc = true ∧ gr.paused = false ∧ (gr.ctx 15 4095).st = .waitWrite ∧ gr.reqs = [] ∧ signals gr (gr.ctx 15 4095).cmd = false
         ∧ (gr.head (gr.ctx 15 4095).cmd).testBit 19 = true) := by
  repeat' apply And.intro
  all_goals decide +kernel

/-- A step of every plain command is clean on some state: operands in scratch, SEND's destination in an aperture. -/
theorem test_engineStepsComplete_witness :
    ∀ x ∈ plainSteps 0 15 4095, let d := testEngine x.2.1 x.2.2.1 0 0 0 0 (if x.2.1 = 0x0C then 0x2000000000 else 0)
      canStep d 0 15 4095 x.2.1 (some x.2.2.1) = true ∧ cleanStep testPart d 0 15 4095 (x.2.2.2 (testStp d)) = true := by
  unfold plainSteps
  simp only [List.forall_mem_cons, List.not_mem_nil, false_implies, implies_true, and_true]
  repeat' apply And.intro
  all_goals decide +kernel

/-- The same of every converting command, without and with delayed scaling. -/
theorem test_convertingStepsComplete_witness :
    ∀ x ∈ convertingSteps 0 15 4095,
      (let d := testEngine x.2.1 x.2.2.1 0 0 0 0 0
       canStep d 0 15 4095 x.2.1 (some x.2.2.1) = true ∧ cvMode (testStp d).cvt ≠ 3
         ∧ cleanStep testPart d 0 15 4095 (x.2.2.2.2 (testStp d)) = true)
      ∧ (let d := (testEngine x.2.1 x.2.2.1 0x3000 0 0 0 0).wr 0x4300 1 0 (2 ^ 29)
         let t := testStp d
         let gr := d.grove 0
         let f := x.2.2.2.2
         let d1 := takeScale t x.2.2.2.1 f
         cvMode t.cvt = 3 ∧ t.x.xscale = none ∧ canStep d 0 15 4095 x.2.1 (some x.2.2.1) = true
         ∧ gr.ctxPoison.contains (15 * 4096 + 4095) = false ∧ gr.bodyPoison t.x.cmd = false
         ∧ (badOperand testPart d gr (f t)).isNone = true
         ∧ (deadLine testPart d 0 (missingLines testPart d gr t.x (f t))).isNone = true ∧ pendingLines testPart d gr 15 4095 (f t) = []
         ∧ (let h := histRange testPart d (cvCtx t.cvt); hitFlaws testPart d false h.1 h.2 = [] ∧ readPoison testPart d h.1 h.2 = false)
         ∧ (d.ctx (cvCtx t.cvt)).busy = false
         ∧ (if measures t then (wholeMiss f t t.all).eraseDups else missingLines testPart d gr t.x (f t)) = []
         ∧ cleanStep testPart d1 0 15 4095 (f (stepOf testPart d1 0 15 4095)) = true) := by
  unfold convertingSteps
  simp only [List.forall_mem_cons, List.not_mem_nil, false_implies, implies_true, and_true]
  repeat' apply And.intro
  all_goals decide +kernel

theorem test_commandsOpenMoveAndComplete_witness :
    (let d := testGrove (fun gr => { gr with imem := [(1, BitVec.ofNat 64 (2 ^ 57 + 2 ^ 45)), (6, BitVec.ofNat 64 (2 ^ 47))], queues := [(15, [testCmd])] })
     let gr := d.grove 0
     d.runs domArc = true ∧ gr.queue 15 = [testCmd] ∧ freeCtx gr 15 = some 0 ∧ gr.paused = false ∧ gr.waits testCmd = false ∧ gr.statePoison = false ∧ gr.bodyPoison testCmd = false
       ∧ bodyBad gr (d.role 0) (d.jobAcn (d.groveJob 0)) testCmd = false)
    ∧ (let gr := (testGrove (fun gr => gr.setCtx 15 4095 { Ctx.free with st := .waitData })).grove 0
       gr.phase = .running ∧ (gr.ctx 15 4095).st = .waitData ∧ gr.unsent 15 4095 = false ∧ heldUp (testGrove (fun gr => gr.setCtx 15 4095 { Ctx.free with st := .waitData })) 0 15 4095 = false ∧ gr.reqs = [])
    ∧ (let gr := (testGrove (fun gr => { gr with phase := .halted }.setCtx 15 4095 { Ctx.free with st := .waitWrite })).grove 0
       gr.phase = .halted ∧ gr.paused = false ∧ (gr.ctx 15 4095).st = .waitWrite ∧ gr.reqs = [])
    ∧ (let d := testEngine 0x02 0 0 0 0x4000000000 0 0
       let fx := StackFx.corrected 0 1
       canStep d 0 15 4095 0x02 (some 0) = true ∧ fxIsWrite fx = false
         ∧ (copyFx testPart d (d.grove 0) (testStp d).a (64 * (testStp d).n) fx).2 = false
         ∧ (let d1 := (copyFx testPart d (d.grove 0) (testStp d).a (64 * (testStp d).n) fx).1
            cleanStep testPart d1 0 15 4095 (copyStep 0 (stepOf testPart d1 0 15 4095)) = true))
    ∧ (let d := testEngine 0x02 0 0 0 0 0 0x4000000000
       canStep d 0 15 4095 0x02 (some 0) = true ∧ fxIsWrite (.writeFailed 0 1) = true
         ∧ cleanStep testPart d 0 15 4095 (copyStep 0 (testStp d)) = true)
    ∧ (let d := testEngine 0x0A 0 0 63 0x4000000000 0 0
       canStep d 0 15 4095 0x0A (some 0) = true ∧ (d.grove 0).wins.get none (bits (testStp d).prm 0 6) = none
         ∧ (readSequence (testStp d)).all (fun a => region testPart d (d.grove 0) a 1 == some (.stack (a - 0x4000000000))) = true)
    ∧ canStep (testEngine 0x0B 0 0 63 0 0 0) 0 15 4095 0x0B (some 0) = true
    ∧ (∀ op ∈ [0x10, 0x11, 0x12, 0x13, 0x14, 0x15],
       let d := testEngine 0x0E op 0 0 0 0 0x2000000000
       let t := testStp d
       let w := atypeBytes (bits t.prm 28 4)
       let n := if op = 0x14 then 16 else 8
       let r : StepRes := { reads := [{ addr := t.a, len := n, align := 8 }],
                            writes := [{ addr := t.b, data := List.replicate 8 0, align := 8 },
                                       { addr := t.dd, data := List.replicate w 0, align := w, kind := 2 }] }
       let r1 : StepRes := { r with writes := [{ addr := t.b, data := List.replicate 8 0, align := 8 }] }
       canStep d 0 15 4095 0x0E (some op) = true ∧ (badOperand testPart d (d.grove 0) r).isNone = true
         ∧ missingLines testPart d (d.grove 0) t.x r1 = []
         ∧ pendingLines testPart d (d.grove 0) 15 4095 r1 = [] ∧ rangeFlaws testPart d (d.grove 0) false t.a (if op = 0x14 then 16 else 8) = []
         ∧ (poisonOperand testPart d (d.grove 0) 15 r1).isNone = true
         ∧ 15 * 4096 + 4095 ∉ (d.grove 0).ctxPoison ∧ (d.grove 0).bodyPoison t.x.cmd = false ∧ homeDead testPart d ((canopyAt testPart d (d.grove 0) t.dd).getD 0) = false) := by
  repeat' apply And.intro
  all_goals decide +kernel

/-- A finished step that stores to device memory: AND with its destination in the stacks. -/
theorem test_engineStepStores_witness :
    let d := testEngine 0x03 10 0 0 0 0 0x4000000000
    let r := bitStep (fun u v => u &&& v) (testStp d)
    canStep d 0 15 4095 0x03 (some 10) = true ∧ cleanStep testPart d 0 15 4095 r = true
      ∧ r.writes.map (fun w => region testPart d (d.grove 0) w.addr w.data.length) = [some (.stack 0)] := by
  repeat' apply And.intro
  all_goals decide +kernel

/-- An admitted operation 3 of job 7 with descriptor `desc`: member 0 here at (0, 0), member 1 at (0, 1). -/
def testOp (desc : Nat) : Op :=
  { job := 7, coll := 3, desc := desc, list := [], dictWriters := [], linkWriters := [], phase := 2,
    members := [⟨0, 0, 0, 0, 0, false⟩, ⟨1, 0, 0, 1, 0, false⟩], admits := [], go := true, seen := [], fails := [], inputs := [], outs := [],
    frames := [], acks := [], sealed_ := [], got := [], counts := [], lists := [], choices := [], lines := [], flags := 0, amax := (0, 1),
    doneUps := [], upSent := false, doneSent := false, reports := [], status := 0, mask := 0, grove := none, slots := [0], fromReserve := [],
    ticket := 0, waiting := false, queuedAt := 0, aged := false, yielded := false, idle := false, quantum := 0, spill := none, spillAt := 0, spilled := [], scale := none,
    tableCrc := 0, recs := [], paused := false }

/-- Descriptor fields: operation, input format FP32, COUNT, OPX. -/
def testDesc (op count opx : Nat) : Nat := op * 2 ^ 440 + 1 * 2 ^ 427 + count * 2 ^ 336 + opx

/-- The live device with the operation in its table. -/
def testColl (o : Op) : Dev := { testLive with colls := { testLive.colls with ops := [o] } }

/-- A held DATA chunk of member `src`. -/
def testHeld (o : Op) (kind chunk src : Nat) (bs : List Byte) : HeldIn := ⟨{ mkChunk o kind chunk 0 src 0 bs with crc := 0 }, [], 0, false⟩

/-- What every clause of the DEVICE opcodes asks of the operation and grove 31. -/
def testAdmitted (o : Op) : Bool :=
  let d := testColl o
  d.runs domArc && d.role 31 = 0 && (d.grove 31).phase != .lost && !(d.grove 31).paused && findOp d 7 3 == some o && o.phase != 0
    && o.phase != 4 && !o.paused && o.grove.isNone

theorem test_deviceOpcodesComplete_witness :
    (let o0 := testOp (testDesc 1 1 0)
     let h := testHeld o0 0 0 0 [0#8, 0#8, 0x80#8, 0x3F#8]
     let o := { o0 with inputs := [h] }
     testAdmitted o = true ∧ o.inputs.find? (fun h => !h.used && h.c.kind ≤ 1 && h.c.chunk = 0 && h.c.src = 0) = some h ∧ o.slots ≠ []
       ∧ o.spilled = [] ∧ reduces o.opc = true ∧ 0 < o.chunks ∧ o.frames.length < frameRoom o
       ∧ (match frameAdd o (emptyFrame o 0) h.c with | .ok _ => true | .error _ => false) = true)
    ∧ (let o0 := testOp (testDesc 1 1 0)
       let o := { o0 with frames := [{ emptyFrame o0 0 with from_ := List.replicate (dueInputs (testColl o0) o0 0) (0, 0) }] }
       testAdmitted o = true ∧ (readyFrame (testColl o) o 0).isSome = true ∧ o.parent (o.rootDev 0) (testColl o).code = some 1)
    ∧ (let o0 := { testOp (testDesc 1 1 0) with coll := 2 }
       let o := { o0 with frames := [{ emptyFrame o0 0 with from_ := List.replicate (dueInputs (testColl o0) o0 0) (0, 0) }] }
       findOp (testColl o) 7 2 = some o ∧ (readyFrame (testColl o) o 0).isSome = true ∧ o.parent (o.rootDev 0) (testColl o).code = none)
    ∧ (let o0 := testOp (testDesc 6 1 0)
       let o := { o0 with inputs := [testHeld o0 0 0 1 []] }
       testAdmitted o = true ∧ (inputOf o (fun c => c.kind = 0 && c.chunk = 0 && c.src = 1 && c.dst = 0)).isSome = true)
    ∧ (let o := { testOp (testDesc 7 0 5) with lists := [[14, 0, 0], [14, 1, 0]] }
       testAdmitted o = true ∧ o.opc = 7 ∧ o.marked [7] = false ∧ countsDue (testColl o) o = true
         ∧ (∀ j ∈ o.here (testColl o), countTotal (o.mark [7]) j ≤ bits o.opx 0 44) ∧ dscIscale o.desc = 0)
    ∧ (let o0 := testOp (testDesc 1 1 0)
       let o := { o0 with spilled := [emptyFrame o0 0] }
       testAdmitted o = true ∧ o.spilled ≠ [] ∧ o.slots ≠ [] ∧ o.spill ≠ some 255)
    ∧ (let o0 := testOp (testDesc 1 1 0)
       let o := { o0 with spilled := [emptyFrame o0 0], spill := some 255 }
       testAdmitted o = true ∧ o.spilled ≠ [] ∧ o.slots ≠ []
         ∧ cleanReads testPart (testColl o) [(areaBase testPart (testColl o) 2 + o.spillAt, spillBytes o.spilled)] = true) := by
  repeat' apply And.intro
  all_goals decide +kernel

theorem test_dispatchOpcodesComplete_witness :
    (let o := { testOp (testDesc 0x10 1 0) with lists := [[10, 0, 0]] }
     testAdmitted o = true ∧ o.opc = 0x10 ∧ tokensOf o 0 = some 0 ∧ o.marked [12, 0] = false ∧ 0 ∈ o.here (testColl o)
       ∧ (heldStream o 0 (scoreBytes o 0 / 4096)).any (fun bs => decide (scoreBytes o 0 ≤ bs.length)) = true)
    ∧ (let o := { testOp (testDesc 0x10 1 0) with lists := [[14, 0], [14, 1]] }
       testAdmitted o = true ∧ o.marked [16] = false ∧ (∀ i < o.m, o.marked [14, i] = true))
    ∧ (let o := { testOp (testDesc 0x10 1 0) with lists := [[10, 0, 0], [12, 0], [33, 0, 0], [33, 0, 1]] }
       testAdmitted o = true ∧ tokensOf o 0 = some 0 ∧ o.marked [18, 0] = false ∧ o.marked [12, 0] = true
         ∧ (∀ x ∈ o.devs, o.marked [33, 0, x] = true)
         ∧ (heldStream o 0 (ceilDiv (scoreBytes o 0 + 0 * rowBytes o) 4096)).any (fun bs => decide (scoreBytes o 0 + 0 * rowBytes o ≤ bs.length)) = true)
    ∧ (let o := testOp (testDesc 0x11 1 (2 * 2 ^ 32))
       let r : RouteTab := ⟨7, 2, [0, 1], 0, 2, 0, [(0, 1)], [], [], [], true⟩
       let d := { testColl o with colls := { (testColl o).colls with routes := [r] } }
       combineTable d o = some r ∧ o.slots ≠ [] ∧ 0 ∈ o.here d ∧ cleanReads testPart d [routeRange testPart d r] = true ∧ min o.epc (1 * o.count - 0 * o.epc) ≠ 0
         ∧ [0, 0] ∉ o.got ∧ (combineVals o r 0 0 (min o.epc (1 * o.count - 0 * o.epc))).isSome = true)
    ∧ (let o := { testOp (testDesc 0x12 1 0) with lists := [[21, 0]] }
       testAdmitted o = true ∧ o.opc = 0x12 ∧ 0 < o.m ∧ 0 ∈ o.here (testColl o) ∧ o.marked [21, 0] = true ∧ o.marked [22, 0] = false
         ∧ 1 < o.m ∧ 1 ∉ o.here (testColl o) ∧ o.slots ≠ [])
    ∧ (let o := { testOp (testDesc 0x13 1 0) with lists := [[26, 0]] }
       testAdmitted o = true ∧ o.opc = 0x13 ∧ 0 ∈ o.here (testColl o) ∧ o.marked [26, 0] = true ∧ 1 < o.m ∧ 1 ∉ o.here (testColl o))
    ∧ (let o0 := testOp (testDesc 0x14 1 0)
       let o := { o0 with inputs := [testHeld o0 0 0 0 (List.replicate (keyBytes (filtKt o0)) 0)] }
       testAdmitted o = true ∧ o.opc = 0x14 ∧ 0 ∈ o.here (testColl o) ∧ 0 < filtChunks o ∧ survivors o 0 0 = none ∧ filtTag o = false
         ∧ (o.inputs.find? (fun h => h.c.kind = 0 && h.c.stage = 0 && h.c.src = 0 && h.c.chunk = 0)).any (fun h =>
             h.c.payload.length = min (filtEpc o) (o.count - 0) * keyBytes (filtKt o)
               && cleanReads testPart (testColl o) (filtReads (testColl o) o (unpackCodes (8 * keyBytes (filtKt o)) (min (filtEpc o) (o.count - 0)) (ofBytes h.c.payload)))) = true)
    ∧ (let o := testOp (testDesc 0x12 1 0)
       testAdmitted o = true ∧ 0 ∈ o.here (testColl o) ∧ o.marked [21, 0] = false)
    ∧ (let o := testOp (testDesc 0x13 1 0)
       testAdmitted o = true ∧ 0 ∈ o.here (testColl o) ∧ o.marked [26, 0] = false)
    ∧ (let o := testOp (testDesc 0x14 1 (2 ^ 59))
       testAdmitted o = true ∧ 0 ∈ o.here (testColl o) ∧ filtTag o = true ∧ 0 < filtChunks o)
    ∧ (let o := testOp (testDesc 0x14 0 0)
       testAdmitted o = true ∧ 0 ∈ o.here (testColl o) ∧ filtChunks o = 0) := by
  repeat' apply And.intro
  all_goals decide +kernel

/-- A good chunk of kind `kind` from member 1's device, with payload `bs`. -/
def testChunk (o : Op) (kind chunk dst : Nat) (via : Via) (bs : List Byte) : Chunk :=
  { mkChunk o kind chunk 1 1 dst bs with via := via, col := 1 }

theorem test_dataChunksComplete_witness :
    (let o := testOp (testDesc 1 1 0)
     let d := testColl o
     ∀ k ∈ [0, 1, 2, 3], let c := testChunk o k 0 0 (.fabric 64) [1, 2, 3, 4]
       (chunkArr c).all testPart.hasLink = true ∧ c.crc = crc32c c.payload ∧ d.runs domXbar = true ∧ d.works 7 = true ∧ d.isFenced c.row c.col = false
         ∧ findOp d c.job c.coll = some o ∧ toFenced o c = false ∧ c.lost = false ∧ c.badCell = none ∧ o.phase ≠ 0 ∧ o.phase ≠ 4 ∧ senderOk d o c = true
         ∧ keyOf c ∉ o.seen ∧ (holdChunk testPart d o (chunkKept d c)).isSome = true) := by
  repeat' apply And.intro
  all_goals decide +kernel

theorem test_controlChunksComplete_witness :
    (let o := { testOp (testDesc 7 0 5) with lists := [[7]] }
     let c := testChunk o 4 0 0 .own []
     let d := testColl o
     (chunkArr c).all testPart.hasLink = true ∧ findOp d 7 3 = some o ∧ o.opc = 7 ∧ o.marked [7] = true ∧ o.marked [34, c.dst] = false ∧ o.paused = false ∧ o.phase ≠ 4
       ∧ c.dst ∈ o.here d)
    ∧ (let o := { testOp (testDesc 1 1 0) with phase := 1 }
       let c := testChunk o 5 1 0 (.fabric 64) []
       (chunkArr c).all testPart.hasLink = true ∧ findOp (testColl o) c.job c.coll = some o ∧ c.kind = 5 ∧ c.chunk = 1 ∧ o.phase = 1)
    ∧ (let o0 := testOp (testDesc 1 1 0)
       let o := { o0 with outs := [⟨{ mkChunk o0 1 0 1 1 0 [] with crc := 0 }, [], 0, [peerDev 1]⟩] }
       let c := testChunk o 6 0 0 (.fabric 64) [0, 0, 0, 0]
       indicesOf c = [0] ∧ (outFor testPart (testColl o) o c 0).isSome = true)
    ∧ (let c := testChunk (testOp 0) 9 0 0 (.fabric 64) []
       c.kind = 9 ∧ c.via = .fabric 64 ∧ (chunkArr c).all testPart.hasLink = true) := by
  repeat' apply And.intro
  all_goals decide +kernel

/-- The live device with job 7 of ACN 1, whose rank 0 is here. -/
def testJob : Dev := ((testLive.wr 0x6002 0 0 (7 + 2 ^ 32 + 2 ^ 40 + 2 ^ 96)).wrD 0 0x6003 0 0 (2 ^ 63))

/-- An ALLREDUCE of one FP32 element by rank 0 alone. -/
def testDescBytes : List Byte :=
  toBytes 64 (pack [(224, 16, 1), (240, 32, 1), (336, 48, 1), (384, 32, 16), (427, 4, 1), (431, 3, 3), (440, 8, 1), (448, 32, 7), (480, 32, 3)])

theorem test_collectiveEntriesComplete_witness :
    (let v := descNat testDescBytes
     testJob.modes.fcm ≠ 1
     ∧ testWrite testJob (Call.write 0x5000 0 testDescBytes) (fun d => d.works 7 && (findOp d (bits v 448 32) (bits v 480 32)).isNone
         && (checkDesc testPart d v testDescBytes.length (descList testDescBytes) 0).1 == stOK) = true
     ∧ testPart.hasLink 64 = true ∧ testJob.runs domXbar = true ∧ testJob.works 6 = true ∧ testJob.works 7 = true ∧ testJob.isFenced 0 1 = false
     ∧ (checkDesc testPart testJob v testDescBytes.length (descList testDescBytes) 1).1 = stOK)
    ∧ (let a : AckList := ⟨peerDev 1, 1, 1, 0, [0]⟩
       let o := { testOp (testDesc 1 1 0) with acks := [a] }
       (testColl o).runs domXbar = true ∧ findOp (testColl o) 7 3 = some o
         ∧ o.acks.find? (fun a => a.peer = peerDev 1 && a.stage = 1 && a.src = 1 && a.dst = 0) = some a ∧ o.phase ≠ 0 ∧ o.phase ≠ 4)
    ∧ (let o := { testOp (testDesc 1 1 0) with phase := 4 }
       (testColl o).runs domXbar = true ∧ findOp (testColl o) 7 3 = some o)
    ∧ (let o := { testOp (testDesc 1 1 0) with waiting := true }
       findOp (testColl o) 7 3 = some o ∧ o.waiting = true ∧ o.aged = false ∧ (testColl o).inFcm = false)
    ∧ (let o := { testOp (testDesc 1 1 0) with grove := some 31 }
       let d := { testColl o with colls := { (testColl o).colls with target := some (31, 0) } }
       findOp d 7 3 = some o ∧ o.slots ≠ [] ∧ o.phase ≠ 4)
    ∧ (let r : RouteTab := ⟨7, 2, [0, 1], 0, 2, 0, [(0, 1)], [], [], [], false⟩
       let d := { testOpen with colls := { testOpen.colls with routes := [r] } }
       testWrite d (Call.write 0x5030 1 (toBytes 4 7 ++ toBytes 4 2)) (fun d => findRoute d 7 2 == some r && !r.inUse) = true)
    ∧ (let d := testOpen.wr 0x5110 0 15 (4 * 2 ^ 83 + 2 ^ 71)
       testWrite d (Call.write 0x5110 1 (toBytes 1 15)) (fun d =>
         let r := d.rd 0x5110 0 15
         decide (4 ≤ setL r) && decide (setL r ≤ 24) && setMaxProbe r != 0 && decide (setKeyt r ≤ 11)
           && decide (setOffset r + setRegion r ≤ memSize testPart d) && cleanReads testPart d [(setOffset r, setRegion r)]
           && (setKeys d.mem.mem r).isEmpty) = true
       ∧ testWrite d (Call.write 0x5110 1 (toBytes 1 (15 + 128))) (fun d => d.colls.ops.isEmpty) = true) := by
  repeat' apply And.intro
  all_goals decide +kernel

/-- The live device with job 7 of ACN 1 and slot 0 unlocked. -/
def testJobOpen : Dev := testJob.setChan 0 { Chan.init with unlocked := true }

/-- A device with other device memory. -/
def testHeaded (m : Mem) (d : Dev) : Dev := { d with mem := { d.mem with mem := m } }

/-- An image without groves or operations, kept in slot 0. -/
def testKept : Dev := { testJobOpen with modes := { testJobOpen.modes with images := [(0, { Image.none with valid := true })] } }

/-- It under a header at offset 0 of device memory as well. -/
def testImage (header : Nat) : Dev := testHeaded (testJobOpen.mem.mem.writeNat 0#8 0 128 header) testKept

theorem test_bits_low (x l k o n : Nat) (h : o + n ≤ k) : bits (l + x * 2 ^ k) o n = bits l o n := by
  unfold bits
  rw [Nat.shiftRight_eq_div_pow, Nat.shiftRight_eq_div_pow]
  have e : x * 2 ^ k = 2 ^ o * (2 ^ n * (x * 2 ^ (k - o - n))) := by
    rw [← Nat.mul_assoc, ← Nat.pow_add, Nat.mul_left_comm, ← Nat.pow_add]
    congr 2
    omega
  rw [e, Nat.add_mul_div_left _ _ (Nat.two_pow_pos o), Nat.add_mul_mod_self_left]

theorem test_bits_high (x l k n : Nat) (hl : l < 2 ^ k) (hx : x < 2 ^ n) : bits (l + x * 2 ^ k) k n = x := by
  unfold bits
  rw [Nat.shiftRight_eq_div_pow, Nat.add_mul_div_right _ _ (Nat.two_pow_pos k), Nat.div_eq_of_lt hl, Nat.zero_add]
  exact Nat.mod_eq_of_lt hx

theorem test_sum_lt (x l k n m : Nat) (hl : l < 2 ^ k) (hx : x < 2 ^ n) (hm : k + n = m) : l + x * 2 ^ k < 2 ^ m := by
  have h : (1 + x) * 2 ^ k ≤ 2 ^ n * 2 ^ k := Nat.mul_le_mul_right _ (by omega)
  rw [Nat.add_mul, Nat.one_mul, ← Nat.pow_add, Nat.add_comm n k, hm] at h
  omega

/-- A value with a given upper field and given lower bits. -/
theorem test_join (x l k n m : Nat) (hl : l < 2 ^ k) (hx : x < 2 ^ n) (hm : k + n = m) :
    ∃ h, h < 2 ^ m ∧ bits h k n = x ∧ (∀ o w, o + w ≤ k → bits h o w = bits l o w) ∧ ∀ i, i < k → h.testBit i = l.testBit i := by
  refine ⟨l + x * 2 ^ k, test_sum_lt x l k n m hl hx hm, test_bits_high x l k n hl hx, fun o w h => test_bits_low x l k o w h, ?_⟩
  intro i hi
  have h := test_bits_low x l k i 1 hi
  unfold bits at h
  rw [Nat.shiftRight_eq_div_pow, Nat.shiftRight_eq_div_pow, Nat.pow_one] at h
  rw [Nat.testBit_eq_decide_div_mod_eq, Nat.testBit_eq_decide_div_mod_eq, h]

/-- The request that restores it for job 7 from device memory. -/
def testRestore : Call :=
  Call.write 0x8500 4 (toBytes 4 7 ++ toBytes 1 2 ++ List.replicate 3 0 ++ toBytes 8 0 ++ toBytes 8 5 ++ List.replicate 8 0)

/-- The device from which that request is executed. -/
def testTake (d : Dev) (rq : Rq) (k : Call) : Dev :=
  let y := takeReq d rq k
  y.setChan 0 { y.chan 0 with asm := none }

def testTaken (header : Nat) : Dev := testTake (testImage header) (testRq (.slot 0)) testRestore

/-- What was written reads back. -/
theorem test_readBack (m : Mem) (a k h : Nat) (hlt : h < 2 ^ (8 * k)) : Mem.readNat (Mem.writeNat m 0#8 a k h) 0#8 a k = h := by
  rw [Mem.readNat_writeNat, show 256 = 2 ^ 8 from rfl, ← Nat.pow_mul]
  exact Nat.mod_eq_of_lt hlt

/-- The header below its digest: version 1, ACN 1, no groves. -/
def testLow : Nat := 2 ^ 384 + 2 ^ 376

/-- What the checks read of a header whose digest is that of an empty body. -/
def testHeaderOk (h : Nat) : Prop :=
  bits h 640 384 = Config.sha384 [] ∧ (∀ o w, o + w ≤ 640 → bits h o w = bits testLow o w) ∧ (∀ i, i < 640 → h.testBit i = testLow.testBit i)

/-- There is a header that announces an empty body with its right digest. -/
theorem test_header : ∃ h, headerAt (testTaken h) 0 = h ∧ testHeaderOk h := by
  obtain ⟨h, hlt, hd, hb, ht⟩ := test_join (Config.sha384 []) testLow 640 384 (8 * 128) (by decide +kernel) (Config.sha384Bits []).isLt rfl
  refine ⟨h, ?_, hd, hb, ht⟩
  show Mem.readNat (Mem.writeNat testJobOpen.mem.mem 0#8 0 128 h) 0#8 0 128 = h
  exact test_readBack _ _ _ _ hlt

theorem test_groves (h : Nat) (hk : testHeaderOk h) : (List.range 32).filter (fun g => h.testBit (416 + g)) = [] := by
  rw [List.filter_eq_nil_iff]
  intro g hm
  have hg := List.mem_range.mp hm
  rw [hk.2.2 _ (by omega)]
  revert g
  decide +kernel

theorem test_handHeaded (m : Mem) (d : Dev) (rq : Rq) (k : Call) (n : Fin 8) :
    handSlot (testHeaded m d) rq k n = testHeaded m (handSlot d rq k n) := by
  have h1 : storedFor (testHeaded m d) n k = storedFor d n k := rfl
  have h2 : ∀ v, (testHeaded m d).setSlot n v = testHeaded m (d.setSlot n v) := fun _ => rfl
  unfold handSlot
  rw [h1]
  exact h2 _

theorem test_incHeaded (m : Mem) (d : Dev) (i s r n : Nat) : (testHeaded m d).inc i s r n = testHeaded m (d.inc i s r n) := rfl

theorem test_chanHeaded (m : Mem) (d : Dev) : (testHeaded m d).setChan 0 { (testHeaded m d).chan 0 with asm := none }
    = testHeaded m (d.setChan 0 { d.chan 0 with asm := none }) := rfl

theorem test_reqHeaded (m : Mem) (d : Dev) (rq : Rq) (k : Call) (hp : rq.path = .slot 0) :
    takeReq (testHeaded m d) rq k = testHeaded m (takeReq d rq k) := by
  unfold takeReq
  rw [hp]
  dsimp only
  rw [test_handHeaded, test_incHeaded]

theorem test_takeHeaded (m : Mem) (d : Dev) (rq : Rq) (k : Call) (hp : rq.path = .slot 0) :
    testTake (testHeaded m d) rq k = testHeaded m (testTake d rq k) := by
  unfold testTake
  rw [test_reqHeaded m d rq k hp]
  exact test_chanHeaded m (takeReq d rq k)

/-- The header plays no part in what else a restore looks at. -/
theorem test_headed (m : Mem) (d : Dev) : (testHeaded m d).works 4 = d.works 4 ∧ memSize testPart (testHeaded m d) = memSize testPart d
    ∧ cleanReads testPart (testHeaded m d) = cleanReads testPart d ∧ ckptRegion (testHeaded m d) = ckptRegion d
    ∧ (testHeaded m d).jobRec = d.jobRec ∧ (testHeaded m d).jobAcn = d.jobAcn ∧ (testHeaded m d).colls = d.colls :=
  ⟨rfl, rfl, rfl, rfl, rfl, rfl, rfl⟩

/-- Nor does it in how the request is taken. -/
theorem test_receiveHeaded (m : Mem) (d : Dev) (rq : Rq) (k : Call) (hp : rq.path = .slot 0)
    (h : receive d rq k = .ok (takeReq d rq k)) : receive (testHeaded m d) rq k = .ok (takeReq (testHeaded m d) rq k) := by
  have c1 : (testHeaded m d).pathReady (.slot 0) = d.pathReady (.slot 0) := rfl
  have c2 : slotBusy (testHeaded m d) (.slot 0) = slotBusy d (.slot 0) := rfl
  unfold receive at h ⊢
  rw [hp] at h ⊢
  rw [c1, c2]
  split at h
  · cases h
  · split at h
    · cases h
    · split at h
      · dsimp only at h ⊢
        split at h
        · simp [*]
        · cases h
      · cases h

theorem test_gateHeaded (m : Mem) (d : Dev) (c : Nat) (path : Path) (k : Call) :
    writeGate (testHeaded m d) c path k = writeGate d c path k := rfl

theorem test_takenHeaded (m : Mem) (d : Dev) (rq : Rq) (k : Call) (hp : rq.path = .slot 0)
    (h : receive d rq k = .ok (takeReq d rq k)) (hv : verdict ((takeReq d rq k).chan 0) rq.seq k.image = .run)
    (ha : ((takeReq d rq k).chan 0).asm.isNone = true)
    (hk : (k.op = 2 && k.last && !tooLong rq.path k.bytes.length && decide (k.bytes.length ≤ 294912)
      && (writeGate (testTake d rq k) 0 rq.path k).isNone) = true) :
    writeTaken (testHeaded m d) rq k = some (0, testTake (testHeaded m d) rq k) := by
  have ht : taken (testHeaded m d) rq k = some (0, takeReq (testHeaded m d) rq k) := by
    have c : (takeReq (testHeaded m d) rq k).chan 0 = (takeReq d rq k).chan 0 := by rw [test_reqHeaded m d rq k hp]; rfl
    unfold taken
    rw [test_receiveHeaded m d rq k hp h, hp]
    show (if (decide (verdict ((takeReq (testHeaded m d) rq k).chan 0) rq.seq k.image = .run)
      && ((takeReq (testHeaded m d) rq k).chan 0).asm.isNone) = true then _ else _) = _
    rw [c, hv, ha]
    rfl
  unfold writeTaken
  rw [ht]
  show (if (k.op = 2 && k.last && !tooLong rq.path k.bytes.length && decide (k.bytes.length ≤ 294912)
      && (writeGate (testTake (testHeaded m d) rq k) 0 rq.path k).isNone) = true then some (0, testTake (testHeaded m d) rq k) else none) = _
  rw [test_takeHeaded m d rq k hp, test_gateHeaded, hk]
  rfl

theorem test_restoreTaken (h : Nat) : writeTaken (testImage h) (testRq (.slot 0)) testRestore = some (0, testTaken h) := by
  refine test_takenHeaded _ testKept (testRq (.slot 0)) testRestore rfl ?_ (by decide +kernel) (by decide +kernel) (by decide +kernel)
  have d1 : testKept.pathReady (.slot 0) = true := by decide +kernel
  have d2 : slotBusy testKept (.slot 0) = false := by decide +kernel
  unfold receive
  rw [show (testRq (.slot 0)).path = .slot 0 from rfl, d1, d2]
  rfl

/-- A restore that passes every check, from some image: its digest is a free value. -/
theorem test_restore_witness : ∃ h, writeTaken (testImage h) (testRq (.slot 0)) testRestore = some (0, testTaken h)
    ∧ cleanReads testPart (testTaken h) (restoreRanges testPart (testTaken h) 2 0) = true
    ∧ restoreStatus testPart (testTaken h) false 7 2 0 = stOK := by
  obtain ⟨h, hat, hk⟩ := test_header
  have hg := test_groves h hk
  obtain ⟨hd, hb, ht⟩ := hk
  have h1 : bits h 576 64 = 0 := by rw [hb 576 64 (by decide)]; decide +kernel
  have h2 : bits h 384 16 = 1 := by rw [hb 384 16 (by decide)]; decide +kernel
  have h3 : bits h 0 336 = 0 := by rw [hb 0 336 (by decide)]; decide +kernel
  have h4 : bits h 376 8 = 1 := by rw [hb 376 8 (by decide)]; decide +kernel
  have h5 : bits h 400 16 = 0 := by rw [hb 400 16 (by decide)]; decide +kernel
  have hbody : bodyAt (testTaken h) 0 = [] := by
    unfold bodyAt
    rw [hat, h1]
    rfl
  have hx := test_headed (testJobOpen.mem.mem.writeNat 0#8 0 128 h) (testTake testKept (testRq (.slot 0)) testRestore)
  rw [← test_takeHeaded _ _ _ _ rfl] at hx
  change (testTaken h).works 4 = _ ∧ memSize testPart (testTaken h) = _ ∧ cleanReads testPart (testTaken h) = _
    ∧ ckptRegion (testTaken h) = _ ∧ (testTaken h).jobRec = _ ∧ (testTaken h).jobAcn = _ ∧ (testTaken h).colls = _ at hx
  obtain ⟨c1, c2, c3, c4, c5, c6, c7⟩ := hx
  refine ⟨h, test_restoreTaken h, ?_, ?_⟩
  · unfold restoreRanges restoreOff
    dsimp only
    rw [if_pos rfl, hat, h1, c1, c2, c3, c4]
    decide +kernel
  · unfold restoreStatus restoreOff
    dsimp only
    rw [if_pos rfl, hbody, hat, hd, hg, h1, h2, h3, h4, h5]
    simp only [bne_self_eq_false, List.any_nil, Bool.or_false, Bool.false_or, Bool.false_and, c1, c2, c5, c6, c7]
    decide +kernel

/-- The live device in a fixed-cycle state. -/
def testFcm (n : Nat) (d : Dev) : Dev := { d with modes := { d.modes with fcm := n } }

/-- The live device that follows a pace source, with its pace unit changed. -/
def testPace (source : Nat) (f : Pace → Pace) : Dev := let d := testOpen.wr 0x8000 1 0 source; { d with pace := f d.pace }

theorem test_modesAndCheckpointsComplete_witness :
    testWrite testOpen (Call.write 0x8400 0 (fcmCtrlBytes 1 5)) (fun d => d.modes.fcm == 0 && schedFree d == some 0) = true
    ∧ testWrite (testFcm 2 testOpen) (Call.write 0x8400 0 (fcmCtrlBytes 2 5)) (fun d => d.modes.fcm == 2 && schedFree d == some 0) = true
    ∧ testWrite testJobOpen (Call.write 0x8500 2 (ckptCtrlBytes 7 1 5)) (fun d => (d.jobRec 7).isSome && schedFree d == some 0) = true
    ∧ testWrite testJobOpen (Call.write 0x8500 2 (ckptCtrlBytes 7 2 5)) (fun d => (d.jobRec 7).isSome && schedFree d == some 0) = true
    ∧ (let v : Saving := ⟨7, false, { Image.none with groves := [(0, Grove.init)] }⟩
       let d := testFcm 0 { testGrove id with modes := { testLive.modes with saving := [v] } }
       d.modes.saving = [v] ∧ d.runs domArc = true ∧ (d.inFcm = true ∨ d.spares.failed = []) ∧ stepsOut d v.image = false
         ∧ (let d1 := { d with modes := { d.modes with saving := [] } }
            cleanReads testPart d1 (savedRanges testPart d1 v.image) = true
              ∧ d1.mem.poison = [] ∧ d1.mem.copyPoison = [])) := by
  repeat' apply And.intro
  all_goals decide +kernel

theorem test_writePoison_none (p : Part) (d : Dev) (a n : Nat) (h : d.mem.poison = []) (hc : d.mem.copyPoison = [])
    (hs : ∀ k, stackFailed d k = false) : writePoison p d a n = false := by
  have hs2 : ∀ k, d.mem.st.get 0 k ≠ 4 := fun k => of_decide_eq_false (hs k)
  have hd : ∀ w, stackDead p d w = false := fun w => by unfold stackDead; simp [hs2]
  unfold writePoison wordPoisoned
  simp [h, hc, hd]

theorem test_noneFailed (k : Nat) : stackFailed testLive k = false := by
  show decide ((Tbl.find? [(0, 3), (1, 3), (2, 3), (3, 3), (4, 3), (5, 3), (6, 3), (7, 3)] k).getD 0 = 4) = false
  unfold Tbl.find? Tbl.find? Tbl.find? Tbl.find? Tbl.find? Tbl.find? Tbl.find? Tbl.find? Tbl.find?
  repeat' split
  all_goals rfl

theorem test_stackUpkeepComplete_witness :
    (testLive.runs (domMem 7) = true ∧ testLive.mem.st.get 0 7 = 3 ∧ testLive.inFcm = false ∧ 7 < testPart.stacks)
    ∧ (testLive.runs domXbar = true ∧ (testFcm 2 testLive).inFcm = true)
    ∧ (scrubRuns testPart testLive = true ∧ fxIsWrite (.corrected 0 1) = false)
    ∧ ((85 : Int) < 86 ∧ (82 : Int) < 83)
    ∧ (testLive.runs domXbar = true ∧ testLive.works 6 = true ∧ testLive.buf.walking = false)
    ∧ scrubRuns testPart (testFcm 2 testLive) = false
    ∧ ({ testLive with buf := { testLive.buf with walking := true } }).buf.walking = true
    ∧ (let r : CellRec := ⟨2 ^ 255, false, false⟩
       let d := { testOpen with buf := { testOpen.buf with leaks := [⟨2097151, 1, 0, 0⟩], cells := [(2097151, r)] } }
       testWrite d (Call.write 0x3010 5 (toBytes 4 (2097151 * 256) ++ toBytes 1 255 ++ List.replicate 3 0)) (fun d =>
         d.buf.leaks.any (fun l => l.cell = 2097151) && (liveRefs d).all (fun x => x.2 != 2097151) && d.buf.cells.find? 2097151 == some r
           && r.owners.testBit 255) = true) := by
  repeat' apply And.intro
  all_goals decide +kernel

theorem test_paceEventsComplete_witness :
    (let d := testPace 1 (fun x => { x with calSent := true, pending := [⟨5, 0, false⟩], unlaunched := [⟨5, 0, false⟩] })
     let upW := bits (paceWordOf (2 ^ 64 - 1) 65535 false) 80 12
     let upC := bits (paceWordOf 0 0 true) 64 28
     let w := wordAs (2 ^ 64 - 1) 65535 upW
     let cal := calAs 0 upC
     d.runs domPace = true ∧ paceSource d = 1 ∧ wordCal w = false ∧ wordReservedOk w = true ∧ wordCrcOk w = true
       ∧ wordCal cal = true ∧ wordReservedOk cal = true ∧ wordCrcOk cal = true ∧ d.pace.edgeAt = 0
       ∧ wordCrcOk (wordAs (2 ^ 64 - 2) 65535 upW) = false ∧ wordCal (wordAs (2 ^ 64 - 2) 65535 upW) = false
       ∧ wordCrcOk (calAs 1 upC) = false ∧ wordCal (calAs 1 upC) = true
       ∧ lineOk d ⟨true, 64⟩ = true ∧ lineOk d ⟨true, 63⟩ = false ∧ lineOk d ⟨false, 64⟩ = false
       ∧ outFree d = true ∧ 0 ≤ d.cycle + paceLead d
       ∧ d.pace.calSent = true ∧ d.pace.pending = [⟨5, 0, false⟩] ∧ 0 ≤ d.cycle
       ∧ d.pace.unlaunched = [⟨5, 0, false⟩])
    ∧ (let d := (testPace 2 id).wr 0x8001 2 0 5
       testPart.hasLink 64 = true ∧ d.runs domXbar = true ∧ d.works 6 = true ∧ paceSource d = 2 ∧ d.rd 0x8001 2 0 ≠ 0xFFFF
         ∧ paceTop d < 2 ^ 64 - 1)
    ∧ (let d := testPace 3 (fun x => { x with trigger := [1] })
       d.pace.trigger = [1] ∧ d.runs domPace = true ∧ paceSource d = 3 ∧ spacingOk d = true ∧ paceTop d < 1)
    ∧ (let d := testPace 2 (fun x => { x with calWaits := true })
       d.pace.unlaunched = [] ∧ d.runs domPace = true ∧ outFree d = true ∧ d.pace.calWaits = true)
    ∧ (let d := testPace 2 (fun x => { x with ptp := { x.ptp with sent := some (65535, 0) } })
       d.runs domFnet = true ∧ d.rd 0x8200 3 0 = 0 ∧ d.pace.ptp.sent = some (65535, 0)) := by
  repeat' apply And.intro
  all_goals decide +kernel

theorem test_paceWritesComplete_witness :
    testWrite (testPace 0 id) (Call.write 0x8000 1 (toBytes 1 2)) (fun d => paceSource d != 2) = true
    ∧ testWrite ((testPace 0 id).wr 0x8001 2 0 0) (Call.write 0x8000 1 (toBytes 1 3)) (fun d =>
        d.rd 0x8001 2 0 == ownHome d && paceSource d != 3) = true
    ∧ testWrite (testPace 0 id) (Call.write 0x8000 3 (toBytes 8 (2 ^ 64 - 1))) (fun d =>
        paceSource d == 0 && decide (d.pace.count ≤ 2 ^ 64 - 1)) = true
    ∧ testWrite (testPace 3 id) (Call.write 0x8000 4 (toBytes 8 1)) (fun d =>
        paceSource d == 3 && decide (d.pace.trigger.foldl max (paceTop d) < 1)) = true
    ∧ testWrite (testPace 2 id) (Call.write 0x8000 5 (toBytes 1 1)) (fun d => decide (2 ≤ paceSource d)) = true
    ∧ (let r := mkSched 2 9 0 31 false
       testWrite testOpen ⟨2, 0x8100, 0, 32 * 255, true, 32, 0, toBytes 32 r⟩ (fun d =>
         schedAction (schedRec d 255) == 0 && r != schedRec d 255 && schedStatus testPart d r == stOK
           && mkSched (schedAction r) (schedTarget r) (schedJob r) (schedArg r) false == r) = true
       ∧ testWrite (testOpen.wr 0x8100 0 255 r) (Call.write 0x8100 1 (toBytes 1 255)) (fun d =>
         schedAction (schedRec d 255) != 0 && !schedDev (schedRec d 255) && !firesNow d 255) = true
       ∧ testWrite (let e := testOpen.wr 0x8100 0 255 r; { e with pace := { e.pace with edgeAt := e.cycle + 1, fired := [255] } })
           (Call.write 0x8100 1 (toBytes 1 255)) (fun d => !schedDev (schedRec d 255) && firesNow d 255) = true)
    ∧ testWrite testOpen (Call.write 0x8200 1 (toBytes 8 (2 ^ 64 - 1))) (fun d => d.pace.wallState != 2) = true := by
  repeat' apply And.intro
  all_goals decide +kernel

/-- The live device with link 63 in a mode (1 LFP, 2 Ethernet) and a state. -/
def testLink (mode : Nat) (st : LSt) (f : Link → Link) : Dev :=
  let d := testOpen.wr 0x2001 0 63 mode
  d.setLink 63 (f { d.link 63 with st := st })

/-- A minimal frame, and what comes with it over link 63. -/
def testFrame : Frame := ⟨1, 6, 0, 0, 0, 0, 0, 0, 1, 0, 0, 0, 0, 0, []⟩
def testRx : RxInfo := ⟨0, frameCrc testFrame 0, ⟨0, 0, 0⟩, false, 0, 1, [], none⟩

/-- A copy of it kept for retry under LSEQ 255. -/
def testSent : Sent := ⟨255, 6, ⟨testFrame, false, [], 0, false, 0, none, false, none⟩⟩

theorem test_linkControlCompletes_witness :
    testPart.hasLink 63 = true
    ∧ testWrite (testLink 1 .disabled id) (Call.write 0x2001 1 (linkCtrlBytes 63 1)) (fun d =>
        (d.link 63).st == .disabled && d.linkMode 63 != 0) = true
    ∧ testWrite (testLink 1 .failed id) (Call.write 0x2001 1 (linkCtrlBytes 63 1)) (fun d => (d.link 63).st == .failed && d.linkMode 63 != 0) = true
    ∧ testWrite (testLink 1 .up id) (Call.write 0x2001 1 (linkCtrlBytes 63 2)) (fun _ => true) = true
    ∧ testWrite (testLink 1 .up id) (Call.write 0x2001 1 (linkCtrlBytes 63 3)) (fun d => (d.link 63).st != .disabled) = true
    ∧ testWrite (testLink 1 .degraded id) (Call.write 0x2001 1 (linkCtrlBytes 63 4)) (fun d =>
        (d.link 63).st == .degraded && d.linkMode 63 == 1) = true
    ∧ testWrite (testLink 1 .up id) (Call.write 0x2001 1 (linkCtrlBytes 63 5)) (fun _ => true) = true := by
  repeat' apply And.intro
  all_goals decide +kernel

theorem test_linkBringUpCompletes_witness :
    (let d := testLink 1 .training id
     portRuns d 63 = true ∧ isEthernet d 63 = false ∧ (d.link 63).st = .training ∧ (d.link 63).tries + 1 < 3)
    ∧ (let d := testLink 1 .qualifying (fun l => { l with full := true })
       (d.link 63).st = .qualifying ∧ (d.link 63).full = true ∧ isEthernet d 63 = false ∧ (∀ b ∈ [0, 0, 0, 0], b ≤ d.rd 0x2001 3 0))
    ∧ (let d := testLink 1 .degraded (fun l => { l with restoring := true })
       (d.link 63).st = .degraded ∧ (d.link 63).restoring = true)
    ∧ (let d := testLink 1 .handshake id
       (d.link 63).st = .handshake ∧ ((d.link 63).hs.put 18 (some 7)).get none 0 = none)
    ∧ (let d := testLink 1 .handshake (fun l => { l with hs := (List.range 18).map (fun k => (k, some (if k = 2 then 256 else 0))) })
       let hs := (d.link 63).hs.put 18 (some 0)
       let d1 := d.setLink 63 { d.link 63 with hs := hs }
       let d2 := d1.setLink 63 { d1.link 63 with hs := hs, peer := 0, peerMode := 1, known := true }
       (∀ k, k < 19 → hs.get none k ≠ none) ∧ bits 0 16 8 = d1.plane ∧ 1 = d1.linkMode 63 ∧ roleClash d2 63 = false) := by
  repeat' apply And.intro
  all_goals decide +kernel

theorem test_linkRetryAndLanesComplete_witness :
    (let d := testLink 1 .up (fun l => { l with replay := [testSent], rxLanes := 15, txLanes := 15 })
     let l := d.link 63
     lfpLive d 63 = true ∧ firstIx (fun x => x.lseq = 255) l.replay 0 = some 0 ∧ l.retries < d.rd 0x2003 1 0 ∧ l.isFenced = false
       ∧ l.replay ≠ [] ∧ l.rxLanes = 15 ∧ l.txLanes = 15)
    ∧ (let d := testLink 1 .up (fun l => { l with nakSent := true }); lfpLive d 63 = true ∧ (d.link 63).nakSent = true)
    ∧ (let d := testLink 1 .degraded (fun l => { l with txLanes := 7 }); lfpLive d 63 = true ∧ (d.link 63).txLanes.testBit 3 = false)
    ∧ (let d := testLink 1 .up id
       63 < testPart.links ∧ lfpLive d 63 = true ∧ d.runs (domPort (63 / 8)) = true ∧ bits (7 * 2 ^ 56 + 0x302) 56 8 = 7
         ∧ bits (7 * 2 ^ 56 + 0x302) 0 8 = 2 ∧ bits (7 * 2 ^ 56 + 0x302) 8 8 < 4 ∧ bits (7 * 2 ^ 56 + 1) 0 8 = 1 ∧ 7 < bits (2 ^ 59) 56 8) := by
  repeat' apply And.intro
  all_goals decide +kernel

theorem test_linkFramesComplete_witness :
    (let d := testLink 1 .up id
     lfpLive d 63 = true ∧ testRx.lseq = (d.link 63).lseqRx ∧ frameCrc testFrame testRx.len = testRx.crc ∧ testRx.fec.uncorr = 0)
    ∧ (let d := { testLive with sw := { testLive.sw with fcmHeld := [(63, testFrame, ⟨0, none, []⟩)] } }
       d.sw.fcmHeld.find? (fun x => x.1 = 63 && (!d.inFcm || fcmFree d x)) = some (63, testFrame, ⟨0, none, []⟩) ∧ d.inFcm = false)
    ∧ (let d := testFcm 2 { testLive with cycle := 11, sw := { testLive.sw with fcmHeld := [(63, testFrame, ⟨0, none, []⟩)] } }
       d.inFcm = true ∧ fcmXbar d % 16 = 63 / 8 ∧ (fcmReady d (63 / 8)).head? = some 63
         ∧ d.sw.fcmHeld.find? (fun x => x.1 = 63 && (!d.inFcm || fcmFree d x)) = some (63, testFrame, ⟨0, none, []⟩))
    ∧ (let d := { testLive with sw := { testLive.sw with streams := [(streamKey testLive 63 7, ⟨65535, [⟨2, none, []⟩]⟩)] } }
       let st := d.sw.streams.get Stream.init (streamKey d 63 7)
       (st.held.map (fun x => (x.sseq + 65536 - st.e) % 65536)).min? = some 3)
    ∧ (let d := testLive.wr 0x6001 0 63 2; d.runs domXbar = true ∧ d.works 6 = true)
    ∧ (lfpLive (testLink 1 .up id) 63 = true ∧ ¬ ((testRx.lseq + 1 = ((testLink 1 .up id).link 63).lseqRx))) := by
  repeat' apply And.intro
  all_goals decide +kernel

/-- Link 62 toward a neighbor of the row and an endpoint's link 63, both up with four lanes; port set 5 is link 63. -/
def testTwoLinks : Dev :=
  let d := ((((testOpen.wr 0x2001 0 62 1).wr 0x2001 0 63 1).wr 0x6001 0 62 2).wr 0x6001 0 63 1).wr 0x6004 0 5 (2 ^ 63)
  let up := fun (d : Dev) n => d.setLink n { d.link n with st := .up, rxLanes := 15, txLanes := 15, credFloor := [(3, 1)] }
  up (up d 62) 63

/-- A UNICAST frame for port set 5 of this device. -/
def testUni : Frame := { testFrame with ty := 0x20, vc := 3, plane := testOpen.plane, drow := testOpen.row, dcol := testOpen.col, dpset := 5 }

/-- R277, R280: a frame whose CRC fails after its copy began on link 63 gets a NAK, and that copy ends with POISON = 1. -/
theorem test_cutShortPoisons :
    (match exec (.lfpFrameRx 62 testUni { testRx with crc := frameCrc testUni 0 + 1, under := [63] }) ⟨testPart, testTwoLinks, []⟩ with
     | .next t => (match t.dev.out with
                   | .control 62 2 0 :: .frame 63 g 0 true :: _ => g.dpset == 5 | _ => false)
                  && (t.dev.link 63).ctr.get 0 11 == 1 && (t.dev.link 62).ctr.get 0 7 == 1 && t.dev.buf.cells.length == 1
     | _ => false) = true := by decide +kernel

/-- R241: a frame whose only cell failed is not forwarded, and the cell is retired. -/
theorem test_failedCellRetires :
    (match exec (.lfpFrameRx 62 testUni { testRx with crc := frameCrc testUni 0, badCell := some 0 }) ⟨testPart, testTwoLinks, []⟩ with
     | .next t => t.dev.buf.retired.length == 1 && t.dev.buf.cells.isEmpty && (t.dev.eq 63 6).fifo.isEmpty && (t.dev.link 62).ctr.get 0 7 == 1
                  && (match t.dev.out with | .frame _ _ _ _ :: _ => false | _ => true)
     | _ => false) = true := by decide +kernel

theorem test_poisonedCopiesLeaveMarked_witness :
    (let x := { testSent.copy with poison := true }; x.eth = false ∧ x.poison = true)
    ∧ (let x := { testSent.copy with poison := true, eth := true, f := { testFrame with payload := [1, 2, 3, 4, 5] } }
       x.f.payload = [1] ++ [2, 3, 4, 5] ∧ [2, 3, 4, 5].length = 4 ∧ ethBytes x = [1, 0xFD, 0xFC, 0xFB, 0xFA])
    ∧ testSent.copy.poison = false := by decide +kernel

/-- R280: a marked Ethernet copy leaves with its FCS complemented and counts in POISONED_TX. -/
theorem test_markedEthernetCopy :
    (let x := { testSent.copy with poison := true, eth := true, f := { testFrame with payload := [1, 2, 3, 4, 5] } }
     let t := startFrame (testLink 2 .up id) 63 0 x []
     t.out.contains (.ethFrame 63 [1, 0xFD, 0xFC, 0xFB, 0xFA]) && (t.link 63).ctr.get 0 11 == 1) = true := by decide +kernel

theorem test_ethernetFramesComplete_witness :
    (let d := testLink 2 .up (fun l => { l with xoff := 128 })
     let l := d.link 63
     testPart.hasLink 63 = true ∧ portRuns d 63 = true ∧ isEthernet d 63 = true ∧ l.live = true ∧ l.isFenced = false ∧ l.carries = true
       ∧ l.xoff.testBit 7 = true)
    ∧ (testLive.runs domXbar = true ∧ testLive.works 6 = true) := by
  repeat' apply And.intro
  all_goals decide +kernel

theorem test_ethernetFramesComplete_tables_witness :
    testWrite testOpen (Call.write 0x2012 2 (toBytes 2 0xFFFF)) (fun _ => true) = true
    ∧ testWrite testOpen ⟨2, 0x2020, 0, 4 * 63, true, 4, 0, toBytes 4 16777216⟩ (fun _ => true) = true := by
  repeat' apply And.intro
  all_goals decide +kernel

theorem test_egressCompletes_witness :
    (let d := testLink 2 .up id
     portRuns d 63 = true ∧ (d.link 63).carries = true ∧ isEthernet (settleElig (readFails d 63 none) 63) 63 = true)
    ∧ (let d := testLink 1 .up (fun l => { l with replay := List.replicate 64 testSent })
       let s := settleElig (readFails d 63 none) 63
       portRuns d 63 = true ∧ (d.link 63).carries = true ∧ isEthernet s 63 = false ∧ 64 ≤ (s.link 63).replay.length)
    ∧ (let d := testLink 1 .up (fun l => { l with resend := [testSent.copy], credFloor := [(6, 1)] })
       let s := settleElig (readFails d 63 none) 63
       portRuns d 63 = true ∧ (d.link 63).carries = true ∧ isEthernet s 63 = false ∧ (s.link 63).replay.length < 64
         ∧ (s.link 63).resend = [testSent.copy] ∧ keptTurn s 63 testSent.copy = true)
    ∧ (let d := testLink 1 .up (fun l => { l with resend := [testSent.copy] })
       let s := settleElig (readFails d 63 none) 63
       portRuns d 63 = true ∧ (d.link 63).carries = true ∧ isEthernet s 63 = false ∧ (s.link 63).replay.length < 64
         ∧ (s.link 63).resend = [testSent.copy] ∧ keptTurn s 63 testSent.copy = false)
    ∧ (let d := testLink 1 .up id
       let s := settleElig (readFails d 63 none) 63
       isEthernet s 63 = false ∧ (s.link 63).replay.length < 64 ∧ (s.link 63).resend = [])
    ∧ (let d := testLive.setEq 63 15 { testLive.eq 63 15 with fifo := [testSent.copy] }
       d.runs domXbar = true ∧ (d.eq 63 15).fifo ≠ []) := by
  repeat' apply And.intro
  all_goals decide +kernel

/-- R270, R271: the flit control word of a frame of one granule, poisoned, LSEQ 255: SOF of granule 0, EOF, EOFG 0, POISON, LSEQ, CRC, each
at the place that R270's table gives it. -/
theorem test_fcwLayout :
    fcw (frameGranules testFrame 255 true) = 2 ^ 59 + 2 ^ 58 + 2 ^ 55 + 255 * 2 ^ 47 + frameCrc testFrame 0 * 2 ^ 15 := by decide +kernel

/-- R271: 65 bytes occupy two granules, the second padded with zero bytes; EOFG names it. -/
theorem test_padding :
    let gs := frameGranules { testFrame with payload := [7] } 0 false
    gs.length = 2 ∧ (gs.getD 1 idleGranule).bytes = 7 :: List.replicate 63 0 ∧ bits (fcw gs) 56 2 = 1 ∧ bits (fcw gs) 59 4 = 1 := by
  decide +kernel

/-- R271: a second frame that would end in the flit of the first one begins in the next flit. -/
theorem test_oneEndPerFlit :
    (linkFlits [(testFrame, 0, false), (testFrame, 1, false)]).map (fun x => (bits x.fcw 58 1, bits x.fcw 47 8)) = [(1, 0), (1, 1)] := by
  decide +kernel

/-- R275: a control word has its kind in its top byte; CTL is the control flit's top bit, and IDLE words fill it. -/
theorem test_controlFlit :
    controlWord 1 5 = 2 ^ 56 + 5 ∧ (controlFlit [1]).fcw = 2 ^ 63 ∧ (controlFlit [1]).bytes = 1 :: List.replicate 255 0 := by decide +kernel

/-- R271: the CRC-32 of IEEE 802.3 of the nine digits "123456789" is 0xCBF43926. -/
theorem test_crc32 : crc32 [0x31, 0x32, 0x33, 0x34, 0x35, 0x36, 0x37, 0x38, 0x39] = 0xCBF43926 := by decide +kernel

/-- R352: the CRC-16 of polynomial 0x1021 from 0xFFFF over the nine digits "123456789" is 0x29B1. -/
theorem test_crc16 : [0x31#8, 0x32, 0x33, 0x34, 0x35, 0x36, 0x37, 0x38, 0x39].foldl crc16Byte 0xFFFF = 0x29B1 := by decide +kernel

/-- R269: a message of RS(544,514) gets 30 parity symbols, and the codeword, as a polynomial, vanishes at the powers 0, 1 and 2 of the
primitive element. -/
theorem test_rsCodeword :
    let c := rsCodeword [513, 2, 1023]
    c.length = 33 ∧ ∀ r ∈ [1, 2, 4], c.foldl (fun acc s => gfMul acc r ^^^ s) 0 = 0 := by decide +kernel

/-- A grant of every right but the exact add on the first 4096 bytes to job 7. -/
def testGrant (ty : Nat) (rights : Nat) : Nat := pack [(64, 64, 4096), (128, 32, 7), (160, 4, rights), (168, 8, ty), (176, 1, 1)]

/-- A Canopy request of job 7 from device (0, 1) to the first line of this device. -/
def testCan (op ty : Nat) (bs : List Byte) : CanReq := ⟨.fabric 64, 0, 7, 5, op, 0, ty, 3, 2 ^ 64 - 1, 0, 1, 0, 0, bs⟩

/-- The live device in a mesh of 2 by 2 devices with that grant. -/
def testHome (v : Nat) : Dev := (testOpen.wr 0x6020 0 0 v).wr 0x6000 1 0 (2 + 2 * 256)

theorem test_routingAndJobsComplete_witness :
    testWrite { testOpen with sw := { testOpen.sw with stA := 1, stB := 0 } } (Call.write 0x6011 1 (toBytes 4 1 ++ toBytes 4 0 ++ toBytes 8 9))
      (fun d => swapStatus d 1 == stOK && schedFree d == some 0) = true
    ∧ (let d := { testLive with sw := { testLive.sw with stA := 2 } }
       d.runs domXbar = true ∧ epochState d 0 = 2 ∧ epochHeld d 0 = 0)
    ∧ (let r : JobRec := ⟨4095, 7, 1, true, true, 262143, 1, false⟩
       let v := jobImage r
       testWrite testOpen ⟨2, 0x6002, 0, 32 * 4095, true, 32, 0, toBytes 32 v⟩ (fun d => jobStatus testPart d 4095 v == stOK) = true
       ∧ testWrite (testOpen.wr 0x6002 0 4095 v) ⟨2, 0x6002, 0, 32 * 4095, true, 32, 0, toBytes 32 (jobImage { r with valid := false })⟩ (fun d =>
         jobValid (d.rd 0x6002 0 4095) && !jobHeld testPart d (jobOf (d.rd 0x6002 0 4095))) = true)
    ∧ (let recs := [testGrant 0 7]
       let bs := recs.flatMap (fun v => toBytes 32 v)
       testWrite testOpen ⟨2, 0x6020, 0, 32 * 1023, true, bs.length, 0, bs⟩ (fun d =>
         match putGrants testPart d 1023 recs with | .ok _ => true | .error _ => false) = true) := by
  repeat' apply And.intro
  all_goals decide +kernel

theorem test_fencesComplete_witness :
    (let f : FenceCmd := ⟨9, 1, 2, 0, 0, 0, 0, 65, 0, 0⟩
     testWrite testOpen (Call.write 0x6030 0 (toBytes 24 (fenceRec f))) (fun d =>
       let x := fenceOf (fenceRec f); !fenceBad testPart d x && !fenceSeen d x) = true)
    ∧ (let f : FenceCmd := ⟨9, 2, 1, 1, 0, 1, 1, 0, 0, 0⟩
       testWrite (testHome 0) (Call.write 0x6030 0 (toBytes 24 (fenceRec f))) (fun d =>
         let x := fenceOf (fenceRec f); !fenceBad testPart d x && !fenceSeen d x) = true
       ∧ testPart.hasLink 65 = true ∧ (testHome 0).runs domXbar = true ∧ (testHome 0).works 6 = true
       ∧ fenceBad testPart (testHome 0) f = false ∧ fenceSeen (testHome 0) f = false) := by
  repeat' apply And.intro
  all_goals decide +kernel

/-- What every Canopy clause asks. -/
def testCanOk (d : Dev) (r : CanReq) : Bool :=
  d.runs domXbar && d.works 8 && !d.isFenced r.srow r.scol && !homeDead testPart d r.caddr
    && homeDevice d (bits r.caddr 48 16) == (d.row, d.col) && !(bits r.caddr 48 16).testBit 15 && granted d r && !canLocked d r

theorem test_canopyRequestsComplete_witness :
    (let d := testHome (testGrant 0 7)
     let r := testCan 1 0 []
     testCanOk d r = true ∧ (canReads testPart d r (.corrected 0 1)).2 = false ∧ canPoison testPart (canReads testPart d r (.corrected 0 1)).1 r = none
       ∧ testCanOk (testFcm 2 d) r = true ∧ (canReads testPart (testFcm 2 d) r (.uncorrectable 0 1 [7])).2 = true)
    ∧ (∀ x ∈ [(2, 0, 64), (3, 0, 64), (0x10, 1, 8), (0x12, 1, 8), (0x13, 1, 8), (0x14, 1, 16), (0x15, 1, 8)],
        let r := testCan x.1 x.2.1 (List.replicate x.2.2 0)
        let d := testHome (testGrant 0 7)
        testCanOk d r = true ∧ (canReads testPart d r .clean).2 = false ∧ canPoison testPart (canReads testPart d r .clean).1 r = none)
    ∧ (let r := testCan 0x11 4 (List.replicate 8 0)
       let d := testHome (testGrant 4 8)
       testCanOk d r = true ∧ (canReads testPart d r .clean).2 = false ∧ canPoison testPart (canReads testPart d r .clean).1 r = none) := by
  repeat' apply And.intro
  all_goals decide +kernel

theorem test_canopyEndsComplete_witness :
    (let r : CanRsp := ⟨0, 7, 5, 0x81, 0, 65, 0, 1, 0, 2, []⟩
     testLive.runs domXbar = true ∧ testLive.works 6 = true ∧ r.dcol ≠ testLive.col
       ∧ testLive.isFenced r.srow r.scol = false ∧ r.sunit < testPart.links)
    ∧ (let r : CanRsp := ⟨0, 7, 5, 0x81, 0, 63, 0, 0, 0, 2, []⟩
       r.drow = testLive.row ∧ r.dcol = testLive.col ∧ r.sunit < 128 ∧ r.sunit < testPart.links ∧ testLive.isFenced r.srow r.scol = false)
    ∧ (let x : GroveReq := ⟨15, 4095, 0, true, 0, testCan 1 0 []⟩
       let d := testGrove (fun gr => { gr with reqs := [x] })
       let r : CanRsp := ⟨0, 7, 5, 0x81, 0, 128, 0, 0, 0, 2, []⟩
       r.drow = d.row ∧ r.dcol = d.col ∧ d.isFenced r.srow r.scol = false ∧ r.sunit - 128 < testPart.groves
         ∧ findReq (d.grove 0) 5 = some 0 ∧ (d.grove 0).reqs[0]? = some x ∧ x.e ≠ 16 ∧ x.live = true ∧ (d.grove 0).phase = .running)
    ∧ (∀ x ∈ [(⟨16, 3, 0, true, 0, testCan 1 0 []⟩ : GroveReq), ⟨15, 4095, 9, false, 0, testCan 1 0 []⟩],
       let d := testGrove (fun gr => { gr with phase := .idle, reqs := [x] })
       findReq (d.grove 0) 5 = some 0 ∧ (d.grove 0).reqs[0]? = some x ∧ (x.e = 16 ∨ x.live = false) ∧ (d.grove 0).phase = .idle)
    ∧ (let x := testCan 1 0 []
       let d := { testLive with sw := { testLive.sw with vc1Out := [{ x with sunit := 160 }] } }
       d.sw.vc1Out.find? (fun y => y.sunit = 160 && y.rtag = 5) = some { x with sunit := 160 }) := by
  repeat' apply And.intro
  all_goals decide +kernel

theorem test_telemetryCompletes_witness :
    (testLive.runs domTelem = true ∧ ((List.replicate 3 0 : List Nat).length = 3 ∧ (List.replicate 9 (0, 0)).length = 9
      ∧ (List.replicate 64 (0 : Int)).length = 64))
    ∧ testWrite testOpen (Call.write 0x9111 0 (toBytes 1 63)) (fun d => d.runs domTelem && d.health.snapBusy.isNone) = true
    ∧ ({ testLive with health := { testLive.health with snapBusy := some (3, Snap.empty) } }).health.snapBusy = some (3, Snap.empty) := by
  repeat' apply And.intro
  all_goals decide +kernel

theorem test_groveFailuresComplete_witness :
    (let d := (testGrove (fun gr => gr.setCtx 15 4095 { Ctx.free with st := .ready }))
     0 < testPart.groves ∧ d.runs domArc = true ∧ (d.grove 0).phase ≠ .lost ∧ d.boot.readyGroves.testBit 0 = true
       ∧ (∀ x ∈ d.spares.failed, x.g ≠ 0) ∧ d.inFcm = false ∧ (d.grove 0).paused = false ∧ d.role 0 ≠ 0
       ∧ ((d.grove 0).ctx 15 4095).st ≠ .free)
    ∧ (31 < testPart.groves ∧ testLive.role 31 = 0 ∧ (testLive.grove 31).paused = false ∧ (testLive.grove 31).phase ≠ .lost)
    ∧ (let d := { testLive with spares := { testLive.spares with failed := [⟨31, 1, 31, some 32⟩] } }
       d.spares.failed = [⟨31, 1, 31, some 32⟩] ∧ d.inFcm = false ∧ d.runs domArc = true ∧ (d.grove 31).phase ≠ .lost
         ∧ (∃ x ∈ d.spares.failed, x.g = 31)) := by
  repeat' apply And.intro
  all_goals decide +kernel

theorem test_flashAndBootComplete_witness :
    (flashRegion 0x021FFFFF = some 3
      ∧ testWrite testOpen (Call.write 0xA001 0 (toBytes 8 0x021FFFFF ++ [1])) (fun d => !hitsRunning d 0x021FFFFF 1
        && d.boot.flashOp.isNone && !flashAsmElsewhere d 0) = true)
    ∧ (0x021F0000 + 65536 ≤ 0x02200000 ∧ 0x021F0000 % 65536 = 0
      ∧ testWrite testOpen (Call.write 0xA001 1 (toBytes 4 0x021F0000 ++ toBytes 4 65536)) (fun d => !hitsRunning d 0x021F0000 65536
        && d.boot.flashOp.isNone && !flashAsmElsewhere d 0) = true)
    ∧ (let o : FlashOp := ⟨false, 0x021FFFFF, 1, [1], false⟩
       let d := testBoot (fun b => { b with flashOp := some o })
       d.runs domXspi = true ∧ d.boot.tailWait = [] ∧ d.boot.flashOp = some o ∧ o.resetAfter = false ∧ programMismatch (flashBytes d o.off o.len) o.data = none)
    ∧ (let o : FlashOp := ⟨true, 0x021F0000, 65536, [], true⟩
       let d := testBoot (fun b => { b with flashOp := some o })
       d.runs domXspi = true ∧ d.boot.tailWait = [] ∧ d.boot.flashOp = some o ∧ o.resetAfter = true)
    ∧ (let r : TailRec := ⟨4, 1, 2, true⟩
       let d := testBoot (fun b => { b with tailWait := [r] })
       d.runs domXspi = true ∧ d.boot.tailWait = [r])
    ∧ testWrite { testOpen with boot := { testOpen.boot with flashOp := some ⟨true, 0x021F0000, 65536, [], false⟩ } } (bootCtrl 1)
        (fun d => d.boot.flashOp == some ⟨true, 0x021F0000, 65536, [], false⟩) = true
    ∧ testWrite testOpen (bootCtrl 1) (fun d => d.boot.flashOp.isNone) = true
    ∧ testWrite testOpen (bootCtrl 2) (fun _ => true) = true
    ∧ testWrite testOpen (bootCtrl 3) (fun _ => true) = true
    ∧ testWrite { testOpen with boot := { testOpen.boot with recovery := true } } (bootCtrl 4) (fun d => d.boot.recovery) = true := by
  repeat' apply And.intro
  all_goals decide +kernel

theorem test_attestationCompletes_witness :
    (testLive.runs domSec = true ∧ testLive.isReady 3 = true ∧ testLive.boot.rails = true)
    ∧ (let d := testLive.setSpdm 4095 { testLive.spdm 4095 with negotiated := true, long := [1], l2 := some 7 }
       (d.spdm 4095).negotiated = true ∧ (d.spdm 4095).long ≠ [] ∧ (d.spdm 4095).l2 = some 7)
    ∧ spdmRule testLive (testLive.spdm 0) [0x12#8, 0x81#8] (spdmParse [0x12#8, 0x81#8]) = .error 4
    ∧ (match spdmRule testLive (testLive.spdm 0) [0x10#8, 0x84#8] (spdmParse [0x10#8, 0x84#8]) with | .ok _ => true | .error _ => false) = true := by
  repeat' apply And.intro
  all_goals decide +kernel

/-- A vendor-defined request with the IDs of SPDM_VENDOR_ID, whatever they are. -/
theorem test_vendorOk_witness : ∃ msg, vendorOk msg = true := by
  refine ⟨[0x12#8, 0xFE#8, 0, 0] ++ toBytes 2 (Config.spdmVendorId % 65536) ++ [2#8] ++ toBytes 2 (Config.spdmVendorId / 65536 % 65536), ?_⟩
  unfold vendorOk
  generalize Config.spdmVendorId = v
  have h2 : ∀ n, toBytes 2 n = [BitVec.ofNat 8 n, BitVec.ofNat 8 (n / 256)] := fun n => rfl
  simp [msgField, h2, ofBytes]
  omega

/-! ### Whole-machine statements and numbers -/

theorem test_stepTakesTheFrontCommand_witness : ({ State.reset with pending := [.paceVisible] }).pending = Instr.paceVisible :: [] := rfl

/-- A sound queue of two commands, and one command of each kind for the statement that says where commands stop. -/
theorem test_everyStepKeepsTheQueueSound_witness :
    (∀ c ∈ [Instr.stw 31, .linkFlightMeasure 65 9], c.wf testPart = true) ∧ (Instr.stw 32).wf testPart = false := by
  decide +kernel

theorem test_infinitiesConvert_witness : (Sys2Proof.Machine.Num.inf true).isFin = false := rfl

theorem test_zeroBlocksKeepTheirSigns_witness : ∀ x ∈ [Sys2Proof.Machine.Num.fin true 0 1, .fin false 0 1], x.isZero = true := by decide +kernel

theorem test_codesConvertToThemselves_witness : ∀ k ∈ List.range 9, (decodeNum (fmtOf k) 1).isFin = true ∧ 1 < 2 ^ (fmtOf k).w := by decide +kernel

theorem test_exactSumsIgnoreOrder_witness :
    (∀ t ∈ [some (Sys2Proof.Machine.Num.fin false 3 2), none, some (.inf true)], onGrid 0 t)
    ∧ [some (Sys2Proof.Machine.Num.fin false 3 2), none, some (.inf true)].Perm [some (.inf true), some (Sys2Proof.Machine.Num.fin false 3 2), none] := by
  constructor
  · intro t ht
    simp only [List.mem_cons, List.not_mem_nil, or_false] at ht
    intro neg num den h
    rcases ht with rfl | rfl | rfl
    · injection h with h
      injection h with h1 h2 h3
      subst h2 h3
      decide +kernel
    · exact absurd h (by simp)
    · injection h with h
      exact absurd h (by simp)
  · decide +kernel

theorem test_exactSumsIgnoreGrouping_witness :
    [some (Sys2Proof.Machine.Num.fin false 3 2)].length + [some (Sys2Proof.Machine.Num.fin true 1 2)].length ≤ clsLimit 0
    ∧ inRange 0 (sumTerms (Acc.empty 0) ([some (Sys2Proof.Machine.Num.fin false 3 2)] ++ [some (Sys2Proof.Machine.Num.fin true 1 2)])).v = true
    ∧ (mergeAcc true (sumTerms (Acc.empty 0) [some (.inf false)]) (sumTerms (Acc.empty 0) [some (.inf true)])).any (fun x =>
        x.1.pinf && x.1.ninf && x.1.inv) = true := by
  repeat' apply And.intro
  all_goals decide +kernel

theorem test_stateImagesRestore_witness : (Acc.empty 2).cls ≤ 2 ∧ (Acc.empty 2).count < 2 ^ 64 ∧ inRange 2 (Acc.empty 2).v = true
    ∧ ¬ ((Acc.empty 2).nz = true ∧ (Acc.empty 2).pz = true) := by
  repeat' apply And.intro
  all_goals decide +kernel

theorem test_groveWorkStaysInItsGrove_witness : groveWorkOf (.compact 31 15 4095) = some 31
    ∧ ∃ t, exec (.compact 31 15 4095) ⟨testPart, testLive, []⟩ = .next t := ⟨rfl, ⟨_, rfl⟩⟩

theorem test_serviceCommandsFrame_witness : ∃ t, exec (.bar0BusySlotWrite 7) ⟨testPart, testLive, []⟩ = .next t := ⟨_, rfl⟩

theorem test_haltsKeepTheGrove_witness :
    let d := testWord (0xFF * 2 ^ 56)
    (0 < testPart.groves ∧ canFetch d 0 = true ∧ fetchWord d 0 = some (0xFF * 2 ^ 56) ∧ legalWord (0xFF * 2 ^ 56) = false)
    ∧ (let e := d.wrD 0 0x4104 0 0 1
       let size := bits (e.rd 0x4104 0 0) 0 4
       let head := fun (e : Dev) => (e.grove 0).gmem.readNat 0#8 (ringBase e 0) 4
       let tail := fun (e : Dev) => (e.grove 0).gmem.readNat 0#8 (ringBase e 0 + 4) 4
       let e1 := e.setGrove 0 { e.grove 0 with gmem := (e.grove 0).gmem.writeNat 0#8 (ringBase e 0) 4 2 }
       canFetch e 0 = true ∧ canFetch e1 0 = true ∧ size ≠ 0 ∧ (head e + 2 ^ 32 - tail e) % 2 ^ 32 ≠ 2 ^ size
         ∧ (head e1 + 2 ^ 32 - tail e1) % 2 ^ 32 = 2 ^ size)
    ∧ (let e := d.wrD 0 0x4107 0 0 (2 ^ 63)
       canFetch e 0 = true ∧ (e.rd 0x4107 0 0).testBit 63 = true ∧ traceAddr e 0 + 16 ≤ memSize testPart e
         ∧ hitFlaws testPart e true (traceAddr e 0) 16 = []) := by
  repeat' apply And.intro
  all_goals decide +kernel

theorem test_emptyQueueIdles_witness :
    (testLive.runs domArc = true ∧ arcEnabled testLive = true)
    ∧ (let d := { testLive with health := { testLive.health with throttle := 8 }, marks := [(0, 8)] }
       d.runs domArc = true ∧ arcEnabled d = false)
    ∧ Dev.init.runs domArc = false := by
  repeat' apply And.intro
  all_goals decide +kernel

/-- The live device is sound. -/
theorem testLive_sound : testLive.Sound :=
  ⟨fun _ => ⟨⟨rfl, rfl, rfl⟩, noFlags rfl⟩, ⟨rfl, rfl⟩,
    ⟨List.Pairwise.nil, List.nodup_nil, (by intro x hx; cases hx), (by intro x hx; cases hx), rfl⟩,
    ⟨Nat.le_refl _, List.Pairwise.nil, (by intro x hx; cases hx)⟩⟩

/-- So is one with grove 0 in work, where the grove is. -/
theorem testGrove_sound (f : Grove → Grove) (h : (f { Grove.init with phase := .running, ended := false }).Sound) : (testGrove f).Sound :=
  setGrove_sound (body_wr testLive 0x4100 0 0 1 |>.trans (body_wr _ 0x4100 1 0 7) |>.sound testLive_sound) (fun _ => h)

theorem testWord_sound (w : Nat) (h : w < 2 ^ 64) (h0 : 0 < w) : (testWord w).Sound :=
  testGrove_sound _ ⟨⟨rfl, rfl, by
    have : ¬BitVec.ofNat 64 w = 0#64 := fun e => by
      have := congrArg BitVec.toNat e
      simp only [BitVec.toNat_ofNat, Nat.mod_eq_of_lt h] at this
      change w = 0 at this
      omega
    simp [Tbl.wf, this]⟩, noFlags rfl⟩

/-- A sequencer's instruction in front, FSET of flag 3 by 1. -/
theorem witness_soundWork : let s : State := ⟨testPart, testWord (0x21 * 2 ^ 56 + 3 * 2 ^ 48 + 2 ^ 32), [.fset 0]⟩
    s.pending = [.fset 0] ∧ groveWorkOf (.fset 0) = some 0 ∧ s.dev.Sound ∧ (∃ t, step s = .next t)
      ∧ (((testDev (.fset 0) s.dev).grove 0).flag 3).c = 1 :=
  ⟨rfl, rfl, testWord_sound _ (by decide) (by decide), ⟨_, rfl⟩, by decide +kernel⟩

/-- A command that counts flag 5 completes: it is counted among the flag's setters. -/
theorem witness_soundCompletion :
    let d := testGrove (fun gr => (({ gr with imem := [(1, BitVec.ofNat 64 (2 ^ 57 + 2 ^ 19 + 5 * 2 ^ 11))] }.setFlag 5 ⟨0, 1, 0, 1⟩).setCtx 2 7
      { Ctx.free with st := .waitWrite, cmd := testCmd }))
    let h := (d.grove 0).head ((d.grove 0).ctx 2 7).cmd
    h.testBit 19 = true ∧ 0 < ((d.grove 0).flag (bits h 11 8)).s ∧ d.Sound
      ∧ ((testDev (.commandComplete 0 2 7) d).grove 0).flag 5 = ⟨1, 0, 0, 0⟩ := by
  refine ⟨by decide +kernel, by decide +kernel, testGrove_sound _ ?_, by decide +kernel⟩
  have k : ({ { Grove.init with phase := .running, ended := false } with
      imem := [(1, BitVec.ofNat 64 (2 ^ 57 + 2 ^ 19 + 5 * 2 ^ 11))] } : Grove).Sound := ⟨⟨rfl, rfl, by decide⟩, noFlags rfl⟩
  exact (k.setFlag 5 (x := ⟨0, 1, 0, 1⟩) (by decide)).of rfl rfl rfl

/-- A request of the last clause but one and a load, with nothing pending. -/
theorem witness_soundRequests : let d := { testLive with pace := { testLive.pace with count := 5 } }
    servedSoundly .paceVisible = true ∧ d.Sound ∧ (testDev .paceVisible d).pace.visible = 5 ∧ d.pace.pending = [] :=
  ⟨rfl, pace_sound testLive_sound ⟨by decide, List.Pairwise.nil, by intro x hx; cases hx⟩, by decide +kernel, rfl⟩

/-- A sound buffer of which two cells are taken for a frame on link 3: the lowest of bank 0, then of bank 1. -/
theorem witness_bufferKeepsCells : testLive.buf.Sound ∧ (allocFrame testLive (some 3) 2).any (fun x => x.1 = [0, 65536]) = true
    ∧ ∀ u : Dev, u.buf.Sound → (id u).buf.Sound :=
  ⟨testLive_sound.2.2.1, by decide +kernel, fun _ h => h⟩

/-! ### WellFormed refuses: one ill-formed command for each check -/

theorem test_wf_units : ∀ c ∈ [Instr.memoryTrained 8 true, .railFault 9 0, .junctionTempCross 42 0, .phaseFailed 9 0,
    .phaseFailed 1 (phasesFitted 1), .mgmtFailover 2, .bar0BusySlotWrite 8, .groveResetDone 32, .seqIllegal 32, .nop 32, .li 32,
    .issue 32, .waitCycleSample 32, .waitLimitExpiry 32 .sequencer, .groveStallDetect 32, .groveSubstituted 32 0, .groveFailed 0 0,
    .groveFailed 0 6, .sramUncorrectable 32 .other true], c.wf testPart = false := by decide +kernel

theorem test_wf_contexts : ∀ c ∈ [Instr.commandOpen 0 16, .commandOpen 32 0, .commandComplete 0 16 0, .copy 0 0 4096 .clean,
    .operandArrival 32 0 0, .vopAdd 0 16 0, .compact 0 0 4096, .send 32 0 0, .signal 0 16 0], c.wf testPart = false := by decide +kernel

theorem test_wf_links : ∀ c ∈ [Instr.linkTrainingEnd 128 true 0 0, .linkAck 128 0, .credit 0 8 0 0, .credit 0 0 2 0, .degrade 0 4 0,
    .restore 128 0 0, .mgmt 128 0, .laneFailure 0 4 0, .reseqTimeout 0 8, .pfcFrameRx 0 8 ⟨0, 0⟩, .ageMarkUpdate 0 16, .unicast 128 testFrame,
    .fcmFrameRelease 128, .epochDrained 2, .perBankRefresh 8 0, .perBankRefresh 0 12,
    .stackFailure 8 0 2, .stackFailure 0 0 4, .stackTemperatureCross 8 true 0], c.wf testPart = false := by decide +kernel

theorem test_wf_grade : (Instr.nop 24).wf ⟨.b, .b0, 0⟩ = false ∧ (Instr.canopyTimeout 159 0).wf ⟨.b, .b0, 0⟩ = false
    ∧ (Instr.canopyRsp ⟨0, 0, 0, 0, 0, 64, 0, 0, 0, 0, []⟩).wf ⟨.c, .b0, 0⟩ = false ∧ (Instr.junctionTempCross 38 0).wf ⟨.c, .b0, 0⟩ = false ∧ (Instr.nop 23).wf ⟨.b, .b0, 0⟩ = true := by decide +kernel

/-- The table gives no row bits. -/
theorem test_noWordSpellsACommand (n w : Nat) : decodeTableWord n w = none := rfl

/-! ### The spec's worked examples -/

/-- spec/03_exact_arithmetic.md, "overflow, NaN and cancellation": the dot product of BF16 vectors into FP32. -/
def testDot (a b : List Nat) (sat : Bool) : Nat × Nat :=
  let r := sealAcc (fmtOf 1) 0 sat (sumTerms (Acc.empty 1) ((a.zip b).map (fun x =>
    prodTerm (decodeNum (fmtOf 2) x.1) (decodeNum (fmtOf 2) x.2))))
  (r.1, r.2.flags)

theorem test_dot_overflow : testDot [0x7180, 0x4040, 0x3F80, 0x3FC0] [0x5380, 0x4000, 0x3F80, 0x4080] false = (0x7F800000, 0x05)
    ∧ testDot [0x7180, 0x4040, 0x3F80, 0x3FC0] [0x5380, 0x4000, 0x3F80, 0x4080] true = (0x7F7FFFFF, 0x85) := by decide +kernel

theorem test_dot_nan : testDot [0x7180, 0x4040, 0x7FC5, 0x3FC0] [0x5380, 0x4000, 0x3F80, 0x4080] false = (0x7FC00000, 0x20)
    ∧ testDot [0x7180, 0x4040, 0x7F85, 0x3FC0] [0x5380, 0x4000, 0x3F80, 0x4080] false = (0x7FC00000, 0x28) := by decide +kernel

theorem test_dot_cancels : testDot [0x7180, 0x4040, 0xF180, 0x3FC0] [0x5380, 0x4000, 0x5380, 0x4080] false = (0x41400000, 0) := by
  decide +kernel

/-- spec/02_number_formats.md, "one block in MXFP4 and in MXFE4". -/
def testBlock : List Sys2Proof.Machine.Num :=
  (List.range 32).map (fun i => if i = 7 then decodeNum (fmtOf 1) 0x42200000 else if i = 5 then .fin true 13 10
    else if i = 9 then .fin false 1 50 else .fin (i = 2 || i = 20) 0 1)

theorem test_block_mx : let b := encodeBlock (fmtOf 8) 0 false 0 testBlock
    b.scale = 0x82 ∧ b.esc = none ∧ b.t.under = 2
      ∧ toBytes 16 (packCodes 4 b.codes) = [0x00, 0x08, 0x80, 0x60, 0, 0, 0, 0, 0, 0, 0x08, 0, 0, 0, 0, 0] := by decide +kernel

theorem test_block_mxe : (encodeBlock (fmtOf 8) 0 false 3 testBlock).esc = some (7, 0x4220) := by decide +kernel

/-- spec/02_number_formats.md, SPLIT3's example. -/
theorem test_split3 : (split3Of 0x3FAAAAAB).map Prod.fst = [0x3FAA, 0x3BAA, 0x37AB] := by decide +kernel

/-- spec/12_routing_and_canopy.md, "exact-add from two sources", order 1: the word and the old value after X's first EXADD. -/
theorem test_exadd :
    let d := testHome (testGrant 5 8)
    let d1 := { d with mem := { d.mem with mem := d.mem.mem.writeN 0#8 0 (toBytes 4 0x3F800000) } }
    let x := canPerform d1 (testCan 0x11 5 (toBytes 8 0x4B800000))
    x.1.mem.mem.readNat 0#8 0 4 = 0x4B800000 ∧ x.2 = toBytes 8 0x3F800000 := by decide +kernel

/-- spec/16_dictionary_reference.md, the fence of R422 and the event it gives. -/
theorem test_fence_record : toBytes 24 (fenceRec ⟨0x102, 1, 1, 1, 0, 3, 7, 0, 0, 0⟩)
    = [2, 1, 0, 0, 1, 1, 1, 0, 0, 3, 7, 0, 0, 0, 0, 0, 0, 0, 0, 0, 0, 0, 0, 0] := by decide +kernel

theorem test_event_record :
    let e : Event := ⟨70101, 20000, 0, 0x6004, 0, 6, true, 0x6030, 0, 2 ^ 64 * fenceRec ⟨0x102, 1, 1, 1, 0, 3, 7, 0, 0, 0⟩⟩
    (toBytes 64 e.image).drop 32 = [0, 0, 0x30, 0x60, 0xD0, 0, 4, 0x60, 0, 0, 0, 0, 0, 0, 0, 0, 0x20, 0x4E, 0, 0, 0, 0, 0, 0, 0xD5, 0x11, 1,
      0, 0, 0, 0, 0] := by decide +kernel

/-- spec/05_stream_programs.md R108, R110: an instruction writes its destination, and s0 stays zero. -/
theorem test_add_wraps : let w := 0x03 * 2 ^ 56 + 3 * 2 ^ 51 + 1 * 2 ^ 46 + 2 * 2 ^ 41
    let d := testGrove (fun gr => { gr with imem := [(0, BitVec.ofNat 64 w)], regs := [(1, BitVec.ofNat 64 (2 ^ 64 - 1)), (2, 5)] })
    ((testDev (.add 0) d).grove 0).reg 3 = 4 ∧ ((testDev (.add 0) d).grove 0).pc = 1 := by decide +kernel

end
end

section
/-! SUPPORT. Where a command stops (spec/01_device_overview.md R1, R4, R10, R14, R18; log entry 4), and what follows for a step and
for a run. The key fact is `exec_actsAt_wf`: every command is one change of the device, made exactly at
units that the part has. -/

namespace Sys2Proof.Machine

open Sys2Proof

/-! ### Meanings that act at a unit -/

/-- `r` is one change of the device of `s`, made when `present` holds; otherwise it is the stop at an absent unit. -/
def ActsAt (present : Bool) (s : State) (r : Res) : Prop := ∃ f, r = liftAt s present f

theorem ActsAt.next {s : State} {r : Res} (h : ActsAt true s r) : ∃ d, r = .next { s with dev := d } := by
  obtain ⟨f, hf⟩ := h
  exact ⟨f s.part s.dev, hf.trans (liftAt_next s true f rfl)⟩

theorem ActsAt.fault {s : State} {r : Res} (h : ActsAt false s r) : r = .fault .noSuchUnit := by
  obtain ⟨f, hf⟩ := h
  exact hf.trans (liftAt_fault s false f rfl)

theorem liftAt_actsAt (s : State) (b : Bool) (f : Part → Dev → Dev) : ActsAt b s (liftAt s b f) := ⟨f, rfl⟩

/-- A meaning of the device as a whole names no unit that could be absent. -/
theorem next_actsAt (s : State) (d : Dev) : ActsAt true s (.next { s with dev := d }) := ⟨fun _ _ => d, rfl⟩

/-! ### The shared meanings -/

theorem seqRun_actsAt (g op : Nat) (s : State) (f : Part → Dev → Nat → Dev) :
    ActsAt (hasGrove s.part g) s (seqRun g op s f) := liftAt_actsAt ..

theorem groveWork_actsAt (g job coll : Nat) (s : State) (f : Part → Run → Run) :
    ActsAt (hasGrove s.part g) s (groveWork g job coll s f) := liftAt_actsAt ..

theorem engineStep_actsAt (g e c opc : Nat) (sub : Option Nat) (s : State) (f : Stp → StepRes) :
    ActsAt (hasCtx s.part g e c) s (engineStep g e c opc sub s f) := liftAt_actsAt ..

theorem scaledStep_actsAt (g e c opc : Nat) (sub : Option Nat) (s : State) (vals : Stp → List Num) (f : Stp → StepRes) :
    ActsAt (hasCtx s.part g e c) s (scaledStep g e c opc sub s vals f) := liftAt_actsAt ..

theorem atomicRun_actsAt (op g e c : Nat) (s : State) : ActsAt (hasCtx s.part g e c) s (atomicRun op g e c s) :=
  liftAt_actsAt ..

/-- The link a request or chunk came by is there exactly when the part has it; what the device hands itself came by none. -/
theorem viaLink_all_hasLink (p : Part) (v : Via) : (viaLink v).all p.hasLink = hasVia p v := by
  cases v <;> rfl

theorem chunkArr_eq_viaLink (c : Chunk) : chunkArr c = viaLink c.via := by
  unfold chunkArr
  cases c.via <;> rfl

theorem chunkCommand_actsAt (kinds : Nat → Bool) (c : Chunk) (s : State) (f : Part → Dev → Dev) :
    ActsAt (hasVia s.part c.via) s (chunkCommand kinds c s f) := by
  rw [← viaLink_all_hasLink, ← chunkArr_eq_viaLink]
  exact liftAt_actsAt ..

theorem canCommand_actsAt (ops : Nat → Bool) (r : CanReq) (fx : StackFx) (s : State) :
    ActsAt (hasVia s.part r.via) s (canCommand ops r fx s) := by
  rw [← viaLink_all_hasLink]
  exact liftAt_actsAt ..

/-! ### The meanings that check their units in another form than `Instr.wf` -/

theorem execCollSubmitFrame_actsAt (via : Via) (row col acn : Nat) (desc : List Byte) (s : State) :
    ActsAt (hasVia s.part via) s (execCollSubmitFrame via row col acn desc s) := by
  cases via <;> exact liftAt_actsAt ..

/-- A response checks the link of its unit before the grove. -/
theorem execCanopyRsp_actsAt (r : CanRsp) (s : State) :
    ActsAt (hasUnit s.part r.sunit && decide (r.sunit < 128 → r.sunit < s.part.links)) s (execCanopyRsp r s) := by
  rw [Bool.and_comm]
  exact liftAt_actsAt ..

/-- FENCE leaves OP 2 to UNFENCE's row; both arms are of the device as a whole. -/
theorem execFence_actsAt (rq : Rq) (c : FenceCmd) (s : State) : ActsAt true s (execFence rq c s) := by
  unfold execFence
  split
  · exact next_actsAt ..
  · exact next_actsAt ..

/-! ### Every command -/

/-- Every command acts exactly at units that the part has: the cases go by what kind of unit the command names, and each is the law
of the shared meaning its row runs. -/
theorem exec_actsAt_wf (c : Instr) (s : State) : ActsAt (c.wf s.part) s (exec c s) := by
  cases c with
  -- The device as a whole: start-up, supplies, pins and flash.
  | powerUp | bootRefclkReady | selftestEnd | pcieLinkUp | plcaJoin | bootWatchdog | resetNAssert | resetNRelease
  | refclkLoss | refclkRestored | inputOutOfRange | inputRangeRecovered | inputShutdown | inputRestored | inputPowerCycle
  | throttleStep | perstAssert | perstRelease | pcieLinkDown | fieldNetworkLinkDown | flashWrite | flashErase
  | flashOpComplete | bootReset | verifyBankA | verifyBankB | attemptReset | jtagInstructionLoad => exact next_actsAt ..
  -- Security.
  | getVersion | getCapabilities | negotiateAlgorithms | getDigests | getCertificate | challenge | getMeasurements | pqSign
  | pqCert | chunkSend | chunkGet => exact next_actsAt ..
  -- The dictionary, events and telemetry.
  | describe | evqRead | logRead | dictWrite | octSegment | eventConsumed | evqNoticeDelayed | malformedDatagram
  | discoveryRead | unlock | unlockTimeout | evqFlush | evqOwnerChange | qhwmRead | bufFreeLwmRead | ctxInUseHwmRead
  | marginTimingRead | sampleRead | marginMeasure | samplerTick | telemSnapNow | snapshotCopied => exact next_actsAt ..
  -- Groves by way of the dictionary, modes, memory and the packet buffer.
  | groveCtrlStart | groveCtrlHalt | groveCtrlReset | instrWrite | instrLoadMem | instrLoadDone | bankSwitch
  | scaleCtxClear | externalSet | fcmEnter | fcmLeave | ckptCheckpoint | ckptCheckpointStop | checkpointSaved
  | ckptRestore | fcmRefreshWindow | scrubRead | auditWalkStart | auditWalkEnd | bufReclaim => exact next_actsAt ..
  -- Collectives, links, routing, jobs, grants and fences by way of the dictionary, and timers.
  | collSubmit | ackBundleTimer | collProgressTimeout | slotAging | sliceIdleExpiry | moeRouteRelease | filterSetCommit
  | filterSetUncommit | linkEnable | linkDisable | linkRetrain | linkRestoreLane | linkEraseCoefficients
  | ethMacAgeExpiry | ethMacFlush | mirrorNWrite | adaptSample | epochSwap | jobCreate | jobDelete
  | jobAdaptiveUpdate | grantWrite | unfence => exact next_actsAt ..
  | fence => exact execFence_actsAt ..
  -- Pace and time.
  | paceWord | calWord | paceFlightMeasure | paceEdge | paceVisible | paceInFault | paceSourceWrite | paceLoad | paceStep
  | paceCal | paceWordLaunch | paceTriggerRelease | schedArm | schedCancel | wallclockSet | ptpMessage =>
    exact next_actsAt ..
  -- A grove.
  | nop | li | lih | add | sub | andR | orR | xorR | shl | shr | mul | addi | beq | bne | blt | bge | bltu | jmp | ldw | stw
  | fdecl | fset | fclr | fwait | apld | wpace | rdpace | rdcyc | issue | bsync | endProg | trace => exact seqRun_actsAt ..
  | cin | pout | rout | cmove | cnts | fsave | topk | keep | route | wcomb | rowacc | page | pred => exact groveWork_actsAt ..
  | groveResetDone | seqIllegal | waitCycleSample | waitLimitExpiry | groveFailed | groveStallDetect | sramUncorrectable
  | groveSubstituted => exact liftAt_actsAt ..
  -- An engine or a context of a grove.
  | prefetch | split3 | vopAnd | vopOr | vopXor | exp2 | log2 | rsqrt | dotExact | split9 | split6 | dotFp64Chain
  | accElements | accExpRecords | accStateImages | zero | sort64 | merge | sortTopk | hash | probe | range | compact
  | send => exact engineStep_actsAt ..
  | signal =>
    dsimp only [exec]
    exact engineStep_actsAt ..
  | vopAdd | vopSub | vopMul | vopMin | vopMax | vopDiv | vopSqrt | vopFma | vopConvert => exact scaledStep_actsAt ..
  | atomicAdd | atomicExadd | atomicMin | atomicMax | atomicCas | atomicSwap => exact atomicRun_actsAt ..
  | commandOpen | operandArrival | commandComplete | copy | wopen | wclose => exact liftAt_actsAt ..
  -- The link by which a chunk or a request came, or the unit that sent a request.
  | dataChunk | partialChunk | resultChunk | counts | countsOut | admitChunk | go | resend | ack | doneUp | doneChunk
  | abort =>
    dsimp only [Instr.wf, exec]
    exact chunkCommand_actsAt ..
  | canopyRead | canopyWrite | writeMasked | canopyAdd | exadd | canopyMin | canopyMax | cas | swap =>
    dsimp only [Instr.wf, exec]
    exact canCommand_actsAt ..
  | collSubmitFrame => exact execCollSubmitFrame_actsAt ..
  | canopyRsp => exact execCanopyRsp_actsAt ..
  | canopyTimeout => exact liftAt_actsAt ..
  -- A link, one of its lanes, channels, priorities or queues.
  | linkTrainingEnd | linkQualifyEnd | hs | lfpFrameRx | linkAck | linkNak | replayTimeout | controlFlitTimer | credit
  | degrade | restore | laneFailure | mgmt | reseqTimeout | linkFlightMeasure | ethernetFrameRx | pfcFrameRx
  | pfcPauseExpiry | pfcXoffRepeat | egressDecision | ageMarkUpdate | unicast | ethFabricFrame | propagatedFence
  | paceToken | fcmFrameRelease => exact liftAt_actsAt ..
  -- A stack, a rail or its phase, a sensor, a pair of management cores, a slot of BAR0, an epoch.
  | memoryTrained | stackTemperatureCross | perBankRefresh | stackFailure | railFault | junctionTempCross | phaseFailed
  | mgmtFailover | bar0BusySlotWrite | epochDrained => exact liftAt_actsAt ..
  -- SEAL alone is left, a context's command like those above; its constructor's name is a keyword here.
  | _ => exact scaledStep_actsAt ..

theorem exec_next_of_wf {c : Instr} {s : State} (h : c.wf s.part = true) : ∃ d, exec c s = .next { s with dev := d } :=
  (h ▸ exec_actsAt_wf c s).next

theorem exec_fault_of_not_wf {c : Instr} {s : State} (h : c.wf s.part = false) : exec c s = .fault .noSuchUnit :=
  (h ▸ exec_actsAt_wf c s).fault

/-- Settles O4: a command acts exactly at units that the part has. -/
theorem commandsStopOnlyAtAbsentUnits : Obligations.CommandsStopOnlyAtAbsentUnits :=
  fun _ _ => ⟨exec_next_of_wf, exec_fault_of_not_wf⟩

/-! ### A step and a run -/

/-- A queue that is sound stays so as commands are taken from its front. -/
theorem State.ok.tail {s t : State} (h : s.ok) (hp : t.part = s.part) (hq : t.pending = s.pending.tail) : t.ok := by
  intro c hc
  rw [hq] at hc
  rw [hp]
  exact h c (List.mem_of_mem_tail hc)

/-- From a sound state a step takes the front of the queue, if there is one, and changes nothing but the device besides. -/
theorem step_next_of_ok {s : State} (h : s.ok) : ∃ d, step s = .next ⟨s.part, d, s.pending.tail⟩ := by
  obtain ⟨p, d, q⟩ := s
  cases q with
  | nil => exact ⟨idleTick p d, rfl⟩
  | cons c rest => exact exec_next_of_wf (s := ⟨p, d, rest⟩) (h c List.mem_cons_self)

/-- Settles O5: the step's next state has the part and the queue's rest, so it is sound again. -/
theorem everyStepKeepsTheQueueSound : Obligations.EveryStepKeepsTheQueueSound := by
  intro s h
  obtain ⟨d, hd⟩ := step_next_of_ok h
  exact ⟨_, hd, h.tail rfl rfl, rfl, rfl⟩

/-- A run goes on from where its first step ends. -/
theorem run_succ_of_next (M : Host.Core) {k : Nat} {s u : M.State} (h : M.step s = .next u) : M.run (k + 1) s = M.run k u := by
  rw [Host.Core.run, h]

theorem runs_zero (s : State) : Runs 0 s s := rfl

theorem Runs.cons {k : Nat} {s u t : State} (hs : step s = .next u) (hr : Runs k u t) : Runs (k + 1) s t :=
  (run_succ_of_next core hs).trans hr

/-- Settles O6, by induction on the number of steps: each one keeps the queue sound, and the rest of the run goes on from there. -/
theorem runsNeverStop : Obligations.RunsNeverStop := by
  intro k
  induction k with
  | zero => exact fun s h => ⟨s, runs_zero s, h, rfl, rfl⟩
  | succ k ih =>
    intro s h
    obtain ⟨u, hu, uok, upart, uq⟩ := everyStepKeepsTheQueueSound s h
    obtain ⟨t, ht, tok, tpart, tq⟩ := ih u uok
    refine ⟨t, ht.cons hu, tok, tpart.trans upart, ?_⟩
    rw [tq, uq, List.drop_tail]

end Sys2Proof.Machine
end

section
/-! SUPPORT. Power, clocks, heat and pins (spec/01_device_overview.md R19; spec/18_faults_and_telemetry.md R454, R463, R464;
spec/19_electrical_and_package.md R477, R479, R483, R486). Each event's meaning is a guard over its effect: an event that cannot
happen changes nothing, and the conditions of the statement pick the branch with the effect. -/

namespace Sys2Proof.Machine

/-- A command of the device as a whole, by what its meaning's effect comes to. -/
theorem exec_next_of_effect {c : Instr} {s : State} {e d : Dev} (hc : exec c s = .next { s with dev := e }) (hd : e = d) :
    exec c s = .next { s with dev := d } := by
  rw [hc, hd]

/-- A command at a unit that exists, by its effect on the device of this state. -/
theorem exec_next_of_liftAt {c : Instr} {s : State} {b : Bool} {f : Part → Dev → Dev} {d : Dev} (hc : exec c s = liftAt s b f)
    (hb : b = true) (hd : f s.part s.dev = d) : exec c s = .next { s with dev := d } := by
  rw [hc, liftAt_next s b f hb, hd]

/-- Settles O8: the conditions of each event rule out the branches of its meaning in which it cannot happen. -/
theorem powerAndPinsComplete : Obligations.PowerAndPinsComplete := by
  unfold Obligations.PowerAndPinsComplete
  refine ⟨?refclkLoss, ?refclkRestored, ?inputOutOfRange, ?inputRangeRecovered, ?inputShutdown, ?inputRestored, ?inputPowerCycle,
    ?railOutside, ?railInside, ?junctionTempCross, ?throttleStep, ?phaseFailed, ?mgmtFailover, ?perstAssert, ?perstRelease,
    ?pcieLinkDown, ?fieldNetworkLinkDown⟩
  case refclkLoss =>
    intro p d q hclk hrails hstep
    exact exec_next_of_effect rfl ((if_neg (by simp [hclk])).trans (if_pos (by simp [hrails, hstep])))
  case refclkRestored =>
    intro p d q hclk hrails hstep
    -- A start that waits for REFCLK stands at step 2, before the clocks have started.
    have hwait : d.boot.step ≠ 2 := by omega
    exact exec_next_of_effect rfl ((if_neg (by simp [hclk, hwait])).trans (if_pos (by simp [hrails, hstep])))
  case inputOutOfRange =>
    intro p d q hrails hvin
    exact exec_next_of_effect rfl (if_neg (by simp [hrails, hvin]))
  case inputRangeRecovered =>
    intro p d q hrails hvin
    exact exec_next_of_effect rfl (if_neg (by simp [hrails, hvin]))
  case inputShutdown =>
    intro p d q hrails
    exact exec_next_of_effect rfl (if_neg (by simp [hrails]))
  case inputRestored =>
    intro p d q hrails htrip hvin
    exact exec_next_of_effect rfl (if_neg (by simp [hrails, htrip, hvin]))
  case inputPowerCycle => exact fun _ _ _ => rfl
  case railOutside =>
    intro p d q rail mv hrail hrails hout
    have houtside : ¬ ((railWindow rail).1 ≤ mv ∧ mv ≤ (railWindow rail).2) := by omega
    exact exec_next_of_liftAt rfl (decide_eq_true hrail) (if_neg (by simpa [hrails] using houtside))
  case railInside =>
    intro p d q rail mv hrail hlow hhigh
    exact exec_next_of_liftAt rfl (decide_eq_true hrail) (if_pos (by simp [hlow, hhigh]))
  case junctionTempCross =>
    intro p d q sensor reading hsensor hrails
    exact exec_next_of_liftAt rfl (decide_eq_true hsensor) (if_neg (by simp [hrails]))
  case throttleStep =>
    intro p d q hruns hstep
    exact exec_next_of_effect rfl (if_neg (by simp [hruns, hstep]))
  case phaseFailed =>
    intro p d q rail phase hrail hphase hruns hgood
    exact exec_next_of_liftAt rfl (by simp [hrail, hphase]) (if_neg (by simp [hruns, hgood]))
  case mgmtFailover =>
    intro p d q pair hpair hruns hnone
    exact exec_next_of_liftAt rfl (decide_eq_true hpair)
      ((if_neg (by simp [hruns, hnone])).trans (if_neg (by simp [hnone])))
  case perstAssert => exact fun _ _ _ => rfl
  case perstRelease => exact fun _ _ _ => rfl
  case pcieLinkDown => exact fun _ _ _ => rfl
  case fieldNetworkLinkDown => exact fun _ _ _ => rfl

end Sys2Proof.Machine
end

section
/-! SUPPORT. Scalar and block number formats (spec/02_number_formats.md R22-R24, R28-R36, R41). A code is a sign over an exponent
field over a significand field; a finite one stands for a significand on the format's grid, which rounding finds again with
nothing left over. -/

namespace Sys2Proof.Machine

/-! ### Codes -/

theorem bits_lt (v lo len : Nat) : bits v lo len < 2 ^ len := Nat.mod_lt _ (by positivity)

/-- A code without its sign is its exponent field over its significand field. -/
theorem bits_magnitude (f : Fmt) (v : Nat) : bits v 0 (f.eb + f.mb) = bits v f.mb f.eb * 2 ^ f.mb + bits v 0 f.mb := by
  simp only [bits, Nat.shiftRight_eq_div_pow, Nat.pow_zero, Nat.div_one]
  rw [Nat.add_comm, Nat.pow_add, Nat.mod_mul, Nat.mul_comm, Nat.add_comm]

/-- A code is its sign over the rest. -/
theorem sign_bits (f : Fmt) {v : Nat} (hv : v < 2 ^ f.w) : f.sign (v.testBit (f.eb + f.mb)) (bits v 0 (f.eb + f.mb)) = v := by
  have hhigh : v / 2 ^ (f.eb + f.mb) < 2 := by
    rw [Nat.div_lt_iff_lt_mul (by positivity)]
    rwa [Fmt.w, Nat.add_assoc, Nat.pow_add] at hv
  have hsplit := Nat.mod_add_div v (2 ^ (f.eb + f.mb))
  simp only [Fmt.sign, bits, Nat.shiftRight_zero, Nat.testBit_eq_decide_div_mod_eq, Nat.mod_eq_of_lt hhigh, decide_eq_true_eq]
  split
  next h => rwa [h, Nat.mul_one] at hsplit
  next h =>
    have hzero : v / 2 ^ (f.eb + f.mb) = 0 := by
      generalize v / 2 ^ (f.eb + f.mb) = s at *
      omega
    rwa [hzero, Nat.mul_zero, Nat.add_zero] at hsplit

/-! ### What a code stands for (R22-R24) -/

/-- Under the exponent of all ones stand the infinities and the NaNs, where the format has them. -/
theorem decodeNum_allOnes {f : Fmt} {v : Nat} (h : f.ieee = true ∧ bits v f.mb f.eb = 2 ^ f.eb - 1) :
    decodeNum f v = if bits v 0 f.mb = 0 then .inf (v.testBit (f.eb + f.mb)) else .nan (!(bits v 0 f.mb).testBit (f.mb - 1)) := by
  simp only [decodeNum]
  rw [if_pos (by simpa using h)]

/-- The top code is the NaN of a format that has but this one. -/
theorem decodeNum_topCode {f : Fmt} {v : Nat} (hieee : ¬ (f.ieee = true ∧ bits v f.mb f.eb = 2 ^ f.eb - 1))
    (h : f.topNan = true ∧ bits v 0 (f.eb + f.mb) = 2 ^ (f.eb + f.mb) - 1) : decodeNum f v = .nan false := by
  simp only [decodeNum]
  rw [if_neg (by simpa using hieee), if_pos (by simpa using h)]

/-- Every other code is a number: a significand in steps of its exponent, without a leading bit under the exponent 0. -/
theorem decodeNum_number {f : Fmt} {v : Nat} (hieee : ¬ (f.ieee = true ∧ bits v f.mb f.eb = 2 ^ f.eb - 1))
    (htop : ¬ (f.topNan = true ∧ bits v 0 (f.eb + f.mb) = 2 ^ (f.eb + f.mb) - 1)) :
    decodeNum f v = if bits v f.mb f.eb = 0 then mkNum (v.testBit (f.eb + f.mb)) (bits v 0 f.mb) f.emin
      else mkNum (v.testBit (f.eb + f.mb)) (bits v 0 f.mb + 2 ^ f.mb) (f.emin + (bits v f.mb f.eb - 1 : Nat)) := by
  simp only [decodeNum]
  rw [if_neg (by simpa using hieee), if_neg (by simpa using htop)]

/-! ### Values on a format's grid -/

/-- `m` steps of 2^x is a value as the format writes it: the significand fits, the step is no finer than the subnormal one, and
only there is the leading bit free to be clear (R22). -/
structure OnGrid (f : Fmt) (m : Nat) (x : Int) : Prop where
  fits : m < 2 ^ (f.mb + 1)
  step : f.emin ≤ x
  lead : f.emin < x → 2 ^ f.mb ≤ m

/-- One fraction whichever way the step goes: one of the two powers is 1. -/
theorem mkNum_eq (neg : Bool) (m : Nat) (x : Int) : mkNum neg m x = .fin neg (m * 2 ^ x.toNat) (2 ^ (-x).toNat) := by
  unfold mkNum
  split
  next h => rw [show (-x).toNat = 0 by omega, Nat.pow_zero]
  next h => rw [show x.toNat = 0 by omega, Nat.pow_zero, Nat.mul_one]

/-- A code that is none of those set aside for infinities and NaNs is no greater than the largest finite one (R23). -/
theorem le_maxCode (f : Fmt) (v : Nat) (hieee : f.ieee = true → bits v f.mb f.eb ≠ 2 ^ f.eb - 1)
    (htop : f.topNan = true → bits v 0 (f.eb + f.mb) ≠ 2 ^ (f.eb + f.mb) - 1) : bits v 0 (f.eb + f.mb) ≤ f.maxCode := by
  have hc := bits_lt v 0 (f.eb + f.mb)
  unfold Fmt.maxCode
  split_ifs with hi ht
  · have he : bits v f.mb f.eb + 1 ≤ 2 ^ f.eb - 1 := by
      have hlt := bits_lt v f.mb f.eb
      have hne := hieee hi
      omega
    have hle := Nat.mul_le_mul_right (2 ^ f.mb) he
    have hm := bits_lt v 0 f.mb
    rw [Nat.add_mul, Nat.one_mul] at hle
    rw [bits_magnitude]
    omega
  · have hne := htop ht
    omega
  · omega

/-- A finite code stands for a value on the grid, whose rounded magnitude would have that code, within the format's range. -/
theorem decodeNum_of_isFin (f : Fmt) (v : Nat) (h : (decodeNum f v).isFin = true) : bits v 0 (f.eb + f.mb) ≤ f.maxCode ∧ ∃ m x,
    decodeNum f v = mkNum (v.testBit (f.eb + f.mb)) m x ∧ OnGrid f m x ∧ magCode f m x = bits v 0 (f.eb + f.mb) := by
  have hm := bits_lt v 0 f.mb
  have hmag := bits_magnitude f v
  by_cases hieee : f.ieee = true ∧ bits v f.mb f.eb = 2 ^ f.eb - 1
  · rw [decodeNum_allOnes hieee] at h
    split at h <;> cases h
  by_cases htop : f.topNan = true ∧ bits v 0 (f.eb + f.mb) = 2 ^ (f.eb + f.mb) - 1
  · rw [decodeNum_topCode hieee htop] at h
    cases h
  refine ⟨le_maxCode f v (not_and.mp hieee) (not_and.mp htop), ?_⟩
  rw [decodeNum_number hieee htop]
  split
  next hsub =>
    refine ⟨bits v 0 f.mb, f.emin, rfl, ⟨by omega, le_rfl, fun h => absurd h (lt_irrefl _)⟩, ?_⟩
    simp [magCode, hmag, hsub]
  next hnormal =>
    refine ⟨bits v 0 f.mb + 2 ^ f.mb, _, rfl, ⟨by omega, by omega, fun _ => by omega⟩, ?_⟩
    obtain ⟨e, he⟩ := Nat.exists_eq_succ_of_ne_zero hnormal
    simp only [magCode, hmag, he, add_sub_cancel_left, Int.toNat_natCast, Nat.succ_sub_one, Nat.succ_mul]
    omega

/-- The exponent of a dyadic value is that of its significand and its step. -/
theorem ratLog2_dyadic {m : Nat} (hm : m ≠ 0) (a b : Nat) : ratLog2 (m * 2 ^ a) (2 ^ b) = (Nat.log2 m : Int) + a - b := by
  have hlow : 2 ^ Nat.log2 m ≤ m := Nat.log2_self_le hm
  have hnum : Nat.log2 (m * 2 ^ a) = Nat.log2 m + a := by
    rw [Nat.log2_eq_iff (by positivity)]
    have hhigh : m < 2 ^ (Nat.log2 m + 1) := Nat.lt_log2_self
    refine ⟨by rw [Nat.pow_add]; gcongr, ?_⟩
    rw [Nat.add_right_comm, Nat.pow_add]
    gcongr
  have hbelow : ∀ k l : Nat, Nat.log2 m + a + k = b + l → ¬ m * 2 ^ a * 2 ^ k < 2 ^ b * 2 ^ l := by
    intro k l h
    rw [← Nat.pow_add, ← h, Nat.pow_add, Nat.pow_add, not_lt]
    gcongr
  have hpos := hbelow 0 (((Nat.log2 m + a : Nat) : Int) - b).toNat
  have hneg := hbelow (-(((Nat.log2 m + a : Nat) : Int) - b)).toNat 0
  simp only [Nat.pow_zero, Nat.mul_one] at hpos hneg
  simp only [ratLog2, hnum, Nat.log2_two_pow]
  split_ifs with h0 h1 h1
  · exact absurd (of_decide_eq_true h1) (hpos (by omega))
  · push_cast; rfl
  · exact absurd (of_decide_eq_true h1) (hneg (by omega))
  · push_cast; rfl

/-- Nothing left over rounds nothing up. -/
theorem roundsUp_exact (rm : Nat) (neg odd : Bool) {d : Nat} (hd : 0 < d) : roundsUp rm neg odd 0 d = false := by
  unfold roundsUp
  split <;> simp [hd.ne, hd.ne']

/-- A value on the grid rounds to itself, exactly. -/
theorem roundMag_onGrid {f : Fmt} {m : Nat} {x : Int} (h : OnGrid f m x) (hm : m ≠ 0) (rm : Nat) (neg : Bool) :
    roundMag f.mb f.emin rm neg (m * 2 ^ x.toNat) (2 ^ (-x).toNat) = (m, x, false) := by
  have hx : max (ratLog2 (m * 2 ^ x.toNat) (2 ^ (-x).toNat) - f.mb) f.emin = x := by
    have hfits := (Nat.log2_lt hm).mpr h.fits
    have hlead := fun k => (Nat.le_log2 hm).mpr (h.lead k)
    have hstep := h.step
    rw [ratLog2_dyadic hm]
    omega
  have hn : (if 0 ≤ x then m * 2 ^ x.toNat else m * 2 ^ x.toNat * 2 ^ (-x).toNat)
      = m * (if 0 ≤ x then 2 ^ (-x).toNat * 2 ^ x.toNat else 2 ^ (-x).toNat) := by
    split
    next h0 => simp [show (-x).toNat = 0 by omega]
    next h0 => simp [show x.toNat = 0 by omega]
  have hd : 0 < (if 0 ≤ x then 2 ^ (-x).toNat * 2 ^ x.toNat else 2 ^ (-x).toNat) := by split <;> positivity
  simp only [roundMag, hx, hn, Nat.mul_div_cancel _ hd, Nat.mul_mod_left, roundsUp_exact _ _ _ hd]
  rfl

/-- A value on the grid, within the format's range, converts into its own code with no flag. -/
theorem roundTo_onGrid {f : Fmt} {m : Nat} {x : Int} (h : OnGrid f m x) (hmax : magCode f m x ≤ f.maxCode) (rm : Nat)
    (sat neg : Bool) : roundTo f rm sat (mkNum neg m x) = (f.sign neg (magCode f m x), Tally.zero) := by
  rw [mkNum_eq]
  by_cases hm : m = 0
  · have hx : x = f.emin := by
      have hlead := h.lead
      have hstep := h.step
      have hpos := Nat.two_pow_pos f.mb
      omega
    simp [roundTo, magCode, hm, hx]
  · have hnum : m * 2 ^ x.toNat ≠ 0 := by positivity
    simp [roundTo, hnum, roundMag_onGrid h hm, Nat.not_lt.mpr hmax, Tally.flag, Tally.zero]

/-- Settles O30: a finite code's value is on the grid, and its rounded magnitude is the code again. -/
theorem codesConvertToThemselves : Obligations.CodesConvertToThemselves := by
  intro k rm v sat _ hv hfin
  obtain ⟨hmax, m, x, hdec, hgrid, hcode⟩ := decodeNum_of_isFin (fmtOf k) v hfin
  rw [hdec, roundTo_onGrid hgrid (hcode ▸ hmax), hcode, sign_bits _ hv]

/-! ### Infinities -/

/-- In a format with infinities, the code of one stands for it again. -/
theorem decodeNum_infCode {f : Fmt} (hieee : f.ieee = true) (neg : Bool) : decodeNum f (f.sign neg f.infCode) = .inf neg := by
  have hpos : 0 < 2 ^ f.eb := by positivity
  have hlt : f.infCode < 2 ^ (f.eb + f.mb) := by
    rw [Fmt.infCode, Nat.pow_add]
    exact Nat.mul_lt_mul_of_pos_right (by omega) (by positivity)
  have hsign : (f.sign neg f.infCode).testBit (f.eb + f.mb) = neg := by
    cases neg
    · exact Nat.testBit_lt_two_pow hlt
    · simp [Fmt.sign, Nat.add_comm f.infCode, Nat.testBit_two_pow_add_eq, Nat.testBit_lt_two_pow hlt]
  have hlow : bits (f.sign neg f.infCode) 0 (f.eb + f.mb) = f.infCode := by
    cases neg <;> simp [Fmt.sign, bits, Nat.mod_eq_of_lt hlt]
  have hmag := hlow.symm.trans (bits_magnitude f (f.sign neg f.infCode))
  have hm : bits (f.sign neg f.infCode) 0 f.mb = 0 := by
    have hmod := congrArg (· % 2 ^ f.mb) hmag
    simpa [Fmt.infCode, Nat.mod_eq_of_lt (bits_lt _ 0 f.mb)] using hmod.symm
  have he : bits (f.sign neg f.infCode) f.mb f.eb = 2 ^ f.eb - 1 :=
    (Nat.mul_right_cancel (Nat.two_pow_pos f.mb) (by rwa [hm, Nat.add_zero] at hmag)).symm
  rw [decodeNum_allOnes ⟨hieee, he⟩, if_pos hm, hsign]

/-- SAT decides only what a finite value that overflows becomes (R29, R32). -/
theorem roundTo_sat (f : Fmt) (rm : Nat) (n : Num) (h : n.isFin = false ∨ (roundTo f rm false n).2.flags.testBit 2 = false) :
    roundTo f rm true n = roundTo f rm false n := by
  cases n with
  | inf neg => rfl
  | nan sig => rfl
  | fin neg num den =>
    have hflag := h.resolve_left (by simp [Num.isFin])
    by_cases hz : num = 0
    · simp [roundTo, hz]
    by_cases hover : f.maxCode < magCode f (roundMag f.mb f.emin rm neg num den).1 (roundMag f.mb f.emin rm neg num den).2.1
    · have hset : (roundTo f rm false (.fin neg num den)).2.flags.testBit 2 = true := by
        simp [roundTo, hz, hover, Nat.testBit_or, show flOverflow.testBit 2 = true from rfl]
      exact absurd hset (by simp [hflag])
    · simp [roundTo, hz, hover]

/-- Settles O28: a format with infinities codes them exactly, E4M3 has its NaN code for them, and SAT is not asked. -/
theorem infinitiesConvert : Obligations.InfinitiesConvert := by
  intro rm sat neg
  refine ⟨?ieee, rfl, ?invalid, fun k n => roundTo_sat (fmtOf k) rm n⟩
  case ieee =>
    intro k hk
    have hieee : (fmtOf k).ieee = true := by
      simp only [List.mem_cons, List.not_mem_nil, or_false] at hk
      obtain rfl | rfl | rfl | rfl | rfl := hk <;> rfl
    simp only [roundTo, hieee, if_true]
    exact ⟨decodeNum_infCode hieee neg, rfl⟩
  case invalid => exact show (flNanOut ||| flInvalid).testBit 3 = true by decide

/-! ### Blocks of zeros -/

theorem mag_of_isZero {x : Num} (h : x.isZero = true) : x.mag.1 = 0 := by
  cases x with
  | fin neg num den => exact of_decide_eq_true h
  | inf neg => rfl
  | nan sig => rfl

theorem isFin_of_isZero {x : Num} (h : x.isZero = true) : x.isFin = true := by
  cases x with
  | fin neg num den => rfl
  | inf neg => cases h
  | nan sig => cases h

/-- The largest magnitude of zeros is 0. -/
theorem amaxOf_zeros {xs : List Num} (h : ∀ x ∈ xs, x.isZero = true) : amaxOf xs = (0, 1) := by
  unfold amaxOf
  induction xs with
  | nil => rfl
  | cons x xs ih =>
    rw [List.forall_mem_cons] at h
    rw [List.foldl_cons, magMax, if_neg (by simp [mag_of_isZero h.1]), ih h.2]

/-- Of zeros none stands out, so none escapes, whatever the gap (R41). -/
theorem escapeOf_zeros (gap : Nat) {xs : List Num} (h : ∀ x ∈ xs, x.isZero = true) : escapeOf gap xs = none := by
  have hbad : xs.zipIdx.filter (fun x => !x.1.isFin) = [] := by
    simp only [List.filter_eq_nil_iff, Bool.not_eq_true', Bool.not_eq_false]
    exact fun x hx => isFin_of_isZero (h x.1 (List.fst_mem_of_mem_zipIdx hx))
  simp only [escapeOf, hbad, amaxOf_zeros h]
  split_ifs with hgap
  · rfl
  · split <;> simp

/-- A block of zeros is written as one, each with its sign (R36). -/
theorem finiteBlock_zeros (f : Fmt) (rm : Nat) {xs : List Num} (h : ∀ x ∈ xs, x.isZero = true) :
    finiteBlock f rm xs none = ⟨xs.map (fun x => f.sign x.neg? 0), 0, none, Tally.zero⟩ := by
  have hused : (xs.zipIdx.filter (fun x => some x.2 != none)).map Prod.fst = xs := by
    rw [List.filter_eq_self.mpr (by simp), List.zipIdx_map_fst]
  have hcodes : xs.zipIdx.map (fun x => if some x.2 = none then 0 else f.sign x.1.neg? 0) = xs.map (fun x => f.sign x.neg? 0) := by
    conv_rhs => rw [← List.zipIdx_map_fst 0 xs, List.map_map]
    rfl
  simp only [finiteBlock, hused, amaxOf_zeros h, hcodes, if_true]

/-- Settles O29: of zeros none escapes, and the block of the rest has no magnitude to scale by. -/
theorem zeroBlocksKeepTheirSigns : Obligations.ZeroBlocksKeepTheirSigns := by
  intro f rm sat gap xs h
  have hfin : xs.all Num.isFin = true := List.all_eq_true.mpr (fun x hx => isFin_of_isZero (h x hx))
  simp only [encodeBlock, escapeOf_zeros gap h, hfin, if_true, finiteBlock_zeros f rm h]

end Sys2Proof.Machine
end

section
/-! SUPPORT. Control of groves (spec/05_stream_programs.md R104, R105, R107, R135-R138, R144-R146; spec/02_number_formats.md R47,
R49; log entries 41 and 118). Each write's rule is a chain of refusals over what it accepts, said once per rule. -/

namespace Sys2Proof.Machine

/-- A write by a command of its own whose object's rule accepts it. -/
theorem exec_next_of_accept {c : Instr} {s : State} {rq : Rq} {idx sub ch : Nat} {bs : List Byte} {rule : Dev → Dev × Nat} {d1 d2 : Dev}
    (hc : exec c s = .next { s with dev := serveWrite s.dev rq idx sub bs rule })
    (htaken : writeTaken s.dev rq (Call.write idx sub bs) = some (ch, d1)) (hrule : rule d1 = accept d2) :
    exec c s = .next { s with dev := written ch rq (Call.write idx sub bs) d2 (Rsp.st stOK) } := by
  rw [hc, serveWrite_of_writeTaken rule htaken, hrule]
  rfl

/-- A grove's number fits the field of a write that names it (R146). -/
theorem mod_256_of_lt_groves {p : Part} {g : Nat} (hg : g < p.groves) : g % 256 = g := by
  have hgroves : p.groves ≤ 32 := by unfold Part.groves; split <;> decide
  exact Nat.mod_eq_of_lt (by omega)

/-- START, which waits only while entry into fixed-cycle mode is armed (R223). -/
theorem exec_groveCtrlStart_accept {s : State} {rq : Rq} {g bank ch : Nat} {d1 d2 : Dev} (hfcm : s.dev.modes.fcm ≠ 1)
    (htaken : writeTaken s.dev rq (startCall g bank) = some (ch, d1))
    (hrule : startRule s.part (g % 256) (bank % 2 ^ 48) d1 = accept d2) : exec (.groveCtrlStart rq g bank) s =
      .next { s with dev := written ch rq (startCall g bank) d2 (Rsp.st stOK) } := by
  have hserve : exec (.groveCtrlStart rq g bank) s = .next { s with dev := serve s.dev rq (startCall g bank) (startAct s.part g bank) } := by
    rw [← serveOrHold_serve s.dev rq _ _ (fun d => holdForFcm d (.groveCtrlStart rq g bank)), ← decide_eq_false hfcm]
    rfl
  rw [hserve, serve_of_writeTaken (startAct s.part g bank) htaken]
  simp only [startAct, ruleAct, hrule]
  rfl

/-! ### What each rule accepts -/

theorem startRule_accept {p : Part} {d : Dev} {g bank : Nat} (hg : g < p.groves) (hbank : bank < 2)
    (hready : d.boot.readyGroves.testBit g = true) (hrole : d.role g = 1) (hjob : d.groveJob g ≠ 0)
    (hrec : (d.jobRec (d.groveJob g)).isSome = true) (hphase : (d.grove g).phase = .idle) (hidle : (d.grove g).bankSt bank = .idle)
    (hload : bank ∉ (d.grove g).writing) :
    startRule p g bank d = accept (setPhase (d.setGrove g (Grove.setBank { d.grove g with
      pc := 0, bank := bank, ended := false, stall := .none, regs := [], flags := [], lastTag := 0, haltRec := List.replicate 200 0,
      sampled := false, statePoison := false, waitsAt := [] } bank .active)) g .running) := by
  have hfields : (decide (p.groves ≤ g) || decide (1 < bank)) = false := by
    simp only [Bool.or_eq_false_iff, decide_eq_false_iff_not]
    omega
  have hnone : (d.jobRec (d.groveJob g)).isNone = false := by simpa using hrec
  simp [startRule, hfields, hready, hrole, hjob, hnone, hphase, hidle, hload]

theorem haltRule_accept {p : Part} {d : Dev} {g : Nat} (hg : g < p.groves) (hrun : (d.grove g).phase = .running) :
    haltRule p g d = accept (seqFault p d g 0x0C stOK) := by
  simp [haltRule, hg, hrun]

/-- A grove in work, halted or not, is cleared of its work and waits for what is outstanding (R145). -/
theorem groveResetRule_accept_work {p : Part} {d : Dev} {g : Nat} (hg : g < p.groves)
    (hwork : (d.grove g).phase = .running ∨ (d.grove g).phase = .halted) : groveResetRule p g d =
      accept (setPhase ((freeScales d g).setGrove g (clearWork ((freeScales d g).grove g))) g .resetting) := by
  obtain hphase | hphase := hwork <;> simp [groveResetRule, hg, hphase]

/-- An IDLE grove is cleared at once. -/
theorem groveResetRule_accept_idle {p : Part} {d : Dev} {g : Nat} (hg : g < p.groves) (hphase : (d.grove g).phase = .idle) :
    groveResetRule p g d = accept (d.setGrove g (clearState (clearWork (d.grove g)))) := by
  simp [groveResetRule, hg, hphase]

theorem instrWriteRule_accept {p : Part} {d : Dev} {g bank first : Nat} {ws : List Word} (hg : g < p.groves) (hbank : bank < 2)
    (hsome : ws ≠ []) (hmost : ws.length ≤ 512) (hlast : first + ws.length ≤ 32768) (hst : bankWriteStatus d g bank = stOK) :
    instrWriteRule p g bank first ws d = accept (d.setGrove g ((d.grove g).putWords bank first ws)) := by
  have hfields : (decide (p.groves ≤ g) || decide (1 < bank) || ws.isEmpty || decide (512 < ws.length)
      || decide (32768 < first + ws.length)) = false := by
    simp only [Bool.or_eq_false_iff, decide_eq_false_iff_not, List.isEmpty_eq_false_iff]
    exact ⟨⟨⟨by omega, hsome⟩, by omega⟩, by omega⟩
  simp [instrWriteRule, hfields, hst]

theorem instrLoadRule_accept {p : Part} {d : Dev} {mask bank first off len : Nat} (hmask : mask < 2 ^ p.groves) (hbank : bank < 2)
    (hlast : first + len ≤ 32768) (hsome : 0 < len) (halign : 8 ∣ off) (hworks : d.works 4 = true)
    (hsize : off + 8 * len ≤ memSize p d) (hst : ∀ g ∈ maskGroves p mask, bankWriteStatus d g bank = stOK)
    (hpoison : readPoison p d off (8 * len) = false) :
    instrLoadRule p mask bank first off len d = accept ((maskGroves p mask).foldl
      (fun d g => d.setGrove g { d.grove g with writing := bank :: (d.grove g).writing })
      { d with loads := d.loads ++ [(mask, bank, first, off, len)] }) := by
  have hfields : (decide (2 ^ p.groves ≤ mask) || decide (1 < bank) || decide (32767 < first) || off % 8 != 0 || decide (len = 0)
      || decide (32768 < len) || decide (32768 < first + len)) = false := by
    simp only [Bool.or_eq_false_iff, decide_eq_false_iff_not, bne_eq_false_iff_eq]
    omega
  have hbanks : ((maskGroves p mask).map (fun g => bankWriteStatus d g bank)).find? (· != stOK) = none := by
    simpa using hst
  simp only [instrLoadRule, hfields, hbanks, hworks, hpoison, Nat.not_lt.mpr hsize, Bool.not_true, Bool.false_eq_true, if_false]

theorem armRule_accept {p : Part} {d : Dev} {g bank : Nat} (crc : Nat) (hg : g < p.groves) (hbank : bank < 2)
    (hidle : (d.grove g).bankSt bank = .idle) :
    armRule p g bank crc d = accept (d.setGrove g { d.grove g with armed := some (bank, crc) }) := by
  have hfields : (decide (p.groves ≤ g) || decide (1 < bank)) = false := by
    simp only [Bool.or_eq_false_iff, decide_eq_false_iff_not]
    omega
  simp [armRule, hfields, hidle]

theorem scaleClearRule_accept_one {d : Dev} {n : Nat} (hn : n < 1024) (hfree : (d.ctx n).busy = false) :
    scaleClearRule n d = accept (d.setCtx n { d.ctx n with hist := [] }) := by
  have hall : n ≠ 0xFFFF := by omega
  simp [scaleClearRule, clearScale, hall, hn, hfree]

/-- Settles O13: the conditions of each write get past every refusal of its rule. -/
theorem groveControlCompletes : Obligations.GroveControlCompletes := by
  unfold Obligations.GroveControlCompletes
  refine ⟨?start, ?halt, ?resetWork, ?resetIdle, ?resetDone, ?instrWrite, ?loadMem, ?loadDone, ?bankSwitch, ?clearOne, ?clearAll⟩
  case start =>
    intro p d q rq g bank c d1 k gr gr1 hg hbank hfcm htaken hready hrole hjob hrec hphase hidle hload
    refine exec_groveCtrlStart_accept hfcm htaken ?_
    rw [mod_256_of_lt_groves hg, Nat.mod_eq_of_lt (by omega)]
    exact startRule_accept hg hbank hready hrole hjob hrec hphase hidle hload
  case halt =>
    intro p d q rq g c d1 k hg htaken hrun
    exact exec_next_of_accept rfl htaken ((mod_256_of_lt_groves hg).symm ▸ haltRule_accept hg hrun)
  case resetWork =>
    intro p d q rq g c d1 k d2 hg htaken hwork
    exact exec_next_of_accept rfl htaken ((mod_256_of_lt_groves hg).symm ▸ groveResetRule_accept_work hg hwork)
  case resetIdle =>
    intro p d q rq g c d1 k hg htaken hphase
    exact exec_next_of_accept rfl htaken ((mod_256_of_lt_groves hg).symm ▸ groveResetRule_accept_idle hg hphase)
  case resetDone =>
    intro p d q g hg hruns hphase hreqs
    exact exec_next_of_liftAt rfl (decide_eq_true hg) (if_pos (by simp [hruns, hphase, hreqs]))
  case instrWrite =>
    intro p d q rq g bank first ws c d1 k hg hbank hsome hmost hlast htaken hst
    exact exec_next_of_accept rfl htaken (instrWriteRule_accept hg hbank hsome hmost hlast hst)
  case loadMem =>
    intro p d q rq mask bank first off len c d1 k hmask hbank hlast hsome halign htaken hworks hsize hst hpoison
    exact exec_next_of_accept rfl htaken (instrLoadRule_accept hmask hbank hlast hsome halign hworks hsize hst hpoison)
  case loadDone =>
    intro p d q mask bank first off len rest hloads hflaws hpoison
    refine exec_next_of_effect rfl ?_
    simp only [hloads, checkRead_clean p d off (8 * len) hflaws hpoison]
    rfl
  case bankSwitch =>
    intro p d q rq g bank crc c d1 k hg hbank hcrc htaken hidle
    refine exec_next_of_accept rfl htaken ?_
    rw [mod_256_of_lt_groves hg, Nat.mod_eq_of_lt hcrc]
    exact armRule_accept crc hg hbank hidle
  case clearOne =>
    intro p d q rq n c d1 k hn htaken hfree
    refine exec_next_of_accept rfl htaken ?_
    rw [Nat.mod_eq_of_lt (by omega)]
    exact scaleClearRule_accept_one hn hfree
  case clearAll =>
    intro p d q rq c d1 k htaken
    exact exec_next_of_accept rfl htaken rfl

end Sys2Proof.Machine
end

section
/-! SUPPORT. The engine steps that convert their output (spec/02_number_formats.md R25, R44-R46, R66; spec/05_stream_programs.md
R117, R124; log entries 104 and 123). Every such command has the one shared meaning `scaledStep`, which needs no scaling context,
has it already, or takes it at this step. -/

namespace Sys2Proof.Machine

/-- Every converting command is the shared scaled step with its own values and its own work. -/
theorem exec_convertingStep {g e c : Nat} {x : Instr × Nat × Nat × (Stp → List Num) × (Stp → StepRes)}
    (hx : x ∈ convertingSteps g e c) (s : State) :
    exec x.1 s = scaledStep g e c x.2.1 (some x.2.2.1) s x.2.2.2.1 x.2.2.2.2 := by
  simp only [convertingSteps, List.mem_cons, List.not_mem_nil, or_false] at hx
  obtain rfl | rfl | rfl | rfl | rfl | rfl | rfl | rfl | rfl | rfl := hx <;> rfl

section
variable {g e c opc : Nat} {sub : Option Nat} {s : State} (vals : Stp → List Num) (f : Stp → StepRes)

/-- A clean step that has no scaling context to take: there is none, or the command holds it (R46). -/
theorem scaledStep_held (hg : g < s.part.groves) (he : e < 16) (hc : c < 4096) (hs : canStep s.dev g e c opc sub = true)
    (hheld : cvMode (stepOf s.part s.dev g e c).cvt ≠ 3 ∨ (stepOf s.part s.dev g e c).x.xscale.isSome = true)
    (hclean : cleanStep s.part s.dev g e c (f (stepOf s.part s.dev g e c)) = true) :
    scaledStep g e c opc sub s vals f =
      .next { s with dev := stepDone s.part s.dev g e c (f (stepOf s.part s.dev g e c)) } := by
  obtain hmode | hheld := hheld
  · exact scaledStep_clean vals f hg he hc hs hmode hclean
  · simp [scaledStep, liftAt, lift, hg, he, hc, hs, hheld, runStep_clean hclean]

end

/-- What the first step of a command under delayed scaling needs to take its scaling context: nothing stops the step before its
operands are read, the context is free, every line is here (all its steps' when its output is to be measured, R44), and the history
is read clean. -/
structure TakesScale (p : Part) (d : Dev) (g e c : Nat) (f : Stp → StepRes) : Prop where
  delayed : cvMode (stepOf p d g e c).cvt = 3
  first : (stepOf p d g e c).x.xscale = none
  ctxSound : (d.grove g).ctxPoison.contains (e * 4096 + c) = false
  bodySound : (d.grove g).bodyPoison (stepOf p d g e c).x.cmd = false
  operands : badOperand p d (d.grove g) (f (stepOf p d g e c)) = none
  homes : deadLine p d g (missingLines p d (d.grove g) (stepOf p d g e c).x (f (stepOf p d g e c))) = none
  settled : pendingLines p d (d.grove g) e c (f (stepOf p d g e c)) = []
  free : (d.ctx (cvCtx (stepOf p d g e c).cvt)).busy = false
  here : (if measures (stepOf p d g e c) then (wholeMiss f (stepOf p d g e c) (stepOf p d g e c).all).eraseDups
    else missingLines p d (d.grove g) (stepOf p d g e c).x (f (stepOf p d g e c))) = []
  history : hitFlaws p d false (histRange p d (cvCtx (stepOf p d g e c).cvt)).1 (histRange p d (cvCtx (stepOf p d g e c).cvt)).2 = []
  historySound : readPoison p d (histRange p d (cvCtx (stepOf p d g e c).cvt)).1 (histRange p d (cvCtx (stepOf p d g e c).cvt)).2 = false

/-- Such a step takes the context and goes on with it: a clean one is done (R44, R46). -/
theorem scaledStep_takes {g e c opc : Nat} {sub : Option Nat} {s : State} (vals : Stp → List Num) (f : Stp → StepRes)
    (hg : g < s.part.groves) (he : e < 16) (hc : c < 4096) (hs : canStep s.dev g e c opc sub = true)
    (h : TakesScale s.part s.dev g e c f) {d1 : Dev} (hd : d1 = takeScale (stepOf s.part s.dev g e c) vals f)
    (hclean : cleanStep s.part d1 g e c (f (stepOf s.part d1 g e c)) = true) :
    scaledStep g e c opc sub s vals f = .next { s with dev := stepDone s.part d1 g e c (f (stepOf s.part d1 g e c)) } := by
  have hread := checkReads_clean s.part s.dev [histRange s.part s.dev (cvCtx (stepOf s.part s.dev g e c).cvt)]
    (by simpa using h.history) (by simpa using h.historySound)
  have hwhole := h.here
  subst hd
  rw [scaledStep, liftAt_next _ _ _ (by simp [hg, he, hc]), if_neg (by simp [hs])]
  dsimp only
  rw [if_neg (by simp only [h.delayed, h.first, h.ctxSound, h.bodySound, h.operands, h.homes, h.settled]; decide),
    if_neg (by simp [h.free]), if_neg (by simp [hwhole]), hread]
  exact congrArg (fun d => Host.Outcome.next { s with dev := d }) (runStep_clean hclean)

/-- Settles O24: the conditions say whether the scaling context is taken at this step, and the step is clean with it. -/
theorem convertingStepsComplete : Obligations.ConvertingStepsComplete := by
  intro p d q g e c hg he hc x hx t r hcan f d1 gr
  constructor
  · intro hheld hclean
    exact (exec_convertingStep hx _).trans (scaledStep_held (s := ⟨p, d, q⟩) x.2.2.2.1 f hg he hc hcan hheld hclean)
  · intro hmode hnew hctx hbody hbad hdead hpend hfree hhere hhist hclean
    exact (exec_convertingStep hx _).trans (scaledStep_takes (s := ⟨p, d, q⟩) x.2.2.2.1 f hg he hc hcan
      ⟨hmode, hnew, hctx, hbody, hbad, hdead, hpend, hfree, hhere, hhist.1, hhist.2⟩ rfl hclean)

end Sys2Proof.Machine
end

section
/-! SUPPORT. Exact sums (spec/03_exact_arithmetic.md R57-R65). `exactSum` is the state that R63's table gives a multiset of terms, as
one formula in which no order stands; an accumulator that takes its terms one after another holds just that, in the class that its
count gives it, until its term limit stops it. -/

namespace Sys2Proof.Machine

/-! ### What one term sets (R63, R64) -/

/-- The integer a term adds to V. -/
def termGrid (c : Nat) : Option Num → Int
  | some (.fin neg num den) => toGrid c neg num den
  | _ => 0

/-- The term sets INV by itself. -/
def termInv : Option Num → Bool
  | none => true
  | some (.nan sig) => sig
  | _ => false

/-- The term sets NAN. -/
def termNan : Option Num → Bool
  | some (.nan _) => true
  | _ => false

/-- The term is the infinity of a sign. -/
def termInf (neg : Bool) : Option Num → Bool
  | some (.inf s) => s == neg
  | _ => false

/-- The term is the zero of a sign. -/
def termZero (neg : Bool) : Option Num → Bool
  | some (.fin s num _) => s == neg && num == 0
  | _ => false

/-- At least one term, and every term is one of `p`: the meaning of NZ and of PZ (R63). -/
def everyTerm (p : Option Num → Bool) (ts : List (Option Num)) : Bool := !ts.isEmpty && ts.all p

/-- The state of an accumulator of class `c` after the terms `ts`, none of which met its limit. -/
def exactSum (c : Nat) (ts : List (Option Num)) : Acc where
  cls := c
  v := (ts.map (termGrid c)).sum
  count := ts.length
  inv := ts.any termInv || (ts.any (termInf false) && ts.any (termInf true))
  nan := ts.any termNan
  pinf := ts.any (termInf false)
  ninf := ts.any (termInf true)
  nz := everyTerm (termZero true) ts
  pz := everyTerm (termZero false) ts
  tlim := false

/-- A first term decides alone; a later one must be another of the same (R63). -/
theorem everyTerm_concat (p : Option Num → Bool) (ts : List (Option Num)) (t : Option Num) :
    everyTerm p (ts ++ [t]) = ((decide (ts = []) || everyTerm p ts) && p t) := by
  cases ts <;> simp [everyTerm, Bool.and_assoc]

theorem everyTerm_append (p : Option Num → Bool) {ts us : List (Option Num)} (hts : ts ≠ []) (hus : us ≠ []) :
    everyTerm p (ts ++ us) = (everyTerm p ts && everyTerm p us) := by
  have hts' : ts.isEmpty = false := by simpa using hts
  have hus' : us.isEmpty = false := by simpa using hus
  simp [everyTerm, hts', hus', hts]

theorem exactSum_nil (c : Nat) : exactSum c [] = Acc.empty c := rfl

/-- No order stands in the formula (R59). -/
theorem exactSum_perm (c : Nat) {ts us : List (Option Num)} (h : ts.Perm us) : exactSum c ts = exactSum c us := by
  have hany (p : Option Num → Bool) : ts.any p = us.any p := h.any_eq
  have hall (p : Option Num → Bool) : ts.all p = us.all p := h.all_eq
  simp only [exactSum, everyTerm, hany, hall, h.isEmpty_eq, h.length_eq, (h.map _).sum_eq]

/-- INV follows from both infinities, as one formula (R63). -/
theorem closeInv_eq (a : Acc) : closeInv a = { a with inv := a.inv || (a.pinf && a.ninf) } := by
  unfold closeInv
  cases h : a.pinf && a.ninf <;> simp

theorem closeInv_of_closed {a : Acc} (h : a.pinf = true → a.ninf = true → a.inv = true) : closeInv a = a := by
  rw [closeInv]
  split
  next hboth => rw [Bool.and_eq_true] at hboth; rw [← h hboth.1 hboth.2]
  next => rfl

theorem closeInv_closed {a : Acc} (hp : (closeInv a).pinf = true) (hn : (closeInv a).ninf = true) : (closeInv a).inv = true := by
  rw [closeInv_eq] at *
  simp [show a.pinf = true from hp, show a.ninf = true from hn]

theorem exactSum_closed (c : Nat) (ts : List (Option Num)) (hp : (exactSum c ts).pinf = true) (hn : (exactSum c ts).ninf = true) :
    (exactSum c ts).inv = true := by
  simp only [exactSum] at *
  simp [hp, hn]

/-- One more term on the state of some gives the state of all (R63, R64). -/
theorem addTermRaw_exactSum (c : Nat) (ts : List (Option Num)) (t : Option Num) :
    addTermRaw (exactSum c ts) t = exactSum c (ts ++ [t]) := by
  obtain _ | _ | neg | sig := t
  · simp [addTermRaw, exactSum, everyTerm_concat, termGrid, termInv, termNan, termInf, termZero]
  case fin neg num den =>
    by_cases hzero : num = 0
    · subst hzero
      cases neg <;>
        simp [addTermRaw, exactSum, everyTerm_concat, termGrid, termInv, termNan, termInf, termZero, toGrid, sgn]
    · simp [addTermRaw, exactSum, everyTerm_concat, termGrid, termInv, termNan, termInf, termZero, hzero]
  case inf =>
    cases neg <;>
      simp [addTermRaw, exactSum, closeInv_eq, everyTerm_concat, termGrid, termInv, termNan, termInf, termZero] <;> grind
  case nan =>
    simp [addTermRaw, exactSum, everyTerm_concat, termGrid, termInv, termNan, termInf, termZero, Bool.or_right_comm]

/-! ### One term after another (R60, R61) -/

theorem addTerm_stopped (grow : Bool) {a : Acc} (t : Option Num) (h : a.tlim = true) : addTerm grow a t = some (a, false) :=
  if_pos h

theorem addTerm_room (grow : Bool) {a : Acc} (t : Option Num) (hlim : a.tlim = false) (hroom : a.count < clsLimit a.cls) :
    addTerm grow a t = some (addTermRaw a t, false) := by
  have hroom : hasRoom a 1 = true := decide_eq_true hroom
  simp [addTerm, hlim, hroom]

theorem addTerm_promotes {a : Acc} (t : Option Num) (hlim : a.tlim = false) (hfull : clsLimit a.cls ≤ a.count) (hcls : a.cls = 0) :
    addTerm true a t = some (addTermRaw (promote a) t, true) := by
  have hfull : hasRoom a 1 = false := decide_eq_false (by omega)
  simp [addTerm, hlim, hfull, hcls]

theorem addTerm_stops (grow : Bool) {a : Acc} (t : Option Num) (hlim : a.tlim = false) (hfull : clsLimit a.cls ≤ a.count)
    (hcls : a.cls ≠ 0) : addTerm grow a t = some ({ a with tlim := true }, false) := by
  have hfull : hasRoom a 1 = false := decide_eq_false (by omega)
  simp [addTerm, hlim, hfull, hcls]

theorem sumTerms_concat {a b : Acc} {ts : List (Option Num)} {t : Option Num} {p : Bool}
    (h : addTerm true (sumTerms a ts) t = some (b, p)) : sumTerms a (ts ++ [t]) = b := by
  unfold sumTerms at h ⊢
  rw [List.foldl_append, List.foldl_cons, List.foldl_nil, h]

/-- Within the class's limit the terms need not even lie on its grid. -/
theorem sumTerms_within (c : Nat) (ts : List (Option Num)) (h : ts.length ≤ clsLimit c) :
    sumTerms (Acc.empty c) ts = exactSum c ts := by
  induction ts using List.reverseRecOn with
  | nil => exact (exactSum_nil c).symm
  | append_singleton ts t ih =>
    rw [List.length_append, List.length_singleton] at h
    have hadd := addTerm_room true (a := exactSum c ts) t rfl h
    rw [← ih (by omega)] at hadd
    rw [sumTerms_concat hadd, ih (by omega), addTermRaw_exactSum]

/-- A number on the grid of A320 has the same value on the finer grid of A640 (R57, R60). -/
theorem toGrid_promote (neg : Bool) {num den : Nat} (h : den ∣ num * 2 ^ (-clsLsb 0).toNat) :
    toGrid 1 neg num den = toGrid 0 neg num den * 2 ^ 151 := by
  have hlsb : (-clsLsb 1).toNat = (-clsLsb 0).toNat + 151 := rfl
  rw [toGrid, toGrid, hlsb, Nat.pow_add, ← Nat.mul_assoc, Nat.mul_div_right_comm h]
  cases neg <;> simp [sgn]

theorem termGrid_promote {t : Option Num} (h : onGrid 0 t) : termGrid 1 t = termGrid 0 t * 2 ^ 151 := by
  obtain _ | _ | neg | sig := t
  case some.fin neg num den => exact toGrid_promote neg (h neg num den rfl)
  all_goals rfl

/-- Promotion changes no result bit: it is the sum of the same terms in A640 (R60). -/
theorem promote_exactSum {ts : List (Option Num)} (h : ∀ t ∈ ts, onGrid 0 t) : promote (exactSum 0 ts) = exactSum 1 ts := by
  have hv : (ts.map (termGrid 1)).sum = (ts.map (termGrid 0)).sum * 2 ^ 151 := by
    rw [← List.sum_map_mul_right, List.map_congr_left fun t ht => termGrid_promote (h t ht)]
  simp only [promote, exactSum, hv, if_true]

/-- The class that an accumulator of class `c` grows to past its limit: only A320 is promoted (R60). -/
def grownClass (c : Nat) : Nat := max c 1

/-- The class of an accumulator that started in class `c` and holds `n` terms. -/
def heldClass (c n : Nat) : Nat := if n ≤ clsLimit c then c else grownClass c

theorem clsLimit_le_grown {c : Nat} (hc : c ≤ 2) : clsLimit c ≤ clsLimit (grownClass c) := by
  interval_cases c <;> decide

theorem clsLimit_lt_grown_iff {c : Nat} (hc : c ≤ 2) : clsLimit c < clsLimit (grownClass c) ↔ c = 0 := by
  interval_cases c <;> decide

/-- At the limit of the class it grows to, no accumulator is in A320 any more. -/
theorem heldClass_ne_zero {c n : Nat} (hc : c ≤ 2) (h : clsLimit (grownClass c) ≤ n) : heldClass c n ≠ 0 := by
  have hiff := clsLimit_lt_grown_iff hc
  rw [heldClass]
  split
  next => omega
  next => simp [grownClass]

theorem clsLimit_heldClass_le {c : Nat} (hc : c ≤ 2) (n : Nat) : clsLimit (heldClass c n) ≤ clsLimit (grownClass c) := by
  rw [heldClass]
  split
  · exact clsLimit_le_grown hc
  · exact Nat.le_refl _

/-- One more term than an accumulator holds, when it is not the one that stops it: added in its class while that has room, after the
promotion when the class is full (R60). -/
theorem addTerm_exactSum {c : Nat} (hc : c ≤ 2) {ts : List (Option Num)} (hgrid : ∀ t ∈ ts, onGrid c t) (t : Option Num)
    (h : ts.length < clsLimit (grownClass c)) :
    ∃ p, addTerm true (exactSum (heldClass c ts.length) ts) t = some (exactSum (heldClass c (ts.length + 1)) (ts ++ [t]), p) := by
  obtain hroom | hfull | hgrown := Nat.lt_trichotomy ts.length (clsLimit c)
  · rw [heldClass, heldClass, if_pos hroom.le, if_pos (by omega), ← addTermRaw_exactSum]
    exact ⟨_, addTerm_room _ _ rfl hroom⟩
  · obtain rfl : c = 0 := (clsLimit_lt_grown_iff hc).mp (by omega)
    rw [heldClass, heldClass, if_pos hfull.le, if_neg (by omega), ← addTermRaw_exactSum, grownClass, Nat.zero_max,
      ← promote_exactSum hgrid]
    exact ⟨_, addTerm_promotes t rfl hfull.ge rfl⟩
  · rw [heldClass, heldClass, if_neg (by omega), if_neg (by omega), ← addTermRaw_exactSum]
    exact ⟨_, addTerm_room _ _ rfl h⟩

/-- Up to the limit of the class it grows to, an accumulator holds the sum of all its terms; past it, it has stopped. Which of the
two, and the class, the number of terms alone decides (R60, R61). -/
theorem sumTerms_eq {c : Nat} (hc : c ≤ 2) (ts : List (Option Num)) (hgrid : ∀ t ∈ ts, onGrid c t) :
    (ts.length ≤ clsLimit (grownClass c) → sumTerms (Acc.empty c) ts = exactSum (heldClass c ts.length) ts)
    ∧ (clsLimit (grownClass c) < ts.length → (sumTerms (Acc.empty c) ts).tlim = true) := by
  induction ts using List.reverseRecOn with
  | nil => exact ⟨fun _ => by simp [heldClass, exactSum_nil, sumTerms], fun h => absurd h (Nat.not_lt_zero _)⟩
  | append_singleton ts t ih =>
    have hgrid : ∀ t ∈ ts, onGrid c t := fun u hu => hgrid u (List.mem_append_left _ hu)
    obtain ⟨hsum, hstop⟩ := ih hgrid
    rw [List.length_append, List.length_singleton]
    obtain hlt | hfull | hpast := Nat.lt_trichotomy ts.length (clsLimit (grownClass c))
    · obtain ⟨p, hadd⟩ := addTerm_exactSum hc hgrid t hlt
      rw [← hsum hlt.le] at hadd
      exact ⟨fun _ => sumTerms_concat hadd, by omega⟩
    · have hadd := addTerm_stops true (a := exactSum (heldClass c ts.length) ts) t rfl
        ((clsLimit_heldClass_le hc _).trans hfull.ge) (heldClass_ne_zero hc hfull.ge)
      rw [← hsum hfull.le] at hadd
      exact ⟨by omega, fun _ => by rw [sumTerms_concat hadd]⟩
    · rw [sumTerms_concat (addTerm_stopped true t (hstop hpast))]
      exact ⟨by omega, fun _ => hstop hpast⟩

/-- What stopped an accumulator hides all else it holds from the final rounding (R61, R65). -/
theorem sealAcc_of_tlim (f : Fmt) (rm : Nat) (sat : Bool) {a b : Acc} (ha : a.tlim = true) (hb : b.tlim = true) :
    sealAcc f rm sat a = sealAcc f rm sat b := by
  simp [sealAcc, accNum, tlimTally, ha, hb]

/-- Settles O31: the state is one formula in the multiset of terms, or the accumulator has stopped, by their number alone. -/
theorem exactSumsIgnoreOrder : Obligations.ExactSumsIgnoreOrder := by
  intro c ts us f rm sat hc hgrid hperm
  obtain ⟨hsum, hstop⟩ := sumTerms_eq hc ts hgrid
  obtain ⟨hsum', hstop'⟩ := sumTerms_eq hc us fun t ht => hgrid t (hperm.mem_iff.mpr ht)
  rw [← hperm.length_eq] at hsum' hstop'
  obtain hpast | hle := Nat.lt_or_ge (clsLimit (grownClass c)) ts.length
  · exact sealAcc_of_tlim f rm sat (hstop hpast) (hstop' hpast)
  · rw [hsum hle, hsum' hle, exactSum_perm _ hperm]

/-! ### Merges (R63) -/

theorem widen_self (a : Acc) : widen a.cls a = a := if_pos rfl

/-- A merge with an empty state leaves the other state unchanged. -/
theorem mergeAcc_empty_right (grow : Bool) (a : Acc) (c : Nat) : mergeAcc grow a (Acc.empty c) = some (a, false) := rfl

/-- Into an empty accumulator of its class comes the other state. -/
theorem mergeAcc_empty_left (grow : Bool) {b : Acc} (hb : b.count ≠ 0) :
    mergeAcc grow (Acc.empty b.cls) b = some (closeInv b, false) := by
  simp [mergeAcc, Acc.empty, hb, widen_self]

/-- Two states of a class that hold terms, each part by its own rule; no limit stopped either. -/
def bothStates (a b : Acc) : Acc where
  cls := a.cls
  v := a.v + b.v
  count := a.count + b.count
  inv := a.inv || b.inv
  nan := a.nan || b.nan
  pinf := a.pinf || b.pinf
  ninf := a.ninf || b.ninf
  nz := a.nz && b.nz
  pz := a.pz && b.pz
  tlim := false

theorem mergeAcc_bothStates (grow : Bool) {a b : Acc} (halim : a.tlim = false) (hblim : b.tlim = false) (ha : a.count ≠ 0)
    (hb : b.count ≠ 0) (hcls : b.cls = a.cls) (hcount : a.count + b.count ≤ clsLimit a.cls)
    (hrange : inRange a.cls (a.v + b.v) = true) : mergeAcc grow a b = some (closeInv (bothStates a b), false) := by
  have hwiden : widen a.cls b = b := by rw [← hcls, widen_self]
  have hroom : a.cls = 0 → a.count + b.count ≤ clsLimit 0 := fun h => h ▸ hcount
  have hneed : ¬ (a.cls = 0 ∧ clsLimit 0 < a.count + b.count) := fun ⟨h, hlt⟩ => (hroom h).not_gt hlt
  simpa [mergeAcc, bothStates, halim, hblim, ha, hb, hcls, widen_self, hwiden, hasRoom, hneed, hcount.not_gt, hrange] using hroom

/-- The parts of two sums make up the sum of all the terms (R59, R63). -/
theorem closeInv_bothStates (c : Nat) {ts us : List (Option Num)} (hts : ts ≠ []) (hus : us ≠ []) :
    closeInv (bothStates (exactSum c ts) (exactSum c us)) = exactSum c (ts ++ us) := by
  simp only [closeInv_eq, bothStates, exactSum, everyTerm_append _ hts hus, List.map_append, List.sum_append, List.length_append,
    List.any_append, Acc.mk.injEq, and_true, true_and]
  grind

/-- Merging two sums is adding all their terms to one accumulator, while limit and range hold (R59, R60, R63). -/
theorem mergeAcc_exactSum (c : Nat) (ts us : List (Option Num)) (hcount : ts.length + us.length ≤ clsLimit c)
    (hrange : inRange c (exactSum c (ts ++ us)).v = true) :
    mergeAcc true (exactSum c ts) (exactSum c us) = some (exactSum c (ts ++ us), false) := by
  by_cases hus : us = []
  · rw [hus, exactSum_nil, mergeAcc_empty_right, List.append_nil]
  have hus' : us.length ≠ 0 := by simpa using hus
  by_cases hts : ts = []
  · rw [hts, exactSum_nil, List.nil_append]
    have hmerge := mergeAcc_empty_left true (b := exactSum c us) hus'
    rwa [closeInv_of_closed (exactSum_closed c us)] at hmerge
  have hts' : ts.length ≠ 0 := by simpa using hts
  have hv : (exactSum c (ts ++ us)).v = (exactSum c ts).v + (exactSum c us).v := by simp [exactSum]
  rw [mergeAcc_bothStates true (a := exactSum c ts) (b := exactSum c us) rfl rfl hts' hus' rfl hcount (hv ▸ hrange),
    closeInv_bothStates c hts hus]

@[simp] theorem widen_inv (c : Nat) (a : Acc) : (widen c a).inv = a.inv := by unfold widen; split <;> rfl

@[simp] theorem widen_pinf (c : Nat) (a : Acc) : (widen c a).pinf = a.pinf := by unfold widen; split <;> rfl

@[simp] theorem widen_ninf (c : Nat) (a : Acc) : (widen c a).ninf = a.ninf := by unfold widen; split <;> rfl

/-- What a merge gives: the first state, stopped or not, or one whose INV was closed under R63. -/
theorem mergeAcc_cases {grow need : Bool} {a b x : Acc} (h : mergeAcc grow a b = some (x, need)) :
    x = a ∨ (∃ c, x = { widen c a with tlim := true }) ∨ ∃ y, x = closeInv y := by
  unfold mergeAcc at h
  split at h
  · cases h; exact .inl rfl
  split at h
  · cases h; exact .inl rfl
  split at h
  · cases h; exact .inr (.inr ⟨_, rfl⟩)
  extract_lets wide promotes c a' b' v first at h
  split at h
  · cases h
  split at h
  · exact .inr (.inl ⟨c, (Prod.mk.inj (Option.some.inj h)).1.symm⟩)
  split at h
  · cases h
  · exact .inr (.inr ⟨_, (Prod.mk.inj (Option.some.inj h)).1.symm⟩)

/-- INV follows from both infinities in what a merge gives, if it did in the accumulator that took the other in (R63). -/
theorem mergeAcc_closed {grow need : Bool} {a b x : Acc} (ha : a.pinf = true → a.ninf = true → a.inv = true)
    (h : mergeAcc grow a b = some (x, need)) : x.pinf = true → x.ninf = true → x.inv = true := by
  obtain rfl | ⟨c, rfl⟩ | ⟨y, rfl⟩ := mergeAcc_cases h
  · exact ha
  · simpa using ha
  · exact closeInv_closed

/-- Settles O32: both partials are exact sums, and so is their merge. -/
theorem exactSumsIgnoreGrouping : Obligations.ExactSumsIgnoreGrouping := by
  constructor
  · intro c ts us hc hcount hrange
    have hall : (ts ++ us).length ≤ clsLimit c := by rwa [List.length_append]
    rw [sumTerms_within c _ hall] at hrange ⊢
    rw [sumTerms_within c ts (by omega), sumTerms_within c us (by omega)]
    exact mergeAcc_exactSum c ts us hcount hrange
  · intro grow need a b x ha h
    exact mergeAcc_closed ha h

end Sys2Proof.Machine
end

section
/-! SUPPORT. State images (spec/03_exact_arithmetic.md R71, R72): a header of sixteen bytes and V in two's complement at its class's
width, each read back as it was written. -/

namespace Sys2Proof.Machine

theorem ofSigned_lt (w : Nat) (v : Int) : ofSigned w v < 2 ^ w := by
  have hpos : (0 : Int) < (2 ^ w : Nat) := Int.natCast_pos.mpr (by positivity)
  have hlt := Int.emod_lt_of_pos v hpos
  rw [ofSigned]
  omega

/-- An integer that a two's-complement width holds reads back from it. -/
theorem toSigned_ofSigned {w : Nat} (hw : 0 < w) {v : Int} (hlo : -(2 ^ (w - 1) : Nat) ≤ v) (hhi : v < (2 ^ (w - 1) : Nat)) :
    toSigned w (ofSigned w v) = v := by
  have hpow : 2 ^ w = 2 * 2 ^ (w - 1) := by rw [← Nat.pow_succ', Nat.succ_eq_add_one, Nat.sub_add_cancel hw]
  rw [toSigned, ofSigned, hpow]
  generalize 2 ^ (w - 1) = h at *
  have hmod : v % (2 * h : Nat) = if 0 ≤ v then v else v + (2 * h : Nat) := by
    split
    next hpos => exact Int.emod_eq_of_lt hpos (by omega)
    next hneg => rw [← Int.add_emod_right, Int.emod_eq_of_lt (by omega) (by omega)]
  rw [hmod, Nat.mod_eq_of_lt (by omega)]
  omega

/-- The range of a class is that of its bytes (R57, R71). -/
theorem inRange_iff {c : Nat} (hc : c ≤ 2) (v : Int) :
    inRange c v = true ↔ -(2 ^ (8 * clsBytes c - 1) : Nat) ≤ v ∧ v < (2 ^ (8 * clsBytes c - 1) : Nat) := by
  have hwidth : (clsTop c - clsLsb c).toNat = 8 * clsBytes c - 1 := by interval_cases c <;> rfl
  simp [inRange, hwidth]

/-- The header of an image: COUNT, CLS and the state bits (R71). -/
def imageHead (a : Acc) : Nat :=
  pack [(64, 64, a.count), (56, 2, a.cls), (7, 1, b2n a.inv), (6, 1, b2n a.nan), (5, 1, b2n a.pinf), (4, 1, b2n a.ninf),
    (3, 1, b2n a.nz), (2, 1, b2n a.pz), (1, 1, b2n a.tlim)]

theorem accImage_eq (a : Acc) :
    accImage a = toBytes 16 (imageHead a) ++ toBytes (clsBytes a.cls) (ofSigned (8 * clsBytes a.cls) a.v) := rfl

theorem accImage_length (a : Acc) : (accImage a).length = imageBytes a.cls := by
  rw [accImage_eq, List.length_append, toBytes_length, toBytes_length, imageBytes]

theorem b2n_lt_two (b : Bool) : b2n b < 2 := by cases b <;> decide

theorem testBit_of_bits {v i : Nat} {b : Bool} (h : bits v i 1 = b2n b) : v.testBit i = b := by
  rw [bits, Nat.shiftRight_eq_div_pow, Nat.pow_one] at h
  rw [Nat.testBit_eq_decide_div_mod_eq, h]
  cases b <;> rfl

/-- What a header holds, field by field: the fields do not overlap and the rest is zero. -/
structure HeadOf (h : Nat) (a : Acc) : Prop where
  fits : h < 2 ^ 128
  count : bits h 64 64 = a.count
  top : bits h 58 6 = 0
  cls : bits h 56 2 = a.cls
  mid : bits h 8 48 = 0
  inv : h.testBit 7 = a.inv
  nan : h.testBit 6 = a.nan
  pinf : h.testBit 5 = a.pinf
  ninf : h.testBit 4 = a.ninf
  nz : h.testBit 3 = a.nz
  pz : h.testBit 2 = a.pz
  tlim : h.testBit 1 = a.tlim
  low : h.testBit 0 = false

theorem imageHead_headOf {a : Acc} (hcls : a.cls ≤ 2) (hcount : a.count < 2 ^ 64) : HeadOf (imageHead a) a := by
  have h7 := b2n_lt_two a.inv
  have h6 := b2n_lt_two a.nan
  have h5 := b2n_lt_two a.pinf
  have h4 := b2n_lt_two a.ninf
  have h3 := b2n_lt_two a.nz
  have h2 := b2n_lt_two a.pz
  have h1 := b2n_lt_two a.tlim
  have h0 : b2n false = 0 := rfl
  refine ⟨?fits, ?count, ?top, ?cls, ?mid, testBit_of_bits ?inv, testBit_of_bits ?nan, testBit_of_bits ?pinf,
    testBit_of_bits ?ninf, testBit_of_bits ?nz, testBit_of_bits ?pz, testBit_of_bits ?tlim, testBit_of_bits (b := false) ?low⟩
  all_goals simp only [imageHead, pack, bits, Nat.shiftRight_eq_div_pow]; omega

/-- A header reads back from its sixteen bytes. -/
theorem ofBytes_accImage_head {a : Acc} (h : imageHead a < 2 ^ 128) : ofBytes ((accImage a).take 16) = imageHead a := by
  rw [accImage_eq, List.take_left' (toBytes_length ..), ofBytes_toBytes]
  exact Nat.mod_eq_of_lt h

/-- V reads back from the bytes behind the header, two's complement (R71). -/
theorem toSigned_accImage_body {a : Acc} (hcls : a.cls ≤ 2) (hrange : inRange a.cls a.v = true) :
    toSigned (8 * clsBytes a.cls) (ofBytes (((accImage a).drop 16).take (clsBytes a.cls))) = a.v := by
  obtain ⟨hlo, hhi⟩ := (inRange_iff hcls a.v).mp hrange
  have hpos : 0 < 8 * clsBytes a.cls := by unfold clsBytes; split_ifs <;> decide
  have hfits : ofSigned (8 * clsBytes a.cls) a.v < 256 ^ clsBytes a.cls := by
    rw [show 256 = 2 ^ 8 from rfl, ← Nat.pow_mul]
    exact ofSigned_lt ..
  rw [accImage_eq, List.drop_left' (toBytes_length ..), List.take_of_length_le (toBytes_length ..).le, ofBytes_toBytes,
    Nat.mod_eq_of_lt hfits, toSigned_ofSigned hpos hlo hhi]

/-- Such a header is well-formed, and every field of the state is read from where it stands (R72). -/
theorem imageAcc_accImage {a : Acc} (hcls : a.cls ≤ 2) (hcount : a.count < 2 ^ 64) (hrange : inRange a.cls a.v = true)
    (hzero : ¬ (a.nz = true ∧ a.pz = true)) : imageAcc (accImage a) = some (closeInv a) := by
  have hhead := imageHead_headOf hcls hcount
  have hbad : (a.nz && a.pz) = false := by simpa using hzero
  have hclass : a.cls ≠ 3 := by omega
  simp [imageAcc, ofBytes_accImage_head hhead.fits, toSigned_accImage_body hcls hrange, hhead.count, hhead.top, hhead.cls, hhead.mid,
    hhead.inv, hhead.nan, hhead.pinf, hhead.ninf, hhead.nz, hhead.pz, hhead.tlim, hhead.low, hbad, hclass]

/-- Settles O33: every part of the image reads back as it was written. -/
theorem stateImagesRestore : Obligations.StateImagesRestore := by
  intro a hcls hcount hrange hzero
  exact ⟨accImage_length a, imageAcc_accImage hcls hcount hrange hzero, closeInv_of_closed⟩

end Sys2Proof.Machine
end

section
/-! SUPPORT. The work of one grove (spec/04_engines_and_groves.md R78, R79; spec/05_stream_programs.md R110-R145). Each instruction of a
sequencer, each wait and each engine command changes its own grove and what a grove's work may change besides, and keeps every memory
and flag sound: said once per effect as `WorksIn`, then once for every command that names a grove's work. -/

namespace Sys2Proof.Machine

/-- `t` is `d` after work of grove `g`: nothing else has changed, and memories and flags are as sound as they were. -/
structure WorksIn (g : Nat) (d t : Dev) : Prop where
  only : OnlyGrove g d t
  keeps : WorkKeeps d t

theorem WorksIn.refl (g : Nat) (d : Dev) : WorksIn g d d := ⟨.refl g d, .refl d⟩

theorem WorksIn.trans {g : Nat} {d t u : Dev} (h : WorksIn g d t) (k : WorksIn g t u) : WorksIn g d u :=
  ⟨h.only.trans k.only, h.keeps.trans k.keeps⟩

theorem WorksIn.ite {g : Nat} {d a b : Dev} {c : Prop} [Decidable c] (h : WorksIn g d a) (k : WorksIn g d b) :
    WorksIn g d (if c then a else b) := ⟨.ite _ h.only k.only, .ite _ h.keeps k.keeps⟩

theorem WorksIn.sound {g : Nat} {d t : Dev} (h : WorksIn g d t) (hd : d.Sound) : t.Sound := h.only.sound h.keeps hd

/-- A grove changed in neither a memory nor a flag. -/
theorem worksIn_grove {g : Nat} (d : Dev) (v : Grove) (scratch : v.scratch = (d.grove g).scratch := by rfl)
    (gmem : v.gmem = (d.grove g).gmem := by rfl) (flags : v.flags = (d.grove g).flags := by rfl)
    (imem : v.imem = (d.grove g).imem := by rfl) : WorksIn g d (d.setGrove g v) :=
  ⟨onlyGrove_setGrove .., keeps_grove g d v scratch gmem flags imem⟩

/-- A grove changed into one as sound. -/
theorem worksIn_setGrove {g : Nat} {d : Dev} {v : Grove} (h : (d.grove g).Sound → v.Sound) : WorksIn g d (d.setGrove g v) :=
  ⟨onlyGrove_setGrove .., keeps_setGrove g d v h⟩

theorem worksIn_inc (g : Nat) (d : Dev) (i s r k : Nat) : WorksIn g d (d.inc i s r k) := ⟨onlyGrove_same rfl rfl, keeps_same rfl rfl rfl⟩

theorem worksIn_seqFault (p : Part) (d : Dev) (g fault status : Nat) : WorksIn g d (seqFault p d g fault status) :=
  ⟨onlyGrove_seqFault .., keeps_seqFault ..⟩

theorem worksIn_limitHalt (p : Part) (d : Dev) (g : Nat) : WorksIn g d (limitHalt p d g) := ⟨onlyGrove_limitHalt .., keeps_limitHalt ..⟩

theorem worksIn_ctxFault (p : Part) (d : Dev) (g e c code status addr : Nat) : WorksIn g d (ctxFault p d g e c code status addr) :=
  ⟨onlyGrove_ctxFault .., keeps_ctxFault ..⟩

theorem worksIn_eccFault (p : Part) (d : Dev) (g e c a n : Nat) : WorksIn g d (eccFault p d g e c a n) :=
  ⟨onlyGrove_eccFault .., keeps_eccFault ..⟩

theorem worksIn_tracePut (p : Part) (d : Dev) (g a b c e f : Nat) : WorksIn g d (tracePut p d g a b c e f) :=
  ⟨onlyGrove_tracePut .., keeps_tracePut ..⟩

theorem worksIn_runStep (p : Part) (d : Dev) (g e c : Nat) (r : StepRes) : WorksIn g d (runStep p d g e c r) :=
  ⟨onlyGrove_runStep .., keeps_runStep ..⟩

theorem worksIn_readFlaws (p : Part) (g : Nat) (gr : Grove) (rs : List Rd) (d : Dev) : WorksIn g d (readFlaws p gr d rs).1 :=
  ⟨onlyGrove_readFlaws .., keeps_readFlaws ..⟩

theorem worksIn_copyFx (p : Part) (g : Nat) (d : Dev) (gr : Grove) (a n : Nat) (fx : StackFx) : WorksIn g d (copyFx p d gr a n fx).1 :=
  ⟨onlyGrove_copyFx .., keeps_copyFx ..⟩

theorem worksIn_sendReqs (d : Dev) (g : Nat) (rs : List GroveReq) : WorksIn g d (sendReqs d g rs) :=
  ⟨onlyGrove_sendReqs .., keeps_sendReqs ..⟩

theorem worksIn_regInstr (g : Nat) (f : Grove → Dev → Word) (r : Nat) (d : Dev) : WorksIn g d (regInstr g f r d) :=
  ⟨onlyGrove_setGrove .., keeps_regInstr ..⟩

theorem worksIn_branchInstr (g w : Nat) (k : Word → Word → Bool) (d : Dev) : WorksIn g d (branchInstr g w k d) :=
  ⟨onlyGrove_setGrove .., keeps_branch ..⟩

theorem worksIn_raiseMark (g : Nat) (d : Dev) (k v : Nat) : WorksIn g d (raiseMark d k v) :=
  ⟨.ite _ (onlyGrove_same rfl rfl) (.refl g d), keeps_raiseMark ..⟩

theorem worksIn_finishSteps (d : Dev) (g e c : Nat) : WorksIn g d (finishSteps d g e c) := worksIn_grove ..

/-- A flag grown within its range (R127), or FLAG_RANGE. -/
theorem worksIn_flagGrow {p : Part} {d : Dev} {g f : Nat} {x : Flag} (hx : (d.grove g).Sound → x.s ≤ x.pl) :
    WorksIn g d (flagGrow p d g f x) := by
  refine ⟨?_, keeps_flagGrow p d g f x hx⟩
  unfold flagGrow
  exact .ite _ (onlyGrove_seqFault ..) (onlyGrove_setGrove ..)

/-- A program boundary, whatever stands there without a switch (R137, R138). -/
theorem worksIn_boundary {d : Dev} {g : Nat} {next : Grove → Grove} (h : ∀ gr, gr.Sound → (next gr).Sound) :
    WorksIn g d (boundary d g next) := ⟨onlyGrove_boundary .., keeps_boundary _ _ _ h⟩

theorem worksIn_settleEnd (d : Dev) (g : Nat) : WorksIn g d (settleEnd d g) := ⟨onlyGrove_settleEnd .., keeps_settleEnd ..⟩

/-! ### Meanings -/

theorem liftAt_worksIn {g : Nat} {b : Bool} {s t : State} {f : Part → Dev → Dev} (h : liftAt s b f = .next t)
    (hf : ∀ p d, WorksIn g d (f p d)) : WorksIn g s.dev t.dev :=
  ⟨liftAt_onlyGrove f h fun p d => (hf p d).only, liftAt_keeps f h fun p d => (hf p d).keeps⟩

theorem seqRun_worksIn {g op : Nat} {s t : State} {f : Part → Dev → Nat → Dev} (h : seqRun g op s f = .next t)
    (hf : ∀ p d w, WorksIn g d (f p d w)) : WorksIn g s.dev t.dev :=
  ⟨seqRun_onlyGrove f h fun p d w => (hf p d w).only, seqRun_keeps f h fun p d w => (hf p d w).keeps⟩

theorem engineStep_worksIn {g e c opc : Nat} {sub : Option Nat} {s t : State} {f : Stp → StepRes}
    (h : engineStep g e c opc sub s f = .next t) : WorksIn g s.dev t.dev := ⟨engineStep_onlyGrove h, engineStep_keeps h⟩

theorem scaledStep_worksIn {g e c opc : Nat} {sub : Option Nat} {s t : State} {vals : Stp → List Num} {f : Stp → StepRes}
    (h : scaledStep g e c opc sub s vals f = .next t) : WorksIn g s.dev t.dev := ⟨scaledStep_onlyGrove h, scaledStep_keeps h⟩

section
variable {g : Nat} {s t : State}

theorem execSeqIllegal_worksIn (h : execSeqIllegal g s = .next t) : WorksIn g s.dev t.dev :=
  liftAt_worksIn h fun _ d => .ite (worksIn_seqFault ..) (.ite (worksIn_seqFault ..) (.refl g d))

theorem execLdw_worksIn (h : execLdw g s = .next t) : WorksIn g s.dev t.dev :=
  seqRun_worksIn h fun p d w => by
    dsimp only
    split
    · exact worksIn_seqFault ..
    · exact .ite (worksIn_seqFault ..) (worksIn_regInstr ..)

theorem execStw_worksIn (h : execStw g s = .next t) : WorksIn g s.dev t.dev :=
  seqRun_worksIn h fun p d w => by
    dsimp only
    split
    · exact worksIn_seqFault ..
    · exact worksIn_setGrove fun hs => (hs.store8 ..).of rfl rfl rfl

theorem execFdecl_worksIn (h : execFdecl g s = .next t) : WorksIn g s.dev t.dev :=
  seqRun_worksIn h fun _ _ w => worksIn_flagGrow fun hs => Nat.le_add_right_of_le (hs.2 (fFlag w)).2

theorem execFset_worksIn (h : execFset g s = .next t) : WorksIn g s.dev t.dev :=
  seqRun_worksIn h fun _ _ w => .ite (worksIn_seqFault ..) (worksIn_flagGrow fun hs => (hs.2 (fFlag w)).2)

theorem execFclr_worksIn (h : execFclr g s = .next t) : WorksIn g s.dev t.dev :=
  seqRun_worksIn h fun _ d w => .ite (worksIn_seqFault ..) (worksIn_setGrove fun hs => by
    obtain ⟨hsum, hset⟩ := hs.2 (fFlag w)
    refine (hs.setFlag (fFlag w) (x := { (d.grove g).flag (fFlag w) with c := 0 }) ⟨?_, hset⟩).of rfl rfl rfl
    dsimp only
    omega)

theorem execFwait_worksIn (h : execFwait g s = .next t) : WorksIn g s.dev t.dev :=
  seqRun_worksIn h fun _ _ _ => worksIn_setGrove fun hs => by split <;> exact hs.of rfl rfl rfl

theorem execApld_worksIn (h : execApld g s = .next t) : WorksIn g s.dev t.dev :=
  seqRun_worksIn h fun _ _ _ => .ite (worksIn_grove ..) (.ite (worksIn_seqFault ..) (worksIn_grove ..))

theorem execWpace_worksIn (h : execWpace g s = .next t) : WorksIn g s.dev t.dev :=
  seqRun_worksIn h fun _ _ _ =>
    .ite (worksIn_grove ..) (.ite ((worksIn_grove ..).trans (worksIn_limitHalt ..)) (worksIn_grove ..))

/-- ISSUE counts its setters only where their flag has room (R128). -/
theorem execIssue_worksIn (h : execIssue g s = .next t) : WorksIn g s.dev t.dev :=
  seqRun_worksIn h fun p d w => by
    dsimp only
    refine .ite (worksIn_seqFault ..) (.ite (worksIn_seqFault ..) ?_)
    split
    · exact worksIn_seqFault ..
    next hroom =>
      refine .ite (worksIn_grove ..) (worksIn_setGrove fun hs => (hs.pushAll w fun hset => ?_).of rfl rfl rfl)
      simpa [hset] using hroom

theorem execBsync_worksIn (h : execBsync g s = .next t) : WorksIn g s.dev t.dev :=
  seqRun_worksIn h fun _ _ _ => worksIn_boundary fun _ hs => hs.of rfl rfl rfl

theorem execEndProg_worksIn (h : execEndProg g s = .next t) : WorksIn g s.dev t.dev :=
  seqRun_worksIn h fun _ d _ =>
    (worksIn_boundary (d := d) (next := fun gr => { gr.advance with ended := true }) fun _ hs => hs.of rfl rfl rfl).trans
      (worksIn_settleEnd ..)

theorem execTrace_worksIn (h : execTrace g s = .next t) : WorksIn g s.dev t.dev :=
  seqRun_worksIn h fun _ _ _ => (worksIn_tracePut ..).trans (worksIn_grove ..)

theorem execWaitCycleSample_worksIn (h : execWaitCycleSample g s = .next t) : WorksIn g s.dev t.dev :=
  liftAt_worksIn h fun _ d => .ite (.refl g d) (.ite (worksIn_grove ..)
    (.ite (((worksIn_grove ..).trans (worksIn_inc ..)).trans (worksIn_seqFault ..)) (worksIn_grove ..)))

theorem execWaitLimitExpiry_worksIn {w : Waiter} (h : execWaitLimitExpiry g w s = .next t) : WorksIn g s.dev t.dev :=
  liftAt_worksIn h fun _ d => .ite (worksIn_limitHalt ..) (.refl g d)

end

section
variable {g e c : Nat} {s t : State}

theorem execCommandOpen_worksIn (h : execCommandOpen g e s = .next t) : WorksIn g s.dev t.dev :=
  liftAt_worksIn h fun p d => by
    extract_lets gr
    split
    · refine .ite (.refl g d) (.ite (worksIn_seqFault ..) ?_)
      extract_lets x gr1 d1 d2
      have hopen : WorksIn g d d1 := (worksIn_grove ..).trans (worksIn_raiseMark ..)
      have htrace : WorksIn g d d2 := .ite (hopen.trans (worksIn_tracePut ..)) hopen
      exact .ite (htrace.trans (worksIn_ctxFault ..)) (.ite (htrace.trans (worksIn_ctxFault ..)) htrace)
    · exact .refl g d

theorem execOperandArrival_worksIn (h : execOperandArrival g e c s = .next t) : WorksIn g s.dev t.dev :=
  liftAt_worksIn h fun _ d => .ite (worksIn_grove ..) (.refl g d)

theorem execCopy_worksIn {fx : StackFx} (h : execCopy g e c fx s = .next t) : WorksIn g s.dev t.dev :=
  liftAt_worksIn h fun p d => by
    dsimp only
    refine .ite (.refl g d) (.ite (.ite (worksIn_runStep ..) ?_) (.ite ?_ ?_))
    · exact (worksIn_runStep ..).trans (worksIn_copyFx ..)
    · exact (worksIn_copyFx ..).trans (worksIn_eccFault ..)
    · exact (worksIn_copyFx ..).trans (worksIn_runStep ..)

theorem execWopen_worksIn (h : execWopen g e c s = .next t) : WorksIn g s.dev t.dev :=
  liftAt_worksIn h fun p d => by
    dsimp only
    refine .ite (.refl g d) ?_
    split
    · exact worksIn_ctxFault ..
    · exact .ite (worksIn_grove ..) ((worksIn_grove ..).trans (worksIn_finishSteps ..))

theorem execWclose_worksIn (h : execWclose g e c s = .next t) : WorksIn g s.dev t.dev :=
  liftAt_worksIn h fun _ d => .ite (.refl g d) ((worksIn_grove ..).trans (worksIn_finishSteps ..))

theorem atomicRun_worksIn {op : Nat} (h : atomicRun op g e c s = .next t) : WorksIn g s.dev t.dev :=
  liftAt_worksIn h fun p d => by
    dsimp only
    refine .ite (.refl g d) ?_
    split
    · exact worksIn_ctxFault ..
    · refine .ite (worksIn_runStep ..) ?_
      split
      · exact (worksIn_readFlaws ..).trans (worksIn_eccFault ..)
      · refine .ite ((worksIn_readFlaws ..).trans (worksIn_ctxFault ..)) ?_
        generalize hrs : [_] = rs
        have hread := onlyMem_readFlaws p (d.grove g) rs d
        have hsame := hread.grove g
        refine (worksIn_readFlaws p g (d.grove g) rs d).trans (.trans ?_ (worksIn_sendReqs ..))
        exact worksIn_setGrove fun hs => (hsame ▸ hs : (d.grove g).Sound).of rfl rfl rfl

end

/-- Every command that names a grove's work is work of that grove. -/
theorem exec_worksIn {c : Instr} {g : Nat} {s t : State} (hg : groveWorkOf c = some g) (h : exec c s = .next t) :
    WorksIn g s.dev t.dev := by
  cases c with
  -- The sequencer: registers and branches, then the other instructions and its waits.
  | nop => cases hg; exact seqRun_worksIn h fun _ _ _ => worksIn_grove ..
  | li | lih | add | sub | andR | orR | xorR | shl | shr | mul | addi | rdpace | rdcyc =>
    cases hg
    exact seqRun_worksIn h fun _ _ _ => worksIn_regInstr ..
  | beq | bne | blt | bge | bltu | jmp => cases hg; exact seqRun_worksIn h fun _ _ _ => worksIn_branchInstr ..
  | seqIllegal => cases hg; exact execSeqIllegal_worksIn h
  | ldw => cases hg; exact execLdw_worksIn h
  | stw => cases hg; exact execStw_worksIn h
  | fdecl => cases hg; exact execFdecl_worksIn h
  | fset => cases hg; exact execFset_worksIn h
  | fclr => cases hg; exact execFclr_worksIn h
  | fwait => cases hg; exact execFwait_worksIn h
  | apld => cases hg; exact execApld_worksIn h
  | wpace => cases hg; exact execWpace_worksIn h
  | issue => cases hg; exact execIssue_worksIn h
  | bsync => cases hg; exact execBsync_worksIn h
  | endProg => cases hg; exact execEndProg_worksIn h
  | trace => cases hg; exact execTrace_worksIn h
  | waitCycleSample => cases hg; exact execWaitCycleSample_worksIn h
  | waitLimitExpiry => cases hg; exact execWaitLimitExpiry_worksIn h
  -- The engines.
  | commandOpen => cases hg; exact execCommandOpen_worksIn h
  | operandArrival => cases hg; exact execOperandArrival_worksIn h
  | copy => cases hg; exact execCopy_worksIn h
  | wopen => cases hg; exact execWopen_worksIn h
  | wclose => cases hg; exact execWclose_worksIn h
  | atomicAdd | atomicExadd | atomicMin | atomicMax | atomicCas | atomicSwap => cases hg; exact atomicRun_worksIn h
  | prefetch | split3 | vopAnd | vopOr | vopXor | exp2 | log2 | rsqrt | dotExact | split9 | split6 | dotFp64Chain | accElements
  | accExpRecords | accStateImages | zero | sort64 | merge | sortTopk | hash | probe | range | compact | send =>
    cases hg
    exact engineStep_worksIn h
  | signal =>
    cases hg
    dsimp only [exec] at h
    exact engineStep_worksIn h
  | vopAdd | vopSub | vopMul | vopMin | vopMax | vopDiv | vopSqrt | vopFma | vopConvert =>
    cases hg
    exact scaledStep_worksIn h
  -- The commands that are no grove's work, and SEAL, a converting step too, whose name is a word of Lean's own here.
  | _ => cases hg <;> exact scaledStep_worksIn h

/-- Settles O27: each command that names a grove's work is work of that grove. -/
theorem groveWorkStaysInItsGrove : Obligations.GroveWorkStaysInItsGrove := fun _ _ _ _ hg h => (exec_worksIn hg h).only

end Sys2Proof.Machine
end

section
/-! SUPPORT. What keeps a device sound beside a grove's own work (spec/04_engines_and_groves.md R78, R85; spec/05_stream_programs.md
R125-R130; spec/09_buffers_and_slots.md R238-R252; spec/14_pace_and_time.md R367-R376; spec/15_dictionary_protocol.md R396): completions, which
may set a flag of another grove, and requests, whose objects' rules are taken one by one and served the same way. -/

namespace Sys2Proof.Machine

/-! ### Reset -/

theorem reset_sound : State.reset.dev.Sound :=
  ⟨fun _ => ⟨⟨rfl, rfl, rfl⟩, noFlags rfl⟩, ⟨rfl, rfl⟩, ⟨.nil, .nil, nofun, nofun, rfl⟩, ⟨Nat.le_refl 0, .nil, nofun⟩⟩

/-! ### Completions (R125, R127, R133) -/

theorem worksIn_ringPut (d : Dev) (g rec : Nat) : WorksIn g d (ringPut d g rec) := ⟨onlyGrove_ringPut .., keeps_ringPut ..⟩

theorem freeScale_sound {d : Dev} (n : Nat) (entry : Option (Nat × Nat)) (hd : d.Sound) : (freeScale d n entry).Sound :=
  (onlyGrove_freeScale 0 d n entry).sound (keeps_freeScale ..) hd

theorem storeHist_sound {p : Part} {d : Dev} (n : Nat) (hd : d.Sound) : (storeHist p d n).Sound :=
  ((onlyMem_storeHist p d n).onlyGrove 0).sound ((onlyMem_storeHist ..).keeps (wf_writeArea _ _ _ _)) hd

/-- A ring record and a trace record change no flag. -/
theorem ringPut_flag (d : Dev) (g rec h f : Nat) : ((ringPut d g rec).grove h).flag f = (d.grove h).flag f := by
  obtain ⟨m, hm⟩ := ringPut_grove d g rec h
  rw [hm]
  rfl

theorem tracePut_flag (p : Part) (d : Dev) (g a b c e f h k : Nat) :
    ((tracePut p d g a b c e f).grove h).flag k = (d.grove h).flag k := by
  obtain ⟨n, hn⟩ := tracePut_grove p d g a b c e f h
  rw [hn]
  rfl

/-- A command's completion, where the flag of its grove that it names counts it among its setters (R128). -/
theorem completeCtx_sound {p : Part} {d : Dev} {g e c : Nat} (hd : d.Sound)
    (hset : let h := (d.grove g).head ((d.grove g).ctx e c).cmd
      h.testBit 19 = true → 0 < ((d.grove g).flag (bits h 11 8)).s) : (completeCtx p d g e c).Sound := by
  unfold completeCtx
  extract_lets gr x h d1 d2 gr2 gr3 d3 d4 d5
  have h1 : WorksIn g d d1 := .ite (worksIn_ringPut ..) (.refl g d)
  have h2 : WorksIn g d d2 := .ite (h1.trans (worksIn_tracePut ..)) h1
  have hflag : ∀ f, gr2.flag f = gr.flag f := by
    intro f
    have hring : (d1.grove g).flag f = gr.flag f := by
      dsimp only [d1]
      split
      · exact ringPut_flag ..
      · rfl
    dsimp only [gr2, d2]
    split
    · exact (tracePut_flag ..).trans hring
    · exact hring
  have h3 : d3.Sound := setGrove_sound (h2.sound hd) fun hs => by
    have hlocal : (if h.testBit 19 then gr2.localSet (bits h 11 8) else gr2).Sound := by
      split
      next hbit => exact localSet_sound hs _ (hflag (bits h 11 8) ▸ hset hbit)
      · exact hs
    exact hlocal.of rfl rfl rfl
  have h4 : d4.Sound := by
    dsimp only [d4]
    split
    · exact storeHist_sound _ (freeScale_sound _ _ h3)
    · exact h3
  exact (worksIn_settleEnd ..).sound (sound_ite _ (signal_sound _ _ _ _ h4) h4)

theorem execCommandComplete_sound {g e c : Nat} {s t : State} (h : execCommandComplete g e c s = .next t) (hd : s.dev.Sound)
    (hset : let gr := s.dev.grove g
      let x := gr.head (gr.ctx e c).cmd
      x.testBit 19 = true → 0 < (gr.flag (bits x 11 8)).s) : t.dev.Sound :=
  soundAt h (sound_ite _ (completeCtx_sound hd hset) hd)

theorem execExternalSet_sound {home job g f : Nat} {s t : State} (h : execExternalSet home job g f s = .next t) (hd : s.dev.Sound) :
    t.dev.Sound := soundOn h (sound_ite _ (remoteSet_sound _ _ _ _ _ _ hd) hd)

/-! ### Requests: serving, and answers by cases -/

theorem sound_ite_fst {α : Type} {a b : Dev × α} {c : Prop} [Decidable c] (h : a.1.Sound) (k : b.1.Sound) :
    (if c then a else b).1.Sound := by
  split
  · exact h
  · exact k

/-- A meaning of the device as a whole leaves the device that its effect gives. -/
theorem soundOf {u t : State} (h : (.next u : Res) = .next t) (hu : u.dev.Sound) : t.dev.Sound := by
  injection h with h
  exact h ▸ hu

/-- A request is served soundly if its object's rule keeps every sound device sound. -/
theorem served_sound {d : Dev} {rq : Rq} {k : Call} {act : Act} (hd : d.Sound) (hact : ∀ c u, u.Sound → (act c u).1.Sound) :
    (serve d rq k act).Sound := serve_sound hd fun c u hu => hact c u (hu.sound hd)

/-- So is a write by a row of its own. -/
theorem servedWrite_sound {d : Dev} {rq : Rq} {idx sub : Nat} {bs : List Byte} {rule : Dev → Dev × Nat} (hd : d.Sound)
    (hrule : ∀ u, u.Sound → (rule u).1.Sound) : (serveWrite d rq idx sub bs rule).Sound := served_sound hd fun _ u hu => hrule u hu

/-- A request that may wait is served, or held aside. -/
theorem serveOrHold_sound {d : Dev} {rq : Rq} {k : Call} {act : Act} {wait : Bool} {held : Dev → Dev} (hd : d.Sound)
    (hserve : (serve d rq k act).Sound) (hheld : ∀ u, u.Sound → (held u).Sound) : (serveOrHold d rq k act wait held).Sound := by
  unfold serveOrHold serve at *
  split at hserve
  next u hu => exact (body_receive.1 u hu).sound hd
  next u hu =>
    exact sound_ite _ (hheld _ (((body_receive.2 u hu).trans (body_enterChan u rq.path)).sound hd)) hserve

/-! ### Events, the lock, discovery -/

theorem evt_sound {d : Dev} {e : Events} (hd : d.Sound) : ({ d with evt := e } : Dev).Sound := (onlyEvents_evt d e).body.sound hd

theorem inc_sound {d : Dev} (i s r k : Nat) (hd : d.Sound) : (d.inc i s r k).Sound := (body_inc ..).sound hd

theorem settleQueue_sound {d : Dev} (k : Nat) (hd : d.Sound) : (settleQueue d k).Sound := (onlyEvents_settleQueue ..).body.sound hd

theorem placeEvents_sound {d : Dev} (n : Nat) (hd : d.Sound) : (placeEvents n d).Sound := (onlyEvents_placeEvents ..).body.sound hd

theorem consumeRule_sound {d : Dev} (v : Nat) (hd : d.Sound) : (consumeRule d v).Sound :=
  sound_ite _ (settleQueue_sound _ (placeEvents_sound _ (evt_sound hd))) (inc_sound _ _ _ _ hd)

theorem maskRule_sound {d : Dev} (k : Nat) (on : Bool) (hd : d.Sound) : (maskRule d k on).Sound := by
  refine sound_ite _ hd ?_
  extract_lets e d1
  have hraise : SameBody d1 ([0, 1].foldl (fun x v => if d.evt.pend.testBit v then raiseMsix x v else x) d1) :=
    .foldl _ (fun u v => .ite _ (onlyEvents_raiseMsix u v).body (.refl u)) _ _
  exact hraise.sound (evt_sound hd)

theorem flushRule_sound {d : Dev} (v : Nat) (hd : d.Sound) : (flushRule v d).1.Sound :=
  sound_ite_fst hd (sound_ite_fst hd (settleQueue_sound _ (evt_sound hd)))

theorem ownerRule_sound {d : Dev} (v : Nat) (hd : d.Sound) : (ownerRule v d).1.Sound :=
  sound_ite_fst hd (sound_ite_fst hd (placeEvents_sound _ ((body_wr ..).sound hd)))

theorem setUnlocked_sound {d : Dev} (c : Nat) (b : Bool) (hd : d.Sound) : (setUnlocked d c b).Sound := (body_setUnlocked ..).sound hd

theorem unlockRule_sound {d : Dev} (v c : Nat) (hd : d.Sound) : (unlockRule v c d).1.Sound :=
  sound_ite_fst (setUnlocked_sound _ _ hd) (inc_sound _ _ _ _ (setUnlocked_sound _ _ hd))

section
variable {s t : State} (hd : s.dev.Sound)
include hd

theorem execEventConsumed_sound {w : HostWrite} (h : execEventConsumed w s = .next t) : t.dev.Sound :=
  soundOn h (sound_ite _ hd (by
    split
    · exact consumeRule_sound _ hd
    · exact hd
    · exact maskRule_sound _ _ hd))

theorem execEvqNoticeDelayed_sound (h : execEvqNoticeDelayed s = .next t) : t.dev.Sound :=
  soundOn h (sound_ite _ ((onlyEvents_notice _).body.sound (evt_sound hd)) (evt_sound hd))

theorem execUnlockTimeout_sound {path : Path} (h : execUnlockTimeout path s = .next t) : t.dev.Sound :=
  soundOn h (by
    dsimp only
    split
    · exact hd
    · exact sound_ite _ hd (setUnlocked_sound _ _ (sound_ite _ ((body_dropAsm ..).sound hd) hd)))

theorem execDiscoveryRead_sound {peer seq idx sub : Nat} {span : Span} (h : execDiscoveryRead peer seq idx sub span s = .next t) :
    t.dev.Sound :=
  soundOn h (sound_ite _ hd (sound_ite _ (inc_sound _ _ _ _ hd) (by
    have hpeer := (body_enterChan (s.dev.inc 0x1030 0 1) (.peer peer)).sound (inc_sound _ _ _ _ hd)
    dsimp only [enterChan] at hpeer ⊢
    split
    · exact (body_answer ..).sound (inc_sound _ _ _ _ hpeer)
    · exact (body_answer ..).sound hpeer
    · exact inc_sound _ _ _ _ hpeer
    · exact (body_answer ..).sound ((body_setChan ..).sound ((body_dropAsm ..).sound hpeer)))))

theorem execDescribe_sound {rq : Rq} {obj : ObjReq} {sub : Nat} (hop : obj.op ≠ 2) (h : execDescribe rq obj sub s = .next t) :
    t.dev.Sound :=
  soundOf h <| served_sound hd fun c u hu => by
    unfold objAct
    rw [if_neg hop]
    split
    · exact readAct_sound hu
    · split
      · exact hu
      · split
        · exact evqRead_sound hu
        · split <;> exact hu

end

/-! ### Control of groves -/

theorem haltRule_sound {p : Part} {g : Nat} {d : Dev} (hd : d.Sound) : (haltRule p g d).1.Sound :=
  sound_ite_fst hd (sound_ite_fst hd ((worksIn_seqFault ..).sound hd))

theorem groveResetRule_sound {p : Part} {g : Nat} {d : Dev} (hd : d.Sound) : (groveResetRule p g d).1.Sound := by
  have hwork : (setPhase ((freeScales d g).setGrove g (clearWork ((freeScales d g).grove g))) g .resetting).Sound :=
    setPhase_sound (setGrove_sound (freeScales_sound g hd) clearWork_sound)
  refine sound_ite_fst hd ?_
  split
  · exact setGrove_sound hd fun hs => clearState_sound (clearWork_sound hs)
  · exact hwork
  · exact hwork
  · exact hd
  · exact hd

theorem instrWriteRule_sound {p : Part} {g bank first : Nat} {ws : List Word} {d : Dev} (hd : d.Sound) :
    (instrWriteRule p g bank first ws d).1.Sound :=
  sound_ite_fst hd (sound_ite_fst (countActive_sound hd) (setGrove_sound hd putWords_sound))

theorem instrLoadRule_sound {p : Part} {mask bank first off len : Nat} {d : Dev} (hd : d.Sound) :
    (instrLoadRule p mask bank first off len d).1.Sound := by
  refine sound_ite_fst hd ?_
  dsimp only
  split
  · exact countActive_sound hd
  · refine sound_ite_fst hd (sound_ite_fst hd (sound_ite_fst (a := (_, _)) (poison_sound hd) ?_))
    dsimp only [accept]
    refine foldGroves_sound ?_ _ (loads_sound _ hd)
    exact fun d g hu => setGrove_sound hu fun hs => hs.of rfl rfl rfl

theorem armRule_sound {p : Part} {g bank crc : Nat} {d : Dev} (hd : d.Sound) : (armRule p g bank crc d).1.Sound := by
  refine sound_ite_fst hd ?_
  split
  · exact hd
  · exact hd
  · exact setGrove_sound hd fun hs => hs.of rfl rfl rfl

theorem clearScale_sound {d : Dev} (n : Nat) (hd : d.Sound) : (clearScale d n).Sound :=
  SameBody.sound (d := d) ⟨⟨rfl, rfl, rfl, rfl⟩, rfl⟩ hd

theorem scaleClearRule_sound {n : Nat} {d : Dev} (hd : d.Sound) : (scaleClearRule n d).1.Sound :=
  sound_ite_fst (foldGroves_sound (fun _ n hu => clearScale_sound n hu) _ hd) (sound_ite_fst hd (clearScale_sound n hd))

section
variable {s t : State} (hd : s.dev.Sound)
include hd

theorem execGroveCtrlStart_sound {rq : Rq} {g bank : Nat} (h : execGroveCtrlStart rq g bank s = .next t) : t.dev.Sound :=
  soundOn h (serveOrHold_sound hd (serve_sound hd fun _ _ hu => start_sound (hu.sound hd))
    fun u hu => SameBody.sound (d := u) ⟨⟨rfl, rfl, rfl, rfl⟩, rfl⟩ hu)

theorem execGroveResetDone_sound {g : Nat} (h : execGroveResetDone g s = .next t) : t.dev.Sound :=
  soundAt h (sound_ite _ (setPhase_sound (setGrove_sound hd clearState_sound)) hd)

theorem execInstrLoadDone_sound (h : execInstrLoadDone s = .next t) : t.dev.Sound :=
  soundOn h (by
    dsimp only
    split
    · exact hd
    next mask bank first off len rest _ =>
      have hread : (checkRead s.part s.dev off (8 * len)).1.Sound :=
        ((onlyMem_checkRead ..).onlyGrove 0).sound ((onlyMem_checkRead ..).keeps (wf_takeFlaws _ _ _)) hd
      have hload := loads_sound rest hread
      refine foldGroves_sound (fun d g hu => setGrove_sound hu fun hs => ?_) _ (sound_ite _ hload (poison_sound hload))
      have herase : ({ d.grove g with writing := (d.grove g).writing.erase bank } : Grove).Sound := hs.of rfl rfl rfl
      split
      · exact putWords_sound herase
      · exact herase)

theorem execEpochSwap_sound {rq : Rq} {target crc pace : Nat} (h : execEpochSwap rq target crc pace s = .next t) : t.dev.Sound :=
  soundOf h <| servedWrite_sound hd fun u hu => by
    dsimp only
    split
    · exact sound_ite_fst (swap_acc hu _ _ _ _) hu
    · exact hu

end

/-! ### The packet buffer's auditor (R249-R252) -/

theorem bufKeeps_auditor (d : Dev) (b : Buffer) (cells : b.cells = d.buf.cells := by rfl) (retired : b.retired = d.buf.retired := by rfl)
    (head : b.headroomUsed = d.buf.headroomUsed := by rfl) : BufKeeps d { d with buf := b } := ⟨fun x => x.of cells retired head⟩

theorem besides_noteUnreferenced (walk : Nat) (was : List Nat) (d : Dev) (c : Nat) : BesidesBuf d (noteUnreferenced walk was d c) :=
  .ite _ (.refl d) (.ite _ (onlyEvents_inc ..).besides ((besides_buf d _).trans (onlyEvents_emit ..).besides))

theorem besides_noteDangling (d : Dev) (x : Nat × Nat) : BesidesBuf d (noteDangling d x) :=
  ((onlyEvents_inc ..).trans (onlyEvents_emit ..)).besides

/-- A change of the buffer that leaves its cells. -/
theorem auditor_sound {d : Dev} {b : Buffer} (hd : d.Sound) (cells : b.cells = d.buf.cells := by rfl)
    (retired : b.retired = d.buf.retired := by rfl) (head : b.headroomUsed = d.buf.headroomUsed := by rfl) :
    ({ d with buf := b } : Dev).Sound := (besides_buf d b).sound (bufKeeps_auditor d b cells retired head) hd

theorem reclaimCell_sound {d : Dev} (h c : Nat) (hd : d.Sound) : (reclaimCell h d c).Sound :=
  inc_sound _ _ _ _ (auditor_sound ((besides_releaseCells ..).sound (bufKeeps_releaseCells ..) hd))

theorem reclaimRule_sound {ref holder : Nat} {d : Dev} (hd : d.Sound) : (reclaimRule ref holder d).1.Sound := by
  refine sound_ite_fst hd (sound_ite_fst hd ?_)
  split
  · exact hd
  · exact sound_ite_fst (reclaimCell_sound _ _ hd) hd

section
variable {s t : State} (hd : s.dev.Sound)
include hd

theorem execAuditWalkStart_sound (h : execAuditWalkStart s = .next t) : t.dev.Sound := soundOn h (sound_ite _ hd (auditor_sound hd))

theorem execAuditWalkEnd_sound (h : execAuditWalkEnd s = .next t) : t.dev.Sound :=
  soundOn h (by
    dsimp only
    refine sound_ite _ hd (auditor_sound ?_)
    refine both_fold (fun d x => ⟨bufKeeps_noteDangling d x, besides_noteDangling d x⟩) _ _ ?_
    refine both_fold (fun d c => ⟨bufKeeps_noteUnreferenced _ _ d c, besides_noteUnreferenced _ _ d c⟩) _ _ ?_
    exact auditor_sound (inc_sound _ _ _ _ hd))

end

/-! ### The pace unit and the wall clock (R367-R386) -/

theorem settlePace_sound (o : Dev) {d : Dev} (hd : d.Sound) : (settlePace o d).Sound := (body_settlePace ..).sound hd

/-- A source written leaves nothing pending (R369). -/
theorem paceSourceRule_sound {v : Nat} {d : Dev} (hd : d.Sound) : (paceSourceRule v d).1.Sound := by
  refine sound_ite_fst hd ?_
  have hempty : ({ d.pace with pending := [], unlaunched := [], trigger := [], badRun := 0, calWaits := false } : Pace).Sound :=
    ⟨hd.2.2.2.1, .nil, nofun⟩
  have hwrite := sound_ite (v = paceSource d) hd (settlePace_sound d (pace_sound ((body_wr d 0x8000 1 0 v).sound hd) hempty))
  exact sound_ite (2 ≤ v) (sendCal_sound hwrite) hwrite

theorem paceCalRule_sound {v : Nat} {d : Dev} (hd : d.Sound) : (paceCalRule v d).1.Sound :=
  sound_ite_fst hd (sound_ite_fst hd (sound_ite _ (sendCal_sound hd) hd))

/-- A load with nothing pending: the visible count is the count (R369). -/
theorem paceLoadRule_sound {v : Nat} {d : Dev} (hd : d.Sound) (hnone : d.pace.pending = []) : (paceLoadRule v d).1.Sound := by
  refine sound_ite_fst hd (sound_ite_fst hd (sound_ite_fst hd (pace_sound hd ⟨Nat.le_refl v, ?_, ?_⟩)))
  · simp [hnone]
  · simp [hnone]

theorem schedArmRule_sound {p : Part} {i rec : Nat} {d : Dev} (hd : d.Sound) : (schedArmRule p i rec d).1.Sound :=
  sound_ite_fst hd (sound_ite_fst hd (sound_ite_fst hd (sound_ite_fst hd (sound_ite_fst (swap_acc hd _ _ _ _) ((body_wr ..).sound hd)))))

theorem schedCancelRule_sound {n : Nat} {d : Dev} (hd : d.Sound) : (schedCancelRule n d).1.Sound := by
  refine sound_ite_fst hd (sound_ite_fst hd ?_)
  have hput : (putSched d n 0).Sound := (body_wr ..).sound hd
  exact sound_ite _ ((body_moveEpoch ..).sound hput) hput

section
variable {s t : State} (hd : s.dev.Sound)
include hd

theorem execPaceWord_sound {w dly upper : Nat} {line : PaceLine} (h : execPaceWord w dly upper line s = .next t) : t.dev.Sound :=
  soundOf h (chain_sound (fun _ hu => advance_sound _ _ _ hu) hd)

theorem execCalWord_sound {w upper : Nat} {line : PaceLine} (h : execCalWord w upper line s = .next t) : t.dev.Sound :=
  soundOf h (chain_sound (fun _ hu => send_sound _ (paceOf hu)) hd)

theorem execPaceFlightMeasure_sound {r : Option Nat} (h : execPaceFlightMeasure r s = .next t) : t.dev.Sound :=
  soundOn h (sound_ite _ hd (by
    split
    · exact paceOf hd
    · exact settlePace_sound _ (paceOf hd)))

/-- The visible count catches up with the count (R368). -/
theorem execPaceVisible_sound (h : execPaceVisible s = .next t) : t.dev.Sound := by
  obtain ⟨hvisible, hrising, hahead⟩ := hd.2.2.2
  exact soundOn h (sound_ite _ (pace_sound hd ⟨Nat.le_refl _, hrising, hahead⟩) hd)

theorem execPaceInFault_sound (h : execPaceInFault s = .next t) : t.dev.Sound :=
  soundOn h (sound_ite _ hd (settlePace_sound _ (paceOf hd)))

theorem execPaceWordLaunch_sound (h : execPaceWordLaunch s = .next t) : t.dev.Sound :=
  soundOn h (sound_ite _ hd (by
    have hcal := sound_ite (s.dev.pace.calWaits = true) (sendCal_sound hd) hd
    split
    · exact hcal
    · exact sound_ite _ hcal (putWord_sound _ _ _ (paceOf hd))))

theorem execWallclockSet_sound {rq : Rq} {v : Nat} (h : execWallclockSet rq v s = .next t) : t.dev.Sound :=
  soundOf h <| servedWrite_sound hd fun _ hu => sound_ite_fst hu (wall_sound _ _ hu)

theorem execPtpMessage_sound {domain : Nat} {msg : PtpMsg} (h : execPtpMessage domain msg s = .next t) : t.dev.Sound :=
  soundOn h (sound_ite _ hd (by
    have hset : ∀ v x, (disciplineWall s.dev v x).Sound := fun v x => wall_sound _ _ (paceOf hd)
    split
    · exact send_sound _ (hset ..)
    · split
      · exact hd
      · exact sound_ite _ hd (hset ..)))

end

/-! ### Every command that is served soundly -/

theorem exec_sound_of_served {c : Instr} {s t : State} (hc : servedSoundly c = true) (h : exec c s = .next t) (hd : s.dev.Sound) :
    t.dev.Sound := by
  cases c with
  -- The dictionary's own objects, and reads that rearm.
  | describe => exact execDescribe_sound hd (by simpa [servedSoundly] using hc) h
  | evqRead => exact soundOf h <| served_sound hd fun _ _ hu => evqRead_sound hu
  | logRead | octSegment => exact soundOf h <| served_sound hd fun _ _ hu => hu
  | bar0BusySlotWrite => exact soundAt h (sound_ite _ (inc_sound _ _ _ _ hd) hd)
  | malformedDatagram => exact soundOf h (sound_ite _ (inc_sound _ _ _ _ hd) hd)
  | eventConsumed => exact execEventConsumed_sound hd h
  | evqNoticeDelayed => exact execEvqNoticeDelayed_sound hd h
  | discoveryRead => exact execDiscoveryRead_sound hd h
  | unlock => exact soundOf h <| served_sound hd fun _ _ hu => unlockRule_sound _ _ hu
  | unlockTimeout => exact execUnlockTimeout_sound hd h
  | evqFlush => exact soundOf h <| servedWrite_sound hd fun _ hu => flushRule_sound _ hu
  | evqOwnerChange => exact soundOf h <| servedWrite_sound hd fun _ hu => ownerRule_sound _ hu
  | qhwmRead => exact soundOf h <| served_sound hd fun _ _ hu => qhwm_sound hu
  | bufFreeLwmRead => exact soundOf h <| served_sound hd fun _ _ hu => lwm_sound hu
  | ctxInUseHwmRead => exact soundOf h <| served_sound hd fun _ _ hu => ctxHwm_sound hu
  | marginTimingRead => exact soundOf h <| served_sound hd fun _ _ hu => timing_sound hu
  | sampleRead => exact soundOf h <| served_sound hd fun _ _ hu => sample_sound hu
  -- Control of groves.
  | groveCtrlStart => exact execGroveCtrlStart_sound hd h
  | groveCtrlHalt => exact soundOf h <| servedWrite_sound hd fun _ hu => haltRule_sound hu
  | groveCtrlReset => exact soundOf h <| servedWrite_sound hd fun _ hu => groveResetRule_sound hu
  | groveResetDone => exact execGroveResetDone_sound hd h
  | instrWrite => exact soundOf h <| servedWrite_sound hd fun _ hu => instrWriteRule_sound hu
  | instrLoadMem => exact soundOf h <| servedWrite_sound hd fun _ hu => instrLoadRule_sound hu
  | instrLoadDone => exact execInstrLoadDone_sound hd h
  | bankSwitch => exact soundOf h <| servedWrite_sound hd fun _ hu => armRule_sound hu
  | scaleCtxClear => exact soundOf h <| servedWrite_sound hd fun _ hu => scaleClearRule_sound hu
  | epochSwap => exact execEpochSwap_sound hd h
  -- The auditor.
  | auditWalkStart => exact execAuditWalkStart_sound hd h
  | auditWalkEnd => exact execAuditWalkEnd_sound hd h
  | bufReclaim => exact soundOf h <| servedWrite_sound hd fun _ hu => reclaimRule_sound hu
  -- Pace and time.
  | paceWord => exact execPaceWord_sound hd h
  | calWord => exact execCalWord_sound hd h
  | paceFlightMeasure => exact execPaceFlightMeasure_sound hd h
  | paceVisible => exact execPaceVisible_sound hd h
  | paceInFault => exact execPaceInFault_sound hd h
  | paceWordLaunch => exact execPaceWordLaunch_sound hd h
  | paceSourceWrite => exact soundOf h <| servedWrite_sound hd fun _ hu => paceSourceRule_sound hu
  | paceCal => exact soundOf h <| servedWrite_sound hd fun _ hu => paceCalRule_sound hu
  | schedArm => exact soundOf h <| served_sound hd fun _ _ hu => schedArmRule_sound hu
  | schedCancel => exact soundOf h <| servedWrite_sound hd fun _ hu => schedCancelRule_sound hu
  | wallclockSet => exact execWallclockSet_sound hd h
  | ptpMessage => exact execPtpMessage_sound hd h
  | _ => cases hc

theorem execPaceLoad_sound {rq : Rq} {v : Nat} {s t : State} (h : execPaceLoad rq v s = .next t) (hd : s.dev.Sound)
    (hnone : s.dev.pace.pending = []) : t.dev.Sound :=
  soundOn h (serveWrite_sound hd fun _ hu => paceLoadRule_sound (hu.sound hd) (hu.2 ▸ hnone))

/-- A step takes the command in front. -/
theorem step_of_front {s : State} {c : Instr} {q : List Instr} (h : s.pending = c :: q) : step s = exec c { s with pending := q } := by
  rw [step, h]

/-- Settles O59: reset is sound, and so is what each kind of step leaves, from every sound state. -/
theorem workAndRequestsKeepTheDeviceSound : Obligations.WorkAndRequestsKeepTheDeviceSound := by
  refine ⟨reset_sound, ?work, ?complete, ?external, ?served, ?load⟩
  case work =>
    intro c q g s t hfront hg hstep hd
    exact (exec_worksIn hg ((step_of_front hfront).symm.trans hstep)).sound hd
  case complete =>
    intro g e c q s t hfront hset hstep hd
    exact execCommandComplete_sound ((step_of_front hfront).symm.trans hstep) hd hset
  case external =>
    intro home job g f q s t hfront hstep hd
    exact execExternalSet_sound ((step_of_front hfront).symm.trans hstep) hd
  case served =>
    intro c q s t hfront hc hstep hd
    exact exec_sound_of_served hc ((step_of_front hfront).symm.trans hstep) hd
  case load =>
    intro rq v q s t hfront hnone hstep hd
    exact execPaceLoad_sound ((step_of_front hfront).symm.trans hstep) hd hnone

end Sys2Proof.Machine
end

section
/-! SUPPORT. The engine steps that know no delayed scaling, and where any finished step stores (spec/04_engines_and_groves.md R79, R85;
spec/05_stream_programs.md R91, R117-R125). Every such command has the one shared meaning `engineStep`; what a finished step leaves is
what its row of stores leaves, `storeAll`. -/

namespace Sys2Proof.Machine

/-- Every command that does not convert is the shared engine step with its own work. -/
theorem exec_plainStep {g e c : Nat} {x : Instr × Nat × Nat × (Stp → StepRes)} (hx : x ∈ plainSteps g e c) (s : State) :
    exec x.1 s = engineStep g e c x.2.1 (some x.2.2.1) s x.2.2.2 := by
  simp only [plainSteps, List.mem_cons, List.not_mem_nil, or_false] at hx
  obtain rfl | rfl | rfl | rfl | rfl | rfl | rfl | rfl | rfl | rfl | rfl | rfl | rfl | rfl | rfl | rfl | rfl | rfl | rfl | rfl | rfl | rfl
    | rfl | rfl | rfl := hx <;> rfl

/-- Settles O23: the context can run the step, nothing stops it, and it is done. -/
theorem engineStepsComplete : Obligations.EngineStepsComplete := by
  intro p d q g e c hg he hc x hx r hcan hclean
  exact (exec_plainStep hx _).trans (engineStep_clean (s := ⟨p, d, q⟩) x.2.2.2 hg he hc hcan hclean)

/-! ### Where a finished step stores -/

section
variable (p : Part) (d : Dev) (g e c : Nat) (r : StepRes)

/-- The grove's two memories after a step are what its stores left. -/
theorem stepDone_scratch : ((stepDone p d g e c r).grove g).scratch = ((r.writes.foldl (storeLocal p g e) d).grove g).scratch := by
  obtain ⟨q, n, x, h⟩ := stepDone_grove p d g e c r
  rw [h]
  rfl

theorem stepDone_gmem : ((stepDone p d g e c r).grove g).gmem = ((r.writes.foldl (storeLocal p g e) d).grove g).gmem := by
  obtain ⟨q, n, x, h⟩ := stepDone_grove p d g e c r
  rw [h]
  rfl

/-- Its own context apart, a step leaves the rest of the grove alone. -/
theorem stepDone_kept : Kept g e c d (stepDone p d g e c r) := by
  obtain ⟨q, n, x, h⟩ := stepDone_grove p d g e c r
  refine (storeAll p g e c r.writes d).1.trans ?_
  have hctx : ∀ j k, j * 4096 + k ≠ e * 4096 + c → ((stepDone p d g e c r).grove g).ctx j k =
      ((r.writes.foldl (storeLocal p g e) d).grove g).ctx j k := by
    intro j k hne
    rw [h]
    exact Tbl.get_set_other _ _ _ _ _ hne
  refine ⟨?_, ?_, ?_, ?_, ?_, ?_, ?_, ?_, hctx⟩ <;> (rw [h]; rfl)

/-- A single store into device memory reads back. -/
theorem stepDone_reads_back {w : Wr} {o : Nat} (hone : r.writes = [w])
    (hplace : region p d (d.grove g) w.addr w.data.length = some (.stack o)) :
    (stepDone p d g e c r).mem.mem.readN 0#8 o w.data.length = w.data := by
  have hstore : storeLocal p g e d w = storeDev d o w.data := by simp only [storeLocal, hplace]
  rw [stepDone_mem, hone, List.foldl_cons, List.foldl_nil, hstore, storeDev_bytes, Mem.readN_writeN]

end

/-- A clean step that can run is done, whether its command converts or not. -/
theorem exec_stepDone {p : Part} {d : Dev} {q : List Instr} {g e c : Nat} {i : Instr} {r : StepRes} (hg : g < p.groves) (he : e < 16)
    (hc : c < 4096)
    (hstep : (∃ op sub f, (i, op, sub, f) ∈ plainSteps g e c ∧ canStep d g e c op (some sub) = true ∧ r = f (stepOf p d g e c))
      ∨ ∃ op sub v f, (i, op, sub, v, f) ∈ convertingSteps g e c ∧ canStep d g e c op (some sub) = true
          ∧ (cvMode (stepOf p d g e c).cvt ≠ 3 ∨ (stepOf p d g e c).x.xscale.isSome = true) ∧ r = f (stepOf p d g e c))
    (hclean : cleanStep p d g e c r = true) : exec i ⟨p, d, q⟩ = .next ⟨p, stepDone p d g e c r, q⟩ := by
  obtain ⟨op, sub, f, hx, hcan, rfl⟩ | ⟨op, sub, v, f, hx, hcan, hheld, rfl⟩ := hstep
  · exact (exec_plainStep hx _).trans (engineStep_clean (s := ⟨p, d, q⟩) f hg he hc hcan hclean)
  · exact (exec_convertingStep hx _).trans (scaledStep_held (s := ⟨p, d, q⟩) v f hg he hc hcan hheld hclean)

/-- Settles O26: what a finished step leaves of the memories is what its stores, each where its address lies, leave. -/
theorem engineStepStores : Obligations.EngineStepStores := by
  intro p d q g e c i r hg he hc hstep hclean gr at_ out
  obtain ⟨-, hscratch, hgmem, hmem, hwf⟩ := storeAll p g e c r.writes d
  have hkept := stepDone_kept p d g e c r
  rw [← stepDone_scratch p d g e c r, ← stepDone_gmem p d g e c r, ← stepDone_mem p d g e c r] at hwf
  refine ⟨stepDone p d g e c r, exec_stepDone hg he hc hstep hclean, ?scratch, ?gmem, ?mem, ?back, hwf, hkept.regs, hkept.flags,
    hkept.queues, hkept.pc, hkept.phase, hkept.imem, hkept.aps, hkept.wins, hkept.ctx⟩
  case scratch =>
    intro a ha
    rw [stepDone_scratch]
    exact hscratch a ha
  case gmem =>
    intro a ha
    rw [stepDone_gmem]
    exact hgmem a ha
  case mem =>
    intro a ha
    rw [stepDone_mem]
    exact hmem a ha
  case back => exact fun w o hone hplace => stepDone_reads_back p d g e c r hone hplace

end Sys2Proof.Machine
end

section
/-! SUPPORT. The reset state (spec/15_dictionary_protocol.md R403, R409) and the reads that rearm what they read (spec/04_engines_and_groves.md
R101; spec/09_buffers_and_slots.md R248; spec/10_ports_and_links.md R297; spec/11_scheduling.md R311; spec/15_dictionary_protocol.md R394,
R397). A read of a table of marks is one rule, with its record and its rearming. -/

namespace Sys2Proof.Machine

/-- Settles O3: the reset state is a literal, and no command waits in it. -/
theorem resetIsPlain : Obligations.ResetIsPlain := ⟨nofun, rfl, rfl, rfl, rfl, rfl, rfl, rfl, rfl⟩

/-- A READ of a table of marks: records in part are refused, whole ones are answered and rearmed (R397). -/
theorem serve_tableRead {d : Dev} {rq : Rq} {k : Call} {c : Nat} {d1 : Dev} (path : Path) (off len w n : Nat) (rec : Dev → Nat → Nat)
    (rearm : Dev → Nat → Dev) (h : readTaken d rq k = some (c, d1)) :
    serve d rq k (tableRead path off len w n rec rearm) =
      if off % w ≠ 0 ∨ len % w ≠ 0 then answered c rq k d1 (Rsp.st stBadField)
      else answered c rq k ((touched path off len w n).foldl rearm d1)
        (Rsp.bytes path off len ((List.range n).flatMap (fun k => toBytes w (rec d1 k)))) := by
  split
  next hpart =>
    refine serve_of_readTaken _ h ?_
    rw [tableRead, if_pos (by simpa using hpart)]
  next hwhole =>
    refine serve_of_readTaken _ h ?_
    rw [tableRead, if_neg (by simpa using hwhole)]

/-- The mark of free cells, read whole (R248). -/
theorem lwmAct_whole (path : Path) (c : Nat) (d : Dev) :
    lwmAct path 0 4 c d = ({ d with buf := { d.buf with lwm := bufFree d } }, some ⟨stOK, 0, 4, toBytes 4 (min d.buf.lwm (bufFree d))⟩) := by
  cases path <;> rfl

/-- Settles O12: each read's rule answers on the device that has taken the request. -/
theorem rearmingReadsComplete : Obligations.RearmingReadsComplete := by
  unfold Obligations.RearmingReadsComplete
  refine ⟨?qhwm, ?lwm, ?ctxHwm, ?timing, ?sample⟩
  case qhwm =>
    intro p d q rq off len c d1 k h
    exact exec_next_of_effect rfl (serve_tableRead rq.path off len 256 128 qhwmLink rearmLink h)
  case lwm =>
    intro p d q rq c d1 k h
    exact exec_next_of_effect rfl (serve_of_readTaken _ h (lwmAct_whole ..))
  case ctxHwm =>
    intro p d q rq off len c d1 k h
    exact exec_next_of_effect rfl (serve_tableRead rq.path off len 2 (16 * p.groves) _ _ h)
  case timing =>
    intro p d q rq off len c d1 k h
    exact exec_next_of_effect rfl (serve_tableRead rq.path off len 8 64 timingRec _ h)
  case sample =>
    intro p d q rq len c d1 k n h
    exact exec_next_of_effect rfl (serve_of_readTaken _ h rfl)

end Sys2Proof.Machine
end

section
/-! SUPPORT. The other engine commands (spec/05_stream_programs.md R87, R90, R93, R117, R121, R129; spec/12_routing_and_canopy.md R338;
spec/13_memory_stacks.md R355, R357): the conditions of each pick the branch of its meaning in which it acts. -/

namespace Sys2Proof.Machine

/-- An engine or a context that the part has. -/
theorem engine_exists {p : Part} {g e : Nat} (hg : g < p.groves) (he : e < 16) : (decide (g < p.groves) && decide (e < 16)) = true := by
  simp [hg, he]

theorem ctx_exists {p : Part} {g e c : Nat} (hg : g < p.groves) (he : e < 16) (hc : c < 4096) :
    (decide (g < p.groves) && decide (e < 16) && decide (c < 4096)) = true := by simp [hg, he, hc]

section
variable {p : Part} {d : Dev} {q : List Instr} {g e c : Nat} (hg : g < p.groves) (he : e < 16) (hc : c < 4096)

include hg he

/-- A command opens in the lowest FREE context (R90). -/
theorem exec_commandOpen {cmd : Cmd} {rest : List Cmd} (harc : d.runs domArc = true) (hq : (d.grove g).queue e = cmd :: rest)
    (hfree : freeCtx (d.grove g) e = some c) (hrun : (d.grove g).phase = .running) (hpause : (d.grove g).paused = false)
    (hwait : (d.grove g).waits cmd = false) (hstate : (d.grove g).statePoison = false) (hbody : (d.grove g).bodyPoison cmd = false)
    (hgood : bodyBad (d.grove g) (d.role g) (d.jobAcn (d.groveJob g)) cmd = false) :
    let gr := d.grove g
    let gr1 := ({ gr with ctxPoison := gr.ctxPoison.filter (· != e * 4096 + c) }.setQueue e rest).setCtx e c
      { Ctx.free with st := .ready, cmd := cmd, since := d.cycle }
    let d1 := raiseMark (d.setGrove g gr1) (1000 + 16 * g + e) (ctxInUse gr1 e)
    exec (.commandOpen g e) ⟨p, d, q⟩ = .next ⟨p, if (gr.head cmd).testBit 9 then tracePut p d1 g cmd.tag e c 0 0 else d1, q⟩ := by
  intro gr gr1 d1
  refine exec_next_of_liftAt rfl (engine_exists hg he) ?_
  simp only [hq, hfree]
  rw [if_neg (by simp [harc, hrun, hpause, hwait]), if_neg (by simp [hstate]), if_neg (by simp [hbody]), if_neg (by simp [hgood])]

include hc

/-- What a context waits for is there (R91, R121). -/
theorem exec_operandArrival (harc : d.runs domArc = true) (hrun : (d.grove g).phase = .running)
    (hst : ((d.grove g).ctx e c).st = .waitData) (hsent : (d.grove g).unsent e c = false)
    (hgo : (d.grove g).steps ((d.grove g).ctx e c).cmd ≤ ((d.grove g).ctx e c).steps ∨ heldUp d g e c = false)
    (hreqs : ∀ r ∈ (d.grove g).reqs, r.isOf e c = true →
      r.req.op ≠ 0x01 ∧ r.req.op < 0x10 ∧ r.req.caddr ∉ ((d.grove g).ctx e c).holds) :
    exec (.operandArrival g e c) ⟨p, d, q⟩ = .next ⟨p, d.setGrove g ((d.grove g).setCtx e c { (d.grove g).ctx e c with
      st := if (d.grove g).steps ((d.grove g).ctx e c).cmd ≤ ((d.grove g).ctx e c).steps then .waitWrite else .ready,
      since := d.cycle, holds := [] }), q⟩ := by
  have hasked : (d.grove g).reqs.any (fun r => r.isOf e c && (r.req.op == 0x01 || decide (0x10 ≤ r.req.op))) = false := by
    simp only [List.any_eq_false, Bool.and_eq_true, Bool.or_eq_true, beq_iff_eq, decide_eq_true_eq, not_and]
    intro r hr hof
    obtain ⟨hread, hatomic, -⟩ := hreqs r hr hof
    omega
  have hwritten : (d.grove g).writesPending e c = false := by
    simp only [Grove.writesPending, List.any_eq_false, Bool.and_eq_true, List.contains_iff_mem, not_and]
    intro r hr hof
    exact (hreqs r hr hof.1).2.2
  have hready : (decide ((d.grove g).steps ((d.grove g).ctx e c).cmd ≤ ((d.grove g).ctx e c).steps) || !heldUp d g e c) = true := by
    simpa using hgo
  refine exec_next_of_liftAt rfl (ctx_exists hg he hc) ((if_pos ?_).trans ?_)
  · simp [harc, hrun, hst, hsent, hready, hasked, hwritten]
  · simp only [decide_eq_true_eq]

/-- A finished command completes (R129). -/
theorem exec_commandComplete (harc : d.runs domArc = true) (hphase : (d.grove g).phase = .running ∨ (d.grove g).phase = .halted)
    (hpause : (d.grove g).paused = false) (hst : ((d.grove g).ctx e c).st = .waitWrite)
    (hreqs : ∀ r ∈ (d.grove g).reqs, r.isOf e c = false) :
    exec (.commandComplete g e c) ⟨p, d, q⟩ = .next ⟨p, completeCtx p d g e c, q⟩ := by
  have hnone : (d.grove g).reqs.any (fun r => r.isOf e c) = false := by simpa using hreqs
  refine exec_next_of_liftAt rfl (ctx_exists hg he hc) (if_pos ?_)
  obtain hphase | hphase := hphase <;> simp [harc, hpause, hphase, hst, hnone]

/-- A COPY whose read the stacks have reported on (R355). -/
theorem exec_copy_read {fx : StackFx} {d1 : Dev} (hcan : canStep d g e c 0x02 (some 0) = true) (hfx : fxIsWrite fx = false)
    (hread : copyFx p d (d.grove g) (stepOf p d g e c).a (64 * (stepOf p d g e c).n) fx = (d1, false))
    (hclean : cleanStep p d1 g e c (copyStep 0 (stepOf p d1 g e c)) = true) :
    exec (.copy g e c fx) ⟨p, d, q⟩ = .next ⟨p, stepDone p d1 g e c (copyStep 0 (stepOf p d1 g e c)), q⟩ := by
  refine exec_next_of_liftAt rfl (ctx_exists hg he hc) ?_
  simp only [hcan, hfx, hread, runStep_clean hclean, Bool.not_true, Bool.false_eq_true, if_false]

/-- A COPY whose write the stacks report on (R357): its step is done first. -/
theorem exec_copy_write {fx : StackFx} (hcan : canStep d g e c 0x02 (some 0) = true) (hfx : fxIsWrite fx = true)
    (hclean : cleanStep p d g e c (copyStep 0 (stepOf p d g e c)) = true) :
    exec (.copy g e c fx) ⟨p, d, q⟩ = .next ⟨p, (copyFx p (stepDone p d g e c (copyStep 0 (stepOf p d g e c))) (d.grove g)
      (stepOf p d g e c).dd (64 * (stepOf p d g e c).n) fx).1, q⟩ := by
  have hsteps : ((((stepDone p d g e c (copyStep 0 (stepOf p d g e c))).grove g).ctx e c).steps = (stepOf p d g e c).x.steps) = False := by
    rw [stepDone_steps]
    exact eq_false (Nat.succ_ne_self _)
  refine exec_next_of_liftAt rfl (ctx_exists hg he hc) ?_
  simp only [hcan, hfx, runStep_clean hclean, hsteps, Bool.not_true, Bool.false_eq_true, if_false, if_true]

/-- A window opens on stack addresses (R93, R117). -/
theorem exec_wopen (hcan : canStep d g e c 0x0A (some 0) = true)
    (hshut : (d.grove g).wins.get none (bits (stepOf p d g e c).prm 0 6) = none)
    (hstack : ∀ a ∈ readSequence (stepOf p d g e c), ∃ o, region p d (d.grove g) a 1 = some (.stack o)) :
    exec (.wopen g e c) ⟨p, d, q⟩ = .next ⟨p, finishSteps (d.setGrove g { d.grove g with
      wins := (d.grove g).wins.set none (bits (stepOf p d g e c).prm 0 6) (some (readSequence (stepOf p d g e c))) }) g e c, q⟩ := by
  have hall : (readSequence (stepOf p d g e c)).find? (fun a => match region p d (d.grove g) a 1 with
      | some (.stack _) => false
      | _ => true) = none := by
    rw [List.find?_eq_none]
    intro a ha
    obtain ⟨o, ho⟩ := hstack a ha
    simp [ho]
  refine exec_next_of_liftAt rfl (ctx_exists hg he hc) ((if_neg (by simp [hcan])).trans ?_)
  dsimp only
  split
  next a ha => exact absurd (ha.symm.trans hall) (by simp)
  next => exact if_neg (by simp [hshut])

/-- An atomic's request leaves, and its context waits (R338). -/
theorem atomicRun_sent {op : Nat} (hcan : canStep d g e c 0x0E (some op) = true) :
    let gr := d.grove g
    let t := stepOf p d g e c
    let ty := bits t.prm 28 4
    let r : StepRes := { reads := [{ addr := t.a, len := atomicLen op, align := 8 }],
                         writes := [{ addr := t.b, data := List.replicate 8 0, align := 8 }] }
    let ca := (canopyAt p d gr t.dd).getD 0
    let target : Wr := { addr := t.dd, data := List.replicate (atypeBytes ty) 0, align := atypeBytes ty, kind := 2 }
    badOperand p d gr { r with writes := r.writes ++ [target] } = none →
    missingLines p d gr t.x r = [] → pendingLines p d gr e c r = [] → rangeFlaws p d gr false t.a (atomicLen op) = [] →
    poisonOperand p d gr e r = none → e * 4096 + c ∉ gr.ctxPoison → gr.bodyPoison t.x.cmd = false → homeDead p d ca = false →
    atomicRun op g e c ⟨p, d, q⟩ = .next ⟨p, sendReqs (d.setGrove g (gr.setCtx e c { t.x with st := .waitData, holds := [] })) g
      [groveReq d g e c 0 op t.dd ca ty 0 (atomicPayload ty (t.get t.a (atomicLen op)))], q⟩ := by
  intro gr t ty r ca target hbad hmiss hpend hflaws hpoison hctx hbody hhome
  have hread : readFlaws p gr d r.reads = (d, none) := readFlaws_clean p gr d r.reads (by simp [r, hflaws])
  have hready : (!(missingLines p d gr t.x r).isEmpty || !(pendingLines p d gr e c r).isEmpty || gr.ctxPoison.contains (e * 4096 + c)
      || gr.bodyPoison t.x.cmd) = false := by simp [hmiss, hpend, hctx, hbody]
  rw [atomicRun, liftAt_next _ _ _ (ctx_exists hg he hc), if_neg (by simp [hcan])]
  dsimp only
  split
  next a ha => exact absurd (ha.symm.trans hbad) (by simp)
  next =>
    rw [if_neg (ne_true_of_eq_false hready), hread]
    dsimp only
    split
    next a ha => exact absurd (ha.symm.trans hpoison) (by simp)
    next => rw [if_neg (ne_true_of_eq_false hhome)]

end

/-- Settles O25: the conditions of each command pick the branch in which it acts. -/
theorem commandsOpenMoveAndComplete : Obligations.CommandsOpenMoveAndComplete := by
  intro p d q g e c hg he hc harc gr x t
  refine ⟨?opens, ?arrival, ?complete, ?copyRead, ?copyWrite, ?wopen, ?wclose, ?atomic⟩
  case opens =>
    intro cmd rest hq hfree hrun hpause hwait hstate hbody hgood
    exact exec_commandOpen hg he harc hq hfree hrun hpause hwait hstate hbody hgood
  case arrival =>
    intro hrun hst hsent hgo hreqs
    exact exec_operandArrival hg he hc harc hrun hst hsent hgo hreqs
  case complete =>
    intro hphase hpause hst hreqs
    exact exec_commandComplete hg he hc harc hphase hpause hst hreqs
  case copyRead =>
    intro fx d1 hcan hfx hread hclean
    exact exec_copy_read hg he hc hcan hfx hread hclean
  case copyWrite =>
    intro fx hcan hfx hclean
    exact exec_copy_write hg he hc hcan hfx hclean
  case wopen =>
    intro hcan hshut hstack
    exact exec_wopen hg he hc hcan hshut hstack
  case wclose =>
    intro hcan
    exact exec_next_of_liftAt rfl (ctx_exists hg he hc) (if_neg (by simp [hcan]))
  case atomic =>
    intro y hy w n r r1 ca hcan hbad hmiss hpend hflaws hpoison hctx hbody hhome
    have hexec : exec y.1 ⟨p, d, q⟩ = atomicRun y.2 g e c ⟨p, d, q⟩ := by
      simp only [List.mem_cons, List.not_mem_nil, or_false] at hy
      obtain rfl | rfl | rfl | rfl | rfl | rfl := hy <;> rfl
    exact hexec.trans (atomicRun_sent hg he hc hcan hbad hmiss hpend hflaws hpoison hctx hbody hhome)

end Sys2Proof.Machine
end

section
/-! SUPPORT. What a DEVICE-role grove does for a reduction or a move (spec/06_collectives.md R149, R158-R161, R172, R181, R261; log entry 104).
Each opcode's work on the operation is said on its own; one rule puts what it comes to back (`groveWork_next`). -/

namespace Sys2Proof.Machine

/-- Grove `g` of a device may work on operation `o`: it runs, it is in the DEVICE role, neither lost nor paused, and the operation is
admitted and not another grove's (R95, R181). -/
structure WorksOn (p : Part) (d : Dev) (g job coll : Nat) (o : Op) : Prop where
  unit : g < p.groves
  arc : d.runs domArc = true
  role : d.role g = 0
  phase : (d.grove g).phase ≠ .lost
  paused : (d.grove g).paused = false
  found : findOp d job coll = some o
  admitted : o.phase ≠ 0
  own : ∀ h, o.grove = some h → h = g

/-- Such work is put back, with its records when it did something. -/
theorem groveWork_next {p : Part} {d : Dev} {q : List Instr} {g job coll : Nat} {o : Op} (h : WorksOn p d g job coll o)
    {f : Part → Run → Run} {y : Run} (hf : f p (d, o) = y) :
    groveWork g job coll ⟨p, d, q⟩ f = .next ⟨p, commitRun p (if y.2 = o then y else (workRecords p g (d, o) y, y.2)), q⟩ := by
  rw [groveWork, liftAt_next _ _ _ (by simp [h.unit]), if_neg (by simp [h.arc, h.role, h.phase, h.paused]), onOp, h.found]
  dsimp only
  rw [if_neg, hf]
  cases hgrove : o.grove with
  | none => simp [h.admitted]
  | some k => simp [h.admitted, h.own k hgrove]

section
variable {p : Part} {d : Dev} {o : Op} (hphase : o.phase ≠ 4) (hpause : o.paused = false)
include hphase hpause

/-- A held input goes into its frame (R149). -/
theorem combineOne_added {h : HeldIn} {f : AFrame} {grown : Nat} (hfresh : h.used = false) (hslots : o.slots ≠ [])
    (hspill : o.spilled = []) (hred : reduces o.opc = true) (hk : h.c.chunk < o.chunks)
    (hroom : (o.frames.find? (fun y => y.chunk = h.c.chunk)).isSome = true ∨ o.frames.length < frameRoom o)
    (hadd : frameAdd o ((o.frames.find? (fun y => y.chunk = h.c.chunk)).getD (emptyFrame o h.c.chunk)) h.c = .ok (f, grown)) :
    combineOne p h (d, o) = (d.inc 0x4315 0 0 grown, { o with
      frames := o.frames.filter (fun y => y.chunk != h.c.chunk) ++ [f], idle := false,
      inputs := o.inputs.map (fun i => if keyOf i.c = keyOf h.c then { i with used := true } else i) }) := by
  have hfull : ¬ ((o.frames.find? (fun y => y.chunk = h.c.chunk)).isNone && decide (frameRoom o ≤ o.frames.length)) = true := by
    rw [Bool.and_eq_true, decide_eq_true_eq, Option.isNone_iff_eq_none, ← Option.not_isSome_iff_eq_none]
    rintro ⟨hnone, hfew⟩
    exact hroom.elim hnone (Nat.not_lt.mpr hfew)
  unfold combineOne
  dsimp only
  rw [if_neg (by simp [hfresh, hslots, hspill, hpause, hphase, hred]), if_neg (by omega), if_neg hfull, hadd]

/-- The counts of ALL_TO_ALLV pass (R172). -/
theorem cntsWork_passed (hopc : o.opc = 7) (hnew : o.marked [7] = false) (hdue : countsDue d o = true)
    (htotal : ∀ j ∈ o.here d, countTotal (o.mark [7]) j ≤ bits o.opx 0 44)
    (hmx : dscIscale o.desc = 1 ∨ dscIscale o.desc = 2 → ∀ c ∈ o.counts, c.2.2 % 1024 = 0) :
    cntsWork p (d, o) = (d, o.mark [7]) := by
  unfold cntsWork
  dsimp only
  rw [if_neg (by simp [hopc, hnew, hpause, hphase, hdue]), if_neg]
  simp only [Bool.or_eq_true, Bool.and_eq_true, List.any_eq_true, decide_eq_true_eq, bne_iff_ne]
  rintro (⟨j, hj, hover⟩ | ⟨hscale, c, hc, hodd⟩)
  · exact absurd (htotal j hj) (by omega)
  · exact hodd (hmx hscale c hc)

end

/-- A complete frame leaves as a PARTIAL (R161). -/
theorem poutWork_ready {p : Part} {d : Dev} {o : Op} {k up : Nat} {f : AFrame} (hready : readyFrame d o k = some f)
    (hup : o.parent (o.rootDev k) d.code = some up) :
    let r := sealPartial o f
    let stage := if o.stageDev (o.rootDev k) (d.code / 64) = some d.code then 2 else 1
    let c := { mkChunk o 1 k stage (o.lowest d.code) 0 r.1 with
      terms := f.terms, flags := if !compares o.desc && dscPart o.desc = 0 then 0 else (r.2.flags ||| f.flags) % 4096 }
    poutWork p k (d, o) = frameDone k (sendHeld p c [up] [] (addTally d r.2, o)) := by
  simp only [poutWork, hready, hup]

/-- At the root it becomes the RESULT (R158, R159). -/
theorem routWork_ready {p : Part} {d : Dev} {o : Op} {k : Nat} {f : AFrame} (hready : readyFrame d o k = some f)
    (hroot : o.parent (o.rootDev k) d.code = none) :
    let r := sealResult d o k (o.lowest d.code) 0 f.terms f.flags (frameVals o f)
      ((joinAll (f.accs.map tlimTally)).join (Tally.flag (compareFlags f)))
    let dest := resultDests d o k
    let o1 := { o with flags := o.flags ||| r.2.1.flags ||| f.flags, amax := magMax o.amax r.2.2 }
    let y := frameDone k (sendHeld p r.1 dest.1 dest.2 (addTally d r.2.1, o1))
    routWork p k (d, o) = if dest.2.isEmpty then y else noteGot [k] y := by
  intro r dest o1 y
  rw [routWork, hready]
  exact if_neg (by simp [hroot])

/-- Settles O34: each opcode's work is what its conditions let it be, and it is put back. -/
theorem deviceOpcodesComplete : Obligations.DeviceOpcodesComplete := by
  intro p d q g job coll o hg harc hrole hlost hgpause hfound hadmitted hphase hpause hown done
  have hwork : WorksOn p d g job coll o := ⟨hg, harc, hrole, hlost, hgpause, hfound, hadmitted, hown⟩
  refine ⟨?cin, ?pout, ?rout, ?cmove, ?cnts, ?fsave⟩
  case cin =>
    intro chunk src h f grown hin hslots hspill hred hk hroom hadd
    have hkey := List.find?_some hin
    simp only [Bool.and_eq_true, Bool.not_eq_true', decide_eq_true_eq] at hkey
    obtain ⟨⟨⟨hfresh, -⟩, rfl⟩, -⟩ := hkey
    refine groveWork_next hwork ?_
    simp only [hin]
    exact combineOne_added hphase hpause hfresh hslots hspill hred hk hroom hadd
  case pout =>
    intro k f up hred hready hup r stage c
    exact groveWork_next hwork ((if_neg (by simp [hphase, hred])).trans (poutWork_ready hready hup))
  case rout =>
    intro k f hred hready hroot r dest o1 y
    exact groveWork_next hwork ((if_neg (by simp [hphase, hred])).trans (routWork_ready hready hroot))
  case cmove =>
    intro chunk src dst h hin
    refine groveWork_next hwork ?_
    simp only [hin]
  case cnts =>
    intro hopc hnew hdue htotal hmx
    refine groveWork_next hwork ((if_pos hopc).trans ?_)
    rw [cntsWork_passed hphase hpause hopc hnew hdue htotal hmx]
  case fsave =>
    intro hspilled hslots hclean
    have hread : checkReads p d (if o.spill = some 255 then [(areaBase p d 2 + o.spillAt, spillBytes o.spilled)] else []) = (d, none) := by
      split
      next hsaved => exact checkReads_of_clean _ _ _ (hclean hsaved)
      next => rfl
    refine groveWork_next hwork ((if_neg (by simp [hspilled, hslots, hpause, hphase])).trans ?_)
    simp only [readArea, hread]

end Sys2Proof.Machine
end

section
/-! SUPPORT. Failures of groves, errors of their memories, and substitution (spec/04_engines_and_groves.md R78, R95, R99;
spec/18_faults_and_telemetry.md R455-R462; log entry 125). A failure is one rule (`failGrove_ready`); what an uncorrectable word
comes to is the rule of its place, once the grove works and does not wait for its substitute. -/

namespace Sys2Proof.Machine

section
variable {p : Part} {d : Dev} {q : List Instr} {g : Nat}

/-- An event leaves fixed-cycle mode as it is. -/
theorem inFcm_failedEvent (d : Dev) (g cause phys : Nat) : (failedEvent d g cause phys).inFcm = d.inFcm := by
  unfold Dev.inFcm failedEvent
  rw [(onlyEvents_emit ..).modes_eq]

theorem inFcm_faultStat (d : Dev) (k n : Nat) : (faultStat d k n).inFcm = d.inFcm := by
  unfold faultStat
  split <;> rfl

/-- A ready grove that does not wait for its substitute fails: counted, retired, reported, paused and put in line (R455, R457). `d0`
is the device with the failure counted. -/
theorem failGrove_ready {cause : Nat} {d0 : Dev}
    (hcount : (if cause = 1 then faultStat (faultStat d 0) 2 else if cause = 5 then faultStat (faultStat d 0) 3 else faultStat d 0) = d0)
    (hlost : (d.grove g).phase ≠ .lost) (hready : d.boot.readyGroves.testBit g = true) (hworks : ∀ x ∈ d.spares.failed, x.g ≠ g)
    (hfcm : d.inFcm = false) :
    let d1 : Dev := { d0 with spares := { d0.spares with retired := physOf d g :: d0.spares.retired } }
    failGrove p d g cause = beginSubst p 33 (queueSubst (pauseGrove (failedEvent d1 g cause (physOf d g)) g)
      ⟨g, cause, physOf d g, none⟩) := by
  intro d1
  have hfind : d.spares.failed.find? (fun x => x.g = g) = none := by simpa using hworks
  have hd0 : d0.inFcm = false := by
    rw [← hcount, ← hfcm]
    split_ifs <;> simp only [inFcm_faultStat]
  have hd2 : (failedEvent d1 g cause (physOf d g)).inFcm = false := (inFcm_failedEvent d1 g cause (physOf d g)).trans hd0
  have hevent : failInFcm p (failedEvent d1 g cause (physOf d g)) g = failedEvent d1 g cause (physOf d g) := by
    rw [failInFcm, hd2]
    rfl
  rw [failGrove, if_neg (by simp [hlost, hready]), hcount]
  dsimp only
  rw [hfind]
  exact congrArg (fun u => beginSubst p 33 (queueSubst (pauseGrove u g) ⟨g, cause, physOf d g, none⟩)) hevent

theorem exec_groveFailed {cause : Nat} (hg : g < p.groves) (harc : d.runs domArc = true) (hlow : 1 ≤ cause) (hhigh : cause ≤ 5) :
    exec (.groveFailed g cause) ⟨p, d, q⟩ = .next ⟨p, failGrove p d g cause, q⟩ :=
  exec_next_of_liftAt rfl (by simp [hg, hlow, hhigh]) (if_pos harc)

theorem exec_groveStallDetect (hg : g < p.groves) (harc : d.runs domArc = true) :
    exec (.groveStallDetect g) ⟨p, d, q⟩ = .next ⟨p, failGrove p d g 5, q⟩ :=
  exec_next_of_liftAt rfl (by simp [hg]) (if_pos harc)

/-- Corrected errors are counted, also of a grove that is held (R101). -/
theorem exec_sramCorrected (hg : g < p.groves) (harc : d.runs domArc = true) (hlost : (d.grove g).phase ≠ .lost) (n : Nat) (again : Bool) :
    exec (.sramUncorrectable g (.corrected n) again) ⟨p, d, q⟩ = .next ⟨p, d.inc 0x4003 0 0 n, q⟩ :=
  exec_next_of_liftAt rfl (by simp [hg]) (if_neg (by simp [harc, hlost]))

/-- An uncorrectable word: in a grove that works it is taken by its place, in one that waits for its substitute it is marked (R459). -/
theorem exec_sramUncorrectable (hg : g < p.groves) (harc : d.runs domArc = true) (hlost : (d.grove g).phase ≠ .lost) {w : SramWhere}
    (again : Bool) (hw : ∀ n, w ≠ .corrected n) : exec (.sramUncorrectable g w again) ⟨p, d, q⟩ =
      .next ⟨p, if d.spares.failed.any (fun x => x.g = g) then poisonWord d g w else badSram p d g w again, q⟩ := by
  refine exec_next_of_liftAt rfl (by simp [hg]) ((if_neg (by simp [harc, hlost])).trans ?_)
  cases w with
  | corrected n => exact absurd rfl (hw n)
  | context | data | imem | frame | other => rfl

theorem exec_sram_working (hg : g < p.groves) (harc : d.runs domArc = true) (hlost : (d.grove g).phase ≠ .lost)
    (hworks : ∀ x ∈ d.spares.failed, x.g ≠ g) {w : SramWhere} {again : Bool} {u : Dev} (hw : ∀ n, w ≠ .corrected n)
    (hu : badSram p d g w again = u) : exec (.sramUncorrectable g w again) ⟨p, d, q⟩ = .next ⟨p, u, q⟩ := by
  rw [exec_sramUncorrectable hg harc hlost again hw, if_neg (by simpa using hworks), hu]

theorem exec_sram_waiting (hg : g < p.groves) (harc : d.runs domArc = true) (hlost : (d.grove g).phase ≠ .lost)
    (hwaits : ∃ x ∈ d.spares.failed, x.g = g) {w : SramWhere} {again : Bool} (hw : ∀ n, w ≠ .corrected n) :
    exec (.sramUncorrectable g w again) ⟨p, d, q⟩ = .next ⟨p, poisonWord d g w, q⟩ := by
  rw [exec_sramUncorrectable hg harc hlost again hw, if_pos (by simpa using hwaits)]

/-- Marking a word of data moves no context. -/
theorem poisonWord_data_ctx (d : Dev) (g e c k : Nat) (scratch : Bool) (j i : Nat) :
    ((poisonWord d g (.data e c k scratch)).grove g).ctx j i = (d.grove g).ctx j i := by
  unfold poisonWord
  split
  · rfl
  · rw [Dev.grove_setGrove]
    split <;> rfl

theorem eccContext_open {e c addr : Nat} (hopen : ((d.grove g).ctx e c).st ≠ .free) :
    eccContext p d g e c addr = ctxFault p d g e c 0x03 stCheckFail addr := if_neg (by simpa using hopen)

end

/-- Settles O55: each event acts by the rule of its cause or of the word's place. -/
theorem groveFailuresComplete : Obligations.GroveFailuresComplete := by
  intro p d q g hg harc hlost gr fail works ready
  have hsram := @exec_sram_working p d q g hg harc hlost
  refine ⟨?first, ?others, ?stall, ?jobContext, ?jobState, ?frame, ?corrected, ?fails, ?waiting, ?substituted⟩
  case first =>
    rintro ⟨hready, hworks, hfcm⟩
    rw [exec_groveFailed hg harc (by omega) (by omega), failGrove_ready rfl hlost hready hworks hfcm]
    rfl
  case others =>
    rintro cause hlow hhigh ⟨hready, hworks, hfcm⟩
    have hcount : (if cause = 1 then faultStat (faultStat d 0) 2 else if cause = 5 then faultStat (faultStat d 0) 3 else faultStat d 0) =
        d.inc 0x9021 0 0 := (if_neg (by omega)).trans (if_neg (by omega))
    rw [exec_groveFailed hg harc (by omega) (by omega), failGrove_ready hcount hlost hready hworks hfcm]
  case stall =>
    rintro ⟨hready, hworks, hfcm⟩
    rw [exec_groveStallDetect hg harc, failGrove_ready rfl hlost hready hworks hfcm]
    rfl
  case jobContext =>
    intro hworks hrole e c hopen
    refine ⟨hsram hworks nofun ((if_neg hrole).trans (eccContext_open hopen)), fun k scratch => hsram hworks nofun ?_⟩
    exact (if_neg hrole).trans (eccContext_open (by rwa [poisonWord_data_ctx]))
  case jobState =>
    intro hworks hrole slot word
    exact ⟨hsram hworks nofun (if_neg hrole), hsram hworks nofun (if_neg hrole)⟩
  case frame =>
    intro hworks hrole slot word
    exact hsram hworks nofun (if_pos hrole)
  case corrected => exact fun n again => exec_sramCorrected hg harc hlost n again
  case fails =>
    intro hworks failed
    refine ⟨fun n again => hsram hworks nofun rfl, fun slot word => hsram hworks nofun rfl, hsram hworks nofun rfl,
      fun e c => hsram hworks nofun rfl, fun e c k scratch => hsram hworks nofun rfl, fun hrole => ⟨?_, ?_, ?_⟩⟩
    · exact hsram hworks nofun (if_pos hrole)
    · exact fun e c => hsram hworks nofun (if_pos hrole)
    · exact fun e c k scratch => hsram hworks nofun (if_pos hrole)
  case waiting => exact fun w again hwaits hw => exec_sram_waiting hg harc hlost hwaits hw
  case substituted =>
    intro x xs k duration hline hspare hx hfcm
    refine exec_next_of_liftAt rfl (by simp [hg]) ?_
    simp only [hline, hspare]
    exact if_pos (by simp [hx, harc, hfcm])

end Sys2Proof.Machine
end

section
/-! SUPPORT. The sequencer's register instructions and branches (spec/05_stream_programs.md R108-R110). An instruction that is next
has its effect on the word fetched (`exec_next_of_seqRun`), so what is said of one is said of its effect. -/

namespace Sys2Proof.Machine

/-- A sequencer's instruction that is next, by its effect on the word fetched. -/
theorem exec_next_of_seqRun {c : Instr} {s : State} {g op w : Nat} {f : Part → Dev → Nat → Dev} {d : Dev}
    (hc : exec c s = seqRun g op s f) (hg : g < s.part.groves) (hw : seqWord s.dev g op = some w) (hd : f s.part s.dev w = d) :
    exec c s = .next { s with dev := d } := by
  rw [hc, seqRun_next f hg hw, hd]

/-- Settles O18: the laws of a register read after a register written. -/
theorem zeroRegisterIsWired : Obligations.ZeroRegisterIsWired := fun gr i j v =>
  ⟨gr.reg_zero, gr.setReg_zero v, Grove.reg_zero _, gr.reg_setReg i v, gr.reg_setReg_other i j v⟩

/-- A branch goes to its target where its condition holds, and to the next word elsewhere. -/
theorem branchInstr_eq_ite {g w : Nat} {taken : Word → Word → Bool} {d : Dev} {P : Prop} [Decidable P]
    (h : taken ((d.grove g).reg (fSA w)) ((d.grove g).reg (fSB w)) = true ↔ P) :
    branchInstr g w taken d = d.setGrove g (if P then (d.grove g).goto (fTarget w) else (d.grove g).advance) := by
  simp only [branchInstr, h]

/-- Settles O14: each instruction's effect is a register written, or a branch on its condition. -/
theorem sequencerRegisterInstructionsComplete : Obligations.SequencerRegisterInstructionsComplete := by
  refine ⟨?registers, ?branches⟩
  case registers =>
    intro p d q g w hg gr put
    refine ⟨?nop, ?li, ?lih, ?add, ?sub, ?and, ?or, ?xor, ?shl, ?shr, ?mul, ?addi, ?rdpace, ?rdcyc⟩ <;>
      exact fun hw => exec_next_of_seqRun rfl hg hw rfl
  case branches =>
    intro p d q g w hg gr go
    refine ⟨?beq, ?bne, ?blt, ?bge, ?bltu, ?jmp⟩
    case beq => exact fun hw => exec_next_of_seqRun rfl hg hw (branchInstr_eq_ite beq_iff_eq)
    case bne => exact fun hw => exec_next_of_seqRun rfl hg hw (branchInstr_eq_ite bne_iff_ne)
    case blt => exact fun hw => exec_next_of_seqRun rfl hg hw (branchInstr_eq_ite BitVec.slt_iff_toInt_lt)
    case bge =>
      refine fun hw => exec_next_of_seqRun rfl hg hw (branchInstr_eq_ite ?_)
      rw [← BitVec.sle_eq_not_slt, BitVec.sle_iff_toInt_le]
    case bltu => exact fun hw => exec_next_of_seqRun rfl hg hw (branchInstr_eq_ite BitVec.ult_iff_toNat_lt)
    case jmp => exact fun hw => exec_next_of_seqRun rfl hg hw rfl

/-- A register instruction writes one register and goes on. -/
theorem regInstr_frame (g : Nat) (f : Grove → Dev → Word) (i : Nat) (d : Dev) : ∃ pc regs,
    regInstr g f i d = d.setGrove g { d.grove g with regs := regs, pc := pc, stall := .none } ∧
      ∀ j, j ≠ i → ((regInstr g f i d).grove g).reg j = (d.grove g).reg j := by
  obtain ⟨regs, hregs⟩ := setReg_regs (d.grove g) i (f (d.grove g) d)
  refine ⟨(d.grove g).pc + 1, regs, ?_, fun j hj => ?_⟩
  · rw [regInstr, hregs]
    rfl
  · rw [regInstr, Dev.grove_setGrove, Grove.reg_advance, Grove.reg_setReg_other _ _ _ _ hj]

/-- Each register instruction writes a value that its word and the grove make. -/
theorem exec_registerInstr {x : Nat → Instr} (hx : x ∈ [Instr.li, .lih, .add, .sub, .andR, .orR, .xorR, .shl, .shr, .mul, .addi, .rdpace,
      .rdcyc]) : ∃ (op : Nat) (f : Nat → Grove → Dev → Word), ∀ g s,
    exec (x g) s = seqRun g op s fun _ d w => regInstr g (f w) (fSD w) d := by
  simp only [List.mem_cons, List.not_mem_nil, or_false] at hx
  obtain rfl | rfl | rfl | rfl | rfl | rfl | rfl | rfl | rfl | rfl | rfl | rfl | rfl := hx <;> exact ⟨_, _, fun _ _ => rfl⟩

/-- A branch only goes to some word. -/
theorem branchInstr_frame (g w : Nat) (taken : Word → Word → Bool) (d : Dev) :
    ∃ pc, branchInstr g w taken d = d.setGrove g ((d.grove g).goto pc) := by
  dsimp only [branchInstr]
  split
  · exact ⟨fTarget w, rfl⟩
  · exact ⟨(d.grove g).pc + 1, rfl⟩

/-- NOP and each branch only go to some word. -/
theorem exec_gotoInstr {x : Nat → Instr} (hx : x ∈ [Instr.nop, .beq, .bne, .blt, .bge, .bltu, .jmp]) (g : Nat) :
    ∃ (op : Nat) (f : Part → Dev → Nat → Dev), (∀ s, exec (x g) s = seqRun g op s f) ∧
      ∀ p d w, ∃ pc, f p d w = d.setGrove g ((d.grove g).goto pc) := by
  simp only [List.mem_cons, List.not_mem_nil, or_false] at hx
  obtain rfl | hx := hx
  · exact ⟨_, _, fun _ => rfl, fun _ _ _ => ⟨_, rfl⟩⟩
  · obtain rfl | rfl | rfl | rfl | rfl | rfl := hx <;> exact ⟨_, _, fun _ => rfl, fun _ d w => branchInstr_frame g w _ d⟩

/-- Settles O19: an instruction that acts writes a register or goes to a word, and does nothing else. -/
theorem registerInstructionsFrame : Obligations.RegisterInstructionsFrame := by
  refine ⟨fun x hx g s t h => ?registers, fun x hx g s t h => ?branches⟩
  case registers =>
    obtain ⟨op, f, hexec⟩ := exec_registerInstr hx
    obtain rfl | ⟨w, hw, rfl⟩ := seqRun_any _ ((hexec g s).symm.trans h)
    · exact .inl rfl
    · obtain ⟨pc, regs, heq, hother⟩ := regInstr_frame g (f w) (fSD w) s.dev
      exact .inr ⟨w, pc, regs, seqWord_fetch hw, by rw [heq], hother⟩
  case branches =>
    obtain ⟨op, f, hexec, hgoto⟩ := exec_gotoInstr hx g
    obtain rfl | ⟨w, hw, rfl⟩ := seqRun_any _ ((hexec s).symm.trans h)
    · exact .inl rfl
    · obtain ⟨pc, heq⟩ := hgoto s.part s.dev w
      exact .inr ⟨pc, by rw [heq]; rfl⟩

end Sys2Proof.Machine
end
section
/-! SUPPORT. Grove memory, flags and the sequencer's other instructions (spec/05_stream_programs.md R110-R113, R126-R129, R134, R137,
R138): the conditions of each pick the branch of its meaning in which it acts. -/

namespace Sys2Proof.Machine

/-! ### LDW and STW (R110, R111) -/

/-- A word stored reads back. -/
theorem Grove.store8_readNat (gr : Grove) (o : Nat) (v : Word) : (gr.store8 o v.toNat).gmem.readNat 0#8 o 8 = v.toNat := by
  rw [Grove.store8, Mem.readNat_writeNat]
  exact Nat.mod_eq_of_lt v.isLt

/-- A store leaves the bytes outside its word. -/
theorem Grove.store8_read_outside (gr : Grove) {o a : Nat} (v : Nat) (h : a < o ∨ o + 8 ≤ a) :
    (gr.store8 o v).gmem.read 0#8 a = gr.gmem.read 0#8 a :=
  Mem.read_writeN_outside _ _ _ _ _ (by rwa [toBytes_length])

section
variable {p : Part} {d : Dev} {q : List Instr} {g w : Nat} (hg : g < p.groves)
include hg

theorem exec_ldw {o : Nat} (hw : seqWord d g 0x18 = some w) (ho : groveWordAt ((d.grove g).reg (fSA w) + fImm w) = some o)
    (hsound : o / 8 ∉ (d.grove g).poison) : exec (.ldw g) ⟨p, d, q⟩ = .next ⟨p,
      d.setGrove g ((d.grove g).setReg (fSD w) (BitVec.ofNat 64 ((d.grove g).gmem.readNat 0#8 o 8))).advance, q⟩ := by
  refine exec_next_of_seqRun rfl hg hw ?_
  simp only [ho]
  exact if_neg (by simpa using hsound)

theorem exec_stw {o : Nat} (hw : seqWord d g 0x19 = some w) (ho : groveWordAt ((d.grove g).reg (fSA w) + fImm w) = some o) :
    exec (.stw g) ⟨p, d, q⟩ = .next ⟨p, d.setGrove g ((d.grove g).store8 o ((d.grove g).reg (fSD w)).toNat).advance, q⟩ := by
  refine exec_next_of_seqRun rfl hg hw ?_
  simp only [ho]

end

/-- Settles O20: the store is the grove's new memory, and the laws of memory say what it holds. -/
theorem storeWordStoresEightBytes : Obligations.StoreWordStoresEightBytes := by
  intro p d q g w o hg hw ho
  refine ⟨_, exec_stw hg hw ho, ?_⟩
  simp only [Dev.grove_setGrove, Grove.advance_gmem, Grove.advance_regs, Grove.advance_flags, Grove.advance_ctxs, Grove.advance_scratch]
  exact ⟨Grove.store8_readNat .., fun a ha => Grove.store8_read_outside _ _ ha, Mem.wf_writeNat _ _ _ _ _, rfl, rfl, rfl, rfl, rfl,
    fun h hne => Dev.grove_setGrove_other _ _ _ _ hne⟩

/-! ### Flags (R126, R127) -/

section
variable {p : Part} {d : Dev} {g f : Nat} {x : Flag}

theorem flagGrow_within (h : x.c + x.pl + x.pe ≤ 65535) : flagGrow p d g f x = d.setGrove g ((d.grove g).setFlag f x).advance :=
  if_neg (Nat.not_lt.mpr h)

theorem flagGrow_beyond (h : 65535 < x.c + x.pl + x.pe) : flagGrow p d g f x = seqFault p d g 0x07 stBadField := if_pos h

end

section
variable {p : Part} {d : Dev} {q : List Instr} {g w : Nat} (hg : g < p.groves)
include hg

/-- FDECL declares setters, within the flag's range or not. -/
theorem exec_fdecl (hw : seqWord d g 0x20 = some w) :
    let x := (d.grove g).flag (fFlag w)
    exec (.fdecl g) ⟨p, d, q⟩ = .next ⟨p, flagGrow p d g (fFlag w) { x with pl := x.pl + fN1 w, pe := x.pe + fN2 w }, q⟩ :=
  exec_next_of_seqRun rfl hg hw rfl

/-- FSET counts sets, within the flag's range or not. -/
theorem exec_fset (hw : seqWord d g 0x21 = some w) (hn : fN1 w ≠ 0) :
    let x := (d.grove g).flag (fFlag w)
    exec (.fset g) ⟨p, d, q⟩ = .next ⟨p, flagGrow p d g (fFlag w) { x with c := x.c + fN1 w }, q⟩ :=
  exec_next_of_seqRun rfl hg hw (if_neg hn)

/-- FCLR clears a flag that has no setter. -/
theorem exec_fclr (hw : seqWord d g 0x22 = some w) (hpl : ((d.grove g).flag (fFlag w)).pl = 0)
    (hpe : ((d.grove g).flag (fFlag w)).pe = 0) : exec (.fclr g) ⟨p, d, q⟩ = .next ⟨p,
      d.setGrove g ((d.grove g).setFlag (fFlag w) { (d.grove g).flag (fFlag w) with c := 0 }).advance, q⟩ :=
  exec_next_of_seqRun rfl hg hw (if_neg (by simp [hpl, hpe]))

/-- FCLR of a flag that has setters faults. -/
theorem exec_fclr_busy (hw : seqWord d g 0x22 = some w)
    (hbusy : ((d.grove g).flag (fFlag w)).pl ≠ 0 ∨ ((d.grove g).flag (fFlag w)).pe ≠ 0) :
    exec (.fclr g) ⟨p, d, q⟩ = .next ⟨p, seqFault p d g 0x08 stBadField, q⟩ :=
  exec_next_of_seqRun rfl hg hw (if_pos (by simpa using hbusy))

/-- FWAIT goes on at its target, and stalls before it. -/
theorem exec_fwait (hw : seqWord d g 0x23 = some w) : exec (.fwait g) ⟨p, d, q⟩ = .next ⟨p, d.setGrove g
    (if fwaitTarget (d.grove g) w ≤ ((d.grove g).flag (fFlag w)).c then (d.grove g).advance
      else { d.grove g with stall := .fwait (fFlag w) (fwaitTarget (d.grove g) w) }), q⟩ :=
  exec_next_of_seqRun rfl hg hw rfl

end

/-- Settles O15: each instruction's conditions pick its effect. -/
theorem sequencerMemoryAndFlagsComplete : Obligations.SequencerMemoryAndFlagsComplete := by
  intro p d q g w hg gr x go
  refine ⟨?ldw, ?stw, ?fdecl, ?fset, ?fclr, ?fwait⟩
  case ldw => exact fun o hw ho hsound => exec_ldw hg hw ho hsound
  case stw => exact fun o hw ho => exec_stw hg hw ho
  case fdecl =>
    intro hw hsum
    rw [exec_fdecl hg hw, flagGrow_within hsum]
  case fset =>
    intro hw hn hsum
    rw [exec_fset hg hw hn, flagGrow_within hsum]
  case fclr => exact fun hw hpl hpe => exec_fclr hg hw hpl hpe
  case fwait =>
    intro hw t
    refine (exec_fwait hg hw).trans ?_
    change Host.Outcome.next _ = if fwaitTarget gr w ≤ x.c then _ else _
    split <;> rfl

/-! ### APLD, WPACE, ISSUE and a word that does not run (R110-R113, R128, R459) -/

section
variable {p : Part} {d : Dev} {q : List Instr} {g w : Nat} (hg : g < p.groves)
include hg

/-- APLD loads an aperture once nothing is queued or open. -/
theorem exec_apld (hw : seqWord d g 0x28 = some w) (hquiet : (d.grove g).quiet = true)
    (halign : ((d.grove g).reg (fSA w)).toNat % 2 ^ 32 = 0) : exec (.apld g) ⟨p, d, q⟩ = .next ⟨p, d.setGrove g
      (Grove.advance { d.grove g with aps := (d.grove g).aps.set none (fSD w) (some ((d.grove g).reg (fSA w)).toNat) }), q⟩ := by
  refine exec_next_of_seqRun rfl hg hw ?_
  dsimp only
  rw [if_neg (by simp [hquiet]), if_neg (by simpa using halign)]

/-- ISSUE pushes its command where every queue has room and its flag has the setters declared. -/
theorem exec_issue (hw : seqWord d g 0x30 = some w) (hsome : emask w ≠ []) (hoff : bits w 4 5 < 30)
    (hset : let h := (d.grove g).head (issueCmd (d.grove g) w)
      h.testBit 19 = true → ((d.grove g).flag (bits h 11 8)).s + (issueCmd (d.grove g) w).copies ≤ ((d.grove g).flag (bits h 11 8)).pl)
    (hroom : ∀ e ∈ emask w, ((d.grove g).queue e).length < 64)
    (hsound : (d.grove g).wordPoison (d.grove g).bank (issueCmd (d.grove g) w).body = false) :
    exec (.issue g) ⟨p, d, q⟩ = .next ⟨p, d.setGrove g (pushAll (d.grove g) w).advance, q⟩ := by
  refine exec_next_of_seqRun rfl hg hw ?_
  dsimp only
  rw [if_neg (by simp [hsome, hoff]), if_neg (by simp [hsound]), if_neg (by simpa using hset), if_neg (by simpa using hroom)]

/-- A word that is poisoned, or that R110 does not let run, halts its grove. -/
theorem exec_seqIllegal (hfetch : canFetch d g = true)
    (hbad : fetchPoison d g = true ∨ ∀ v, fetchWord d g = some v → legalWord v = false) :
    exec (.seqIllegal g) ⟨p, d, q⟩ = .next ⟨p, seqFault p d g (if fetchPoison d g then 0x03 else 0x05)
      (if fetchPoison d g then stCheckFail else stBadField), q⟩ := by
  refine exec_next_of_liftAt rfl (decide_eq_true hg) ?_
  cases hpoison : fetchPoison d g with
  | true => exact if_pos (by simp [hfetch])
  | false =>
    have hword : (fetchWord d g).any legalWord = false := by
      rw [Option.any_eq_false]
      exact hbad.resolve_left (by simp [hpoison])
    rw [if_neg (by simp), if_pos (by simp [hfetch, hword])]
    rfl

end

/-- Settles O16: each instruction's conditions pick its effect. -/
theorem sequencerControlInstructionsComplete : Obligations.SequencerControlInstructionsComplete := by
  intro p d q g w hg gr cm h
  refine ⟨?apld, ?wpace, ?issue, ?bsync, ?endProg, ?trace, ?illegal⟩
  case apld => exact fun hw hquiet halign => exec_apld hg hw hquiet halign
  case wpace => exact fun hw hreached => exec_next_of_seqRun rfl hg hw (if_pos hreached)
  case issue => exact fun hw hsome hoff hset hroom hsound => exec_issue hg hw hsome hoff hset hroom hsound
  case bsync => exact fun hw => exec_next_of_seqRun rfl hg hw rfl
  case endProg => exact fun hw => exec_next_of_seqRun rfl hg hw rfl
  case trace => exact fun hw => exec_next_of_seqRun rfl hg hw rfl
  case illegal =>
    intro hfetch hbad
    rw [exec_seqIllegal hg hfetch hbad]
    split <;> rfl

end Sys2Proof.Machine
end
section
/-! SUPPORT. Waits and sets from outside, and what each operation of R127 does to flags (spec/05_stream_programs.md R127-R131,
R139-R141; spec/14_pace_and_time.md R368). -/

namespace Sys2Proof.Machine

/-! ### Wait limits (R141) -/

/-- The number a wait is noted under: its queue's engine, or 16 for the sequencer. -/
def waiterNumber : Waiter → Nat
  | .queue e => e
  | .sequencer => 16

/-- A wait noted stands beyond its grove's limit, in ARC cycles or in units of the visible pace count. -/
def beyondLimit (d : Dev) (g : Nat) (n : WaitNote) : Bool :=
  let cycles := (d.cycle + 2 ^ 64 - n.cycle) % 2 ^ 64
  if (waitLimit d g).1 then decide ((waitLimit d g).2 < d.pace.visible - n.pace) || decide (2 ^ 40 < cycles)
  else decide ((waitLimit d g).2 < cycles)

/-- A wait that stands and has been noted exceeds its limit when its note says so. -/
theorem waitExceeds_noted {d : Dev} {g k : Nat} {w : Waiter} {key : List Nat} {n : WaitNote} (hk : waiterNumber w = k)
    (hstands : (standingWaits d (d.grove g)).find? (fun x => x.1 = k) = some (k, key))
    (hnote : (d.grove g).waitsAt.find? (fun n => n.waiter = k && n.key = key) = some n) :
    waitExceeds d g w = beyondLimit d g n := by
  unfold waitExceeds
  extract_lets i
  have hi : i = k := by
    subst hk
    cases w <;> rfl
  clear_value i
  subst hi
  simp only [hstands, hnote]
  rfl

/-- The sequencer's wait stands while its flag is short of its target. -/
theorem standingWaits_fwait (d : Dev) {gr : Grove} {f t : Nat} (hstall : gr.stall = .fwait f t) (hshort : (gr.flag f).c < t) :
    (standingWaits d gr).find? (fun x => x.1 = 16) = some (16, [gr.pc, t]) := by
  simp only [standingWaits, hstall, hshort, if_true]
  exact standingWaits_sequencer _ rfl

/-- So does its wait for a pace not yet visible. -/
theorem standingWaits_wpace {d : Dev} {gr : Grove} {t : Nat} (hstall : gr.stall = .wpace t) (hshort : d.pace.visible < t) :
    (standingWaits d gr).find? (fun x => x.1 = 16) = some (16, [gr.pc, t]) := by
  simp only [standingWaits, hstall, hshort, if_true]
  exact standingWaits_sequencer _ rfl

section
variable {p : Part} {d : Dev} {q : List Instr} {g : Nat}

/-- The limit of a wait that has been noted: the grove halts when the wait is beyond it, and nothing happens when not. -/
theorem exec_waitLimitExpiry {k : Nat} {w : Waiter} {key : List Nat} {n : WaitNote} (hg : g < p.groves) (harc : d.runs domArc = true)
    (hrun : (d.grove g).phase = .running) (hk : waiterNumber w = k)
    (hstands : (standingWaits d (d.grove g)).find? (fun x => x.1 = k) = some (k, key))
    (hnote : (d.grove g).waitsAt.find? (fun n => n.waiter = k && n.key = key) = some n) :
    exec (.waitLimitExpiry g w) ⟨p, d, q⟩ = .next ⟨p, if beyondLimit d g n then limitHalt p d g else d, q⟩ := by
  refine exec_next_of_liftAt rfl (decide_eq_true hg) ?_
  simp only [harc, hrun, waitExceeds_noted hk hstands hnote, beq_self_eq_true, Bool.true_and]

/-- The detector of wait cycles samples a running grove (R140). -/
theorem exec_waitCycleSample (hg : g < p.groves) (harc : d.runs domArc = true) (hrole : d.role g = 1)
    (hrun : (d.grove g).phase = .running) :
    let unsampled := d.setGrove g { d.grove g with sampled := false }
    exec (.waitCycleSample g) ⟨p, d, q⟩ = .next ⟨p,
      if waitCycle (d.grove g) = false then unsampled
      else if (d.grove g).sampled = true then seqFault p (unsampled.inc 0x4103 1 0) g 0x09 stWaitCycle
      else d.setGrove g { d.grove g with sampled := true }, q⟩ := by
  refine exec_next_of_liftAt rfl (decide_eq_true hg) ((if_neg (by simp [harc, hrole, hrun])).trans ?_)
  simp only [Bool.not_eq_true']

/-- A set from outside for the grove's job is applied (R130). -/
theorem exec_externalSet {home job f : Nat} (hg : g < p.groves) (harc : d.runs domArc = true)
    (hphase : (d.grove g).phase = .running ∨ (d.grove g).phase = .halted) (hrole : d.role g = 1) (hjob : d.groveJob g = job)
    (hpe : 0 < ((d.grove g).flag f).pe) :
    exec (.externalSet home job g f) ⟨p, d, q⟩ = .next ⟨p, d.setGrove g ((d.grove g).setFlag f
      { (d.grove g).flag f with c := ((d.grove g).flag f).c + 1, pe := ((d.grove g).flag f).pe - 1 }), q⟩ := by
  refine exec_next_of_effect rfl ((if_pos harc).trans (if_pos ?_))
  obtain hphase | hphase := hphase <;> simp [hg, hphase, hrole, hjob, hpe]

end

/-- Settles O17: a wait stands as its kind has it, and its note says whether it is beyond the limit. -/
theorem waitsAndExternalSetsComplete : Obligations.WaitsAndExternalSetsComplete := by
  intro p d q g hg harc gr unsampled limit beyond began halted
  refine ⟨?sample, ?fwait, ?wpace, ?queue, ?external⟩
  case sample => exact fun hrole hrun => exec_waitCycleSample hg harc hrole hrun
  case fwait =>
    intro f t n hrun hstall hshort hnote
    exact exec_waitLimitExpiry hg harc hrun rfl (standingWaits_fwait d hstall hshort) hnote
  case wpace =>
    intro t n hrun hstall hshort hnote
    exact exec_waitLimitExpiry hg harc hrun rfl (standingWaits_wpace hstall hshort) hnote
  case queue =>
    intro e c cs n he hrun hqueue hwaits hnote
    exact exec_waitLimitExpiry hg harc hrun rfl (standingWaits_queue d gr he hqueue hwaits) hnote
  case external =>
    intro home job f hphase hrole hjob hpe
    exact exec_externalSet hg harc hphase hrole hjob hpe

/-! ### What changes flags (R127) -/

/-- ISSUE of a body with SETF_EN counts its copies in S of the flag named, and changes no other flag. -/
theorem pushAll_flag {gr : Grove} {w : Nat} (hset : (gr.head (issueCmd gr w)).testBit 19 = true) (k : Nat) :
    let f := bits (gr.head (issueCmd gr w)) 11 8
    (pushAll gr w).flag k = (gr.setFlag f { gr.flag f with s := (gr.flag f).s + (issueCmd gr w).copies }).flag k := by
  dsimp only [pushAll]
  rw [if_pos hset]
  exact fold_flag ..

/-- A completion changes the flags as its local set does, when it signals nobody. -/
theorem completeCtx_flag {p : Part} {d : Dev} {g e c : Nat} (hquiet : signals (d.grove g) ((d.grove g).ctx e c).cmd = false)
    (hset : ((d.grove g).head ((d.grove g).ctx e c).cmd).testBit 19 = true) (k : Nat) :
    ((completeCtx p d g e c).grove g).flag k =
      ((d.grove g).localSet (bits ((d.grove g).head ((d.grove g).ctx e c).cmd) 11 8)).flag k := by
  unfold completeCtx
  extract_lets gr x h d1 d2 gr2 gr3 d3 d4 d5
  have h1 : ∀ j, (d1.grove g).flag j = gr.flag j := by
    intro j
    dsimp only [d1]
    split
    · exact ringPut_flag ..
    · rfl
  have h2 : ∀ j, gr2.flag j = gr.flag j := by
    intro j
    dsimp only [gr2, d2]
    split
    · exact (tracePut_flag ..).trans (h1 j)
    · exact h1 j
  have h3 : (d3.grove g).flag k = (gr.localSet (bits h 11 8)).flag k := by
    rw [Dev.grove_setGrove]
    dsimp only [gr3]
    rw [if_pos hset]
    change (gr2.localSet (bits h 11 8)).flag k = _
    rw [localSet_flag, localSet_flag, h2, h2]
  have h4 : d4.grove g = d3.grove g := by
    dsimp only [d4]
    split
    · rw [(onlyMem_storeHist ..).grove, freeScale_grove]
    · rfl
  have h5 : d5 = d4 := if_neg (by simp [gr, x, hquiet])
  rw [settleEnd_flag, h5, h4, h3]

/-- Settles O21: the flags after each operation are those after one flag is written, or it faults. -/
theorem flagOperations : Obligations.FlagOperations := by
  intro p d q g w hg gr f x flagIs
  have hone : ∀ {i : Instr} {f : Nat} {y : Flag} {t : Dev}, exec i ⟨p, d, q⟩ = .next ⟨p, t, q⟩ →
      (∀ k, (t.grove g).flag k = (gr.setFlag f y).flag k) → flagIs i f y := fun {i f y t} hexec ht =>
    ⟨t, hexec, (ht f).trans (Grove.flag_setFlag ..), fun k hk => (ht k).trans (Grove.flag_setFlag_other _ _ _ _ hk)⟩
  have hadvance : ∀ (f : Nat) (y : Flag) (k : Nat), ((d.setGrove g (gr.setFlag f y).advance).grove g).flag k = (gr.setFlag f y).flag k :=
    fun f y k => by rw [Dev.grove_setGrove, Grove.flag_advance]
  refine ⟨?fdecl, ?fdeclFault, ?fset, ?fsetFault, ?fclr, ?fclrFault, ?issue, ?complete, ?external⟩
  case fdecl =>
    intro hw hsum
    exact hone ((exec_fdecl hg hw).trans (by rw [flagGrow_within hsum])) (hadvance _ _)
  case fdeclFault =>
    intro hw hsum
    rw [exec_fdecl hg hw, flagGrow_beyond hsum]
  case fset =>
    intro hw hn hsum
    exact hone ((exec_fset hg hw hn).trans (by rw [flagGrow_within hsum])) (hadvance _ _)
  case fsetFault =>
    intro hw hn hsum
    rw [exec_fset hg hw hn, flagGrow_beyond hsum]
  case fclr => exact fun hw hpl hpe => hone (exec_fclr hg hw hpl hpe) (hadvance _ _)
  case fclrFault => exact fun hw hbusy => exec_fclr_busy hg hw hbusy
  case issue =>
    intro c h y hw hsome hoff hset hdeclared hroom hsound
    refine hone (exec_issue hg hw hsome hoff (fun _ => hdeclared) hroom hsound) fun k => ?_
    rw [Dev.grove_setGrove, Grove.flag_advance, pushAll_flag hset]
  case complete =>
    intro e c he hc harc hrun hpause hst hreqs hquiet h y hset
    exact hone (exec_commandComplete hg he hc harc (.inl hrun) hpause hst hreqs) (completeCtx_flag hquiet hset)
  case external =>
    intro home job k harc hrun hrole hjob hpe
    exact hone (exec_externalSet hg harc (.inl hrun) hrole hjob hpe) fun j => by rw [Dev.grove_setGrove]

end Sys2Proof.Machine
end
section
/-! SUPPORT. Halts (spec/05_stream_programs.md R132-R134, R142-R144; log entries 97 and 121). A halt of a running grove is one chain of
writes: the steps in flight end, the completion ring, the trace ring, an event, the new state. -/

namespace Sys2Proof.Machine

/-! ### Step 2 of R144 -/

/-- A table whose values are mapped under their keys reads as the value mapped. -/
theorem Tbl.find?_map_value {α : Type} (t : Tbl α) {f : Nat × α → Nat × α} (hf : ∀ y, (f y).1 = y.1) (k : Nat) :
    Tbl.find? (t.map f) k = (Tbl.find? t k).map (fun v => (f (k, v)).2) := by
  induction t with
  | nil => rfl
  | cons y t ih =>
    rw [List.map_cons, Tbl.find?, Tbl.find?, hf, ih]
    split
    next hk => rw [hk]; rfl
    · rfl

/-- A halt leaves a context as it is, or before the step for which it waited for data. -/
theorem Grove.ctx_haltSteps (gr : Grove) (e c : Nat) : gr.haltSteps.ctx e c = gr.ctx e c ∨
    (gr.ctx e c).st = .waitData ∧ gr.haltSteps.ctx e c = { gr.ctx e c with st := .ready, lines := [], whole := false } := by
  dsimp only [Grove.ctx, Grove.haltSteps, Tbl.get]
  rw [Tbl.find?_map_value _ (fun y => by split <;> rfl)]
  cases Tbl.find? gr.ctxs (e * 4096 + c) with
  | none => exact .inl rfl
  | some x =>
    simp only [Option.map_some, Option.getD_some]
    split
    next hwaits =>
      rw [Bool.and_eq_true, beq_iff_eq] at hwaits
      exact .inr ⟨hwaits.1, rfl⟩
    · exact .inl rfl

/-- A Canopy write goes on past a halt. -/
theorem Grove.mem_reqs_haltSteps {gr : Grove} {r : GroveReq} (hr : r ∈ gr.reqs) (hread : r.req.op ≠ 0x01) (hatomic : r.req.op < 0x10) :
    r ∈ gr.haltSteps.reqs := by
  obtain ⟨i, hi⟩ := List.mem_iff_getElem?.mp hr
  have hon : r.endsAtHalt i = false := by simp [GroveReq.endsAtHalt, hread, Nat.not_le.mpr hatomic]
  exact List.mem_filterMap.mpr ⟨(r, i), List.mem_zipIdx_iff_getElem?.mpr hi, by simp [hon]⟩

/-! ### The halt -/

/-- The steps in flight ended and `hr` in HALT_RECORD (R142, R144). -/
def haltNoted (d : Dev) (g : Nat) (hr : List Byte) : Dev := d.setGrove g { (d.grove g).haltSteps with haltRec := hr }

/-- Then the fault record in the completion ring (R133). -/
def haltRinged (d : Dev) (g : Nat) (h : HaltInfo) (hr : List Byte) : Dev :=
  ringPut (haltNoted d g hr) g (record132 d h.flags h.addr h.tag h.ctx h.engine h.fault h.status 0 1)

/-- Then the trace record in the trace ring (R134). -/
def haltTraced (p : Part) (d : Dev) (g : Nat) (h : HaltInfo) (hr : List Byte) : Dev :=
  tracePut p (haltRinged d g h hr) g h.tag h.engine h.ctx (if h.fault = 0x0C then 4 else 3)
    (((d.grove g).ctx h.engine h.ctx).steps % 2 ^ 32)

/-- A halt of a running grove writes its records, an event, and the state HALTED. -/
theorem haltGrove_running (p : Part) {d : Dev} {g : Nat} (h : HaltInfo) (hrun : (d.grove g).phase = .running) :
    ∃ hr u, hr.length = 200 ∧ OnlyEvents (haltTraced p d g h hr) u ∧ haltGrove p d g h = setPhase u g .halted := by
  unfold haltGrove
  extract_lets gr ws rec1 img ended d1 d2 d3
  have hrecords : haltTraced p d g h ((img ++ List.replicate 200 0).take 200) = d3 := rfl
  refine ⟨(img ++ List.replicate 200 0).take 200, emit d3 0x4001 h.status 2 false 0x4106 0 rec1, ?_, ?_, ?_⟩
  · rw [List.length_take, List.length_append, List.length_replicate]
    omega
  · rw [hrecords]
    exact onlyEvents_emit ..
  · rw [if_neg (by simp [gr, hrun]), if_neg (by simp [gr, hrun])]

/-- A ring record changes nothing but groves. -/
theorem ringPut_groves (d : Dev) (g rec : Nat) : ∃ gs, ringPut d g rec = { d with groves := gs } := by
  dsimp only [ringPut]
  split
  · exact ⟨d.groves, rfl⟩
  · exact ⟨_, rfl⟩

section
variable (p : Part) (d : Dev) (g : Nat) (h : HaltInfo) (hr : List Byte)

theorem haltRinged_grove : ∃ m, (haltRinged d g h hr).grove g = { (d.grove g).haltSteps with haltRec := hr, gmem := m } := by
  obtain ⟨m, hm⟩ := ringPut_grove (haltNoted d g hr) g (record132 d h.flags h.addr h.tag h.ctx h.engine h.fault h.status 0 1) g
  rw [haltNoted, Dev.grove_setGrove] at hm
  exact ⟨m, hm⟩

/-- The grove after its records: its steps in flight have ended, and its memory is what the completion ring's record leaves. -/
theorem haltTraced_grove : ∃ n, (haltTraced p d g h hr).grove g =
    { (d.grove g).haltSteps with haltRec := hr, gmem := ((haltRinged d g h hr).grove g).gmem, traceIx := n } := by
  obtain ⟨m, hm⟩ := haltRinged_grove d g h hr
  obtain ⟨n, hn⟩ := tracePut_grove p (haltRinged d g h hr) g h.tag h.engine h.ctx (if h.fault = 0x0C then 4 else 3)
    (((d.grove g).ctx h.engine h.ctx).steps % 2 ^ 32) g
  exact ⟨n, hn.trans (by rw [hm])⟩

theorem haltTraced_other {k : Nat} (hne : k ≠ g) : (haltTraced p d g h hr).grove k = d.grove k := by
  rw [haltTraced, tracePut_other _ _ _ _ _ _ _ _ _ hne, haltRinged, ringPut_other _ _ _ _ hne, haltNoted,
    Dev.grove_setGrove_other _ _ _ _ hne]

/-- Device memory after the trace record: its place, and what the interface has to report of it, are those of before the halt. -/
theorem haltTraced_mem :
    let t := haltTraced p d g h hr
    let place := traceAddr d g
    ((d.rd 0x4107 0 g).testBit 63 = false ∨ memSize p d < place + 16 → t.mem = d.mem)
    ∧ ((d.rd 0x4107 0 g).testBit 63 = true → place + 16 ≤ memSize p d → hitFlaws p d true place 16 = [] →
      t.mem.mem.readNat 0#8 place 16 = traceRec d h.tag h.engine h.ctx (if h.fault = 0x0C then 4 else 3)
          (((d.grove g).ctx h.engine h.ctx).steps % 2 ^ 32) % 2 ^ 128
        ∧ ∀ x, x < place ∨ place + 16 ≤ x → t.mem.mem.read 0#8 x = d.mem.mem.read 0#8 x) := by
  intro t place
  obtain ⟨gs, hgs⟩ := ringPut_groves (haltNoted d g hr) g (record132 d h.flags h.addr h.tag h.ctx h.engine h.fault h.status 0 1)
  change haltRinged d g h hr = { d with groves := gs } at hgs
  obtain ⟨m, hm⟩ := haltRinged_grove d g h hr
  have hplace : traceAddr { d with groves := gs } g = place := by
    rw [hgs] at hm
    dsimp only [place]
    rw [traceAddr, traceAddr, hm]
    rfl
  have hlike : LikeMem { d with groves := gs } d := ⟨rfl, rfl, rfl⟩
  have hbytes := tracePut_bytes p { d with groves := gs } g h.tag h.engine h.ctx (if h.fault = 0x0C then 4 else 3)
    (((d.grove g).ctx h.engine h.ctx).steps % 2 ^ 32)
  rw [hplace, hlike.hitFlaws] at hbytes
  dsimp only [t]
  rw [haltTraced, hgs]
  exact hbytes

end

/-- What a fault of the sequencer reports (R132, R143). -/
def seqHalt (d : Dev) (g fault status : Nat) : HaltInfo :=
  ⟨fault, status, (d.grove g).pc % 32768 + (d.grove g).bank * 32768, (d.grove g).lastTag, 0, 16, 0, 0⟩

theorem seqFault_eq (p : Part) (d : Dev) (g fault status : Nat) :
    seqFault p d g fault status = haltGrove p d g (seqHalt d g fault status) := rfl

/-- A grove whose sequencer can take an instruction runs. -/
theorem phase_of_canFetch {d : Dev} {g : Nat} (h : canFetch d g = true) : (d.grove g).phase = .running := by
  simp only [canFetch, Bool.and_eq_true, beq_iff_eq] at h
  obtain ⟨⟨⟨-, hrun⟩, -⟩, -⟩ := h
  exact hrun

/-- Settles O22: the grove after the halt is the grove with its steps in flight ended and its records written, HALTED. -/
theorem haltsKeepTheGrove : Obligations.HaltsKeepTheGrove := by
  intro p d q g hg hfetch hbad a fault status size base head place full tracing at_
  have hcause : (seqHalt d g fault status).fault ≠ 0x0C := by
    dsimp only [seqHalt, fault]
    split <;> decide
  obtain ⟨hr, u, hlen, hu, hhalt⟩ := haltGrove_running p (seqHalt d g fault status) (phase_of_canFetch hfetch)
  obtain ⟨n, hgrove⟩ := haltTraced_grove p d g (seqHalt d g fault status) hr
  have hring := ringPut_gmem (haltNoted d g hr) g (record132 d 0 (a.pc % 32768 + a.bank * 32768) a.lastTag 0 16 fault status 0 1)
  rw [haltNoted, Dev.grove_setGrove] at hring
  obtain ⟨huntraced, htraced⟩ := haltTraced_mem p d g (seqHalt d g fault status) hr
  rw [← hu.grove] at hgrove
  rw [← hu.mem_eq, ← setPhase_mem u g .halted] at huntraced htraced
  refine ⟨setPhase u g .halted, ?_, ?grove, ?others, ?untraced, ?traced⟩
  · rw [exec_seqIllegal hg hfetch hbad, seqFault_eq, hhalt]
  case grove =>
    rw [setPhase_grove, hgrove]
    exact ⟨rfl, rfl, rfl, rfl, rfl, rfl, rfl, rfl, rfl, rfl, rfl, rfl, hlen, a.ctx_haltSteps,
      fun r hr hread hatomic => Grove.mem_reqs_haltSteps hr hread hatomic, hring⟩
  case others =>
    intro k hne
    rw [setPhase_grove_other _ _ _ _ hne, hu.grove, haltTraced_other _ _ _ _ _ hne]
  case untraced => exact fun hnot => huntraced (hnot.imp_left (by simp [tracing]))
  case traced =>
    intro hon hfits hclean
    rw [if_neg hcause] at htraced
    exact htraced hon hfits hclean

end Sys2Proof.Machine
end

section
/-! SUPPORT. An idle cycle (spec/05_stream_programs.md R108; spec/18_faults_and_telemetry.md R464; log entry 2). -/

namespace Sys2Proof.Machine

/-- Without the ARC clock nothing happens. -/
theorem idleTick_stopped (p : Part) {d : Dev} (harc : d.runs domArc = false) : idleTick p d = d := if_pos (by simp [harc])

/-- With it the cycle counter advances in an enabled cycle, and stays in a gated one. -/
theorem idleTick_cycle (p : Part) {d : Dev} (harc : d.runs domArc = true) :
    (idleTick p d).cycle = if arcEnabled d then (d.cycle + 1) % 2 ^ 64 else d.cycle := by
  rw [idleTick, if_neg (by simp [harc])]

/-- Settles O2: an empty queue leaves the step its idle cycle. -/
theorem emptyQueueIdles : Obligations.EmptyQueueIdles := fun p d =>
  ⟨rfl, idleTick_stopped p, fun harc hon => (idleTick_cycle p harc).trans (if_pos hon),
    fun harc hoff => (idleTick_cycle p harc).trans (if_neg (by simp [hoff]))⟩

end Sys2Proof.Machine
end

section
/-! SUPPORT. Arriving chunks (spec/06_collectives.md R160, R164-R169, R171-R177; spec/09_buffers_and_slots.md R242; log entry 105). What
a chunk command comes to once its chunk is heard is said for data and for control; each control's meaning then needs its operation
found and admitted, on whatever device ingress hands it. -/

namespace Sys2Proof.Machine

section
variable {p : Part} {d : Dev} {q : List Instr} {c : Chunk} {o : Op} {kinds : Nat → Bool} {f : Part → Dev → Dev}
  (hheard : chunkHeard p d c) (hkind : kinds c.kind = true)
include hheard hkind

/-- A chunk that is heard is taken up: control is served, data is not (R165, R242). -/
theorem chunkCommand_heard : chunkCommand kinds c ⟨p, d, q⟩ f = .next ⟨p,
    if 5 ≤ c.kind ∧ c.kind ≤ 10 then serveAt 161 d (chunkArr c) 0 (64 + c.payload.length) (f p) else f p d, q⟩ := by
  obtain ⟨hlink, hruns, hworks, hfence⟩ := hheard
  rw [chunkCommand, liftAt_next _ _ _ hlink, if_neg (by simp [hruns, hworks, hkind]), if_neg]
  · simp only [Bool.and_eq_true, decide_eq_true_eq]
  · cases hvia : c.via with
    | fabric n => exact Bool.eq_false_iff.mp (hfence n hvia)
    | endpoint n => exact Bool.false_ne_true
    | own => exact Bool.false_ne_true

/-- A data chunk, or a count. -/
theorem chunkCommand_data (hdata : c.kind < 5) : chunkCommand kinds c ⟨p, d, q⟩ f = .next ⟨p, f p d, q⟩ := by
  rw [chunkCommand_heard hheard hkind, if_neg (by omega)]

/-- A control chunk: what it does is asked only of devices on which its operation is found. -/
theorem chunkCommand_control (hcontrol : 5 ≤ c.kind ∧ c.kind ≤ 10) (hfound : findOp d c.job c.coll = some o) {w : Dev → Dev}
    (hw : ∀ e, findOp e c.job c.coll = some o → f p e = w e) :
    chunkCommand kinds c ⟨p, d, q⟩ f = .next ⟨p, serveAt 161 d (chunkArr c) 0 (64 + c.payload.length) w, q⟩ := by
  rw [chunkCommand_heard hheard hkind, if_pos hcontrol,
    serveAt_congr (fun e he => hw e ((he.findOp c.job c.coll).trans hfound))]

end

/-- Work on an operation that is here is put back. -/
theorem onOp_found {p : Part} {d : Dev} {job coll : Nat} {o : Op} (hfound : findOp d job coll = some o) (f : Run → Run) :
    onOp p d job coll f = commitRun p (f (d, o)) := by
  rw [onOp, hfound]

/-- Control of an operation that is admitted acts on it (R160). -/
theorem onAdmitted_found {p : Part} {d : Dev} {c : Chunk} {o : Op} (hfound : findOp d c.job c.coll = some o) (hphase : o.phase ≠ 0)
    (f : Run → Run) : onAdmitted p d c f = commitRun p (f (d, o)) := by
  rw [onAdmitted, hfound]
  exact (if_neg hphase).trans (onOp_found hfound f)

/-! ### Data -/

/-- The epoch under which a device holds a chunk is no part of the chunk's key, and the rest of it stays. -/
theorem chunkKept_eq (d : Dev) (c : Chunk) : ∃ e, chunkKept d c = { c with epoch := e } := by
  unfold chunkKept
  split <;> exact ⟨_, rfl⟩

/-- A good chunk that is new is held, acknowledged and used (R166-R169). -/
theorem acceptChunk_new {p : Part} {d d1 : Dev} {c : Chunk} {o : Op} {cells : List Nat} (hlost : c.lost = false) (hcell : c.badCell = none)
    (hcrc : c.crc = crc32c c.payload) (hnew : keyOf c ∉ o.seen) (hhold : holdChunk p d o (chunkKept d c) = some (cells, d1)) :
    let k := chunkKept d c
    let h : HeldIn := ⟨k, cells, opHolder p d1 o, false⟩
    acceptChunk p c (d, o) = useChunk p h (addAck p k (d1, { o with
      seen := o.seen ++ [keyOf c], fails := o.fails.filter (fun f => f.1 != keyOf c), inputs := o.inputs ++ [h] })) := by
  obtain ⟨e, he⟩ := chunkKept_eq d c
  have hkey : keyOf (chunkKept d c) = keyOf c := by rw [he]; rfl
  have hgood : (!(chunkKept d c).lost && (chunkKept d c).badCell.isNone && decide (crc32c (chunkKept d c).payload = (chunkKept d c).crc)) = true := by
    simp [he, hlost, hcell, hcrc]
  have hwhole : (chunkKept d c).badCell = none := by rw [he]; exact hcell
  intro k h
  unfold acceptChunk
  simp only [hwhole] at hgood ⊢
  simp only [hgood, hkey, hhold, hnew, List.contains_eq_mem, decide_false, Bool.not_true, Bool.false_eq_true, if_false, h, k]

/-- A chunk of kinds 0 to 3 that its operation, admitted and not stopped, can take from its sender (R160, R173). -/
theorem arriveChunk_taken {p : Part} {d : Dev} {c : Chunk} {o : Op} (hkind : c.kind < 4) (hfound : findOp d c.job c.coll = some o)
    (hadmitted : o.phase ≠ 0) (hrunning : o.phase ≠ 4) (hsender : senderOk d o c = true) (hfence : toFenced o c = false) :
    arriveChunk p d c = commitRun p (acceptChunk p c (d, o)) := by
  rw [arriveChunk, if_neg (by omega), hfound]
  dsimp only
  rw [if_neg hadmitted, if_neg (by simp [hfence]), if_neg (by simp [hrunning]; omega), if_neg (by simp [hsender]), onOp_found hfound]

/-- Settles O36: the four commands differ in the kind of their chunk alone. -/
theorem dataChunksComplete : Obligations.DataChunksComplete := by
  intro p d q c o cells d1 hheard hfound hadmitted hrunning hsender hfence hlost hcell hcrc hnew k hhold h o1 x hx hkind
  have harrive : c.kind < 4 → arriveChunk p d c = commitRun p (useChunk p h (addAck p k (d1, o1))) := fun hdata =>
    (arriveChunk_taken hdata hfound hadmitted hrunning hsender hfence).trans
      (congrArg (commitRun p) (acceptChunk_new hlost hcell hcrc hnew hhold))
  simp only [List.mem_cons, List.not_mem_nil, or_false] at hx
  obtain rfl | rfl | rfl | rfl := hx
  all_goals
    dsimp only at hkind
    rw [← harrive (by omega)]
    dsimp only [exec]
    exact chunkCommand_data hheard (by simp [hkind]) (by omega)

/-! ### Control -/

/-- The counts of a receiver whose data may move leave for its endpoint, once (R172). -/
theorem countsOutWork_due {p : Part} {d : Dev} {o : Op} {j : Nat} (hopc : o.opc = 7) (hpassed : o.marked [7] = true)
    (hnew : o.marked [34, j] = false) (hpause : o.paused = false) (hrunning : o.phase ≠ 4) (hhere : j ∈ o.here d) :
    let body := (List.range o.m).flatMap (fun i => toBytes 4 ((countOf o i j).getD 0)) ++ toBytes 8 (countTotal o j)
    let y := sendCountsOut p j body (d, o.mark [34, j])
    countsOutWork p j (d, o) = if (o.here d).all (fun i => y.2.marked [34, i]) then releaseInputs (fun h => h.c.kind = 3) y else y :=
  if_neg (by simp [hopc, hpassed, hnew, hpause, hrunning, hhere])

/-- Settles O37: each control acts on its operation where that is found. -/
theorem controlChunksComplete : Obligations.ControlChunksComplete := by
  intro p d q c o hheard hfound unit
  refine ⟨?countsOut, ?admission, ?go, ?resend, ?ack, ?doneUp, ?done, ?abort⟩
  case countsOut =>
    intro hkind hvia hopc hpassed hnew hpause hrunning hhere body y
    dsimp only [exec]
    refine (chunkCommand_data hheard (by simp [hkind]) (by omega)).trans ?_
    simp only [hvia, onOp_found hfound, countsOutWork_due hopc hpassed hnew hpause hrunning hhere]
    rfl
  case admission =>
    intro hkind hchunk hadmitted
    dsimp only [exec]
    exact chunkCommand_control hheard (by simp [hkind]) (by omega) hfound
      (fun e he => (if_neg (by simp [hchunk])).trans (onAdmitted_found he hadmitted _))
  case go =>
    intro hkind hchunk hphase
    dsimp only [exec]
    refine chunkCommand_control hheard (by simp [hkind]) (by omega) hfound (fun e he => ?_)
    rw [if_neg (by simp [hchunk]), onAdmitted_found he (by omega), if_neg (by simp [hphase])]
  case resend =>
    intro hkind hadmitted
    dsimp only [exec]
    exact chunkCommand_control hheard (by simp [hkind]) (by omega) hfound (fun e he => onAdmitted_found he hadmitted _)
  case ack =>
    intro hkind hadmitted
    dsimp only [exec]
    exact chunkCommand_control hheard (by simp [hkind]) (by omega) hfound (fun e he => onAdmitted_found he hadmitted _)
  case doneUp =>
    intro hkind hadmitted hrunning
    dsimp only [exec]
    refine chunkCommand_control hheard (by simp [hkind]) (by omega) hfound (fun e he => ?_)
    rw [onAdmitted_found he hadmitted, if_neg hrunning]
  case done =>
    intro hkind hvia
    dsimp only [exec]
    refine chunkCommand_control hheard (by simp [hkind]) (by omega) hfound (fun e he => ?_)
    rw [he]
    cases hfrom : c.via with
    | endpoint n => exact absurd hfrom (hvia n)
    | fabric n => rfl
    | own => rfl
  case abort =>
    intro hkind hadmitted
    dsimp only [exec]
    exact chunkCommand_control hheard (by simp [hkind]) (by omega) hfound
      (fun e he => (if_neg (by simp [he])).trans (onAdmitted_found he hadmitted _))

end Sys2Proof.Machine
end

section
/-! SUPPORT. Entries of collectives (spec/06_collectives.md R152, R154, R156, R169, R179; spec/07_dispatch_sort_gather.md R196, R209;
spec/09_buffers_and_slots.md R258, R260; spec/10_ports_and_links.md R273; log entry 128): descriptors submitted, the timers of an
operation, route tables released and hash sets committed. -/

namespace Sys2Proof.Machine

/-! ### Descriptors (R152, R154) -/

section
variable {p : Part} {d : Dev} {desc : List Byte} {ms : List Member} {acn : Nat}
  (hworks : d.works 7 = true) (hnew : findOp d (bits (descNat desc) 448 32) (bits (descNat desc) 480 32) = none)
  (hcheck : checkDesc p d (descNat desc) desc.length (descList desc) acn = (stOK, ms))
include hworks hnew hcheck

/-- A writer's descriptor that passes the checks is entered, and passed along the row and down the columns. -/
theorem submit_accept_own (writer : Option (Sum Path Nat)) :
    let o := addWriter (newOp (descNat desc) (descList desc) ms) writer
    submit p d desc acn writer none =
      accept (takeEntry p (forwardDesc p d desc ((o.rowOf d.code ++ o.columnsOf d.code).filter (· != d.code))) o) := by
  intro o
  simp only [submit, hworks, if_true, hnew, hcheck]
  rfl

/-- A forwarded copy that passes them is entered, and passed down the columns when it came along this row. -/
theorem submit_accept_forwarded (writer : Option (Sum Path Nat)) (dev : Nat) :
    let o := addWriter (newOp (descNat desc) (descList desc) ms) writer
    submit p d desc acn writer (some dev) = accept (takeEntry p (forwardDesc p d desc
      ((if dev / 64 = d.code / 64 then o.columnsOf d.code else []).filter (· != d.code))) o) := by
  intro o
  simp only [submit, hworks, if_true, hnew, hcheck]
  rfl

end

/-- COLL_SUBMIT, which waits only while entry into fixed-cycle mode is armed (R223). -/
theorem exec_collSubmit_accept {s : State} {rq : Rq} {desc : List Byte} {ch : Nat} {d1 d2 : Dev} (hfcm : s.dev.modes.fcm ≠ 1)
    (htaken : writeTaken s.dev rq (Call.write 0x5000 0 desc) = some (ch, d1))
    (hrule : submit s.part d1 desc 0 (some (.inl rq.path)) none = accept d2) : exec (.collSubmit rq desc) s =
      .next { s with dev := written ch rq (Call.write 0x5000 0 desc) d2 (Rsp.st stOK) } := by
  have hserve : exec (.collSubmit rq desc) s =
      .next { s with dev := serve s.dev rq (Call.write 0x5000 0 desc) (submitAct s.part rq desc) } := by
    rw [← serveOrHold_serve s.dev rq _ _ (fun d => holdForFcm d (.collSubmit rq desc)), ← decide_eq_false hfcm]
    rfl
  rw [hserve, serve_of_writeTaken (submitAct s.part rq desc) htaken]
  simp only [submitAct, ruleAct, hrule]
  rfl

/-- A forwarded copy of a descriptor that its operation is to be entered by. -/
theorem submitFrame_accept {p : Part} {d d2 : Dev} {n row col acn : Nat} {desc : List Byte} (hfence : d.isFenced row col = false)
    (hsubmit : submit p d desc acn none (some (row * 64 + col)) = accept d2) :
    submitFrame p d (.fabric n) row col acn desc = d2 := by
  refine (if_neg (by simp [hfence])).trans ?_
  rw [hsubmit]
  rfl

/-! ### The limit of R179 -/

/-- An operation under way ends with WAIT_CYCLE. -/
theorem exec_collProgressTimeout_running {p : Part} {d : Dev} {q : List Instr} {job coll : Nat} {o : Op} (hruns : d.runs domXbar = true)
    (hfound : findOp d job coll = some o) (hadmitted : o.phase ≠ 0) (hrunning : o.phase ≠ 4) :
    exec (.collProgressTimeout job coll) ⟨p, d, q⟩ = .next ⟨p, commitRun p (reportAbort p stWaitCycle (d, o)), q⟩ := by
  refine exec_next_of_effect rfl ((if_neg (by simp [hruns])).trans ?_)
  simp only [hfound]
  exact (if_neg hadmitted).trans (if_pos (by simp [hrunning]))

/-- One that aborts already ends with the reports at hand (log entry 128). -/
theorem exec_collProgressTimeout_aborting {p : Part} {d : Dev} {q : List Instr} {job coll : Nat} {o : Op} (hruns : d.runs domXbar = true)
    (hfound : findOp d job coll = some o) (hphase : o.phase = 4) :
    let o1 := joinAbort o stWaitCycle o.fencedMask
    let d1 := if ctlRoot d o1 = d.code then finishAt p d o1
      else finalize p d o1 (mkRecord o1 d.pace.visible o1.flags o1.status o1.mask) (if o1.status = stFenced then maskBytes o1 o1.mask else []) (0, 1)
    exec (.collProgressTimeout job coll) ⟨p, d, q⟩ = .next ⟨p, settleColl p (d1.colls.ops.length + 1) d1, q⟩ := by
  intro o1 d1
  refine exec_next_of_effect rfl ((if_neg (by simp [hruns])).trans ?_)
  simp only [hfound]
  exact (if_neg (by omega)).trans (if_neg (by simp [hphase]))

/-! ### Hash sets (R209) -/

section
variable {n : Nat} (hn : n < 16) (rq : Rq) (s : State)
include hn

/-- The command of a set that there is writes its number. -/
theorem exec_filterSetCommit : exec (.filterSetCommit rq n) s =
    .next { s with dev := serveWrite s.dev rq 0x5110 1 (toBytes 1 n) (filterSetRule s.part n) } := by
  have hmod : n % 128 = n := Nat.mod_eq_of_lt (by omega)
  dsimp only [exec, execFilterSetCommit]
  rw [hmod]
  rfl

/-- The same with bit 7 set. -/
theorem exec_filterSetUncommit : exec (.filterSetUncommit rq n) s =
    .next { s with dev := serveWrite s.dev rq 0x5110 1 (toBytes 1 (n + 128)) (filterSetRule s.part (n + 128)) } := by
  have hmod : n % 128 = n := Nat.mod_eq_of_lt (by omega)
  dsimp only [exec, execFilterSetUncommit]
  rw [hmod]
  rfl

end

/-- A range that reads clean. -/
theorem checkRead_of_cleanReads {p : Part} {d : Dev} {off n : Nat} (h : cleanReads p d [(off, n)] = true) :
    checkRead p d off n = (d, false) := by
  simp only [cleanReads, List.all_cons, List.all_nil, Bool.and_true, Bool.and_eq_true, List.isEmpty_iff, Bool.not_eq_true'] at h
  exact checkRead_clean p d off n h.1 h.2

/-- A set whose record is in range, whose memory reads clean and whose keys are all allowed, found by their probes and different is
committed. -/
theorem filterSetRule_accept_commit {p : Part} {d : Dev} {n r : Nat} (hn : n < 16) (hr : d.rd 0x5110 0 n = r) (hlow : 4 ≤ setL r)
    (hhigh : setL r ≤ 24) (hprobe : setMaxProbe r ≠ 0) (hkeyt : setKeyt r ≤ 11) (hsize : setOffset r + setRegion r ≤ memSize p d)
    (hclean : cleanReads p d [(setOffset r, setRegion r)] = true)
    (hkeys : ∀ x ∈ setKeys d.mem.mem r, setKeyBad (setKeyt r) x = false ∧ probeSet (memTable d.mem.mem r) r (setKeyt r) x = true)
    (hdiffer : hasTwice (setKeys d.mem.mem r) = false) :
    filterSetRule p n d = accept (d.wr 0x5110 0 n (putBit r 32 true)) := by
  have hmod : n % 128 = n := Nat.mod_eq_of_lt (by omega)
  have hrecord : (decide (setL r < 4) || decide (24 < setL r) || decide (setMaxProbe r = 0) || decide (11 < setKeyt r)) = false := by
    simp only [Bool.or_eq_false_iff, decide_eq_false_iff_not]
    omega
  have hallowed : (setKeys d.mem.mem r).any (setKeyBad (setKeyt r)) = false := by
    simpa using fun x hx => (hkeys x hx).1
  have hprobed : (setKeys d.mem.mem r).any (fun k => !probeSet (memTable d.mem.mem r) r (setKeyt r) k) = false := by
    simpa using fun x hx => (hkeys x hx).2
  unfold filterSetRule
  simp only [hmod, hr, hrecord, checkRead_of_cleanReads hclean, hallowed, hdiffer, hprobed, Bool.or_false, Bool.false_eq_true, if_false]
  rw [if_neg (by omega), if_neg (by omega), if_neg (by omega)]

/-- A set that no operation probes is uncommitted. -/
theorem filterSetRule_accept_uncommit {p : Part} {d : Dev} {n : Nat} (hn : n < 16)
    (hfree : ∀ o ∈ d.colls.ops, ¬ (o.opc = 0x14 ∧ 2 ≤ bits o.opx 60 4 ∧ bits o.opx 54 4 = n)) :
    filterSetRule p (n + 128) d = accept (d.wr 0x5110 0 n (putBit (d.rd 0x5110 0 n) 32 false)) := by
  have hmod : (n + 128) % 128 = n := by omega
  have hunused : ¬ (d.colls.ops.any (fun o => o.opc = 0x14 && decide (2 ≤ bits o.opx 60 4) && bits o.opx 54 4 = n)) = true := by
    simpa [and_assoc] using hfree
  unfold filterSetRule
  simp only [hmod]
  rw [if_neg (by omega), if_pos (by omega), if_neg hunused]

/-- Settles O38: the conditions of each entry get past every refusal of its rule, and those of each timer pick its effect. -/
theorem collectiveEntriesComplete : Obligations.CollectiveEntriesComplete := by
  unfold Obligations.CollectiveEntriesComplete
  refine ⟨?submit, ?forwarded, ?ackTimer, ?progress, ?progressAborting, ?aging, ?idle, ?release, ?commit, ?uncommit⟩
  case submit =>
    intro p d q rq desc c d1 ms v o hfcm htaken hworks hnew hcheck
    exact exec_collSubmit_accept hfcm htaken (submit_accept_own hworks hnew hcheck _)
  case forwarded =>
    intro p d q n acn row col desc ms v o devs hlink hruns hfab hworks hfcm hfence hcol hnew hcheck
    have hrow : (row * 64 + col) / 64 = row := by omega
    refine exec_next_of_liftAt rfl hlink ?_
    rw [if_neg (by simp [hruns, hfab]), if_neg hfcm,
      submitFrame_accept hfence (submit_accept_forwarded hworks hnew hcheck none (row * 64 + col)), hrow]
  case ackTimer =>
    intro p d q job coll peer stage src dst o a hruns hfound hack
    refine exec_next_of_effect rfl ((if_neg (by simp [hruns])).trans ((onOp_found hfound _).trans ?_))
    simp only [flushAck, hack]
  case progress =>
    intro p d q job coll o hruns hfound hadmitted hrunning
    exact exec_collProgressTimeout_running hruns hfound hadmitted hrunning
  case progressAborting =>
    intro p d q job coll o hruns hfound hphase
    exact exec_collProgressTimeout_aborting hruns hfound hphase
  case aging =>
    intro p d q job coll o hfound hwaiting hyoung hfcm
    refine exec_next_of_effect rfl ?_
    simp only [hfound]
    exact if_neg (by simp [hwaiting, hyoung, hfcm])
  case idle =>
    intro p d q job coll o hfound hslots hrunning
    refine exec_next_of_effect rfl ?_
    simp only [hfound]
    exact if_neg (by simp [hslots, hrunning])
  case release =>
    intro p d q rq job coll c d1 r k hjob hcoll htaken hroute hfree
    refine exec_next_of_accept rfl htaken ?_
    simp only [Nat.mod_eq_of_lt hjob, Nat.mod_eq_of_lt hcoll, hroute]
    exact if_neg (by simp [hfree])
  case commit =>
    intro p d q rq n c d1 k r ks hn htaken hlow hhigh hprobe hkeyt hsize hclean hkeys hdiffer
    exact exec_next_of_accept (exec_filterSetCommit hn ..) htaken
      (filterSetRule_accept_commit hn rfl hlow hhigh hprobe hkeyt hsize hclean hkeys hdiffer)
  case uncommit =>
    intro p d q rq n c d1 k hn htaken hfree
    exact exec_next_of_accept (exec_filterSetUncommit hn ..) htaken (filterSetRule_accept_uncommit hn hfree)

end Sys2Proof.Machine
end

section
/-! SUPPORT. Ethernet frames, PFC, the MAC table and mirroring (spec/10_ports_and_links.md R280, R292-R295, R297, R298;
spec/08_determinism_contract.md R222; spec/06_collectives.md R158; log entry 96). What ingress makes of a frame is a chain of
discards before the frame is forwarded; every other meaning is a guard over one effect. -/

namespace Sys2Proof.Machine

/-- A frame of an Ethernet link at ingress: sampled, then discarded for its FCS, its link or size, or a cell, or counted as good and
forwarded outside fixed-cycle mode (R222, R274, R280, R292, R295). -/
theorem takeEth_cases (p : Part) (n : Nat) (bytes : List Byte) (fec : Fec) (under : List Nat) (bad : Option Nat) (d : Dev) :
    let good := fcsGood bytes && decide (fec.uncorr = 0)
    let fenced := (d.link n).isFenced
    let sized := decide (64 ≤ bytes.length) && decide (bytes.length ≤ d.rd 0x2010 3 0)
    let e1 := mirror d n bytes bytes.length (4 * b2n (!good) + 8 * b2n (fenced && good) + 16) (pcpVc d (ethPcp bytes))
    let cut := fun (x : Dev) => cutShort x n (if under.isEmpty || fenced || x.inFcm then none else some (forwardEth p x n bytes)) under bad
    let e2 := linkCtr (linkCtr e1 n 1) n 3 bytes.length
    takeEth p n bytes fec under bad d =
      if good = false then linkCtr (cut e1) n 7
      else if fenced = true ∨ sized = false then linkCtr (cut e1) n 12
      else if bad.isSome then linkCtr (cut e1) n 7
      else if e2.inFcm then e2.inc 0x8400 5 0
      else forwardEth p e2 n bytes := by
  intro good fenced sized e1 cut e2
  have hbad : (good = false) = ((!good) = true) := by simp
  have hout : (fenced = true ∨ sized = false) = ((fenced || !sized) = true) := by simp
  simp only [hbad, hout]
  rfl

/-- A link, and a priority of it. -/
theorem prio_exists {p : Part} {n prio : Nat} (hlink : p.hasLink n = true) (hprio : prio < 8) :
    (p.hasLink n && decide (prio < 8)) = true := by simp [hlink, hprio]

/-- A flush of a VLAN, or of all, drops its entries (R297). -/
theorem flushMacRule_accept {d : Dev} {v : Nat} (hv : v < 4096 ∨ v = 0xFFFF) : flushMacRule v d = accept { d with sw := { d.sw with
    macs := if v = 0xFFFF then [] else d.sw.macs.filter (fun m => m.vlan != v) } } := by
  by_cases hall : v = 0xFFFF
  · rw [flushMacRule, if_pos hall, if_pos hall]
  · rw [flushMacRule, if_neg hall, if_neg hall, if_neg (by omega)]

/-- A period of 0, or of 16 and more, is taken for a link that there is, and its count restarts (R295). -/
theorem mirrorRule_accept {p : Part} {d : Dev} {n v : Nat} (hn : n < p.links) (hv : v = 0 ∨ 16 ≤ v ∧ v ≤ 16777216) :
    mirrorRule p n v d = accept ((d.wr 0x2020 0 n v).setLink n { (d.link n) with mirrorCount := 0 }) := by
  have hlinks : p.links ≤ 128 := by unfold Part.links; split <;> decide
  have hrange : ¬ (128 ≤ n || (1 ≤ v && v < 16) || 16777216 < v) = true := by
    simp only [Bool.or_eq_true, Bool.and_eq_true, decide_eq_true_eq]
    omega
  rw [mirrorRule, if_neg hrange, setMirror, if_neg (by simp [Part.hasLink, hn])]

/-- Settles O48: each frame's outcome is the first of its chain that applies, and the commands of the tables pass their rules. -/
theorem ethernetFramesComplete : Obligations.EthernetFramesComplete := by
  refine ⟨fun p d q n hlink => ?_, fun p d q rq c d1 => ?_⟩
  · refine ⟨?frame, ?pfc, ?pause, ?xoff, ?fabric⟩
    case frame =>
      intro bytes fec under bad hruns heth hodd hlive vc
      refine exec_next_of_liftAt rfl hlink ((if_neg (by simp [hruns, heth, hodd, hlive])).trans ?_)
      exact congrArg (ingress _ _ _ _ _) (funext (takeEth_cases p n bytes fec under bad))
    case pfc =>
      intro src prio time hprio hruns heth hodd hlive d0 d1
      exact exec_next_of_liftAt rfl (prio_exists hlink hprio) (if_neg (by simp [hruns, heth, hodd, hlive]))
    case pause =>
      intro prio hprio
      exact exec_next_of_liftAt rfl (prio_exists hlink hprio) rfl
    case xoff =>
      intro prio hprio hruns heth hcarries hxoff
      exact exec_next_of_liftAt rfl (prio_exists hlink hprio) (if_pos (by simp [hruns, heth, hcarries, hxoff]))
    case fabric =>
      intro f hruns hworks
      refine exec_next_of_liftAt rfl hlink ((if_neg (by simp [hruns, hworks])).trans ?_)
      simp only [Bool.and_eq_true, decide_eq_true_eq]
  · refine ⟨?age, ?flush, ?mirrorN⟩
    case age => exact fun _ _ => rfl
    case flush =>
      intro v hv k htaken
      refine exec_next_of_accept rfl htaken ?_
      rw [Nat.mod_eq_of_lt (by omega)]
      exact flushMacRule_accept hv
    case mirrorN =>
      intro n v hn hv k htaken
      have hmod : v % 2 ^ 32 = v := Nat.mod_eq_of_lt (by omega)
      refine exec_next_of_effect rfl (serve_of_writeTaken _ htaken ?_)
      simp only [hmod, mirrorRule_accept hn hv, accept, if_true]

end Sys2Proof.Machine
end

section
/-! SUPPORT. What a DEVICE-role grove does for the operations of chapter 7 (spec/07_dispatch_sort_gather.md R191-R195, R198, R203-R205,
R211; log entry 76). Each opcode's work on the operation is said on its own, under what it needs; `groveWork_next` puts it back. -/

namespace Sys2Proof.Machine

/-- Work on ranges that read clean goes on with them (R355, R356). -/
theorem readArea_clean {p : Part} {rs : List (Nat × Nat)} {x : Run} (hclean : cleanReads p x.1 rs = true) (f : Run → Run) :
    readArea p rs x f = f x := by
  rw [readArea, checkReads_of_clean _ _ _ hclean]

section
variable {p : Part} {d : Dev} {o : Op} (hphase : o.phase ≠ 4) (hpause : o.paused = false)
include hphase hpause

/-- TOPK chooses for each token and counts the choices at every member device (R191-R193). -/
theorem topkWork_scored {i t : Nat} {bs : List Byte} (hopc : o.opc = 0x10) (htokens : tokensOf o i = some t)
    (hnew : o.marked [12, i] = false) (hhere : i ∈ o.here d) (hheld : heldStream o i (scoreBytes o t / 4096) = some bs)
    (hwhole : scoreBytes o t ≤ bs.length) :
    let w := (fmtOf (scoreFmt o)).w
    let e := opxExperts o.opx
    let y := (List.range t).foldl (fun x k =>
      chooseToken i k (unpackCodes w e (ofBytes ((bs.drop (k * e * (w / 8))).take (e * (w / 8))))) x) (d, o.mark [12, i])
    topkWork p i (d, o) = y.2.devs.foldl (fun x dev =>
      if dev = x.1.code then (x.1, takeChoiceCounts dev i (choiceCounts x.2 i dev) x.2)
      else sendHeld p (mkChunk x.2 3 0 2 i 0 ((choiceCounts x.2 i dev).flatMap (toBytes 4))) [dev] [] x) y := by
  intro w e y
  simp only [topkWork, htokens, hheld]
  rw [if_neg (by simp [hopc, hphase, hpause, hnew, hhere]), if_neg (by omega)]

/-- WCOMB seals a chunk of the weighted sums whose experts' rows are all here, and lets the rows go with the last chunk (R198). -/
theorem wcombWork_due {i k : Nat} {r : RouteTab} {vals : List Num} (hopc : o.opc = 0x11) (htable : combineTable d o = some r)
    (hslots : o.slots ≠ []) (hhere : i ∈ o.here d) :
    let t := ((r.tokens.find? (fun y => y.1 = i)).map Prod.snd).getD 0
    let n := min o.epc (t * o.count - k * o.epc)
    n ≠ 0 → [k, i] ∉ o.got → combineVals o r i k n = some vals → cleanReads p d [routeRange p d r] = true →
    let y := sealOwn p i k 0 0 vals (d, o)
    wcombWork p i k (d, o) = if (List.range (ceilDiv (t * o.count) o.epc)).all (fun k => y.2.got.contains [k, i])
      then releaseInputs (fun h => h.c.stage = 1 && h.c.dst = i) y else y := by
  intro t n hn hnew hvals hclean y
  simp only [wcombWork, htable]
  rw [if_neg (by simpa [hopc, hphase, hpause, hslots, hhere, hnew, t, n] using hn), show combineVals o r i k _ = some vals from hvals]
  exact readArea_clean hclean _

/-- ROWACC at a requester asks the owners once, and then seals what it can (R203, R204). -/
theorem rowaccWork_requester {i : Nat} (hopc : o.opc = 0x12) (hi : i < o.m) (hhere : i ∈ o.here d) :
    let y := if o.marked [21, i] then (d, o) else askPool p i (d, o)
    rowaccWork p i (d, o) =
      if y.2.phase = 4 ∨ y.2.marked [21, i] = false ∨ y.2.marked [22, i] = true ∨ y.2.slots = [] then y else sealPool p i y := by
  intro y
  rw [rowaccWork, if_neg (by simp [hopc, hphase, hpause, hi]), if_pos (by simp [hhere])]
  simp only [Bool.or_eq_true, Bool.not_eq_true', decide_eq_true_eq, List.isEmpty_iff, or_assoc]
  rfl

/-- At an owner it answers (R203). -/
theorem rowaccWork_owner {i : Nat} (hopc : o.opc = 0x12) (hi : i < o.m) (hhere : i ∉ o.here d) (hslots : o.slots ≠ []) :
    rowaccWork p i (d, o) = answerPool p i (d, o) := by
  rw [rowaccWork, if_neg (by simp [hopc, hphase, hpause, hi]), if_neg (by simp [hhere]), if_neg (by simp [hslots])]

/-- PAGE at a requester asks for its pages once, and then passes on those that the Canopy brought (R205). -/
theorem pageWork_requester {i : Nat} (hopc : o.opc = 0x13) (hi : i < o.m) (hhere : i ∈ o.here d) :
    let y := if o.marked [26, i] then (d, o) else askPages p i (d, o)
    pageWork p i (d, o) = if y.2.phase = 4 then y else canopyPages p i y := by
  intro y
  rw [pageWork, if_neg (by simp [hopc, hphase, hpause, hi]), if_pos (by simp [hhere])]

/-- At an owner it answers (R205). -/
theorem pageWork_owner {i : Nat} (hopc : o.opc = 0x13) (hi : i < o.m) (hhere : i ∉ o.here d) :
    pageWork p i (d, o) = answerPages p i (d, o) := by
  rw [pageWork, if_neg (by simp [hopc, hphase, hpause, hi]), if_neg (by simp [hhere])]

/-- PRED tests the next chunk of an own member, and sends its survivors, or with TAG the chunk and its bits (R211). -/
theorem predWork_next {i k : Nat} {h : HeldIn} (hopc : o.opc = 0x14) (hhere : i ∈ o.here d) (hk : k < filtChunks o)
    (hnew : survivors o i k = none) (hbefore : ∀ j < k, (survivors o i j).isSome = true)
    (hheld : o.inputs.find? (fun h => h.c.kind = 0 && h.c.stage = 0 && h.c.src = i && h.c.chunk = k) = some h) :
    let kb := keyBytes (filtKt o)
    let n := min (filtEpc o) (o.count - k * filtEpc o)
    h.c.payload.length = n * kb →
    let codes := unpackCodes (8 * kb) n (ofBytes h.c.payload)
    cleanReads p d (filtReads d o codes) = true →
    let kept := codes.filter (filtHolds d o)
    let bs := toBytes (kept.length * kb) (packCodes (8 * kb) kept)
    let rank := ((List.range k).map (fun j => (survivors o i j).getD 0)).sum
    let here := (filtDests o).filter (fun j => (o.here d).contains j)
    let c := { mkChunk o 2 k 3 i 0 bs with doff := (i * o.count + rank) * kb }
    let all := { mkChunk o 2 k 3 i 0 h.c.payload with doff := (i * o.count + k * filtEpc o) * kb }
    let mask := (codes.map (filtHolds d o)).zipIdx.foldl (fun v y => if y.1 then v + 2 ^ y.2 else v) 0
    let b := mkChunk o 2 (filtChunks o + k) 3 i 0 (toBytes (ceilDiv n 8) mask)
    predWork p i k (d, o) = if filtTag o
      then finishFilter p (sendHeld p b (filtPeers d o) []
        (moved h (sendHeld p all (filtPeers d o) here (d, (o.mark [29, i, k, n]).mark [30, i, k, mask]))))
      else finishFilter p (moved h (sendHeld p c (filtPeers d o)
        (if bs.isEmpty then [] else here) (d.inc 0x5020 4 0 (n - kept.length), o.mark [29, i, k, kept.length]))) := by
  intro kb n hlen codes hclean kept bs rank here c all mask b
  have hsome : filtChunks o ≠ 0 := by omega
  rw [predWork]
  dsimp only
  rw [if_neg (by simp [hsome]),
    if_neg (by simpa [hopc, hphase, hpause, hhere, hnew, hk, ← Option.isSome_iff_ne_none] using hbefore), hheld]
  dsimp only
  rw [if_neg (by simpa using hlen), readArea_clean hclean]
  simp only [← List.map_prod_left_eq_zip, List.filter_map, List.length_map, List.map_map, Function.comp_def, List.map_id']
  rfl

/-- Without elements only the counts or the bitmap are left (R211). -/
theorem predWork_empty {i k : Nat} (hopc : o.opc = 0x14) (hnone : filtChunks o = 0) (hhere : i ∈ o.here d) :
    predWork p i k (d, o) = finishFilter p (d, o) :=
  if_pos (by simp [hopc, hnone, hphase, hpause, hhere])

end

/-- Settles O35: each opcode's work is what its conditions let it be, and it is put back. -/
theorem dispatchOpcodesComplete : Obligations.DispatchOpcodesComplete := by
  intro p d q g job coll o hg harc hrole hlost hgpause hfound hadmitted hphase hpause hown done
  have hwork : WorksOn p d g job coll o := ⟨hg, harc, hrole, hlost, hgpause, hfound, hadmitted, hown⟩
  refine ⟨?topk, ?keep, ?route, ?wcomb, ?requester, ?owner, ?pages, ?pageOwner, ?pred, ?predEmpty⟩
  case topk =>
    intro i t bs hopc htokens hnew hhere hheld hwhole w e y
    exact groveWork_next hwork (topkWork_scored hphase hpause hopc htokens hnew hhere hheld hwhole)
  case keep => exact fun _ _ _ => groveWork_next hwork rfl
  case route => exact fun _ _ _ _ _ _ _ _ _ _ => groveWork_next hwork rfl
  case wcomb =>
    intro i k r vals hopc htable hslots hhere t n hn hnew hvals hclean y
    exact groveWork_next hwork (wcombWork_due hphase hpause hopc htable hslots hhere hn hnew hvals hclean)
  case requester =>
    exact fun i hopc hi hhere => groveWork_next hwork (rowaccWork_requester hphase hpause hopc hi hhere)
  case owner =>
    exact fun i hopc hi hhere hslots => groveWork_next hwork (rowaccWork_owner hphase hpause hopc hi hhere hslots)
  case pages =>
    exact fun i hopc hi hhere => groveWork_next hwork (pageWork_requester hphase hpause hopc hi hhere)
  case pageOwner =>
    exact fun i hopc hi hhere => groveWork_next hwork (pageWork_owner hphase hpause hopc hi hhere)
  case pred =>
    intro i k h hopc hhere hk hnew hbefore hheld kb n hlen codes hclean kept bs rank here c all mask b
    have hpred := predWork_next hphase hpause hopc hhere hk hnew hbefore hheld hlen hclean
    exact ⟨fun htag => groveWork_next hwork (hpred.trans (if_neg (by simp [htag]))),
      fun htag => groveWork_next hwork (hpred.trans (if_pos htag))⟩
  case predEmpty =>
    exact fun i k hopc hnone hhere => groveWork_next hwork (predWork_empty hphase hpause hopc hnone hhere)

end Sys2Proof.Machine
end

section
/-! SUPPORT. Canopy requests at their home (spec/12_routing_and_canopy.md R336, R338-R343; spec/13_memory_stacks.md R355-R357;
spec/07_dispatch_sort_gather.md R209). Ingress hands the Canopy engine a device that differs in the packet buffer and the count of
free values alone, so what holds of the request before its cells are taken holds while it is served. -/

namespace Sys2Proof.Machine

/-- What the interface reports of a request's reads is the same on devices that are alike. -/
theorem LikeMem.canReads {d e : Dev} (h : LikeMem d e) (p : Part) (r : CanReq) (fx : StackFx) :
    LikeMem (canReads p d r fx).1 (canReads p e r fx).1 ∧ (canReads p d r fx).2 = (canReads p e r fx).2 := by
  unfold Machine.canReads
  dsimp only
  generalize hy : (if (r.op = 1 && !fxIsWrite fx) = true then Machine.applyFx p d (bits r.caddr 0 48) fx else (d, false)) = y
  generalize hz : (if (r.op = 1 && !fxIsWrite fx) = true then Machine.applyFx p e (bits r.caddr 0 48) fx else (e, false)) = z
  have hfx : LikeMem y.1 z.1 ∧ y.2 = z.2 := by
    subst hy hz
    exact like_ite (h.applyFx ..) ⟨h, rfl⟩
  have hflaws := hfx.1.takeFlaws p (if r.op = 2 || r.op = 3 then [] else Machine.hitFlaws p z.1 false (bits r.caddr 0 48) (canBytes r))
  rw [hfx.1.hitFlaws, hfx.2]
  exact ⟨hflaws.1, by rw [hflaws.2]⟩

/-- A WRITE reads nothing. -/
theorem canReads_write {p : Part} {d : Dev} {r : CanReq} {fx : StackFx} (hop : r.op = 2) : canReads p d r fx = (d, false) := by
  simp [canReads, hop]

/-- Nor does it meet poison (R356). -/
theorem canPoison_write {p : Part} {d : Dev} {r : CanReq} (hop : r.op = 2) : canPoison p d r = none := by
  simp [canPoison, hop]

/-- A granted request that this device serves from its own memory: its home is this device and no window, which it does not find
unreachable, its sender is not fenced, and it writes to no committed set (R209, R335, R336, R347). -/
structure ServedHere (p : Part) (d : Dev) (r : CanReq) : Prop where
  sender : d.isFenced r.srow r.scol = false
  reached : homeDead p d r.caddr = false
  home : homeDevice d (bits r.caddr 48 16) = (d.row, d.col)
  memory : (bits r.caddr 48 16).testBit 15 = false
  grant : granted d r = true
  unlocked : canLocked d r = false

/-- It still is once its frame has been taken up. -/
theorem ServedHere.of_onlyIngress {p : Part} {d e : Dev} {r : CanReq} (h : ServedHere p d r) (he : OnlyIngress d e) : ServedHere p e r := by
  obtain ⟨hsender, hreached, hhome, hmemory, hgrant, hunlocked⟩ := h
  rw [he]
  exact ⟨hsender, hreached, hhome, hmemory, hgrant, hunlocked⟩

section
variable {p : Part} {d : Dev} {r : CanReq} {fx : StackFx} (h : ServedHere p d r)
include h

/-- A request from the fabric that is served here is served as a home serves it. -/
theorem canTake_home {n : Nat} (hvia : r.via = .fabric n) : canTake p d r fx = canServe p d r fx := by
  obtain ⟨hsender, hreached, hhome, hmemory, -, -⟩ := h
  simp only [canTake, hvia, hsender, canForward, hreached, hhome, hmemory, decide_true, Bool.and_self, Bool.false_and,
    Bool.false_eq_true, if_true, if_false]

/-- What reads without fault or poison is performed and answered OK (R338, R356). -/
theorem canServe_clean (hreads : (canReads p d r fx).2 = false) (hpoison : canPoison p (canReads p d r fx).1 r = none) :
    canServe p d r fx =
      canAnswer p (canWrites p (canPerform (canReads p d r fx).1 r).1 r fx) r stOK (canPerform (canReads p d r fx).1 r).2 := by
  simp only [canServe, h.grant, h.unlocked, hreads, hpoison, Bool.not_true, Bool.false_eq_true, if_false]

/-- What fails in the stack is reported as poison and answered FENCED (R355, R356). -/
theorem canServe_failed (hreads : (canReads p d r fx).2 = true) :
    canServe p d r fx = canAnswer p (poisonEvent p (canReads p d r fx).1 (8 * (bits r.caddr 0 48 / 8)) 3 r.caddr) r stFenced [] := by
  simp only [canServe, h.grant, h.unlocked, hreads, Bool.not_true, Bool.false_eq_true, if_false, if_true]

end

section
variable {p : Part} {d : Dev} {q : List Instr} {r : CanReq} {n : Nat} {fx : StackFx} {ops : Nat → Bool} (hlink : p.hasLink n = true)
  (hvia : r.via = .fabric n) (hruns : d.runs domXbar = true) (hworks : d.works 8 = true) (hserved : ServedHere p d r)
  (hop : ops r.op = true)
include hlink hvia hruns hworks hserved hop

/-- A command whose request is served here: its frame is taken up, and what serving comes to is asked only of devices that ingress
can hand over. -/
theorem canCommand_served {f : Dev → Dev} (hf : ∀ e, OnlyIngress d e → canServe p e r fx = f e) :
    canCommand ops r fx ⟨p, d, q⟩ = .next ⟨p, serveAt 162 d (some n) 1 (64 + r.payload.length) f, q⟩ := by
  rw [canCommand, liftAt_next _ _ _ (by simp [hvia, viaLink, hlink]), if_neg (by simp [hruns, hworks, hop]), hvia]
  exact congrArg (fun y => (.next ⟨p, y, q⟩ : Res))
    (serveAt_congr fun e he => (canTake_home (hserved.of_onlyIngress he) hvia).trans (hf e he))

/-- Of a request whose reads are clean (R338). -/
theorem canCommand_clean (hreads : (canReads p d r fx).2 = false) (hpoison : canPoison p (canReads p d r fx).1 r = none) :
    canCommand ops r fx ⟨p, d, q⟩ = .next ⟨p, serveAt 162 d (some n) 1 (64 + r.payload.length) (fun e =>
      canAnswer p (canWrites p (canPerform (canReads p e r fx).1 r).1 r fx) r stOK (canPerform (canReads p e r fx).1 r).2), q⟩ := by
  refine canCommand_served hlink hvia hruns hworks hserved hop fun e he => ?_
  obtain ⟨hlike, hsame⟩ := he.likeMem.canReads p r fx
  exact canServe_clean (hserved.of_onlyIngress he) (hsame.trans hreads) ((canPoison_mem r hlike.1).trans hpoison)

/-- Of one whose reads fail (R355). -/
theorem canCommand_failed (hreads : (canReads p d r fx).2 = true) :
    canCommand ops r fx ⟨p, d, q⟩ = .next ⟨p, serveAt 162 d (some n) 1 (64 + r.payload.length) (fun e =>
      canAnswer p (poisonEvent p (canReads p e r fx).1 (8 * (bits r.caddr 0 48 / 8)) 3 r.caddr) r stFenced []), q⟩ :=
  canCommand_served hlink hvia hruns hworks hserved hop fun _ he =>
    canServe_failed (hserved.of_onlyIngress he) ((he.likeMem.canReads p r fx).2.trans hreads)

end

/-- Settles O52: each command serves its own operation, whose performance `canPerform` and `canWrites` say. -/
theorem canopyRequestsComplete : Obligations.CanopyRequestsComplete := by
  intro p d q r n hlink hvia hruns hworks hsender hreached hhome hmemory hgrant hunlocked done off clean
  have hserved : ServedHere p d r := ⟨hsender, hreached, hhome, hmemory, hgrant, hunlocked⟩
  refine ⟨?read, ?write, ?others, ?failed⟩
  case read =>
    intro fx hop ⟨hreads, hpoison⟩
    dsimp only [exec]
    refine (canCommand_clean hlink hvia hruns hworks hserved (by simp [hop]) hreads hpoison).trans ?_
    simp only [canPerform, canWrites, hop, if_true]
    rfl
  case write =>
    intro fx hop
    dsimp only [exec]
    refine (canCommand_clean hlink hvia hruns hworks hserved (by simp [hop]) ?_ (canPoison_write hop)).trans ?_
    · rw [canReads_write hop]
    · simp only [canReads_write hop, canPerform, hop]
      rfl
  case others =>
    intro x hx hop ⟨hreads, hpoison⟩
    simp only [List.mem_cons, List.not_mem_nil, or_false] at hx
    obtain rfl | rfl | rfl | rfl | rfl | rfl | rfl := hx
    all_goals
      dsimp only [exec]
      exact canCommand_clean hlink hvia hruns hworks hserved (by simp [hop]) hreads hpoison
  case failed =>
    intro fx hop hreads
    dsimp only [exec]
    exact canCommand_failed hlink hvia hruns hworks hserved (by simp [hop]) hreads

end Sys2Proof.Machine
end

section
/-! SUPPORT. Fixed-cycle mode and checkpoints (spec/08_determinism_contract.md R223, R229, R233, R236; spec/14_pace_and_time.md R381;
log entries 80, 86, 101 and 126). Each write's rule is said by what it accepts, and the end of a save by what becomes of its image. -/

namespace Sys2Proof.Machine

/-! ### What each rule accepts -/

/-- An action of the device takes the lowest free entry (R381). -/
theorem takeEntrySched_accept {d : Dev} {i : Nat} (hfree : schedFree d = some i) (rec : Nat) (f : Dev → Dev) :
    takeEntrySched d rec f = accept (f (putSched d i rec)) := by
  simp only [takeEntrySched, hfree]

theorem fcmEnterRule_accept {d : Dev} {i : Nat} (target : Nat) (hmode : d.modes.fcm = 0) (hfree : schedFree d = some i) :
    fcmEnterRule target d = accept (setFcm (putSched d i (mkSched 7 target 0 1 true)) 1) :=
  (if_neg (by simp [hmode])).trans (takeEntrySched_accept hfree ..)

theorem fcmLeaveRule_accept {p : Part} {d : Dev} {i : Nat} (target : Nat) (hmode : d.modes.fcm = 2) (hfree : schedFree d = some i) :
    fcmLeaveRule p target d = accept (setFcm (putSched d i (mkSched 7 target 0 2 true)) 3) :=
  (if_neg (by simp [hmode])).trans ((if_pos hmode).trans (takeEntrySched_accept hfree ..))

theorem ckptRule_accept {d : Dev} {job i : Nat} (op target : Nat) (hjob : (d.jobRec job).isSome = true) (hfree : schedFree d = some i) :
    ckptRule job op target d = accept (putSched d i (mkSched 8 target job op false)) :=
  (if_neg (by simp [Option.isSome_iff_ne_none.mp hjob])).trans (takeEntrySched_accept hfree ..)

/-- An image that reads clean and passes every check is loaded (R233). -/
theorem ckptRestoreRule_accept {p : Part} {d : Dev} {job source off : Nat} (resume : Nat)
    (hclean : cleanReads p d (restoreRanges p d source off) = true) (hst : restoreStatus p d false job source off = stOK) :
    ckptRestoreRule p job source off resume d = accept (restoreImage p d (imageOf d (restoreOff d source off)) job resume) := by
  simp only [ckptRestoreRule, checkReads_of_clean _ _ _ hclean, Option.isSome_none, hst]
  rfl

/-! ### The end of a save -/

/-- A grove of a save has been LOST, or has faulted, since the boundary (R229, log entry 126). -/
abbrev SaveGone (d : Dev) (v : Saving) : Prop :=
  ∃ x ∈ v.image.groves, (d.grove x.1).phase = .lost ∨ (d.grove x.1).phase = .halted ∧ x.2.phase ≠ .halted

/-- The model's test of it. -/
theorem saveGone_iff (d : Dev) (v : Saving) :
    v.image.groves.any (fun x => (d.grove x.1).phase == .lost || ((d.grove x.1).phase == .halted && x.2.phase != .halted)) = true
      ↔ SaveGone d v := by
  simp only [List.any_eq_true, Bool.or_eq_true, Bool.and_eq_true, beq_iff_eq, bne_iff_ne]

/-- The image that a save ends in, with its body. -/
def endedImage (d : Dev) (v : Saving) : Image := { settledImage d v.image with body := Config.ckptBody (settledImage d v.image) }

/-- It fits its slot, and the slot lies in memory (R236). -/
abbrev SaveFits (p : Part) (d : Dev) (v : Saving) : Prop :=
  128 + (endedImage d v).body.length ≤ ckptSlotBytes d ∧ ckptSlot d (idleSlot d) + ckptSlotBytes d ≤ memSize p d

/-- The groves of a save go on or halt, and its operations go on (R229). -/
def endStops (p : Part) (v : Saving) (d : Dev) : Dev :=
  let freed := (v.image.groves.map Prod.fst).foldl (freeGrove p v.stop) d
  if v.stop = true then freed else freeOps p freed v.job

section
variable {p : Part} {d : Dev} {v : Saving} (hclean : cleanReads p d (savedRanges p d v.image) = true)
include hclean

/-- Groves that have gone leave no image (R229). -/
theorem endSave_gone (hgone : SaveGone d v) : endSave p d v = endStops p v (ckptRefused d stNotReady) := by
  simp only [endSave, checkReads_of_clean _ _ _ hclean, (saveGone_iff d v).mpr hgone, if_true]
  rfl

/-- Nor does one that does not fit (R236). -/
theorem endSave_large (hgone : ¬ SaveGone d v) (hfits : ¬ SaveFits p d v) :
    endSave p d v = endStops p v (ckptRefused d stTableFull) := by
  simp only [SaveFits, endedImage] at hfits
  simp only [endSave, checkReads_of_clean _ _ _ hclean, eq_false_of_ne_true ((saveGone_iff d v).not.mpr hgone), ← Bool.decide_and, hfits,
    decide_false, Bool.not_false, Bool.false_eq_true, if_true, if_false]
  rfl

/-- Any other is stored, when what it overwrites is not poisoned (R232, R356). -/
theorem endSave_stored (hgone : ¬ SaveGone d v) (hfits : SaveFits p d v)
    (hpoison : writePoison p d (ckptSlot d (idleSlot d)) (128 + (endedImage d v).body.length) = false) :
    endSave p d v = endStops p v (storeImage p d (endedImage d v)) := by
  obtain ⟨hbody, hslot⟩ := hfits
  simp only [endedImage] at hbody hpoison
  simp only [endSave, checkReads_of_clean _ _ _ hclean, eq_false_of_ne_true ((saveGone_iff d v).not.mpr hgone), hbody, hslot, hpoison,
    decide_true, Bool.and_self, Bool.not_true, Bool.false_eq_true, if_false]
  rfl

end

/-- The oldest save ends when no substitution is in progress and its steps have ended (R229, R460). -/
theorem exec_checkpointSaved {p : Part} {d t : Dev} {q : List Instr} {v : Saving} {vs : List Saving} (hsaving : d.modes.saving = v :: vs)
    (hruns : d.runs domArc = true) (hspares : d.inFcm = true ∨ d.spares.failed = []) (hsteps : stepsOut d v.image = false)
    (hends : endSave p { d with modes := { d.modes with saving := vs } } v = t) :
    exec (.checkpointSaved v.job) ⟨p, d, q⟩ = .next ⟨p, t, q⟩ := by
  refine exec_next_of_effect rfl ?_
  simp only [hsaving]
  refine (if_neg ?_).trans hends
  obtain hfcm | hnone := hspares
  · simp [hruns, hsteps, hfcm]
  · simp [hruns, hsteps, hnone]

/-- Settles O39: the conditions of each write get past every refusal of its rule, and a save ends by what its image comes to. -/
theorem modesAndCheckpointsComplete : Obligations.ModesAndCheckpointsComplete := by
  unfold Obligations.ModesAndCheckpointsComplete
  refine ⟨?enter, ?leave, ?checkpoint, ?saved, ?restore⟩
  case enter =>
    intro p d q rq target c i d1 k htarget htaken hmode hfree
    refine exec_next_of_accept rfl htaken ?_
    rw [Nat.mod_eq_of_lt htarget]
    exact fcmEnterRule_accept target hmode hfree
  case leave =>
    intro p d q rq target c i d1 k htarget htaken hmode hfree
    refine exec_next_of_accept rfl htaken ?_
    rw [Nat.mod_eq_of_lt htarget]
    exact fcmLeaveRule_accept target hmode hfree
  case checkpoint =>
    intro p d q rq job target c i d1 hjob htarget hrec hfree
    refine ⟨fun htaken => exec_next_of_accept rfl htaken ?_, fun htaken => exec_next_of_accept rfl htaken ?_⟩
    all_goals
      rw [Nat.mod_eq_of_lt hjob, Nat.mod_eq_of_lt htarget]
      exact ckptRule_accept _ target hrec hfree
  case saved =>
    intro p d q v vs hsaving hruns hspares hsteps d1 im0 im at_ hclean hpoison gone kept freed
    refine exec_checkpointSaved hsaving hruns hspares hsteps ?_
    by_cases hgone : SaveGone d1 v
    · exact (endSave_gone hclean hgone).trans (congrArg (endStops p v) (if_pos hgone).symm)
    · refine Eq.trans ?_ (congrArg (endStops p v) (if_neg hgone).symm)
      by_cases hfits : SaveFits p d1 v
      · exact (endSave_stored hclean hgone hfits hpoison).trans (congrArg (endStops p v) (if_pos hfits).symm)
      · exact (endSave_large hclean hgone hfits).trans (congrArg (endStops p v) (if_neg hfits).symm)
  case restore =>
    intro p d q rq job source off resume c d1 k hjob hsource hoff hresume htaken hclean hst
    refine exec_next_of_accept rfl htaken ?_
    rw [Nat.mod_eq_of_lt hjob, Nat.mod_eq_of_lt (by omega : source < 256), Nat.mod_eq_of_lt hoff, Nat.mod_eq_of_lt hresume]
    exact ckptRestoreRule_accept resume hclean hst

end Sys2Proof.Machine
end

section
/-! SUPPORT. Refresh, patrol scrub, failures and heat of the stacks, the leak auditor and reclaim (spec/13_memory_stacks.md R355, R359,
R361, R362, R364; spec/09_buffers_and_slots.md R249-R252; spec/08_determinism_contract.md R222; log entry 82). Each meaning is a guard
over one effect; what reclaim accepts is said of its rule. -/

namespace Sys2Proof.Machine

/-- A stack, and a channel of it. -/
theorem channel_exists {p : Part} {k ch : Nat} (hk : k < p.stacks) (hch : ch < 12) :
    (decide (k < p.stacks) && decide (ch < 12)) = true := by simp [hk, hch]

/-- A holder's bit is taken from a cell recorded as leaked, which no reference names (R252). -/
theorem reclaimRule_accept {d : Dev} {cell holder : Nat} {r : CellRec} (hcell : cell < 2097152)
    (hleak : ∃ l ∈ d.buf.leaks, l.cell = cell) (hnone : ∀ x ∈ liveRefs d, x.2 ≠ cell) (hrec : d.buf.cells.find? cell = some r)
    (howner : r.owners.testBit holder = true) : reclaimRule (cell * 256) holder d = accept (reclaimCell holder d cell) := by
  have hdiv : cell * 256 / 256 = cell := by omega
  have haligned : ¬ ((cell * 256 % 256 != 0 || decide (2 ^ 29 ≤ cell * 256)) = true) := by
    simp only [Bool.or_eq_true, bne_iff_ne, decide_eq_true_eq]
    omega
  have hlost : ¬ ((!d.buf.leaks.any (fun l => l.cell = cell) || (liveRefs d).any (fun x => x.2 = cell)) = true) := by
    simpa using ⟨hleak, fun a hx => hnone (a, cell) hx rfl⟩
  rw [reclaimRule, if_neg haligned]
  simp only [hdiv]
  rw [if_neg hlost, hrec]
  exact if_pos howner

/-- Settles O40: each event's conditions rule out that its meaning does nothing. -/
theorem stackUpkeepComplete : Obligations.StackUpkeepComplete := by
  unfold Obligations.StackUpkeepComplete
  refine ⟨?refresh, ?window, ?scrub, ?scrubIdle, ?failure, ?heat, ?walkStart, ?walkEnd, ?reclaim⟩
  case refresh =>
    intro p d q k ch hk hch hruns htrained hfcm
    exact exec_next_of_liftAt rfl (channel_exists hk hch)
      ((if_neg (by simp [hruns, htrained])).trans (if_pos (by simp [hfcm])))
  case window =>
    intro p d q hruns hfcm
    exact exec_next_of_effect rfl (if_neg (by simp [hruns, hfcm]))
  case scrub =>
    intro p d q i hruns hread off e met d1 d2
    exact exec_next_of_effect rfl (if_neg (by simp [hruns, hread]))
  case scrubIdle =>
    intro p d q i hidle
    exact exec_next_of_effect rfl (if_pos (by simp [hidle]))
  case failure =>
    intro p d q k channels cause hk hcause hruns htrained d1 partner
    exact exec_next_of_liftAt rfl (by simpa [hk] using hcause) (if_neg (by simp [hruns, htrained]))
  case heat =>
    intro p d q k above celsius hk hruns hcross d1
    refine exec_next_of_liftAt rfl (decide_eq_true hk) (if_neg ?_)
    cases above with
    | true => simpa [hruns] using hcross
    | false => simpa [hruns] using hcross
  case walkStart =>
    intro p d q hruns hworks hwalking
    exact exec_next_of_effect rfl (if_neg (by simp [hruns, hworks, hwalking]))
  case walkEnd =>
    intro p d q hwalking isRef lost gone d1 d2 d3
    refine exec_next_of_effect rfl ((if_neg (by simp [hwalking])).trans ?_)
    extract_lets counted now refs isRef' lost' buf cleared noted gone' ended endedBuf
    -- The count of walks moves no reference, so the model's lists, taken after it, are these.
    have hends : ended = d3 := rfl
    simp only [endedBuf, hends]
    rfl
  case reclaim =>
    intro p d q rq cell holder c d1 r k hcell hholder htaken hleak hnone hrec howner e
    refine exec_next_of_accept rfl htaken ?_
    rw [Nat.mod_eq_of_lt (by omega : cell * 256 < 2 ^ 32), Nat.mod_eq_of_lt hholder]
    exact reclaimRule_accept hcell hleak hnone hrec howner

end Sys2Proof.Machine
end

section
/-! SUPPORT. Received LFP frames (spec/10_ports_and_links.md R272-R285, R298; spec/09_buffers_and_slots.md R241;
spec/12_routing_and_canopy.md R321; spec/08_determinism_contract.md R222, R225; log entries 61 and 96). What a frame comes to is
decided on the device that ingress hands over; its link expects the LSEQ that it expected when the frame came. -/

namespace Sys2Proof.Machine

/-- A frame that is the next of its link and passes the link check (R277). -/
def Expected (d : Dev) (n : Nat) (f : Frame) (i : RxInfo) : Prop :=
  i.lseq = (d.link n).lseqRx ∧ frameCrc f i.len = i.crc ∧ i.fec.uncorr = 0

/-- The model's test of it. -/
theorem expected_iff (d : Dev) (n : Nat) (f : Frame) (i : RxInfo) :
    (i.lseq = (d.link n).lseqRx && rxIntact f i) = true ↔ Expected d n f i := by
  simp [Expected, rxIntact]

/-! ### What the link expects when ingress hands the frame over -/

@[simp] theorem linkCtr_lseqRx (d : Dev) (n k by_ : Nat) : ((linkCtr d n k by_).link n).lseqRx = (d.link n).lseqRx := by
  simp [linkCtr]

@[simp] theorem countFec_lseqRx (d : Dev) (n : Nat) (x : Fec) : ((countFec d n x).link n).lseqRx = (d.link n).lseqRx := by
  simp [countFec]

@[simp] theorem noteDrawn_lseqRx (d : Dev) (n vc c : Nat) : ((noteDrawn d n vc c).link n).lseqRx = (d.link n).lseqRx := by
  simp [noteDrawn]

@[simp] theorem rxCredit_lseqRx (d : Dev) (n : Nat) (f : Frame) (i : RxInfo) :
    ((rxCredit d n f i).1.link n).lseqRx = (d.link n).lseqRx := by
  unfold rxCredit
  split <;> simp

theorem OnlyIngress.link {d e : Dev} (h : OnlyIngress d e) (n : Nat) : e.link n = d.link n := by
  simp only [Dev.link, h.sw]

/-- Neither the counts nor the credit noted, nor ingress, change whether a frame is expected. -/
theorem expected_arrived {d e : Dev} {n : Nat} {f : Frame} {i : RxInfo} (he : OnlyIngress (rxCredit (countFec d n i.fec) n f i).1 e) :
    Expected e n f i ↔ Expected d n f i := by
  simp [Expected, he.link]

/-! ### What a frame comes to -/

/-- A good frame is mirrored, counted and acknowledged, and takes its place in its stream; one marked, to discard, or with a failed cell
only fills it (R241, R274, R277, R284). -/
theorem takeLfp_expected {p : Part} {d : Dev} {n : Nat} {f : Frame} {i : RxInfo} (hgood : Expected d n f i) :
    let drop := rxDiscard d n f i
    let e1 := mirror d n (headerBytes f i.len ++ f.payload) (64 + i.len) (2 * b2n i.poison + 8 * b2n (drop && !i.poison)) f.vc
    let e2 := (linkCtr (linkCtr e1 n 1) n 3 (64 + i.len)).send (.control n 1 (i.lseq * 2 ^ 40))
    let e3 := e2.setLink n { e2.link n with lseqRx := ((e2.link n).lseqRx + 1) % 256, nakSent := false }
    takeLfp p n f i d =
      if i.poison then streamIn p (cutLfp p (linkCtr e3 n 10) n f i) n f true
      else if drop then streamIn p (cutLfp p (linkCtr e3 n 12) n f i) n f true
      else if i.badCell.isSome then streamIn p (cutLfp p (linkCtr e3 n 7) n f i) n f true
      else fcmIn p e3 n f := by
  simp [takeLfp, (expected_iff d n f i).mpr hgood, b2n]

/-- A frame that fails its link check is mirrored as such and discarded (R277). -/
theorem takeLfp_unexpected {p : Part} {d : Dev} {n : Nat} {f : Frame} {i : RxInfo} (hbad : ¬ Expected d n f i) :
    takeLfp p n f i d = rxFailed (cutLfp p
      (mirror d n (headerBytes f i.len ++ f.payload) (64 + i.len) (2 * b2n i.poison + 4) f.vc) n f i) n f i := by
  simp [takeLfp, eq_false_of_ne_true ((expected_iff d n f i).not.mpr hbad), b2n]

/-- A frame arrives: its credit is noted, it takes its cells or leaves them to its unit, and what it comes to is asked only of devices
that ingress can hand over (R241, R277, R281). -/
theorem exec_lfpFrameRx {p : Part} {d : Dev} {q : List Instr} {n : Nat} {f : Frame} {i : RxInfo} {w : Dev → Dev}
    (hlink : p.hasLink n = true) (hlive : lfpLive d n = true)
    (hw : ∀ e, OnlyIngress (rxCredit (countFec d n i.fec) n f i).1 e → takeLfp p n f i e = w e) :
    let c := rxCredit (countFec d n i.fec) n f i
    exec (.lfpFrameRx n f i) ⟨p, d, q⟩ = .next ⟨p,
      if handsOver d n f ∧ i.badCell.isNone then withFrame c.1 (some n) f.vc (cellsFor (64 + i.len)) [] c.2 w
      else ingress c.1 (some n) f.vc (64 + i.len) c.2 w, q⟩ := by
  intro c
  refine exec_next_of_liftAt rfl hlink ((if_neg (by simp [hlive])).trans ?_)
  simp only [← Bool.and_eq_true]
  split
  · exact withFrame_congr (fun _ h => absurd h List.not_mem_nil) fun e he _ => hw e he
  · exact ingress_congr fun e he _ => hw e he

/-- Settles O46: a frame's outcome turns on whether its link expects it, and the rest are events of its stream. -/
theorem linkFramesComplete : Obligations.LinkFramesComplete := by
  intro p d q n hlink
  refine ⟨?received, ?release, ?gap, ?unicast⟩
  case received =>
    intro f i hlive c taken good bytes
    refine ⟨fun hgood => ?_, fun hbad => ?_⟩
    · exact exec_lfpFrameRx hlink hlive fun e he => takeLfp_expected ((expected_arrived he).mpr hgood)
    · exact exec_lfpFrameRx hlink hlive fun e he => takeLfp_unexpected ((expected_arrived he).not.mpr hbad)
  case release =>
    intro x hfound go
    refine ⟨fun hfcm => ?_, fun hfcm hgrant hturn => ?_⟩
    · refine exec_next_of_liftAt rfl hlink ?_
      simp only [hfound]
      exact if_pos (by simp [hfcm])
    · refine exec_next_of_liftAt rfl hlink ?_
      simp only [hfound]
      exact (if_neg (by simp [hfcm])).trans (if_neg (by simp [hgrant, hturn]))
  case gap =>
    intro vc gap hvc key st l hgap
    refine exec_next_of_liftAt rfl (by simp [hlink, hvc]) ?_
    simp only [hgap, key, st]
    rfl
  case unicast =>
    intro f hruns hworks
    refine exec_next_of_liftAt rfl hlink ((if_neg (by simp [hruns, hworks])).trans ?_)
    simp only [unicastFrame, Bool.and_eq_true, decide_eq_true_eq]

end Sys2Proof.Machine
end

section
/-! SUPPORT. A link's scheduler and the age mark (spec/11_scheduling.md R299, R311, R312; spec/10_ports_and_links.md R278, R286;
spec/08_determinism_contract.md R222; log entry 65). A decision is said once for each ground on which it is made: the link's kind, the
frames that wait for their ACK, the kept frame. -/

namespace Sys2Proof.Machine

/-- The slot table in fixed-cycle mode, else the levels (R222, R299). -/
def serveTable (d : Dev) (n : Nat) : Dev := if d.inFcm then serveSlot d n else serveLevels d n

section
variable {d : Dev} {n : Nat}

/-- An Ethernet link keeps no frame and awaits no ACK. -/
theorem decide_ethernet (heth : isEthernet (settleElig d n) n = true) :
    decide_ d n = settleElig (serveTable (settleElig d n) n) n := by
  simp only [decide_, heth, if_true]
  rfl

section
variable (hlfp : isEthernet (settleElig d n) n = false)
include hlfp

/-- Nothing is sent while 64 frames wait for their ACK (R278). -/
theorem decide_replayFull (hfull : 64 ≤ ((settleElig d n).link n).replay.length) :
    decide_ d n = settleElig (settleElig d n) n := by
  simp only [decide_, hlfp, hfull, Bool.false_eq_true, if_false, if_true]

variable (hroom : ((settleElig d n).link n).replay.length < 64)
include hroom

/-- A kept frame in its turn goes first (R286). -/
theorem decide_kept {x : Copy} {rest : List Copy} (hkept : ((settleElig d n).link n).resend = x :: rest)
    (hturn : keptTurn (settleElig d n) n x = true) : decide_ d n = settleElig (serveKept (settleElig d n) n x rest) n := by
  simp only [decide_, hlfp, hkept, hturn, Nat.not_le.mpr hroom, Bool.false_eq_true, if_false, if_true]

/-- With no kept frame, or one whose turn it is not, the queues are served (log entry 65). -/
theorem decide_queues (hturn : ∀ x rest, ((settleElig d n).link n).resend = x :: rest → keptTurn (settleElig d n) n x = false) :
    decide_ d n = settleElig (serveTable (settleElig d n) n) n := by
  simp only [decide_, hlfp, Nat.not_le.mpr hroom, Bool.false_eq_true, if_false]
  split
  · next x rest hkept =>
    rw [hturn x rest hkept]
    rfl
  · rfl

end

end

/-- A link that is free to start a frame decides on the device in which a cell that failed is marked (R241). -/
theorem exec_egressDecision {p : Part} {d t : Dev} {q : List Instr} {n : Nat} {bad : Option Nat} (hlink : p.hasLink n = true)
    (hruns : portRuns d n = true) (hcarries : (d.link n).carries = true) (hdecides : decide_ (readFails d n bad) n = t) :
    exec (.egressDecision ⟨n, bad⟩) ⟨p, d, q⟩ = .next ⟨p, t, q⟩ :=
  exec_next_of_liftAt rfl hlink ((if_pos (by simp [hruns, hcarries])).trans hdecides)

/-- Settles O49: the ground on which the decision is made is the one that its conditions name. -/
theorem egressCompletes : Obligations.EgressCompletes := by
  intro p d q n hlink
  refine ⟨?decision, ?ageMark⟩
  case decision =>
    intro hruns hcarries bad s levels
    refine ⟨?ethernet, ?full, ?kept, ?queues⟩
    case ethernet =>
      exact fun heth => exec_egressDecision hlink hruns hcarries (decide_ethernet heth)
    case full =>
      exact fun hlfp hfull => exec_egressDecision hlink hruns hcarries (decide_replayFull hlfp hfull)
    case kept =>
      exact fun x rest hlfp hroom hkept hturn => exec_egressDecision hlink hruns hcarries (decide_kept hlfp hroom hkept hturn)
    case queues =>
      exact fun hlfp hroom hturn => exec_egressDecision hlink hruns hcarries (decide_queues hlfp hroom hturn)
  case ageMark =>
    intro k hk hruns hsome
    exact exec_next_of_liftAt rfl (by simp [hlink, hk]) (if_neg (by simp [hruns, hsome]))

end Sys2Proof.Machine
end

section
/-! SUPPORT. The packet buffer (spec/09_buffers_and_slots.md R238-R252) is put together from the laws of its cells. -/

namespace Sys2Proof.Machine

/-- What a frame's decision leaves sound stays so through ingress (R240, R243). -/
theorem ingress_sound {d : Dev} (hd : d.buf.Sound) (arr : Option Nat) (vc bytes : Nat) (owed : Option Nat) {f : Dev → Dev}
    (hf : ∀ u : Dev, u.buf.Sound → (f u).buf.Sound) : (ingress d arr vc bytes owed f).buf.Sound :=
  (bufKeeps_ingress d arr vc bytes owed f fun u => ⟨hf u⟩).keep hd

/-- Cells allocated for a frame: the buffer stays sound, and they are as many as asked for, were free, and are ingress's. -/
theorem allocFrame_sound {d t : Dev} (hd : d.buf.Sound) {arr : Option Nat} {n : Nat} {cs : List Nat}
    (h : allocFrame d arr n = some (cs, t)) : t.buf.Sound ∧ cs.length = n ∧ Allocated d cs t := by
  obtain ⟨hkeeps, hlength, hallocated⟩ := allocFrame_keeps h
  exact ⟨hkeeps.keep hd, hlength, hallocated⟩

/-- Settles O60: the count of cells, and each operation by the law that it keeps the buffer sound. -/
theorem thePacketBufferKeepsItsCells : Obligations.ThePacketBufferKeepsItsCells := by
  intro d hd
  refine ⟨hd.whole, ?allocated, ?held, ?marked, ?released, ?copies, ?admitted, ?ingress, ?reclaimed⟩
  case allocated => exact fun arr n cs t h => allocFrame_sound hd h
  case held => exact fun h c => (bufKeeps_holdCell h d c).keep hd
  case marked => exact fun c => ⟨(bufKeeps_failCell d c).keep hd, (bufKeeps_markHead d c).keep hd⟩
  case released => exact fun h cs => (bufKeeps_releaseCells d h cs).keep hd
  case copies => exact fun n q x => ⟨(bufKeeps_placeCopy d n q x).keep hd, (bufKeeps_releaseCopy d n q x).keep hd⟩
  case admitted => exact fun arr lossless charge dests pcp => (bufKeeps_admitCopies d arr lossless charge dests pcp).keep hd
  case ingress => exact fun arr vc bytes owed f hf => ingress_sound hd arr vc bytes owed hf
  case reclaimed => exact fun h c => (bufKeeps_reclaimCell h d c).keep hd

end Sys2Proof.Machine
end

section
/-! SUPPORT. Retry, credits and lanes of an LFP link that carries control flits (spec/10_ports_and_links.md R275-R278, R290, R291;
spec/09_buffers_and_slots.md R241; spec/14_pace_and_time.md R377; spec/18_faults_and_telemetry.md R468; log entries 85 and 112). -/

namespace Sys2Proof.Machine

/-- Control flits travel on a link of mode LFP that its port group serves and that is UP or DEGRADED. -/
theorem lfpLive_iff (d : Dev) (n : Nat) : lfpLive d n = true ↔ portRuns d n = true ∧ d.linkMode n = 1 ∧ (d.link n).live = true := by
  simp [lfpLive, and_assoc]

/-! ### A cell found failed as a frame is read again (R241) -/

theorem OnlyIngress.rd {d e : Dev} (h : OnlyIngress d e) (idx sub rec : Nat) : e.rd idx sub rec = d.rd idx sub rec := by
  simp only [Dev.rd, Dev.rdD, h.dict]

/-- The packet buffer has no say in whether control flits travel on a link. -/
theorem OnlyIngress.lfpLive {d e : Dev} (h : OnlyIngress d e) (n : Nat) : lfpLive e n = lfpLive d n := by
  unfold OnlyIngress at h
  rw [h]
  rfl

theorem onlyIngress_failCell (d : Dev) (c : Nat) : OnlyIngress d (failCell d c) := by
  unfold failCell
  split
  · exact OnlyIngress.refl d
  · exact onlyIngress_buf ..

/-- A failed read marks its cell and touches nothing beside the packet buffer. -/
theorem onlyIngress_readFails (d : Dev) (n : Nat) (bad : Option Nat) : OnlyIngress d (readFails d n bad) := by
  unfold readFails
  cases bad with
  | none => exact OnlyIngress.refl d
  | some c =>
    dsimp only
    split
    · exact onlyIngress_failCell ..
    · exact OnlyIngress.refl d

/-- A replay turns on the retries and fences of its link, which a failed read does not touch (R277, R278). -/
theorem replayFrom_readFails (p : Part) (d : Dev) (n : Nat) (bad : Option Nat) (frames : List Sent) :
    let l := d.link n
    let e := readFails d n bad
    replayFrom p e n frames =
      if d.rd 0x2003 1 0 ≤ l.retries then retrain p e n
      else
        let e1 := fcmBreak (linkCtr (e.setLink n { l with retries := l.retries + 1 }) n 8) 1 1 n
        if l.isFenced then e1 else frames.foldl (replayOne n) e1 := by
  simp only [replayFrom, (onlyIngress_readFails d n bad).link, (onlyIngress_readFails d n bad).rd]

/-! ### Lanes and management words -/

/-- All four lanes are on. -/
theorem testBit_allLanes {lane : Nat} (h : lane < 4) : Nat.testBit 15 lane = true := by
  revert lane
  decide

/-- A link that carries control flits hears management words and the reserved kinds (R275, log entry 112). -/
theorem mgmt_heard {d : Dev} {n word : Nat} (hlive : lfpLive d n = true) (hkind : 7 ≤ bits word 56 8) :
    ¬ (!d.runs (domPort (n / 8)) || !((d.link n).live || (d.link n).st == .handshake) || d.linkMode n != 1
      || decide (bits word 56 8 < 7)) = true := by
  obtain ⟨hruns, hmode, hup⟩ := (lfpLive_iff d n).mp hlive
  have hruns : d.runs (domPort (n / 8)) = true := hruns
  simp [hruns, hmode, hup, hkind]

/-- A word that reports the transmit or the receive power of one of a link's lanes is not counted as malformed (log entry 85). -/
theorem mgmt_reports {word : Nat} (hwhich : bits word 0 8 = 1 ∨ bits word 0 8 = 2) (hlane : bits word 8 8 < 4) :
    ¬ ((bits word 0 8 != 1 && bits word 0 8 != 2) || decide (3 < bits word 8 8)) = true := by
  simp
  omega

/-- Settles O45: on a live link each command's conditions leave the branch with its effect. -/
theorem linkRetryAndLanesComplete : Obligations.LinkRetryAndLanesComplete := by
  intro p d q n hlink hlive l replay
  obtain ⟨hruns, hmode, hup⟩ := (lfpLive_iff d n).mp hlive
  refine ⟨?ack, ?nak, ?nakAgain, ?oldestWaits, ?timer, ?credit, ?laneFailure, ?degrade, ?restore, ?flight, ?transmitPower,
    ?receivePower, ?reservedKind⟩
  case ack =>
    intro lseq k hlseq (hfound : firstIx _ (d.link n).replay 0 = some k)
    refine exec_next_of_liftAt rfl hlink ((if_neg (by simp [hlive])).trans ?_)
    simp only [Nat.mod_eq_of_lt hlseq, hfound]
    rfl
  case nak =>
    intro lseq k bad hlseq (hfound : firstIx _ (d.link n).replay 0 = some k)
    have hread := onlyIngress_readFails d n bad
    refine exec_next_of_liftAt rfl hlink ((if_neg (by simp [hread.lfpLive, hlive])).trans ?_)
    simp only [Nat.mod_eq_of_lt hlseq, hread.link, hfound]
    exact replayFrom_readFails ..
  case nakAgain =>
    intro bad hsent
    exact exec_next_of_liftAt rfl hlink ((if_neg (by simp [hlive])).trans (if_pos hsent))
  case oldestWaits =>
    intro bad (hwaits : (d.link n).replay ≠ [])
    exact exec_next_of_liftAt rfl hlink ((if_neg (by simp [hlive])).trans
      ((if_neg Bool.false_ne_true).trans ((if_neg (by simp [hwaits])).trans (replayFrom_readFails ..))))
  case timer => exact exec_next_of_liftAt rfl hlink (if_neg (by simp [hlive]))
  case credit =>
    intro vc pool total hvc hpool htotal key more l1
    refine exec_next_of_liftAt rfl (by simp [hlink, hpool]; omega) ((if_neg (by simp [hlive]; omega)).trans ?_)
    rw [Nat.mod_eq_of_lt htotal]
  case laneFailure =>
    intro lane cw hlane hcw (hall : (d.link n).rxLanes = 15) d1
    refine exec_next_of_liftAt rfl (by simp [hlink, hlane]) ((if_neg ?serves).trans ((if_neg ?first).trans ?_))
    case serves => simp [hruns, hup, hall, testBit_allLanes hlane]
    case first => simp [hmode, hall]
    rw [Nat.mod_eq_of_lt hcw]
  case degrade =>
    intro lane cw hlane (hall : (d.link n).txLanes = 15) d1
    exact exec_next_of_liftAt rfl (by simp [hlink, hlane])
      ((if_neg (by simp [hlive, hall, testBit_allLanes hlane])).trans (if_neg (by simp [hall])))
  case restore =>
    intro lane cw hlane (hoff : (d.link n).txLanes.testBit lane = false) d1
    exact exec_next_of_liftAt rfl (by simp [hlink, hlane]) (if_neg (by simp [hlive, hoff]))
  case flight => exact fun flight => exec_next_of_liftAt rfl hlink (if_pos (by simp [hlive]))
  case transmitPower =>
    intro word hn _ hkind hwhich hlane lane
    refine exec_next_of_liftAt rfl (decide_eq_true hn) ((if_neg (mgmt_heard hlive hkind.ge)).trans ((if_neg hkind.not_gt).trans
      ((if_neg (mgmt_reports (.inr hwhich) hlane)).trans ?_)))
    simp [hwhich, lane]
  case receivePower =>
    intro word hn _ hkind hwhich hlane lane v d1 t
    refine exec_next_of_liftAt rfl (decide_eq_true hn) ((if_neg (mgmt_heard hlive hkind.ge)).trans ((if_neg hkind.not_gt).trans
      ((if_neg (mgmt_reports (.inl hwhich) hlane)).trans ?_)))
    simp [hwhich, lane, v, d1, t]
  case reservedKind =>
    intro word hn _ hkind
    exact exec_next_of_liftAt rfl (decide_eq_true hn) ((if_neg (mgmt_heard hlive hkind.le)).trans (if_pos hkind))

end Sys2Proof.Machine
end

section
/-! SUPPORT. LINK_CTRL (spec/10_ports_and_links.md R289, R291, R492; spec/17_startup_and_security.md R434). Each op's rule is a
refusal over what it accepts. -/

namespace Sys2Proof.Machine

/-- A link's number fits the field of LINK_CTRL that names it (R492). -/
theorem mod_256_of_hasLink {p : Part} {n : Nat} (hlink : p.hasLink n = true) : n % 256 = n := by
  have hlinks : p.links ≤ 128 := by unfold Part.links; split <;> decide
  have hn : n < p.links := of_decide_eq_true hlink
  exact Nat.mod_eq_of_lt (by omega)

/-- An op on a link that is there is its own rule. -/
theorem linkOp_hasLink {p : Part} {n : Nat} (hlink : p.hasLink n = true) (rule : Part → Dev → Dev × Nat) (d : Dev) :
    linkOp n rule p d = rule p d := if_neg (by simp [hlink])

theorem enableRule_accept {p : Part} {d : Dev} {n : Nat} (hst : (d.link n).st = .disabled ∨ (d.link n).st = .failed)
    (hmode : d.linkMode n ≠ 0) : enableRule n p d = accept (beginLink p d n) := if_pos (by simpa [hmode] using hst)

theorem retrainRule_accept {p : Part} {d : Dev} {n : Nat} (hst : (d.link n).st ≠ .disabled) :
    retrainRule n p d = accept (retrain p d n) := if_neg (by simpa using hst)

theorem restoreRule_accept {p : Part} {d : Dev} {n : Nat} (hst : (d.link n).st = .degraded) (hmode : d.linkMode n = 1) :
    restoreRule n p d = accept (if (d.link n).rxLanes = 15 then d else d.setLink n { d.link n with restoring := true }) :=
  if_pos (by simp [hst, hmode])

/-- A LINK_CTRL op on a link that is there, by what its rule accepts: `run` is the op's rule as a function of the link's number. -/
theorem exec_next_of_linkOp {c : Instr} {p : Part} {d d1 d2 : Dev} {q : List Instr} {rq : Rq} {n op ch : Nat}
    {run : Nat → Part → Dev → Dev × Nat} (hlink : p.hasLink n = true)
    (hc : exec c ⟨p, d, q⟩ = .next ⟨p, serveWrite d rq 0x2001 1 (linkCtrlBytes n op) (linkOp (n % 256) (run (n % 256)) p), q⟩)
    (htaken : writeTaken d rq (Call.write 0x2001 1 (linkCtrlBytes n op)) = some (ch, d1)) (hrun : run n p d1 = accept d2) :
    exec c ⟨p, d, q⟩ = .next ⟨p, written ch rq (Call.write 0x2001 1 (linkCtrlBytes n op)) d2 (Rsp.st stOK), q⟩ := by
  refine exec_next_of_accept hc htaken ?_
  rw [mod_256_of_hasLink hlink, linkOp_hasLink hlink, hrun]

/-- Settles O43: the states that an op asks for get past the refusal of its rule. -/
theorem linkControlCompletes : Obligations.LinkControlCompletes := by
  intro p d q rq n c d1 hlink k done l
  refine ⟨?enable, ?disable, ?retrain, ?restoreLane, ?erase⟩
  case enable =>
    exact fun htaken hst hmode => exec_next_of_linkOp (run := enableRule) hlink rfl htaken (enableRule_accept hst hmode)
  case disable => exact fun htaken => exec_next_of_linkOp (run := disableRule) hlink rfl htaken rfl
  case retrain => exact fun htaken hst => exec_next_of_linkOp (run := retrainRule) hlink rfl htaken (retrainRule_accept hst)
  case restoreLane =>
    exact fun htaken hst hmode => exec_next_of_linkOp (run := restoreRule) hlink rfl htaken (restoreRule_accept hst hmode)
  case erase =>
    exact fun htaken => exec_next_of_linkOp (run := fun n _ d => accept (eraseCoef d n)) hlink rfl htaken rfl

end Sys2Proof.Machine
end

section
/-! SUPPORT. Training, qualification and the handshake of a link (spec/10_ports_and_links.md R287-R289, R291, R292;
spec/12_routing_and_canopy.md R317; log entries 59 and 109). Each command is a guard over the next state of the link; what the last
item of the handshake comes to is said once for each way in which the two ends agree or differ. -/

namespace Sys2Proof.Machine

/-! ### Training and qualification -/

/-- A training in progress ends (R287, R288). -/
theorem exec_linkTrainingEnd {p : Part} {d : Dev} {q : List Instr} {n order polarity : Nat} {ok : Bool} (hlink : p.hasLink n = true)
    (hruns : portRuns d n = true) (htrains : (d.link n).st = .training) :
    exec (.linkTrainingEnd n ok order polarity) ⟨p, d, q⟩ = .next ⟨p,
      if !ok then trainingFailed p d n
      else
        let l := { d.link n with order := order % 256, polarity := polarity % 16 }
        if isEthernet d n then ethernetUp p d n l else moveLink d n { l with st := .qualifying }, q⟩ :=
  exec_next_of_liftAt rfl hlink (if_neg (by simp [hruns, htrains]))

theorem qualifies_iff (d : Dev) (bers : List Nat) (uncorr : Bool) :
    qualifies d bers uncorr = true ↔ uncorr = false ∧ ∀ b ∈ bers, b ≤ d.rd 0x2001 3 0 := by simp [qualifies]

/-- A link's qualification ends: on to the handshake, or back to training (R288, R289). -/
theorem exec_linkQualifyEnd {p : Part} {d : Dev} {q : List Instr} {n : Nat} {bers : List Nat} {uncorr : Bool} {coef : CoefEnd}
    (hlink : p.hasLink n = true) (hruns : portRuns d n = true) (hqualifying : (d.link n).st = .qualifying) :
    exec (.linkQualifyEnd n bers ⟨uncorr, coef⟩) ⟨p, d, q⟩ = .next ⟨p,
      if qualifies d bers uncorr then enterHandshake p (if (d.link n).full then writeCoef d n coef else d) n
      else
        let d1 := if (d.link n).full then d else staleCoef d n
        moveLink d1 n { d1.link n with st := .training, full := true }, q⟩ :=
  exec_next_of_liftAt rfl hlink ((if_neg (by simp [hruns])).trans ((if_neg (by simp [hqualifying])).trans
    (if_neg (by simp [hqualifying]))))

/-! ### The items of the handshake -/

/-- Sending changes nothing but what has been sent. -/
theorem sendItems_eq (d : Dev) (n k : Nat) (xs : List Nat) : sendItems d n k xs = { d with out := (sendItems d n k xs).out } := by
  unfold sendItems
  generalize xs.zipIdx = items
  induction items generalizing d with
  | nil => rfl
  | cons x items ih => exact ih _

@[simp] theorem link_sendItems (d : Dev) (n k : Nat) (xs : List Nat) (m : Nat) : (sendItems d n k xs).link m = d.link m := by
  rw [sendItems_eq]
  rfl

@[simp] theorem plane_sendItems (d : Dev) (n k : Nat) (xs : List Nat) : (sendItems d n k xs).plane = d.plane := by
  rw [sendItems_eq]
  rfl

@[simp] theorem linkMode_sendItems (d : Dev) (n k : Nat) (xs : List Nat) (m : Nat) : (sendItems d n k xs).linkMode m = d.linkMode m := by
  rw [sendItems_eq]
  rfl

/-- An item as received, 0 for one that has not come. -/
def hsItem (l : Link) (k : Nat) : Nat := (l.hs.get none k).getD 0

/-- The position, plane and link of the peer, by its items 0 and 1. -/
def hsPeer (l : Link) : Nat := hsItem l 0 % 2 ^ 24 + bits (hsItem l 1) 0 8 * 2 ^ 24

/-- The mode of the peer, by its item 2. -/
def hsMode (l : Link) : Nat := bits (hsItem l 2) 8 8

/-- A link that knows its peer by the items received. -/
def meetPeer (l : Link) : Link := { l with peer := hsPeer l, peerMode := hsMode l, known := true }

/-- The peer is of this plane and mode (R288). -/
def PeerAgrees (d : Dev) (n : Nat) (l : Link) : Prop := bits (hsPeer l) 16 8 = d.plane ∧ hsMode l = d.linkMode n

/-- The model's test of a peer that does not agree. -/
theorem peerDiffers_iff (d : Dev) (n : Nat) (l : Link) :
    (bits (hsPeer l) 16 8 != d.plane || hsMode l != d.linkMode n) = true ↔ ¬ PeerAgrees d n l := by
  simp [PeerAgrees, imp_iff_not_or]

section
variable {p : Part} {d : Dev} {n : Nat} {l : Link} (hl : d.link n = l)
include hl

/-- A peer that agrees, in a place that the link's role allows, brings the link up (R288). -/
theorem endHandshake_up (hagrees : PeerAgrees d n l) (hrole : roleClash (d.setLink n (meetPeer l)) n = false) :
    endHandshake p d n = comeUp p (d.setLink n (meetPeer l)) n l moveLink := by
  subst hl
  exact (if_neg (fun hdiffers => (peerDiffers_iff d n _).mp hdiffers hagrees)).trans (if_neg (ne_true_of_eq_false hrole))

/-- In one that it does not allow, the link comes up fenced (R317). -/
theorem endHandshake_fenced (hagrees : PeerAgrees d n l) (hrole : roleClash (d.setLink n (meetPeer l)) n = true) :
    endHandshake p d n =
      emit (comeUp p ((d.setLink n (meetPeer l)).setLink n { meetPeer l with roleFenced := true }) n l moveLinkQuiet)
        0x2003 stFenced 1 true 0x6001 0 (dataUN 1 n 0 0 (hsPeer l) 0 0) := by
  subst hl
  exact (if_neg (fun hdiffers => (peerDiffers_iff d n _).mp hdiffers hagrees)).trans (if_pos hrole)

/-- A peer of another plane or mode makes it FAILED (R288). -/
theorem endHandshake_failed (hdiffers : ¬ PeerAgrees d n l) :
    let e := dropKept (d.setLink n (meetPeer l)) n
    endHandshake p d n =
      settleWaiting p (linkFailed e n (if bits (hsPeer l) 16 8 ≠ d.plane then 2 else 3) ((e.link n).down .failed)) := by
  subst hl
  refine (if_pos ((peerDiffers_iff d n _).mpr hdiffers)).trans ?_
  simp only [bne_iff_ne]
  rfl

end

/-- A link that keeps an item received. -/
def keepItem (l : Link) (item v : Nat) : Link := { l with hs := l.hs.put item (some v) }

/-- The device that has taken an item: kept, and item 0 answered with the stream items (R288, log entry 59). -/
def takeItem (p : Part) (d : Dev) (n item v : Nat) : Dev :=
  let d0 := d.setLink n (keepItem (d.link n) item v)
  if item = 0 then sendItems d0 n 11 (hsSseq p d n (bits v 0 8) (bits v 8 8)) else d0

section
variable (p : Part) (d : Dev) (n item v : Nat)

@[simp] theorem link_takeItem : (takeItem p d n item v).link n = keepItem (d.link n) item v := by
  unfold takeItem
  split <;> simp

@[simp] theorem plane_takeItem : (takeItem p d n item v).plane = d.plane := by
  unfold takeItem
  split
  · exact plane_sendItems ..
  · rfl

@[simp] theorem linkMode_takeItem : (takeItem p d n item v).linkMode n = d.linkMode n := by
  unfold takeItem
  split
  · exact linkMode_sendItems ..
  · rfl

end

/-- The model's test that every item has come. -/
theorem allItems_iff (l : Link) :
    (List.range 19).all (fun k => (l.hs.get none k).isSome) = true ↔ ∀ k, k < 19 → l.hs.get none k ≠ none := by
  simp [Option.isSome_iff_ne_none]

section
variable {p : Part} {d : Dev} {q : List Instr} {n upper item v : Nat} (hlink : p.hasLink n = true) (hruns : portRuns d n = true)
  (hst : (d.link n).st = .handshake) (hitem : item < 19) (hv : v < 2 ^ 40)
include hlink hruns hst hitem hv

/-- A link in its handshake takes an item, and the last one missing ends it (R275, R288). -/
theorem exec_hs : exec (.hs n upper item v) ⟨p, d, q⟩ = .next ⟨p,
    if (List.range 19).all (fun k => ((keepItem (d.link n) item v).hs.get none k).isSome)
    then endHandshake p (takeItem p d n item v) n else takeItem p d n item v, q⟩ := by
  refine exec_next_of_liftAt rfl hlink ((if_neg (by simp [hruns, hst]; omega)).trans ?_)
  simp only [Nat.mod_eq_of_lt hv]
  rfl

/-- While an item is missing the handshake goes on. -/
theorem exec_hs_missing (hmissing : ∃ k, k < 19 ∧ (keepItem (d.link n) item v).hs.get none k = none) :
    exec (.hs n upper item v) ⟨p, d, q⟩ = .next ⟨p, takeItem p d n item v, q⟩ := by
  rw [exec_hs hlink hruns hst hitem hv, if_neg ((allItems_iff _).not.mpr (by simpa using hmissing))]

/-- The last item ends it. -/
theorem exec_hs_last {t : Dev} (hall : ∀ k, k < 19 → (keepItem (d.link n) item v).hs.get none k ≠ none)
    (hends : endHandshake p (takeItem p d n item v) n = t) : exec (.hs n upper item v) ⟨p, d, q⟩ = .next ⟨p, t, q⟩ := by
  rw [exec_hs hlink hruns hst hitem hv, if_pos ((allItems_iff _).mpr hall), hends]

end

/-- Settles O44: each command's conditions leave the branch with its effect, and the last item of a handshake is decided by what the
peer has said. -/
theorem linkBringUpCompletes : Obligations.LinkBringUpCompletes := by
  intro p d q n hlink hruns l
  refine ⟨?trained, ?untrained, ?qualified, ?laneTrained, ?handshake⟩
  case trained =>
    intro order polarity htrains horder hpolarity l'
    rw [exec_linkTrainingEnd hlink hruns htrains, Nat.mod_eq_of_lt horder, Nat.mod_eq_of_lt hpolarity]
    rfl
  case untrained => exact fun order polarity htrains => exec_linkTrainingEnd hlink hruns htrains
  case qualified =>
    intro bers uncorr coef hqualifying passed
    rw [exec_linkQualifyEnd hlink hruns hqualifying]
    refine ⟨fun hpassed => ?_, fun hfailed => ?_⟩
    · rw [if_pos ((qualifies_iff d bers uncorr).mpr hpassed)]
    · exact congrArg (fun e => (.next ⟨p, e, q⟩ : Res)) (if_neg ((qualifies_iff d bers uncorr).not.mpr hfailed))
  case laneTrained =>
    intro bers uncorr coef (hdegraded : (d.link n).st = .degraded) (hrestoring : (d.link n).restoring = true)
    exact exec_next_of_liftAt rfl hlink ((if_neg (by simp [hruns])).trans (if_pos (by simp [hdegraded, hrestoring])))
  case handshake =>
    intro item v upper hst hitem hv hs lh d0 d1 got peer mode l1 d2 agrees
    have htaken : takeItem p d n item v = d1 := rfl
    have hmeet : meetPeer lh = l1 := rfl
    have hpeer : hsPeer lh = peer := rfl
    have hkept : d1.link n = lh := link_takeItem ..
    have hplane : d1.plane = d.plane := plane_takeItem ..
    have hagree : PeerAgrees d1 n lh ↔ agrees := by
      have hmode : d1.linkMode n = d.linkMode n := linkMode_takeItem ..
      rw [PeerAgrees, hplane, hmode]
      rfl
    refine ⟨?missing, fun hall => ⟨?up, ?fenced, ?failed⟩⟩
    case missing => exact fun hmissing => exec_hs_missing hlink hruns hst hitem hv hmissing
    case up =>
      intro hagrees hrole
      refine exec_hs_last hlink hruns hst hitem hv hall ?_
      rw [htaken, endHandshake_up hkept (hagree.mpr hagrees) hrole, hmeet]
    case fenced =>
      intro hagrees hrole
      refine exec_hs_last hlink hruns hst hitem hv hall ?_
      rw [htaken, endHandshake_fenced hkept (hagree.mpr hagrees) hrole, hmeet, hpeer]
    case failed =>
      intro hdiffers
      refine exec_hs_last hlink hruns hst hitem hv hall ?_
      rw [htaken, endHandshake_failed hkept (hagree.not.mpr hdiffers), hmeet, hpeer, hplane]

end Sys2Proof.Machine
end

section
/-! SUPPORT. A copy that starts (spec/10_ports_and_links.md R277, R280, R298; spec/09_buffers_and_slots.md R241; log entry 96). Up to
the sending, its link changes only in its counters. -/

namespace Sys2Proof.Machine

/-! ### Reading the cells of a copy -/

/-- The copy read: marked when it was, or when a cell of it has failed (R241, R280). -/
theorem readCells_copy (d : Dev) (x : Copy) : (readCells d x).1 = { x with poison := x.poison || x.cells.any (cellBad d) } := by
  unfold readCells
  generalize x.cells.any (cellBad d) = failed
  obtain ⟨f, eth, cells, charge, headroom, t, fromLink, poison, owed⟩ := x
  cases poison <;> cases failed <;> rfl

theorem readCells_eth (d : Dev) (x : Copy) : (readCells d x).1.eth = x.eth := by rw [readCells_copy]

theorem readCells_payload (d : Dev) (x : Copy) : (readCells d x).1.f.payload = x.f.payload := by rw [readCells_copy]

/-! ### What a frame that leaves depends on -/

/-- `t` has sent what `d` has, at the same time, and its links are those of `d` but for their counters. -/
structure OnlyCounts (d t : Dev) : Prop where
  out : t.out = d.out
  tick : t.tick = d.tick
  link : ∀ n, t.link n = { d.link n with ctr := (t.link n).ctr }

theorem OnlyCounts.refl (d : Dev) : OnlyCounts d d := ⟨rfl, rfl, fun _ => rfl⟩

theorem OnlyCounts.trans {d t u : Dev} (h : OnlyCounts d t) (k : OnlyCounts t u) : OnlyCounts d u :=
  ⟨k.out.trans h.out, k.tick.trans h.tick, fun n => (k.link n).trans (by rw [h.link n])⟩

theorem onlyCounts_linkCtr (d : Dev) (n k by_ : Nat) : OnlyCounts d (linkCtr d n k by_) := by
  refine ⟨rfl, rfl, fun m => ?_⟩
  unfold linkCtr
  by_cases h : m = n
  · subst h
    rw [Dev.link_setLink]
  · rw [Dev.link_setLink_other _ _ _ _ h]

theorem onlyCounts_setEq (d : Dev) (n q : Nat) (e : EQueue) : OnlyCounts d (d.setEq n q e) := ⟨rfl, rfl, fun _ => rfl⟩

theorem onlyCounts_numberCopy (d : Dev) (n : Nat) (x : Copy) : OnlyCounts d (numberCopy d n x).2 := ⟨rfl, rfl, fun _ => rfl⟩

/-- A copy read counts at most a failed frame of its arrival link. -/
theorem onlyCounts_readCells (d : Dev) (x : Copy) : OnlyCounts d (readCells d x).2 := by
  unfold readCells
  split
  · exact OnlyCounts.refl d
  · dsimp only
    split
    · exact onlyCounts_linkCtr ..
    · exact OnlyCounts.refl d

section
variable {d t : Dev} (h : OnlyCounts d t) (n : Nat)
include h

theorem OnlyCounts.lseqTx : (t.link n).lseqTx = (d.link n).lseqTx := by rw [h.link n]

theorem OnlyCounts.replay : (t.link n).replay = (d.link n).replay := by rw [h.link n]

theorem OnlyCounts.flight : (t.link n).flight = (d.link n).flight := by rw [h.link n]

/-- A frame leaves the same from both. -/
theorem OnlyCounts.leavingFrame (x : Copy) : leavingFrame t n x = leavingFrame d n x := by
  simp only [Machine.leavingFrame, leavingSpec, h.tick, h.flight n]

end

/-! ### A copy that starts -/

/-- The device as a copy read starts: its queue's statistics, and POISONED_TX for a copy that is marked (R298, R308, R311). -/
def countStart (d : Dev) (n q : Nat) (x : Copy) (rest : List Copy) : Dev :=
  let e := d.eq n q
  let d1 := d.setEq n q { e with fifo := rest, ageMark := max e.ageMark (headAge d e), frames := (e.frames + 1) % 2 ^ 64,
                                 bytes := (e.bytes + effLen d n x) % 2 ^ 64 }
  if x.poison then linkCtr d1 n 11 else d1

/-- An Ethernet copy is sent and released; an LFP copy is numbered, sent and kept (R277, R280, R283). -/
theorem startFrame_eq (d : Dev) (n q : Nat) (x : Copy) (rest : List Copy) :
    let y := (readCells d x).1
    let d1 := countStart (readCells d x).2 n q y rest
    startFrame d n q x rest =
      if y.eth then releaseCopy (linkCtr (linkCtr (d1.send (.ethFrame n (ethBytes y))) n 0) n 2 (copyBytes y)) n q y
      else sendCopy (numberCopy d1 n y).2 n q (numberCopy d1 n y).1 := rfl

theorem onlyCounts_countStart (d : Dev) (n q : Nat) (x : Copy) (rest : List Copy) : OnlyCounts d (countStart d n q x rest) := by
  unfold countStart
  dsimp only
  split
  · exact (onlyCounts_setEq ..).trans (onlyCounts_linkCtr ..)
  · exact onlyCounts_setEq ..

/-- A marked copy counts once in POISONED_TX (R298). -/
theorem countStart_poisonedTx {d : Dev} {n q : Nat} {x : Copy} {rest : List Copy} (hpoison : x.poison = true) :
    ((countStart d n q x rest).link n).ctr.get 0 11 = ((d.link n).ctr.get 0 11 + 1) % 2 ^ 64 := by
  simp only [countStart, hpoison, if_true, linkCtr, Dev.link_setLink, Tbl.get_set_same]
  rfl

section
variable {d : Dev} {n q : Nat} {x : Copy} {rest : List Copy}

/-- Reading the copy counts a failed frame, and no poisoned one. -/
theorem countStart_readCells_poisonedTx (hpoison : (readCells d x).1.poison = true) :
    ((countStart (readCells d x).2 n q (readCells d x).1 rest).link n).ctr.get 0 11 = ((d.link n).ctr.get 0 11 + 1) % 2 ^ 64 := by
  rw [countStart_poisonedTx hpoison, (adds_readCells d x).2 n]

/-- An LFP copy is sent with its mark, and kept with it (R241, R277, R280). -/
theorem startFrame_lfp (heth : x.eth = false) :
    let y := (readCells d x).1
    let t := startFrame d n q x rest
    ∃ c, t.out = .frame n (leavingFrame d n c) (d.link n).lseqTx y.poison :: d.out
      ∧ (t.link n).replay = (d.link n).replay ++ [⟨(d.link n).lseqTx, q, c⟩] ∧ c.poison = y.poison ∧ c.f.payload = x.f.payload
      ∧ (y.poison = true → (t.link n).ctr.get 0 11 = ((d.link n).ctr.get 0 11 + 1) % 2 ^ 64) := by
  intro y t
  let d1 := countStart (readCells d x).2 n q y rest
  let z := (numberCopy d1 n y).1
  let d2 := (numberCopy d1 n y).2
  have ht : t = sendCopy d2 n q z := (startFrame_eq ..).trans (if_neg (by simp [readCells_eth, heth]))
  have hcounts : OnlyCounts d d2 := (onlyCounts_readCells d x).trans ((onlyCounts_countStart ..).trans (onlyCounts_numberCopy ..))
  obtain ⟨hout, hreplay, hctr⟩ := sendCopy_sends d2 n q z
  rw [hcounts.leavingFrame, hcounts.out, hcounts.lseqTx] at hout
  rw [hcounts.replay, hcounts.lseqTx] at hreplay
  refine ⟨{ z with f := { z.f with stamp := stampNow d2 } }, ht ▸ hout, ht ▸ hreplay, rfl, readCells_payload d x, fun hpoison => ?_⟩
  rw [ht, hctr]
  exact countStart_readCells_poisonedTx hpoison

/-- An Ethernet copy is sent, then released (R280). -/
theorem startFrame_eth (heth : x.eth = true) :
    let y := (readCells d x).1
    let t := startFrame d n q x rest
    (∃ more, t.out = more ++ .ethFrame n (ethBytes y) :: d.out)
      ∧ (y.poison = true → (t.link n).ctr.get 0 11 = ((d.link n).ctr.get 0 11 + 1) % 2 ^ 64) := by
  intro y t
  let d1 := countStart (readCells d x).2 n q y rest
  let sent := d1.send (.ethFrame n (ethBytes y))
  have ht : t = releaseCopy (linkCtr (linkCtr sent n 0) n 2 (copyBytes y)) n q y :=
    (startFrame_eq ..).trans (if_pos (by simp [readCells_eth, heth]))
  have hadds : Adds sent t := ht ▸
    ((adds_linkCtr sent n 0 1 (by decide)).trans (adds_linkCtr _ n 2 _ (by decide))).trans (adds_releaseCopy ..)
  obtain ⟨⟨more, hmore⟩, hctr⟩ := hadds
  have hsent : sent.out = .ethFrame n (ethBytes y) :: d.out :=
    congrArg (_ :: ·) ((onlyCounts_readCells d x).trans (onlyCounts_countStart ..)).out
  exact ⟨⟨more, hsent ▸ hmore⟩, fun hpoison => (hctr n).trans (countStart_readCells_poisonedTx hpoison)⟩

end

/-- A marked Ethernet copy leaves with its last four bytes, the FCS, complemented (R280). -/
theorem ethBytes_marked {x : Copy} {body fcs : List Byte} (hpoison : x.poison = true) (hbytes : x.f.payload = body ++ fcs)
    (hfcs : fcs.length = 4) : ethBytes x = body ++ fcs.map (fun b => ~~~b) := by
  have hbody : x.f.payload.length - 4 = body.length := by simp [hbytes, hfcs]
  simp only [ethBytes, hpoison, if_true, hbody]
  rw [hbytes, List.take_left, List.drop_left]

/-- Any other leaves as it is. -/
theorem ethBytes_unmarked {x : Copy} (hpoison : x.poison = false) : ethBytes x = x.f.payload := if_neg (by simp [hpoison])

/-- Settles O47: a copy is marked as its cells are read, and what starts it sends, keeps and counts that mark. -/
theorem poisonedCopiesLeaveMarked : Obligations.PoisonedCopiesLeaveMarked := by
  intro d n q x rest y
  refine ⟨?marked, ?lfp, ?ethernet, ?complemented, ?plain⟩
  case marked => exact congrArg Copy.poison (readCells_copy d x)
  case lfp => exact fun heth => startFrame_lfp heth
  case ethernet => exact fun heth => startFrame_eth heth
  case complemented => exact fun hpoison body fcs hbytes hfcs => ethBytes_marked hpoison hbytes hfcs
  case plain => exact fun hpoison => ethBytes_unmarked hpoison

end Sys2Proof.Machine
end


section
/-! SUPPORT. What the front of the queue comes to, and how a request's answer follows from its rule. -/

namespace Sys2Proof.Machine

/-- Settles O1: the queue's shape picks the branch of `step`. -/
theorem stepTakesTheFrontCommand : Obligations.StepTakesTheFrontCommand := by
  intro s c rest h
  rw [step, h]

/-- A write, by what its act answers on the device that has taken it. -/
theorem next_of_act {x : Res} {s : State} {rq : Rq} {k : Call} {act : Act} {ch : Nat} {d1 d2 : Dev} {r : Rsp}
    (hc : x = .next { s with dev := serve s.dev rq k act }) (htaken : writeTaken s.dev rq k = some (ch, d1))
    (hact : act ch d1 = (d2, some r)) : x = .next { s with dev := written ch rq k d2 r } := by
  rw [hc, serve_of_writeTaken act htaken hact]

/-- A write whose bytes the command spells in another way, with a field taken modulo its width. -/
theorem exec_next_of_accept_bytes {c : Instr} {s : State} {rq : Rq} {idx sub ch : Nat} {bs bs' : List Byte} {rule : Dev → Dev × Nat}
    {d1 d2 : Dev} (hc : exec c s = .next { s with dev := serveWrite s.dev rq idx sub bs' rule }) (hbs : bs' = bs)
    (htaken : writeTaken s.dev rq (Call.write idx sub bs) = some (ch, d1)) (hrule : rule d1 = accept d2) :
    exec c s = .next { s with dev := written ch rq (Call.write idx sub bs) d2 (Rsp.st stOK) } :=
  exec_next_of_accept (hbs ▸ hc) htaken hrule

end Sys2Proof.Machine
end

section
/-! SUPPORT. Congestion samples, epochs, jobs and grants (spec/12_routing_and_canopy.md R318, R319, R327, R330, R332, R336). -/

namespace Sys2Proof.Machine

/-- A swap takes the lowest free entry when nothing refuses it (R330). -/
theorem exec_epochSwap_accept {p : Part} {d d1 : Dev} {q : List Instr} {rq : Rq} {target crc pace i ch : Nat} (htarget : target < 256)
    (hcrc : crc < 2 ^ 32) (hpace : pace < 2 ^ 64)
    (htaken : writeTaken d rq (Call.write 0x6011 1 (toBytes 4 target ++ toBytes 4 crc ++ toBytes 8 pace)) = some (ch, d1))
    (hst : swapStatus d1 target = stOK) (hfree : schedFree d1 = some i) :
    exec (.epochSwap rq target crc pace) ⟨p, d, q⟩ = .next ⟨p,
      written ch rq (Call.write 0x6011 1 (toBytes 4 target ++ toBytes 4 crc ++ toBytes 8 pace)) (armSwap d1 i target crc pace)
        (Rsp.st stOK), q⟩ := by
  have hmod : target % 256 = target := Nat.mod_eq_of_lt htarget
  refine exec_next_of_accept_bytes rfl (by rw [hmod]) htaken ?_
  simp only [hmod, Nat.mod_eq_of_lt hcrc, Nat.mod_eq_of_lt hpace, hfree, hst, if_true]

/-- A valid record that passes its checks is stored; a new job has named no scaling context (R230, R318). -/
theorem jobRule_accept {p : Part} {d : Dev} {idx v : Nat} (hidx : idx < 4096) (hvalid : jobValid v = true)
    (hst : jobStatus p d idx v = stOK) :
    jobRule p idx v d = accept (Dev.wr (if jobValid (d.rd 0x6002 0 idx) then d
      else { d with modes := { d.modes with named := d.modes.named.filter (fun y => y.1 != jobOf v) } }) 0x6002 0 idx v) := by
  rw [jobRule]
  simp only [Nat.not_le.mpr hidx, hvalid, hst]
  cases jobValid (d.rd 0x6002 0 idx) <;> rfl

/-- A record whose job nothing holds is cleared (R319). -/
theorem jobRule_clear {p : Part} {d : Dev} {idx v : Nat} (hidx : idx < 4096) (hvalid : jobValid v = false)
    (hheld : jobValid (d.rd 0x6002 0 idx) = true → jobHeld p d (jobOf (d.rd 0x6002 0 idx)) = false) :
    jobRule p idx v d = accept (d.wr 0x6002 0 idx (pack [(0, 42, bits v 0 42), (64, 64, bits v 64 64)])) := by
  have hfree : ¬ (jobValid (d.rd 0x6002 0 idx) && jobHeld p d (jobOf (d.rd 0x6002 0 idx))) = true := by
    simpa using hheld
  simp only [jobRule, Nat.not_le.mpr hidx, hvalid, hfree, Bool.false_eq_true, if_false]

/-- VALID as the record's image holds it. -/
theorem jobValid_jobImage (r : JobRec) : jobValid (jobImage r) = r.valid := by
  have hbit : b2n r.valid = 1 ↔ r.valid = true := by cases r.valid <;> decide
  have hle : b2n r.valid ≤ 1 := by cases r.valid <;> decide
  rw [Bool.eq_iff_iff, ← hbit, jobValid, Nat.testBit_eq_decide_div_mod_eq, decide_eq_true_iff]
  simp only [jobImage, pack]
  omega

/-- A write of a job record that its rule accepts. -/
theorem jobWrite_accept {p : Part} {d d1 d2 : Dev} {q : List Instr} {rq : Rq} {r : JobRec} {ch : Nat}
    (htaken : writeTaken d rq ⟨2, 0x6002, 0, 32 * r.idx, true, 32, 0, toBytes 32 (jobImage r)⟩ = some (ch, d1))
    (hrule : jobRule p r.idx (jobImage r) d1 = accept d2) :
    jobWrite rq r ⟨p, d, q⟩ = .next ⟨p,
      written ch rq ⟨2, 0x6002, 0, 32 * r.idx, true, 32, 0, toBytes 32 (jobImage r)⟩ d2 (Rsp.st stOK), q⟩ := by
  refine next_of_act rfl htaken ?_
  simp only [hrule, accept, if_true]

/-- Grant records that pass their checks are stored (R336). -/
theorem exec_grantWrite_accept {p : Part} {d d1 d2 : Dev} {q : List Instr} {rq : Rq} {first ch : Nat} {recs : List Nat}
    (hfit : first + recs.length ≤ 1024) (hrecs : ∀ v ∈ recs, v < 2 ^ 256)
    (htaken : writeTaken d rq ⟨2, 0x6020, 0, 32 * first, true, (recs.flatMap (fun v => toBytes 32 v)).length, 0,
      recs.flatMap (fun v => toBytes 32 v)⟩ = some (ch, d1))
    (hput : putGrants p d1 first recs = .ok d2) :
    exec (.grantWrite rq first recs) ⟨p, d, q⟩ = .next ⟨p,
      written ch rq ⟨2, 0x6020, 0, 32 * first, true, (recs.flatMap (fun v => toBytes 32 v)).length, 0,
        recs.flatMap (fun v => toBytes 32 v)⟩ d2 (Rsp.st stOK), q⟩ := by
  have hmod : recs.map (· % 2 ^ 256) = recs := by
    conv_rhs => rw [← List.map_id recs]
    exact List.map_congr_left fun v hv => Nat.mod_eq_of_lt (hrecs v hv)
  refine next_of_act rfl htaken ?_
  simp only [hmod, grantRule, Nat.not_lt.mpr hfit, hput, if_false]

/-- Settles O50: each condition gets past a refusal of its rule. -/
theorem routingAndJobsComplete : Obligations.RoutingAndJobsComplete := by
  intro p d q rq c d1
  refine ⟨?sample, ?swap, ?drained, ?store, ?clear, ?grants⟩
  case sample => exact fun hruns => exec_next_of_effect rfl (if_neg (by simp [hruns]))
  case swap =>
    intro target crc pace i htarget hcrc hpace k htaken hst hfree
    exact exec_epochSwap_accept htarget hcrc hpace htaken hst hfree
  case drained =>
    intro e he hruns hstate hheld
    exact exec_next_of_liftAt rfl (decide_eq_true he) (if_neg (by simp [hruns, hstate, hheld]))
  case store =>
    intro x hx r hidx hvalid v k d2 htaken hst
    have hr : { r with valid := true } = r := by rw [← hvalid]
    have hwrite : exec (x r) ⟨p, d, q⟩ = jobWrite rq r ⟨p, d, q⟩ := by
      simp only [List.mem_cons, List.not_mem_nil, or_false] at hx
      obtain rfl | rfl := hx <;> exact congrArg (fun r => jobWrite rq r ⟨p, d, q⟩) hr
    rw [hwrite]
    exact jobWrite_accept htaken (jobRule_accept hidx ((jobValid_jobImage r).trans hvalid) hst)
  case clear =>
    intro r hidx hvalid v k old htaken hheld
    have hr : { r with valid := false } = r := by rw [← hvalid]
    have hwrite : exec (.jobDelete rq r) ⟨p, d, q⟩ = jobWrite rq r ⟨p, d, q⟩ := congrArg (fun r => jobWrite rq r ⟨p, d, q⟩) hr
    rw [hwrite]
    exact jobWrite_accept htaken (jobRule_clear hidx ((jobValid_jobImage r).trans hvalid) hheld)
  case grants =>
    intro first recs d2 hfit hrecs bs k htaken hput
    exact exec_grantWrite_accept hfit hrecs htaken hput

end Sys2Proof.Machine
end

section
/-! SUPPORT. Fences (spec/12_routing_and_canopy.md R347-R349). FENCE and UNFENCE are the one write to FENCE_CTRL, told apart by OP. -/

namespace Sys2Proof.Machine

/-- A new command that passes its checks is applied, and sent on when it says so. -/
theorem fenceRule_accept {p : Part} {d : Dev} {f : FenceCmd} (hgood : fenceBad p d f = false) (hnew : fenceSeen d f = false) :
    fenceRule p f d = accept (if f.propagate = 1 then broadcast p (applyFence p d f) 0x40 0 0 0 (toBytes 24 (fenceRec f))
      else applyFence p d f) := by
  simp only [fenceRule, hgood, hnew, Bool.false_eq_true, if_false]

/-- The write that both commands make. -/
theorem fenceWrite_accept {p : Part} {d d1 d2 : Dev} {q : List Instr} {rq : Rq} {f : FenceCmd} {ch : Nat}
    (htaken : writeTaken d rq (Call.write 0x6030 0 (toBytes 24 (fenceRec f))) = some (ch, d1))
    (hrule : fenceRule p (fenceOf (fenceRec f)) d1 = accept d2) :
    fenceWrite rq f ⟨p, d, q⟩ =
      .next ⟨p, written ch rq (Call.write 0x6030 0 (toBytes 24 (fenceRec f))) d2 (Rsp.st stOK), q⟩ := by
  refine next_of_act rfl htaken ?_
  rw [ruleAct, hrule]
  rfl

theorem exec_fence_op_one {rq : Rq} {f : FenceCmd} {s : State} (hop : f.op = 1) : exec (.fence rq f) s = fenceWrite rq f s :=
  if_neg (by rw [hop]; decide)

theorem exec_unfence_op_two {rq : Rq} {f : FenceCmd} {s : State} (hop : f.op = 2) : exec (.unfence rq f) s = fenceWrite rq f s := by
  have hf : { f with op := 2 } = f := by rw [← hop]
  exact congrArg (fun f => fenceWrite rq f s) hf

/-- Settles O51: the checks that a command passes rule out its refusals. -/
theorem fencesComplete : Obligations.FencesComplete := by
  intro p d q rq c d1 f
  refine ⟨?written, ?propagated⟩
  case written =>
    intro k x d2 htaken hgood hnew
    have hrule := fenceRule_accept hgood hnew
    exact ⟨fun hop => (exec_fence_op_one hop).trans (fenceWrite_accept htaken hrule),
      fun hop => (exec_unfence_op_two hop).trans (fenceWrite_accept htaken hrule)⟩
  case propagated =>
    intro n srow hlink hruns hworks hgood hnew
    exact exec_next_of_liftAt rfl hlink (if_neg (by simp [hruns, hworks, hgood, hnew]))

end Sys2Proof.Machine
end

section
/-! SUPPORT. The ends of Canopy requests (spec/12_routing_and_canopy.md R331, R339, R345, R347): a response at its entry device goes to
the requester that its unit names, and a request that gets none ends at the unit that made it. -/

namespace Sys2Proof.Machine

/-! ### Responses -/

/-- The units that a response can name are there, as the model asks. -/
theorem rspUnit_exists {p : Part} {r : CanRsp} (hlink : r.sunit < 128 → r.sunit < p.links)
    (hgrove : 128 ≤ r.sunit → r.sunit < 160 → r.sunit - 128 < p.groves) :
    (decide (r.sunit < 128 → r.sunit < p.links) && decide (128 ≤ r.sunit ∧ r.sunit < 160 → r.sunit - 128 < p.groves)) = true := by
  simp only [Bool.and_eq_true, decide_eq_true_eq]
  exact ⟨hlink, fun h => hgrove h.1 h.2⟩

/-- A response of a device that is not fenced goes on to its entry device, or is delivered there (R339). -/
theorem exec_canopyRsp {p : Part} {d t : Dev} {q : List Instr} {r : CanRsp} (hruns : d.runs domXbar = true) (hworks : d.works 6 = true)
    (hfree : d.isFenced r.srow r.scol = false) (hlink : r.sunit < 128 → r.sunit < p.links)
    (hgrove : 128 ≤ r.sunit → r.sunit < 160 → r.sunit - 128 < p.groves)
    (ht : (if r.drow = d.row && r.dcol = d.col then canDeliver p d r else canSend p d r) = t) :
    exec (.canopyRsp r) ⟨p, d, q⟩ = .next ⟨p, t, q⟩ :=
  exec_next_of_liftAt rfl (rspUnit_exists hlink hgrove)
    ((if_neg (by simp [hruns, hworks])).trans ((if_neg (by simp [hfree])).trans ht))

/-- A link's response goes out by it. -/
theorem canDeliver_link {p : Part} {d : Dev} {r : CanRsp} (hunit : r.sunit < 128) :
    canDeliver p d r = canSend p (vc1Done p d r.sunit r.rtag) r := if_pos hunit

/-- A grove's response ends the request that waits for it. -/
theorem canDeliver_grove {p : Part} {d : Dev} {r : CanRsp} {i : Nat} {x : GroveReq} (hlow : 128 ≤ r.sunit) (hhigh : r.sunit < 160)
    (hfind : findReq (d.grove (r.sunit - 128)) r.rtag = some i) (hx : (d.grove (r.sunit - 128)).reqs[i]? = some x) :
    canDeliver p d r =
      vc1Done p (groveRsp p (dropReq d (r.sunit - 128) i) (r.sunit - 128) x r) r.sunit r.rtag := by
  rw [canDeliver, if_neg (Nat.not_lt.mpr hlow), if_pos hhigh]
  simp only [hfind, hx]

/-! ### Requests without a response -/

/-- What becomes of the command of a grove whose request has ended without a response (R345): a collective's line is lost, a step in
progress faults if its grove can still fault, and one that has ended halts the grove unless it reads. -/
def endUnanswered (p : Part) (d d1 : Dev) (g : Nat) (x : GroveReq) : Dev :=
  if x.e = 16 then collLine p d1 x stFenced []
  else if !x.live then if x.req.op = 1 then d1 else haltGrove p d1 g ⟨0x0B, stFenced, x.eaddr, x.tag, x.c, x.e, 0, 0⟩
  else if (d.grove g).phase == .running || (d.grove g).phase == .halted then ctxFault p d1 g x.e x.c 0x0B stFenced x.eaddr else d1

/-- A grove's request that waits when its time has passed. -/
theorem exec_canopyTimeout_grove {p : Part} {d : Dev} {q : List Instr} {g rtag i : Nat} {x : GroveReq} (hg : g < p.groves) (hfew : g < 32)
    (hfind : findReq (d.grove g) rtag = some i) (hx : (d.grove g).reqs[i]? = some x) :
    let w := Config.firmwareSlot g (x.c % 65536)
    let d1 := timeoutEvent (dropReq d g i) 2 g (if x.e = 16 then w % 16 * 4096 + w / 16 % 4096 else x.e * 4096 + x.c) x.req
    exec (.canopyTimeout (128 + g) rtag) ⟨p, d, q⟩ = .next ⟨p, vc1Done p (endUnanswered p d d1 g x) (128 + g) rtag, q⟩ := by
  intro w d1
  have hsub : 128 + g - 128 = g := Nat.add_sub_cancel_left ..
  refine exec_next_of_liftAt rfl (decide_eq_true fun _ => hsub.symm ▸ hg)
    ((if_neg (by omega)).trans ((if_pos (by omega)).trans ?_))
  simp only [hsub, hfind, hx]
  rfl

/-- Settles O53: the requester's unit picks the end of a response, and the state of the step that asked that of a timeout. -/
theorem canopyEndsComplete : Obligations.CanopyEndsComplete := by
  intro p d q
  refine ⟨?response, ?fenced, ?grove, ?management⟩
  case response =>
    intro r hruns hworks hfree hlink hgrove
    refine ⟨fun haway => exec_canopyRsp hruns hworks hfree hlink hgrove (if_neg (by simpa [imp_iff_not_or] using haway)), ?_, ?_⟩
    · intro hrow hcol hunit
      exact exec_canopyRsp hruns hworks hfree hlink hgrove ((if_pos (by simp [hrow, hcol])).trans (canDeliver_link hunit))
    · intro i x hrow hcol hlow hhigh hfind hx
      exact exec_canopyRsp hruns hworks hfree hlink hgrove
        ((if_pos (by simp [hrow, hcol])).trans (canDeliver_grove hlow hhigh hfind hx))
  case fenced =>
    intro r hruns hworks hfenced hunit
    have hlinks : p.links ≤ 128 := by unfold Part.links; split <;> decide
    exact exec_next_of_liftAt rfl (rspUnit_exists (fun _ => hunit) (fun hlow => by omega))
      ((if_neg (by simp [hruns, hworks])).trans (if_pos hfenced))
  case grove =>
    intro g rtag i x hg hfew hfind hx w d1 done
    have hends : ∀ t, endUnanswered p d d1 g x = t → exec (.canopyTimeout (128 + g) rtag) ⟨p, d, q⟩ = done t :=
      fun t ht => ht ▸ exec_canopyTimeout_grove hg hfew hfind hx
    refine ⟨?line, ?fault, ?lost, ?reads, ?halts⟩
    case line => exact fun he => hends _ (if_pos he)
    case fault =>
      intro he hlive hphase
      exact hends _ ((if_neg he).trans ((if_neg (by simp [hlive])).trans (if_pos (by simpa using hphase))))
    case lost =>
      intro he hlive hrun hhalt
      exact hends _ ((if_neg he).trans ((if_neg (by simp [hlive])).trans (if_neg (by simp [hrun, hhalt]))))
    case reads => exact fun he hlive hop => hends _ ((if_neg he).trans ((if_pos (by simp [hlive])).trans (if_pos hop)))
    case halts => exact fun he hlive hop => hends _ ((if_neg he).trans ((if_pos (by simp [hlive])).trans (if_neg hop)))
  case management =>
    intro sunit rtag x hunit hfind
    refine exec_next_of_liftAt rfl (decide_eq_true fun h => absurd h.2 (Nat.not_lt.mpr hunit))
      ((if_neg (by omega)).trans ((if_neg (by omega)).trans ?_))
    simp only [hfind]

end Sys2Proof.Machine
end

section
/-! SUPPORT. Start-up (spec/17_startup_and_security.md R430-R434, R445, R482; spec/15_dictionary_protocol.md R403;
spec/01_device_overview.md R19). Each event is a guard over its part of the sequence. -/

namespace Sys2Proof.Machine

/-- A stack in training whose training ends well is READY (R358). -/
theorem exec_memoryTrained_ok {p : Part} {d : Dev} {q : List Instr} {k : Nat} (hk : k < p.stacks) (hruns : d.runs (domMem k) = true)
    (htraining : d.mem.st.get 0 k = 1) :
    exec (.memoryTrained k true) ⟨p, d, q⟩ = .next ⟨p, settleMemory p (setStack (setStack d k 2) k 3), q⟩ :=
  exec_next_of_liftAt rfl (decide_eq_true hk) ((if_neg (by simp [hruns, htraining])).trans (if_pos rfl))

/-- One whose training fails tries again, until the third failure (R358). -/
theorem exec_memoryTrained_failed {p : Part} {d : Dev} {q : List Instr} {k : Nat} (hk : k < p.stacks) (hruns : d.runs (domMem k) = true)
    (htraining : d.mem.st.get 0 k = 1) :
    let d1 := { d with mem := { d.mem with tries := d.mem.tries.set 0 k (d.mem.tries.get 0 k + 1) } }
    exec (.memoryTrained k false) ⟨p, d, q⟩ =
      .next ⟨p, if d.mem.tries.get 0 k + 1 < 3 then d1 else settleMemory p (trainFailed p d1 k), q⟩ :=
  exec_next_of_liftAt rfl (decide_eq_true hk) ((if_neg (by simp [hruns, htraining])).trans (if_neg Bool.false_ne_true))

/-- Settles O7: the conditions of each event rule out that its meaning does nothing. -/
theorem startUpCompletes : Obligations.StartUpCompletes := by
  unfold Obligations.StartUpCompletes
  refine ⟨?powerUp, ?refclk, ?selftest, ?trained, ?pcie, ?plca, ?watchdog, ?resetLow, ?resetHigh⟩
  case powerUp =>
    intro p d q hrails htripped
    exact exec_next_of_effect rfl (if_neg (by simp [hrails, htripped]))
  case refclk =>
    intro p d q hrails hstep
    exact exec_next_of_effect rfl (if_pos (by simp [hrails, hstep]))
  case selftest =>
    intro p d q gs pgs cells broke hstep
    refine exec_next_of_effect rfl ?_
    cases hlost : clockLost d with
    | true => exact if_neg (by simp [hlost])
    | false => exact if_pos (by simp [hstep, hlost])
  case trained =>
    intro p d q k hk hruns htraining
    exact ⟨exec_memoryTrained_ok hk hruns htraining, exec_memoryTrained_failed hk hruns htraining⟩
  case pcie =>
    intro p d q hruns hperst hstep
    exact exec_next_of_effect rfl ((if_pos (by simp [hruns, hperst])).trans (if_pos hstep))
  case plca =>
    intro p d q hruns hstep
    exact exec_next_of_effect rfl (if_pos (by simp [hruns, hstep]))
  case watchdog =>
    intro p d q hstep hrecovery hok hpcie hfnet
    exact exec_next_of_effect rfl (if_pos (by simp [hstep, hrecovery, hok, hpcie, hfnet]))
  case resetLow =>
    intro p d q hrails hhigh
    exact exec_next_of_effect rfl ((if_neg (by simp [hhigh])).trans (if_pos hrails))
  case resetHigh =>
    intro p d q hrails hlow
    exact exec_next_of_effect rfl ((if_neg (by simp [hlow])).trans (if_pos hrails))

end Sys2Proof.Machine
end

section
/-! SUPPORT. Flash and boot control (spec/17_startup_and_security.md R431, R432, R436, R438, R446, R452; log entries 55 and 57). -/

namespace Sys2Proof.Machine

/-- A rule that is told its channel, as an act. -/
def chanAct (rule : Nat → Dev → Dev × Nat) : Act := fun c d => ((rule c d).1, some (Rsp.st (rule c d).2))

theorem chanAct_accept {rule : Nat → Dev → Dev × Nat} {c : Nat} {d d2 : Dev} (h : rule c d = accept d2) :
    chanAct rule c d = (d2, some (Rsp.st stOK)) := by
  rw [chanAct, h]
  rfl

/-- FLASH_WRITE is served by its rule. -/
theorem exec_flashWrite {s : State} {rq : Rq} {off : Nat} {data : List Byte} (hoff : off < 2 ^ 32) :
    exec (.flashWrite rq off data) s = .next
      { s with dev := serve s.dev rq (Call.write 0xA001 0 (toBytes 8 off ++ data)) (chanAct (flashWriteRule off data)) } := by
  have hexec : exec (.flashWrite rq off data) s = .next
      { s with dev := serve s.dev rq (Call.write 0xA001 0 (toBytes 8 (off % 2 ^ 32) ++ data))
                     (chanAct (flashWriteRule (off % 2 ^ 32) data)) } := rfl
  rw [hexec, Nat.mod_eq_of_lt hoff]

/-- FLASH_ERASE is served by its rule. -/
theorem exec_flashErase {s : State} {rq : Rq} {off len : Nat} (hoff : off < 2 ^ 32) (hlen : len < 2 ^ 32) :
    exec (.flashErase rq off len) s = .next
      { s with dev := serve s.dev rq (Call.write 0xA001 1 (toBytes 4 off ++ toBytes 4 len)) (chanAct (flashEraseRule off len)) } := by
  have hexec : exec (.flashErase rq off len) s = .next
      { s with dev := serve s.dev rq (Call.write 0xA001 1 (toBytes 4 off ++ toBytes 4 len))
                     (chanAct (flashEraseRule (off % 2 ^ 32) (len % 2 ^ 32))) } := rfl
  rw [hexec, Nat.mod_eq_of_lt hoff, Nat.mod_eq_of_lt hlen]

/-- A write within one region that the device does not run from begins (R436). -/
theorem flashWriteRule_accept {d : Dev} {off c r : Nat} {data : List Byte} (hdata : data ≠ []) (hfirst : flashRegion off = some r)
    (hlast : flashRegion (off + data.length - 1) = some r) (hrun : hitsRunning d off data.length = false)
    (hidle : d.boot.flashOp = none) (hasm : flashAsmElsewhere d c = false) :
    flashWriteRule off data c d = accept (startFlash d ⟨false, off, data.length, data, false⟩) :=
  (if_neg (by simp [hdata, hfirst, hlast])).trans (if_neg (by simp [hrun, hidle, hasm]))

/-- An erase of whole sectors begins (R436). -/
theorem flashEraseRule_accept {d : Dev} {off len c : Nat} (hend : off + len ≤ 0x02200000) (hoff : off % 65536 = 0)
    (hlen : len % 65536 = 0) (hrun : hitsRunning d off len = false) (hidle : d.boot.flashOp = none)
    (hasm : flashAsmElsewhere d c = false) :
    flashEraseRule off len c d = accept (startFlash d ⟨true, off, len, [], false⟩) :=
  (if_neg (by simpa [hoff, hlen] using hend)).trans (if_neg (by simp [hrun, hidle, hasm]))

/-! ### The end of an operation -/

/-- A record on its way to the tail is written before software's operations go on (R432, R438). -/
theorem exec_flashOpComplete_tail {p : Part} {d : Dev} {q : List Instr} {r : TailRec} {rest : List TailRec} (hruns : d.runs domXspi = true)
    (hwait : d.boot.tailWait = r :: rest) :
    exec (.flashOpComplete true) ⟨p, d, q⟩ = .next ⟨p, putTail { d with boot := { d.boot with tailWait := rest } } r, q⟩ := by
  refine exec_next_of_effect rfl ((if_neg (by simp [hruns])).trans ?_)
  simp only [hwait, tailDone, if_true]

/-- Software's operation ends when no such record waits. -/
theorem exec_flashOpComplete_op {p : Part} {d : Dev} {q : List Instr} {o : FlashOp} (ok : Bool) (hruns : d.runs domXspi = true)
    (hwait : d.boot.tailWait = []) (hop : d.boot.flashOp = some o) :
    exec (.flashOpComplete ok) ⟨p, d, q⟩ = .next ⟨p,
      if o.resetAfter then ownReset p (endFlash d.draw.2 (currentPart o d.draw.1) ok) else endFlash d o ok, q⟩ := by
  refine exec_next_of_effect rfl ((if_neg (by simp [hruns])).trans ?_)
  simp only [hwait, hop]

/-- The sectors of an erase that ends well are erased. -/
theorem endFlash_erase {d : Dev} {o : FlashOp} (herase : o.erase = true) :
    endFlash d o true = flashDone d stOK (o.off + o.len) (d.boot.flash.clear o.off o.len) :=
  (if_pos herase).trans (if_pos rfl)

/-- A program whose bytes read back as they were given leaves them (R436). -/
theorem endFlash_program {d : Dev} {o : FlashOp} (herase : o.erase = false)
    (hmatch : programMismatch (flashBytes d o.off o.len) o.data = none) :
    endFlash d o true = flashDone d stOK (o.off + o.len)
      (d.boot.flash.writeN 0xFF#8 o.off ((programmed (flashBytes d o.off o.len) o.data).take o.len)) := by
  refine (if_neg (by simp [herase])).trans ?_
  simp only [endProgram, hmatch, if_true]

/-! ### Boot control -/

/-- A request on BOOT_CTRL after which nothing of its channel is left. -/
theorem next_of_reset {x : Res} {s : State} {rq : Rq} {k : Call} {act : Act} {ch : Nat} {d1 d2 : Dev}
    (hc : x = .next { s with dev := serve s.dev rq k act }) (htaken : writeTaken s.dev rq k = some (ch, d1))
    (hact : act ch d1 = (d2, none)) : x = .next { s with dev := d2 } := by
  rw [hc, serve_of_writeTaken_reset act htaken hact]

/-- Settles O56: an operation begins when nothing refuses it, and ends by what it was. -/
theorem flashAndBootComplete : Obligations.FlashAndBootComplete := by
  intro p d q rq c d1
  refine ⟨?write, ?erase, ?tail, ?resetAfter, ?ended, ?resetLater, ?resetNow, ?bankA, ?bankB, ?attempt⟩
  case write =>
    intro off data r hoff hdata hfirst hlast k htaken hrun hidle hasm
    exact next_of_act (exec_flashWrite hoff) htaken (chanAct_accept (flashWriteRule_accept hdata hfirst hlast hrun hidle hasm))
  case erase =>
    intro off len hend hoff hlen k htaken hrun hidle hasm
    exact next_of_act (exec_flashErase (by omega) (by omega)) htaken
      (chanAct_accept (flashEraseRule_accept hend hoff hlen hrun hidle hasm))
  case tail => exact fun r rest hruns hwait => exec_flashOpComplete_tail hruns hwait
  case resetAfter =>
    intro o ok hruns hwait hop hreset
    rw [exec_flashOpComplete_op ok hruns hwait hop, if_pos hreset]
  case ended =>
    intro o hruns hwait hop hreset
    rw [exec_flashOpComplete_op true hruns hwait hop, if_neg (by simp [hreset])]
    refine ⟨fun herase => ?_, fun herase hmatch => ?_⟩
    · rw [endFlash_erase herase]
      rfl
    · rw [endFlash_program herase hmatch]
      rfl
  case resetLater =>
    intro o htaken hop
    refine next_of_act rfl htaken ?_
    simp only [hop]
  case resetNow =>
    intro htaken hidle
    refine next_of_reset rfl htaken ?_
    simp only [hidle]
  case bankA => exact fun htaken => next_of_act rfl htaken rfl
  case bankB => exact fun htaken => next_of_act rfl htaken rfl
  case attempt =>
    intro htaken hrecovery
    exact next_of_reset rfl htaken (if_neg (by simp [hrecovery]))

end Sys2Proof.Machine
end

section
/-! SUPPORT. Attestation and the test port (spec/17_startup_and_security.md R449-R451; log entry 56). A request is served on the peer's
state once the security unit is ready, and what it is answered is its rule. -/

namespace Sys2Proof.Machine

theorem exec_chunkSend (peer : Nat) (last : Bool) (part : List Byte) (s : State) :
    exec (.chunkSend peer last part) s = execChunkSend peer last part s := rfl

theorem exec_chunkGet (peer chunk : Nat) (msg : List Byte) (s : State) : exec (.chunkGet peer chunk msg) s = execChunkGet peer chunk msg s := rfl

section
variable {p : Part} {d : Dev} {q : List Instr} (hruns : d.runs domSec = true) (hready : d.isReady 3 = true)
include hruns hready

/-- A request is served on the peer's state. -/
theorem exec_next_of_spdmServe {c : Instr} {peer : Nat} {f : Dev → Spdm → Dev} {t : Dev}
    (hc : exec c ⟨p, d, q⟩ = spdmServe peer ⟨p, d, q⟩ f) (ht : f d (d.spdm peer) = t) : exec c ⟨p, d, q⟩ = .next ⟨p, t, q⟩ := by
  rw [hc, spdmServe, lift_next]
  simp only [hruns, hready, Bool.not_true, Bool.false_eq_true, if_false, ht]

/-- A request in one message that its rule answers. -/
theorem exec_next_of_spdmRun {c : Instr} {peer : Nat} {msg rsp : List Byte} {r : SpdmReq} {y : Spdm}
    (hc : exec c ⟨p, d, q⟩ = spdmRun peer msg r ⟨p, d, q⟩) (hrule : spdmRule d (d.spdm peer) msg r = .ok (y, rsp)) :
    exec c ⟨p, d, q⟩ = .next ⟨p, spdmAnswer d peer y msg rsp, q⟩ := by
  refine exec_next_of_spdmServe hruns hready hc ?_
  simp only [hrule]

/-- A part that is not the last joins those before it. -/
theorem exec_chunkSend_part (peer : Nat) (msg : List Byte) :
    exec (.chunkSend peer false msg) ⟨p, d, q⟩ =
      .next ⟨p, spdmReply (d.setSpdm peer { d.spdm peer with asm := (d.spdm peer).asm ++ msg }) peer (Config.spdmBody 0x05 []), q⟩ :=
  exec_next_of_spdmServe hruns hready (exec_chunkSend ..) rfl

section
variable {peer : Nat} {msg : List Byte}

/-- The last part of a request that its rule refuses. -/
theorem exec_chunkSend_error {code : Nat}
    (hrule : spdmRule d { d.spdm peer with asm := [] } ((d.spdm peer).asm ++ msg) (spdmParse ((d.spdm peer).asm ++ msg)) = .error code) :
    exec (.chunkSend peer true msg) ⟨p, d, q⟩ =
      .next ⟨p, spdmReply (d.setSpdm peer { d.spdm peer with asm := [] }) peer (Config.spdmBody 0x05 (spdmError code)), q⟩ := by
  refine exec_next_of_spdmServe hruns hready (exec_chunkSend ..) ?_
  simp only [hrule, Bool.not_true, Bool.false_eq_true, if_false]

/-- The last part of one that it answers: the response goes with the acknowledgement, or waits for CHUNK_GET. -/
theorem exec_chunkSend_answer {rsp : List Byte} {y : Spdm}
    (hrule : spdmRule d { d.spdm peer with asm := [] } ((d.spdm peer).asm ++ msg) (spdmParse ((d.spdm peer).asm ++ msg)) =
      .ok (y, rsp)) :
    let y1 := { y with transcript := y.transcript ++ ((d.spdm peer).asm ++ msg) ++ rsp, reply := rsp }
    exec (.chunkSend peer true msg) ⟨p, d, q⟩ = .next ⟨p,
      if spdmLong peer (Config.spdmBody 0x05 rsp) then
        spdmReply (d.setSpdm peer { y1 with long := rsp }) peer (Config.spdmBody 0x05 (spdmError 15))
      else spdmReply (d.setSpdm peer y1) peer (Config.spdmBody 0x05 rsp), q⟩ := by
  intro y1
  refine exec_next_of_spdmServe hruns hready (exec_chunkSend ..) ?_
  simp only [hrule, Bool.not_true, Bool.false_eq_true, if_false]
  rfl

end

/-- A part of the response that waits. -/
theorem exec_chunkGet_part {peer chunk : Nat} (msg : List Byte) (hlong : (d.spdm peer).long ≠ [])
    (hpart : chunk = 0 ∨ 1008 + 1012 * (chunk - 1) < (d.spdm peer).long.length) :
    exec (.chunkGet peer chunk msg) ⟨p, d, q⟩ =
      .next ⟨p, spdmReply d peer (chunkResponse (d.spdm peer).long chunk msg), q⟩ := by
  refine exec_next_of_spdmServe hruns hready (exec_chunkGet ..) (if_neg ?_)
  simpa [hlong, ← or_iff_not_imp_left] using hpart

end

/-! ### What each request's rule answers -/

/-- Once algorithms are agreed no request is out of order. -/
theorem spdmRule_agreed {x : Spdm} (r : SpdmReq) (hagreed : x.negotiated = true) : (r.needsAlgorithms && !x.negotiated) = false := by
  simp [hagreed]

theorem spdmRule_digests {d : Dev} {x : Spdm} (msg : List Byte) (hagreed : x.negotiated = true) :
    spdmRule d x msg .digests = .ok (x, Config.spdmBody 0x01 (toBytes 48 (Config.sha384 (Config.certChain 0)))) := by
  rw [spdmRule, spdmRule_agreed _ hagreed]
  rfl

theorem spdmRule_certificate {d : Dev} {x : Spdm} (msg : List Byte) (off len : Nat) (hagreed : x.negotiated = true) :
    spdmRule d x msg (.certificate off len) = .ok (x, Config.spdmBody 0x02 (((Config.certChain 0).drop off).take len)) := by
  rw [spdmRule, spdmRule_agreed _ hagreed]
  rfl

theorem spdmRule_challenge {d : Dev} {x : Spdm} (msg : List Byte) (hagreed : x.negotiated = true) :
    let body := Config.spdmBody 0x03 (toBytes 48 (Config.sha384 (measBlocks d 255)))
    spdmRule d x msg .challenge = .ok (x, body ++ Config.rsaSign (x.transcript ++ msg ++ body)) := by
  intro body
  rw [spdmRule, spdmRule_agreed _ hagreed]
  rfl

/-- Signed measurements fix the hash that PQ_SIGN signs (R451). -/
theorem spdmRule_measurements {d : Dev} {x : Spdm} (msg : List Byte) (signed : Bool) {op : Nat} (hagreed : x.negotiated = true)
    (hop : op ≤ 7 ∨ op = 255) :
    let body := Config.spdmBody 0x60 (measBlocks d op)
    spdmRule d x msg (.measurements signed op) = .ok (if signed then
      ({ x with l2 := some (Config.transcriptHash (x.transcript ++ msg ++ body)) },
        body ++ Config.rsaSign (x.transcript ++ msg ++ body)) else (x, body)) := by
  intro body
  have hblocks : (decide (7 < op) && op != 255) = false := by
    simp only [Bool.and_eq_false_iff, decide_eq_false_iff_not, bne_eq_false_iff_eq]
    omega
  rw [spdmRule, spdmRule_agreed _ hagreed]
  simp only [hblocks, Bool.false_eq_true, if_false]
  cases signed <;> rfl

theorem spdmRule_pqSign {d : Dev} {x : Spdm} {msg : List Byte} {h : Nat} (hvendor : vendorOk msg = true) (hl2 : x.l2 = some h) :
    spdmRule d x msg .pqSign = .ok (x, vendorBody (toBytes 2 16224 ++ Config.slhSign h)) := by
  simp only [spdmRule, SpdmReq.needsAlgorithms, hvendor, hl2, Bool.false_and, Bool.not_true, Bool.false_eq_true, if_false]

theorem spdmRule_pqCert {d : Dev} {x : Spdm} {msg : List Byte} (hvendor : vendorOk msg = true) :
    spdmRule d x msg .pqCert = .ok (x, vendorBody (Config.certChain 1)) := by
  simp only [spdmRule, SpdmReq.needsAlgorithms, hvendor, Bool.false_and, Bool.not_true, Bool.false_eq_true, if_false]

/-- Settles O57: each request is served, and answered by its rule. -/
theorem attestationCompletes : Obligations.AttestationCompletes := by
  intro p d q peer msg hruns hready x done all
  refine ⟨exec_next_of_spdmRun hruns hready (r := .version) rfl rfl, exec_next_of_spdmRun hruns hready (r := .capabilities) rfl rfl,
    exec_next_of_spdmRun hruns hready (r := .algorithms) rfl rfl, ?agreed, exec_chunkSend_part hruns hready peer msg, ?lastPart,
    fun _ => exec_chunkGet_part hruns hready msg, ?pqSign, ?pqCert, ?jtag⟩
  case agreed =>
    intro hagreed
    refine ⟨exec_next_of_spdmRun hruns hready rfl (spdmRule_digests msg hagreed),
      fun off len => exec_next_of_spdmRun hruns hready rfl (spdmRule_certificate msg off len hagreed),
      exec_next_of_spdmRun hruns hready rfl (spdmRule_challenge msg hagreed), fun op hop => ⟨?plain, ?signed⟩⟩
    case plain => exact exec_next_of_spdmRun hruns hready rfl (spdmRule_measurements msg false hagreed hop)
    case signed => exact exec_next_of_spdmRun hruns hready rfl (spdmRule_measurements msg true hagreed hop)
  case lastPart =>
    intro whole run
    refine ⟨fun code hrun => exec_chunkSend_error hruns hready hrun, ?_⟩
    intro y rsp hrun ack y1
    refine ⟨fun hshort => ?_, fun hpeer hlong => ?_⟩
    · refine (exec_chunkSend_answer hruns hready hrun).trans ?_
      rw [if_neg (by simpa [spdmLong, imp_iff_not_or] using hshort)]
    · refine (exec_chunkSend_answer hruns hready hrun).trans ?_
      rw [if_pos (by simpa [spdmLong] using ⟨hpeer, hlong⟩)]
  case pqSign => exact fun h hvendor hl2 => exec_next_of_spdmRun hruns hready rfl (spdmRule_pqSign hvendor hl2)
  case pqCert => exact fun hvendor => exec_next_of_spdmRun hruns hready rfl (spdmRule_pqCert hvendor)
  case jtag => exact fun ir hrails hir => exec_next_of_effect rfl (if_pos (by simp [hrails, hir]))

end Sys2Proof.Machine
end

section
/-! SUPPORT. Telemetry (spec/18_faults_and_telemetry.md R467, R468, R471). -/

namespace Sys2Proof.Machine

/-- A snapshot of a mask of sets is latched while no copy is in progress (R471). -/
theorem takeSnap_accept {p : Part} {d : Dev} {mask : Nat} (hsome : 1 ≤ mask) (hmost : mask < 64) (hidle : d.health.snapBusy = none) :
    let i := oldestSnap d
    let new : Snap := ⟨d.health.snapSeq + 1, d.pace.visible, d.pace.wall, mask, 1,
      ((List.range 6).filter (fun b => mask.testBit b)).flatMap (setImage p d)⟩
    takeSnap p mask d = accept (Dev.inc { d with health := { d.health with
      snapSeq := new.seq, snapBusy := some (i, new),
      snaps := d.health.snaps.set Snap.empty i { d.health.snaps.get Snap.empty i with status := 0 } } } 0x9111 1 0) := by
  intro i new
  refine (if_neg ?_).trans (if_neg (by simp [hidle]))
  simp only [Bool.or_eq_true, decide_eq_true_eq]
  omega

/-- Settles O54: the sampler runs, so each command has its effect. -/
theorem telemetryCompletes : Obligations.TelemetryCompletes := by
  intro p d q hruns
  refine ⟨?margins, ?sampler, ?snapshot, ?copied⟩
  case margins => exact fun ms => exec_next_of_effect rfl (if_neg (by simp [hruns]))
  case sampler =>
    intro input rails slacks hinput hrails hslacks d1
    refine exec_next_of_effect rfl ((if_neg (by simp [hruns])).trans ?_)
    simp only [List.take_of_length_le hinput.le, List.take_of_length_le hrails.le, List.take_of_length_le hslacks.le]
    rfl
  case snapshot =>
    intro rq mask c d1 hsome hmost k i new old h d2 htaken htelem hidle
    refine exec_next_of_accept rfl htaken ((if_neg (by simp [htelem])).trans ?_)
    rw [Nat.mod_eq_of_lt (by omega : mask < 256)]
    exact takeSnap_accept hsome hmost hidle
  case copied =>
    intro i new hbusy
    refine exec_next_of_effect rfl ?_
    simp only [hbusy]
    exact if_neg (by simp [hruns])

end Sys2Proof.Machine
end

section
/-! SUPPORT. Pace words, tokens, measurements and edges (spec/14_pace_and_time.md R368, R370-R378, R386; log entries 75 and 131). A word is
forwarded first; whether it is good decides what else becomes of it. -/

namespace Sys2Proof.Machine

/-! ### Words on PACE_IN -/

section
variable {d : Dev} {v : Nat} {cal : Bool} {line : PaceLine} (f : Dev → Dev) (hruns : d.runs domPace = true) (hsrc : paceSource d = 1)
  (hcal : wordCal v = cal)
include hruns hsrc hcal

/-- A good word is forwarded and acts (R371, R372). -/
theorem chainWord_good (hline : lineOk d line = true) (hres : wordReservedOk v = true) (hcrc : wordCrcOk v = true) :
    chainWord d v cal line f =
      f (goodWord (forwardWord { d with pace := { d.pace with inLast := d.cycle + 1 } } v true) (wordDly v)) := by
  refine (if_neg (by simp [hruns, hsrc, hcal])).trans ((if_neg (by simp [hline, hres])).trans ((if_neg (by simp [hcrc])).trans ?_))
  rw [hline]

/-- A bad one is forwarded, counted by its fault, and dropped (R372, R375). -/
theorem chainWord_bad (hbad : lineOk d line = false ∨ wordReservedOk v = false ∨ wordCrcOk v = false) :
    chainWord d v cal line f =
      badWord (forwardWord { d with pace := { d.pace with inLast := d.cycle + 1 } } v (lineOk d line))
        (if lineOk d line = true ∧ wordReservedOk v = true then 3 else 2) := by
  refine (if_neg (by simp [hruns, hsrc, hcal])).trans ?_
  by_cases hframe : lineOk d line = true ∧ wordReservedOk v = true
  · obtain ⟨hline, hres⟩ := hframe
    have hcrc : wordCrcOk v = false := by simpa [hline, hres] using hbad
    refine Eq.trans ?_ (congrArg (badWord _) (if_pos ⟨hline, hres⟩).symm)
    exact (if_neg (by simp [hline, hres])).trans (if_pos (by simp [hcrc]))
  · refine Eq.trans ?_ (congrArg (badWord _) (if_neg hframe).symm)
    exact if_pos (by simpa [or_iff_not_imp_left] using hframe)

end

/-! ### Tokens -/

/-- A token as a TOKEN device takes it, once it has gone on along the row (R377, R378): one of another plane or master is foreign, one
that does not lie ahead is stale, any other is taken in. -/
def takeToken (d : Dev) (plane master w elapsed : Nat) : Dev :=
  if paceSource d != 2 then d
  else if plane != d.plane || master != d.rd 0x8001 2 0 || master = 0xFFFF then paceStat d 5
  else
    let due := d.cycle + tokenLead d - elapsed
    let late := decide (due < d.cycle) || launchLate d due
    if w ≤ paceTop d then paceStat d 1 else takeAdvance (headChain d ⟨w, due, late⟩) w due late

/-- A token that came by a link. -/
theorem exec_paceToken {p : Part} {d t : Dev} {q : List Instr} {n srow plane master w elapsed : Nat} (hlink : p.hasLink n = true)
    (hruns : d.runs domXbar = true) (hworks : d.works 6 = true) (hw : w < 2 ^ 64) (helapsed : elapsed < 2 ^ 32)
    (ht : takeToken (if srow = d.row then d else multicast p (d.inc 0x6030 3 0 (fencedRowPeers d)) (rowStage d) 0x40 0 0
      (setBits (tokenSpec d w elapsed) 128 16 master) []) plane master w elapsed = t) :
    exec (.paceToken n srow plane master w elapsed) ⟨p, d, q⟩ = .next ⟨p, t, q⟩ := by
  refine exec_next_of_liftAt rfl hlink ((if_neg (by simp [hruns, hworks])).trans (Eq.trans ?_ ht))
  simp only [Nat.mod_eq_of_lt hw, Nat.mod_eq_of_lt helapsed]
  rfl

/-- A token is this plane's and its master's. -/
theorem token_known {d : Dev} {plane master : Nat} :
    (plane != d.plane || master != d.rd 0x8001 2 0 || (master = 0xFFFF : Bool)) = false
      ↔ plane = d.plane ∧ master = d.rd 0x8001 2 0 ∧ master ≠ 0xFFFF := by
  simp [and_assoc]

/-! ### Advances -/

/-- The first pending advance is applied once its time has come (R368). -/
theorem exec_paceEdge_apply {p : Part} {d : Dev} {q : List Instr} {a : Advance} {as_ : List Advance} (hpending : d.pace.pending = a :: as_)
    (hruns : d.runs domPace = true) (hdue : a.due ≤ d.cycle) (hspaced : d.pace.edgeAt = 0 ∨ d.pace.edgeAt + 2764 ≤ d.cycle) :
    exec .paceEdge ⟨p, d, q⟩ = .next ⟨p, applyAdvance p d a, q⟩ := by
  have hspaced : edgeSpaced d = true := by simpa [edgeSpaced] using hspaced
  refine exec_next_of_effect rfl ?_
  simp only [hpending]
  exact if_neg (by simp [hruns, hspaced, hdue])

/-- A head's word is launched once its time has come (R373). -/
theorem exec_paceWordLaunch_word {p : Part} {d : Dev} {q : List Instr} {a : Advance} {as_ : List Advance}
    (hwaits : d.pace.unlaunched = a :: as_) (hruns : d.runs domPace = true) (hfree : outFree d = true)
    (hdue : a.due ≤ d.cycle + paceLead d) :
    exec .paceWordLaunch ⟨p, d, q⟩ = .next ⟨p, launchWord { d with pace := { d.pace with unlaunched := as_ } } a, q⟩ := by
  refine exec_next_of_effect rfl ((if_neg (by simp [hruns, hfree])).trans ?_)
  simp only [hwaits]
  exact if_neg (Nat.not_lt.mpr hdue)

/-- A CAL word that waits is sent when no advance does (R374). -/
theorem exec_paceWordLaunch_cal {p : Part} {d : Dev} {q : List Instr} (hnone : d.pace.unlaunched = []) (hruns : d.runs domPace = true)
    (hfree : outFree d = true) (hcal : d.pace.calWaits = true) :
    exec .paceWordLaunch ⟨p, d, q⟩ = .next ⟨p, sendCal d, q⟩ := by
  refine exec_next_of_effect rfl ((if_neg (by simp [hruns, hfree])).trans ?_)
  simp only [hnone]
  exact if_pos hcal

/-- The oldest held trigger is decided when the spacing allows (R376). -/
theorem exec_paceTriggerRelease_decide {p : Part} {d : Dev} {q : List Instr} {w : Nat} {ws : List Nat} (hheld : d.pace.trigger = w :: ws)
    (hruns : d.runs domPace = true) (hsrc : paceSource d = 3) (hspaced : spacingOk d = true) (hahead : paceTop d < w) :
    exec .paceTriggerRelease ⟨p, d, q⟩ = .next ⟨p, decideAdvance p { d with pace := { d.pace with trigger := ws } } w, q⟩ := by
  refine exec_next_of_effect rfl ?_
  simp only [hheld]
  exact (if_neg (by simp [hruns, hsrc, hspaced])).trans (if_neg (Nat.not_le.mpr hahead))

/-! ### Messages of the wall clock's domain -/

/-- A message of the domain acts on a clock whose network runs (R386). -/
theorem ptp_heard {d : Dev} {domain : Nat} (hruns : d.runs domFnet = true) (hdomain : d.rd 0x8200 3 0 = domain) :
    ¬ ((!d.runs domFnet || d.rd 0x8200 3 0 != domain) = true) := by
  simp [hruns, hdomain]

/-- The answer to the Delay_Req that is out gives the delay anew (log entry 131). -/
theorem exec_ptpMessage_delayResp {p : Part} {d : Dev} {q : List Instr} {domain seq receipt left : Nat} (hruns : d.runs domFnet = true)
    (hdomain : d.rd 0x8200 3 0 = domain) (hsent : d.pace.ptp.sent = some (seq, left)) :
    let x := d.pace.ptp
    let delay := (x.delay + ((receipt : Int) - left)) / 2
    exec (.ptpMessage domain (.delayResp seq receipt)) ⟨p, d, q⟩ = .next ⟨p,
      disciplineWall d ((d.pace.wall : Int) + (delay - x.delay)) { x with port := .slave, delay := delay, sent := none }, q⟩ := by
  intro x delay
  refine exec_next_of_effect rfl ((if_neg (ptp_heard hruns hdomain)).trans ?_)
  simp only [hsent]
  exact if_neg (by simp)

/-- Settles O41: each condition picks the branch in which its command acts. -/
theorem paceEventsComplete : Obligations.PaceEventsComplete := by
  intro p d q d0
  refine ⟨?good, ?cal, ?bad, ?flight, ?noFlight, ?edge, ?visible, ?inFault, ?token, ?launch, ?launchCal, ?trigger, ?sync, ?delayResp⟩
  case good =>
    intro w dly upper line v hruns hsrc hline hcal hres hcrc d1 due
    exact exec_next_of_effect rfl (chainWord_good _ hruns hsrc hcal hline hres hcrc)
  case cal =>
    intro w upper line v hruns hsrc hline hcal hres hcrc d1
    exact exec_next_of_effect rfl (chainWord_good _ hruns hsrc hcal hline hres hcrc)
  case bad =>
    intro w dly upper line hruns hsrc x hx v framed hbad hcal
    simp only [List.mem_cons, List.not_mem_nil, or_false] at hx
    obtain rfl | rfl := hx <;> exact exec_next_of_effect rfl (chainWord_bad _ hruns hsrc hcal hbad)
  case flight => exact fun r hruns hsent => exec_next_of_effect rfl (if_neg (by simp [hruns, hsent]))
  case noFlight => exact fun hruns hsent => exec_next_of_effect rfl (if_neg (by simp [hruns, hsent]))
  case edge => exact fun a as_ => exec_paceEdge_apply
  case visible =>
    intro hruns hspaced
    exact exec_next_of_effect rfl (if_pos (by simpa [hruns, edgeVisible] using hspaced))
  case inFault => exact fun hruns hsrc => exec_next_of_effect rfl (if_neg (by simp [hruns, hsrc]))
  case token =>
    intro n srow plane master w elapsed hlink hruns hworks hw helapsed spec d1 due late mine
    have htake : ∀ t, takeToken d1 plane master w elapsed = t →
        exec (.paceToken n srow plane master w elapsed) ⟨p, d, q⟩ = .next ⟨p, t, q⟩ :=
      fun t => exec_paceToken hlink hruns hworks hw helapsed
    refine ⟨?other, ?foreign, ?stale, ?taken⟩
    case other => exact fun hsrc => htake _ (if_pos (by simpa using hsrc))
    case foreign =>
      intro hsrc hforeign
      exact htake _ ((if_neg (by simp [hsrc])).trans (if_pos (Bool.eq_true_of_not_eq_false (token_known.not.mpr hforeign))))
    case stale =>
      intro hsrc hmine hstale
      exact htake _ ((if_neg (by simp [hsrc])).trans
        ((if_neg (Bool.eq_false_iff.mp (token_known.mpr hmine))).trans (if_pos hstale)))
    case taken =>
      intro hsrc hmine hahead
      exact htake _ ((if_neg (by simp [hsrc])).trans
        ((if_neg (Bool.eq_false_iff.mp (token_known.mpr hmine))).trans (if_neg (Nat.not_le.mpr hahead))))
  case launch => exact fun a as_ => exec_paceWordLaunch_word
  case launchCal => exact exec_paceWordLaunch_cal
  case trigger => exact fun w ws => exec_paceTriggerRelease_decide
  case sync =>
    intro domain origin hruns hdomain x now port
    refine exec_next_of_effect rfl ((if_neg (ptp_heard hruns hdomain)).trans ?_)
    simp only [beq_iff_eq]
    rfl
  case delayResp =>
    intro domain seq receipt left hruns hdomain x delay hsent
    exact exec_ptpMessage_delayResp hruns hdomain hsent

end Sys2Proof.Machine
end

section
/-! SUPPORT. Writes of pace, schedule and wall-clock objects (spec/14_pace_and_time.md R369, R374, R376, R381, R383, R386, R387; log entries
75 and 94): what each object's rule accepts. -/

namespace Sys2Proof.Machine

/-- Another source drops what the last one held (R369). -/
theorem paceSourceRule_accept {d : Dev} {v : Nat} (hv : v < 4) (hmaster : v = 3 → d.rd 0x8001 2 0 = ownHome d)
    (hnew : v ≠ paceSource d) :
    let x := { d.pace with pending := [], unlaunched := [], trigger := [], badRun := 0, calWaits := false }
    let d2 := settlePace d { d.wr 0x8000 1 0 v with pace := x }
    paceSourceRule v d = accept (if 2 ≤ v then sendCal d2 else d2) := by
  intro x d2
  have htakes : ¬ ((decide (3 < v) || (decide (v = 3) && d.rd 0x8001 2 0 != ownHome d)) = true) := by
    simp only [Bool.or_eq_true, Bool.and_eq_true, decide_eq_true_eq, bne_iff_ne, not_or, not_and, not_not]
    exact ⟨by omega, hmaster⟩
  refine (if_neg htakes).trans ?_
  rw [if_neg hnew]

/-- A load moves both counts (R369). -/
theorem paceLoadRule_accept {d : Dev} {v : Nat} (hsrc : paceSource d = 0) (hv : d.pace.count ≤ v) :
    paceLoadRule v d = accept (if v = d.pace.count then d else { d with pace := { d.pace with count := v, visible := v } }) := by
  refine (if_neg (by simp [hsrc])).trans ((if_neg (Nat.not_lt.mpr hv)).trans ?_)
  split <;> rfl

/-- A step is decided, or held behind those that are (R376). -/
theorem paceStepRule_accept {p : Part} {d : Dev} {v : Nat} (hsrc : paceSource d = 3) (hv : d.pace.trigger.foldl max (paceTop d) < v) :
    paceStepRule p v d = accept (if d.pace.trigger = [] ∧ spacingOk d = true then decideAdvance p d v
      else { d with pace := { d.pace with trigger := d.pace.trigger ++ [v] } }) := by
  refine (if_neg (by simp [hsrc])).trans ((if_neg (Nat.not_le.mpr hv)).trans ?_)
  simp only [Bool.and_eq_true, List.isEmpty_iff]
  split <;> rfl

/-- A heading source sends a CAL word (R374). -/
theorem paceCalRule_accept {d : Dev} (hsrc : 2 ≤ paceSource d) : paceCalRule 1 d = accept (sendCal d) :=
  (if_neg (by decide)).trans (if_neg (Nat.not_lt.mpr hsrc))

/-- A record that changes a free entry and passes its checks arms it (R381). -/
theorem schedArmRule_accept {p : Part} {d : Dev} {i rec : Nat} (hi : i < 256) (hfree : schedAction (schedRec d i) = 0) :
    let r := mkSched (schedAction rec) (schedTarget rec) (schedJob rec) (schedArg rec) false
    r ≠ schedRec d i → schedStatus p d r = stOK →
    schedArmRule p i rec d = accept (if schedAction r = 1
      then armSwap d i (bits (schedArg r) 0 8) (bits (schedArg r) 32 32) (schedTarget r) else putSched d i r) := by
  intro r hnew hst
  refine (if_neg (Nat.not_le.mpr hi)).trans ((if_neg hnew).trans ((if_neg (by simp [hfree])).trans
    ((if_neg (by simpa using hst)).trans ?_)))
  split <;> rfl

/-- An entry that the device does not own and that does not fire now is cancelled; so is a swap that it armed (R381). -/
theorem schedCancelRule_accept {d : Dev} {n : Nat} (harmed : schedAction (schedRec d n) ≠ 0) (hown : schedDev (schedRec d n) = false)
    (hwait : firesNow d n = false) :
    schedCancelRule n d = accept (if schedAction (schedRec d n) = 1
      then moveEpoch (putSched d n 0) (fun w => { w with swapArmed := false }) else putSched d n 0) :=
  (if_neg (by simp [hwait])).trans (if_neg (by simp [harmed, hown]))

/-- One that fires in this cycle is not (R383). -/
theorem schedCancelRule_fires {d : Dev} {n : Nat} (hown : schedDev (schedRec d n) = false) (hfires : firesNow d n = true) :
    schedCancelRule n d = refuse d stNotReady := if_pos (by simp [hown, hfires])

/-- Settles O42: each rule on the device that has taken the write. -/
theorem paceWritesComplete : Obligations.PaceWritesComplete := by
  intro p d q rq v c d1
  refine ⟨?source, ?load, ?step, ?cal, ?arm, ?cancel, ?fires, ?wall⟩
  case source =>
    intro k htaken hv hmaster hnew x d2
    refine exec_next_of_accept rfl htaken ?_
    rw [Nat.mod_eq_of_lt (by omega : v < 256)]
    exact paceSourceRule_accept hv hmaster hnew
  case load =>
    intro k htaken hv hsrc hahead
    exact exec_next_of_accept rfl htaken ((Nat.mod_eq_of_lt hv).symm ▸ paceLoadRule_accept hsrc hahead)
  case step =>
    intro k htaken hv hsrc hahead
    exact exec_next_of_accept rfl htaken ((Nat.mod_eq_of_lt hv).symm ▸ paceStepRule_accept hsrc hahead)
  case cal =>
    intro k htaken hsrc
    exact exec_next_of_accept rfl htaken (paceCalRule_accept hsrc)
  case arm =>
    intro i k r htaken hv hi hfree hnew hst
    refine next_of_act rfl htaken ?_
    simp only [Nat.mod_eq_of_lt hv, schedArmRule_accept hi hfree hnew hst]
    rfl
  case cancel =>
    intro k r htaken hv harmed hown hwait
    exact exec_next_of_accept rfl htaken ((Nat.mod_eq_of_lt hv).symm ▸ schedCancelRule_accept harmed hown hwait)
  case fires =>
    intro k htaken hv hown hfires
    refine next_of_act rfl htaken ?_
    rw [ruleAct, Nat.mod_eq_of_lt hv, schedCancelRule_fires hown hfires]
    rfl
  case wall =>
    intro k htaken hv hptp
    refine exec_next_of_accept rfl htaken ((if_neg hptp).trans ?_)
    rw [Nat.mod_eq_of_lt hv]

end Sys2Proof.Machine
end

section
/-! SUPPORT. The dictionary's own requests (spec/15_dictionary_protocol.md R394, R397-R401, R404-R406, R409, R410, R412; log entries 10 and
133). A request that no gate stops is answered with what its rule gives. -/

namespace Sys2Proof.Machine

/-- A request that is no write, by what its act answers on the device that has taken it. -/
theorem next_of_readAct {x : Res} {s : State} {rq : Rq} {k : Call} {act : Act} {ch : Nat} {d1 d2 : Dev} {r : Rsp}
    (hc : x = .next { s with dev := serve s.dev rq k act }) (htaken : readTaken s.dev rq k = some (ch, d1))
    (hact : act ch d1 = (d2, some r)) : x = .next { s with dev := answered ch rq k d2 r } := by
  rw [hc, serve_of_readTaken act htaken hact]

/-! ### READ and the operations without data -/

/-- A READ of an object that reading does not change (R394). -/
theorem readAct_plain {p : Part} {path : Path} {idx sub : Nat} (off len : Nat)
    (hplain : (idx, sub) ∉ [(0x3102, 1), (0x3000, 2), (0x4002, 1), (0x9012, 0), (0x2020, 1)]) :
    readAct p path idx sub off len = fun c d => (d, some (readRsp p d path c idx sub off len)) := by
  unfold readAct
  split
  case h_6 => rfl
  all_goals simp at hplain

/-- An operation that R394 does not list. -/
theorem objAct_unlisted {p : Part} {path : Path} {op idx off len sub : Nat} (hop : op ∉ [1, 2, 3, 0x10, 0x11]) :
    objAct p path ⟨op, idx, off, len⟩ sub = fun _ d => (d, some (Rsp.st stBadField)) := by
  simp only [List.mem_cons, List.not_mem_nil, or_false, not_or] at hop
  obtain ⟨hread, hwrite, hdescribe, hevents, hlog⟩ := hop
  simp only [objAct, hread, hwrite, hdescribe, hevents, hlog, if_false]

/-- A reader on the field network takes events while it owns the queue (R410). -/
theorem evqReadRule_owner {d : Dev} {a : Nat} (howner : d.evqOwner = 1) :
    let d2 := { d with evt := { d.evt with queue := (takeEvents 15 d.evt.queue).2, reader := some a } }
    evqReadRule (.peer a) d =
      (settleQueue d2 (d2.ctr 0x1021 3 0), some ⟨stOK, 0, 0, eventBytes (takeEvents 15 d.evt.queue).1⟩) :=
  if_neg (by simp [howner])

/-! ### Segments -/

/-- The data of a datagram fit every path (R399, R405). -/
theorem tooLong_of_le {path : Path} {n : Nat} (hn : n ≤ 1024) : tooLong path n = false := by
  cases path with
  | slot _ => exact decide_eq_false (by omega)
  | peer _ => exact decide_eq_false (by omega)

/-- The first segment of a value opens its assembly (R398). -/
theorem runSegment_first {d : Dev} {c idx sub : Nat} {path : Path} {data : List Byte} (hnone : (d.chan c).asm = none)
    (hgate : writeGate d c path ⟨2, idx, sub, 0, false, data.length, 0, data⟩ = none) (hoct : isOct idx sub = true)
    (hlen : data.length ≤ 1024) (hflash : flashAsmElsewhere d c = false) :
    runSegment d c path ⟨2, idx, sub, 0, false, data.length, 0, data⟩ =
      (d.setChan c { d.chan c with asm := some ⟨idx, sub, data⟩ }, some (Rsp.st stOK)) := by
  have hfits : ¬ 294912 < data.length := by omega
  simp only [runSegment, hnone, hgate]
  refine (if_neg (by simp [hoct, tooLong_of_le hlen, hfits])).trans (if_neg (by simp [hflash]))

/-- A segment that is not the last is answered as it is stored. -/
theorem serve_segment {d d1 d2 : Dev} {rq : Rq} {k : Call} {c : Nat} {r : Rsp} (act : Act) (hop : k.op = 2) (hlast : k.last = false)
    (htaken : taken d rq k = some (c, d1)) (hrun : runSegment d1 c rq.path k = (d2, some r)) :
    serve d rq k act = answered c rq k d2 r := by
  rw [(serve_of_taken act htaken).2, if_neg (by simp [hop]), if_neg (by simp [hlast]), hrun]
  rfl

/-! ### BAR2 and discovery -/

theorem consumeRule_placed {d : Dev} {v : Nat} (hlow : d.evt.consumed ≤ v) (hhigh : v ≤ d.evt.placed) :
    let d1 := placeEvents 64 { d with evt := { d.evt with consumed := v } }
    consumeRule d v = settleQueue d1 (d1.ctr 0x1021 3 0) := if_pos (by simp [hlow, hhigh])

theorem consumeRule_outside {d : Dev} {v : Nat} (hv : v < d.evt.consumed ∨ d.evt.placed < v) :
    consumeRule d v = d.inc 0x1030 0 6 := if_neg (by simp; omega)

/-- A discovery request that its channel has not seen (R406). -/
theorem exec_discoveryRead_new {p : Part} {d : Dev} {q : List Instr} {peer seq idx sub : Nat} {span : Span} (hready : d.isReady 1 = true)
    (hlow : 0x1000 ≤ idx) (hhigh : idx ≤ 0x10FF) :
    let x := enterPeer (d.inc 0x1030 0 1) peer
    let k := Call.read idx sub span.off span.len
    verdict (x.2.chan x.1) seq k.image = .run →
    let d1 := dropAsm x.2 x.1
    let r := discoveryRsp p d1 idx sub span
    exec (.discoveryRead peer seq idx sub span) ⟨p, d, q⟩ = .next ⟨p,
      answerDiscovery (d1.setChan x.1 { d1.chan x.1 with lastReq := some (seq, k.image), rsp := r }) peer seq r, q⟩ := by
  intro x k hnew d1 r
  refine exec_next_of_effect rfl ((if_neg (by simp [hready])).trans ((if_neg ?_).trans ?_))
  · simp only [Bool.or_eq_true, decide_eq_true_eq]
    omega
  · simp only [k, x] at hnew
    simp only [hnew]
    rfl

/-- The lock of a channel without an open assembly re-arms after 10 s (R401). -/
theorem exec_unlockTimeout_rearm {p : Part} {d : Dev} {q : List Instr} {path : Path} {c : Nat} (hchan : chanOf d path = some c)
    (hopen : (d.chan c).unlocked = true) (hnone : (d.chan c).asm = none) :
    exec (.unlockTimeout path) ⟨p, d, q⟩ = .next ⟨p, setUnlocked d c false, q⟩ := by
  refine exec_next_of_effect rfl ?_
  simp only [hchan, hopen, hnone, Bool.not_true, Bool.false_eq_true, if_false]

/-- Another owner takes the queue (R410). -/
theorem ownerRule_accept {d : Dev} {v : Nat} (hv : v < 2) (hnew : v ≠ d.evqOwner) :
    ownerRule v d = accept (placeEvents 64 (d.wr 0x1021 4 0 v)) := (if_neg (by omega)).trans (if_neg hnew)

/-- Settles O9: each request by its rule on the device that has taken it. -/
theorem dictionaryRequestsComplete : Obligations.DictionaryRequestsComplete := by
  unfold Obligations.DictionaryRequestsComplete
  refine ⟨?describe, ?read, ?unlisted, ?evqRead, ?logRead, ?write, ?segment, ?busySlot, ?consumed, ?outside, ?window, ?mask, ?notice,
    ?malformed, ?discovery, ?unlock, ?timeout, ?flush, ?owner⟩
  case describe => exact fun p d q rq idx sub off len c d1 htaken => next_of_readAct rfl htaken rfl
  case read =>
    intro p d q rq idx sub off len c d1 hplain htaken
    exact next_of_readAct rfl htaken (congrFun (congrFun (readAct_plain off len hplain) c) d1)
  case unlisted =>
    intro p d q rq op idx sub off len c d1 hop htaken
    exact next_of_readAct rfl htaken (congrFun (congrFun (objAct_unlisted hop) c) d1)
  case evqRead =>
    intro p d q rq a c d1 k d2 hpath howner htaken
    exact next_of_readAct rfl htaken ((congrArg (fun path => evqReadRule path d1) hpath).trans (evqReadRule_owner howner))
  case logRead =>
    intro p d q rq first c d1 k xs htaken
    exact next_of_readAct rfl htaken rfl
  case write =>
    intro p d q rq idx sub off data c d1 d2 k htaken hrule
    refine next_of_act rfl htaken ?_
    rw [hrule]
  case segment =>
    intro p d q rq idx sub data c d1 k htaken hgate hoct hlen hflash
    obtain ⟨-, -, -, -, hnone⟩ := taken_some htaken
    exact exec_next_of_effect rfl (serve_segment _ rfl rfl htaken (runSegment_first hnone hgate hoct hlen hflash))
  case busySlot => exact fun p d q slot hslot hready => exec_next_of_liftAt rfl (decide_eq_true hslot) (if_pos hready)
  case consumed =>
    intro p d q v hready hlow hhigh d1
    exact exec_next_of_effect rfl ((if_neg (by simp [hready])).trans (consumeRule_placed hlow hhigh))
  case outside =>
    intro p d q v hready hv
    exact exec_next_of_effect rfl ((if_neg (by simp [hready])).trans (consumeRule_outside hv))
  case window =>
    intro p d q off
    exact exec_next_of_effect rfl (ite_self _)
  case mask =>
    intro p d q k on hready hk d1 d2
    exact exec_next_of_effect rfl ((if_neg (by simp [hready])).trans (if_neg (by omega)))
  case notice =>
    intro p d q d1
    rfl
  case malformed => exact fun p d q hready => exec_next_of_effect rfl (if_pos hready)
  case discovery =>
    intro p d q peer seq idx sub span hready hlow hhigh x k hnew d1 r
    exact exec_discoveryRead_new hready hlow hhigh hnew
  case unlock =>
    intro p d q rq c d1 k htaken
    exact next_of_act rfl htaken rfl
  case timeout => exact fun p d q path c => exec_unlockTimeout_rearm
  case flush =>
    intro p d q rq c d1 k d2 htaken
    exact exec_next_of_accept rfl htaken rfl
  case owner =>
    intro p d q rq v c d1 k hv hnew htaken
    refine exec_next_of_accept rfl htaken ?_
    rw [Nat.mod_eq_of_lt (by omega : v < 256)]
    exact ownerRule_accept hv hnew

end Sys2Proof.Machine
end

section
/-! SUPPORT. R396 on every request of the table (spec/15_dictionary_protocol.md R396, R398, R399, R405): each is served by one act on its
channel, and what the sequence number decides does not depend on which act that is. -/

namespace Sys2Proof.Machine

/-! ### Acts that answer -/

/-- A run on a channel that ends in an answer. -/
def HasAnswer (y : Dev × Option Rsp) : Prop := ∃ d r, y = (d, some r)

/-- An act that answers whatever it meets. -/
def Answers (act : Act) : Prop := ∀ c d, HasAnswer (act c d)

theorem hasAnswer_some (d : Dev) (r : Rsp) : HasAnswer (d, some r) := ⟨d, r, rfl⟩

theorem hasAnswer_ite {b : Prop} [Decidable b] {y z : Dev × Option Rsp} (hy : HasAnswer y) (hz : HasAnswer z) :
    HasAnswer (if b then y else z) := by
  split
  · exact hy
  · exact hz

theorem ruleAct_answers (rule : Dev → Dev × Nat) : Answers (ruleAct rule) := fun _ _ => hasAnswer_some ..

theorem tableRead_answers {path : Path} {off len w n : Nat} {rec : Dev → Nat → Nat} {rearm : Dev → Nat → Dev} :
    Answers (tableRead path off len w n rec rearm) := fun _ _ => hasAnswer_ite (hasAnswer_some ..) (hasAnswer_some ..)

theorem sampleAct_answers {path : Path} {off len : Nat} : Answers (sampleAct path off len) :=
  fun _ _ => hasAnswer_ite (hasAnswer_some ..) (hasAnswer_some ..)

theorem unlockRule_answers {v : Nat} : Answers (unlockRule v) := fun _ _ => hasAnswer_ite (hasAnswer_some ..) (hasAnswer_some ..)

theorem evqReadRule_answers (path : Path) : Answers fun _ => evqReadRule path := by
  intro _ d
  cases path with
  | slot _ => exact hasAnswer_some ..
  | peer _ => exact hasAnswer_ite (hasAnswer_some ..) (hasAnswer_some ..)

theorem readAct_answers {p : Part} {path : Path} {idx sub off len : Nat} : Answers (readAct p path idx sub off len) := by
  unfold readAct
  split
  · exact tableRead_answers
  · exact fun _ _ => hasAnswer_some ..
  · exact tableRead_answers
  · exact tableRead_answers
  · exact sampleAct_answers
  · exact fun _ _ => hasAnswer_some ..

theorem objAct_answers {p : Part} {path : Path} {o : ObjReq} {sub : Nat} : Answers (objAct p path o sub) := by
  unfold objAct
  split
  · exact readAct_answers
  · split
    · exact fun _ _ => hasAnswer_some ..
    · split
      · exact fun _ _ => hasAnswer_some ..
      · split
        · exact evqReadRule_answers path
        · split <;> exact fun _ _ => hasAnswer_some ..

/-! ### A run on a channel -/

theorem runOther_hasAnswer {act : Act} (d : Dev) (c : Nat) (k : Call) (hact : Answers act) : HasAnswer (runOther d c k act) := by
  unfold runOther
  dsimp only
  split
  · exact hasAnswer_some ..
  · exact hact ..

theorem runWrite_hasAnswer {act : Act} (d : Dev) (c : Nat) (path : Path) (k : Call) (hact : Answers act) :
    HasAnswer (runWrite d c path k act) := by
  unfold runWrite
  dsimp only
  refine hasAnswer_ite (hasAnswer_some ..) (hasAnswer_ite (hasAnswer_some ..) ?_)
  split
  · exact hasAnswer_some ..
  · generalize Dev.setChan _ c _ = e
    obtain ⟨t, r, hrun⟩ := hact c e
    rw [hrun]
    exact hasAnswer_some ..

theorem runSegment_hasAnswer (d : Dev) (c : Nat) (path : Path) (k : Call) : HasAnswer (runSegment d c path k) := by
  unfold runSegment
  dsimp only
  split
  · exact hasAnswer_some ..
  · split
    · exact hasAnswer_some ..
    · exact hasAnswer_ite (hasAnswer_some ..) (hasAnswer_ite (hasAnswer_some ..) (hasAnswer_some ..))

/-- A new request executes (R396). -/
def runCall (d : Dev) (c : Nat) (path : Path) (k : Call) (act : Act) : Dev × Option Rsp :=
  if k.op != 2 then runOther d c k act else if k.last then runWrite d c path k act else runSegment d c path k

/-- It ends in an answer if its act does, or if it is a segment, which has no act of its own. -/
theorem runCall_hasAnswer {act : Act} (d : Dev) (c : Nat) (path : Path) (k : Call)
    (hact : Answers act ∨ (k.op = 2 ∧ k.last = false)) : HasAnswer (runCall d c path k act) := by
  obtain hact | ⟨hop, hlast⟩ := hact
  · exact hasAnswer_ite (runOther_hasAnswer d c k hact) (hasAnswer_ite (runWrite_hasAnswer d c path k hact) (runSegment_hasAnswer ..))
  · rw [runCall, if_neg (by simp [hop]), if_neg (by simp [hlast])]
    exact runSegment_hasAnswer ..

/-! ### The response -/

@[simp] theorem raiseMsix_chan (d : Dev) (v c : Nat) : (raiseMsix d v).chan c = d.chan c := by
  unfold raiseMsix
  split <;> rfl

@[simp] theorem raiseMsix_slot (d : Dev) (v : Nat) (n : Fin 8) : (raiseMsix d v).slot n = d.slot n := by
  unfold raiseMsix
  split <;> rfl

/-- A response leaves every channel as it is. -/
@[simp] theorem respond_chan (d : Dev) (rq : Rq) (r : Rsp) (c : Nat) : (respond d rq r).chan c = d.chan c := by
  unfold respond
  split
  · rw [raiseMsix_chan, Dev.chan_setSlot]
  · rfl

theorem respond_slot {d : Dev} {rq : Rq} {r : Rsp} {n : Fin 8} (hpath : rq.path = .slot n) :
    respond d rq r = raiseMsix (d.setSlot n ⟨rspHeader (d.slot n).hdr r, r.data⟩) 0 := by
  rw [respond, hpath]

theorem respond_peer {d : Dev} {rq : Rq} {r : Rsp} {a : Nat} (hpath : rq.path = .peer a) :
    respond d rq r = d.send (.response (linkLocal, vdpPort) a rq.seq r) := by
  rw [respond, hpath]

/-- A response stands where it goes (R399, R405). -/
theorem responded_respond (d : Dev) (rq : Rq) (r : Rsp) : responded rq r (respond d rq r) := by
  unfold responded
  split
  next n hpath =>
    rw [respond_slot hpath]
    exact ⟨_, (raiseMsix_slot ..).trans (Dev.slot_setSlot ..)⟩
  next a hpath =>
    rw [respond_peer hpath]
    exact List.mem_cons_self

/-- A request executed: its channel keeps it with the response that leaves (R396). -/
theorem finish_keeps {y : Dev × Option Rsp} (c : Nat) (rq : Rq) (image : List Nat) (hy : HasAnswer y) :
    ((finish c rq image y).chan c).lastReq = some (rq.seq, image)
      ∧ responded rq ((finish c rq image y).chan c).rsp (finish c rq image y) := by
  obtain ⟨d, r, rfl⟩ := hy
  simp only [finish, respond_chan, Dev.chan_setChan, responded_respond, and_self]

/-! ### What the sequence number decides -/

section
variable {ch : Chan} {seq l : Nat} {image im : List Nat}

theorem verdict_resend (hlast : ch.lastReq = some (l, image)) (hback : (seq + 2 ^ 32 - l) % 2 ^ 32 = 0) :
    verdict ch seq image = .resend := by
  simp only [verdict, hlast, hback, if_true]

theorem verdict_differs (hlast : ch.lastReq = some (l, im)) (him : im ≠ image) (hback : (seq + 2 ^ 32 - l) % 2 ^ 32 = 0) :
    verdict ch seq image = .differs := by
  simp only [verdict, hlast, hback, him, if_true, if_false]

theorem verdict_stale (hlast : ch.lastReq = some (l, im)) (hback : 2 ^ 31 ≤ (seq + 2 ^ 32 - l) % 2 ^ 32) :
    verdict ch seq image = .stale := by
  have hother : ¬ (seq + 2 ^ 32 - l) % 2 ^ 32 = 0 := by omega
  simp only [verdict, hlast, hother, Nat.not_lt.mpr hback, if_false]

theorem verdict_run (hnew : ch.lastReq = none ∨ ∃ l im, ch.lastReq = some (l, im) ∧ 1 ≤ (seq + 2 ^ 32 - l) % 2 ^ 32
    ∧ (seq + 2 ^ 32 - l) % 2 ^ 32 < 2 ^ 31) : verdict ch seq image = .run := by
  obtain hnone | ⟨l, im, hlast, hlow, hhigh⟩ := hnew
  · simp only [verdict, hnone]
  · have hother : ¬ (seq + 2 ^ 32 - l) % 2 ^ 32 = 0 := by omega
    simp only [verdict, hlast, hother, hhigh, if_true, if_false]

end

/-! ### Requests -/

/-- `x` is served by an act on its channel, or waits while entry into fixed-cycle mode is armed (R223). -/
def ServedBy (p : Part) (dev : Dev) (q : List Instr) (rq : Rq) (x : Instr × Call) (act : Act) : Prop :=
  ∃ wait held, (wait = true → dev.modes.fcm = 1) ∧ exec x.1 ⟨p, dev, q⟩ = .next ⟨p, serveOrHold dev rq x.2 act wait held, q⟩

section
variable {p : Part} {dev d0 : Dev} {q : List Instr} {rq : Rq} {x : Instr × Call} {act : Act}

theorem servedBy_serve (hc : exec x.1 ⟨p, dev, q⟩ = .next ⟨p, serve dev rq x.2 act, q⟩) : ServedBy p dev q rq x act :=
  ⟨false, id, nofun, by rw [hc, serveOrHold_serve]⟩

/-- A request that has been received and does not wait comes to what its channel makes of it. -/
theorem ServedBy.exec_eq (hs : ServedBy p dev q rq x act) (hreceive : receive dev rq x.2 = .ok d0)
    (hgo : dev.modes.fcm ≠ 1 ∨ verdict ((enterChan d0 rq.path).2.chan (enterChan d0 rq.path).1) rq.seq x.2.image ≠ .run) :
    exec x.1 ⟨p, dev, q⟩ = .next ⟨p, serveOn (enterChan d0 rq.path).2 (enterChan d0 rq.path).1 rq x.2 act, q⟩ := by
  obtain ⟨wait, held, hwait, hexec⟩ := hs
  have hserves : ¬ ((wait && decide (verdict ((enterChan d0 rq.path).2.chan (enterChan d0 rq.path).1) rq.seq x.2.image = .run)) = true) := by
    simp only [Bool.and_eq_true, decide_eq_true_eq, not_and]
    exact fun h => hgo.resolve_left (not_not.mpr (hwait h))
  rw [hexec, serveOrHold, hreceive]
  simp only [if_neg hserves]
  rfl

/-- A new one executes, and its channel keeps it with its response. -/
theorem ServedBy.executes (hs : ServedBy p dev q rq x act) (hact : Answers act ∨ (x.2.op = 2 ∧ x.2.last = false))
    (hreceive : receive dev rq x.2 = .ok d0) (hfcm : dev.modes.fcm ≠ 1)
    (hnew : verdict ((enterChan d0 rq.path).2.chan (enterChan d0 rq.path).1) rq.seq x.2.image = .run) :
    ∃ t, exec x.1 ⟨p, dev, q⟩ = .next ⟨p, t, q⟩ ∧ (t.chan (enterChan d0 rq.path).1).lastReq = some (rq.seq, x.2.image)
      ∧ responded rq (t.chan (enterChan d0 rq.path).1).rsp t := by
  refine ⟨_, hs.exec_eq hreceive (.inl hfcm), ?_⟩
  rw [serveOn, hnew]
  exact finish_keeps _ rq _ (runCall_hasAnswer _ _ rq.path x.2 hact)

/-- One that was seen does not execute again. -/
theorem ServedBy.repeats (hs : ServedBy p dev q rq x act) (hreceive : receive dev rq x.2 = .ok d0) :
    repeats p dev q rq x (enterChan d0 rq.path).1 (enterChan d0 rq.path).2 := by
  have hseen : ∀ v, verdict ((enterChan d0 rq.path).2.chan (enterChan d0 rq.path).1) rq.seq x.2.image = v → v ≠ .run →
      exec x.1 ⟨p, dev, q⟩ = .next ⟨p, serveOn (enterChan d0 rq.path).2 (enterChan d0 rq.path).1 rq x.2 act, q⟩ :=
    fun v hv hrun => hs.exec_eq hreceive (.inr (hv ▸ hrun))
  refine ⟨?resend, ?differs, ?staleSlot, ?stalePeer⟩
  case resend =>
    intro l hlast hback
    have hv := verdict_resend hlast hback
    rw [hseen _ hv nofun, serveOn, hv]
  case differs =>
    intro l im hlast him hback
    have hv := verdict_differs hlast him hback
    rw [hseen _ hv nofun, serveOn, hv]
  case staleSlot =>
    intro l im n hlast hback hpath
    have hv := verdict_stale (image := x.2.image) hlast hback
    rw [hseen _ hv nofun, serveOn, hv]
    simp only [hpath]
  case stalePeer =>
    intro l im a hlast hback hpath
    have hv := verdict_stale (image := x.2.image) hlast hback
    rw [hseen _ hv nofun, serveOn, hv]
    simp only [hpath]

end

/-- `x` is a request that an act serves, and that ends in an answer once it executes. -/
def IsRequest (p : Part) (dev : Dev) (q : List Instr) (rq : Rq) (x : Instr × Call) : Prop :=
  ∃ act, ServedBy p dev q rq x act ∧ (Answers act ∨ (x.2.op = 2 ∧ x.2.last = false))

section
variable {p : Part} {dev : Dev} {q : List Instr} {rq : Rq} {c : Instr} {k : Call} {act : Act}

/-- A request served by an act that answers. -/
theorem isRequest_serve (hact : Answers act) (hc : exec c ⟨p, dev, q⟩ = .next ⟨p, serve dev rq k act, q⟩) :
    IsRequest p dev q rq (c, k) := ⟨act, servedBy_serve hc, .inl hact⟩

/-- A write whose rule gives a device and a status. -/
theorem isRequest_write {idx sub : Nat} {bs : List Byte} {rule : Dev → Dev × Nat}
    (hc : exec c ⟨p, dev, q⟩ = .next ⟨p, serveWrite dev rq idx sub bs rule, q⟩) : IsRequest p dev q rq (c, Call.write idx sub bs) :=
  isRequest_serve (ruleAct_answers rule) hc

/-- A request that waits while entry into fixed-cycle mode is armed (R223). -/
theorem isRequest_hold {rule : Dev → Dev × Nat} {held : Dev → Dev}
    (hc : exec c ⟨p, dev, q⟩ = .next ⟨p, serveOrHold dev rq k (ruleAct rule) (decide (dev.modes.fcm = 1)) held, q⟩) :
    IsRequest p dev q rq (c, k) := ⟨_, ⟨_, held, of_decide_eq_true, hc⟩, .inl (ruleAct_answers rule)⟩

end

section
variable (p : Part) (dev : Dev) (q : List Instr) (rq : Rq)

theorem readRequests_isRequest (op idx sub off len : Nat) : ∀ x, readRequests rq op idx sub off len x → IsRequest p dev q rq x := by
  simp only [readRequests, List.forall_mem_cons]
  exact ⟨isRequest_serve objAct_answers rfl, isRequest_serve (evqReadRule_answers rq.path) rfl,
    isRequest_serve (fun _ _ => hasAnswer_some ..) rfl, isRequest_serve tableRead_answers rfl,
    isRequest_serve (fun _ _ => hasAnswer_some ..) rfl, isRequest_serve tableRead_answers rfl,
    isRequest_serve tableRead_answers rfl, isRequest_serve sampleAct_answers rfl, List.forall_mem_nil _⟩

/-- An OCT segment that is not the last has no act of its own. -/
theorem octSegment_isRequest (idx sub off : Nat) (data : List Byte) :
    IsRequest p dev q rq (.octSegment rq idx sub off data, ⟨2, idx, sub, off, false, data.length, 0, data⟩) :=
  ⟨_, servedBy_serve rfl, .inr ⟨rfl, rfl⟩⟩

theorem dictWrite_isRequest (idx sub off : Nat) (last : Bool) (data : List Byte) :
    IsRequest p dev q rq (.dictWrite rq idx sub off last data, ⟨2, idx, sub, off, last, data.length, 0, data⟩) :=
  isRequest_serve (fun _ _ => hasAnswer_some ..) rfl

theorem writeRequests_isRequest (a b c e f : Nat) (last : Bool) (data : List Byte) (ws : List Word) :
    ∀ x, writeRequests rq a b c e f last data ws x → IsRequest p dev q rq x := by
  simp only [writeRequests, List.forall_mem_cons]
  exact ⟨dictWrite_isRequest .., octSegment_isRequest .., isRequest_serve unlockRule_answers rfl, isRequest_write rfl,
    isRequest_write rfl, isRequest_hold rfl, isRequest_write rfl, isRequest_write rfl, isRequest_write rfl, isRequest_write rfl,
    isRequest_write rfl, isRequest_write rfl, isRequest_hold rfl, isRequest_write rfl, isRequest_write rfl, isRequest_write rfl,
    isRequest_write rfl, isRequest_write rfl, isRequest_write rfl, isRequest_write rfl, isRequest_write rfl, List.forall_mem_nil _⟩

theorem fence_isRequest {cmd : FenceCmd} (hop : cmd.op % 256 ≠ 2) :
    IsRequest p dev q rq (.fence rq cmd, Call.write 0x6030 0 (toBytes 24 (fenceRec cmd))) := isRequest_write (if_neg hop)

/-- A record of JOB_TABLE is a record of 32 bytes. -/
theorem jobWrite_isRequest {c : Instr} (r : JobRec) (hc : exec c ⟨p, dev, q⟩ = jobWrite rq r ⟨p, dev, q⟩) :
    IsRequest p dev q rq (c, recordCall 0x6002 r.idx (toBytes 32 (jobImage r))) :=
  isRequest_serve (fun _ _ => hasAnswer_some ..) hc

theorem moreWriteRequests_isRequest (a b c : Nat) (data : List Byte) (recs : List Nat) (job : JobRec) (cmd : FenceCmd) :
    ∀ x, moreWriteRequests rq a b c data recs job cmd x → IsRequest p dev q rq x := by
  rintro x (hx | ⟨hop, rfl⟩)
  case inr => exact fence_isRequest p dev q rq hop
  case inl =>
    revert x
    simp only [List.forall_mem_cons]
    exact ⟨isRequest_write rfl, isRequest_write rfl, isRequest_write rfl, isRequest_write rfl, isRequest_write rfl, isRequest_write rfl,
      isRequest_write rfl, isRequest_serve (fun _ _ => hasAnswer_some ..) rfl, isRequest_write rfl,
      jobWrite_isRequest p dev q rq { job with valid := true } rfl, jobWrite_isRequest p dev q rq { job with valid := false } rfl,
      jobWrite_isRequest p dev q rq { job with valid := true } rfl, isRequest_serve (fun _ _ => hasAnswer_some ..) rfl,
      isRequest_write rfl, isRequest_write rfl, isRequest_write rfl, isRequest_write rfl, isRequest_write rfl,
      isRequest_serve (fun _ _ => hasAnswer_some ..) rfl, isRequest_write rfl, isRequest_write rfl, isRequest_write rfl,
      isRequest_serve (fun _ _ => hasAnswer_some ..) rfl, isRequest_serve (fun _ _ => hasAnswer_some ..) rfl,
      isRequest_serve (fun _ _ => hasAnswer_some ..) rfl, isRequest_serve (fun _ _ => hasAnswer_some ..) rfl, List.forall_mem_nil _⟩

/-- BOOT_RESET and ATTEMPT_RESET are served, though their acts may leave no channel to answer on. -/
theorem resetRequests_servedBy : ∀ x, resetRequests rq x → ∃ act, ServedBy p dev q rq x act := by
  simp only [resetRequests, List.forall_mem_cons]
  exact ⟨⟨_, servedBy_serve rfl⟩, ⟨_, servedBy_serve rfl⟩, List.forall_mem_nil _⟩

end

/-- Settles O11: every request is served by one act, so R396 decides of each by its sequence number alone. -/
theorem channelSequence : Obligations.ChannelSequence := by
  intro p dev q rq a b c e f last data ws recs job cmd
  refine ⟨fun x hx d0 hreceive => ?_, fun x hx d0 hreceive => ?_⟩
  · have hrequest : IsRequest p dev q rq x := by
      obtain hx | hx | hx := hx
      · exact readRequests_isRequest p dev q rq a b c e f x hx
      · exact writeRequests_isRequest p dev q rq a b c e f last data ws x hx
      · exact moreWriteRequests_isRequest p dev q rq a b c data recs job cmd x hx
    obtain ⟨act, hserved, hact⟩ := hrequest
    exact ⟨fun hfcm hnew => hserved.executes hact hreceive hfcm (verdict_run hnew), hserved.repeats hreceive⟩
  · obtain ⟨act, hserved⟩ := resetRequests_servedBy p dev q rq x hx
    exact hserved.repeats hreceive

end Sys2Proof.Machine
end

section
/-! SUPPORT. What the service commands leave alone: the groves, the stacks, the shared buffer and the collectives
(spec/18_faults_and_telemetry.md R468, R471, spec/14_pace_and_time.md R385, spec/15_dictionary_protocol.md R404, R405, R410). -/

namespace Sys2Proof.Machine

/-- What a program computes with is the same. -/
def SameWork (d t : Dev) : Prop := t.groves = d.groves ∧ t.mem = d.mem ∧ t.buf = d.buf ∧ t.colls = d.colls

theorem SameWork.refl (d : Dev) : SameWork d d := ⟨rfl, rfl, rfl, rfl⟩

theorem SameWork.trans {d t u : Dev} (h : SameWork d t) (k : SameWork t u) : SameWork d u := by
  obtain ⟨hgroves, hmem, hbuf, hcolls⟩ := h
  obtain ⟨kgroves, kmem, kbuf, kcolls⟩ := k
  exact ⟨kgroves.trans hgroves, kmem.trans hmem, kbuf.trans hbuf, kcolls.trans hcolls⟩

theorem SameWork.ite {d a b : Dev} (c : Prop) [Decidable c] (h : SameWork d a) (k : SameWork d b) :
    SameWork d (if c then a else b) := by
  split
  · exact h
  · exact k

theorem SameWork.foldl {α : Type} (f : Dev → α → Dev) (hf : ∀ d x, SameWork d (f d x)) (l : List α) (d : Dev) :
    SameWork d (l.foldl f d) := by
  induction l generalizing d with
  | nil => exact SameWork.refl d
  | cons x l ih => exact (hf d x).trans (ih _)

theorem OnlyEvents.work {d t : Dev} (h : OnlyEvents d t) : SameWork d t := ⟨h.groves_eq, h.mem_eq, h.buf_eq, h.colls_eq⟩

/-- An effect on the whole device. -/
theorem SameWork.of_lift {s t : State} {f : Part → Dev → Dev} (h : lift s f = .next t) (hf : SameWork s.dev (f s.part s.dev)) :
    SameWork s.dev t.dev := by
  cases h
  exact hf

/-- An effect at a unit, which the part has if there is a next state. -/
theorem SameWork.of_liftAt {s t : State} {b : Bool} {f : Part → Dev → Dev} (h : liftAt s b f = .next t)
    (hf : SameWork s.dev (f s.part s.dev)) : SameWork s.dev t.dev := by
  cases b with
  | false => cases h
  | true => exact SameWork.of_lift h hf

/-! ### Each part of the device besides -/

theorem work_boot (d : Dev) (x : Boot) : SameWork d { d with boot := x } := ⟨rfl, rfl, rfl, rfl⟩
theorem work_pace (d : Dev) (x : Pace) : SameWork d { d with pace := x } := ⟨rfl, rfl, rfl, rfl⟩
theorem work_health (d : Dev) (x : Health) : SameWork d { d with health := x } := ⟨rfl, rfl, rfl, rfl⟩
theorem work_switch (d : Dev) (x : Switch) : SameWork d { d with sw := x } := ⟨rfl, rfl, rfl, rfl⟩
theorem work_measured (d : Dev) (x : Health) (m : Tbl Nat) : SameWork d { d with health := x, marks := m } := ⟨rfl, rfl, rfl, rfl⟩
theorem work_setChan (d : Dev) (c : Nat) (x : Chan) : SameWork d (d.setChan c x) := ⟨rfl, rfl, rfl, rfl⟩

theorem work_setUnlocked (d : Dev) (c : Nat) (b : Bool) : SameWork d (setUnlocked d c b) :=
  (work_setChan ..).trans (onlyEvents_emitLevel ..).work

theorem work_rearm (d : Dev) (c idx sub : Nat) : SameWork d (rearm d c idx sub) := by
  unfold rearm
  split
  · exact SameWork.ite _ (work_setUnlocked ..) (SameWork.refl d)
  · exact SameWork.refl d

theorem work_dropAsm (d : Dev) (c : Nat) : SameWork d (dropAsm d c) := by
  unfold dropAsm
  split
  · exact SameWork.refl d
  · exact ((work_setChan ..).trans (onlyEvents_inc ..).work).trans (work_rearm ..)

/-! ### Paths, throttle and links -/

theorem work_writeReady (d : Dev) (k : Nat) (b : Bool) : SameWork d (writeReady d k b) :=
  (work_boot d _).trans (onlyEvents_emitLevel ..).work

theorem work_setReady (d : Dev) (k : Nat) (b : Bool) : SameWork d (setReady d k b) :=
  SameWork.ite _ (work_writeReady ..) (work_boot ..)

theorem work_releaseReady (d : Dev) : SameWork d (releaseReady d) :=
  (SameWork.foldl _ (fun d _ => SameWork.ite _ (work_writeReady ..) (SameWork.refl d)) (List.range 32) d).trans (work_boot ..)

/-- A path that becomes ready sends BOOT_OK before what it held (R445). -/
theorem work_raisePath (d : Dev) (k : Nat) : SameWork d (raisePath d k) :=
  (work_setReady d k true).trans (SameWork.ite _ (SameWork.refl _)
    (((onlyEvents_tail ..).work.trans (work_boot ..)).trans (work_releaseReady _)))

theorem work_pcieDown (d : Dev) : SameWork d (pcieDown d) :=
  SameWork.trans (t := { d with boot := { d.boot with pcieUp := false }, evt := { d.evt with masks := 3, pend := 0 } }) ⟨rfl, rfl, rfl, rfl⟩
    (work_setReady ..)

theorem work_setThrottle (d : Dev) (cause hot short : Nat) : SameWork d (setThrottle d cause hot short) :=
  (work_health d _).trans (SameWork.ite _ (SameWork.refl _) ((onlyEvents_inc ..).trans (onlyEvents_emit ..)).work)

/-- A lost phase is marked, counted and reported (R464). -/
theorem work_phaseLost (d : Dev) (x : Health) (code status prio idx sub data i sb r k : Nat) (rise : Bool) :
    SameWork d (emit (({ d with health := x } : Dev).inc i sb r k) code status prio rise idx sub data) :=
  (work_health d x).trans ((onlyEvents_inc ..).trans (onlyEvents_emit ..)).work

theorem work_draw (d : Dev) : SameWork d d.draw.2 := ⟨rfl, rfl, rfl, rfl⟩

theorem work_linkCtr (d : Dev) (n k m : Nat) : SameWork d (linkCtr d n k m) := ⟨rfl, rfl, rfl, rfl⟩

/-! ### Measurement -/

theorem work_crossEvent (d : Dev) (cause unit value thresh c : Nat) : SameWork d (crossEvent d cause unit value thresh c) :=
  (onlyEvents_emit ..).work

theorem work_noteMargin (d : Dev) (cause unit value thresh : Nat) (bad good : Bool) :
    SameWork d (noteMargin d cause unit value thresh bad good) :=
  SameWork.ite _ (SameWork.ite _ ((work_health ..).trans (work_crossEvent ..)) (SameWork.refl d))
    (SameWork.ite _ ((work_health ..).trans (work_crossEvent ..)) (SameWork.refl d))

theorem work_takeLane (p : Part) (d : Dev) (m : LaneMeas) : SameWork d (takeLane p d m) :=
  SameWork.ite _ (SameWork.refl d)
    ((((work_measured ..).trans (work_noteMargin ..)).trans (work_noteMargin ..)).trans (work_noteMargin ..))

theorem work_takeRail (d : Dev) (x : (Nat × Nat) × Nat) : SameWork d (takeRail d x) := (work_health ..).trans (work_noteMargin ..)

theorem work_takeSite (first : Bool) (d : Dev) (x : Int × Nat) : SameWork d (takeSite first d x) :=
  (work_health ..).trans (work_noteMargin ..)

/-! ### The pace unit's output and the wall clock -/

theorem work_putWord (d : Dev) (word back : Nat) (framed : Bool) : SameWork d (putWord d word back framed) := ⟨rfl, rfl, rfl, rfl⟩

theorem work_sendCal (d : Dev) : SameWork d (sendCal d) := SameWork.ite _ (work_pace ..) ⟨rfl, rfl, rfl, rfl⟩

theorem work_disciplineWall (d : Dev) (v : Int) (x : Ptp) : SameWork d (disciplineWall d v x) :=
  ((work_pace d _).trans (work_pace _ _)).trans (onlyEvents_emitLevel ..).work

/-! ### The protocol of attestation -/

theorem work_spdmReply (d : Dev) (peer : Nat) (msg : List Byte) : SameWork d (spdmReply d peer msg) := (onlyEvents_send ..).work

theorem work_spdmKept (d : Dev) (peer : Nat) (x : Spdm) (msg : List Byte) : SameWork d (spdmReply (d.setSpdm peer x) peer msg) :=
  (work_boot ..).trans (work_spdmReply ..)

theorem work_spdmAnswer (d : Dev) (peer : Nat) (x : Spdm) (req rsp : List Byte) : SameWork d (spdmAnswer d peer x req rsp) :=
  SameWork.ite _ (work_spdmKept ..) (work_spdmKept ..)

theorem SameWork.of_spdmServe {s t : State} {peer : Nat} {f : Dev → Spdm → Dev} (h : spdmServe peer s f = .next t)
    (hf : SameWork s.dev (f s.dev (s.dev.spdm peer))) : SameWork s.dev t.dev :=
  SameWork.of_lift h (SameWork.ite _ (SameWork.refl _) (SameWork.ite _ (work_spdmReply ..) hf))

theorem spdmRun_work {s t : State} {peer : Nat} {msg : List Byte} {q : SpdmReq} (h : spdmRun peer msg q s = .next t) :
    SameWork s.dev t.dev :=
  SameWork.of_spdmServe h (by
    split
    · exact work_spdmReply ..
    · exact work_spdmAnswer ..)

end Sys2Proof.Machine
end

section
/-! SUPPORT. The service commands' frame, command by command. -/

namespace Sys2Proof.Machine

variable {s t : State}

theorem execPcieLinkUp_work (h : execPcieLinkUp s = .next t) : SameWork s.dev t.dev :=
  SameWork.of_lift h (SameWork.ite _
    ((work_boot s.dev _).trans (SameWork.ite _ (work_raisePath ..) (SameWork.refl _))) (SameWork.refl _))

theorem execPcieLinkDown_work (h : execPcieLinkDown s = .next t) : SameWork s.dev t.dev := SameWork.of_lift h (work_pcieDown _)

theorem execPlcaJoin_work (h : execPlcaJoin s = .next t) : SameWork s.dev t.dev :=
  SameWork.of_lift h (SameWork.ite _
    ((SameWork.ite _ (onlyEvents_send ..).work (SameWork.refl _)).trans (work_raisePath ..)) (SameWork.refl _))

theorem execFieldNetworkLinkDown_work (h : execFieldNetworkLinkDown s = .next t) : SameWork s.dev t.dev :=
  SameWork.of_lift h ((work_pace ..).trans (work_setReady ..))

theorem execThrottleStep_work (h : execThrottleStep s = .next t) : SameWork s.dev t.dev :=
  SameWork.of_lift h (SameWork.ite _ (SameWork.refl _)
    (SameWork.ite _ (work_setThrottle ..) (SameWork.ite _ (work_setThrottle ..) (SameWork.refl _))))

theorem execPhaseFailed_work {rail phase : Nat} (h : execPhaseFailed rail phase s = .next t) : SameWork s.dev t.dev :=
  SameWork.of_liftAt h (SameWork.ite _ (SameWork.refl _)
    (SameWork.ite _ ((work_phaseLost ..).trans ((work_draw _).trans (work_setThrottle ..))) (work_phaseLost ..)))

theorem execPerstAssert_work (h : execPerstAssert s = .next t) : SameWork s.dev t.dev :=
  SameWork.of_lift h ((work_boot ..).trans (work_pcieDown ..))

theorem execPerstRelease_work (h : execPerstRelease s = .next t) : SameWork s.dev t.dev := SameWork.of_lift h (work_boot ..)

theorem execBar0BusySlotWrite_work {slot : Nat} (h : execBar0BusySlotWrite slot s = .next t) : SameWork s.dev t.dev :=
  SameWork.of_liftAt h (SameWork.ite _ (onlyEvents_inc ..).work (SameWork.refl _))

theorem execEvqNoticeDelayed_work (h : execEvqNoticeDelayed s = .next t) : SameWork s.dev t.dev :=
  SameWork.of_lift h (SameWork.ite _ ((onlyEvents_evt ..).trans (onlyEvents_notice _)).work (onlyEvents_evt ..).work)

theorem execMalformedDatagram_work (h : execMalformedDatagram s = .next t) : SameWork s.dev t.dev :=
  SameWork.of_lift h (SameWork.ite _ (onlyEvents_inc ..).work (SameWork.refl _))

theorem execUnlockTimeout_work {path : Path} (h : execUnlockTimeout path s = .next t) : SameWork s.dev t.dev :=
  SameWork.of_lift h (by
    dsimp only
    split
    · exact SameWork.refl _
    · exact SameWork.ite _ (SameWork.refl _)
        ((SameWork.ite _ (work_dropAsm ..) (SameWork.refl _)).trans (work_setUnlocked ..)))

/-- A management block counts, or its value is kept and its margin noted (R317, R467). -/
theorem execMgmt_work {n w : Nat} (h : execMgmt n w s = .next t) : SameWork s.dev t.dev :=
  SameWork.of_liftAt h (SameWork.ite _ (SameWork.refl _) (SameWork.ite _ (work_linkCtr ..)
    (SameWork.ite _ (onlyEvents_inc ..).work
      (SameWork.ite _ ((work_measured ..).trans (work_noteMargin ..)) (work_measured ..)))))

theorem execLinkFlightMeasure_work {n k : Nat} (h : execLinkFlightMeasure n k s = .next t) : SameWork s.dev t.dev :=
  SameWork.of_liftAt h (SameWork.ite _ (work_switch ..) (SameWork.refl _))

theorem execPfcXoffRepeat_work {n k : Nat} (h : execPfcXoffRepeat n k s = .next t) : SameWork s.dev t.dev :=
  SameWork.of_liftAt h (SameWork.ite _ ((onlyEvents_send ..).work.trans (work_linkCtr ..)) (SameWork.refl _))

theorem execEthMacAgeExpiry_work {vlan mac : Nat} (h : execEthMacAgeExpiry vlan mac s = .next t) : SameWork s.dev t.dev :=
  SameWork.of_lift h (work_switch ..)

theorem execAgeMarkUpdate_work {n k : Nat} (h : execAgeMarkUpdate n k s = .next t) : SameWork s.dev t.dev :=
  SameWork.of_liftAt h (SameWork.ite _ (SameWork.refl _) (work_switch ..))

theorem execPaceVisible_work (h : execPaceVisible s = .next t) : SameWork s.dev t.dev :=
  SameWork.of_lift h (SameWork.ite _ (work_pace ..) (SameWork.refl _))

theorem execPaceWordLaunch_work (h : execPaceWordLaunch s = .next t) : SameWork s.dev t.dev :=
  SameWork.of_lift h (by
    have hcal : SameWork s.dev (if s.dev.pace.calWaits then sendCal s.dev else s.dev) :=
      SameWork.ite _ (work_sendCal _) (SameWork.refl _)
    refine SameWork.ite _ (SameWork.refl _) ?_
    split
    · exact hcal
    · exact SameWork.ite _ hcal ((work_pace ..).trans (work_putWord ..)))

theorem execPtpMessage_work {n : Nat} {pm : PtpMsg} (h : execPtpMessage n pm s = .next t) : SameWork s.dev t.dev :=
  SameWork.of_lift h (by
    refine SameWork.ite _ (SameWork.refl _) ?_
    cases pm with
    | sync origin => exact (work_disciplineWall ..).trans (onlyEvents_send ..).work
    | delayResp seq receipt =>
      dsimp only
      split
      · exact SameWork.refl _
      · exact SameWork.ite _ (SameWork.refl _) (work_disciplineWall ..))

theorem execMarginMeasure_work {ms : List LaneMeas} (h : execMarginMeasure ms s = .next t) : SameWork s.dev t.dev :=
  SameWork.of_lift h (SameWork.ite _ (SameWork.refl _) (SameWork.foldl _ (work_takeLane s.part) ms s.dev))

theorem execSamplerTick_work {input : List Nat} {rails : List (Nat × Nat)} {slacks : List Int}
    (h : execSamplerTick input rails slacks s = .next t) : SameWork s.dev t.dev :=
  SameWork.of_lift h (SameWork.ite _ (SameWork.refl _)
    (((work_measured s.dev _ _).trans (SameWork.foldl _ work_takeRail _ _)).trans (SameWork.foldl _ (work_takeSite _) _ _)))

theorem execSnapshotCopied_work (h : execSnapshotCopied s = .next t) : SameWork s.dev t.dev :=
  SameWork.of_lift h (by
    dsimp only
    split
    · exact SameWork.refl _
    · exact SameWork.ite _ (SameWork.refl _) (work_health ..))

theorem execGetVersion_work {peer : Nat} {msg : List Byte} (h : execGetVersion peer msg s = .next t) : SameWork s.dev t.dev :=
  spdmRun_work h

/-- A part of a request waits; the last executes the whole of it (R450). -/
theorem execChunkSend_work {peer : Nat} {last : Bool} {msg : List Byte} (h : execChunkSend peer last msg s = .next t) :
    SameWork s.dev t.dev :=
  SameWork.of_spdmServe h (by
    refine SameWork.ite _ (work_spdmKept ..) ?_
    split
    · exact work_spdmKept ..
    · exact SameWork.ite _ (work_spdmKept ..) (work_spdmKept ..))

theorem execPqCert_work {peer : Nat} {msg : List Byte} (h : execPqCert peer msg s = .next t) : SameWork s.dev t.dev :=
  spdmRun_work h

theorem execJtagInstructionLoad_work {n : Nat} (h : execJtagInstructionLoad n s = .next t) : SameWork s.dev t.dev :=
  SameWork.of_lift h (SameWork.ite _ (work_boot ..) (SameWork.refl _))

/-- Settles O58, command by command. -/
theorem serviceCommandsFrame : Obligations.ServiceCommandsFrame := by
  intro rail phase peer slot n w k path ms input rails slacks pm msg last s t
  simp only [List.forall_mem_cons]
  exact ⟨execPcieLinkUp_work, execPcieLinkDown_work, execPlcaJoin_work, execFieldNetworkLinkDown_work,
    execThrottleStep_work, execPhaseFailed_work, execPerstAssert_work, execPerstRelease_work,
    execBar0BusySlotWrite_work, execEvqNoticeDelayed_work, execMalformedDatagram_work, execUnlockTimeout_work, execMgmt_work,
    execLinkFlightMeasure_work, execPfcXoffRepeat_work, execEthMacAgeExpiry_work, execAgeMarkUpdate_work,
    execPaceVisible_work, execPaceWordLaunch_work, execPtpMessage_work, execMarginMeasure_work, execSamplerTick_work,
    execSnapshotCopied_work, execGetVersion_work, execChunkSend_work, execPqCert_work, execJtagInstructionLoad_work, List.forall_mem_nil _⟩

end Sys2Proof.Machine
end

section
/-! SUPPORT. What changes no object of a chapter: only counters below 0x1031 move as events are written and requests are taken and answered
(spec/15_dictionary_protocol.md R389, R404, R409-R411). -/

namespace Sys2Proof.Machine

/-- Every object above the protocol's counters reads the same. -/
structure SameObjects (d t : Dev) : Prop where
  rd_eq : ∀ i s r, 0x1030 < i → t.rd i s r = d.rd i s r

theorem SameObjects.refl (d : Dev) : SameObjects d d := ⟨fun _ _ _ _ => rfl⟩

theorem SameObjects.trans {d t u : Dev} (h : SameObjects d t) (k : SameObjects t u) : SameObjects d u :=
  ⟨fun i s r hi => (k.rd_eq i s r hi).trans (h.rd_eq i s r hi)⟩

theorem SameObjects.ite {d a b : Dev} (c : Prop) [Decidable c] (h : SameObjects d a) (k : SameObjects d b) :
    SameObjects d (if c then a else b) := by
  split
  · exact h
  · exact k

theorem SameObjects.foldl {α : Type} (f : Dev → α → Dev) (hf : ∀ d x, SameObjects d (f d x)) (l : List α) (d : Dev) :
    SameObjects d (l.foldl f d) := by
  induction l generalizing d with
  | nil => exact SameObjects.refl d
  | cons x l ih => exact (hf d x).trans (ih _)

theorem SameObjects.of_dict {d t : Dev} (h : t.dict = d.dict) : SameObjects d t :=
  ⟨fun i s r _ => by rw [Dev.rd, Dev.rd, Dev.rdD, Dev.rdD, h]⟩

theorem objects_evt (d : Dev) (e : Events) : SameObjects d { d with evt := e } := .of_dict rfl
theorem objects_setChan (d : Dev) (c : Nat) (x : Chan) : SameObjects d (d.setChan c x) := .of_dict rfl
theorem objects_setSlot (d : Dev) (n : Fin 8) (x : Slot) : SameObjects d (d.setSlot n x) := .of_dict rfl
theorem objects_peers (d : Dev) (x : List (Nat × Nat)) : SameObjects d { d with peers := x } := .of_dict rfl

/-! ### Keys -/

/-- A write leaves every other key alone, whatever default the reader fills in. -/
theorem Tbl.get_set_other_default {α : Type} [DecidableEq α] (t : Tbl α) (d e : α) (x y : Nat) (v : α) (h : y ≠ x) :
    Tbl.get (Tbl.set t d x v) e y = Tbl.get t e y := by
  unfold Tbl.set Tbl.get
  split
  · rw [Tbl.find?_erase_other _ _ _ h]
  · rw [Tbl.find?_put_other _ _ _ _ h]

theorem Dev.rd_wrD_other {d : Dev} {k i s r v idx sub rec : Nat} (h : objKey i s r ≠ objKey idx sub rec) :
    (d.wrD k idx sub rec v).rd i s r = d.rd i s r := Tbl.get_set_other_default _ _ _ _ _ _ h

/-- A record reads as it was written. -/
@[simp] theorem Dev.rd_wr_same (d : Dev) (idx sub rec v : Nat) : (d.wr idx sub rec v).rd idx sub rec = v := Dev.rdD_wrD ..

/-- The counters of the protocol lie below every object of a chapter. -/
theorem objKey_counter_lt {idx sub rec i s r : Nat} (hidx : idx ≤ 0x1030) (hsub : sub < 256) (hrec : rec < 1048576) (hi : 0x1030 < i) :
    objKey idx sub rec < objKey i s r := by
  unfold objKey
  omega

theorem objects_inc {idx sub rec : Nat} (d : Dev) (k : Nat) (hidx : idx ≤ 0x1030 := by decide) (hsub : sub < 256 := by decide)
    (hrec : rec < 1048576 := by decide) : SameObjects d (d.inc idx sub rec k) :=
  ⟨fun _ _ _ hi => Dev.rd_wrD_other (objKey_counter_lt hidx hsub hrec hi).ne'⟩

/-! ### Events -/

theorem raiseMsix_dict (d : Dev) (v : Nat) : (raiseMsix d v).dict = d.dict := by
  unfold raiseMsix
  split <;> rfl

theorem notice_dict (d : Dev) : (notice d).dict = d.dict := by
  unfold notice
  split
  · rfl
  · split <;> rfl

theorem placeEvents_dict (n : Nat) (d : Dev) : (placeEvents n d).dict = d.dict := by
  induction n generalizing d with
  | zero => rfl
  | succ n ih =>
    unfold placeEvents
    dsimp only
    split
    · rfl
    · split
      · rfl
      · refine (ih _).trans ?_
        split
        · exact raiseMsix_dict ..
        · rfl

theorem objects_emitRaw (d : Dev) (code status prio : Nat) (rise : Bool) (idx sub data : Nat) :
    SameObjects d (emitRaw d code status prio rise idx sub data) := by
  have tail (c : Prop) [Decidable c] (x : Dev) (b : Nat) : (if c then queueTail x 1 b else x).dict = x.dict := by split <;> rfl
  unfold emitRaw
  refine SameObjects.ite _ (SameObjects.of_dict rfl) (SameObjects.ite _ ?_ (SameObjects.ite _ ?_ ?_))
  · exact (SameObjects.of_dict (tail _ d _)).trans ((objects_evt _ _).trans (objects_inc (idx := 0x1021) (sub := 3) (rec := 0) _ 1))
  · exact SameObjects.of_dict ((notice_dict _).trans ((placeEvents_dict ..).trans (tail ..)))
  · exact SameObjects.of_dict ((placeEvents_dict ..).trans (tail ..))

theorem objects_settleFull (d : Dev) : SameObjects d (settleFull d) :=
  SameObjects.ite _ ((objects_evt d _).trans (objects_emitRaw ..))
    (SameObjects.ite _ ((objects_evt d _).trans (objects_emitRaw ..)) (SameObjects.refl d))

theorem objects_settleOver (d : Dev) (k : Nat) : SameObjects d (settleOver d k) :=
  SameObjects.ite _ ((objects_evt d _).trans (objects_emitRaw ..))
    (SameObjects.ite _ ((objects_evt d _).trans (objects_emitRaw ..)) (SameObjects.refl d))

theorem objects_emit (d : Dev) (code status prio : Nat) (rise : Bool) (idx sub data : Nat) :
    SameObjects d (emit d code status prio rise idx sub data) :=
  (((objects_emitRaw ..).trans (objects_settleFull _)).trans (objects_settleFull _)).trans (objects_settleOver ..)

theorem objects_emitLevel (d : Dev) (code idx sub rec new old : Nat) : SameObjects d (emitLevel d code idx sub rec new old) :=
  SameObjects.ite _ (SameObjects.refl d) (objects_emit ..)

/-! ### Requests -/

theorem objects_setUnlocked (d : Dev) (c : Nat) (b : Bool) : SameObjects d (setUnlocked d c b) :=
  (objects_setChan ..).trans (objects_emitLevel ..)

theorem objects_rearm (d : Dev) (c idx sub : Nat) : SameObjects d (rearm d c idx sub) := by
  unfold rearm
  split
  · exact SameObjects.ite _ (objects_setUnlocked ..) (SameObjects.refl d)
  · exact SameObjects.refl d

theorem objects_respond (d : Dev) (rq : Rq) (r : Rsp) : SameObjects d (respond d rq r) := by
  unfold respond
  split
  · exact (objects_setSlot ..).trans (.of_dict (raiseMsix_dict ..))
  · exact .of_dict (Dev.send_dict ..)

theorem objects_answered (c : Nat) (rq : Rq) (k : Call) (d : Dev) (r : Rsp) : SameObjects d (answered c rq k d r) :=
  (objects_setChan ..).trans (objects_respond ..)

theorem objects_written (c : Nat) (rq : Rq) (k : Call) (d : Dev) (r : Rsp) : SameObjects d (written c rq k d r) :=
  (objects_rearm ..).trans (objects_answered ..)

theorem objects_takeReq (d : Dev) (rq : Rq) (k : Call) : SameObjects d (takeReq d rq k) := by
  unfold takeReq
  split
  · exact (objects_setSlot ..).trans (objects_inc (idx := 0x1030) (sub := 0) (rec := 0) _ 1)
  · exact objects_inc (idx := 0x1030) (sub := 0) (rec := 1) d 1

/-- A request that is received is taken (R399, R405). -/
theorem receive_ok {d d0 : Dev} {rq : Rq} {k : Call} (h : receive d rq k = .ok d0) : d0 = takeReq d rq k := by
  unfold receive at h
  split at h
  · cases h
  · split at h
    · cases h
    · split at h
      · split at h
        · split at h
          · exact (Except.ok.inj h).symm
          · cases h
        · exact (Except.ok.inj h).symm
      · split at h <;> cases h

theorem objects_enterChan (d : Dev) (path : Path) : SameObjects d (enterChan d path).2 := by
  unfold enterChan
  split
  · exact SameObjects.refl d
  · unfold enterPeer
    split
    · exact objects_peers ..
    · split
      · exact objects_peers ..
      · split
        · exact SameObjects.refl d
        · exact ((objects_setUnlocked ..).trans (objects_peers ..)).trans (objects_setChan ..)

theorem objects_taken {d d1 : Dev} {rq : Rq} {k : Call} {c : Nat} (h : taken d rq k = some (c, d1)) : SameObjects d d1 := by
  obtain ⟨d0, hreceive, henter, -, -⟩ := taken_some h
  have hchan := objects_enterChan d0 rq.path
  rw [henter] at hchan
  exact (receive_ok hreceive ▸ objects_takeReq d rq k).trans hchan

/-- What a write begins on has been taken, with no assembly of its channel left. -/
theorem writeTaken_some {d d1 : Dev} {rq : Rq} {k : Call} {c : Nat} (h : writeTaken d rq k = some (c, d1)) :
    ∃ d0, taken d rq k = some (c, d0) ∧ d1 = d0.setChan c { d0.chan c with asm := none } := by
  unfold writeTaken at h
  split at h
  next c0 d0 htaken =>
    dsimp only at h
    split at h
    · obtain ⟨rfl, rfl⟩ := Prod.mk.inj (Option.some.inj h)
      exact ⟨d0, htaken, rfl⟩
    · cases h
  next => cases h

theorem objects_writeTaken {d d1 : Dev} {rq : Rq} {k : Call} {c : Nat} (h : writeTaken d rq k = some (c, d1)) : SameObjects d d1 := by
  obtain ⟨d0, htaken, rfl⟩ := writeTaken_some h
  exact (objects_taken htaken).trans (objects_setChan ..)

@[simp] theorem answered_rsp (c : Nat) (rq : Rq) (k : Call) (d : Dev) (r : Rsp) : ((answered c rq k d r).chan c).rsp = r := by
  rw [answered, respond_chan, Dev.chan_setChan]

@[simp] theorem written_rsp (c : Nat) (rq : Rq) (k : Call) (d : Dev) (r : Rsp) : ((written c rq k d r).chan c).rsp = r := answered_rsp ..

end Sys2Proof.Machine
end

section
/-! SUPPORT. A write that a gate stops, or that the object refuses, changes no object (spec/15_dictionary_protocol.md R390, R397, R401). -/

namespace Sys2Proof.Machine

/-- A gate does not read what its channel assembles. -/
theorem writeGate_noAsm (d : Dev) (c : Nat) (path : Path) (k : Call) :
    writeGate (d.setChan c { d.chan c with asm := none }) c path k = writeGate d c path k := by
  unfold writeGate
  rw [Dev.chan_setChan]
  rfl

/-- A write that a gate stops (R390, R401). -/
theorem runWrite_gated {d : Dev} {c st : Nat} {path : Path} {k : Call} (act : Act) (hnone : (d.chan c).asm = none)
    (hsent : tooLong path k.bytes.length = false) (hlen : k.bytes.length ≤ 294912) (hgate : writeGate d c path k = some st) :
    runWrite d c path k act = (rearm (d.setChan c { d.chan c with asm := none }) c k.idx k.sub, some (Rsp.st st)) := by
  have hfits : ¬ 294912 < k.bytes.length := by omega
  simp only [runWrite, hnone, dropAsm_none d c hnone, Bool.false_eq_true, if_false, Bool.false_and, List.length_nil, Nat.sub_zero, hsent,
    hfits, decide_false, Bool.or_self, writeGate_noAsm, hgate]

theorem serve_gated {d d1 : Dev} {rq : Rq} {k : Call} {c st : Nat} (act : Act) (hop : k.op = 2) (hlast : k.last = true)
    (htaken : taken d rq k = some (c, d1)) (hsent : tooLong rq.path k.bytes.length = false) (hlen : k.bytes.length ≤ 294912)
    (hgate : writeGate d1 c rq.path k = some st) :
    serve d rq k act = answered c rq k (rearm (d1.setChan c { d1.chan c with asm := none }) c k.idx k.sub) (Rsp.st st) := by
  obtain ⟨hnone, hserve⟩ := serve_of_taken act htaken
  rw [hserve, if_neg (by simp [hop]), if_pos hlast, runWrite_gated act hnone hsent hlen hgate]
  rfl

/-- Records that are refused leave the device as it was. -/
theorem recsDone_refused {d : Dev} {single : Bool} {x : Except (Nat × Nat) Dev} (h : (recsDone d single x).2.status ≠ stOK) :
    (recsDone d single x).1 = d := by
  cases x with
  | ok t => exact absurd rfl h
  | error e => rfl

theorem grantRule_refused {p : Part} {first : Nat} {recs : List Nat} {d : Dev} (h : (grantRule p first recs d).2.status ≠ stOK) :
    (grantRule p first recs d).1 = d := by
  unfold grantRule at h ⊢
  split
  · rfl
  · rename_i hfits
    rw [if_neg hfits] at h
    split
    next t hput =>
      rw [hput] at h
      exact absurd rfl h
    next => rfl

/-- An object that refuses a write is as it was (R397). -/
theorem dictWriteRule_refused {p : Part} {idx sub off : Nat} {data : List Byte} {d : Dev}
    (h : (dictWriteRule p idx sub off data d).2.status ≠ stOK) : (dictWriteRule p idx sub off data d).1 = d := by
  unfold dictWriteRule at h ⊢
  split
  · rfl
  · rename_i o hobj
    rw [hobj] at h
    dsimp only at h ⊢
    split
    · rfl
    · rename_i hacc
      rw [if_neg hacc] at h
      split
      · rename_i hty
        rw [if_pos hty] at h
        split
        · rfl
        · rename_i hrange
          rw [if_neg hrange] at h
          split
          · rename_i hgrant
            rw [if_pos hgrant] at h
            exact grantRule_refused h
          · rename_i hgrant
            rw [if_neg hgrant] at h
            exact recsDone_refused h
      · rename_i hty
        rw [if_neg hty] at h
        split
        · rfl
        · rename_i hvalue
          rw [if_neg hvalue] at h
          exact recsDone_refused h

end Sys2Proof.Machine
end

section
/-! SUPPORT. An accepted write is held as its object keeps it (spec/15_dictionary_protocol.md R389, R397): what a write moves besides its record
changes no object but GUARANTEE_OVERCOMMITTED. -/

namespace Sys2Proof.Machine

/-! ### What follows a write -/

theorem objects_setLink (d : Dev) (n : Nat) (x : Link) : SameObjects d (d.setLink n x) := .of_dict rfl
theorem objects_setEq (d : Dev) (n q : Nat) (x : EQueue) : SameObjects d (d.setEq n q x) := .of_dict rfl
theorem objects_setSched (d : Dev) (n : Nat) (x : Sched) : SameObjects d (d.setSched n x) := .of_dict rfl
theorem objects_setGrove (d : Dev) (g : Nat) (x : Grove) : SameObjects d (d.setGrove g x) := .of_dict rfl
theorem objects_switch (d : Dev) (x : Switch) : SameObjects d { d with sw := x } := .of_dict rfl
theorem objects_boot (d : Dev) (x : Boot) : SameObjects d { d with boot := x } := .of_dict rfl
theorem objects_send (d : Dev) (o : Out) : SameObjects d (d.send o) := .of_dict rfl

theorem objects_clearTags (d : Dev) (n : Nat) : SameObjects d (clearTags d n) :=
  (objects_switch d _).trans (SameObjects.foldl _ (fun _ _ => objects_setEq ..) _ _)

theorem objects_enterMode (old d : Dev) (n : Nat) : SameObjects d (enterMode old d n) :=
  SameObjects.ite _ (SameObjects.refl d) (objects_clearTags d n)

theorem objects_setReady (d : Dev) (k : Nat) (b : Bool) : SameObjects d (setReady d k b) :=
  SameObjects.ite _ ((objects_boot d _).trans (objects_emitLevel ..)) (objects_boot ..)

theorem objects_noteElig (n : Nat) (wake : Option Nat) (d : Dev) (q : Nat) : SameObjects d (noteElig n wake d q) :=
  SameObjects.ite _ (SameObjects.refl d) (objects_setEq ..)

theorem objects_settleElig (d : Dev) (n : Nat) : SameObjects d (settleElig d n) := by
  have hnoted (wake : Option Nat) := SameObjects.foldl (noteElig n wake) (objects_noteElig n wake) (List.range 16) d
  unfold settleElig
  dsimp only
  split
  · exact SameObjects.ite _ (hnoted _) ((hnoted _).trans (objects_setSched ..))
  · exact hnoted _

theorem objects_returnCredits (d : Dev) (arr vc fl sh : Nat) : SameObjects d (returnCredits d arr vc fl sh) := by
  have sent (c : Prop) [Decidable c] (d : Dev) (o : Out) : SameObjects d (if c then d else d.send o) :=
    SameObjects.ite _ (SameObjects.refl d) (objects_send ..)
  unfold returnCredits
  exact ((objects_setLink ..).trans (sent _ _ _)).trans (sent _ _ _)

theorem objects_sendPfc (d : Dev) (arr prio time : Nat) : SameObjects d (sendPfc d arr prio time) :=
  (objects_send ..).trans (objects_setLink ..)

theorem objects_releaseKept (d : Dev) (arr key : Nat) (k : List Nat) : SameObjects d (releaseKept d arr key k) :=
  SameObjects.ite _ ((objects_setLink d arr _).trans (objects_returnCredits ..))
    (((objects_setLink d arr _).trans (objects_setLink ..)).trans (objects_sendPfc ..))

theorem objects_settleWithheld (d : Dev) : SameObjects d (settleWithheld d) := by
  refine SameObjects.foldl _ (fun d c => SameObjects.ite _ ?_ (SameObjects.refl d)) _ _
  exact SameObjects.foldl _ (fun d arr => SameObjects.foldl _ (fun d x => SameObjects.ite _ (objects_releaseKept ..) (objects_setLink ..)) _ _) _ _

theorem objects_bundleRecs (p : Part) (d : Dev) (e : Nat) (recs : List Nat) : SameObjects d (bundleRecs p d e recs) :=
  SameObjects.foldl _ (fun d _ => SameObjects.foldl _ (fun _ _ => objects_emit ..) _ d) _ d

/-- What a write moves once its records are in place, but for the frames that wait for their ports. -/
theorem objects_afterWrite {p : Part} {idx : Nat} (sub first n : Nat) (d : Dev) (hidx : idx ∉ [0x6003, 0x6004, 0x6020]) :
    SameObjects d (afterWrite p idx sub first n d) := by
  unfold afterWrite
  dsimp only
  split
  · exact SameObjects.foldl _ objects_settleElig _ d
  · exact objects_settleWithheld d
  · exact objects_settleWithheld d
  · exact objects_bundleRecs ..
  · simp at hidx
  · simp at hidx
  · exact SameObjects.refl d

/-- A change of commitments is seen in GUARANTEE_OVERCOMMITTED alone (R251). -/
theorem settleCommit_rd {p : Part} {d : Dev} {i s r : Nat} (hi : 0x1030 < i) (hkey : objKey i s r ≠ objKey 0x2002 1 0) :
    (settleCommit p d).rd i s r = d.rd i s r :=
  ((objects_emitLevel ..).rd_eq i s r hi).trans (Dev.rd_wrD_other hkey)

theorem takeScaleRec_rd (d : Dev) (n v : Nat) : (takeScaleRec d n v).rd 0x4300 1 n = v := Dev.rd_wr_same d 0x4300 1 n v

/-- A record stands as its object keeps it. -/
theorem applyRec_rd {p : Part} {d : Dev} {idx sub rec v : Nat} (hidx : 0x1030 < idx) (hrec : rec < 1048576)
    (hlink : linkScope idx sub = true → p.hasLink rec = true) (hctx : idx = 0x4300 → (d.ctx rec).busy = false) :
    (applyRec p d idx sub rec v).rd idx sub rec = kept d idx sub rec v := by
  have hscope : ¬ (linkScope idx sub && !p.hasLink rec) = true := by
    simpa using hlink
  have held {t : Dev} (h : SameObjects (d.wr idx sub rec (kept d idx sub rec v)) t) : t.rd idx sub rec = kept d idx sub rec v :=
    (h.rd_eq idx sub rec hidx).trans (Dev.rd_wr_same ..)
  have committed {t : Dev} (h : SameObjects (d.wr idx sub rec (kept d idx sub rec v)) t)
      (hkey : objKey idx sub rec ≠ objKey 0x2002 1 0) : (settleCommit p t).rd idx sub rec = kept d idx sub rec v :=
    (settleCommit_rd hidx hkey).trans (held h)
  unfold applyRec
  rw [if_neg hscope]
  dsimp only
  split
  · rw [if_neg (by simp [hctx rfl])]
    exact takeScaleRec_rd d rec _
  · split
    next hsame => exact hsame.symm
    next => exact held ((SameObjects.ite _ (objects_setGrove ..) (SameObjects.refl _)).trans (objects_setReady ..))
  · exact committed (SameObjects.foldl _ (objects_enterMode d) _ _) (by unfold objKey; omega)
  · exact committed (SameObjects.refl _) (by unfold objKey; omega)
  · exact held (SameObjects.foldl _ (fun _ _ => objects_setEq ..) _ _)
  · exact committed (SameObjects.refl _) (by unfold objKey; omega)
  · exact committed (SameObjects.refl _) (by unfold objKey; omega)
  · exact committed (SameObjects.refl _) (by unfold objKey; omega)
  · exact held (SameObjects.refl _)

end Sys2Proof.Machine
end

section
/-! SUPPORT. What the table says of its writable objects (spec/15_dictionary_protocol.md R388-R390, R394): decided over the table. -/

namespace Sys2Proof.Machine

/-- What the rules of reads and writes need of an object: records of some bytes that a response can carry, few enough for their keys, and
one only where the object is no table. -/
def Obj.sized (o : Obj) : Bool :=
  decide (0 < o.bytes) && decide (o.bytes ≤ 1024) && decide (o.recs < 1048576) && (o.unit == 0 || decide (o.recs * 32 < 1048576))
    && (o.ty == 10 || (o.recs == 1 && o.unit == 0))

/-- Objects of the low indices that are written: EVQ_OWNER and FNET_PLCA_COUNT. -/
def lowWritable : List (Nat × Nat) := [(0x1021, 4), (0x1040, 2)]

theorem objs_writable : objs.all (fun o => o.acc != accRw || (o.sized
    && ((decide (0x1100 ≤ o.idx) && o.idx != 0x1F00) || lowWritable.contains (o.idx, o.sub)))) = true := by
  decide +kernel

/-- A writable object's value is what the dictionary stores, but for the scaling contexts, whose history length is counted. -/
theorem objs_stored (p : Part) (d : Dev) : objs.all (fun o => o.acc != accRw || decide (o.idx < 0x1100) || o.idx == 0x4300
    || (valueFormed p d o.idx o.sub).isNone) = true := by
  simp only [objs, List.all_append, Bool.and_eq_true, and_assoc]
  exact ⟨rfl, rfl, rfl, rfl, rfl, rfl, rfl, rfl, rfl, rfl, rfl, rfl, rfl, rfl, rfl, rfl, rfl⟩

/-- An object that is found stands in the table under its index. -/
theorem findObj_some {idx sub : Nat} {o : Obj} (h : findObj idx sub = some o) : o ∈ objs ∧ o.idx = idx ∧ o.sub = sub := by
  have hkey := List.find?_some h
  rw [Bool.and_eq_true, beq_iff_eq, beq_iff_eq] at hkey
  exact ⟨List.mem_of_find?_eq_some h, hkey.1, hkey.2⟩

section
variable {idx sub : Nat} {o : Obj} (hobj : findObj idx sub = some o) (hacc : o.acc = accRw)
include hobj hacc

theorem sized_of_writable : o.sized = true ∧ ((0x1100 ≤ idx ∧ idx ≠ 0x1F00) ∨ (idx, sub) ∈ lowWritable) := by
  obtain ⟨hmem, rfl, rfl⟩ := findObj_some hobj
  have h := List.all_eq_true.mp objs_writable o hmem
  simpa [hacc] using h

theorem valueFormed_of_writable (p : Part) (d : Dev) (hhigh : 0x1100 ≤ idx) (hctx : idx ≠ 0x4300) : valueFormed p d idx sub = none := by
  obtain ⟨hmem, rfl, rfl⟩ := findObj_some hobj
  have h := List.all_eq_true.mp (objs_stored p d) o hmem
  simpa [hacc, Nat.not_lt.mpr hhigh, hctx] using h

end

theorem Obj.sized_iff {o : Obj} : o.sized = true ↔
    0 < o.bytes ∧ o.bytes ≤ 1024 ∧ o.recs < 1048576 ∧ (o.unit = 0 ∨ o.recs * 32 < 1048576) ∧ (o.ty = 10 ∨ (o.recs = 1 ∧ o.unit = 0)) := by
  simp [Obj.sized, and_assoc]

/-- Keys have room for every record. -/
theorem Obj.count_lt {o : Obj} (h : o.sized = true) (p : Part) : o.count p 0 < 1048576 := by
  obtain ⟨-, -, hrecs, hunit, -⟩ := Obj.sized_iff.mp h
  have hgroves : p.groves ≤ 32 := by
    unfold Part.groves
    cases p.grade <;> decide
  have hmul : o.recs * p.groves ≤ o.recs * 32 := Nat.mul_le_mul_left _ hgroves
  unfold Obj.count
  split
  · exact hrecs
  · split
    · omega
    · decide

end Sys2Proof.Machine
end

section
/-! SUPPORT. The rule of a WRITE of one record (spec/15_dictionary_protocol.md R397). -/

namespace Sys2Proof.Machine

/-- One record without a rule of its own. -/
theorem putRecs_one {p : Part} {idx sub rec v : Nat} (d : Dev) (hown : ownRule p idx sub rec v = none) :
    putRecs p idx sub d rec [v] = if recordStatus p d idx sub rec v != stOK then .error (recordStatus p d idx sub rec v, rec)
      else .ok (applyRec p d idx sub rec v) := by
  simp only [putRecs, hown, writeRecs]

/-- A refusal is no acceptance. -/
theorem not_of_accepted {c : Prop} [Decidable c] {d : Dev} {y : Dev × Rsp}
    (h : (if c then (d, Rsp.st stBadField) else y).2 = Rsp.st stOK) : ¬ c := by
  intro hc
  rw [if_pos hc] at h
  have hst : stBadField = stOK := congrArg Rsp.status h
  exact absurd hst (by decide)

/-- If it is accepted, it is applied. -/
theorem recsDone_one {p : Part} {d : Dev} {single : Bool} {idx sub rec v : Nat} {after : Dev → Dev}
    (hown : ownRule p idx sub rec v = none) (hok : (recsDone d single ((putRecs p idx sub d rec [v]).map after)).2 = Rsp.st stOK) :
    (recsDone d single ((putRecs p idx sub d rec [v]).map after)).1 = after (applyRec p d idx sub rec v) := by
  rw [putRecs_one d hown] at hok ⊢
  split
  · rename_i hst
    rw [if_pos hst] at hok
    have hsame : recordStatus p d idx sub rec v = stOK := congrArg Rsp.status hok
    simp [hsame] at hst
  · rfl

theorem chunksOf_one {α : Type} {n : Nat} {xs : List α} (hlen : xs.length = n) (hpos : 0 < n) : chunksOf n xs.length xs = [xs] := by
  subst hlen
  cases xs with
  | nil => cases hpos
  | cons x xs =>
    have hrest : chunksOf (xs.length + 1) xs.length ([] : List α) = [] := by cases xs <;> rfl
    simp [chunksOf, hrest]

section
variable {p : Part} {d : Dev} {o : Obj} {idx sub rec : Nat} {data : List Byte} (hobj : findObj idx sub = some o)
  (hok : (dictWriteRule p idx sub (o.bytes * rec) data d).2 = Rsp.st stOK)
include hobj hok

/-- Only a writable object accepts (R390). -/
theorem writable_of_accepted : o.acc = accRw := by
  simp only [dictWriteRule, hobj] at hok
  simpa using not_of_accepted hok

/-- An accepted record of a table is one the table has (R397). -/
theorem tableRule_of_accepted (hty : o.ty = 10) (hlen : data.length = o.bytes) (hgrant : idx ≠ 0x6020) :
    rec < o.count p 0 ∧ dictWriteRule p idx sub (o.bytes * rec) data d =
      recsDone d false ((putRecs p idx sub d rec [ofBytes data]).map (afterWrite p idx sub rec 1)) := by
  have hacc := writable_of_accepted hobj hok
  simp only [dictWriteRule, hobj, hacc, hty, hlen, bne_self_eq_false, Bool.false_eq_true, if_false, if_true] at hok ⊢
  have hrange := not_of_accepted hok
  simp only [Bool.or_eq_true, decide_eq_true_eq, not_or, Nat.not_lt] at hrange
  obtain ⟨⟨⟨hpos, hoff⟩, hmod⟩, hfits⟩ := hrange
  have hpos : 0 < o.bytes := Nat.pos_of_ne_zero hpos
  have hcount : rec < o.count p 0 := by
    rw [← Nat.mul_succ, Nat.mul_comm (o.count p 0)] at hfits
    exact Nat.le_of_mul_le_mul_left hfits hpos
  refine ⟨hcount, (if_neg ?_).trans ?_⟩
  · simp only [Bool.or_eq_true, decide_eq_true_eq, not_or, Nat.not_lt]
    exact ⟨⟨⟨hpos.ne', hoff⟩, hmod⟩, hfits⟩
  · simp only [hgrant, decide_false, Bool.false_and, Bool.false_eq_true, if_false, ← hlen, chunksOf_one rfl (hlen ▸ hpos),
      Nat.mul_div_cancel_left _ (hlen ▸ hpos), List.map_cons, List.map_nil, List.length_singleton]

/-- An accepted value of an object that is no table is the object's one (R397). -/
theorem scalarRule_of_accepted (hty : o.ty ≠ 10) (hpos : 0 < o.bytes) :
    rec = 0 ∧ dictWriteRule p idx sub (o.bytes * rec) data d =
      recsDone d true ((putRecs p idx sub d rec [ofBytes data]).map (afterWrite p idx sub rec 1)) := by
  have hacc := writable_of_accepted hobj hok
  simp only [dictWriteRule, hobj, hacc, hty, bne_self_eq_false, Bool.false_eq_true, if_false] at hok ⊢
  have hvalue := not_of_accepted hok
  have hrec : rec = 0 := by
    simp only [Bool.or_eq_true, not_or, bne_iff_ne, ne_eq, not_not, Nat.mul_eq_zero] at hvalue
    omega
  exact ⟨hrec, by rw [if_neg hvalue, hrec]⟩

/-- An accepted write of one whole record applies it, and what follows (R397). -/
theorem dictWriteRule_accepted (hlen : data.length = o.bytes) (hown : ownRule p idx sub rec (ofBytes data) = none)
    (hgrant : idx ≠ 0x6020) : rec < 1048576 ∧
      (dictWriteRule p idx sub (o.bytes * rec) data d).1 = afterWrite p idx sub rec 1 (applyRec p d idx sub rec (ofBytes data)) := by
  obtain ⟨hsized, -⟩ := sized_of_writable hobj (writable_of_accepted hobj hok)
  obtain ⟨hpos, -⟩ := Obj.sized_iff.mp hsized
  by_cases hty : o.ty = 10
  · obtain ⟨hrec, hrule⟩ := tableRule_of_accepted hobj hok hty hlen hgrant
    rw [hrule] at hok ⊢
    exact ⟨hrec.trans (Obj.count_lt hsized p), recsDone_one hown hok⟩
  · obtain ⟨hrec, hrule⟩ := scalarRule_of_accepted hobj hok hty hpos
    rw [hrule] at hok ⊢
    exact ⟨by omega, recsDone_one hown hok⟩

/-- An accepted record is held as its object keeps it (R389). -/
theorem dictWriteRule_holds (hlen : data.length = o.bytes) (hown : ownRule p idx sub rec (ofBytes data) = none)
    (hidx : idx ∉ [0x6003, 0x6004, 0x6020]) (hlink : linkScope idx sub = true → p.hasLink rec = true)
    (hctx : idx = 0x4300 → (d.ctx rec).busy = false) : 0x1030 < idx ∧
      (dictWriteRule p idx sub (o.bytes * rec) data d).1.rd idx sub rec = kept d idx sub rec (ofBytes data) := by
  obtain ⟨hrec, hrule⟩ := dictWriteRule_accepted hobj hok hlen hown (by simp at hidx; omega)
  have hhigh : 0x1030 < idx := by
    obtain ⟨hhigh, -⟩ | hlow := (sized_of_writable hobj (writable_of_accepted hobj hok)).2
    · omega
    · simp only [lowWritable, List.mem_cons, List.not_mem_nil, or_false, Prod.mk.injEq] at hlow
      obtain ⟨rfl, rfl⟩ | ⟨rfl, -⟩ := hlow
      · cases hown
      · decide
  rw [hrule]
  exact ⟨hhigh, ((objects_afterWrite sub rec 1 _ hidx).rd_eq idx sub rec hhigh).trans (applyRec_rd hhigh hrec hlink hctx)⟩

end

end Sys2Proof.Machine
end


section
/-! SUPPORT. A READ of one record (spec/15_dictionary_protocol.md R394, R404), and what a WRITE leaves of the store. -/

namespace Sys2Proof.Machine

/-- A record of a table's image. -/
theorem tabImage_record {w n rec : Nat} (f : Nat → Nat) (hrec : rec < n) : ((tabImage w n f).drop (w * rec)).take w = toBytes w (f rec) := by
  obtain ⟨m, rfl⟩ : ∃ m, n = rec + (m + 1) := ⟨n - rec - 1, by omega⟩
  have hbefore : ((List.range rec).flatMap (fun k => toBytes w (f k))).length = w * rec := by
    simp [List.length_flatMap, Nat.mul_comm]
  rw [tabImage, List.range_add, List.flatMap_append, ← hbefore, List.drop_left, List.range_succ_eq_map, List.map_cons, List.flatMap_cons,
    Nat.add_zero]
  exact List.take_left' (toBytes_length w _)

theorem readRangeOk_record {o : Obj} {rec : Nat} (h : o.ty = 10 ∨ rec = 0) : readRangeOk o (o.bytes * rec) o.bytes = true := by
  unfold readRangeOk
  obtain hty | rfl := h
  · simp [hty]
  · simp

section
variable {p : Part} {d : Dev} {o : Obj} {idx sub : Nat} (hobj : findObj idx sub = some o) (hacc : o.acc = accRw) (hctx : idx ≠ 0x4300)
include hobj hacc hctx

/-- A writable object's value is its records as they read. -/
theorem objValue_writable (c : Nat) : objValue p d c o = tabImage o.bytes (o.count p (tabNow d idx sub)) (recRead p d idx sub) := by
  obtain ⟨hhigh, hlock⟩ | hlow := (sized_of_writable hobj hacc).2
  · have hformed := valueFormed_of_writable hobj hacc p d hhigh hctx
    obtain ⟨-, rfl, rfl⟩ := findObj_some hobj
    rw [objValue, if_neg (Nat.not_lt.mpr hhigh), if_neg hlock, hformed]
    rfl
  · simp only [lowWritable, List.mem_cons, List.not_mem_nil, or_false, Prod.mk.injEq] at hlow
    obtain ⟨rfl, rfl⟩ | ⟨rfl, rfl⟩ := hlow
    · obtain rfl : ⟨0x1021, 4, 1, 1, 1, 2, 1, 1, 0⟩ = o := Option.some.inj hobj
      rfl
    · obtain rfl : ⟨0x1040, 2, 1, 1, 1, 255, 1, 1, 0⟩ = o := Option.some.inj hobj
      rfl

theorem readValue_writable (c : Nat) : readValue p d c o = tabImage o.bytes (o.count p (tabNow d idx sub)) (recRead p d idx sub) := by
  have hcounter : isCounter p d o = false := by simp [isCounter, hacc, accRw, accRo]
  rw [readValue, hcounter, objValue_writable hobj hacc hctx c]
  rfl

end

/-- A READ of one record of a writable object gives the record (R394, R404). -/
theorem readRsp_writable {p : Part} {d : Dev} {o : Obj} {idx sub rec : Nat} (path : Path) (c : Nat) (hobj : findObj idx sub = some o)
    (hacc : o.acc = accRw) (hctx : idx ≠ 0x4300) (hrec : rec < o.count p (tabNow d idx sub)) :
    (readRsp p d path c idx sub (o.bytes * rec) o.bytes).data = toBytes o.bytes (recRead p d idx sub rec) := by
  obtain ⟨-, hmost, -, -, hone⟩ := Obj.sized_iff.mp (sized_of_writable hobj hacc).1
  have hrange : o.ty = 10 ∨ rec = 0 := by
    obtain hty | ⟨hrecs, hunit⟩ := hone
    · exact Or.inl hty
    · rw [Obj.count, if_pos hunit] at hrec
      omega
  have hfits : min o.bytes (match path with | .slot _ => 8128 | .peer _ => 1024) = o.bytes := by
    cases path with
    | slot _ => exact Nat.min_eq_left (hmost.trans (show 1024 ≤ 8128 by decide))
    | peer _ => exact Nat.min_eq_left hmost
  simp only [readRsp, hobj, readRangeOk_record hrange, if_true, Rsp.bytes, readValue_writable hobj hacc hctx c]
  exact (congrArg (fun n => List.take n _) hfits).trans (tabImage_record _ hrec)

/-- Settles O10: by the rule of a WRITE, and what little besides the record a request and its answer move. -/
theorem dictionaryWritesTakeEffect : Obligations.DictionaryWritesTakeEffect := by
  unfold Obligations.DictionaryWritesTakeEffect
  refine ⟨?gated, ?refused, ?accepted, ?read⟩
  case gated =>
    intro p d q rq idx sub off data c st d1 k htaken hsent hlen hgate
    refine ⟨_, exec_next_of_effect rfl (serve_gated _ rfl rfl htaken hsent hlen hgate), answered_rsp .., ?_⟩
    exact (((objects_taken htaken).trans (objects_setChan ..)).trans ((objects_rearm ..).trans (objects_answered ..))).rd_eq
  case refused =>
    intro p d q rq idx sub off data c d1 k r htaken hst
    have hsame : dictWriteRule p idx sub off data d1 = (d1, r) := Prod.ext (dictWriteRule_refused hst) rfl
    refine ⟨_, next_of_act (d2 := d1) (r := r) rfl htaken (by rw [hsame]), written_rsp .., ?_⟩
    exact ((objects_writeTaken htaken).trans (objects_written ..)).rd_eq
  case accepted =>
    intro p d q rq o idx sub rec c data d1 k htaken hok hobj hlen hown hidx hlink hctx
    obtain ⟨hhigh, hheld⟩ := dictWriteRule_holds hobj hok hlen hown hidx hlink hctx
    refine ⟨_, next_of_act (r := Rsp.st stOK) rfl htaken (Prod.ext rfl (congrArg some hok)), written_rsp .., ?_⟩
    exact ((objects_written ..).rd_eq idx sub rec hhigh).trans hheld
  case read =>
    intro p d path o idx sub rec c hobj hacc hctx hrec
    exact readRsp_writable path c hobj hacc hctx hrec

end Sys2Proof.Machine
end
